-- ==== Sys2Proof/Word.lean ====
section
/-!
DEFINITION. Sys2Proof/Word.lean: the word types of the K48 and the types of the operand fields of its two instruction sets.
-/
namespace Sys2Proof

/-- One byte of memory. -/
abbrev Byte := BitVec 8
/-- The data bits of one cell (R30), and one instruction word (R83). -/
abbrev Word := BitVec 32
/-- One scalar register (R30), and one virtual address. -/
abbrev DWord := BitVec 64

/-- The width of a narrow element (R94, R96). -/
inductive NarrowWidth where
  | w8 | w6 | w4 | w16
deriving DecidableEq, Repr, Inhabited

/-- A narrow source or destination selector with its position, or the full operand (R94, R96). -/
inductive Narrow where
  | full
  | elem (w : NarrowWidth) (pos : BitVec 3)
deriving DecidableEq, Repr, Inhabited

/-- Operand b of a lane instruction: a field of the word, or the 19-bit immediate of R93. -/
inductive LaneB where
  | cell (i : BitVec 7)
  | imm (v : BitVec 19)
deriving DecidableEq, Repr, Inhabited

/-- The operand fields of a lane-set instruction (R86, R91, R92). `x` says that an extension word is present; without it the
other fields hold what the extension word 0xE000_0000 gives (R87). `c` is the third operand (R92), 0 where there is none. -/
structure LaneOps where
  x : Bool
  pg : BitVec 3
  pn : Bool
  ep : Bool
  d : BitVec 7
  a : BitVec 7
  b : LaneB
  na : Narrow
  nb : Narrow
  nd : Narrow
  c : BitVec 7
  ro : BitVec 3
  falt : Bool
  mod : BitVec 5
deriving DecidableEq, Repr, Inhabited

/-- Operand b of a scalar-set instruction: an operand code of R32, or the 27-bit immediate of R99. -/
inductive ScalarB where
  | code (c : BitVec 6)
  | imm (v : BitVec 27)
deriving DecidableEq, Repr, Inhabited

/-- The operand fields of a scalar-set instruction (R88, R99). -/
structure ScalarOps where
  x : Bool
  pred : BitVec 3
  pn : Bool
  ep : Bool
  d : BitVec 6
  a : BitVec 6
  b : ScalarB
  mod : BitVec 5
deriving DecidableEq, Repr, Inhabited

/-- The fields of the B form (R89). -/
structure BranchOps where
  hint : BitVec 2
  pred : BitVec 3
  pneg : Bool
  off : BitVec 19
deriving DecidableEq, Repr, Inhabited

/-- The decode mode of a kernel (R41 DECODE, R56). -/
inductive DecodeMode where
  | z1 | z2 | z3
deriving DecidableEq, Repr, Inhabited

/-- Why a word names no instruction (R108, R109: details 0, 1 and 4). -/
inductive Unassigned where
  | major | minor | removed
deriving DecidableEq, Repr, Inhabited

/-- The host registers that have no behaviour of their own beyond their field rules (R7, R281, R319, R365, R368, R370, R373,
R403): the targets of a plain register write. -/
inductive HostReg where
  | xlroot | balcfg | wdcfg | stgcfg | flttgt | tierfl
  | ecccnt (cls : BitVec 3)
  | other (offset : Nat)
deriving DecidableEq, Repr, Inhabited

/-- The operation of a request that arrives from a peer module or from the host through BAR2 (R402, R405, R406). -/
inductive ExtAccess where
  | read (addr len : Nat)
  | write (addr : Nat) (bytes : List Byte)
  | atomicAdd (addr : Nat) (bytes : Nat) (v : DWord)
  | atomicSwap (addr : Nat) (bytes : Nat) (v : DWord)
  | atomicCas (addr : Nat) (bytes : Nat) (cmp new : BitVec 128)
deriving DecidableEq, Repr, Inhabited

/-- The contents of one copy of the configuration store (R409). `cores` of a partition are logical core indices. -/
structure StorePartition where
  part : Nat
  cores : List Nat
  tierfl : DWord
deriving DecidableEq, Repr, Inhabited

/-- The contents of one copy of the configuration store (R409): module number, partition layout, spare choice for each C-die,
retired physical cores (die, core), default PWRLIM, the HEALTH kept at a reset by temperature (R408), repair data, whose form the spec
leaves open, and whether its signature verifies. -/
structure StoreCopy where
  serial : Nat
  valid : Bool
  modid : BitVec 12
  parts : List StorePartition
  spares : List (Nat × Nat)
  retired : List (Nat × Nat)
  pwrlim : Option (BitVec 12)
  health : DWord
  repair : List Byte
deriving DecidableEq, Repr, Inhabited

/-- What a transaction from outside the module carries: the partition whose register block it addresses (R402), the value
written (R308 to R412), the register of a plain register write, the access of a BAR2 or peer request, the function that a host
transaction comes from (0 for the PF, q + 1 for the VF of partition q, R402) or the selector of a management read (R412), the PCIe link it
arrives on (R401), whether a BAR2 or peer access, or the setup of a trial's example, is left under way (R291), the new store contents (R409),
and the physical cores (die, core) that pass the scan of a boot (R410). -/
structure Port where
  part : Nat
  data : DWord
  reg : HostReg
  access : ExtAccess
  sel : Nat
  link : Nat
  split : Bool
  store : StoreCopy
  pass : List (Nat × Nat)
deriving DecidableEq, Repr, Inhabited

end Sys2Proof
end

