-- ==== Sys2Proof/Syntax.lean ====
section
/-!
DEFINITION. Sys2Proof/Syntax.lean: the instructions of the K48, one constructor for each row of the opcode table.
-/
namespace Sys2Proof

/-- The steps of the K48 (R104, R107, and the steps without an encoding): the lane set first, then the scalar set, then the
steps that the hardware makes by itself, each with what selects the object it acts on, and last the steps that come from
outside the module (the host, a peer, the management, the die's temperature), whose data stand in the state's port. In `ld`,
`st`, `xld`, `xst`, `sld` and `sst` the first field holds the low bits of the minor (the space, or the width), and in `fcvt` it
is the minor, the destination format of R106. -/
inductive Instr where
  | iadd (o : LaneOps)
  | isub (o : LaneOps)
  | imin (o : LaneOps)
  | imax (o : LaneOps)
  | iabs (o : LaneOps)
  | iand (o : LaneOps)
  | ior (o : LaneOps)
  | ixor (o : LaneOps)
  | iandn (o : LaneOps)
  | ishl (o : LaneOps)
  | ishr (o : LaneOps)
  | isar (o : LaneOps)
  | irotl (o : LaneOps)
  | imul (o : LaneOps)
  | imulh (o : LaneOps)
  | imad (o : LaneOps)
  | idiv (o : LaneOps)
  | irem (o : LaneOps)
  | iclz (o : LaneOps)
  | ictz (o : LaneOps)
  | iffs (o : LaneOps)
  | ipopc (o : LaneOps)
  | ibrev (o : LaneOps)
  | ibfx (o : LaneOps)
  | ibfi (o : LaneOps)
  | icmpEq (o : LaneOps)
  | icmpNe (o : LaneOps)
  | icmpLt (o : LaneOps)
  | icmpLe (o : LaneOps)
  | icmpGt (o : LaneOps)
  | icmpGe (o : LaneOps)
  | isel (o : LaneOps)
  | iord (o : LaneOps)
  | fadd (o : LaneOps)
  | fsub (o : LaneOps)
  | fmul (o : LaneOps)
  | ffma (o : LaneOps)
  | fmin (o : LaneOps)
  | fmax (o : LaneOps)
  | fdiv (o : LaneOps)
  | fsqrt (o : LaneOps)
  | frcp (o : LaneOps)
  | frsq (o : LaneOps)
  | fexp2 (o : LaneOps)
  | flog2 (o : LaneOps)
  | fcmpEq (o : LaneOps)
  | fcmpNe (o : LaneOps)
  | fcmpLt (o : LaneOps)
  | fcmpLe (o : LaneOps)
  | fcmpGt (o : LaneOps)
  | fcmpGe (o : LaneOps)
  | fcmpUn (o : LaneOps)
  | fclass (o : LaneOps)
  | fcvt (f : BitVec 4) (o : LaneOps)
  | xadd (o : LaneOps)
  | xsub (o : LaneOps)
  | xmul (o : LaneOps)
  | xfma (o : LaneOps)
  | xdiv (o : LaneOps)
  | xsqrt (o : LaneOps)
  | xmin (o : LaneOps)
  | xmax (o : LaneOps)
  | xcmp (o : LaneOps)
  | xrndP (o : LaneOps)
  | xrndInt (o : LaneOps)
  | xcvt (o : LaneOps)
  | xscale (o : LaneOps)
  | xsigGet (o : LaneOps)
  | xsigSet (o : LaneOps)
  | xtag (o : LaneOps)
  | ld (k : BitVec 2) (o : LaneOps)
  | st (k : BitVec 2) (o : LaneOps)
  | xld (k : BitVec 2) (o : LaneOps)
  | xst (k : BitVec 2) (o : LaneOps)
  | amoAddB32 (o : LaneOps)
  | amoAddB64 (o : LaneOps)
  | amoMinI32 (o : LaneOps)
  | amoMinN32 (o : LaneOps)
  | amoMaxI32 (o : LaneOps)
  | amoMaxN32 (o : LaneOps)
  | amoAndB32 (o : LaneOps)
  | amoOrB32 (o : LaneOps)
  | amoXorB32 (o : LaneOps)
  | amoSwapB32 (o : LaneOps)
  | amoSwapB64 (o : LaneOps)
  | amoCasB32 (o : LaneOps)
  | amoCasB64 (o : LaneOps)
  | amoCasB128 (o : LaneOps)
  | amoFaddF32 (o : LaneOps)
  | shflIdx (o : LaneOps)
  | shflUp (o : LaneOps)
  | shflDown (o : LaneOps)
  | shflXor (o : LaneOps)
  | voteAny (o : LaneOps)
  | voteAll (o : LaneOps)
  | voteBallot (o : LaneOps)
  | voteUniform (o : LaneOps)
  | red (o : LaneOps)
  | scanIncl (o : LaneOps)
  | scanExcl (o : LaneOps)
  | permbNib (o : LaneOps)
  | permbByte (o : LaneOps)
  | vmov (o : LaneOps)
  | smovTov (o : LaneOps)
  | smovTos (o : LaneOps)
  | movpTov (o : LaneOps)
  | movpTop (o : LaneOps)
  | sigfB32 (o : LaneOps)
  | sigfB64 (o : LaneOps)
  | add (o : ScalarOps)
  | sub (o : ScalarOps)
  | minI (o : ScalarOps)
  | maxI (o : ScalarOps)
  | minN (o : ScalarOps)
  | maxN (o : ScalarOps)
  | and (o : ScalarOps)
  | or (o : ScalarOps)
  | xor (o : ScalarOps)
  | andn (o : ScalarOps)
  | shl (o : ScalarOps)
  | shr (o : ScalarOps)
  | sar (o : ScalarOps)
  | rotl (o : ScalarOps)
  | mul (o : ScalarOps)
  | mulhI (o : ScalarOps)
  | mulhN (o : ScalarOps)
  | divI (o : ScalarOps)
  | divN (o : ScalarOps)
  | remI (o : ScalarOps)
  | remN (o : ScalarOps)
  | clz (o : ScalarOps)
  | ctz (o : ScalarOps)
  | ffs (o : ScalarOps)
  | popc (o : ScalarOps)
  | brev (o : ScalarOps)
  | bfx (o : ScalarOps)
  | bfi (o : ScalarOps)
  | cmpEq (o : ScalarOps)
  | cmpNe (o : ScalarOps)
  | cmpLtI (o : ScalarOps)
  | cmpLeI (o : ScalarOps)
  | cmpLtN (o : ScalarOps)
  | cmpLeN (o : ScalarOps)
  | sel (o : ScalarOps)
  | plop (o : ScalarOps)
  | movi (o : ScalarOps)
  | movhi (o : ScalarOps)
  | br (o : BranchOps)
  | jmp (o : ScalarOps)
  | call (o : ScalarOps)
  | calli (o : ScalarOps)
  | ret (o : ScalarOps)
  | csw (o : ScalarOps)
  | nop (o : ScalarOps)
  | yield (o : ScalarOps)
  | spawn (o : ScalarOps)
  | await (o : ScalarOps)
  | exit (o : ScalarOps)
  | cjoin (o : ScalarOps)
  | cpart (o : ScalarOps)
  | ccompact (o : ScalarOps)
  | cbar (o : ScalarOps)
  | carrive (o : ScalarOps)
  | cwait (o : ScalarOps)
  | fence (o : ScalarOps)
  | pfence (o : ScalarOps)
  | waitcCopy (o : ScalarOps)
  | waitcMatrix (o : ScalarOps)
  | waitcSelect (o : ScalarOps)
  | waitcTrial (o : ScalarOps)
  | csrr (o : ScalarOps)
  | csrw (o : ScalarOps)
  | csrs (o : ScalarOps)
  | csrc (o : ScalarOps)
  | trap (o : ScalarOps)
  | tretRetry (o : ScalarOps)
  | tretSkip (o : ScalarOps)
  | tclr (o : ScalarOps)
  | obres (o : ScalarOps)
  | obrel (o : ScalarOps)
  | mxgo (o : ScalarOps)
  | mxclr (o : ScalarOps)
  | accrd (o : ScalarOps)
  | accwr (o : ScalarOps)
  | cpyCopy (o : ScalarOps)
  | cpyFill (o : ScalarOps)
  | cpyLook (o : ScalarOps)
  | selRun (o : ScalarOps)
  | trial (o : ScalarOps)
  | cbwr (o : ScalarOps)
  | lqput (o : ScalarOps)
  | permit (o : ScalarOps)
  | rand (o : ScalarOps)
  | sld (k : BitVec 3) (o : ScalarOps)
  | sst (k : BitVec 2) (o : ScalarOps)
  | loadComplete (id : Nat)
  | xldComplete (id : Nat)
  | sldData (part core slot : Nat)
  | atomicComplete (id : Nat)
  | spawnComplete (id : Nat)
  | awaitComplete (id : Nat)
  | stagePage (part launch page : Nat)
  | wcDrain (part core line : Nat)
  | reservationRelease (part core handle : Nat)
  | matrixCommandStart (part core : Nat)
  | matrixBoundary (part core : Nat)
  | matrixSpillComplete (part core : Nat)
  | matrixResume (part core : Nat)
  | matrixCommandComplete (part core : Nat)
  | copyBurst (part core : Nat)
  | copyComplete (part core id : Nat)
  | codeBankWriteStart (part core id : Nat)
  | lookaheadComplete (part core id : Nat)
  | selectPass (part core : Nat)
  | selectComplete (part core : Nat)
  | trialStart (part core tid : Nat)
  | exampleFold (part core slot : Nat)
  | fuelExhausted (part core slot : Nat)
  | dedupLookup (part core id : Nat)
  | dispatch (part : Nat)
  | waitWordPoll (part q : Nat)
  | patchApply (part q : Nat)
  | crewAssign (part : Nat)
  | threadStart (part core : Nat)
  | balanceTick (part : Nat)
  | signalIncrement (part launch : Nat)
  | launchCommit (part launch : Nat)
  | grantRefresh (grants : List Nat)
  | tierHandStep (free : Nat)
  | tierFetchComplete (part page frame : Nat)
  | watchdogExpiry (part core slot : Nat)
  | patrolScrub (granule : Nat)
  | peerTimeout (id : Nat)
  | sliceExpiry (part : Nat)
  | swapHaltComplete (part : Nat)
  | swapExchangeComplete (part : Nat)
  | migration (core : Nat)
  | migrationComplete (core : Nat)
  | scanComplete (die core : Nat) (pass : Bool)
  | xlinvComplete (part : Nat)
  | unassignedMajorOrMinor (why : Unassigned)
  | filterCacheDrop (part core idx : Nat)
  | peerRequest
  | hostBar2Access
  | lqdb
  | lqstatClear
  | xlinvPage
  | xlinvPartition
  | pswapGo
  | pswapPair
  | stkap
  | retry
  | skip
  | skipclr
  | kill
  | ack
  | pwrlim
  | tierwm
  | resetctl
  | registerWrite
  | functionLevelReset
  | coldBoot
  | temperatureChange
  | mgmtReadStatus
  | mgmtSetPwrlim
  | mgmtReadStore
  | mgmtRewriteStore
  | mgmtReset
  | fltcmdRefusedAct
  | xlinvRefusedKind
deriving DecidableEq, Repr, Inhabited

end Sys2Proof
end

