-- ==== Sys2Proof/WellFormed.lean ====
section
/-!
DEFINITION. Sys2Proof/WellFormed.lean: the opcode map (R104, R107) with the field letters of R103, and the static decode checks
of R101 (check 4, and the part of check 5 that needs no window): which instructions the encoding admits.
-/
namespace Sys2Proof

/-- Why the decoder refuses a word whose major and minor are assigned (R101): a reserved or excluded field value (check 4,
detail 2 of R109), or an illegal register (check 5, detail 3). -/
inductive DecodeError where
  | reserved
  | register
deriving DecidableEq, Repr, Inhabited

/-- The kind of an operand field (R103). -/
inductive Letter where
  | cell      -- v and x: a cell index
  | immCell   -- imm in a V word: a cell, or the immediate when NSB = 7
  | sreg      -- s: a scalar register, or an operand code of R32
  | pred      -- p: a predicate, higher bits 0
  | lit       -- k: a literal value
  | zero      -- 0: the field must be 0
deriving DecidableEq, Repr, Inhabited

/-- The third operand of the third-operand shape (R92). -/
inductive Third where
  | none | cell | pred
deriving DecidableEq, Repr, Inhabited

/-- What the encoding admits for one lane instruction: the letters of d, a, b and the third operand, whether RO must be 0,
whether narrow sources and a narrow destination are admitted (R98) and in which class (R95), the width a narrow source must have
(R153), and whether MOD is listed (R105). -/
structure LaneSig where
  d : Letter
  a : Letter
  b : Letter
  third : Third
  roZero : Bool
  narrowSrc : Bool
  narrowDst : Bool
  float : Bool
  srcWidth : Option NarrowWidth
  modOk : Bool
deriving DecidableEq, Repr, Inhabited

/-- When the immediate of R99 is admitted. -/
inductive ImfUse where
  | never | optional | required
deriving DecidableEq, Repr, Inhabited

/-- What the encoding admits for one scalar instruction (R107): the letters, the use of IMF, whether MOD is listed, and the
limits of its literals. -/
structure ScalarSig where
  d : Letter
  a : Letter
  b : Letter
  imf : ImfUse
  modOk : Bool
  extra : Bool
deriving DecidableEq, Repr, Inhabited

/-- The place of an instruction in the opcode map, with its signature and operands. -/
inductive Form where
  | lane (major minor : Nat) (sig : LaneSig) (o : LaneOps)
  | scalar (major minor : Nat) (sig : ScalarSig) (o : ScalarOps)
  | branch (o : BranchOps)
  | step                          -- no encoding: a step of the hardware, the host or the management
deriving DecidableEq, Repr

/-- The integer MOD of R105 and R149: kind in `kinds`, packed widths 1 and 2 only where `packed`, .sat only where `sat`. -/
def intMod (m : BitVec 5) (kinds : List Nat) (packed sat : Bool) : Bool :=
  kinds.contains (m.extractLsb' 0 2).toNat &&
  (packed || (m.extractLsb' 2 2 != 1#2 && m.extractLsb' 2 2 != 2#2)) &&
  (sat || !m[4])

/-- The float MOD of R195. -/
def floatMod (m : BitVec 5) : Bool := m.toNat ≤ 3

/-- The ST widths of R171. -/
def storeMod (m : BitVec 5) : Bool := [0, 2, 4, 5, 6].contains m.toNat

/-- The RED and SCAN MOD of R105: op in bits 2:0, type in bits 4:3, no .f32 with .and, .or, .xor. -/
def laneReduceMod (m : BitVec 5) : Bool :=
  (m.extractLsb' 0 3).toNat ≤ 5 && (m.extractLsb' 3 2).toNat ≤ 2 &&
  !((m.extractLsb' 3 2).toNat == 2 && 3 ≤ (m.extractLsb' 0 3).toNat)

/-- A lane instruction that admits no narrowing (R98). -/
def plainSig (d a b : Letter) (third : Third) (modOk : Bool) : LaneSig :=
  ⟨d, a, b, third, false, false, false, false, none, modOk⟩

/-- An integer major: narrow operands only at width 32 (R98, R105). -/
def intSig (o : LaneOps) (a b : Letter) (third : Third) (dst modOk : Bool) : LaneSig :=
  let w32 := o.mod.extractLsb' 2 2 == 0#2
  ⟨if dst then .cell else .pred, a, b, third, false, w32, w32 && dst, false, none, modOk⟩

/-- MOVE: as an integer major, with its own letters (R104). -/
def moveSig (o : LaneOps) (d a b : Letter) (dst modOk : Bool) : LaneSig :=
  let w32 := o.mod.extractLsb' 2 2 == 0#2
  ⟨d, a, b, .none, false, w32, w32 && dst, false, none, modOk⟩

/-- A float major: narrow operands only with .f32 (R195). -/
def floatSig (o : LaneOps) (d b : Letter) (third : Third) (dst modOk : Bool) : LaneSig :=
  let f32 := o.mod == 0#5
  ⟨d, .cell, b, third, false, f32, f32 && dst, true, none, modOk⟩

/-- The narrow width of a format code of R106, where it is narrower than 32 bits. -/
def fmtNarrow (m : BitVec 5) : Option NarrowWidth :=
  match m.toNat with
  | 0x1 | 0x2 | 0xB | 0xC => some .w16
  | 0x4 | 0x5 | 0x9 | 0xA => some .w8
  | 0x6 | 0x7 => some .w6
  | 0x8 => some .w4
  | _ => none

/-- IORD (R153): MOD is a format code, and a narrow source has exactly the format's width, so that a format of 32 or 64 bits has none; a
64-bit format has no narrow destination. -/
def iordSig (o : LaneOps) : LaneSig :=
  ⟨.cell, .cell, .zero, .none, false, (fmtNarrow o.mod).isSome, o.mod != 3#5 && o.mod != 15#5, false, fmtNarrow o.mod, o.mod.toNat ≤ 15⟩

/-- The limits of CSW (R156). -/
def cswOk (o : ScalarOps) : Bool :=
  o.d != o.a && o.d != 30#6 && o.a != 30#6 && o.d.toNat < 32 && o.a.toNat < 32

/-- The PFENCE path mask (R107): bits 5:4 are 0 and at least two of bits 3:0 are set. -/
def pfenceOk (o : ScalarOps) : Bool :=
  match o.b with
  | .code c => c.toNat < 16 && 2 ≤ (c.getLsbD 0).toNat + (c.getLsbD 1).toNat + (c.getLsbD 2).toNat + (c.getLsbD 3).toNat
  | .imm _ => false

/-- The immediate lies in 0..n−1 (R107: CSR addresses, TRAP codes). -/
def immBelow (o : ScalarOps) (n : Nat) : Bool :=
  match o.b with
  | .code _ => false
  | .imm v => v.toNat < n

/-- The opcode map (R104, R107): set, major, minor and signature of every instruction. -/
def Instr.form : Instr → Form
  | .iadd o => .lane 0 0 (intSig o .cell .immCell .none true (intMod o.mod [0, 1, 2] true true && !(o.mod[4] && o.mod.extractLsb' 0 2 == 2#2))) o
  | .isub o => .lane 0 1 (intSig o .cell .immCell .none true (intMod o.mod [0, 1, 2] true true && !(o.mod[4] && o.mod.extractLsb' 0 2 == 2#2))) o
  | .imin o => .lane 0 2 (intSig o .cell .immCell .none true (intMod o.mod [0, 1] true false)) o
  | .imax o => .lane 0 3 (intSig o .cell .immCell .none true (intMod o.mod [0, 1] true false)) o
  | .iabs o => .lane 0 4 (intSig o .cell .zero .none true (intMod o.mod [0] true false)) o
  | .iand o => .lane 0 5 (intSig o .cell .immCell .none true (intMod o.mod [0, 1, 2] true false)) o
  | .ior o => .lane 0 6 (intSig o .cell .immCell .none true (intMod o.mod [0, 1, 2] true false)) o
  | .ixor o => .lane 0 7 (intSig o .cell .immCell .none true (intMod o.mod [0, 1, 2] true false)) o
  | .iandn o => .lane 0 8 (intSig o .cell .immCell .none true (intMod o.mod [0, 1, 2] true false)) o
  | .ishl o => .lane 1 0 (intSig o .cell .immCell .none true (intMod o.mod [0, 1, 2] true false)) o
  | .ishr o => .lane 1 1 (intSig o .cell .immCell .none true (intMod o.mod [0, 1, 2] true false)) o
  | .isar o => .lane 1 2 (intSig o .cell .immCell .none true (intMod o.mod [0, 1, 2] true false)) o
  | .irotl o => .lane 1 3 (intSig o .cell .immCell .none true (intMod o.mod [0, 1, 2] true false)) o
  | .imul o => .lane 2 0 (intSig o .cell .immCell .none true (intMod o.mod [0, 1, 2] true false)) o
  | .imulh o => .lane 2 1 (intSig o .cell .immCell .none true (intMod o.mod [0, 1] true false)) o
  | .imad o => .lane 2 2 (intSig o .cell .cell .cell true (intMod o.mod [0, 1, 2] true false)) o
  | .idiv o => .lane 2 3 (intSig o .cell .immCell .none true (intMod o.mod [0, 1] false false)) o
  | .irem o => .lane 2 4 (intSig o .cell .immCell .none true (intMod o.mod [0, 1] false false)) o
  | .iclz o => .lane 3 0 (intSig o .cell .zero .none true (intMod o.mod [0, 1, 2] true false)) o
  | .ictz o => .lane 3 1 (intSig o .cell .zero .none true (intMod o.mod [0, 1, 2] true false)) o
  | .iffs o => .lane 3 2 (intSig o .cell .zero .none true (intMod o.mod [0, 1, 2] true false)) o
  | .ipopc o => .lane 3 3 (intSig o .cell .zero .none true (intMod o.mod [0, 1, 2] true false)) o
  | .ibrev o => .lane 3 4 (intSig o .cell .zero .none true (intMod o.mod [0, 1, 2] true false)) o
  | .ibfx o => .lane 3 5 (intSig o .cell .immCell .none true (intMod o.mod [0, 1, 2] false false)) o
  | .ibfi o => .lane 3 6 (intSig o .cell .cell .cell true (intMod o.mod [0, 1, 2] false false)) o
  | .icmpEq o => .lane 4 0 (intSig o .cell .immCell .none false (intMod o.mod [0, 1, 2] false false)) o
  | .icmpNe o => .lane 4 1 (intSig o .cell .immCell .none false (intMod o.mod [0, 1, 2] false false)) o
  | .icmpLt o => .lane 4 2 (intSig o .cell .immCell .none false (intMod o.mod [0, 1] false false)) o
  | .icmpLe o => .lane 4 3 (intSig o .cell .immCell .none false (intMod o.mod [0, 1] false false)) o
  | .icmpGt o => .lane 4 4 (intSig o .cell .immCell .none false (intMod o.mod [0, 1] false false)) o
  | .icmpGe o => .lane 4 5 (intSig o .cell .immCell .none false (intMod o.mod [0, 1] false false)) o
  | .isel o => .lane 4 6 (intSig o .cell .cell .pred true (intMod o.mod [0, 1, 2] true false)) o
  | .iord o => .lane 4 7 (iordSig o) o
  | .fadd o => .lane 5 0 (floatSig o .cell .cell .none true (floatMod o.mod)) o
  | .fsub o => .lane 5 1 (floatSig o .cell .cell .none true (floatMod o.mod)) o
  | .fmul o => .lane 5 2 (floatSig o .cell .cell .none true (floatMod o.mod)) o
  | .ffma o => .lane 5 3 (floatSig o .cell .cell .cell true (floatMod o.mod)) o
  | .fmin o => .lane 5 4 (floatSig o .cell .cell .none true (floatMod o.mod)) o
  | .fmax o => .lane 5 5 (floatSig o .cell .cell .none true (floatMod o.mod)) o
  | .fdiv o => .lane 5 6 (floatSig o .cell .cell .none true (floatMod o.mod)) o
  | .fsqrt o => .lane 6 0 (floatSig o .cell .zero .none true (floatMod o.mod)) o
  | .frcp o => .lane 6 1 (floatSig o .cell .zero .none true (floatMod o.mod)) o
  | .frsq o => .lane 6 2 (floatSig o .cell .zero .none true (floatMod o.mod)) o
  | .fexp2 o => .lane 6 3 (floatSig o .cell .zero .none true (floatMod o.mod)) o
  | .flog2 o => .lane 6 4 (floatSig o .cell .zero .none true (floatMod o.mod)) o
  | .fcmpEq o => .lane 7 0 (floatSig o .pred .cell .none false (o.mod == 0#5 || o.mod == 3#5)) o
  | .fcmpNe o => .lane 7 1 (floatSig o .pred .cell .none false (o.mod == 0#5 || o.mod == 3#5)) o
  | .fcmpLt o => .lane 7 2 (floatSig o .pred .cell .none false (o.mod == 0#5 || o.mod == 3#5)) o
  | .fcmpLe o => .lane 7 3 (floatSig o .pred .cell .none false (o.mod == 0#5 || o.mod == 3#5)) o
  | .fcmpGt o => .lane 7 4 (floatSig o .pred .cell .none false (o.mod == 0#5 || o.mod == 3#5)) o
  | .fcmpGe o => .lane 7 5 (floatSig o .pred .cell .none false (o.mod == 0#5 || o.mod == 3#5)) o
  | .fcmpUn o => .lane 7 6 (floatSig o .pred .cell .none false (o.mod == 0#5 || o.mod == 3#5)) o
  | .fclass o => .lane 7 7 (floatSig o .cell .zero .none false (floatMod o.mod)) o
  | .fcvt f o => .lane 8 f.toNat (plainSig .cell .cell .zero .none (o.mod.toNat ≤ 15)) o
  | .xadd o => .lane 9 0 (plainSig .cell .cell .cell .none (o.mod == 0#5)) o
  | .xsub o => .lane 9 1 (plainSig .cell .cell .cell .none (o.mod == 0#5)) o
  | .xmul o => .lane 9 2 (plainSig .cell .cell .cell .none (o.mod == 0#5)) o
  | .xfma o => .lane 9 3 (plainSig .cell .cell .cell .cell (o.mod == 0#5)) o
  | .xdiv o => .lane 9 4 (plainSig .cell .cell .cell .none (o.mod == 0#5)) o
  | .xsqrt o => .lane 9 5 (plainSig .cell .cell .zero .none (o.mod == 0#5)) o
  | .xmin o => .lane 9 6 (plainSig .cell .cell .cell .none (o.mod == 0#5)) o
  | .xmax o => .lane 9 7 (plainSig .cell .cell .cell .none (o.mod == 0#5)) o
  | .xcmp o => .lane 10 0 (plainSig .pred .cell .cell .none (o.mod.toNat ≤ 4)) o
  | .xrndP o => .lane 10 1 (plainSig .cell .cell .zero .none (o.mod == 0#5)) o
  | .xrndInt o => .lane 10 2 (plainSig .cell .cell .zero .none (o.mod == 0#5)) o
  | .xcvt o => .lane 10 3 (plainSig .cell .cell .zero .none (o.mod.toNat ≤ 5)) o
  | .xscale o => .lane 10 4 (plainSig .cell .cell .cell .none (o.mod == 0#5)) o
  | .xsigGet o => .lane 10 5 (plainSig .cell .cell .zero .none (o.mod == 0#5)) o
  | .xsigSet o => .lane 10 6 (plainSig .cell .cell .cell .none (o.mod == 0#5)) o
  | .xtag o => .lane 10 7 (plainSig .cell .cell .zero .none (o.mod == 0#5)) o
  | .ld k o => .lane 11 k.toNat { plainSig .cell .sreg .immCell .none (o.mod.toNat ≤ 6) with roZero := true } o
  | .st k o => .lane 12 k.toNat { plainSig .cell .sreg .immCell .none (storeMod o.mod && k != 2#2) with roZero := true } o
  | .xld k o => .lane 13 k.toNat (plainSig .cell .sreg .immCell .none (o.mod == 0#5)) o
  | .xst k o => .lane 13 (4 + k.toNat) (plainSig .cell .sreg .immCell .none (o.mod == 0#5 && k != 2#2)) o
  | .amoAddB32 o => .lane 14 0 (plainSig .cell .sreg .immCell .none true) o
  | .amoAddB64 o => .lane 14 1 (plainSig .cell .sreg .immCell .none true) o
  | .amoMinI32 o => .lane 14 2 (plainSig .cell .sreg .immCell .none true) o
  | .amoMinN32 o => .lane 14 3 (plainSig .cell .sreg .immCell .none true) o
  | .amoMaxI32 o => .lane 14 4 (plainSig .cell .sreg .immCell .none true) o
  | .amoMaxN32 o => .lane 14 5 (plainSig .cell .sreg .immCell .none true) o
  | .amoAndB32 o => .lane 14 6 (plainSig .cell .sreg .immCell .none true) o
  | .amoOrB32 o => .lane 14 7 (plainSig .cell .sreg .immCell .none true) o
  | .amoXorB32 o => .lane 14 8 (plainSig .cell .sreg .immCell .none true) o
  | .amoSwapB32 o => .lane 14 9 (plainSig .cell .sreg .immCell .none true) o
  | .amoSwapB64 o => .lane 14 10 (plainSig .cell .sreg .immCell .none true) o
  | .amoCasB32 o => .lane 14 11 (plainSig .cell .sreg .cell .cell true) o
  | .amoCasB64 o => .lane 14 12 (plainSig .cell .sreg .cell .cell true) o
  | .amoCasB128 o => .lane 14 13 (plainSig .cell .sreg .cell .cell true) o
  | .amoFaddF32 o => .lane 14 14 (plainSig .cell .sreg .immCell .none true) o
  | .shflIdx o => .lane 15 0 (plainSig .cell .cell .immCell .none (o.mod.toNat ≤ 7)) o
  | .shflUp o => .lane 15 1 (plainSig .cell .cell .immCell .none (o.mod.toNat ≤ 7)) o
  | .shflDown o => .lane 15 2 (plainSig .cell .cell .immCell .none (o.mod.toNat ≤ 7)) o
  | .shflXor o => .lane 15 3 (plainSig .cell .cell .immCell .none (o.mod.toNat ≤ 7)) o
  | .voteAny o => .lane 15 4 (plainSig .pred .pred .zero .none (o.mod == 0#5)) o
  | .voteAll o => .lane 15 5 (plainSig .pred .pred .zero .none (o.mod == 0#5)) o
  | .voteBallot o => .lane 15 6 (plainSig .cell .pred .zero .none (o.mod == 0#5)) o
  | .voteUniform o => .lane 15 7 (plainSig .pred .pred .zero .none (o.mod == 0#5)) o
  | .red o => .lane 15 8 (plainSig .cell .cell .zero .none (laneReduceMod o.mod)) o
  | .scanIncl o => .lane 15 9 (plainSig .cell .cell .zero .none (laneReduceMod o.mod)) o
  | .scanExcl o => .lane 15 10 (plainSig .cell .cell .zero .none (laneReduceMod o.mod)) o
  | .permbNib o => .lane 15 11 (plainSig .cell .cell .immCell .none (o.mod == 0#5)) o
  | .permbByte o => .lane 15 12 (plainSig .cell .cell .immCell .none (o.mod.toNat ≤ 1)) o
  | .vmov o => .lane 16 0 (moveSig o .cell .zero .immCell true (intMod o.mod [0, 1, 2] true false)) o
  | .smovTov o => .lane 16 1 (moveSig o .cell .sreg .zero true (intMod o.mod [0, 1, 2] false false)) o
  | .smovTos o => .lane 16 2 (moveSig o .sreg .cell .zero true (intMod o.mod [0, 1, 2] false false)) o
  | .movpTov o => .lane 16 3 (moveSig o .cell .zero .zero true (o.mod == 0#5)) o
  | .movpTop o => .lane 16 4 (moveSig o .zero .cell .zero true (o.mod == 0#5)) o
  | .sigfB32 o => .lane 17 0 { plainSig .zero .cell .zero .none (o.mod == 0#5) with roZero := true } o
  | .sigfB64 o => .lane 17 1 { plainSig .zero .cell .zero .none (o.mod == 0#5) with roZero := true } o
  | .add o => .scalar 0 0 ⟨.sreg, .sreg, .sreg, .optional, (o.mod == 0#5), true⟩ o
  | .sub o => .scalar 0 1 ⟨.sreg, .sreg, .sreg, .optional, (o.mod == 0#5), true⟩ o
  | .minI o => .scalar 0 2 ⟨.sreg, .sreg, .sreg, .optional, (o.mod == 0#5), true⟩ o
  | .maxI o => .scalar 0 3 ⟨.sreg, .sreg, .sreg, .optional, (o.mod == 0#5), true⟩ o
  | .minN o => .scalar 0 4 ⟨.sreg, .sreg, .sreg, .optional, (o.mod == 0#5), true⟩ o
  | .maxN o => .scalar 0 5 ⟨.sreg, .sreg, .sreg, .optional, (o.mod == 0#5), true⟩ o
  | .and o => .scalar 0 6 ⟨.sreg, .sreg, .sreg, .optional, (o.mod == 0#5), true⟩ o
  | .or o => .scalar 0 7 ⟨.sreg, .sreg, .sreg, .optional, (o.mod == 0#5), true⟩ o
  | .xor o => .scalar 0 8 ⟨.sreg, .sreg, .sreg, .optional, (o.mod == 0#5), true⟩ o
  | .andn o => .scalar 0 9 ⟨.sreg, .sreg, .sreg, .optional, (o.mod == 0#5), true⟩ o
  | .shl o => .scalar 1 0 ⟨.sreg, .sreg, .sreg, .optional, (o.mod == 0#5), true⟩ o
  | .shr o => .scalar 1 1 ⟨.sreg, .sreg, .sreg, .optional, (o.mod == 0#5), true⟩ o
  | .sar o => .scalar 1 2 ⟨.sreg, .sreg, .sreg, .optional, (o.mod == 0#5), true⟩ o
  | .rotl o => .scalar 1 3 ⟨.sreg, .sreg, .sreg, .optional, (o.mod == 0#5), true⟩ o
  | .mul o => .scalar 2 0 ⟨.sreg, .sreg, .sreg, .optional, (o.mod == 0#5), true⟩ o
  | .mulhI o => .scalar 2 1 ⟨.sreg, .sreg, .sreg, .optional, (o.mod == 0#5), true⟩ o
  | .mulhN o => .scalar 2 2 ⟨.sreg, .sreg, .sreg, .optional, (o.mod == 0#5), true⟩ o
  | .divI o => .scalar 2 3 ⟨.sreg, .sreg, .sreg, .optional, (o.mod == 0#5), true⟩ o
  | .divN o => .scalar 2 4 ⟨.sreg, .sreg, .sreg, .optional, (o.mod == 0#5), true⟩ o
  | .remI o => .scalar 2 5 ⟨.sreg, .sreg, .sreg, .optional, (o.mod == 0#5), true⟩ o
  | .remN o => .scalar 2 6 ⟨.sreg, .sreg, .sreg, .optional, (o.mod == 0#5), true⟩ o
  | .clz o => .scalar 3 0 ⟨.sreg, .sreg, .zero, .never, (o.mod == 0#5), true⟩ o
  | .ctz o => .scalar 3 1 ⟨.sreg, .sreg, .zero, .never, (o.mod == 0#5), true⟩ o
  | .ffs o => .scalar 3 2 ⟨.sreg, .sreg, .zero, .never, (o.mod == 0#5), true⟩ o
  | .popc o => .scalar 3 3 ⟨.sreg, .sreg, .zero, .never, (o.mod == 0#5), true⟩ o
  | .brev o => .scalar 3 4 ⟨.sreg, .sreg, .zero, .never, (o.mod == 0#5), true⟩ o
  | .bfx o => .scalar 3 5 ⟨.sreg, .sreg, .sreg, .optional, (o.mod == 0#5), true⟩ o
  | .bfi o => .scalar 3 6 ⟨.sreg, .sreg, .sreg, .optional, (o.mod == 0#5), true⟩ o
  | .cmpEq o => .scalar 4 0 ⟨.pred, .sreg, .sreg, .optional, (o.mod == 0#5), true⟩ o
  | .cmpNe o => .scalar 4 1 ⟨.pred, .sreg, .sreg, .optional, (o.mod == 0#5), true⟩ o
  | .cmpLtI o => .scalar 4 2 ⟨.pred, .sreg, .sreg, .optional, (o.mod == 0#5), true⟩ o
  | .cmpLeI o => .scalar 4 3 ⟨.pred, .sreg, .sreg, .optional, (o.mod == 0#5), true⟩ o
  | .cmpLtN o => .scalar 4 4 ⟨.pred, .sreg, .sreg, .optional, (o.mod == 0#5), true⟩ o
  | .cmpLeN o => .scalar 4 5 ⟨.pred, .sreg, .sreg, .optional, (o.mod == 0#5), true⟩ o
  | .sel o => .scalar 4 6 ⟨.sreg, .sreg, .sreg, .optional, (o.mod.toNat ≤ 7), true⟩ o
  | .plop o => .scalar 4 7 ⟨.pred, .pred, .pred, .never, (o.mod.toNat ≤ 6), true⟩ o
  | .movi o => .scalar 5 0 ⟨.sreg, .zero, .sreg, .required, (o.mod == 0#5), true⟩ o
  | .movhi o => .scalar 5 1 ⟨.sreg, .zero, .sreg, .required, (o.mod == 0#5), true⟩ o
  | .br o => .branch o
  | .jmp o => .scalar 7 0 ⟨.zero, .sreg, .sreg, .optional, (o.mod == 0#5), true⟩ o
  | .call o => .scalar 7 1 ⟨.zero, .zero, .sreg, .required, (o.mod == 0#5), true⟩ o
  | .calli o => .scalar 7 2 ⟨.zero, .sreg, .zero, .never, (o.mod == 0#5), true⟩ o
  | .ret o => .scalar 7 3 ⟨.zero, .zero, .zero, .never, (o.mod == 0#5), true⟩ o
  | .csw o => .scalar 7 4 ⟨.sreg, .sreg, .zero, .never, (o.mod == 0#5), (cswOk o)⟩ o
  | .nop o => .scalar 8 0 ⟨.zero, .zero, .zero, .never, (o.mod == 0#5), true⟩ o
  | .yield o => .scalar 8 1 ⟨.zero, .zero, .zero, .never, (o.mod == 0#5), true⟩ o
  | .spawn o => .scalar 8 2 ⟨.cell, .sreg, .sreg, .optional, (o.mod == 0#5), true⟩ o
  | .await o => .scalar 8 3 ⟨.cell, .sreg, .zero, .never, (o.mod == 0#5), true⟩ o
  | .exit o => .scalar 8 4 ⟨.zero, .sreg, .zero, .never, (o.mod == 0#5), true⟩ o
  | .cjoin o => .scalar 9 0 ⟨.pred, .sreg, .zero, .never, (o.mod == 0#5), true⟩ o
  | .cpart o => .scalar 9 1 ⟨.zero, .zero, .zero, .never, (o.mod == 0#5), true⟩ o
  | .ccompact o => .scalar 9 2 ⟨.zero, .zero, .zero, .never, (o.mod == 0#5), true⟩ o
  | .cbar o => .scalar 9 3 ⟨.zero, .zero, .zero, .never, (o.mod == 0#5), true⟩ o
  | .carrive o => .scalar 9 4 ⟨.zero, .zero, .zero, .never, (o.mod == 0#5), true⟩ o
  | .cwait o => .scalar 9 5 ⟨.zero, .zero, .zero, .never, (o.mod == 0#5), true⟩ o
  | .fence o => .scalar 10 0 ⟨.zero, .zero, .zero, .never, (o.mod.toNat ≤ 4), true⟩ o
  | .pfence o => .scalar 10 1 ⟨.zero, .zero, .lit, .never, (o.mod == 0#5), (pfenceOk o)⟩ o
  | .waitcCopy o => .scalar 10 2 ⟨.zero, .zero, .sreg, .optional, (o.mod == 0#5), true⟩ o
  | .waitcMatrix o => .scalar 10 3 ⟨.zero, .zero, .sreg, .optional, (o.mod == 0#5), true⟩ o
  | .waitcSelect o => .scalar 10 4 ⟨.zero, .zero, .sreg, .optional, (o.mod == 0#5), true⟩ o
  | .waitcTrial o => .scalar 10 5 ⟨.zero, .zero, .sreg, .optional, (o.mod == 0#5), true⟩ o
  | .csrr o => .scalar 11 0 ⟨.sreg, .zero, .sreg, .required, (o.mod == 0#5), (immBelow o 4096)⟩ o
  | .csrw o => .scalar 11 1 ⟨.sreg, .sreg, .sreg, .required, (o.mod == 0#5), (immBelow o 4096)⟩ o
  | .csrs o => .scalar 11 2 ⟨.sreg, .sreg, .sreg, .required, (o.mod == 0#5), (immBelow o 4096)⟩ o
  | .csrc o => .scalar 11 3 ⟨.sreg, .sreg, .sreg, .required, (o.mod == 0#5), (immBelow o 4096)⟩ o
  | .trap o => .scalar 12 0 ⟨.zero, .zero, .sreg, .required, (o.mod == 0#5), (immBelow o 128)⟩ o
  | .tretRetry o => .scalar 12 1 ⟨.zero, .zero, .zero, .never, (o.mod == 0#5), true⟩ o
  | .tretSkip o => .scalar 12 2 ⟨.zero, .zero, .zero, .never, (o.mod == 0#5), true⟩ o
  | .tclr o => .scalar 12 3 ⟨.zero, .zero, .zero, .never, (o.mod == 0#5), true⟩ o
  | .obres o => .scalar 13 0 ⟨.sreg, .sreg, .zero, .never, (o.mod == 0#5), true⟩ o
  | .obrel o => .scalar 13 1 ⟨.zero, .sreg, .zero, .never, (o.mod == 0#5), true⟩ o
  | .mxgo o => .scalar 13 2 ⟨.zero, .sreg, .zero, .never, (o.mod == 0#5), true⟩ o
  | .mxclr o => .scalar 13 3 ⟨.zero, .sreg, .sreg, .optional, (o.mod == 0#5), true⟩ o
  | .accrd o => .scalar 13 4 ⟨.cell, .sreg, .sreg, .optional, (o.mod == 0#5), true⟩ o
  | .accwr o => .scalar 13 5 ⟨.zero, .cell, .sreg, .optional, (o.mod == 0#5), true⟩ o
  | .cpyCopy o => .scalar 14 0 ⟨.zero, .sreg, .zero, .never, (o.mod == 0#5), true⟩ o
  | .cpyFill o => .scalar 14 1 ⟨.zero, .sreg, .zero, .never, (o.mod == 0#5), true⟩ o
  | .cpyLook o => .scalar 14 2 ⟨.zero, .sreg, .zero, .never, (o.mod == 0#5), true⟩ o
  | .selRun o => .scalar 15 0 ⟨.zero, .sreg, .zero, .never, (o.mod == 0#5), true⟩ o
  | .trial o => .scalar 16 0 ⟨.sreg, .sreg, .zero, .never, (o.mod == 0#5), true⟩ o
  | .cbwr o => .scalar 16 1 ⟨.zero, .sreg, .sreg, .optional, (o.mod == 0#5), true⟩ o
  | .lqput o => .scalar 17 0 ⟨.zero, .sreg, .sreg, .optional, (o.mod == 0#5), true⟩ o
  | .permit o => .scalar 17 1 ⟨.zero, .sreg, .zero, .never, (o.mod == 0#5), true⟩ o
  | .rand o => .scalar 17 2 ⟨.sreg, .zero, .zero, .never, (o.mod == 0#5), true⟩ o
  | .sld w o => .scalar 18 w.toNat ⟨.sreg, .sreg, .sreg, .optional, o.mod.toNat ≤ 3, w != 7#3⟩ o
  | .sst w o => .scalar 18 (8 + w.toNat) ⟨.sreg, .sreg, .sreg, .optional, o.mod.toNat ≤ 3 && o.mod != 2#5, true⟩ o
  | .loadComplete _ => .step
  | .xldComplete _ => .step
  | .sldData _ _ _ => .step
  | .atomicComplete _ => .step
  | .spawnComplete _ => .step
  | .awaitComplete _ => .step
  | .stagePage _ _ _ => .step
  | .wcDrain _ _ _ => .step
  | .reservationRelease _ _ _ => .step
  | .matrixCommandStart _ _ => .step
  | .matrixBoundary _ _ => .step
  | .matrixSpillComplete _ _ => .step
  | .matrixResume _ _ => .step
  | .matrixCommandComplete _ _ => .step
  | .copyBurst _ _ => .step
  | .copyComplete _ _ _ => .step
  | .codeBankWriteStart _ _ _ => .step
  | .lookaheadComplete _ _ _ => .step
  | .selectPass _ _ => .step
  | .selectComplete _ _ => .step
  | .trialStart _ _ _ => .step
  | .exampleFold _ _ _ => .step
  | .fuelExhausted _ _ _ => .step
  | .dedupLookup _ _ _ => .step
  | .dispatch _ => .step
  | .waitWordPoll _ _ => .step
  | .patchApply _ _ => .step
  | .crewAssign _ => .step
  | .threadStart _ _ => .step
  | .balanceTick _ => .step
  | .signalIncrement _ _ => .step
  | .launchCommit _ _ => .step
  | .grantRefresh _ => .step
  | .tierHandStep _ => .step
  | .tierFetchComplete _ _ _ => .step
  | .watchdogExpiry _ _ _ => .step
  | .patrolScrub _ => .step
  | .peerTimeout _ => .step
  | .peerRequest => .step
  | .hostBar2Access => .step
  | .sliceExpiry _ => .step
  | .swapHaltComplete _ => .step
  | .swapExchangeComplete _ => .step
  | .migration _ => .step
  | .migrationComplete _ => .step
  | .scanComplete _ _ _ => .step
  | .lqdb => .step
  | .lqstatClear => .step
  | .xlinvPage => .step
  | .xlinvPartition => .step
  | .xlinvComplete _ => .step
  | .pswapGo => .step
  | .pswapPair => .step
  | .stkap => .step
  | .retry => .step
  | .skip => .step
  | .skipclr => .step
  | .kill => .step
  | .ack => .step
  | .pwrlim => .step
  | .tierwm => .step
  | .resetctl => .step
  | .registerWrite => .step
  | .functionLevelReset => .step
  | .coldBoot => .step
  | .temperatureChange => .step
  | .mgmtReadStatus => .step
  | .mgmtSetPwrlim => .step
  | .mgmtReadStore => .step
  | .mgmtRewriteStore => .step
  | .mgmtReset => .step
  | .unassignedMajorOrMinor _ => .step
  | .fltcmdRefusedAct => .step
  | .xlinvRefusedKind => .step
  | .filterCacheDrop _ _ _ => .step

/-- How many positions a narrow width has (R94). -/
def NarrowWidth.positions : NarrowWidth → Nat
  | .w8 => 4
  | .w6 => 5
  | .w4 => 8
  | .w16 => 2

/-- A narrow selector is admitted: never on a field that names no cell, position in range (R94), not 4 bits with FALT (R95). -/
def narrowOk (allowed : Bool) (falt : Bool) (l : Letter) : Narrow → Bool
  | .full => true
  | .elem w pos =>
    allowed && (l == .cell || l == .immCell) && pos.toNat < w.positions && !(falt && w == .w4)

/-- The value of a field obeys its letter (R103), as far as check 4 goes. -/
def laneLetterOk (l : Letter) (f : BitVec 7) : Bool :=
  match l with
  | .cell | .immCell | .lit => true
  | .sreg => f.toNat < 32
  | .pred => f.toNat < 8
  | .zero => f == 0#7

/-- The width that R153 asks of a narrow source. -/
def srcWidthOk (want : Option NarrowWidth) : Narrow → Bool
  | .full => true
  | .elem w _ => match want with
    | none => true
    | some w' => w == w'

/-- A lane instruction without an extension word has the fields of 0xE000_0000 (R87). -/
def laneDefaults (o : LaneOps) : Bool :=
  o.pg == 7#3 && !o.pn && !o.ep && o.na == .full && o.nb == .full && o.nd == .full && o.c == 0#7 && o.ro == 0#3 &&
  !o.falt && o.mod == 0#5 && (match o.b with | .cell _ => true | .imm _ => false)

/-- Check 4 of R101 for a lane instruction: shapes (R92), selectors (R94 to R98), letters (R103) and MOD (R105). -/
def wfLane (sig : LaneSig) (o : LaneOps) : Bool :=
  (o.x || laneDefaults o) && sig.modOk && o.ro != 7#3 && (!sig.roZero || o.ro == 0#3) &&
  (match o.b with
    | .cell f => laneLetterOk sig.b f
    | .imm _ => sig.b == .immCell && sig.third == .none && o.na == .full && o.nb == .full && o.nd == .full && !o.falt) &&
  laneLetterOk sig.d o.d && laneLetterOk sig.a o.a &&
  (match sig.third with
    | .none => o.c == 0#7
    | .cell => o.na == .full && o.nb == .full && o.nd == .full && !o.falt
    | .pred => o.na == .full && o.nb == .full && o.nd == .full && !o.falt && o.c.toNat < 8) &&
  narrowOk sig.narrowSrc o.falt sig.a o.na && narrowOk sig.narrowSrc o.falt sig.b o.nb &&
  narrowOk sig.narrowDst o.falt sig.d o.nd && srcWidthOk sig.srcWidth o.na &&
  (!o.falt || (sig.float && (o.na != .full || o.nb != .full || o.nd != .full)))

/-- The value of a scalar-set field obeys its letter (R103), as far as check 4 goes. -/
def scalarLetterOk (l : Letter) (f : BitVec 6) : Bool :=
  match l with
  | .cell | .immCell | .lit | .sreg => true
  | .pred => f.toNat < 8
  | .zero => f == 0#6

/-- Check 4 of R101 for a scalar instruction: IMF and MOD (R99, R107) and the letters. -/
def wfScalar (sig : ScalarSig) (o : ScalarOps) : Bool :=
  (o.x || (!o.pn && !o.ep && o.mod == 0#5 && (match o.b with | .code _ => true | .imm _ => false))) &&
  sig.modOk && sig.extra &&
  (match o.b with
    | .code c => sig.imf != .required && scalarLetterOk sig.b c
    | .imm _ => sig.imf != .never) &&
  scalarLetterOk sig.d o.d && scalarLetterOk sig.a o.a

/-- The first static check that an instruction fails: check 4, then the constant code in field d of check 5 (R32, R88). -/
def Instr.wfError (i : Instr) : Option DecodeError :=
  match i.form with
  | .lane _ _ sig o => if wfLane sig o then none else some .reserved
  | .scalar _ _ sig o =>
    if wfScalar sig o then
      (if sig.d == .sreg && 32 ≤ o.d.toNat then some .register else none)
    else some .reserved
  | .branch _ => none
  | .step => none

/-- An instruction that the encoding admits. -/
abbrev Instr.WellFormed (i : Instr) : Prop := i.wfError = none

/-- Z1 decode (R32, R102): an operand code 32..63 in any field that takes operand codes. -/
def Instr.hasConstantCode (i : Instr) : Bool :=
  match i.form with
  | .scalar _ _ sig o =>
    (sig.d == .sreg && 32 ≤ o.d.toNat) || (sig.a == .sreg && 32 ≤ o.a.toNat) ||
    (match o.b with
      | .code c => sig.b == .sreg && 32 ≤ c.toNat
      | .imm _ => false)
  | _ => false

/-- Majors that Z2 and Z1 decode remove (R102, R110). -/
def removedInLegacy (scalar : Bool) (major : Nat) : Bool :=
  if scalar then major == 0x0F || major == 0x10
  else major == 0x09 || major == 0x0A || major == 0x0D || major == 0x11

end Sys2Proof
end

