-- ==== Sys2Proof/Decode.lean ====
section
/-!
DEFINITION. Sys2Proof/Decode.lean: the decoder, total on any words and bytes and refusing by name, and the encoder (R83 to R110).
-/
namespace Sys2Proof

/-- A lane major and minor (R104) with the operand fields. -/
def ofLane (major minor : Nat) (o : LaneOps) : Option Instr :=
  match major, minor with
  | 0, 0 => some (.iadd o)
  | 0, 1 => some (.isub o)
  | 0, 2 => some (.imin o)
  | 0, 3 => some (.imax o)
  | 0, 4 => some (.iabs o)
  | 0, 5 => some (.iand o)
  | 0, 6 => some (.ior o)
  | 0, 7 => some (.ixor o)
  | 0, 8 => some (.iandn o)
  | 1, 0 => some (.ishl o)
  | 1, 1 => some (.ishr o)
  | 1, 2 => some (.isar o)
  | 1, 3 => some (.irotl o)
  | 2, 0 => some (.imul o)
  | 2, 1 => some (.imulh o)
  | 2, 2 => some (.imad o)
  | 2, 3 => some (.idiv o)
  | 2, 4 => some (.irem o)
  | 3, 0 => some (.iclz o)
  | 3, 1 => some (.ictz o)
  | 3, 2 => some (.iffs o)
  | 3, 3 => some (.ipopc o)
  | 3, 4 => some (.ibrev o)
  | 3, 5 => some (.ibfx o)
  | 3, 6 => some (.ibfi o)
  | 4, 0 => some (.icmpEq o)
  | 4, 1 => some (.icmpNe o)
  | 4, 2 => some (.icmpLt o)
  | 4, 3 => some (.icmpLe o)
  | 4, 4 => some (.icmpGt o)
  | 4, 5 => some (.icmpGe o)
  | 4, 6 => some (.isel o)
  | 4, 7 => some (.iord o)
  | 5, 0 => some (.fadd o)
  | 5, 1 => some (.fsub o)
  | 5, 2 => some (.fmul o)
  | 5, 3 => some (.ffma o)
  | 5, 4 => some (.fmin o)
  | 5, 5 => some (.fmax o)
  | 5, 6 => some (.fdiv o)
  | 6, 0 => some (.fsqrt o)
  | 6, 1 => some (.frcp o)
  | 6, 2 => some (.frsq o)
  | 6, 3 => some (.fexp2 o)
  | 6, 4 => some (.flog2 o)
  | 7, 0 => some (.fcmpEq o)
  | 7, 1 => some (.fcmpNe o)
  | 7, 2 => some (.fcmpLt o)
  | 7, 3 => some (.fcmpLe o)
  | 7, 4 => some (.fcmpGt o)
  | 7, 5 => some (.fcmpGe o)
  | 7, 6 => some (.fcmpUn o)
  | 7, 7 => some (.fclass o)
  | 9, 0 => some (.xadd o)
  | 9, 1 => some (.xsub o)
  | 9, 2 => some (.xmul o)
  | 9, 3 => some (.xfma o)
  | 9, 4 => some (.xdiv o)
  | 9, 5 => some (.xsqrt o)
  | 9, 6 => some (.xmin o)
  | 9, 7 => some (.xmax o)
  | 10, 0 => some (.xcmp o)
  | 10, 1 => some (.xrndP o)
  | 10, 2 => some (.xrndInt o)
  | 10, 3 => some (.xcvt o)
  | 10, 4 => some (.xscale o)
  | 10, 5 => some (.xsigGet o)
  | 10, 6 => some (.xsigSet o)
  | 10, 7 => some (.xtag o)
  | 14, 0 => some (.amoAddB32 o)
  | 14, 1 => some (.amoAddB64 o)
  | 14, 2 => some (.amoMinI32 o)
  | 14, 3 => some (.amoMinN32 o)
  | 14, 4 => some (.amoMaxI32 o)
  | 14, 5 => some (.amoMaxN32 o)
  | 14, 6 => some (.amoAndB32 o)
  | 14, 7 => some (.amoOrB32 o)
  | 14, 8 => some (.amoXorB32 o)
  | 14, 9 => some (.amoSwapB32 o)
  | 14, 10 => some (.amoSwapB64 o)
  | 14, 11 => some (.amoCasB32 o)
  | 14, 12 => some (.amoCasB64 o)
  | 14, 13 => some (.amoCasB128 o)
  | 14, 14 => some (.amoFaddF32 o)
  | 15, 0 => some (.shflIdx o)
  | 15, 1 => some (.shflUp o)
  | 15, 2 => some (.shflDown o)
  | 15, 3 => some (.shflXor o)
  | 15, 4 => some (.voteAny o)
  | 15, 5 => some (.voteAll o)
  | 15, 6 => some (.voteBallot o)
  | 15, 7 => some (.voteUniform o)
  | 15, 8 => some (.red o)
  | 15, 9 => some (.scanIncl o)
  | 15, 10 => some (.scanExcl o)
  | 15, 11 => some (.permbNib o)
  | 15, 12 => some (.permbByte o)
  | 16, 0 => some (.vmov o)
  | 16, 1 => some (.smovTov o)
  | 16, 2 => some (.smovTos o)
  | 16, 3 => some (.movpTov o)
  | 16, 4 => some (.movpTop o)
  | 17, 0 => some (.sigfB32 o)
  | 17, 1 => some (.sigfB64 o)
  | 8, m => if m < 16 then some (.fcvt (BitVec.ofNat 4 m) o) else none
  | 11, m => if m < 4 then some (.ld (BitVec.ofNat 2 m) o) else none
  | 12, m => if m < 4 && m != 2 then some (.st (BitVec.ofNat 2 m) o) else none
  | 13, m =>
    if m < 4 then some (.xld (BitVec.ofNat 2 m) o)
    else if m < 8 && m != 6 then some (.xst (BitVec.ofNat 2 m) o)
    else none
  | _, _ => none

/-- A scalar major and minor (R107) with the operand fields. -/
def ofScalar (major minor : Nat) (o : ScalarOps) : Option Instr :=
  match major, minor with
  | 0, 0 => some (.add o)
  | 0, 1 => some (.sub o)
  | 0, 2 => some (.minI o)
  | 0, 3 => some (.maxI o)
  | 0, 4 => some (.minN o)
  | 0, 5 => some (.maxN o)
  | 0, 6 => some (.and o)
  | 0, 7 => some (.or o)
  | 0, 8 => some (.xor o)
  | 0, 9 => some (.andn o)
  | 1, 0 => some (.shl o)
  | 1, 1 => some (.shr o)
  | 1, 2 => some (.sar o)
  | 1, 3 => some (.rotl o)
  | 2, 0 => some (.mul o)
  | 2, 1 => some (.mulhI o)
  | 2, 2 => some (.mulhN o)
  | 2, 3 => some (.divI o)
  | 2, 4 => some (.divN o)
  | 2, 5 => some (.remI o)
  | 2, 6 => some (.remN o)
  | 3, 0 => some (.clz o)
  | 3, 1 => some (.ctz o)
  | 3, 2 => some (.ffs o)
  | 3, 3 => some (.popc o)
  | 3, 4 => some (.brev o)
  | 3, 5 => some (.bfx o)
  | 3, 6 => some (.bfi o)
  | 4, 0 => some (.cmpEq o)
  | 4, 1 => some (.cmpNe o)
  | 4, 2 => some (.cmpLtI o)
  | 4, 3 => some (.cmpLeI o)
  | 4, 4 => some (.cmpLtN o)
  | 4, 5 => some (.cmpLeN o)
  | 4, 6 => some (.sel o)
  | 4, 7 => some (.plop o)
  | 5, 0 => some (.movi o)
  | 5, 1 => some (.movhi o)
  | 7, 0 => some (.jmp o)
  | 7, 1 => some (.call o)
  | 7, 2 => some (.calli o)
  | 7, 3 => some (.ret o)
  | 7, 4 => some (.csw o)
  | 8, 0 => some (.nop o)
  | 8, 1 => some (.yield o)
  | 8, 2 => some (.spawn o)
  | 8, 3 => some (.await o)
  | 8, 4 => some (.exit o)
  | 9, 0 => some (.cjoin o)
  | 9, 1 => some (.cpart o)
  | 9, 2 => some (.ccompact o)
  | 9, 3 => some (.cbar o)
  | 9, 4 => some (.carrive o)
  | 9, 5 => some (.cwait o)
  | 10, 0 => some (.fence o)
  | 10, 1 => some (.pfence o)
  | 10, 2 => some (.waitcCopy o)
  | 10, 3 => some (.waitcMatrix o)
  | 10, 4 => some (.waitcSelect o)
  | 10, 5 => some (.waitcTrial o)
  | 11, 0 => some (.csrr o)
  | 11, 1 => some (.csrw o)
  | 11, 2 => some (.csrs o)
  | 11, 3 => some (.csrc o)
  | 12, 0 => some (.trap o)
  | 12, 1 => some (.tretRetry o)
  | 12, 2 => some (.tretSkip o)
  | 12, 3 => some (.tclr o)
  | 13, 0 => some (.obres o)
  | 13, 1 => some (.obrel o)
  | 13, 2 => some (.mxgo o)
  | 13, 3 => some (.mxclr o)
  | 13, 4 => some (.accrd o)
  | 13, 5 => some (.accwr o)
  | 14, 0 => some (.cpyCopy o)
  | 14, 1 => some (.cpyFill o)
  | 14, 2 => some (.cpyLook o)
  | 15, 0 => some (.selRun o)
  | 16, 0 => some (.trial o)
  | 16, 1 => some (.cbwr o)
  | 17, 0 => some (.lqput o)
  | 17, 1 => some (.permit o)
  | 17, 2 => some (.rand o)
  | 18, m =>
    if m < 7 then some (.sld (BitVec.ofNat 3 m) o)
    else if 8 ≤ m && m < 12 then some (.sst (BitVec.ofNat 2 m) o)
    else none
  | _, _ => none

/-- The majors of the lane set that R104 assigns. -/
def laneMajorAssigned (major : Nat) : Bool := major < 0x12

/-- The majors of the scalar set that R107 assigns. -/
def scalarMajorAssigned (major : Nat) : Bool := major < 0x13

/-- Which lane instructions use the third-operand shape (R104). -/
def laneThird (major minor : Nat) : Bool :=
  match major, minor with
  | 2, 2 | 3, 6 | 4, 6 | 5, 3 | 9, 3 | 14, 11 | 14, 12 | 14, 13 => true
  | _, _ => false

/-- The selector code of R94. -/
def NarrowWidth.code : NarrowWidth → BitVec 3
  | .w8 => 1
  | .w6 => 2
  | .w4 => 3
  | .w16 => 4

/-- The DW code of R96. -/
def NarrowWidth.dw : NarrowWidth → BitVec 2
  | .w8 => 0
  | .w6 => 1
  | .w4 => 2
  | .w16 => 3

/-- The selector and position fields of a narrow operand (R91, R92). -/
def Narrow.sel : Narrow → BitVec 3
  | .full => 0
  | .elem w _ => w.code

def Narrow.pos : Narrow → BitVec 3
  | .full => 0
  | .elem _ p => p

def Narrow.dw : Narrow → BitVec 2
  | .full => 0
  | .elem w _ => w.dw

def Narrow.dne : Narrow → BitVec 1
  | .full => 0
  | .elem _ _ => 1

/-- A source selector with its position (R94): a reserved selector, or a position beside selector 0, is refused. -/
def narrowOfSel (sel pos : BitVec 3) : Option Narrow :=
  match sel.toNat with
  | 0 => if pos == 0#3 then some .full else none
  | 1 => some (.elem .w8 pos)
  | 2 => some (.elem .w6 pos)
  | 3 => some (.elem .w4 pos)
  | 4 => some (.elem .w16 pos)
  | _ => none

/-- The destination element of DNE, DW and PD (R96). -/
def narrowOfDst (dne : BitVec 1) (dw : BitVec 2) (pos : BitVec 3) : Option Narrow :=
  if dne == 0#1 then (if dw == 0#2 && pos == 0#3 then some .full else none)
  else match dw.toNat with
    | 0 => some (.elem .w8 pos)
    | 1 => some (.elem .w6 pos)
    | 2 => some (.elem .w4 pos)
    | _ => some (.elem .w16 pos)

/-- Bit 30 of a first word: an extension word follows (R83). -/
def hasExtension (w0 : Word) : Bool := w0[30]

/-- The operand fields of a lane word and its extension word (R86, R91, R92); `none` where a field value is reserved or two
shapes conflict. -/
def unpackLane (third : Bool) (w0 ext : Word) : Option LaneOps :=
  let nsb := ext.extractLsb' 21 3
  let mk (b : LaneB) (c : BitVec 7) (na nb nd : Narrow) (falt : Bool) : LaneOps :=
    { x := hasExtension w0, pg := ext.extractLsb' 29 3, pn := ext[28], ep := ext[27], d := w0.extractLsb' 14 7,
      a := w0.extractLsb' 7 7, b := b, na := na, nb := nb, nd := nd, c := c, ro := ext.extractLsb' 17 3, falt := falt,
      mod := ext.extractLsb' 0 5 }
  if third then
    if ext.extractLsb' 20 7 == 0#7 && ext.extractLsb' 12 5 == 0#5 then
      some (mk (.cell (w0.extractLsb' 0 7)) (ext.extractLsb' 5 7) .full .full .full false)
    else none
  else if nsb == 7#3 then
    if ext.extractLsb' 24 3 == 0#3 && ext.extractLsb' 20 1 == 0#1 then
      some (mk (.imm (ext.extractLsb' 5 12 ++ w0.extractLsb' 0 7)) 0#7 .full .full .full false)
    else none
  else
    match narrowOfSel (ext.extractLsb' 24 3) (ext.extractLsb' 14 3), narrowOfSel nsb (ext.extractLsb' 11 3),
        narrowOfDst (ext.extractLsb' 20 1) (ext.extractLsb' 6 2) (ext.extractLsb' 8 3) with
    | some na, some nb, some nd => some (mk (.cell (w0.extractLsb' 0 7)) 0#7 na nb nd ext[5])
    | _, _, _ => none

/-- The operand fields of a scalar word and its extension word (R88, R99). -/
def unpackScalar (w0 ext : Word) : Option ScalarOps :=
  let mk (b : ScalarB) : ScalarOps :=
    { x := hasExtension w0, pred := w0.extractLsb' 18 3, pn := ext[28], ep := ext[27], d := w0.extractLsb' 12 6,
      a := w0.extractLsb' 6 6, b := b, mod := ext.extractLsb' 0 5 }
  if ext.extractLsb' 29 3 != 0#3 then none
  else if ext[26] then some (mk (.imm (ext.extractLsb' 5 21 ++ w0.extractLsb' 0 6)))
  else if ext.extractLsb' 5 21 == 0#21 then some (mk (.code (w0.extractLsb' 0 6)))
  else none

/-- The fields of a B word (R89). -/
def unpackBranch (w0 : Word) : BranchOps :=
  { hint := w0.extractLsb' 23 2, pred := w0.extractLsb' 20 3, pneg := w0[19], off := w0.extractLsb' 0 19 }

/-- The outcome of check 3 of R101 for a word that it fails: the instruction that raises ILL with detail 0, 1 or 4. -/
def unassigned (why : Unassigned) : Except DecodeError Instr := .ok (.unassignedMajorOrMinor why)

/-- Checks 4 and 5 of R101 on an instruction of assigned major and minor, as far as they need no window. -/
def checked (m : DecodeMode) (i : Instr) : Except DecodeError Instr :=
  match i.wfError with
  | some e => .error e
  | none => if m == .z1 && i.hasConstantCode then .error .register else .ok i

/-- The decoder (R101 checks 3 to 5): the first word, and the word that follows it, read only where bit 30 is set. -/
def decode (m : DecodeMode) (w0 w1 : Word) : Except DecodeError Instr :=
  let major := (w0.extractLsb' 25 5).toNat
  let minor := (w0.extractLsb' 21 4).toNat
  if w0[31] then
    let ext := if hasExtension w0 then w1 else 0#32
    if !scalarMajorAssigned major then unassigned .major
    else if m != .z3 && removedInLegacy true major then unassigned .removed
    else if major == 6 then
      if hasExtension w0 then .error .reserved else .ok (.br (unpackBranch w0))
    else
      match ofScalar major minor default with
      | none => unassigned .minor
      | some _ =>
        match unpackScalar w0 ext with
        | none => .error .reserved
        | some o => match ofScalar major minor o with
          | none => unassigned .minor
          | some i => checked m i
  else
    let ext := if hasExtension w0 then w1 else 0xE0000000#32
    if !laneMajorAssigned major then unassigned .major
    else if m != .z3 && removedInLegacy false major then unassigned .removed
    else
      match ofLane major minor default with
      | none => unassigned .minor
      | some _ =>
        match unpackLane (laneThird major minor) w0 ext with
        | none => .error .reserved
        | some o => match ofLane major minor o with
          | none => unassigned .minor
          | some i => checked m i

/-- The little-endian word of four bytes (R3). -/
def wordOfBytes (b0 b1 b2 b3 : Byte) : Word := b3 ++ b2 ++ b1 ++ b0

/-- The four bytes of a word, lowest address first (R3). -/
def bytesOfWord (w : Word) : List Byte :=
  [w.extractLsb' 0 8, w.extractLsb' 8 8, w.extractLsb' 16 8, w.extractLsb' 24 8]

/-- Why a byte string holds no instruction: it ends inside one, or the decoder refuses the words. -/
inductive BytesError where
  | short
  | refused (e : DecodeError)
deriving DecidableEq, Repr

/-- The instruction at the head of a byte string, and the bytes after it. -/
def decodeBytes (m : DecodeMode) : List Byte → Except BytesError (Instr × List Byte)
  | b0 :: b1 :: b2 :: b3 :: rest =>
    let w0 := wordOfBytes b0 b1 b2 b3
    if hasExtension w0 then
      match rest with
      | c0 :: c1 :: c2 :: c3 :: rest' =>
        match decode m w0 (wordOfBytes c0 c1 c2 c3) with
        | .ok i => .ok (i, rest')
        | .error e => .error (.refused e)
      | _ => .error .short
    else
      match decode m w0 0#32 with
      | .ok i => .ok (i, rest)
      | .error e => .error (.refused e)
  | _ => .error .short

/-- One bit as a field. -/
def bit1 (b : Bool) : BitVec 1 := BitVec.ofBool b

/-- The words of a lane instruction (R86, R91, R92). -/
def packLane (third : Bool) (major minor : Nat) (o : LaneOps) : List Word :=
  let bf : BitVec 7 := match o.b with
    | .cell i => i
    | .imm v => v.extractLsb' 0 7
  let w0 : Word := 0#1 ++ bit1 o.x ++ BitVec.ofNat 5 major ++ BitVec.ofNat 4 minor ++ o.d ++ o.a ++ bf
  let opx : BitVec 17 :=
    if third then 0#5 ++ o.c ++ o.mod
    else match o.b with
      | .imm v => v.extractLsb' 7 12 ++ o.mod
      | .cell _ => o.na.pos ++ o.nb.pos ++ o.nd.pos ++ o.nd.dw ++ bit1 o.falt ++ o.mod
  let nsb : BitVec 3 := match o.b with
    | .cell _ => o.nb.sel
    | .imm _ => 7#3
  let w1 : Word := o.pg ++ bit1 o.pn ++ bit1 o.ep ++ o.na.sel ++ nsb ++ o.nd.dne ++ o.ro ++ opx
  if o.x then [w0, w1] else [w0]

/-- The words of a scalar instruction (R88, R99). -/
def packScalar (major minor : Nat) (o : ScalarOps) : List Word :=
  let bf : BitVec 6 := match o.b with
    | .code c => c
    | .imm v => v.extractLsb' 0 6
  let w0 : Word := 1#1 ++ bit1 o.x ++ BitVec.ofNat 5 major ++ BitVec.ofNat 4 minor ++ o.pred ++ o.d ++ o.a ++ bf
  let immh : BitVec 21 := match o.b with
    | .code _ => 0#21
    | .imm v => v.extractLsb' 6 21
  let imf : BitVec 1 := match o.b with
    | .code _ => 0#1
    | .imm _ => 1#1
  let w1 : Word := 0#3 ++ bit1 o.pn ++ bit1 o.ep ++ imf ++ immh ++ o.mod
  if o.x then [w0, w1] else [w0]

/-- The word of a branch (R89). -/
def packBranch (o : BranchOps) : List Word :=
  [1#1 ++ 0#1 ++ 6#5 ++ o.hint ++ o.pred ++ bit1 o.pneg ++ o.off]

/-- The words of an instruction; none for a step without an encoding. -/
def encode (i : Instr) : List Word :=
  match i.form with
  | .lane major minor sig o => packLane (sig.third != .none) major minor o
  | .scalar major minor _ o => packScalar major minor o
  | .branch o => packBranch o
  | .step => []

/-- The instruction that the words of `encode` hold, by the decoder. -/
def decodeWords (m : DecodeMode) : List Word → Except BytesError Instr
  | [w0] => match decode m w0 0#32 with
    | .ok i => .ok i
    | .error e => .error (.refused e)
  | [w0, w1] => match decode m w0 w1 with
    | .ok i => .ok i
    | .error e => .error (.refused e)
  | _ => .error .short

/-- The length of an instruction in bytes (R83). -/
def Instr.length (i : Instr) : Nat :=
  match i.form with
  | .lane _ _ _ o => if o.x then 8 else 4
  | .scalar _ _ _ o => if o.x then 8 else 4
  | .branch _ => 4
  | .step => 0

/-- The instruction whose bits are `w`, numbered as the opcode table numbers them: the first word in bits 31:0, the extension
word, zero above `nbits`, in bits 63:32. -/
def decodeTableWord (nbits w : Nat) : Option Instr :=
  let v := w % 2 ^ nbits
  match decodeBytes .z3 (bytesOfWord (BitVec.ofNat 32 v) ++ bytesOfWord (BitVec.ofNat 32 (v / 2 ^ 32))) with
  | .ok (i, _) => some i
  | .error _ => none

end Sys2Proof
end

