-- ==== Sys2Proof/Machine/State.lean ====
section
/-!
DEFINITION. Sys2Proof/Machine/State.lean: the state of the module as plain data, the reasons a step can stop, and the state
right after the cold boot of R410.
-/
namespace Sys2Proof.Machine

/-- The reasons the machine stops with a fault. -/
inductive Fault where
  /-- Raised by a BAR2 access or a peer request (R402, R406) to a physical address at or above the 512 GiB of device memory
  (R2): the spec says that no such address exists. Safe: the model stops where the hardware has no byte to give. -/
  | noSuchAddress
deriving DecidableEq, Repr, Inhabited

/-- The reasons a step is refused. -/
inductive Refusal where
  /-- Raised by an arm of `exec` whose instruction has no meaning yet. Safe: no claim about its effect can be proved. -/
  | notModelled (mnemonic : String)
deriving DecidableEq, Repr, Inhabited

/-- Memory: the bytes that differ from 0, as (key, byte) pairs with strictly rising keys. A key is the space of the byte times
2^64 plus its address there; space 0 is the module's device memory, 1 host memory, 2 + m the device memory of module m (R276,
R277). The same type holds a scratchpad, an operand buffer and a code bank, with plain offsets as keys. -/
abbrev Memory := List Host.Cell

/-- Accumulator words that differ from 0, as (1,024 × row + column, word) pairs with strictly rising keys (R266). -/
abbrev AccStore := List (Nat × Word)

/-- The tag of a cell (R34, R35): KIND with its LC and S fields. -/
inductive Tag where
  | plain
  | head (lc : BitVec 3) (s : BitVec 8)
  | tail
deriving DecidableEq, Repr, Inhabited

/-- A cell (R30, R34): data bits, F and tag. -/
structure VCell where
  data : Word
  full : Bool
  tag : Tag
deriving DecidableEq, Repr, Inhabited

/-- What a thread waits for: the detail codes 0 to 11 of R368, in order. -/
inductive WaitKind where
  | emptyCell | absentLine | tierPage | waitc | await | barrier | rendezvous | launchQueue | slotInUse | engine | staging
  | scalarLoad
deriving DecidableEq, Repr, Inhabited

/-- The waiting state of R9. A thread that waits by `retry` attempts its instruction again at its next issue; one that waits by
`held` is woken by the event it waits for. `since` is the time at which the wait began (R368). -/
inductive Wait where
  | none
  | retry (k : WaitKind) (since : Nat)
  | held (k : WaitKind) (since : Nat)
deriving DecidableEq, Repr, Inhabited

/-- Why a thread is parked (R360, R235, R368): at a faulting instruction, by the watchdog in the midst of a wait, by an
engine fault at its next instruction, or by a peer request that got no response (R406). -/
inductive Park where
  | none
  | fault
  | watchdog
  | engine
  | peer (id : Nat)
deriving DecidableEq, Repr, Inhabited

/-- A resident thread: its partition, logical core and thread slot (R9, R13). -/
structure Key where
  part : Nat
  core : Nat
  slot : Nat
deriving DecidableEq, Repr, Inhabited

/-- The command classes of CTRS (R45). -/
inductive EngineClass where
  | copy | matrix | select | trial
deriving DecidableEq, Repr, Inhabited

/-- An outstanding command of a thread: its class and its place in the thread's issue order of that class (R45, R187). -/
structure CmdTag where
  cls : EngineClass
  seq : Nat
deriving DecidableEq, Repr, Inhabited

/-- Draw permits taken ahead by PERMIT (R264, R322): class, count and budget refreshes since the grant. -/
structure Ticket where
  cls : EngineClass
  count : Nat
  age : Nat
deriving DecidableEq, Repr, Inhabited

/-- The parameter block of a trial (R258) with its issuer; `cid` is the place of the TRIAL among the commands of the module. `knows` lists
the code-bank writes whose bytes it surely sees (R186, R253). -/
structure TrialReq where
  cid : Nat
  slot : Nat
  nslot : Nat
  entry : Nat
  win : Nat
  nex : Nat
  nin : Nat
  nout : Nat
  sbsz : Nat
  sbase : Nat
  tlog : Nat
  fuel : DWord
  inp : DWord
  table : DWord
  recAddr : DWord
  issuer : Key
  issuerTid : BitVec 32
  ip : DWord
  seq : Nat
  knows : List Nat
deriving DecidableEq, Repr, Inhabited

/-- A running trial (R345, R346): its request, the index of the current example, the examples completed, and whether the
example's EXIT has been reached, so that Campion waits to fold; `starved` when FUEL is less than the cost of the instruction at the
PC (R347); `loading` while example `ex` is still to be set up (R345): `seen` holds the input bytes it has read so far, under their place, and
`zeroed` the sandbox offsets it has zeroed (R291). `old` holds the bytes of its code-bank slots in which it sees what an earlier write has left
(R253). -/
structure TrialRun where
  req : TrialReq
  ex : Nat
  done : Nat
  folding : Bool
  starved : Bool
  loading : Bool
  seen : List (Nat × Byte)
  zeroed : List Nat
  old : List (Nat × Byte)
deriving DecidableEq, Repr, Inhabited

/-- A thread (R9, R11, R30, R41 to R49). `live` is false only in the idle record that `State.th` holds between steps. CREW and
RANK are 0 outside a crew (R23); CREWN is read from the crew. `arrived` and `exempt` tell the member's part in the open barrier
phase of its crew (R188, R190). `charged` says that a trial has paid for the instruction it waits on (R347). `dmrMiss` says
that a redundant pair has met a first mismatch at this instruction (R377). `latch` is the metadata word that an XTAG waiting to
write has read (R224), or the length of the crew instruction that a thread waits in. `gangs` numbers the gangs in which it has
issued a load while loads of the gang may still be outstanding (R174). `engineDue` says that an engine fault is due to park a thread that
is parked already (R235). `slot2` is the second thread slot of a redundant pair (R376). `sees` lists the stores, visible on the core but
not yet at their homes, that a completed read of the thread returned (R297, dep). `knows` lists the code-bank writes that its PFENCEs have
ordered before the trials it issues (R186), `conRead` the bytes that it has read on the constant path since its last PFENCE of that path and
the generic one (R186). -/
structure Thread where
  live : Bool
  key : Key
  launch : Nat
  tid : BitVec 32
  pc : DWord
  win : Nat
  mode : DecodeMode
  picker : Nat
  dmr : Bool
  dmrMiss : Bool
  slot2 : Option Nat
  cells : List VCell
  sregs : Vector DWord 32
  preds : Vector Bool 7
  crew : Nat
  rank : Nat
  tile : BitVec 3
  prec : BitVec 32
  xflags : BitVec 6
  fcsr : BitVec 25
  ltv : DWord
  ltc : BitVec 16
  ltip : DWord
  ltval : DWord
  tstate : Bool
  fuel : DWord
  sig : DWord
  sign : BitVec 12
  seed : DWord
  randN : DWord
  cmds : List CmdTag
  issued : Vector Nat 4
  tickets : List Ticket
  park : Park
  engineDue : Bool
  wait : Wait
  charged : Bool
  trial : Option TrialRun
  arrived : Bool
  exempt : Bool
  latch : Option Word
  gangs : List Nat
  sees : List Nat
  knows : List Nat
  conRead : List Nat
deriving DecidableEq, Repr, Inhabited

/-- Where a byte of memory lies: a key of `Hw.mem`, or an offset of the launch's scratchpad region on the thread's core. -/
inductive Loc where
  | phys (key : Nat)
  | scr (off : Nat)
deriving DecidableEq, Repr, Inhabited

/-- The operations of AMO (R179). -/
inductive AmoOp where
  | add | minI | minN | maxI | maxN | and | or | xor | swap | cas | fadd
deriving DecidableEq, Repr, Inhabited

/-- How an access travels (R269 to R271, R283, R293): the generic path through the L1, the constant path through the constant cache,
either of them on pages of types 1 to 3 past the caches, or the scratchpad path. -/
inductive Route where
  | l1 | con | uncached | conUncached | scratch
deriving DecidableEq, Repr, Inhabited

/-- An outstanding long-latency producer of a thread (R36), or a store that has not been performed (R291). -/
inductive PendKind where
  /-- A store (R172): its bytes. -/
  | store (data : List Byte)
  /-- A lane load (R172): the MOD code of its width. -/
  | load (mod : BitVec 5)
  /-- A ZXF load (R225): the length, precision, mode and floor fixed at issue. -/
  | xload (p : Nat) (rm : BitVec 3) (smin : Nat)
  /-- A scalar load (R178): destination register, size, sign extension. -/
  | sload (d : BitVec 5) (size : Nat) (signed : Bool)
  /-- An atomic (R180): operation, width in bytes, operand, swap value, order, scope, and whether it acts as .ar.sys. -/
  | atomic (op : AmoOp) (bytes : Nat) (b c : BitVec 128) (order : BitVec 2) (discard : Bool)
  /-- SPAWN (R159): entry and argument of the new thread. -/
  | spawn (entry arg : DWord)
  /-- AWAIT (R161): the named TID, or the result at once. -/
  | await (tid : BitVec 32) (now : Bool)
deriving DecidableEq, Repr, Inhabited

/-- An outstanding producer or store: who issued it, its effective address, the cells it fills, the bytes it touches with the memory
types of their pages (none in the scratchpad), how it travels, and which of its bytes have been performed, each with its value (R291,
R292). `gang` numbers the gang that issued it (R15), `after` the gangs whose loads come before it (R174). The bytes of one aligned unit
of `atom` bytes are performed together (R176). `sees` are stores visible on the core that it has read from, or, of a store or an atomic,
that come before it (R297, dep). `pages` are the translations it used, as base and size (R282), `ptes` the addresses of their page-table
entries (R279). `again` says that the host has resumed it after
it got no response, and that its translation waits for a page (R282, R366, R406). -/
structure Pend where
  id : Nat
  key : Key
  tid : BitVec 32
  launch : Nat
  ip : DWord
  ea : DWord
  gang : Nat
  after : List Nat
  kind : PendKind
  cell : Nat
  ncells : Nat
  locs : List Loc
  mts : List Nat
  atom : Nat
  route : Route
  got : List (Option Byte)
  sees : List Nat
  pages : List (Nat × Nat)
  ptes : List Nat
  again : Bool
deriving DecidableEq, Repr, Inhabited

/-- A staged piece of a launch (R373): its virtual address, its size, the original frame and the staging frame, and whether the commit
copies it back (2 MiB and 1 GiB pages). -/
structure Staged where
  va : Nat
  size : Nat
  orig : Nat
  frame : Nat
  copyBack : Bool
deriving DecidableEq, Repr, Inhabited

/-- A launch in flight (R263, R313, R361 to R366, R373 to R380, R393). `wants` lists the pieces of pages whose first write waits for
staging (R373), each with the thread that waits there, or none for an engine. -/
structure Launch where
  part : Nat
  id : Nat
  order : Nat
  hdr : DWord
  count : Nat
  prio : Nat
  arg : DWord
  sigaddr : DWord
  faddr : DWord
  fsize : Nat
  entry : DWord
  ltv : DWord
  win : Nat
  mode : DecodeMode
  crewSize : Nat
  scr : Nat
  obuf : Nat
  acc : Nat
  restartable : Bool
  scangated : Bool
  dmr : Bool
  trialhost : Bool
  ver : Nat
  nextTid : Nat
  exits : List (Nat × DWord)
  seq : Nat
  lost : Nat
  lossMark : Bool
  irq : Bool
  attempt : Nat
  staged : List Staged
  wants : List (Nat × Option Key)
  heldPuts : List (Nat × List Byte)
  ran : List (Nat × Nat × Nat)    -- die, physical core, number of the launch's last event there
deriving DecidableEq, Repr, Inhabited

/-- What a thread-start entry starts (R313, R159, R259). -/
inductive StartKind where
  | plain
  | crew (block : Nat)
  | spawn (entry arg : DWord)
  | trial (r : TrialReq)
deriving DecidableEq, Repr, Inhabited

/-- A thread-start entry (R315). -/
structure StartEntry where
  launch : Nat
  tid : Nat
  kind : StartKind
deriving DecidableEq, Repr, Inhabited

/-- The open barrier phase of a crew (R190, R191): whether its arrivals are CCOMPACT, and the PC of the first one. -/
structure Phase where
  compact : Bool
  pc : DWord
deriving DecidableEq, Repr, Inhabited

/-- A crew (R20 to R22, R41): handle, key, CREWN, ranks reserved for threads not yet started, open barrier phase, the next phase where a
member that joined during the open one has already arrived in it (R188, R190), and of an auto-crew the picker of each rank block of which
a thread has started (R318). -/
structure Crew where
  handle : Nat
  key : DWord
  crewn : Nat
  reserved : List Nat
  phase : Option Phase
  next : Option Phase
  pickers : List (Nat × Nat)
deriving DecidableEq, Repr, Inhabited

/-- An arrival at a rendezvous (R206): rank, guard, and the values of the sources. -/
structure Arrival where
  rank : Nat
  guard : Bool
  a : Word
  b : Word
  p : Bool
deriving DecidableEq, Repr, Inhabited

/-- An open rendezvous (R26, R27): crew, first rank and log2 width of the tile, PC, instruction and arrivals. -/
structure Rendezvous where
  crew : Nat
  base : Nat
  tile : Nat
  pc : DWord
  op : Instr
  arrivals : List Arrival
deriving DecidableEq, Repr, Inhabited

/-- The regions of a launch on a core (R268, R272): scratchpad, absent lines, operand buffer, accumulator words. -/
structure Region where
  launch : Nat
  scr : Memory
  absent : List Nat
  obuf : Memory
  acc : AccStore
deriving DecidableEq, Repr, Inhabited

/-- Who owns a reservation (R240). -/
inductive Owner where
  | crew (handle : Nat)
  | thread (launch : Nat) (tid : BitVec 32)
deriving DecidableEq, Repr, Inhabited

/-- A live operand-buffer reservation (R240); `released` after OBREL, until its commands have completed (R241). -/
structure Reservation where
  handle : Nat
  owner : Owner
  launch : Nat
  base : Nat
  length : Nat
  format : Nat
  blk : Nat
  pitch : Nat
  scale : Nat
  book : Nat
  released : Bool
deriving DecidableEq, Repr, Inhabited

/-- The issuer of an engine command (R235, R361). -/
structure Issuer where
  key : Key
  tid : BitVec 32
  launch : Nat
  ip : DWord
  seq : Nat
deriving DecidableEq, Repr, Inhabited

/-- A matrix operand as the command reads it (R243, R331): in the operand buffer or the scratchpad, with the reservation's
fields resolved at issue. `handle` is 0 for a scratchpad operand; `blk` is the block length in elements, 0 for none. -/
structure MxSrc where
  obuf : Bool
  handle : Nat
  rot : Nat
  blk : Nat
  base : Nat
  pitch : Nat
  tpitch : Nat
  scale : Nat
  book : Nat
deriving DecidableEq, Repr, Inhabited

/-- An MXGO parameter block (R242). -/
structure MxGo where
  fa : Nat
  fb : Nat
  clear : Bool
  m : Nat
  n : Nat
  k : Nat
  cb : Nat
  srcA : MxSrc
  srcB : MxSrc
  spill : DWord
deriving DecidableEq, Repr, Inhabited

/-- An ACCRD descriptor (R248): `dst` is the scratchpad offset in scratchpad mode; in cell mode `pend` is the first cell. -/
structure AccRd where
  row : Nat
  col : Nat
  cnt : Nat
  int : Bool
  sc : Int
  rm : BitVec 3
  fmt : Nat
  dst : Option Nat
  cell : Nat
deriving DecidableEq, Repr, Inhabited

/-- The matrix commands (R245, R247, R248). -/
inductive MxOp where
  | go (p : MxGo)
  | clr (col n : Nat)
  | wr (row col : Nat) (v : Word)
  | rd (d : AccRd)
deriving DecidableEq, Repr, Inhabited

/-- A queued matrix command; `permit` once its draw permit is taken (R236). -/
structure MxCmd where
  id : Nat
  issuer : Issuer
  high : Bool
  op : MxOp
  permit : Bool
deriving DecidableEq, Repr, Inhabited

/-- A started matrix command (R245, R327): the k-steps done and its partial tile, (384 × row + column, word). `spilling` while
its tile is being written to the spill area (R328). `seen` holds the operand bytes it has read so far (R330): an operand-buffer byte
under its offset, a scratchpad byte under 2^32 plus its offset, a byte of the spill area under 2^40 plus its place. `put` lists the places of
the bytes that it has written of what it is writing now (R291). `wrote` lists the 128-byte lines that it has written (R300). -/
structure MxRun where
  cmd : MxCmd
  done : Nat
  tile : AccStore
  book : List Byte
  spilling : Bool
  seen : List (Nat × Byte)
  put : List Nat
  wrote : List Nat
deriving DecidableEq, Repr, Inhabited

/-- The kinds of copy-engine commands (R249 to R254); CBWR is a copy into the code bank. -/
inductive CopyKind where
  | copy | fill | look
deriving DecidableEq, Repr, Inhabited

/-- A copy-engine command (R249, R332): its descriptor with operand-buffer addresses resolved, next row, next piece of the row, permit
of the next burst, whether it has started, the pages a lookahead has started, the operand-buffer handles it names, the source bytes that the
next burst has read so far and the places of those it has written (R291), and the 128-byte lines that it has written (R300). -/
structure CopyCmd where
  id : Nat
  issuer : Issuer
  kind : CopyKind
  ssp : Nat
  dsp : Nat
  rows : Nat
  rb : Nat
  src : DWord
  dst : DWord
  ss : Int
  ds : Int
  pat : DWord
  row : Nat
  piece : Nat
  permit : Bool
  started : Bool
  pages : List Nat
  handles : List Nat
  seen : List (Nat × Byte)
  put : List Nat
  wrote : List Nat
deriving DecidableEq, Repr, Inhabited

/-- A SEL.run block (R255). -/
structure SelBlock where
  col : DWord
  csp : Nat
  fmt : Nat
  mode : Nat
  nanp : Nat
  wfmt : Nat
  out : Nat
  osp : Nat
  n : Nat
  stride : Nat
  kw : DWord
  wcol : DWord
  wstride : Nat
  recAddr : DWord
  outa : DWord
deriving DecidableEq, Repr, Inhabited

/-- What a Teasel command is to write (R256, R257): the selected indices in ascending order, the record, and whether the lengths of a
ZXF-M column differ. -/
structure SelResult where
  sel : List Nat
  record : List Byte
  mixed : Bool
deriving DecidableEq, Repr, Inhabited

/-- A Teasel command and its progress (R255, R336): passes done, digits chosen so far, candidates, indices selected so far, remaining
count, remaining weight in units of 2^−149 for binary32 weights and of 1 for n32, whether a weight was clamped, and the result once
its last pass is done. `seen` holds the bytes that the next pass has read so far, under their addresses, `put` the places of the output and
record bytes written (R291), `wrote` the 128-byte lines that it has written (R300). -/
structure SelCmd where
  id : Nat
  issuer : Issuer
  blk : SelBlock
  permit : Bool
  pass : Nat
  chosen : Nat
  cand : List Nat
  sel : List Nat
  need : Nat
  tgt : Int
  clamped : Bool
  result : Option SelResult
  seen : List (Nat × Byte)
  put : List Nat
  wrote : List Nat
deriving DecidableEq, Repr, Inhabited

/-- A trial whose verdict is known and whose lookup and record are due (R352). `gang` numbers the gang in which it ended, `since` is the time,
and `clk` the clock in which it reached the lookup (R355). Of the lookup: the entries probed so far, the answer DUP and TFULL once it is known,
the halves of the record written (R356), and the 128-byte lines written (R300). -/
structure Lookup where
  id : Nat
  gang : Nat
  req : TrialReq
  tid : BitVec 32
  launch : Nat
  verdict : Nat
  done : Nat
  used : Nat
  sig : DWord
  sign : BitVec 12
  since : Nat
  clk : Nat
  probed : Nat
  answer : Option (Bool × Bool)
  put : Nat
  wrote : List Nat
deriving DecidableEq, Repr, Inhabited

/-- A tuple of the filter cache (R352, R354). -/
structure FilterTuple where
  table : DWord
  tlog : Nat
  launch : Nat
  key : DWord
deriving DecidableEq, Repr, Inhabited

/-- The lines of a read cache (R269, R271): the 128-byte lines it holds, and those of its bytes that differ from their home. -/
structure Cache where
  lines : List Nat
  stale : Memory
deriving DecidableEq, Repr, Inhabited

/-- A byte in a write-combining buffer (R283), with the thread that stored it and the number of its store. -/
structure WcByte where
  key : Nat
  byte : Byte
  issuer : Key
  id : Nat
deriving DecidableEq, Repr, Inhabited

/-- The write-combining buffer of a core for one 128-byte line (R283): the bytes stored, oldest first, the pages they used, and the moves after
which it has drained at the latest. -/
structure WcLine where
  line : Nat
  bytes : List WcByte
  pages : List (Nat × Nat)
  left : Nat
deriving DecidableEq, Repr, Inhabited

/-- A store to a normal page that the threads of its core can read and that has not reached its home (R294, R299): the gang that
issued it, its bytes, the earlier such stores that come home before it, the pages it used, and the moves after which it is home at the latest
(R306). -/
structure OutWrite where
  id : Nat
  gang : Nat
  bytes : List (Nat × Byte)
  sees : List Nat
  pages : List (Nat × Nat)
  left : Nat
deriving DecidableEq, Repr, Inhabited

/-- A store to a normal page that has reached its home while threads of its core may still read what stood there (R298): the thread that
issued it, its bytes with what they held before, the threads that it has been ordered for all the same (R292), and the moves after which every
thread of the core reads it at the latest (R306). -/
structure LateWrite where
  key : Key
  old : List (Nat × Byte)
  shown : List Key
  left : Nat
deriving DecidableEq, Repr, Inhabited

/-- The aligned 8 bytes that a thread has read ahead of the instruction that needs them, with their places, how it read them, and the stores,
visible on the core but not yet at their homes, that they come from: what a later read of the thread may return, for reads are unordered unless
an edge orders them (R298, R299). -/
structure Ahead where
  key : Key
  route : Route
  bytes : List (Loc × Byte)
  sees : List Nat
deriving DecidableEq, Repr, Inhabited

/-- What a code-bank byte held before a write (R253): the number of the write's command and its issuer. -/
structure BankOld where
  off : Nat
  byte : Byte
  id : Nat
  issuer : Issuer
deriving DecidableEq, Repr, Inhabited

/-- A cached translation (R280): the page's virtual base, its size, the entry and the entry's address. -/
structure TlbEntry where
  va : Nat
  size : Nat
  pte : DWord
  pteAddr : Nat
deriving DecidableEq, Repr, Inhabited

/-- A PC class of a picker (R17): the PC, launch and kind of fetch that its threads have in common (a launch has one code version,
R398), the rotations since it last issued (since it arose, if it has not issued), its place in the order in which classes arose, and the
rotations for which it has now been pending with a ready thread (`held`) or active with one that was not chosen (`waited`, R18). -/
structure PcClass where
  pc : DWord
  launch : Nat
  bank : Bool
  age : Nat
  born : Nat
  held : Nat
  waited : Nat
deriving DecidableEq, Repr, Inhabited

/-- A picker (R14, R17, R18): its active classes, at most 8, its pending classes with the oldest first, the number of the class it issues
from, and the number of the next class that arises. Of the class it issues from: whether it has reached a switch point, where its first
gang at its PC has gone, and the slots that have issued there. -/
structure Picker where
  active : List PcClass
  pending : List PcClass
  chosen : Option Nat
  next : Nat
  switch : Bool
  lead : Option DWord
  issued : List Nat
deriving DecidableEq, Repr, Inhabited

/-- A thread that has exited while commands of it are outstanding (R162, R241, R322): what it still owns. -/
structure Exited where
  launch : Nat
  tid : BitVec 32
  tickets : List Ticket
deriving DecidableEq, Repr, Inhabited

/-- The context of a partition on one logical core (R17, R266, R268, R280, R313 to R317, R379). `utlb` holds the translations of the
pickers, each with its picker's number; `late` are the stores that are home before every thread of the core reads them, `ahead` what its
threads have read ahead (R298, R299); `icache` the cached code lines, the code version v adding v × 2^80 to the key (R271). `bankOld` holds
what code-bank writes have replaced, oldest first, and `bankShown` the writes that their issuers have made known to the other threads of the
core (R186, R253). -/
structure Ctx where
  part : Nat
  core : Nat
  startq : List StartEntry
  regions : List Region
  resvs : List Reservation
  crews : List Crew
  rvs : List Rendezvous
  bank : Memory
  bankOld : List BankOld
  bankShown : List Nat
  mxq : List MxCmd
  mxRun : Option MxRun
  mxSpill : Option MxRun
  cpq : List CopyCmd
  selq : List SelCmd
  lookups : List Lookup
  filter : List FilterTuple
  l1 : Cache
  con : Cache
  icache : Cache
  wc : List WcLine
  outq : List OutWrite
  late : List LateWrite
  ahead : List Ahead
  tlb : List TlbEntry
  utlb : List (Nat × TlbEntry)
  pickers : List Picker
  exited : List Exited
deriving DecidableEq, Repr, Inhabited

/-- What waits for draw credits (R320 to R322). -/
inductive PermitFor where
  | matrix (high : Bool) (id : Nat)
  | copy (id : Nat)
  | select (id : Nat)
  | ticket (k : Key) (tid : BitVec 32) (cls : EngineClass) (count : Nat)
deriving DecidableEq, Repr, Inhabited

/-- A waiting request for draw credits of a partition, in the order in which the requests began to wait. -/
structure PermitReq where
  part : Nat
  what : PermitFor
  cost : Nat
deriving DecidableEq, Repr, Inhabited

/-- The draw-permit budget of a logical core (R320, R321): balance, whole grant, waiting requests, served PERMIT requests. -/
structure Budget where
  core : Nat
  balance : Int
  grant : Nat
  waiting : List PermitReq
  served : List PermitReq
deriving DecidableEq, Repr, Inhabited

/-- The service state of a physical core (R378 to R382, R411); a scan has the number of its start among the events of the module. -/
inductive CoreUse where
  | serving (logical : Nat)
  | spare
  | scanning (since : Nat)
  | moving (logical : Nat)      -- the core that gives up `logical`; the die's spare takes it over
  | retired
deriving DecidableEq, Repr, Inhabited

/-- A physical core: C-die, place on the die, use, and the number of the start of its previous passed scan. -/
structure PhysCore where
  die : Nat
  idx : Nat
  use : CoreUse
  lastPass : Nat
deriving DecidableEq, Repr, Inhabited

/-- An overlay of a code version (R395): version in which it appears, page, frame. -/
structure Overlay where
  ver : Nat
  page : Nat
  frame : Nat
deriving DecidableEq, Repr, Inhabited

/-- A launch queue (R307, R311, R397): its records, whether the head's wait word has been seen at its value, and the oldest version on
whose release a patch at the head waits. -/
structure Queue where
  recs : List (List Byte)
  ready : Bool
  hold : Option Nat
deriving DecidableEq, Repr, Inhabited

/-- The phases of a partition swap (R324). -/
inductive SwapPhase where
  | none | halting | exchanging
deriving DecidableEq, Repr, Inhabited

/-- An auto-crew that no core has taken yet (R316): launch, block number, first TID, size, and the core in whose depth its entries count
until then (R319). -/
structure CrewWaiting where
  launch : Nat
  block : Nat
  tid : Nat
  size : Nat
  core : Nat
deriving DecidableEq, Repr, Inhabited

/-- A partition: its cores, its registers (R403) and what they govern. `tlb` holds the translations of the module's translation service
(R280). `bells` are doorbells whose record waits for its page, as queue and address (R308); `swapDue` says that a swap begins once no
core of the partition is in a migration (R378). `xlinvRun` is the invalidation request in progress (R282). `stageTaken` lists the blocks of the staging area that have
become page frames at a commit, `stageGiven` the former page frames that took their place in the area (R375), each with its size. -/
structure Part where
  idx : Nat
  cores : List Nat
  active : Bool
  swap : SwapPhase
  activeSince : Nat
  xlroot : DWord
  xlinv : DWord
  xlinvRun : DWord
  lqovf : BitVec 16
  balcfg : DWord
  pswap : DWord
  wdcfg : DWord
  stgcfg : DWord
  flttgt : DWord
  fltErr : Bool
  tierfl : DWord
  stkap : DWord
  queues : Vector Queue 16
  rr : Nat
  nextLaunch : Nat
  nextOrder : Nat
  ver : Nat
  overlays : List Overlay
  tlb : List TlbEntry
  stageTaken : List (Nat × Nat)
  stageGiven : List (Nat × Nat)
  crewWait : List CrewWaiting
  bells : List (Nat × Nat)
  swapDue : Bool
deriving DecidableEq, Repr, Inhabited

/-- Messages that leave the module: MSI-X vectors (R400; function 0 is the PF, q + 1 the VF of partition q), answers to BAR2 and
peer reads, register reads and management (R402, R406, R412). -/
inductive Msg where
  | register (v : DWord)
  | msix (fn vector : Nat)
  | readAnswer (bytes : List Byte) (poisoned : Bool)
  | status (v : DWord)
  | store (c : List StoreCopy)
deriving DecidableEq, Repr, Inhabited

/-- Where an upset strikes (R370): the classes of ECCCNT. -/
inductive UpsetAt where
  | thread (k : Key)                    -- class 0
  | region (k : Key)                    -- class 1: a line of the region of this thread's launch, found by the thread
  | engine (part core id : Nat)         -- class 1: a line that the command of this number reads
  | cleanCopy                           -- class 2
  | shadow (k : Key)                    -- class 3: what is saved of this thread, its region's lines included (R379)
  | l2 (granule : Nat)                  -- class 4
  | memory (granule : Nat)              -- class 5
deriving DecidableEq, Repr, Inhabited

/-- A latent error of device memory that nothing has read yet (R370). -/
structure Latent where
  granule : Nat
  double : Bool
deriving DecidableEq, Repr, Inhabited

/-- A poisoned granule (R371), with the class of R370 of its error: 4 in L2, 5 in device memory. -/
structure Poison where
  granule : Nat
  cls : Nat
deriving DecidableEq, Repr, Inhabited

/-- A page held in flash (R286 to R288): partition, virtual base, contents with the granules that are poisoned, both with offsets as keys, and
the frame that a fetch has filled from them, if any. -/
structure FlashPage where
  part : Nat
  va : Nat
  bytes : Memory
  poison : List Poison
  frame : Option Nat
deriving DecidableEq, Repr, Inhabited

/-- An uncorrectable error consumed (R371): the launch, and the core, TID, address and class that its record names; `flags` are those
of R361, and `key` is the byte that was read. -/
structure Ue where
  part : Nat
  launch : Nat
  core : Nat
  tid : Nat
  ip : DWord
  cls : Nat
  flags : Nat
  key : Nat
deriving DecidableEq, Repr, Inhabited

/-- A fault record that is being written, or waits until its page can be (R288, R364, R374): the launch, its address and its bytes, and which of
its four 8-byte words are written (R364). `gone` holds the loss mark and the interrupt-pending bit of a launch that has ended (R364). -/
structure RecWait where
  part : Nat
  launch : Nat
  addr : DWord
  bytes : List Byte
  put : List Nat
  gone : Option (Bool × Bool)
deriving DecidableEq, Repr, Inhabited

/-- An access from outside that is under way (R291, R402, R406): of the host, from a function over a link (R305, R401), or of a peer module; its
bytes read or written so far, under their place, and whether a byte it has read was poisoned (R371). -/
structure Outside where
  id : Nat
  peer : Bool
  fn : Nat
  link : Nat
  access : ExtAccess
  got : List (Nat × Byte)
  poisoned : Bool
deriving DecidableEq, Repr, Inhabited

/-- Everything that instructions, engines and the scheduler act on. `apart` says that the fault records of the next moves are written in parts
(R364); `outside` are the accesses from outside that are under way; `found` are the latent errors that the present step has read and `ue`
the errors it has consumed; both are empty between steps. -/
structure Hw where
  threads : List Thread
  ctxs : List Ctx
  parts : List Part
  launches : List Launch
  pends : List Pend
  mem : Memory
  poison : List Poison
  latent : List Latent
  found : List Latent
  ue : List Ue
  records : List RecWait
  apart : Bool
  flash : List FlashPage
  freeTier : List Nat
  budgets : List Budget
  cores : List PhysCore
  outside : List Outside
  out : List Msg
  nextId : Nat
  fresh : Nat
  gang : Nat
deriving DecidableEq, Repr, Inhabited

/-- The module's own registers (R290, R370, R404, R407) and the configuration store (R409). TIERWM is held as its two fields,
ECCCNT as one word for each class, HEALTH as its DEG and CFGB fields (its counts follow from the physical cores). `bar2` is the size of BAR2 (R402). -/
structure Module where
  modid : BitVec 12
  pwrlim : BitVec 12
  tj : BitVec 8
  eff : BitVec 12
  pwr : BitVec 12
  tierHigh : BitVec 32
  tierLow : BitVec 32
  ecc : Vector DWord 6
  deg : BitVec 4
  cfgb : Bool
  hand : Nat
  handRuns : Bool
  inReset : Bool
  bar2 : Nat
  stores : List StoreCopy
deriving DecidableEq, Repr, Inhabited

/-- What happens next, one entry at a time. -/
inductive Move where
  /-- A thread's issue. -/
  | issue (k : Key)
  /-- A gang's issue (R14). -/
  | gang (part core : Nat) (slots : List Nat)
  /-- A step of the hardware or the outside, with the outside transaction that it takes its data from. -/
  | event (i : Instr) (p : Port)
  /-- One unit of an outstanding access is performed (R291, R176); `home` says that a store to a normal page reaches its home before every thread
  of its core reads it (R298). -/
  | perform (id unit : Nat) (home : Bool)
  /-- A store that its core can see reaches its home (R294). -/
  | home (part core id : Nat)
  /-- The matrix engine reads one operand byte of its running command (R330). -/
  | mxRead (part core key : Nat)
  /-- An engine, Campion or the outside makes one single-byte access of what it has under way (R291): of an access of the outside, of a copy
  command, a Teasel command, a matrix command, a lookup, or the example that the trial of a thread slot begins. -/
  | outside (id n : Nat)
  | copyByte (part core id n : Nat)
  | selByte (part core id n : Nat)
  | mxByte (part core id n : Nat)
  | lookupPart (part core id : Nat)
  | exampleByte (k : Key) (n : Nat)
  /-- From here on fault records are written in one step, or in their four parts; part `n` of the next one of a launch is written (R364). -/
  | recordsApart (on : Bool)
  | recordPart (part launch n : Nat)
  /-- A read cache of a core takes in the line of a key (R269, R271, R299). -/
  | prefetch (part core : Nat) (con : Bool) (key : Nat)
  /-- A thread reads ahead the aligned 8 bytes at a place: a key of memory, or an offset of the scratchpad (R298, R299). -/
  | readAhead (k : Key) (r : Route) (place : Nat)
  /-- The host reads or writes 8 bytes of the BAR0 of a function (R402; function 0 is the PF, q + 1 the VF of partition q), a write over a
  link (R401). `pass` lists the cores
  that pass the scan, should the write reset the module (R411). -/
  | barRead (fn off : Nat)
  | barWrite (fn link off : Nat) (v : DWord) (pass : List (Nat × Nat))
  /-- The host sets the size of BAR2 (R402). -/
  | barResize (size : Nat)
  /-- Time passes, in ns (R48). -/
  | pass (ns : Nat)
  /-- A physical upset (R370). -/
  | upset (w : UpsetAt) (double : Bool)
  /-- The copies of a redundant pair differ at the instruction they are about to execute (R377). -/
  | dmrMismatch (k : Key)
deriving DecidableEq, Repr, Inhabited

/-- The whole module. `th` is the record of the thread whose instruction is being executed, taken out of `hw.threads` for the
step; between steps it is the idle record. `agenda` holds the moves that are due, first one next; with an empty agenda the
schedule of Config, applied to `ticks`, chooses. -/
structure State where
  th : Thread
  hw : Hw
  mod : Module
  time : Nat
  port : Port
  agenda : List Move
  ticks : Nat
deriving DecidableEq, Repr, Inhabited

/-- The idle thread record: no thread is being executed (DESIGN CHOICE: every field 0, notes/assumptions/2.md). -/
def Thread.idle : Thread :=
  { live := false, key := ⟨0, 0, 0⟩, launch := 0, tid := 0, pc := 0, win := 0, mode := .z3, picker := 0, dmr := false,
    dmrMiss := false, slot2 := none, cells := [], sregs := Vector.replicate 32 0, preds := Vector.replicate 7 false, crew := 0, rank := 0,
    tile := 0, prec := 0, xflags := 0, fcsr := 0, ltv := 0, ltc := 0, ltip := 0, ltval := 0, tstate := false, fuel := 0,
    sig := 0, sign := 0, seed := 0, randN := 0, cmds := [], issued := Vector.replicate 4 0, tickets := [], park := .none, engineDue := false,
    wait := .none, charged := false, trial := none, arrived := false, exempt := false, latch := none, gangs := [],
    sees := [], knows := [], conRead := [] }

/-- An empty launch queue. -/
def Queue.empty : Queue := ⟨[], false, none⟩

/-- An empty read cache. -/
def Cache.empty : Cache := ⟨[], []⟩

/-- A picker without threads. -/
def Picker.empty : Picker := ⟨[], [], none, 0, false, none, []⟩

/-- The context of a newly created partition on a core: everything empty, the code bank zero (R342). -/
def Ctx.empty (part core : Nat) : Ctx :=
  { part := part, core := core, startq := [], regions := [], resvs := [], crews := [], rvs := [], bank := [], bankOld := [], bankShown := [], mxq := [],
    mxRun := none, mxSpill := none, cpq := [], selq := [], lookups := [], filter := [], l1 := .empty, con := .empty,
    icache := .empty, wc := [], outq := [], late := [], ahead := [], tlb := [], utlb := [], pickers := List.replicate 16 Picker.empty, exited := [] }

/-- A newly created partition: every register at its reset value (R13, R281, R308, R309, R319, R326, R365, R368, R373, R399). -/
def Part.fresh (idx : Nat) (cores : List Nat) (tierfl : DWord) (active : Bool) : Part :=
  { idx := idx, cores := cores, active := active, swap := .none, activeSince := 0, xlroot := 0, xlinv := 0, xlinvRun := 0, lqovf := 0,
    balcfg := 64, pswap := 0, wdcfg := 1000000, stgcfg := 0, flttgt := 0, fltErr := false, tierfl := tierfl, stkap := 0,
    queues := Vector.replicate 16 Queue.empty, rr := 0, nextLaunch := 1, nextOrder := 0, ver := 1, overlays := [], tlb := [],
    stageTaken := [], stageGiven := [], crewWait := [], bells := [], swapDue := false }

/-- The budget of a core at reset: 1,023 credits (DESIGN CHOICE, notes/assumptions/21.md). -/
def Budget.fresh (core : Nat) : Budget := ⟨core, 1023, 1023, [], []⟩

/-- The configuration store as the module is shipped: module 0, partition 0 with all 48 cores, core 12 of each die the spare,
nothing retired, no default power limit (DESIGN CHOICE, notes/assumptions/22.md: the spec leaves the contents open, R409). -/
def shippedStore (serial : Nat) : StoreCopy :=
  { serial := serial, valid := true, modid := 0, parts := [⟨0, List.range 48, 0⟩], spares := [(0, 12), (1, 12), (2, 12), (3, 12)],
    retired := [], pwrlim := none, health := 0, repair := [] }

/-- The physical cores of one die when all 13 pass and core 12 is the spare (R411). -/
def PhysCore.ofDie (d : Nat) : List PhysCore :=
  (List.range 13).map fun i => ⟨d, i, if i == 12 then .spare else .serving (12 * d + i), 0⟩

/-- No outside transaction is present. -/
def Port.idle : Port := ⟨0, 0, .xlroot, .read 0 0, 0, 0, false, shippedStore 0, []⟩

/-- The module's registers after the boot (R290, R404, R407). -/
def Module.booted : Module :=
  { modid := 0, pwrlim := 1900, tj := 25, eff := 1900, pwr := 0, tierHigh := 2048, tierLow := 1024,
    ecc := Vector.replicate 6 0, deg := 0, cfgb := false, hand := 0, handRuns := false, inReset := false, bar2 := 2 ^ 39,
    stores := [shippedStore 1, shippedStore 0] }

/-- Everything that instructions, engines and the scheduler act on, after the boot: device memory zero (R410 step 2), one
partition of 48 cores, no launch and no thread. -/
def Hw.booted : Hw :=
  { threads := [], ctxs := (List.range 48).map (Ctx.empty 0), parts := [Part.fresh 0 (List.range 48) 0 true], launches := [],
    pends := [], mem := [], poison := [], latent := [], found := [], ue := [], records := [], apart := false, flash := [], freeTier := [],
    budgets := (List.range 48).map Budget.fresh, cores := (List.range 4).flatMap PhysCore.ofDie, outside := [], out := [], nextId := 1,
    fresh := 0, gang := 0 }

/-- The module right after the cold boot of R410. -/
def State.reset : State :=
  { th := Thread.idle, hw := Hw.booted, mod := Module.booted, time := 0, port := Port.idle, agenda := [], ticks := 0 }

end Sys2Proof.Machine
end

