-- ==== Sys2Proof/Config.lean ====
section
/-!
DEFINITION. Sys2Proof/Config.lean: the values the spec leaves open. Each is an opaque constant: no proof can see what it is, so a
claim about the model holds whatever it is.
-/
namespace Sys2Proof.Config

open Sys2Proof.Machine

/-- Which move comes next when the agenda is empty: the order of all agents' steps (R14, R82, R413), applied to the counter
`State.ticks`. -/
opaque schedule : Nat → Move

/-- A free choice between two behaviours the spec allows, applied to the counter `Hw.fresh`. -/
opaque freeBool : Nat → Bool

/-- A free number, applied to the counter `Hw.fresh`. -/
opaque freeNat : Nat → Nat

/-- Where, among the operands whose true results lie between the same two adjacent values, a faithful function changes from one to the
other (R81): a place in the order of the operands. The arguments are the function (0 FEXP2, 1 FLOG2, 2 FRCP, 3 FRSQ), the formats, and the
code of the value of lesser magnitude. -/
opaque faithfulCut : Nat → Nat → Nat → Int

end Sys2Proof.Config
end

