-- ==== Sys2Proof/Machine/Mem.lean ====
section
/-!
DEFINITION. Sys2Proof/Machine/Mem.lean: sparse stores in canonical form, bytes, and the keys of memory.
-/
namespace Sys2Proof.Machine

/-- The value at a key: the listed one, else 0. -/
def sget {w : Nat} : List (Nat × BitVec w) → Nat → BitVec w
  | [], _ => 0#w
  | (a, v) :: rest, k => if k = a then v else if k < a then 0#w else sget rest k

/-- Store a value at a key, keeping the canonical form: writing 0 removes the entry. -/
def sset {w : Nat} : List (Nat × BitVec w) → Nat → BitVec w → List (Nat × BitVec w)
  | [], k, v => if v = 0#w then [] else [(k, v)]
  | (a, u) :: rest, k, v =>
    if k < a then (if v = 0#w then (a, u) :: rest else (k, v) :: (a, u) :: rest)
    else if k = a then (if v = 0#w then rest else (k, v) :: rest)
    else (a, u) :: sset rest k v

/-- The canonical form: keys strictly rising, no value equal to what an unlisted key reads as. -/
def swf {w : Nat} : List (Nat × BitVec w) → Bool
  | [] => true
  | [(_, v)] => v != 0#w
  | (a, v) :: (b, u) :: rest => v != 0#w && a < b && swf ((b, u) :: rest)

/-- A memory is in its canonical form. -/
abbrev Memory.wf (m : Memory) : Prop := swf m = true

/-- An accumulator store is in its canonical form. -/
abbrev AccStore.wf (m : AccStore) : Prop := swf m = true

/-- The bytes at `n` keys from `k` up. -/
def readBytes (m : Memory) (k n : Nat) : List Byte := (List.range n).map fun i => sget m (k + i)

/-- Store bytes at keys from `k` up. -/
def writeBytes (m : Memory) (k : Nat) : List Byte → Memory
  | [] => m
  | b :: bs => writeBytes (sset m k b) (k + 1) bs

/-- Store 0 at `n` keys from `k` up. -/
def zeroBytes (m : Memory) (k n : Nat) : Memory := m.filter fun c => c.1 < k || k + n ≤ c.1

/-- The number that little-endian bytes hold (R3). -/
def leNat : List Byte → Nat
  | [] => 0
  | b :: bs => b.toNat + 256 * leNat bs

/-- The lowest `n` bytes of a number, little-endian (R3). -/
def leBytes : Nat → Nat → List Byte
  | 0, _ => []
  | n + 1, v => BitVec.ofNat 8 v :: leBytes n (v / 256)

/-- The spaces of a memory key. -/
def spaceSize : Nat := 2 ^ 64

/-- The size of device memory, 512 GiB (R2). -/
def deviceSize : Nat := 2 ^ 39

/-- The key of a device-memory address. -/
def devKey (a : Nat) : Nat := a

/-- The key of a host bus address (R276 TGT 1). -/
def hostKey (a : Nat) : Nat := spaceSize + a

/-- The key of an address in the device memory of module `m` (R276 TGT 2). -/
def peerKey (m a : Nat) : Nat := (2 + m) * spaceSize + a

/-- The key lies in this module's device memory. -/
def keyIsDevice (k : Nat) : Bool := k < spaceSize

/-- The key lies in a peer module's memory. -/
def keyIsPeer (k : Nat) : Bool := 2 * spaceSize ≤ k

/-- The 128-byte line of a key (R266). -/
def lineOf (k : Nat) : Nat := k / 128

/-- The 32-byte granule of a key (R371). -/
def granuleOf (k : Nat) : Nat := k / 32

/-- A list without repetitions, in the order of first appearance. -/
def nub {α : Type} [DecidableEq α] : List α → List α
  | [] => []
  | x :: xs => x :: (nub xs).filter (· ≠ x)

/-- Replace the first element that satisfies `p`, or do nothing. -/
def replaceFirst {α : Type} (p : α → Bool) (v : α) : List α → List α
  | [] => []
  | x :: xs => if p x then v :: xs else x :: replaceFirst p v xs

/-- Remove the first element that satisfies `p`. -/
def removeFirst {α : Type} (p : α → Bool) : List α → List α
  | [] => []
  | x :: xs => if p x then xs else x :: removeFirst p xs

/-- The element of least measure that comes first. -/
def minBy {α : Type} (f : α → Nat) : List α → Option α
  | [] => none
  | x :: xs => match minBy f xs with
    | none => some x
    | some y => if f y < f x then some y else some x

/-- Insertion into a list sorted by measure, before equal ones. -/
def insertBy {α : Type} (f : α → Nat) (x : α) : List α → List α
  | [] => [x]
  | y :: ys => if f x ≤ f y then x :: y :: ys else y :: insertBy f x ys

/-- Stable insertion sort by measure. -/
def sortBy {α : Type} (f : α → Nat) : List α → List α
  | [] => []
  | x :: xs => insertBy f x (sortBy f xs)

end Sys2Proof.Machine
end

