-- ==== Sys2Proof/Machine/Access.lean ====
section
/-!
DEFINITION. Sys2Proof/Machine/Access.lean: finding and replacing the parts of the state, address translation (R275 to R282), the
checks of an access in their order (R172, R278, R13, R373), and reading and writing memory with its caches (R269 to R271, R283).
-/
namespace Sys2Proof.Machine

/-! ### The parts of the state -/

/-- The partition of a number; a partition that is not created has no cores. -/
def Hw.part (h : Hw) (i : Nat) : Part := (h.parts.find? fun p => p.idx == i).getD (Part.fresh i [] 0 false)

def Hw.setPart (h : Hw) (p : Part) : Hw := { h with parts := h.parts.map fun q => if q.idx == p.idx then p else q }

/-- The context of a partition on a logical core. -/
def Hw.ctx (h : Hw) (part core : Nat) : Ctx :=
  (h.ctxs.find? fun c => c.part == part && c.core == core).getD (Ctx.empty part core)

def Hw.setCtx (h : Hw) (c : Ctx) : Hw :=
  { h with ctxs := h.ctxs.map fun d => if d.part == c.part && d.core == c.core then c else d }

/-- A launch in flight (R313). -/
def Hw.launch? (h : Hw) (part id : Nat) : Option Launch := h.launches.find? fun l => l.part == part && l.id == id

def Hw.setLaunch (h : Hw) (l : Launch) : Hw :=
  { h with launches := h.launches.map fun m => if m.part == l.part && m.id == l.id then l else m }

def State.setTh (s : State) (t : Thread) : State := { s with th := t }

def State.setHw (s : State) (h : Hw) : State := { s with hw := h }

def State.setMod (s : State) (m : Module) : State := { s with mod := m }

def State.mapHw (s : State) (f : Hw → Hw) : State := { s with hw := f s.hw }

/-- The resident thread of a slot: the one being executed, or one of the list. -/
def State.thread? (s : State) (k : Key) : Option Thread :=
  if s.th.live && s.th.key == k then some s.th else s.hw.threads.find? fun t => t.key == k

/-- Put a thread's record back where it was found. -/
def State.setThread (s : State) (t : Thread) : State :=
  if s.th.live && s.th.key == t.key then s.setTh t
  else s.mapHw fun h => { h with threads := h.threads.map fun u => if u.key == t.key then t else u }

/-- Apply a function to every resident thread. -/
def State.mapThreads (s : State) (f : Thread → Thread) : State :=
  { s with th := if s.th.live then f s.th else s.th, hw := { s.hw with threads := s.hw.threads.map f } }

/-- Every resident thread. -/
def State.allThreads (s : State) : List Thread := if s.th.live then s.th :: s.hw.threads else s.hw.threads

/-- A thread's record leaves its slot. -/
def State.dropThread (s : State) (k : Key) : State :=
  if s.th.live && s.th.key == k then s.setTh { s.th with live := false }
  else s.mapHw fun h => { h with threads := h.threads.filter fun t => !(t.key == k) }

/-- The next value of the counter that free choices are applied to. -/
def State.tick (s : State) : State := s.mapHw fun h => { h with fresh := h.fresh + 1 }

/-- A message to the outside. -/
def State.emit (s : State) (m : Msg) : State := s.mapHw fun h => { h with out := h.out ++ [m] }

/-! ### Translation -/

/-- Bits hi:lo of a number. -/
def bitsOf (v hi lo : Nat) : Nat := v / 2 ^ lo % 2 ^ (hi + 1 - lo)

/-- The page-table entry at a device-memory address. -/
def pteAt (h : Hw) (a : Nat) : Nat := leNat (readBytes h.mem (devKey a) 8)

/-- The fields of an entry (R276). -/
def pteTgt (e : Nat) : Nat := bitsOf e 59 58
def pteS64 (e : Nat) : Bool := bitsOf e 57 57 == 1
def pteLeaf (e : Nat) : Bool := bitsOf e 56 56 == 1
def pteFrame (e : Nat) : Nat := bitsOf e 55 12 * 4096
def pteMt (e : Nat) : Nat := bitsOf e 11 10
def pteComp (e : Nat) : Bool := bitsOf e 9 9 == 1
def pteTier (e : Nat) : Bool := bitsOf e 8 8 == 1
def pteRes (e : Nat) : Bool := bitsOf e 7 7 == 1
def pteX (e : Nat) : Bool := bitsOf e 3 3 == 1
def pteW (e : Nat) : Bool := bitsOf e 2 2 == 1
def pteR (e : Nat) : Bool := bitsOf e 1 1 == 1
def pteV (e : Nat) : Bool := bitsOf e 0 0 == 1

/-- A leaf that R277 and R278 accept: target, attributes, alignment of the frame, and its place in its target. R278 names the place of
pages without TIER alone; that a resident tiered page outside device memory is a translation fault too is a DESIGN CHOICE
(notes/assumptions/42.md). -/
def leafOk (e size : Nat) : Bool :=
  pteV e && pteTgt e != 3 && !((pteComp e || pteTier e) && (pteMt e != 0 || pteTgt e != 0)) &&
  !(pteTier e && size != 65536) && pteFrame e % size == 0 &&
  ((pteTier e && !pteRes e) || pteTgt e == 1 || pteFrame e + size ≤ deviceSize)

/-- A non-leaf entry whose next table lies in device memory (R278). -/
def nextTable (e : Nat) : Option Nat :=
  if pteV e && !pteLeaf e && pteFrame e < deviceSize then some (pteFrame e) else none

/-- A leaf as a cached translation, if it is admitted. -/
def leafEntry (ea e addr size : Nat) : Option TlbEntry :=
  if leafOk e size then some ⟨ea / size * size, size, BitVec.ofNat 64 e, addr⟩ else none

/-- Two entries of a 64 KiB group agree: REF, D and the reserved bits 4 and 63:60 apart (R276). -/
def sameGroup (a b : Nat) : Bool := a % 2 ^ 60 / 128 == b % 2 ^ 60 / 128 && a % 16 == b % 16

/-- The level 3 entry that an access to a 64 KiB group translates through: its own, or, where the entries of the group differ, a
free choice among the valid ones (R277). -/
def groupEntry (h : Hw) (table i : Nat) : Nat × Nat :=
  let own := pteAt h (table + 8 * i)
  let g := i / 16 * 16
  let es := (List.range 16).map fun j => (pteAt h (table + 8 * (g + j)), table + 8 * (g + j))
  if pteS64 own && es.any (fun x => !sameGroup x.1 own) then
    match (es.filter fun x => pteS64 x.1 && pteV x.1)[Config.freeNat h.fresh % 16]? with
    | some x => x
    | none => (own, table + 8 * i)
  else (own, table + 8 * i)

/-- The walk of R275 to R278: the leaf that maps an address, or the translation fault. That a root outside device memory is one is a DESIGN
CHOICE (notes/assumptions/45.md): R278 names entries only. -/
def walk (h : Hw) (xlroot : DWord) (ea : Nat) : Option TlbEntry :=
  if 2 ^ 56 ≤ ea || !xlroot[0] then none
  else
    let root := bitsOf xlroot.toNat 55 20 * 2 ^ 20
    if deviceSize ≤ root then none
    else
      match nextTable (pteAt h (root + 8 * bitsOf ea 55 39)) with
      | none => none
      | some t1 =>
        let a1 := t1 + 8 * bitsOf ea 38 30
        let e1 := pteAt h a1
        if pteLeaf e1 then leafEntry ea e1 a1 (2 ^ 30)
        else match nextTable e1 with
          | none => none
          | some t2 =>
            let a2 := t2 + 8 * bitsOf ea 29 21
            let e2 := pteAt h a2
            if pteLeaf e2 then leafEntry ea e2 a2 (2 ^ 21)
            else match nextTable e2 with
              | none => none
              | some t3 =>
                let (e3, a3) := groupEntry h t3 (bitsOf ea 20 12)
                leafEntry ea e3 a3 (if pteS64 e3 then 65536 else 4096)

/-- The key of the byte at an address, through a translation (R277). Module number MODID means this module (R406). -/
def TlbEntry.key (e : TlbEntry) (modid : Nat) (ea : Nat) : Nat :=
  let pte := e.pte.toNat
  let pa := pteFrame pte + (ea - e.va)
  match pteTgt pte with
  | 1 => hostKey pa
  | 2 => if bitsOf ea 55 44 == modid then devKey pa else peerKey (bitsOf ea 55 44) pa
  | _ => devKey pa

/-- The kinds of access that permissions tell apart (R278). -/
inductive Acc where
  | load | store | atomic | fetch
deriving DecidableEq, Repr, Inhabited

def Acc.writes : Acc → Bool
  | .store | .atomic => true
  | _ => false

/-- The permission of a page for an access (R278, R180, R283). -/
def pagePerm (acc : Acc) (pte : Nat) : Bool :=
  match acc with
  | .load => pteR pte
  | .store => pteW pte && !pteX pte
  | .atomic => pteR pte && pteW pte && !pteX pte && pteMt pte != 1
  | .fetch => pteX pte && pteMt pte == 0

/-- A supervisor fault (R361, R362): cause, detail, whether it is a store or atomic, whether it is a fetch, val and sub. -/
structure SupFault where
  cause : BitVec 8
  detail : BitVec 8
  store : Bool
  fetch : Bool
  val : DWord
  sub : BitVec 8
deriving DecidableEq, Repr, Inhabited

/-- Why an instruction or a command does not complete: it waits, it waits for the staging of the pieces of pages it is the first to
write (R373), it raises a local trap (cause, detail, value, and the sticky flags it sets all the same, R50), it raises a supervisor fault,
its launch consumes an uncorrectable error (R371), or a store of it got no response from a peer, which may have performed it (R406). -/
inductive Stop where
  | wait (k : WaitKind)
  | stage (pages : List Nat)
  | trap (cause det : BitVec 8) (val : DWord) (xf : BitVec 6) (fc : BitVec 25)
  | fault (f : SupFault)
  | consumed (u : Ue)
  | lostStore (f : SupFault) (bytes : List (Nat × Byte))
deriving DecidableEq, Repr, Inhabited

/-- The translation fault of a byte address. -/
def xlateFault (acc : Acc) (ea : DWord) : Stop := .fault ⟨1, 0, acc.writes, acc == .fetch, ea, 0⟩

/-- The permission fault of a byte address. -/
def permFault (acc : Acc) (ea : DWord) : Stop := .fault ⟨2, 0, acc.writes, acc == .fetch, ea, 0⟩

/-- ILL with a detail of R109; `w0` is the instruction's first word. -/
def illFault (detail : BitVec 8) (w0 : Word) : Stop := .fault ⟨3, detail, false, false, w0.zeroExtend 64, 0⟩

/-- Who makes a generic access: a thread, with its picker, or an engine command of it (R13), or, without a key, the partition itself. -/
structure Who where
  part : Nat
  launch : Nat
  key : Option Key
  picker : Option Nat
deriving DecidableEq, Repr, Inhabited

/-- Two cached translations are the same: REF, D and the reserved bits of the entry apart (R276, R279). -/
def TlbEntry.same (a b : TlbEntry) : Bool :=
  sameGroup a.pte.toNat b.pte.toNat && a.pteAddr == b.pteAddr && a.va == b.va && a.size == b.size

/-- A translation covers an address. -/
def TlbEntry.covers (e : TlbEntry) (ea : Nat) : Bool := decide (e.va ≤ ea) && decide (ea < e.va + e.size)

/-- The cached translations that an access may use (R280): those of the thread's picker, of the core, and of the translation service. -/
def tlbsOf (h : Hw) (w : Who) : List TlbEntry :=
  (match w.key with
    | none => []
    | some k =>
      let c := h.ctx k.part k.core
      (match w.picker with
        | some p => (c.utlb.filter fun x => x.1 == p).map Prod.snd
        | none => []) ++ c.tlb) ++ (h.part w.part).tlb

/-- The translation an access uses: the walk's, or, while cached ones that differ from it cover the address, any of them (R282). -/
def translate (h : Hw) (w : Who) (ea : Nat) : Option TlbEntry :=
  let xlroot := (h.part w.part).xlroot
  let now := walk h xlroot ea
  let old := (tlbsOf h w).filter fun c => c.covers ea && (match now with
    | some e => !c.same e
    | none => true)
  if old.isEmpty || !xlroot[0] then now
  else match old[Config.freeNat h.fresh % (old.length + 1)]? with
    | some c => some c
    | none => now

/-- The stack region of a thread slot (R13). -/
def stackLo (stkap : DWord) (k : Key) : Nat := bitsOf stkap.toNat 55 34 * 2 ^ 34 + 65536 * (4096 * k.core + k.slot)

/-- The aperture check of R13. -/
def apertureOk (stkap : DWord) (w : Who) (ea : Nat) : Bool :=
  match w.key with
  | none => true
  | some k =>
    let base := bitsOf stkap.toNat 55 34 * 2 ^ 34
    if !stkap[0] || ea < base || base + 2 ^ 34 ≤ ea then true
    else stackLo stkap k ≤ ea && ea < stackLo stkap k + 65536

/-- The addresses of an access, modulo 2^64. -/
def eaBytes (ea : DWord) : Nat → List DWord
  | 0 => []
  | n + 1 => ea :: eaBytes (ea + 1) n

/-- The staged piece of a launch that covers an address. -/
def Launch.stagedAt (l : Launch) (ea : Nat) : Option Staged := l.staged.find? fun g => g.va ≤ ea && ea < g.va + g.size

/-- A launch other than this one has staged the frame of a key (R374). -/
def stagedByOther (h : Hw) (w : Who) (key : Nat) : Bool :=
  h.launches.any fun l => !(l.part == w.part && l.id == w.launch) &&
    l.staged.any fun g => g.orig ≤ key && key < g.orig + g.size

/-- The translated bytes of an access: address, key and translation of each. -/
abbrev Xlated := List (DWord × Nat × TlbEntry)

/-- The piece of a page that staging takes (R373): a 64 KiB page whole, else 4 KiB. -/
def stagePiece (e : TlbEntry) (ea : Nat) : Nat × Nat :=
  if e.size == 65536 then (e.va, 65536) else (ea / 4096 * 4096, 4096)

/-- The key of an access of a launch: the staging frame of a staged piece, else the page's own (R373). -/
def accessKey (h : Hw) (modid : Nat) (w : Who) (e : TlbEntry) (ea : Nat) : Nat :=
  match h.launch? w.part w.launch with
  | none => e.key modid ea
  | some l => match l.stagedAt ea with
    | some g => devKey (g.frame + (ea - g.va))
    | none => e.key modid ea

/-- The pieces of an access that a RESTARTABLE launch must stage before it writes them (R373). -/
def unstaged (h : Hw) (w : Who) (xs : Xlated) : List Nat :=
  match h.launch? w.part w.launch with
  | none => []
  | some l =>
    if !l.restartable then []
    else nub ((xs.filter fun x => (l.stagedAt x.1.toNat).isNone).map fun x => (stagePiece x.2.2 x.1.toNat).1)

/-- A page that a RESTARTABLE launch cannot stage (R373). -/
def unstageable (h : Hw) (w : Who) (acc : Acc) (pte : Nat) : Bool :=
  acc.writes && (match h.launch? w.part w.launch with
    | some l => l.restartable
    | none => false) && (pteTgt pte != 0 || pteMt pte != 0)

/-- The checks of a generic access in the order of R172: translation, page permission, aperture; then the waits for staging
(R373, R374). R172 does not place the wait for a non-resident tiered page among the checks: that it comes after translation and before
page permission is a DESIGN CHOICE (notes/assumptions/45.md). -/
def checkGen (s : State) (w : Who) (acc : Acc) (ea : DWord) (n : Nat) : Except Stop Xlated :=
  let h := s.hw
  let ts := (eaBytes ea n).map fun a => (a, translate h w a.toNat)
  match ts.find? fun x => x.2.isNone with
  | some x => .error (xlateFault acc x.1)
  | none =>
    let es := ts.filterMap fun x => x.2.map fun e => (x.1, e)
    if es.any fun x => pteTier x.2.pte.toNat && !pteRes x.2.pte.toNat then .error (.wait .tierPage)
    else
      match es.find? fun x => !pagePerm acc x.2.pte.toNat || unstageable h w acc x.2.pte.toNat with
      | some x => .error (permFault acc x.1)
      | none =>
        match es.find? fun x => acc != .fetch && !apertureOk (h.part w.part).stkap w x.1.toNat with
        | some x => .error (permFault acc x.1)
        | none =>
          let xs := es.map fun x => (x.1, accessKey h s.mod.modid.toNat w x.2 x.1.toNat, x.2)
          if acc.writes && (xs.any fun x => stagedByOther h w x.2.1) then .error (.wait .staging)
          else if acc.writes && !(unstaged h w xs).isEmpty then .error (.stage (unstaged h w xs))
          else .ok xs

/-- Set REF, and D on a write, in an entry of the table (R279): an atomic OR on its lowest byte. -/
def setRefD (m : Memory) (acc : Acc) (addr : Nat) : Memory :=
  sset m (devKey addr) (sget m (devKey addr) ||| (if acc.writes then 0x60#8 else 0x40#8))

/-- A translation enters a TLB of at most `n` entries (R280); what it displaces beyond that is a DESIGN CHOICE, the oldest one
(notes/assumptions/14.md). -/
def tlbAdd (n : Nat) (tlb : List TlbEntry) (e : TlbEntry) : List TlbEntry :=
  if tlb.any fun c => c.same e then tlb else (e :: tlb).take n

/-- A translation enters the 64-entry TLB of a picker. -/
def utlbAdd (p : Nat) (utlb : List (Nat × TlbEntry)) (e : TlbEntry) : List (Nat × TlbEntry) :=
  if utlb.any fun c => c.1 == p && c.2.same e then utlb
  else
    let mine := utlb.filter fun c => c.1 == p
    ((p, e) :: mine.take 63) ++ utlb.filter fun c => c.1 != p

/-- The translations of an access enter the TLBs on its way (R280). -/
def cacheXlat (h : Hw) (w : Who) (es : List TlbEntry) : Hw :=
  let p := h.part w.part
  let h := h.setPart { p with tlb := es.foldl (tlbAdd (2 ^ 20)) p.tlb }
  match w.key with
  | none => h
  | some k =>
    let c := h.ctx k.part k.core
    h.setCtx { c with
      tlb := es.foldl (tlbAdd 4096) c.tlb
      utlb := match w.picker with
        | some p => es.foldl (utlbAdd p) c.utlb
        | none => c.utlb }

/-- The cached translations of a partition that meet a range of addresses are dropped, in every TLB. -/
def dropXlat (h : Hw) (part va size : Nat) : Hw :=
  let keep (e : TlbEntry) : Bool := !(decide (e.va < va + size) && decide (va < e.va + e.size))
  let p := h.part part
  let h := h.setPart { p with tlb := p.tlb.filter keep }
  { h with ctxs := h.ctxs.map fun c =>
      if c.part == part then { c with tlb := c.tlb.filter keep, utlb := c.utlb.filter fun x => keep x.2 } else c }

/-- What translating an access leaves behind: REF and D in the entries, cached translations (R280), the free-choice counter. -/
def touch (h : Hw) (w : Who) (acc : Acc) (xs : Xlated) : Hw :=
  let es := nub (xs.map fun x => x.2.2)
  let mem := (nub (es.map fun e => e.pteAddr)).foldl (fun m a => setRefD m acc a) h.mem
  { cacheXlat h w es with mem := mem, fresh := h.fresh + 1 }

/-! ### Errors met by reads (R370, R371) -/

/-- A byte of device memory whose granule is poisoned or holds a double-bit error that is found when it is read (R371). -/
def keyPoisoned (h : Hw) (k : Nat) : Bool :=
  keyIsDevice k && ((h.poison.any fun p => p.granule == granuleOf k) || h.latent.any fun l => l.double && l.granule == granuleOf k)

/-- The class of R370 of the error that poisons a byte. -/
def poisonClass (h : Hw) (k : Nat) : Nat :=
  ((h.poison.find? fun p => p.granule == granuleOf k).map fun p => p.cls).getD 5

/-- The first poisoned byte among keys. -/
def poisonOf (h : Hw) (ks : List Nat) : Option Nat := ks.find? fun k => keyPoisoned h k

/-- Reading granules finds their latent errors: a double-bit one poisons its granule (R370, R371). -/
def noteGranules (h : Hw) (p : Nat → Bool) : Hw :=
  let hit := h.latent.filter fun l => p l.granule
  if hit.isEmpty then h
  else { h with
    latent := h.latent.filter fun l => !hit.contains l
    found := h.found ++ hit
    poison := ((hit.filter fun l => l.double).map fun l => ⟨l.granule, 5⟩) ++ h.poison }

/-- Reading bytes finds the latent errors of their granules. -/
def noteReads (h : Hw) (ks : List Nat) : Hw := noteGranules h fun g => ks.any fun k => keyIsDevice k && granuleOf k == g

/-- The bytes of a granule are all among keys. -/
def wholeGranule (ks : List Nat) (g : Nat) : Bool := (List.range 32).all fun i => ks.contains (32 * g + i)

/-- A write clears the poison of every granule that it covers whole (R371). -/
def clearPoison (h : Hw) (ks : List Nat) : Hw :=
  { h with
    poison := h.poison.filter fun p => !wholeGranule ks p.granule
    latent := h.latent.filter fun l => !wholeGranule ks l.granule }

/-- A write made in several steps has now written the byte at a key: where the bytes it has written cover the granule of that byte, they clear
its poison (R371). -/
def clearCovered (h : Hw) (ks : List Nat) (k : Nat) : Hw := clearPoison h (ks.filter fun x => granuleOf x == granuleOf k)

/-! ### Caches (R269 to R271) -/

/-- A byte through a cache: what it would read without the cache, or a stale copy of a cached line by a free choice. -/
def cacheByte (c : Cache) (now : Byte) (choice : Bool) (k : Nat) : Byte :=
  match c.stale.find? fun x => x.1 == k with
  | some x => if c.lines.contains (lineOf k) && choice then x.2 else now
  | none => now

/-- A line enters a cache of `cap` lines; a refill makes every byte of the line current. Which line a full cache gives up is a DESIGN
CHOICE, the oldest one (notes/assumptions/12.md). -/
def Cache.fill (c : Cache) (cap : Nat) (refill : Bool) (k : Nat) : Cache :=
  let line := lineOf k
  if c.lines.contains line then
    if c.stale.isEmpty || !refill then c else { c with stale := c.stale.filter fun x => lineOf x.1 != line }
  else
    let lines := (line :: c.lines).take cap
    ⟨lines, c.stale.filter fun x => lines.contains (lineOf x.1) && lineOf x.1 != line⟩

/-- A line enters a cache, with every byte current, unless it is there already. -/
def Cache.take (c : Cache) (cap : Nat) (k : Nat) : Cache := if c.lines.contains (lineOf k) then c else c.fill cap true k

/-- A byte of a cached line is about to change at its home: the cache keeps the value it has shown. -/
def Cache.staleAt (c : Cache) (old : Byte) (k : Nat) : Cache :=
  if c.lines.contains (lineOf k) && (c.stale.find? fun x => x.1 == k).isNone then { c with stale := (k, old) :: c.stale } else c

/-- A byte of a cached line is current again. -/
def Cache.freshAt (c : Cache) (k : Nat) : Cache := { c with stale := c.stale.filter fun x => x.1 != k }

/-- The key of a code byte in the instruction cache: its lines are tagged by code version (R271). -/
def codeKey (ver k : Nat) : Nat := ver * 2 ^ 80 + k

/-- A byte that the instruction cache holds in some version is about to change at its home. -/
def Cache.staleCode (c : Cache) (old : Byte) (k : Nat) : Cache :=
  (c.lines.filter fun l => l % 2 ^ 73 == lineOf k).foldl (fun c l => c.staleAt old (l * 128 + k % 128)) c

/-! ### Stores on their way home (R294, R299) -/

/-- The newest value of a byte among the stores that a core can see and that have not reached their homes. -/
def Ctx.outByte (c : Ctx) (k : Nat) : Option Byte :=
  c.outq.reverse.findSome? fun o => (o.bytes.find? fun x => x.1 == k).map Prod.snd

/-- The value of a byte as the threads of a core see it, caches apart. -/
def Ctx.view (c : Ctx) (m : Memory) (k : Nat) : Byte := (c.outByte k).getD (sget m k)

/-- The stores of a core that bytes read at keys come from. -/
def Ctx.outFrom (c : Ctx) (ks : List Nat) : List Nat :=
  nub (ks.filterMap fun k => (c.outq.reverse.find? fun o => o.bytes.any fun x => x.1 == k).map fun o => o.id)

/-- A store that is home holds some of these bytes. -/
def LateWrite.touches (w : LateWrite) (ks : List Nat) : Bool := w.old.any fun x => ks.contains x.1

/-- A thread may still read what stood there before the store (R298): neither the thread that issued it nor one that it has been ordered for. -/
def LateWrite.hides (w : LateWrite) (k : Key) : Bool := !(w.key == k) && !w.shown.contains k

/-- What a thread may still read at a byte of which a later store is home (R298). -/
def Ctx.lateByte (c : Ctx) (by_ : Key) (k : Nat) : Option Byte :=
  c.late.findSome? fun w => if w.hides by_ then (w.old.find? fun x => x.1 == k).map Prod.snd else none

/-- Every thread of a core reads the stores that `p` selects from now on. -/
def Ctx.endLate (c : Ctx) (p : LateWrite → Bool) : Ctx := { c with late := c.late.filter fun w => !p w }

/-- The caches of a core as a byte changes at its home: the core's own write updates its L1 line (R269), and no write updates a constant
or instruction cache (R271). Over the core's own write no thread of it reads what an earlier store had replaced. -/
def Ctx.afterWrite (c : Ctx) (own : Bool) (m : Memory) (k : Nat) : Ctx :=
  let old := c.view m k
  { c with
    late := if own then (c.endLate fun w => w.touches [k]).late else c.late
    l1 := if own then c.l1.freshAt k else c.l1.staleAt old k
    con := c.con.staleAt old k
    icache := c.icache.staleCode old k }

/-- Write one byte at its home. -/
def writeKey (h : Hw) (own : Option (Nat × Nat)) (k : Nat) (b : Byte) : Hw :=
  { h with ctxs := h.ctxs.map fun c => c.afterWrite (own == some (c.part, c.core)) h.mem k, mem := sset h.mem k b }

/-- Write bytes at their homes, in order. -/
def writeKeys (h : Hw) (own : Option (Nat × Nat)) (xs : List (Nat × Byte)) : Hw :=
  clearPoison (xs.foldl (fun h x => writeKey h own x.1 x.2) h) (xs.map Prod.fst)

/-- Two lists of bytes share one. -/
def sharesKey (xs ys : List (Nat × Byte)) : Bool := xs.any fun x => ys.any fun y => x.1 == y.1

/-- An earlier store and a later one of the same gang as one: a byte of both has the value of the later one. -/
def OutWrite.join (p o : OutWrite) : OutWrite :=
  { o with
    bytes := (p.bytes.filter fun x => !sharesKey [x] o.bytes) ++ o.bytes
    sees := nub (p.sees ++ o.sees)
    pages := nub (p.pages ++ o.pages) }

/-- A store becomes visible on its core (R299); the stores of other threads of the same gang that share a byte with it join it, so that no
other write comes between them (R294). They have become visible in the same step (R174), so nothing has read them under their own numbers. -/
def Ctx.show (c : Ctx) (m : Memory) (o : OutWrite) : Ctx :=
  let c1 := (o.bytes.map Prod.fst).foldl (fun c k => c.afterWrite true m k) c
  let (mates, rest) := c.outq.partition fun p => p.gang == o.gang && sharesKey p.bytes o.bytes
  { c1 with outq := rest ++ [mates.foldr OutWrite.join o] }

/-- The stores that reach home when those of `ids` do: with them, the earlier ones to the same bytes and those they follow (R297). -/
def outClosure (ids : List Nat) (q : List OutWrite) : List OutWrite :=
  q.foldr (fun o later =>
    if ids.contains o.id || later.any fun l => l.sees.contains o.id || sharesKey o.bytes l.bytes then o :: later else later) []

/-- Stores of a core reach their homes, in order, with those that come before them. -/
def drainOut (h : Hw) (part core : Nat) (ids : List Nat) : Hw :=
  let c := h.ctx part core
  if c.outq.isEmpty then h
  else
    let go := outClosure ids c.outq
    let h := go.foldl (fun h o => writeKeys h (some (part, core)) o.bytes) h
    h.setCtx { h.ctx part core with outq := c.outq.filter fun o => !go.contains o }

/-- Every store that a core can see reaches its home. -/
def drainOutAll (h : Hw) (part core : Nat) : Hw := drainOut h part core ((h.ctx part core).outq.map fun o => o.id)

/-- The stores of a core to some of these bytes reach their homes. -/
def drainOutKeys (h : Hw) (part core : Nat) (ks : List Nat) : Hw :=
  drainOut h part core
    (((h.ctx part core).outq.filter fun o => o.bytes.any fun x => ks.contains x.1).map fun o => o.id)

/-! ### Write-combining buffers (R283) -/

/-- What a thread has stored to a key and the write-combining buffers of its core hold. -/
def wcFound (c : Ctx) (by_ : Key) (k : Nat) : Option WcByte :=
  (c.wc.find? fun l => l.line == lineOf k).bind fun l => l.bytes.reverse.find? fun x => x.key == k && x.issuer == by_

/-- The byte of the write-combining buffers of a core that a thread has stored to a key. -/
def wcByte (c : Ctx) (by_ : Key) (k : Nat) : Option Byte := (wcFound c by_ k).map fun x => x.byte

/-- The stores of a thread that bytes it reads from the write-combining buffers come from. -/
def wcFrom (c : Ctx) (by_ : Key) (ks : List Nat) : List Nat := nub (ks.filterMap fun k => (wcFound c by_ k).map fun x => x.id)

/-- Store number `id` to a write-combining page goes into the core's one buffer of its line; the thread's own earlier byte there is gone.
A buffer that is filled anew has drained after `left` moves at the latest. -/
def wcStore (c : Ctx) (by_ : Key) (id left : Nat) (pages : List (Nat × Nat)) (k : Nat) (b : Byte) : Ctx :=
  let put (l : WcLine) : WcLine :=
    { l with bytes := (l.bytes.filter fun x => !(x.key == k && x.issuer == by_)) ++ [⟨k, b, by_, id⟩], pages := nub (l.pages ++ pages) }
  if c.wc.any fun l => l.line == lineOf k then { c with wc := c.wc.map fun l => if l.line == lineOf k then put l else l }
  else { c with wc := c.wc ++ [put ⟨lineOf k, [], [], left⟩] }

/-- Drain the buffers of a core that `p` selects. -/
def wcDrain (h : Hw) (part core : Nat) (p : WcLine → Bool) : Hw :=
  let c := h.ctx part core
  let (out, keep) := c.wc.partition p
  let h' := writeKeys h (some (part, core)) (out.flatMap fun l => l.bytes.map fun x => (x.key, x.byte))
  h'.setCtx { h'.ctx part core with wc := keep }

/-- A thread has stored to a buffer. -/
def WcLine.holds (l : WcLine) (k : Key) : Bool := l.bytes.any fun x => x.issuer == k

/-- A buffer is full: every byte of its line is stored. -/
def WcLine.isFull (l : WcLine) : Bool := (List.range 128).all fun i => l.bytes.any fun x => x.key == 128 * l.line + i

/-- Every full buffer of a core drains. -/
def wcDrainFull (h : Hw) (part core : Nat) : Hw := wcDrain h part core WcLine.isFull

/-- The write-combining buffers that hold some of the stores of `ids` drain. -/
def wcDrainSeen (h : Hw) (part core : Nat) (ids : List Nat) : Hw :=
  if ids.isEmpty then h else wcDrain h part core fun l => l.bytes.any fun x => ids.contains x.id

/-- The stores that a thread has read from reach their homes, whether they are visible on its core or in its write-combining buffers (R297,
dep). -/
def drainSeen (h : Hw) (part core : Nat) (ids : List Nat) : Hw :=
  wcDrainSeen (drainOut h part core ids) part core ids

/-- Stores of a core are on their way home, in its write-combining buffers, or home but not yet read by all of its threads. -/
def Ctx.storesUnderWay (c : Ctx) : Bool := !(c.outq.isEmpty && c.wc.isEmpty && c.late.isEmpty)

/-- A move has passed: the stores and the write-combining buffers of a core whose time is up reach their homes (R283, R306), with those that
come before them, and those at home whose time is up are read by every thread. -/
def drainDue (h : Hw) (part core : Nat) : Hw :=
  let c := h.ctx part core
  if !c.storesUnderWay then h
  else
    let h := h.setCtx { c with
      outq := c.outq.map fun o => { o with left := o.left - 1 }, wc := c.wc.map fun l => { l with left := l.left - 1 }
      late := (c.late.filter fun w => decide (1 < w.left)).map fun w => { w with left := w.left - 1 } }
    drainOut (wcDrain h part core fun l => l.left == 0) part core ((c.outq.filter fun o => o.left ≤ 1).map fun o => o.id)

/-! ### Reading and storing -/

/-- The lines of the L1, the constant cache and the instruction cache of a core (R266). -/
def l1Lines : Nat := 2048
def conLines : Nat := 512
def codeLines : Nat := 1024

/-- The bytes a thread reads at keys, by its route; past the caches it reads its own buffered bytes (R283). A free choice reads what is out of
date: in a cache, or where a store of the core is home before the thread reads it (R298). -/
def readRoute (h : Hw) (k : Key) (r : Route) (ks : List Nat) : List Byte :=
  let c := h.ctx k.part k.core
  let choice := Config.freeBool h.fresh
  ks.map fun key => match r with
    | .l1 => ((c.lateByte k key).filter fun _ => choice).getD (cacheByte c.l1 (c.view h.mem key) choice key)
    | .con => cacheByte c.con (c.view h.mem key) choice key
    | _ => (wcByte c k key).getD (sget h.mem key)

/-- What reading leaves in the caches; a store that the thread has read is read by every thread of its core from now on. -/
def fillRoute (h : Hw) (k : Key) (r : Route) (ks : List Nat) : Hw :=
  let refill := !Config.freeBool h.fresh
  let c := (h.ctx k.part k.core).endLate fun w => w.touches ks && !(r == .l1 && !refill && w.hides k)
  let h := match r with
    | .l1 => h.setCtx { c with l1 := ks.foldl (fun x key => x.fill l1Lines refill key) c.l1 }
    | .con => h.setCtx { c with con := ks.foldl (fun x key => x.fill conLines refill key) c.con }
    | _ => h.setCtx c
  { noteReads h ks with fresh := h.fresh + 1 }

/-- A store to a normal page reaches its home at once, while other threads of its core may still read what stood there (R298). -/
def storeHome (h : Hw) (k : Key) (sees : List Nat) (xs : List (Nat × Byte)) : Hw :=
  let h := drainOutKeys (drainSeen h k.part k.core sees) k.part k.core (xs.map Prod.fst)
  let old := xs.map fun x => (x.1, sget h.mem x.1)
  let h := writeKeys h (some (k.part, k.core)) xs
  let c := h.ctx k.part k.core
  h.setCtx { c with late := c.late ++ [⟨k, old, [], Config.freeNat h.fresh⟩] }

/-- Bytes stored by a thread, each with the memory type of its page: on normal pages to where the core sees them or, where `home` says so, home
before all of it does; into the write-combining buffer on type 1; and home on types 2 and 3 (R283, R294, R298). -/
def landStore (h : Hw) (k : Key) (gang id : Nat) (sees : List Nat) (pages : List (Nat × Nat)) (home : Bool) (xs : List (Nat × Byte × Nat)) :
    Hw :=
  let of (p : Nat → Bool) : List (Nat × Byte) := (xs.filter fun x => p x.2.2).map fun x => (x.1, x.2.1)
  let normal := of fun t => t == 0
  let wc := of fun t => t == 1
  let device := of fun t => decide (2 ≤ t)
  let h := if normal.isEmpty then h
    else if home then storeHome h k sees normal
    else
      let h := wcDrainSeen h k.part k.core sees
      h.setCtx ((h.ctx k.part k.core).show h.mem ⟨id, gang, normal, sees, pages, Config.freeNat h.fresh⟩)
  let h := if wc.isEmpty && device.isEmpty then h else drainSeen h k.part k.core sees
  let h := if wc.isEmpty then h
    else h.setCtx (wc.foldl (fun c x => wcStore c k id (Config.freeNat h.fresh) pages x.1 x.2) (h.ctx k.part k.core))
  if device.isEmpty then h
  else writeKeys (drainOutKeys h k.part k.core (device.map Prod.fst)) (some (k.part, k.core)) device

/-- A read cache of a core takes in a line that no thread has asked for: so a read that depends on another one may still return a value from
before it (R299). -/
def prefetch (h : Hw) (part core : Nat) (con : Bool) (k : Nat) : Hw :=
  let c := h.ctx part core
  h.setCtx (if con then { c with con := c.con.take conLines k } else { c with l1 := c.l1.take l1Lines k })

/-- Discard every L1 line of a core (R270): its threads read every store that is home. -/
def dropL1 (h : Hw) (part core : Nat) : Hw := h.setCtx { h.ctx part core with l1 := .empty, late := [] }

/-- Discard the L1 lines of a core that hold some of these keys (R181, R300). -/
def dropL1Lines (h : Hw) (part core : Nat) (ks : List Nat) : Hw :=
  let gone (line : Nat) : Bool := ks.any fun k => lineOf k == line
  let c := (h.ctx part core).endLate fun w => w.old.any fun x => gone (lineOf x.1)
  h.setCtx { c with l1 := ⟨c.l1.lines.filter fun l => !gone l, c.l1.stale.filter fun x => !gone (lineOf x.1)⟩ }

/-- Discard every constant-cache line of a core (R271). -/
def dropCon (h : Hw) (part core : Nat) : Hw := h.setCtx { h.ctx part core with con := .empty }

/-! ### Reads ahead (R298, R299) -/

/-- The path of a route (R293): generic, constant, scratchpad. -/
def Route.path : Route → Nat
  | .l1 | .uncached => 0
  | .con | .conUncached => 1
  | .scratch => 2

/-- What threads have read ahead no longer counts where `p` says so. -/
def Ctx.dropAhead (c : Ctx) (p : Ahead → Bool) : Ctx := { c with ahead := c.ahead.filter fun a => !p a }

/-- What a thread has read ahead on the paths of `p` no longer counts: an edge leads to its later reads there (R297). -/
def forgetAhead (h : Hw) (k : Key) (p : Nat → Bool) : Hw :=
  h.setCtx ((h.ctx k.part k.core).dropAhead fun a => a.key == k && p a.route.path)

/-- A thread accesses bytes on a path: what it has read ahead of them there no longer counts (R175). -/
def accessAhead (h : Hw) (k : Key) (r : Route) (ls : List Loc) : Hw :=
  h.setCtx ((h.ctx k.part k.core).dropAhead fun a =>
    a.key == k && a.route.path == r.path && a.bytes.any fun x => ls.contains x.1)

/-- What a thread has read ahead, in the same way, of all these bytes. -/
def Ctx.aheadOf (c : Ctx) (k : Key) (r : Route) (ls : List Loc) : Option (List Byte × List Nat) :=
  match c.ahead.find? fun a => a.key == k && a.route == r && ls.all fun l => a.bytes.any fun x => x.1 == l with
  | some a => some (ls.map fun l => ((a.bytes.find? fun x => x.1 == l).map Prod.snd).getD 0, a.sees)
  | none => none

/-! ### Regions of a launch on a core -/

/-- The regions of a launch on a core; none when it has none there. -/
def Ctx.region (c : Ctx) (launch : Nat) : Region := (c.regions.find? fun r => r.launch == launch).getD ⟨launch, [], [], [], []⟩

def Ctx.setRegion (c : Ctx) (r : Region) : Ctx :=
  { c with regions := c.regions.map fun q => if q.launch == r.launch then r else q }

/-- The scratchpad bytes at offsets, and their replacement. -/
def Region.writeScr (r : Region) (xs : List (Nat × Byte)) : Region :=
  { r with scr := xs.foldl (fun m x => sset m x.1 x.2) r.scr }

/-- A scratchpad line that holds one of the offsets is absent (R272). -/
def Region.absentAt (r : Region) (offs : List Nat) : Bool := offs.any fun o => r.absent.contains (lineOf o)

end Sys2Proof.Machine
end

