-- ==== Sys2Proof/Machine/Reals.lean ====
section
/-!
DEFINITION. Sys2Proof/Machine/Reals.lean: exact results as dyadic numbers, the rounding of R64 with its overflow rule R66, and the
exact operations behind the float and ZXF instructions.
-/
namespace Sys2Proof.Machine

/-- The rounding modes of R42 and R44, by their codes. -/
inductive RMode where
  | rne | rtz | rup | rdn | rna | rodd
deriving DecidableEq, Repr, Inhabited

/-- The mode of a code 0..5 (R42, R44). -/
def RMode.ofCode (c : Nat) : RMode :=
  match c with
  | 0 => .rne
  | 1 => .rtz
  | 2 => .rup
  | 3 => .rdn
  | 4 => .rna
  | _ => .rodd

/-- A float value. A NaN has its sign, its fraction of `fw` bits with the quiet bit on top, and that bit apart. A finite value is
(−1)^neg × m × 2^e, or, with `more`, lies strictly between that and the next integer m. Zero has m = 0. -/
inductive FVal where
  | nan (neg : Bool) (quiet : Bool) (frac fw : Nat)
  | inf (neg : Bool)
  | fin (neg : Bool) (m : Nat) (e : Int) (more : Bool)
deriving DecidableEq, Repr, Inhabited

/-- The flags of R67. -/
structure Flags where
  nv : Bool := false
  dz : Bool := false
  of : Bool := false
  uf : Bool := false
  nx : Bool := false
deriving DecidableEq, Repr, Inhabited

/-- No flag. -/
def Flags.none : Flags := {}

/-- The flags of two operations together. -/
def Flags.or (a b : Flags) : Flags :=
  ⟨a.nv || b.nv, a.dz || b.dz, a.of || b.of, a.uf || b.uf, a.nx || b.nx⟩

/-- The invalid flag alone. -/
def Flags.invalid : Flags := { nv := true }

/-- The default NaN (R69). -/
def FVal.dflt : FVal := .nan false true 1 1

/-- A zero of the given sign. -/
def FVal.zero (neg : Bool) : FVal := .fin neg 0 0 false

def FVal.isNan : FVal → Bool
  | .nan _ _ _ _ => true
  | _ => false

/-- A signalling NaN. -/
def FVal.isSnan : FVal → Bool
  | .nan _ q _ _ => !q
  | _ => false

def FVal.isInf : FVal → Bool
  | .inf _ => true
  | _ => false

def FVal.isZero : FVal → Bool
  | .fin _ m _ more => m == 0 && !more
  | _ => false

def FVal.neg : FVal → Bool
  | .nan n _ _ _ => n
  | .inf n => n
  | .fin n _ _ _ => n

/-- The value with its sign changed. -/
def FVal.negate : FVal → FVal
  | .nan n q f w => .nan (!n) q f w
  | .inf n => .inf (!n)
  | .fin n m e s => .fin (!n) m e s

/-- The NaN with its quiet bit set (R69). -/
def FVal.quieten : FVal → FVal
  | .nan n q f w => if q then .nan n true f w else .nan n true (f + 2 ^ (w - 1)) w
  | v => v

/-- The exponent of the leading bit of a nonzero finite value. -/
def FVal.expo : FVal → Int
  | .fin _ m e _ => e + (Nat.log2 m : Int)
  | _ => 0

/-- The result of R64: magnitude n × 2^q, whether it differs from the exact value, and whether the exact value was below
2^emin. -/
structure Rounded where
  n : Nat
  q : Int
  inexact : Bool
  tiny : Bool
deriving DecidableEq, Repr, Inhabited

/-- The integer that R64 takes: `lo` below, `f` the fraction compared with one half (0 none, 1 below, 2 equal, 3 above). -/
def roundUp (rm : RMode) (neg : Bool) (lo f : Nat) : Bool :=
  f != 0 && match rm with
    | .rne => f == 3 || (f == 2 && lo % 2 == 1)
    | .rna => 2 ≤ f
    | .rup => !neg
    | .rdn => neg
    | .rodd => lo % 2 == 0
    | .rtz => false

/-- m × 2^e cut at the bit of weight 2^q: the integer below and the fraction's code of `roundUp`. -/
def cutAt (m : Nat) (e q : Int) (more : Bool) : Nat × Nat :=
  if q ≤ e then (m * 2 ^ (e - q).toNat, if more then 1 else 0)
  else
    let d := min (q - e).toNat (Nat.log2 m + 2)
    let lo := m / 2 ^ d
    let rem := m % 2 ^ d
    let half := 2 ^ (d - 1)
    let f := if rem == 0 && !more then 0 else if rem < half then 1 else if rem == half && !more then 2 else 3
    (lo, f)

/-- round_p of R64 for a nonzero value of magnitude m × 2^e. -/
def roundP (neg : Bool) (m : Nat) (e : Int) (more : Bool) (p : Nat) (emin : Int) (rm : RMode) : Rounded :=
  let ex := e + (Nat.log2 m : Int)
  let q := max ex emin - p + 1
  let (lo, f) := cutAt m e q more
  let n := if roundUp rm neg lo f then lo + 1 else lo
  ⟨n, q, f != 0, ex < emin⟩

/-- The largest finite value is exceeded: n × 2^q > mm × 2^me. -/
def exceeds (n : Nat) (q : Int) (mm : Nat) (me : Int) : Bool :=
  if n == 0 then false
  else
    let a := q + (Nat.log2 n : Int)
    let b := me + (Nat.log2 mm : Int)
    if a != b then b < a
    else if q ≤ me then mm * 2 ^ (me - q).toNat < n else mm < n * 2 ^ (q - me).toNat

/-- Overflow goes to an infinity (R66), rather than to the largest finite value. -/
def overflowToInf (rm : RMode) (neg : Bool) : Bool :=
  match rm with
  | .rne | .rna => true
  | .rtz | .rodd => false
  | .rup => !neg
  | .rdn => neg

/-- Sum of two finite values with exact bits; the sign of an exact zero by R65. -/
def addFin (rm : RMode) (n1 : Bool) (m1 : Nat) (e1 : Int) (n2 : Bool) (m2 : Nat) (e2 : Int) : FVal :=
  let e := if m1 == 0 then e2 else if m2 == 0 then e1 else min e1 e2
  let a := if m1 == 0 then 0 else m1 * 2 ^ (e1 - e).toNat
  let b := if m2 == 0 then 0 else m2 * 2 ^ (e2 - e).toNat
  if n1 == n2 then .fin n1 (a + b) e false
  else if a == b then .fin (rm == .rdn) 0 0 false
  else if b < a then .fin n1 (a - b) e false
  else .fin n2 (b - a) e false

/-- Exact sum (R198, R217); `none` for an invalid operation. Both operands are numbers. -/
def addVal (rm : RMode) (a b : FVal) : Option FVal :=
  match a, b with
  | .inf x, .inf y => if x == y then some (.inf x) else none
  | .inf x, _ => some (.inf x)
  | _, .inf y => some (.inf y)
  | .fin n1 m1 e1 _, .fin n2 m2 e2 _ => some (addFin rm n1 m1 e1 n2 m2 e2)
  | _, _ => none

/-- Exact product; `none` for 0 × inf. -/
def mulVal (a b : FVal) : Option FVal :=
  match a, b with
  | .inf x, .inf y => some (.inf (x != y))
  | .inf x, .fin y m _ _ => if m == 0 then none else some (.inf (x != y))
  | .fin x m _ _, .inf y => if m == 0 then none else some (.inf (x != y))
  | .fin x m1 e1 _, .fin y m2 e2 _ => some (.fin (x != y) (m1 * m2) (e1 + e2) false)
  | _, _ => none

/-- How many bits a quotient, a root or a special function carries before its rounding: more than any precision plus two. -/
def guardBits : Nat := 320

/-- Quotient (R198, R217): `none` for 0/0 and inf/inf; the flag tells a finite nonzero value divided by zero. -/
def divVal (a b : FVal) : Option (FVal × Bool) :=
  match a, b with
  | .inf _, .inf _ => none
  | .inf x, .fin y _ _ _ => some (.inf (x != y), false)
  | .fin x _ _ _, .inf y => some (.zero (x != y), false)
  | .fin x m1 e1 _, .fin y m2 e2 _ =>
    if m2 == 0 then (if m1 == 0 then none else some (.inf (x != y), true))
    else if m1 == 0 then some (.zero (x != y), false)
    else
      let k := guardBits + Nat.log2 m2
      let num := m1 * 2 ^ k
      some (.fin (x != y) (num / m2) (e1 - e2 - k) (num % m2 != 0), false)
  | _, _ => none

/-- The integer square root, one bit at a time from bit `i` − 1 down. -/
def isqrtBits : Nat → Nat → Nat → Nat
  | 0, _, r => r
  | i + 1, v, r =>
    let t := r + 2 ^ i
    isqrtBits i v (if t * t ≤ v then t else r)

/-- The integer square root. -/
def isqrt (v : Nat) : Nat := isqrtBits (Nat.log2 v / 2 + 1) v 0

/-- Square root of a nonnegative number (R200, R217); `none` below −0. -/
def sqrtVal (a : FVal) : Option FVal :=
  match a with
  | .inf false => some (.inf false)
  | .inf true => none
  | .fin n m e _ =>
    if m == 0 then some (.zero n)
    else if n then none
    else
      let k0 := 2 * guardBits
      let k := if (e - k0) % 2 == 0 then k0 else k0 + 1
      let v := m * 2 ^ k
      let r := isqrt v
      some (.fin false r ((e - k) / 2) (r * r != v))
  | _ => none

/-- a × b + c exactly (R198): the product first, then the sum. -/
def fmaVal (rm : RMode) (a b c : FVal) : Option FVal := do
  let ab ← mulVal a b
  match ab, c with
  | .fin n1 m1 e1 _, .fin n2 m2 e2 _ => some (addFin rm n1 m1 e1 n2 m2 e2)
  | x, y => addVal rm x y

/-- Value order with −0 below +0 (R199): a strictly below b. Both are numbers. -/
def ltTotal (a b : FVal) : Bool :=
  match a, b with
  | .inf x, .inf y => x && !y
  | .inf x, _ => x
  | _, .inf y => !y
  | .fin n1 m1 e1 _, .fin n2 m2 e2 _ =>
    if m1 == 0 && m2 == 0 then n1 && !n2
    else match addFin .rne n1 m1 e1 (!n2) m2 e2 with
      | .fin n m _ _ => n && m != 0
      | _ => false
  | _, _ => false

/-- Numeric equality, −0 equal to +0 (R202). -/
def eqVal (a b : FVal) : Bool :=
  match a, b with
  | .inf x, .inf y => x == y
  | .fin n1 m1 e1 _, .fin n2 m2 e2 _ =>
    if m1 == 0 && m2 == 0 then true
    else match addFin .rne n1 m1 e1 (!n2) m2 e2 with
      | .fin _ m _ _ => m == 0
      | _ => false
  | _, _ => false

/-- Numeric order, −0 equal to +0 (R202). -/
def ltVal (a b : FVal) : Bool := ltTotal a b && !eqVal a b

/-- A value rounded to an integer by R64 with a quantum of 1 (R205, R220): the signed integer, and whether it differs. -/
def toIntVal (rm : RMode) (neg : Bool) (m : Nat) (e : Int) (more : Bool) : Int × Bool :=
  if m == 0 && !more then (0, false)
  else
    let (lo, f) := cutAt m e 0 more
    let n := if roundUp rm neg lo f then lo + 1 else lo
    (if neg then -(n : Int) else n, f != 0)

/-- The fraction bits of 2^y for y = f / 2^w, as r / 2^W with W = 512: a product of the factors 2^(2^−i), each from below. -/
def exp2Frac : Nat → Nat → Nat → Nat → Nat → Nat
  | 0, _, _, _, acc => acc
  | n + 1, f, w, root, acc =>
    let root' := isqrt (root * 2 ^ 512)
    let w' := w - 1
    if w == 0 then acc
    else if 2 ^ w' ≤ f then exp2Frac n (f - 2 ^ w') w' root' (acc * root' / 2 ^ 512)
    else exp2Frac n f w' root' acc

/-- 2^x for a finite nonzero x that is no integer (R81): a value from below, never exact. A magnitude below 2^−200 gives a value
just above or just below 1. -/
def exp2Val (neg : Bool) (m : Nat) (e : Int) : FVal :=
  if e + (Nat.log2 m : Int) < -200 then
    (if neg then .fin false (2 ^ guardBits - 1) (-(guardBits : Int)) true else .fin false (2 ^ guardBits) (-(guardBits : Int)) true)
  else if 20 < e + (Nat.log2 m : Int) then
    (if neg then .fin false 1 (-(2 ^ 20 : Int)) true else .fin false 1 (2 ^ 20 : Int) true)
  else
    let w := (-e).toNat
    let whole := m / 2 ^ w
    let frac := m % 2 ^ w
    let (n, f) : Int × Nat := if neg then (-(whole : Int) - 1, 2 ^ w - frac) else (whole, frac)
    let r := exp2Frac 300 f w (2 ^ 513) (2 ^ 512)
    .fin false r (n - 512) true

/-- The binary digits of log2 of z / 2^W for 1 ≤ z / 2^W < 2, W = 1,024, by repeated squaring. -/
def log2Digits : Nat → Nat → Nat → Nat
  | 0, _, acc => acc
  | n + 1, z, acc =>
    let z2 := z * z / 2 ^ 1024
    if 2 ^ 1025 ≤ z2 then log2Digits n (z2 / 2) (2 * acc + 1) else log2Digits n z2 (2 * acc)

/-- log2 of a positive finite value (R81): exact for a power of two, else from below in magnitude. -/
def log2Val (m : Nat) (e : Int) : FVal :=
  let l := Nat.log2 m
  let ex := e + (l : Int)
  if m == 2 ^ l then
    (if ex == 0 then .zero false else .fin (ex < 0) ex.natAbs 0 false)
  else
    let z := if l ≤ 1024 then m * 2 ^ (1024 - l) else m / 2 ^ (l - 1024)
    let d := log2Digits guardBits z 0
    let v : Int := ex * 2 ^ guardBits + d
    if v < 0 then .fin true (-v - 1).toNat (-(guardBits : Int)) true else .fin false v.toNat (-(guardBits : Int)) true

/-- 1 / √a of a positive finite value (R81). -/
def rsqrtVal (m : Nat) (e : Int) : FVal :=
  -- 1/√(m 2^e) = √(2^k / m) 2^(−(k + e)/2), with k + e even
  let k0 := 2 * guardBits + Nat.log2 m
  let k := if (e + k0) % 2 == 0 then k0 else k0 + 1
  let num := 2 ^ k
  let v := num / m
  let r := isqrt v
  .fin false r (-((e + k) / 2)) (r * r != v || num % m != 0)

end Sys2Proof.Machine
end

