-- ==== Sys2Proof/Machine/Formats.lean ====
section
/-!
DEFINITION. Sys2Proof/Machine/Formats.lean: the number formats (R57 to R63, R70 to R75), their codes, and conversion into a format
with its flags (R64 to R69).
-/
namespace Sys2Proof.Machine

/-- What a float format holds besides numbers (R60). -/
inductive Specials where
  | ieee      -- infinities and NaNs
  | nanOnly   -- E4M3: one NaN code of each sign
  | none      -- E3M2, E2M3, E2M1
deriving DecidableEq, Repr, Inhabited

/-- A fixed float format (R60). -/
structure FFmt where
  width : Nat
  ebits : Nat
  mbits : Nat
  bias : Nat
  specials : Specials
deriving DecidableEq, Repr, Inhabited

def fmtF64 : FFmt := ⟨64, 11, 52, 1023, .ieee⟩
def fmtF32 : FFmt := ⟨32, 8, 23, 127, .ieee⟩
def fmtF16 : FFmt := ⟨16, 5, 10, 15, .ieee⟩
def fmtBf16 : FFmt := ⟨16, 8, 7, 127, .ieee⟩
def fmtE4m3 : FFmt := ⟨8, 4, 3, 7, .nanOnly⟩
def fmtE5m2 : FFmt := ⟨8, 5, 2, 15, .ieee⟩
def fmtE3m2 : FFmt := ⟨6, 3, 2, 3, .none⟩
def fmtE2m3 : FFmt := ⟨6, 2, 3, 1, .none⟩
def fmtE2m1 : FFmt := ⟨4, 2, 1, 1, .none⟩

/-- The precision p of a format. -/
def FFmt.p (f : FFmt) : Nat := f.mbits + 1
/-- The least normal exponent. -/
def FFmt.emin (f : FFmt) : Int := 1 - (f.bias : Int)

/-- The largest finite code, sign clear (R60). -/
def FFmt.maxCode (f : FFmt) : Nat :=
  match f.specials with
  | .ieee => 2 ^ (f.width - 1) - 1 - 2 ^ f.mbits
  | .nanOnly => 2 ^ (f.width - 1) - 2
  | .none => 2 ^ (f.width - 1) - 1

/-- The value of a code of a fixed float format (R60, R61). -/
def FFmt.decode (f : FFmt) (x : Nat) : FVal :=
  let frac := x % 2 ^ f.mbits
  let ex : Nat := x / 2 ^ f.mbits % 2 ^ f.ebits
  let neg := x / 2 ^ (f.width - 1) % 2 == 1
  let allOnes := ex == 2 ^ f.ebits - 1
  if f.specials == .ieee && allOnes then
    (if frac == 0 then .inf neg else .nan neg (2 ^ (f.mbits - 1) ≤ frac) frac f.mbits)
  else if f.specials == .nanOnly && allOnes && frac == 2 ^ f.mbits - 1 then .nan neg true 1 1
  else if ex == 0 then .fin neg frac (f.emin - f.mbits) false
  else .fin neg (2 ^ f.mbits + frac) ((ex : Int) - f.bias - f.mbits) false

/-- The sign bit of a code. -/
def FFmt.signBit (f : FFmt) (neg : Bool) : Nat := if neg then 2 ^ (f.width - 1) else 0

/-- The code of the infinity of an IEEE layout. -/
def FFmt.infCode (f : FFmt) : Nat := (2 ^ f.ebits - 1) * 2 ^ f.mbits

/-- The code of a rounded magnitude n × 2^q that does not exceed the largest finite value. -/
def FFmt.finCode (f : FFmt) (n : Nat) (q : Int) : Nat :=
  if n == 0 then 0
  else
    let ex := q + (Nat.log2 n : Int)
    if ex < f.emin then
      -- subnormal: the quantum is 2^(emin − mbits)
      (if f.emin - f.mbits ≤ q then n * 2 ^ (q - (f.emin - f.mbits)).toNat else n / 2 ^ ((f.emin - f.mbits) - q).toNat)
    else
      let l := Nat.log2 n
      let sig := if l ≤ f.mbits then n * 2 ^ (f.mbits - l) else n / 2 ^ (l - f.mbits)
      (ex + f.bias).toNat * 2 ^ f.mbits + (sig - 2 ^ f.mbits)

/-- The fraction of a NaN at another fraction width, its top bits kept (R69). -/
def nanFrac (frac fw fw' : Nat) : Nat := if fw ≤ fw' then frac * 2 ^ (fw' - fw) else frac / 2 ^ (fw - fw')

/-- The code of a NaN in a format (R69, R67): quiet, top payload bits kept; E4M3 has one NaN of each sign; the formats without
NaNs give +0 with NV. -/
def FFmt.nanCode (f : FFmt) (neg : Bool) (frac fw : Nat) : Nat × Flags :=
  match f.specials with
  | .ieee =>
    let fr := nanFrac frac fw f.mbits
    let q := 2 ^ (f.mbits - 1)
    (f.signBit neg + f.infCode + (if fr < q then fr + q else fr), .none)
  | .nanOnly => (f.signBit neg + (2 ^ (f.width - 1) - 1), .none)
  | .none => (0, .invalid)

/-- The code of an exact infinity in a format (R67). -/
def FFmt.infTo (f : FFmt) (neg : Bool) : Nat × Flags :=
  match f.specials with
  | .ieee => (f.signBit neg + f.infCode, .none)
  | _ => (f.signBit neg + f.maxCode, .invalid)

/-- Overflow (R66): an infinity or the largest finite value, with OF and NX. -/
def FFmt.overflow (f : FFmt) (rm : RMode) (neg : Bool) : Nat × Flags :=
  let fl : Flags := { of := true, nx := true }
  if f.specials == .ieee && overflowToInf rm neg then (f.signBit neg + f.infCode, fl)
  else (f.signBit neg + f.maxCode, fl)

/-- The magnitude n × 2^q exceeds the format's largest finite value. -/
def FFmt.tooBig (f : FFmt) (n : Nat) (q : Int) : Bool :=
  match f.decode f.maxCode with
  | .fin _ m e _ => exceeds n q m e
  | _ => false

/-- An exact result placed into a format: rounded once by R64 with R66, and the flags of R67. -/
def FFmt.place (f : FFmt) (rm : RMode) (v : FVal) : Nat × Flags :=
  match v with
  | .nan neg _ frac fw => f.nanCode neg frac fw
  | .inf neg => f.infTo neg
  | .fin neg m e more =>
    if m == 0 && !more then (f.signBit neg, .none)
    else
      let r := roundP neg m e more f.p f.emin rm
      if f.tooBig r.n r.q then f.overflow rm neg
      else (f.signBit neg + f.finCode r.n r.q, { uf := r.tiny && r.inexact, nx := r.inexact })

/-- A faithful result (R81, R201): the exact one, or the adjacent value that `up` chooses; beyond the range an infinity (or, in a
format without infinities, the largest finite value), with OF and NX. -/
def FFmt.faithful (f : FFmt) (up : Bool) (v : FVal) : Nat × Flags :=
  match v with
  | .fin neg m e more =>
    if m == 0 && !more then (f.signBit neg, .none)
    else
      let lo := roundP neg m e more f.p f.emin .rtz
      let n := if lo.inexact && up then lo.n + 1 else lo.n
      if f.tooBig lo.n lo.q || (lo.inexact && f.tooBig (lo.n + 1) lo.q) then f.overflow .rne neg
      else (f.signBit neg + f.finCode n lo.q, { uf := lo.tiny && lo.inexact, nx := lo.inexact })
  | _ => f.place .rne v

/-- The default NaN code of a format (R69). -/
def FFmt.dflt (f : FFmt) : Nat := (f.place .rne FVal.dflt).1

/-- The format codes of R106: a float format, or an integer of a width and a sign. -/
inductive AnyFmt where
  | flt (f : FFmt)
  | int (width : Nat) (signed : Bool)
deriving DecidableEq, Repr, Inhabited

/-- The format of a code 0x0..0xF (R106). -/
def AnyFmt.ofCode (c : Nat) : AnyFmt :=
  match c with
  | 0x0 => .flt fmtF32
  | 0x1 => .flt fmtF16
  | 0x2 => .flt fmtBf16
  | 0x3 => .flt fmtF64
  | 0x4 => .flt fmtE4m3
  | 0x5 => .flt fmtE5m2
  | 0x6 => .flt fmtE3m2
  | 0x7 => .flt fmtE2m3
  | 0x8 => .flt fmtE2m1
  | 0x9 => .int 8 true
  | 0xA => .int 8 false
  | 0xB => .int 16 true
  | 0xC => .int 16 false
  | 0xD => .int 32 true
  | 0xE => .int 32 false
  | _ => .int 64 true

def AnyFmt.width : AnyFmt → Nat
  | .flt f => f.width
  | .int w _ => w

/-- The signed or unsigned value of a bit pattern. -/
def intOf (w : Nat) (signed : Bool) (x : Nat) : Int :=
  let x := x % 2 ^ w
  if signed && 2 ^ (w - 1) ≤ x then (x : Int) - ((2 ^ w : Nat) : Int) else x

/-- The bit pattern of an integer, modulo 2^w. -/
def patOf (w : Nat) (v : Int) : Nat := (v % ((2 ^ w : Nat) : Int)).toNat

/-- The least and greatest integer of a width and sign. -/
def intRange (w : Nat) (signed : Bool) : Int × Int :=
  if signed then (-((2 ^ (w - 1) : Nat) : Int), ((2 ^ (w - 1) : Nat) : Int) - 1) else (0, ((2 ^ w : Nat) : Int) - 1)

/-- An integer saturated to a range, and whether it was changed. -/
def saturate (w : Nat) (signed : Bool) (v : Int) : Int × Bool :=
  let (lo, hi) := intRange w signed
  if v < lo then (lo, true) else if hi < v then (hi, true) else (v, false)

/-- An integer as a float value. -/
def valOfInt (v : Int) : FVal := .fin (v < 0) v.natAbs 0 false

/-- Float to integer (R205, R221): NaN gives 0 and an infinity the extreme, with NV alone; NX where a finite source is written as
a different value. -/
def floatToInt (w : Nat) (signed : Bool) (rm : RMode) (v : FVal) : Nat × Flags :=
  match v with
  | .nan _ _ _ _ => (0, .invalid)
  | .inf neg => (patOf w (if neg then (intRange w signed).1 else (intRange w signed).2), .invalid)
  | .fin neg m e more =>
    -- a value far beyond every integer width saturates without being written out
    if m != 0 && 200 < e then
      (patOf w (if neg then (intRange w signed).1 else (intRange w signed).2), { nx := true })
    else
      let (i, inexact) := toIntVal rm neg m e more
      let (s, changed) := saturate w signed i
      (patOf w s, { nx := inexact || changed })

/-- Conversion of one element (R205). -/
def convertElem (src dst : AnyFmt) (rm : RMode) (x : Nat) : Nat × Flags :=
  match src, dst with
  | .flt f, .flt g =>
    let v := f.decode x
    if f == g then
      (if v.isSnan then ((f.place rm v.quieten).1, .invalid) else (x % 2 ^ f.width, .none))
    else
      let (c, fl) := g.place rm v
      (c, if v.isSnan then fl.or .invalid else fl)
  | .flt f, .int w s =>
    let v := f.decode x
    floatToInt w s rm v
  | .int w s, .flt g => g.place rm (valOfInt (intOf w s x))
  | .int w s, .int w' s' =>
    let (v, changed) := saturate w' s' (intOf w s x)
    (patOf w' v, { nx := changed })

/-- The image of R70 of a bit pattern. -/
def image (f : AnyFmt) (x : Nat) : Nat :=
  match f with
  | .int w false => x % 2 ^ w
  | .int w true => (x + 2 ^ (w - 1)) % 2 ^ w
  | .flt g => if x / 2 ^ (g.width - 1) % 2 == 0 then x % 2 ^ g.width + 2 ^ (g.width - 1) else 2 ^ g.width - 1 - x % 2 ^ g.width

/-- The pattern is a NaN of its format. -/
def isNanCode (f : AnyFmt) (x : Nat) : Bool :=
  match f with
  | .int _ _ => false
  | .flt g => (g.decode x).isNan

/-- A two-operand float operation's NaN result (R69): the first NaN operand, quieted, and NV for a signalling operand. -/
def firstNan (ops : List FVal) : Option FVal := (ops.find? FVal.isNan).map FVal.quieten

/-- Some operand is a signalling NaN. -/
def anySnan (ops : List FVal) : Bool := ops.any FVal.isSnan

/-- An arithmetic result before rounding, by R69: a NaN operand propagates; an invalid operation gives the default NaN. -/
def arith (ops : List FVal) (r : Option FVal) : FVal × Flags :=
  match firstNan ops with
  | some n => (n, if anySnan ops then .invalid else .none)
  | none => match r with
    | some v => (v, .none)
    | none => (FVal.dflt, .invalid)

/-- FMIN and FMAX on two operands (R199). -/
def minMaxVal (max : Bool) (a b : FVal) : FVal × Flags :=
  let fl := if anySnan [a, b] then Flags.invalid else .none
  if a.isNan && b.isNan then (a.quieten, fl)
  else if a.isNan then (b, fl)
  else if b.isNan then (a, fl)
  else if max then (if ltTotal a b then b else a, fl)
  else (if ltTotal b a then b else a, fl)

/-! ### ZXF (R72 to R75) -/

/-- The current length of precision p (R73). -/
def zxfLength (p : Nat) : Nat := 32 * ((p + 15 + 31) / 32)

/-- The value of a register image of length L (R72). -/
def zxfDecode (l : Nat) (x : Nat) : FVal :=
  let fb := l - 16
  let frac := x % 2 ^ fb
  let ex : Nat := x / 2 ^ fb % 2 ^ 15
  let neg := x / 2 ^ (l - 1) % 2 == 1
  if ex == 0x7FFF then (if frac == 0 then .inf neg else .nan neg (2 ^ (fb - 1) ≤ frac) frac fb)
  else if ex == 0 then .fin neg frac (-16382 - (fb : Int)) false
  else .fin neg (2 ^ fb + frac) ((ex : Int) - 16383 - fb) false

/-- The register image of a value that fits length L (R72). A NaN keeps its quiet bit; one whose kept fraction would be zero keeps
its lowest bit set (R225), and the fraction bits below the precision that the length holds: R215 writes it unrounded, where R73 has those bits
zero (DESIGN CHOICE, notes/assumptions/45.md). -/
def zxfEncode (l : Nat) (v : FVal) : Nat :=
  let fb := l - 16
  let sign (n : Bool) := if n then 2 ^ (l - 1) else 0
  match v with
  | .nan n q frac fw =>
    let fr := nanFrac frac fw fb
    let fr := if q && fr < 2 ^ (fb - 1) then fr + 2 ^ (fb - 1) else fr
    sign n + 0x7FFF * 2 ^ fb + (if fr == 0 then 1 else fr)
  | .inf n => sign n + 0x7FFF * 2 ^ fb
  | .fin n m e _ =>
    if m == 0 then sign n
    else
      let lg := Nat.log2 m
      let ex := e + (lg : Int)
      if ex < -16382 then
        let q : Int := -16382 - (fb : Int)
        sign n + (if q ≤ e then m * 2 ^ (e - q).toNat else m / 2 ^ (q - e).toNat)
      else
        let sig := if lg ≤ fb then m * 2 ^ (fb - lg) else m / 2 ^ (lg - fb)
        sign n + (ex + 16383).toNat * 2 ^ fb + (sig - 2 ^ fb)

/-- A value rounded to precision p (R73, R215) with R66: the rounded value, the flags, and the rounding floor of R76. -/
def zxfRound (p : Nat) (rm : RMode) (v : FVal) : FVal × Flags × Int :=
  match v with
  | .fin neg m e more =>
    if m == 0 && !more then (v, .none, 0)
    else
      let r := roundP neg m e more p (-16382) rm
      if exceeds r.n r.q (2 ^ p - 1) (16384 - (p : Int)) then
        let fl : Flags := { of := true, nx := true }
        if overflowToInf rm neg then (.inf neg, fl, 0) else (.fin neg (2 ^ p - 1) (16384 - (p : Int)) false, fl, 16384 - (p : Int))
      else
        let ex := r.q + (Nat.log2 r.n : Int)
        let floor : Int := if ex < -16382 then -16382 - (p : Int) + 1 else ex - p + 1
        (.fin neg r.n r.q false, { uf := r.tiny && r.inexact, nx := r.inexact }, floor)
  | _ => (v, .none, 0)

/-- A significance 0..255, where 255 means exact and counts as larger than any finite one (R76, R77). -/
def sigMin (a b : Nat) : Nat := min a b

/-- min(s, p if inexact). -/
def sigIf (s : Nat) (inexact : Bool) (p : Nat) : Nat := if inexact then min s p else s

/-- A trust floor (R76): −∞, a number, or +∞. -/
inductive Floor where
  | bot
  | at (t : Int)
  | top
deriving DecidableEq, Repr, Inhabited

/-- The greater of two trust floors. -/
def Floor.max (a b : Floor) : Floor :=
  match a, b with
  | .top, _ => .top
  | _, .top => .top
  | .bot, x => x
  | x, .bot => x
  | .at x, .at y => .at (Max.max x y)

/-- The trust floor of a finite value of significance s (R76). -/
def trustFloor (v : FVal) (s : Nat) : Floor :=
  if s == 255 then .bot
  else if v.isZero then .top
  else .at (v.expo - s + 1)

/-- The significance of a sum (R77): from the greatest trust floor, with the rounding floor where the result is inexact. -/
def sumSig (t : Floor) (res : FVal) (inexact : Bool) (floor : Int) (p : Nat) : Nat :=
  let t := if inexact then t.max (.at floor) else t
  match t with
  | .bot => 255
  | .top => 0
  | .at x => if res.isZero then 0 else (Max.max 0 (Min.min (res.expo - x + 1) (p : Int))).toNat

end Sys2Proof.Machine
end

