-- ==== Sys2Proof/Machine/Cells.lean ====
section
/-!
DEFINITION. Sys2Proof/Machine/Cells.lean: reading and writing the cells, scalar registers and predicates of a thread (R30 to R38).
-/
namespace Sys2Proof.Machine

/-- The cell of an index; none lies at or above the window. -/
def Thread.cell (t : Thread) (i : Nat) : VCell := t.cells.getD i ⟨0, true, .plain⟩

def Thread.setCell (t : Thread) (i : Nat) (c : VCell) : Thread := { t with cells := t.cells.set i c }

/-- The head of the group that cell `i` belongs to, searching at most `n` cells down, and its number of cells; a cell tagged PLAIN
is a group of its own (R35). -/
def Thread.groupFrom (t : Thread) (i : Nat) : Nat → Nat × Nat
  | 0 => (i, 1)
  | n + 1 =>
    match (t.cell (i - (7 - n))).tag with
    | .head lc _ => if 7 - n ≤ i && 7 - n ≤ lc.toNat then (i - (7 - n), lc.toNat + 1) else (i, 1)
    | .plain => (i, 1)
    | .tail => if 7 - n < i then t.groupFrom i n else (i, 1)

/-- The group of cells that cell `i` belongs to: its first index and its number of cells (R35). -/
def Thread.group (t : Thread) (i : Nat) : Nat × Nat := t.groupFrom i 8

/-- Turn the cells of a range PLAIN, their data and F kept. -/
def Thread.plainRange (t : Thread) (i : Nat) : Nat → Thread
  | 0 => t
  | n + 1 => (t.setCell i { t.cell i with tag := .plain }).plainRange (i + 1) n

/-- Turn the group of a cell PLAIN (R35). -/
def Thread.dissolve (t : Thread) (i : Nat) : Thread :=
  match (t.cell i).tag with
  | .plain => t
  | _ => let g := t.group i; t.plainRange g.1 g.2

/-- A plain write (R35): the group of the cell turns PLAIN, the cell becomes full. -/
def Thread.writePlain (t : Thread) (i : Nat) (v : Word) : Thread := (t.dissolve i).setCell i ⟨v, true, .plain⟩

/-- Plain writes of consecutive cells. -/
def Thread.writePlains (t : Thread) (i : Nat) : List Word → Thread
  | [] => t
  | v :: vs => (t.writePlain i v).writePlains (i + 1) vs

/-- Dissolve the groups of the cells of a range. -/
def Thread.dissolveRange (t : Thread) (i : Nat) : Nat → Thread
  | 0 => t
  | n + 1 => (t.dissolve i).dissolveRange (i + 1) n

/-- The cells of a ZXF group, tails from `i` up. -/
def Thread.writeTails (t : Thread) (i : Nat) : List Word → Thread
  | [] => t
  | v :: vs => (t.setCell i ⟨v, true, .tail⟩).writeTails (i + 1) vs

/-- The words of a number, lowest first. -/
def wordsOf : Nat → Nat → List Word
  | 0, _ => []
  | n + 1, v => BitVec.ofNat 32 v :: wordsOf n (v / 2 ^ 32)

/-- A ZXF result of length `l` with significance `s` at head `i` (R35, R74). -/
def Thread.writeZxf (t : Thread) (i l : Nat) (image s : Nat) : Thread :=
  let t := t.dissolveRange i (l / 32)
  match wordsOf (l / 32) image with
  | [] => t
  | v :: vs => (t.setCell i ⟨v, true, .head (BitVec.ofNat 3 (l / 32 - 1)) (BitVec.ofNat 8 s)⟩).writeTails (i + 1) vs

/-- Mark cells empty (R36): F alone changes. -/
def Thread.markEmpty (t : Thread) (i : Nat) : Nat → Thread
  | 0 => t
  | n + 1 => (t.setCell i { t.cell i with full := false }).markEmpty (i + 1) n

/-- Set cells full and PLAIN with their data unchanged, as a plain write (R35, R36). -/
def Thread.refill (t : Thread) (i : Nat) : Nat → Thread
  | 0 => t
  | n + 1 => (t.writePlain i (t.cell i).data).refill (i + 1) n

/-- Mark cells full: F alone changes. -/
def Thread.markFull (t : Thread) (i : Nat) : Nat → Thread
  | 0 => t
  | n + 1 => (t.setCell i { t.cell i with full := true }).markFull (i + 1) n

/-- The lowest empty cell of a range. -/
def Thread.firstEmpty (t : Thread) (i : Nat) : Nat → Option Nat
  | 0 => none
  | n + 1 => if (t.cell i).full then t.firstEmpty (i + 1) n else some i

/-- The number that the cells of a range hold, lowest first (R58, R74). -/
def Thread.cellsNat (t : Thread) (i : Nat) : Nat → Nat
  | 0 => 0
  | n + 1 => (t.cell i).data.toNat + 2 ^ 32 * t.cellsNat (i + 1) n

/-- The cell pair of a 64-bit operand (R58). -/
def Thread.pair (t : Thread) (i : Nat) : DWord := (t.cell (i + 1)).data ++ (t.cell i).data

/-- The metadata word of a cell (R34). -/
def VCell.meta (c : VCell) : Word :=
  let f : Nat := if c.full then 0x8000 else 0
  match c.tag with
  | .plain => BitVec.ofNat 32 f
  | .head lc s => BitVec.ofNat 32 (f + 0x2000 + lc.toNat * 0x400 + s.toNat)
  | .tail => BitVec.ofNat 32 (f + 0x4000)

/-- A scalar register. -/
def Thread.sreg (t : Thread) (i : Nat) : DWord := if h : i < 32 then t.sregs[i] else 0

def Thread.setSreg (t : Thread) (i : Nat) (v : DWord) : Thread := { t with sregs := t.sregs.setIfInBounds i v }

/-- A predicate; p7 reads true (R30). -/
def Thread.pred (t : Thread) (i : Nat) : Bool := if h : i < 7 then t.preds[i] else true

/-- A write to p7 is discarded (R33). -/
def Thread.setPred (t : Thread) (i : Nat) (v : Bool) : Thread := { t with preds := t.preds.setIfInBounds i v }

/-- An operand code of R32: a scalar register, or the constant code − 48. -/
def Thread.code (t : Thread) (c : BitVec 6) : DWord :=
  if c.toNat < 32 then t.sreg c.toNat else BitVec.ofInt 64 ((c.toNat : Int) - 48)

/-- Operand b of a scalar instruction (R99, R140). -/
def Thread.scalarB (t : Thread) (b : ScalarB) : DWord :=
  match b with
  | .code c => t.code c
  | .imm v => v.signExtend 64

/-- The precision in force (R42). -/
def Thread.p (t : Thread) : Nat := (t.prec.extractLsb' 0 8).toNat

/-- The significance floor (R42). -/
def Thread.smin (t : Thread) : Nat := (t.prec.extractLsb' 8 8).toNat

/-- The guard of a lane instruction (R91): p[PG] XOR PN. -/
def Thread.laneGuard (t : Thread) (o : LaneOps) : Bool := t.pred o.pg.toNat != o.pn

/-- The guard of a scalar instruction (R88, R99): p[pred] XOR PN. -/
def Thread.scalarGuard (t : Thread) (o : ScalarOps) : Bool := t.pred o.pred.toNat != o.pn

/-- The guard of an instruction; a branch has none, its predicate decides the branch (R89). -/
def Thread.guard (t : Thread) (i : Instr) : Bool :=
  match i.form with
  | .lane _ _ _ o => t.laneGuard o
  | .scalar _ _ _ o => t.scalarGuard o
  | _ => true

end Sys2Proof.Machine
end

