-- ==== Sys2Proof/Machine/Operands.lean ====
section
/-!
DEFINITION. Sys2Proof/Machine/Operands.lean: which cells an instruction names (R31), reading sources under the empty policy (R37),
narrow sources and destinations (R94 to R97), and the operand forms of the lane and scalar sets.
-/
namespace Sys2Proof.Machine

/-! ### The cells an instruction names (check 5 of R101) -/

/-- How many cells the fields d, a, b and the third operand of a lane instruction name (R31, R140, R153, R171, R179, R195, R203,
R204, R213, R221, R261), for the precision in force. -/
def laneCounts (major minor : Nat) (o : LaneOps) (p : Nat) : Nat × Nat × Nat × Nat :=
  let m := o.mod.toNat
  let pair := o.mod.extractLsb' 2 2 == 3#2
  let z := zxfLength p / 32
  match major with
  | 0 | 1 | 2 | 3 | 16 => if pair then (2, 2, 2, 2) else (1, 1, 1, 1)
  | 4 =>
    if minor == 7 then (if (AnyFmt.ofCode m).width == 64 then (2, 2, 1, 1) else (1, 1, 1, 1))
    else if pair then (2, 2, 2, 2) else (1, 1, 1, 1)
  | 5 | 6 => if m == 3 then (2, 2, 2, 2) else (1, 1, 1, 1)
  | 7 => if m == 3 then (1, 2, 2, 1) else (1, 1, 1, 1)
  | 8 =>
    (if (AnyFmt.ofCode minor).width == 64 then 2 else 1, if (AnyFmt.ofCode m).width == 64 then 2 else 1, 1, 1)
  | 9 => (z, 1, 1, 1)
  | 10 =>
    match minor with
    | 3 => if m % 2 == 0 then (z, if m == 2 then 1 else 2, 1, 1) else (if m == 3 then 1 else 2, 1, 1, 1)
    | 1 | 2 | 4 | 6 => (z, 1, 1, 1)
    | _ => (1, 1, 1, 1)
  | 11 | 12 => (if m == 5 then 2 else if m == 6 then 4 else 1, 1, 1, 1)
  | 13 => (if minor < 4 then z else 1, 1, 1, 1)
  | 14 =>
    match minor with
    | 1 | 10 | 12 => (2, 1, 2, 2)
    | 13 => (4, 1, 4, 4)
    | _ => (1, 1, 1, 1)
  | 17 => if minor == 1 then (1, 2, 1, 1) else (1, 1, 1, 1)
  | _ => (1, 1, 1, 1)

/-- A field with a cell letter names `n` cells from its value. -/
def spanOf (l : Letter) (f n : Nat) : List (Nat × Nat) :=
  match l with
  | .cell | .immCell => [(f, n)]
  | _ => []

/-- The operands of an instruction's lane form, where it has one. -/
def laneOpsOf (i : Instr) : LaneOps :=
  match i.form with
  | .lane _ _ _ o => o
  | _ => default

/-- The cells an instruction names, as first index and number (R31). The XCVT letters depend on MOD (R104), but all are cells. -/
def cellSpans (i : Instr) (p : Nat) : List (Nat × Nat) :=
  match i.form with
  | .lane major minor sig o =>
    let (nd, na, nb, nc) := laneCounts major minor o p
    spanOf sig.d o.d.toNat nd ++ spanOf sig.a o.a.toNat na ++
    (match o.b with
      | .cell f => spanOf sig.b f.toNat nb
      | .imm _ => []) ++
    (if sig.third == .cell then [(o.c.toNat, nc)] else [])
  | .scalar major minor sig o =>
    spanOf sig.d o.d.toNat (if major == 8 && minor == 3 then 2 else 1) ++ spanOf sig.a o.a.toNat 1
  | _ => []

/-- Check 5 of R101 (R31): every cell the instruction names lies below W. -/
def Thread.regsOk (t : Thread) (i : Instr) : Bool := (cellSpans i t.p).all fun s => s.1 + s.2 ≤ t.win

/-! ### Reading sources -/

/-- A source as read: the field code of R46 that names it, its first cell and its number of cells. -/
abbrev Source := Nat × Nat × Nat

/-- The lowest empty cell of each source that has one, with the source's field. -/
def Thread.empties (t : Thread) (xs : List Source) : List (Nat × Nat) :=
  xs.filterMap fun x => (t.firstEmpty x.2.1 x.2.2).map fun j => (j, x.1)

/-- The source reads of an instruction (R37): it waits for empty cells, or raises EMPTY with the lowest of them all and the first field
that names it (R46, R47). -/
def Thread.needAll (t : Thread) (ep : Bool) (xs : List Source) : Except Stop Unit :=
  match minBy Prod.fst (t.empties xs) with
  | none => .ok ()
  | some x => if ep then .error (.trap 0x90 (BitVec.ofNat 8 x.2) (BitVec.ofNat 64 x.1) 0 0) else .error (.wait .emptyCell)

/-- One source of consecutive cells. -/
def Thread.need (t : Thread) (ep : Bool) (field : Nat) (i n : Nat) : Except Stop Unit := t.needAll ep [(field, i, n)]

/-- A write waits for empty destination cells (R38). -/
def Thread.needFree (t : Thread) (i n : Nat) : Except Stop Unit :=
  match t.firstEmpty i n with
  | none => .ok ()
  | some _ => .error (.wait .emptyCell)

/-- The width of a narrow element in bits (R94). -/
def narrowBits : NarrowWidth → Nat
  | .w8 => 8
  | .w6 => 6
  | .w4 => 4
  | .w16 => 16

/-- Element j of w bits of a cell (R94). -/
def elemOf (c : Word) (w pos : Nat) : Nat := c.toNat / 2 ^ (w * pos) % 2 ^ w

/-- A cell with element `pos` of `w` bits replaced (R96). -/
def insertElem (c : Word) (w pos v : Nat) : Word :=
  let mask := BitVec.ofNat 32 ((2 ^ w - 1) * 2 ^ (w * pos))
  (c &&& ~~~mask) ||| (BitVec.ofNat 32 (v % 2 ^ w * 2 ^ (w * pos)))

/-- The integer operand width of MOD (R105): element width and number of elements. -/
def intWidth (m : BitVec 5) : Nat × Nat :=
  match (m.extractLsb' 2 2).toNat with
  | 0 => (32, 1)
  | 1 => (16, 2)
  | 2 => (8, 4)
  | _ => (64, 1)

/-- The kind of MOD is .i (R105). -/
def isSigned (m : BitVec 5) : Bool := m.extractLsb' 0 2 == 0#2

/-- The kind of MOD is .b (R105). -/
def isBits (m : BitVec 5) : Bool := m.extractLsb' 0 2 == 2#2

/-- The 64 bits of the cells of an operand: a pair at width 64, else one cell zero-extended. -/
def Thread.raw (t : Thread) (i : Nat) (pair : Bool) : Nat := if pair then t.cellsNat i 2 else t.cellsNat i 1

/-- A narrow element of an integer major, widened to 32 bits (R95). -/
def widenInt (m : BitVec 5) (w x : Nat) : Nat := if isSigned m then patOf 32 (intOf w true x) else x

/-- The format of a narrow float element (R95). -/
def narrowFmt (w : NarrowWidth) (falt : Bool) : FFmt :=
  match w, falt with
  | .w8, false => fmtE4m3
  | .w8, true => fmtE5m2
  | .w6, false => fmtE3m2
  | .w6, true => fmtE2m3
  | .w4, _ => fmtE2m1
  | .w16, false => fmtF16
  | .w16, true => fmtBf16

/-- An integer source operand in a cell field (R94, R95): full, or a widened narrow element. -/
def Thread.intSrc (t : Thread) (m : BitVec 5) (i : Nat) (n : Narrow) : Nat :=
  match n with
  | .full => t.raw i ((intWidth m).1 == 64)
  | .elem w pos => widenInt m (narrowBits w) (elemOf (t.cell i).data (narrowBits w) pos.toNat)

/-- The immediate of R93 at the operation's width: truncated, and replicated into every packed element. -/
def immAt (m : BitVec 5) (v : BitVec 19) : Nat :=
  let (w, n) := intWidth m
  let x := (v.signExtend 64).toNat % 2 ^ w
  (List.range n).foldl (fun acc j => acc + x * 2 ^ (w * j)) 0

/-- Operand b of an integer lane instruction. -/
def Thread.intB (t : Thread) (o : LaneOps) : Nat :=
  match o.b with
  | .cell i => t.intSrc o.mod i.toNat o.nb
  | .imm v => immAt o.mod v

/-- The number of cells of an integer operand: a pair at width 64. -/
def intCells (m : BitVec 5) : Nat := if (intWidth m).1 == 64 then 2 else 1

/-- Operand a as a source. -/
def srcA (o : LaneOps) (n : Nat) : List Source := [(0, o.a.toNat, n)]

/-- Operand b as a source when it is a cell. -/
def srcB (o : LaneOps) (n : Nat) : List Source :=
  match o.b with
  | .cell i => [(1, i.toNat, n)]
  | .imm _ => []

/-- The third operand as a source. -/
def srcC (o : LaneOps) (n : Nat) : List Source := [(2, o.c.toNat, n)]

/-- A narrow destination is read (R96). -/
def srcOld (o : LaneOps) : List Source := if o.nd == .full then [] else [(3, o.d.toNat, 1)]

/-- The empty checks of sources a, b and, with `third`, the third operand, of `n` cells each, and of a narrow destination. -/
def Thread.needSrcs (t : Thread) (o : LaneOps) (n : Nat) (third : Bool) : Except Stop Unit :=
  t.needAll o.ep (srcA o n ++ srcB o n ++ (if third then srcC o n else []) ++ srcOld o)

/-- The empty checks of operand b alone. -/
def Thread.needB (t : Thread) (o : LaneOps) (n : Nat) : Except Stop Unit := t.needAll o.ep (srcB o n)

/-- Write an integer result of the operation's cells (R96, R151): saturated into a narrow element for .i and .n, its low bits for
.b. `exact` is the result before it is wrapped to the operation's width. -/
def Thread.putInt (t : Thread) (o : LaneOps) (v : Nat) (exact : Int) : Thread :=
  match o.nd with
  | .full => t.writePlains o.d.toNat (wordsOf (intCells o.mod) v)
  | .elem w pos =>
    let b := narrowBits w
    let e := if isBits o.mod then patOf b exact else patOf b (saturate b (isSigned o.mod) exact).1
    t.writePlain o.d.toNat (insertElem (t.cell o.d.toNat).data b pos.toNat e)

/-- Apply a function to each packed element (R150): w is the element width, n the number of elements. -/
def mapElems (w n : Nat) (f : Nat → Nat) : Nat := (List.range n).foldl (fun acc j => acc + f j % 2 ^ w * 2 ^ (w * j)) 0

/-- Element j of width w of an operand. -/
def elemAt (x w j : Nat) : Nat := x / 2 ^ (w * j) % 2 ^ w

/-! ### Float operands (R195) -/

/-- The format and number of elements of a float MOD (R195). -/
def floatMode (m : BitVec 5) : FFmt × Nat :=
  match m.toNat with
  | 0 => (fmtF32, 1)
  | 1 => (fmtF16, 2)
  | 2 => (fmtBf16, 2)
  | _ => (fmtF64, 1)

/-- The number of cells of a float operand. -/
def floatCells (m : BitVec 5) : Nat := if m.toNat == 3 then 2 else 1

/-- Element j of a float source, narrow or full (R94, R95, R195). -/
def Thread.floatSrc (t : Thread) (o : LaneOps) (i : Nat) (n : Narrow) (j : Nat) : FVal :=
  let (f, _) := floatMode o.mod
  match n with
  | .full => f.decode (elemAt (t.raw i (o.mod.toNat == 3)) f.width j)
  | .elem w pos => (narrowFmt w o.falt).decode (elemOf (t.cell i).data (narrowBits w) pos.toNat)

/-- The cell index of operand b of a float instruction, which has no immediate (R195). -/
def bCell (o : LaneOps) : Nat :=
  match o.b with
  | .cell i => i.toNat
  | .imm _ => 0

/-- The destination format: the narrow one, or MOD's (R96). -/
def dstFmt (o : LaneOps) : FFmt :=
  match o.nd with
  | .full => (floatMode o.mod).1
  | .elem w _ => narrowFmt w o.falt

/-- The rounding mode in force (R97): RO, else FCSR.frm. -/
def Thread.frm (t : Thread) (ro : BitVec 3) : RMode :=
  if ro == 0#3 then RMode.ofCode (t.fcsr.extractLsb' 0 3).toNat else RMode.ofCode (ro.toNat - 1)

/-- The ZXF rounding mode in force (R97): RO, else PREC.rm. -/
def Thread.xrm (t : Thread) (ro : BitVec 3) : RMode :=
  if ro == 0#3 then RMode.ofCode (t.prec.extractLsb' 16 3).toNat else RMode.ofCode (ro.toNat - 1)

/-- Write the element codes of a float result: full, packed, pair, or one narrow element (R96, R195). -/
def Thread.putFloat (t : Thread) (o : LaneOps) (codes : List Nat) : Thread :=
  match o.nd with
  | .full =>
    let (f, n) := floatMode o.mod
    t.writePlains o.d.toNat (wordsOf (floatCells o.mod) (mapElems f.width n fun j => codes.getD j 0))
  | .elem w pos => t.writePlain o.d.toNat (insertElem (t.cell o.d.toNat).data (narrowBits w) pos.toNat (codes.getD 0 0))

end Sys2Proof.Machine
end

