-- ==== Sys2Proof/Machine/Flags.lean ====
section
/-!
DEFINITION. Sys2Proof/Machine/Flags.lean: the sticky flags of FCSR and XFLAGS (R43, R44, R67) and the traps that their enables raise
(R51, R196, R215).
-/
namespace Sys2Proof.Machine

/-- The sticky bits of FCSR for a set of flags (R44): NV 8, DZ 9, OF 10, UF 11, NX 12. -/
def Flags.fcsrBits (f : Flags) : BitVec 25 :=
  (if f.nv then 0x100#25 else 0) ||| (if f.dz then 0x200#25 else 0) ||| (if f.of then 0x400#25 else 0) |||
  (if f.uf then 0x800#25 else 0) ||| (if f.nx then 0x1000#25 else 0)

/-- The sticky bits of XFLAGS for a set of flags (R43): NV 1, OF 2, UF 3, NX 4. ZXF has no divide-by-zero flag (R216). -/
def Flags.xBits (f : Flags) : BitVec 6 :=
  (if f.nv then 0x02#6 else 0) ||| (if f.of then 0x04#6 else 0) ||| (if f.uf then 0x08#6 else 0) |||
  (if f.nx then 0x10#6 else 0)

/-- XFLAGS.PX (R43). -/
def xPx : BitVec 6 := 0x01#6

/-- XFLAGS.PC (R43). -/
def xPc : BitVec 6 := 0x20#6

/-- The first enabled float flag in the order NV, DZ, OF, UF, NX (R196): its cause code (R47). FCSR enables: NV 16, DZ 17, OF 18,
UF 19, NX 20 (R44). -/
def floatTrap (fcsr : BitVec 25) (f : Flags) : Option (BitVec 8) :=
  if f.nv && fcsr[16] then some 0x88
  else if f.dz && fcsr[17] then some 0x89
  else if f.of && fcsr[18] then some 0x8A
  else if f.uf && fcsr[19] then some 0x8B
  else if f.nx && fcsr[20] then some 0x8C
  else none

/-- The flags of a float instruction take effect (R196): sticky bits set; an enabled one raises the local trap and nothing is
written. -/
def Thread.applyFloatFlags (t : Thread) (f : Flags) : Except Stop Thread :=
  match floatTrap t.fcsr f with
  | some c => .error (.trap c 0 0 0 f.fcsrBits)
  | none => .ok { t with fcsr := t.fcsr ||| f.fcsrBits }

/-- The enabled trap of a ZXF result among NV, OF and UF (R215): PREC enables NV 21, OF 22, UF 23 (R42). -/
def zxfTrap (prec : BitVec 32) (f : Flags) : Option (BitVec 8) :=
  if f.nv && prec[21] then some 0x81
  else if f.of && prec[22] then some 0x82
  else if f.uf && prec[23] then some 0x83
  else none

/-- The flags and traps of a ZXF instruction in the order of R215: NV, OF, UF; then PX when `s` is given and lies below smin; then
NX. -/
def Thread.applyZxfFlags (t : Thread) (f : Flags) (s : Option Nat) : Except Stop Thread :=
  let low := match s with
    | some s => s < t.smin
    | none => false
  let bits := f.xBits ||| (if low then xPx else 0)
  match zxfTrap t.prec f with
  | some c => .error (.trap c 0 0 bits 0)
  | none =>
    if low && t.prec[20] then .error (.trap 0x80 0 (BitVec.ofNat 64 (s.getD 0)) bits 0)
    else if f.nx && t.prec[24] then .error (.trap 0x84 0 0 bits 0)
    else .ok { t with xflags := t.xflags ||| bits }

end Sys2Proof.Machine
end

