-- ==== Sys2Proof/Machine/Crews.lean ====
section
/-!
DEFINITION. Sys2Proof/Machine/Crews.lean: crews, barrier phases and cross-lane rendezvous as shared operations (R20 to R28, R188 to
R191, R206 to R211).
-/
namespace Sys2Proof.Machine

/-! ### Results of a cross-lane instruction (R208 to R211) -/

/-- The arrival of a contributor at a lane. -/
def contributor (as_ : List Arrival) (base lane : Nat) : Option Arrival :=
  as_.find? fun a => a.guard && a.rank == base + lane

/-- The contributors of lanes lo..hi−1, in ascending lane. -/
def contributors (as_ : List Arrival) (base lo hi : Nat) : List Arrival :=
  (List.range (hi - lo)).filterMap fun i => contributor as_ base (lo + i)

/-- The lane a shuffle reads (R208). -/
inductive ShflMode where
  | idx | up | down | xor
deriving DecidableEq, Repr, Inhabited

def shflLane (m : ShflMode) (l b : Nat) : Int :=
  match m with
  | .idx => b
  | .up => (l : Int) - b
  | .down => (l : Int) + b
  | .xor => (l ^^^ b : Nat)

/-- The shuffle of R208: value and result predicate. -/
def shflResult (m : ShflMode) (as_ : List Arrival) (base w : Nat) (me : Arrival) : Word × Bool :=
  let j := shflLane m (me.rank - base) me.b.toNat
  if 0 ≤ j ∧ j < w then
    match contributor as_ base j.toNat with
    | some a => (a.a, true)
    | none => (me.a, false)
  else (me.a, false)

/-- The ballot of R209. -/
def ballot (as_ : List Arrival) (base w : Nat) : Word :=
  (List.range w).foldl (fun acc l => match contributor as_ base l with
    | some a => if a.p then acc ||| (1#32 <<< l) else acc
    | none => acc) 0#32

/-- The operation of RED and SCAN on integers (R210). -/
def reduceInt (op : Nat) (signed : Bool) (vs : List Word) : Word :=
  match op with
  | 0 => vs.foldl (· + ·) 0
  | 1 => if signed then vs.foldl (fun a b => if b.slt a then b else a) 0x7FFFFFFF#32
         else vs.foldl (fun a b => if b.ult a then b else a) 0xFFFFFFFF#32
  | 2 => if signed then vs.foldl (fun a b => if a.slt b then b else a) 0x80000000#32
         else vs.foldl (fun a b => if a.ult b then b else a) 0#32
  | 3 => vs.foldl (· &&& ·) 0xFFFFFFFF#32
  | 4 => vs.foldl (· ||| ·) 0#32
  | _ => vs.foldl (· ^^^ ·) 0#32

/-- The exact sum of a set with the specials of the group rule of R79: the NaN of the lowest lane, NaN for both infinities, an
infinity, else the exact sum; a zero sum is +0 unless every term is −0, in every rounding mode: that it is so also under RDN, where R65 has −0
for two operands of opposite sign, is a DESIGN CHOICE (notes/assumptions/45.md). -/
def groupSum (vs : List FVal) : FVal × Flags :=
  match firstNan vs with
  | some n => (n, if anySnan vs then .invalid else .none)
  | none =>
    if vs.any (fun v => v == .inf false) && vs.any (fun v => v == .inf true) then (FVal.dflt, .invalid)
    else match vs.find? FVal.isInf with
      | some v => (v, .none)
      | none =>
        let s := vs.foldl (fun acc v => match acc, v with
          | .fin n1 m1 e1 _, .fin n2 m2 e2 _ => addFin .rne n1 m1 e1 n2 m2 e2
          | x, _ => x) (FVal.zero false)
        if s.isZero then (FVal.zero (!vs.isEmpty && vs.all fun v => v.isZero && v.neg), .none) else (s, .none)

/-- RED and SCAN of .f32 (R210). -/
def reduceFloat (op : Nat) (rm : RMode) (vs : List FVal) : Word × Flags :=
  match op with
  | 0 =>
    let (s, fl) := groupSum vs
    let (c, fl') := fmtF32.place rm s
    (BitVec.ofNat 32 c, fl.or fl')
  | _ =>
    let max := op == 2
    let fl := if anySnan vs then Flags.invalid else .none
    let nums := vs.filter fun v => !v.isNan
    match nums with
    | [] => match firstNan vs with
      | some n => (BitVec.ofNat 32 (fmtF32.place rm n).1, fl)
      | none => (BitVec.ofNat 32 (fmtF32.place rm (.inf max)).1, fl)
    | v :: rest =>
      let r := rest.foldl (fun a b => if max then (if ltTotal a b then b else a) else (if ltTotal b a then b else a)) v
      (BitVec.ofNat 32 (fmtF32.place rm r).1, fl)

/-- RED and SCAN over the set of one member (R210): MOD bits 2:0 the operation, bits 4:3 the type. -/
def reduceSet (mod : BitVec 5) (rm : RMode) (set : List Arrival) : Word × Flags :=
  let op := (mod.extractLsb' 0 3).toNat
  match (mod.extractLsb' 3 2).toNat with
  | 2 => reduceFloat op rm (set.map fun a => fmtF32.decode a.a.toNat)
  | t => (reduceInt op (t == 0) (set.map fun a => a.a), .none)

/-- PERMB (R211): `nib` reads 4-bit indices, `size` is the table size. -/
def permbResult (nib : Bool) (size : Nat) (as_ : List Arrival) (base w : Nat) (me : Arrival) : Word :=
  let table (t : Nat) : Nat :=
    if t / 4 < w then
      (match contributor as_ base (t / 4) with
        | some a => a.a.toNat / 2 ^ (8 * (t % 4)) % 256
        | none => 0)
    else 0
  BitVec.ofNat 32 (mapElems 8 4 fun i =>
    let idx := if nib then me.b.toNat / 2 ^ (8 * i) % 16 else me.b.toNat / 2 ^ (8 * i) % 256
    if idx < size then table idx else 0)

/-- What a contributor receives (R206): a value for cell d, a predicate, and flags. -/
structure LaneResult where
  cell : Option Word
  pred : Option (Nat × Bool)
  flags : Flags
deriving DecidableEq, Repr, Inhabited

/-- The result of a cross-lane instruction for one contributor of a tile of `w` lanes. -/
def laneResult (op : Instr) (rm : RMode) (as_ : List Arrival) (base w : Nat) (me : Arrival) : LaneResult :=
  let l := me.rank - base
  let all := contributors as_ base 0 w
  let shfl (m : ShflMode) (o : LaneOps) : LaneResult :=
    let r := shflResult m as_ base w me
    ⟨some r.1, some ((o.mod.extractLsb' 0 3).toNat, r.2), .none⟩
  match op with
  | .shflIdx o => shfl .idx o
  | .shflUp o => shfl .up o
  | .shflDown o => shfl .down o
  | .shflXor o => shfl .xor o
  | .voteAny o => ⟨none, some (o.d.toNat, all.any fun a => a.p), .none⟩
  | .voteAll o => ⟨none, some (o.d.toNat, all.all fun a => a.p), .none⟩
  | .voteUniform o => ⟨none, some (o.d.toNat, all.all fun a => a.p == me.p), .none⟩
  | .voteBallot _ => ⟨some (ballot as_ base w), none, .none⟩
  | .red o => let r := reduceSet o.mod rm all; ⟨some r.1, none, r.2⟩
  | .scanIncl o => let r := reduceSet o.mod rm (contributors as_ base 0 (l + 1)); ⟨some r.1, none, r.2⟩
  | .scanExcl o => let r := reduceSet o.mod rm (contributors as_ base 0 l); ⟨some r.1, none, r.2⟩
  | .permbNib _ => ⟨some (permbResult true 16 as_ base w me), none, .none⟩
  | .permbByte o => ⟨some (permbResult false (if o.mod[0] then 32 else 16) as_ base w me), none, .none⟩
  | _ => ⟨none, none, .none⟩

/-- A contributor takes its result: cell d full and PLAIN, the result predicate, the sticky flags. -/
def Thread.takeLane (t : Thread) (op : Instr) (r : LaneResult) : Thread :=
  let t := match r.cell with
    | some v => t.writePlain (laneOpsOf op).d.toNat v
    | none => t
  let t := match r.pred with
    | some (n, b) => t.setPred n b
    | none => t
  { t with fcsr := t.fcsr ||| r.flags.fcsrBits }

/-- The PC moves past an instruction and the thread waits no longer. -/
def Thread.past (t : Thread) (len : Nat) : Thread :=
  { t with pc := t.pc + BitVec.ofNat 64 len, wait := .none, charged := false, latch := none, dmrMiss := false }

/-! ### Members -/

/-- The members of a crew that are not exited. -/
def State.members (s : State) (part core handle : Nat) : List Thread :=
  s.allThreads.filter fun t => t.key.part == part && t.key.core == core && t.crew == handle && handle != 0

def Ctx.crew? (c : Ctx) (handle : Nat) : Option Crew := c.crews.find? fun x => x.handle == handle

def Ctx.setCrew (c : Ctx) (x : Crew) : Ctx := { c with crews := c.crews.map fun y => if y.handle == x.handle then x else y }

/-- CREWN of a thread (R23, R41). -/
def State.crewn (s : State) (t : Thread) : Nat :=
  match (s.hw.ctx t.key.part t.key.core).crew? t.crew with
  | some c => if t.crew == 0 then 0 else c.crewn
  | none => 0

/-! ### Rendezvous (R26, R27, R206) -/

/-- Every member of the tile that is neither vacant nor exited has arrived, and no rank of it is reserved (R22, R26). -/
def rendezvousReady (s : State) (part core : Nat) (r : Rendezvous) : Bool :=
  let inTile (k : Nat) : Bool := r.base ≤ k && k < r.base + 2 ^ r.tile
  (match (s.hw.ctx part core).crew? r.crew with
    | some c => c.reserved.all fun k => !inTile k
    | none => true) &&
  (s.members part core r.crew).all fun t => !inTile t.rank || r.arrivals.any fun a => a.rank == t.rank

/-- Execute a rendezvous for every member that arrived (R206). -/
def completeRendezvous (s : State) (part core : Nat) (r : Rendezvous) : State :=
  let c := s.hw.ctx part core
  let s := s.mapHw fun h => h.setCtx { c with rvs := c.rvs.filter fun q => !(q.crew == r.crew && q.base == r.base) }
  s.mapThreads fun t =>
    if t.key.part == part && t.key.core == core && t.crew == r.crew then
      match r.arrivals.find? fun a => a.rank == t.rank with
      | none => t
      | some me =>
        let t' := if me.guard then
            t.takeLane r.op (laneResult r.op (t.frm (laneOpsOf r.op).ro) r.arrivals r.base (2 ^ r.tile) me)
          else t
        t'.past r.op.length
    else t

/-- Complete every rendezvous of a crew that is ready. -/
def settleRendezvous (s : State) (part core handle : Nat) : State :=
  ((s.hw.ctx part core).rvs.filter fun r => r.crew == handle).foldl
    (fun s r => if rendezvousReady s part core r && !r.arrivals.isEmpty then completeRendezvous s part core r else s) s

/-! ### Barrier phases (R190, R191) -/

/-- The place of a rank after CCOMPACT: the number of kept ranks below it. -/
def denseRank (ranks : List Nat) (r : Nat) : Nat := (nub ranks).countP fun x => decide (x < r)

/-- A phase is complete when every member that takes part in it has arrived and no rank is reserved. -/
def phaseReady (s : State) (part core : Nat) (c : Crew) : Bool :=
  c.reserved.isEmpty && (s.members part core c.handle).all fun t => t.arrived || t.exempt

/-- Complete the open phase of a crew: CCOMPACT renumbers the ranks; the members that wait in the phase go on; a phase in which
members that joined meanwhile have arrived opens (R188). The barrier orders accesses on every path: the core's constant cache is
discarded (R192). No rule says what a renumbering does to the arrival of a member that waits at a rendezvous meanwhile, having joined during
the phase: its arrival keeps the rank it was made with (DESIGN CHOICE, notes/assumptions/45.md). -/
def completePhase (s : State) (part core : Nat) (c : Crew) (ph : Phase) : State :=
  let ranks := (s.members part core c.handle).map (fun t => t.rank) ++ c.reserved
  let c1 : Crew := { c with phase := c.next, next := none }
  let c2 : Crew := if ph.compact then { c1 with crewn := (nub ranks).length, reserved := c.reserved.map (denseRank ranks) } else c1
  let ks := (s.members part core c.handle).map fun t => t.key
  let s := s.mapHw fun h => dropCon (h.setCtx (((h.ctx part core).setCrew c2).dropAhead fun a => ks.contains a.key)) part core
  s.mapThreads fun t =>
    if t.key.part == part && t.key.core == core && t.crew == c.handle then
      let t1 := if ph.compact then { t with rank := denseRank ranks t.rank } else t
      if t.exempt then { t1 with exempt := false }
      else
        let t2 := { t1 with arrived := false }
        match t.wait with
        | .held .barrier _ => if t.arrived then t2.past ((t.latch.getD 4#32).toNat) else t2
        | _ => t2
    else t

/-- Complete the open phase of a crew if it is ready. -/
def settlePhase (s : State) (part core handle : Nat) : State :=
  match (s.hw.ctx part core).crew? handle with
  | none => s
  | some c => match c.phase with
    | none => s
    | some ph => if phaseReady s part core c then completePhase s part core c ph else s

/-- A crew without members and reserved ranks dissolves: its key is free and its reservations are released (R21, R189). -/
def dissolveCrew (s : State) (part core handle : Nat) : State :=
  match (s.hw.ctx part core).crew? handle with
  | none => s
  | some c =>
    if (s.members part core handle).isEmpty && c.reserved.isEmpty then
      let x := s.hw.ctx part core
      s.mapHw fun h => h.setCtx { x with
        crews := x.crews.filter fun y => y.handle != handle,
        resvs := x.resvs.map fun r => if r.owner == .crew handle then { r with released := true } else r }
    else s

/-- What follows when a crew has lost a member: an open rendezvous or phase that waited for it alone completes (R26, R190). -/
def settleCrew (s : State) (part core handle : Nat) : State :=
  if handle == 0 then s
  else dissolveCrew (settlePhase (settlePhase (settleRendezvous s part core handle) part core handle) part core handle) part core handle

/-- A thread leaves its crew (R21): its rank becomes vacant and an arrival at a rendezvous is withdrawn (R26). -/
def leaveCrew (s : State) (k : Key) : State :=
  match s.thread? k with
  | none => s
  | some t =>
    if t.crew == 0 then s
    else
      let c := s.hw.ctx k.part k.core
      let gone (r : Rendezvous) : Rendezvous :=
        if r.crew == t.crew then { r with arrivals := r.arrivals.filter fun a => a.rank != t.rank } else r
      let rvs := (c.rvs.map gone).filter fun r => !r.arrivals.isEmpty
      let s := s.mapHw fun h => h.setCtx { c with rvs := rvs }
      let s := s.setThread { t with crew := 0, rank := 0, arrived := false, exempt := false }
      settleCrew s k.part k.core t.crew

end Sys2Proof.Machine
end

