-- ==== Sys2Proof/Machine/Ops.lean ====
section
/-!
DEFINITION. Sys2Proof/Machine/Ops.lean: the named operations that instructions and events share: performing outstanding accesses,
fault records (R361 to R364), killing and re-queuing a launch (R367, R375), taking a local trap (R50) and a supervisor fault (R360),
ending a trial (R54), returning from a trap (R52), and the frame in which every instruction runs (R101, R141, R347).
-/
namespace Sys2Proof.Machine

/-! ### Outstanding accesses -/

/-- The new value of an atomic (R179): the operands and the old value as `bytes`-byte numbers. -/
def amoNew (op : AmoOp) (bytes : Nat) (old b c : Nat) : Nat :=
  let w := 8 * bytes
  let b := b % 2 ^ w
  match op with
  | .add => (old + b) % 2 ^ w
  | .minI => if intOf w true b < intOf w true old then b else old
  | .minN => if b < old then b else old
  | .maxI => if intOf w true old < intOf w true b then b else old
  | .maxN => if old < b then b else old
  | .and => old &&& b
  | .or => old ||| b
  | .xor => old ^^^ b
  | .swap => b
  | .cas => if old = b then c % 2 ^ w else old
  | .fadd =>
    let va := fmtF32.decode old
    let vb := fmtF32.decode b
    (fmtF32.place .rne (arith [va, vb] (addVal .rne va vb)).1).1

/-- The keys among the locations of an access. -/
def physKeys (ls : List Loc) : List Nat := ls.filterMap fun l => match l with
  | .phys k => some k
  | .scr _ => none

/-- The scratchpad offsets among the locations of an access. -/
def scrOffs (ls : List Loc) : List Nat := ls.filterMap fun l => match l with
  | .phys _ => none
  | .scr o => some o

/-- The bytes at the locations of an access of a launch. -/
def readLocs (h : Hw) (k : Key) (launch : Nat) (r : Route) (ls : List Loc) : List Byte :=
  match r with
  | .scratch => (scrOffs ls).map fun o => sget ((h.ctx k.part k.core).region launch).scr o
  | _ => readRoute h k r (physKeys ls)

/-- Every element of a list of options, if all are there. -/
def allSome {α : Type} : List (Option α) → Option (List α)
  | [] => some []
  | none :: _ => none
  | some x :: xs => (allSome xs).map (x :: ·)

/-- The bytes of an outstanding access, once all of them have been performed. -/
def Pend.bytes (p : Pend) : Option (List Byte) := allSome p.got

def Pend.isStore (p : Pend) : Bool :=
  match p.kind with
  | .store _ => true
  | _ => false

def Pend.isAtomic (p : Pend) : Bool :=
  match p.kind with
  | .atomic _ _ _ _ _ _ => true
  | _ => false

def Pend.isLoad (p : Pend) : Bool :=
  match p.kind with
  | .load _ | .xload _ _ _ | .sload _ _ _ => true
  | _ => false

/-- An access of a thread. -/
def Pend.ofThread (p : Pend) (t : Thread) : Bool := p.key == t.key && p.tid == t.tid && p.launch == t.launch

/-- Two accesses are of one thread. -/
def Pend.sameThread (p q : Pend) : Bool := p.key == q.key && p.tid == q.tid && p.launch == q.launch

/-- An access to a page of type 2 or 3 (R283). -/
def Pend.device (p : Pend) : Bool := p.mts.any fun t => decide (2 ≤ t)

/-- The aligned unit that byte `i` of an access lies in: the bytes of a unit are performed together (R176). -/
def Pend.unitOf (p : Pend) (i : Nat) : Nat := (p.ea.toNat + i) / max 1 p.atom

/-- The bytes of an access that have not been performed. -/
def Pend.todo (p : Pend) : List Nat := (List.range p.locs.length).filter fun i => (p.got.getD i none).isNone

/-- The units of an access that have not been performed. -/
def Pend.units (p : Pend) : List Nat := nub (p.todo.map p.unitOf)

/-- The units of an access, not yet performed, that hold some of these bytes. -/
def Pend.over (p : Pend) (ls : List Loc) : List Nat :=
  nub ((p.todo.filter fun i => match p.locs[i]? with
    | some l => ls.contains l
    | none => false).map p.unitOf)

/-- The bytes, not yet performed, of some units of an access. -/
def Pend.locsOf (p : Pend) (us : List Nat) : List Loc := (p.todo.filter fun i => us.contains (p.unitOf i)).filterMap fun i => p.locs[i]?

/-- The units of access `q` that are performed before access `g` is on some bytes: those of an earlier access of its thread to the same
bytes on the same path (R175), of an earlier access of its thread to device pages where both are (R283), of an atomic of a lower TID of
its gang (R15, R180), and, before a store, of loads of the gangs in which its thread has issued (R174). -/
def Pend.before (q g : Pend) (ls : List Loc) : List Nat :=
  if g.id ≤ q.id then []
  else if (q.sameThread g && q.device && g.device) || (q.isAtomic && g.isAtomic && q.gang == g.gang) then q.units
  else if (q.sameThread g && q.route.path == g.route.path) ||
      (g.isStore && q.isLoad && g.after.contains q.gang && q.key.part == g.key.part && q.key.core == g.key.core && q.launch == g.launch)
    then q.over ls
  else []

/-- Bytes of an access have been performed, with the values read or stored; a store that is performed whole is over. -/
def Hw.mark (h : Hw) (id : Nat) (is : List Nat) (bs : List Byte) (sees : List Nat) : Hw :=
  let put (q : Pend) : Pend := { q with
    got := (is.zip bs).foldl (fun g x => g.set x.1 (some x.2)) q.got, sees := if sees.isEmpty then q.sees else nub (q.sees ++ sees) }
  { h with pends := (h.pends.map fun q => if q.id == id then put q else q).filter fun q => !(q.id == id && q.isStore && q.todo.isEmpty) }

/-- An access reads bytes: those that are poisoned are an error that its launch consumes, with the mark of an atomic where it is one (R361,
R371). -/
def Hw.noteUe (h : Hw) (p : Pend) (ks : List Nat) : Hw :=
  match poisonOf h ks with
  | some k => { h with ue := h.ue ++
      [⟨p.key.part, p.launch, p.key.core, p.tid.toNat, p.ip, poisonClass h k, if p.isAtomic then 1 else 0, k⟩] }
  | none => h

/-- An atomic reads the old value and writes the new one in one step (R180, R181); a compare that fails writes nothing (R296). It
discards the L1 lines of its bytes, and every L1 line where its order asks it (R270); D is set, in the entries that it was translated by,
before the data (R279). -/
def performAtomic (h : Hw) (p : Pend) (op : AmoOp) (n : Nat) (b c : BitVec 128) (discard : Bool) : Hw :=
  let part := p.key.part
  let core := p.key.core
  let ks := physKeys p.locs
  let h := accessAhead (drainOutKeys (drainSeen h part core p.sees) part core ks) p.key p.route p.locs
  let bs := readLocs h p.key p.launch p.route p.locs
  let old := leNat bs
  let new := leBytes n (amoNew op n old b.toNat c.toNat)
  let h := noteReads (h.noteUe p ks) ks
  let h := if op == .cas && old != b.toNat % 2 ^ (8 * n) then h
    else match p.route with
      | .scratch =>
        let x := h.ctx part core
        h.setCtx (x.setRegion ((x.region p.launch).writeScr ((scrOffs p.locs).zip new)))
      | _ =>
        let mem := if op == .cas then p.ptes.foldl (fun m a => setRefD m .atomic a) h.mem else h.mem
        writeKeys { h with mem := mem } (some (part, core)) (ks.zip new)
  let h := if ks.isEmpty then h else dropL1Lines h part core ks
  (if discard then dropL1 h part core else h).mark p.id (List.range p.locs.length) bs []

/-- Before a read past the caches, the stores of its core to the bytes reach their homes. -/
def beforeRead (h : Hw) (k : Key) (r : Route) (ks : List Nat) : Hw :=
  match r with
  | .uncached | .conUncached => drainOutKeys h k.part k.core ks
  | _ => h

/-- A load reads some of its bytes (R292): what its thread has read ahead of them, by a free choice, except on pages of types 2 and 3 (R298,
R299), or what it finds there now. -/
def performRead (h : Hw) (p : Pend) (is : List Nat) (ls : List Loc) : Hw :=
  let c := h.ctx p.key.part p.key.core
  let h := accessAhead h p.key p.route ls
  match (c.aheadOf p.key p.route ls).filter fun _ => !p.device && Config.freeNat h.fresh % 2 == 1 with
  | some (bs, sees) => { h with fresh := h.fresh + 1 }.mark p.id is bs sees
  | none =>
    let ks := physKeys ls
    let h := beforeRead h p.key p.route ks
    let c := h.ctx p.key.part p.key.core
    let sees := match p.route with
      | .l1 | .con => c.outFrom ks
      | .uncached | .conUncached => wcFrom c p.key ks
      | .scratch => []
    let bs := readLocs h p.key p.launch p.route ls
    (if p.route == .scratch then { h with fresh := h.fresh + 1 } else fillRoute (h.noteUe p ks) p.key p.route ks).mark p.id is bs sees

/-- A thread reads ahead the aligned 8 bytes at a place (R298, R299): as a load of it would, but for bytes of poisoned memory, which only a
load consumes (R371), and of absent lines, which no access reaches (R173). -/
def readAhead (h : Hw) (t : Thread) (r : Route) (place : Nat) : Hw :=
  let offs := (List.range 8).map fun i => place / 8 * 8 + i
  let ls := offs.map fun o => if r == .scratch then Loc.scr o else Loc.phys o
  let ks := physKeys ls
  let region := (h.ctx t.key.part t.key.core).region t.launch
  if (ks.any fun k => (h.poison.any fun p => p.granule == granuleOf k) || h.latent.any fun l => l.granule == granuleOf k) ||
      (r == .scratch && region.absentAt offs) then h
  else
    let h := beforeRead (accessAhead h t.key r ls) t.key r ks
    let c := h.ctx t.key.part t.key.core
    let sees := match r with
      | .l1 | .con => c.outFrom ks
      | .uncached | .conUncached => wcFrom c t.key ks
      | .scratch => []
    let a : Ahead := ⟨t.key, r, ls.zip (readLocs h t.key t.launch r ls), sees⟩
    let h := if r == .scratch then h else fillRoute h t.key r ks
    let c := h.ctx t.key.part t.key.core
    h.setCtx { c with ahead := a :: c.ahead }

/-- A store has been performed whole: it clears the poison of a granule that it covers, whose bytes reach their homes with it (R371). -/
def healStore (h : Hw) (p : Pend) : Hw :=
  let ks := physKeys p.locs
  let ill (g : Nat) : Bool := wholeGranule ks g && ((h.poison.any fun x => x.granule == g) || h.latent.any fun x => x.granule == g)
  let due := ks.filter fun k => keyIsDevice k && ill (granuleOf k)
  if due.isEmpty then h
  else
    let h := drainOutKeys h p.key.part p.key.core due
    let h := if p.mts.contains 1 then wcDrain h p.key.part p.key.core fun l => l.bytes.any fun x => due.contains x.key else h
    clearPoison h due

/-- Some bytes of an access are performed (R292): a load reads them; a store puts them where its core sees them or, where `home` says so, to
their homes, into a write-combining buffer, or home (R283, R294, R298). -/
def performBytes (h : Hw) (id : Nat) (ls : List Loc) (home : Bool) : Hw :=
  match h.pends.find? fun q => q.id == id with
  | none => h
  | some p =>
    let is := p.todo.filter fun i => match p.locs[i]? with
      | some l => ls.contains l
      | none => false
    let mine := is.filterMap fun i => p.locs[i]?
    let part := p.key.part
    let core := p.key.core
    match p.kind with
    | .load _ | .xload _ _ _ | .sload _ _ _ => performRead h p is mine
    | .store data =>
      let at_ (i : Nat) : Byte := data.getD i 0
      let h := accessAhead h p.key p.route mine
      let h := match p.route with
        | .scratch =>
          let h := drainSeen h part core p.sees
          let x := h.ctx part core
          h.setCtx (x.setRegion ((x.region p.launch).writeScr ((scrOffs mine).zip (is.map at_))))
        | _ =>
          let type (i : Nat) : Nat := if p.route == Route.uncached && p.mts.getD i 0 == 0 then 2 else p.mts.getD i 0
          landStore { h with nextId := h.nextId + 1 } p.key p.gang h.nextId p.sees p.pages home
            ((physKeys mine).zip (is.map fun i => (at_ i, type i)))
      let h := h.mark id is (is.map at_) []
      if is.length == p.todo.length then healStore h p else h
    | .atomic op n b c _ discard => performAtomic h p op n b c discard
    | .spawn _ _ | .await _ _ => h

/-- The stores of a gang to some of these bytes. -/
def gangStores (h : Hw) (gang : Nat) (ls : List Loc) : List Pend := h.pends.filter fun q => q.isStore && q.gang == gang && !(q.over ls).isEmpty

/-- The bytes that a gang stores together with some: those of the units that hold some of them, and so on (R174, R176). The first argument
bounds the number of stores. -/
def gangLocs (h : Hw) (gang : Nat) : Nat → List Loc → List Loc
  | 0, ls => ls
  | f + 1, ls => gangLocs h gang f (nub (ls ++ (gangStores h gang ls).flatMap fun q => q.locsOf (q.over ls)))

/-- What comes before accesses on some bytes: the units of others that are performed first. -/
def dueBefore (h : Hw) (mates : List Pend) (ls : List Loc) : List (Nat × List Nat) :=
  h.pends.filterMap fun q =>
    let us := nub (mates.flatMap fun g => q.before g ls)
    if us.isEmpty || mates.any fun g => g.id == q.id then none else some (q.id, us)

/-- The thread of an access waits for the host's action on it (R406): it is not performed meanwhile. -/
def Hw.heldByPeer (h : Hw) (id : Nat) : Bool := h.threads.any fun t => t.park == .peer id

/-- One unit of an access is performed: first, by `first`, what comes before it; then its bytes, and with a store those that other
threads of its gang store to the same bytes, in ascending TID (R174). It is not while it, or what comes before it, is held for a peer (R406). A
store to bytes that no other thread of its gang stores to may go home before its core sees it (R298). -/
def performUnit (first : Hw → Nat → List Nat → Hw) (home : Bool) (h : Hw) (id u : Nat) : Hw :=
  match h.pends.find? fun q => q.id == id with
  | none => h
  | some p =>
    let ls := p.locsOf [u]
    if ls.isEmpty then h
    else
      let ls := if p.isStore then gangLocs h p.gang h.pends.length ls else ls
      let mates := if p.isStore then gangStores h p.gang ls else [p]
      let h := (dueBefore h mates ls).foldl (fun h x => first h x.1 x.2) h
      if (mates.any fun g => h.heldByPeer g.id) || !(dueBefore h mates ls).isEmpty then h
      else
        let home := home && decide (mates.length ≤ 1)
        let h := mates.foldl (fun h q => performBytes h q.id ls home) (if p.isStore then { h with fresh := h.fresh + 1 } else h)
        if p.isStore && p.mts.contains 1 then wcDrainFull h p.key.part p.key.core else h

/-- Units of an access are performed, after what comes before them; on pages of types 1 to 3 the bytes of an access are performed in
ascending address (R283). The first argument bounds the length of the chains of accesses that come before one another. -/
def performAt (home : Bool) : Nat → Hw → Nat → List Nat → Hw
  | 0, h, _, _ => h
  | f + 1, h, id, us =>
    match h.pends.find? fun q => q.id == id with
    | none => h
    | some p =>
      let us := if p.mts.any fun t => t != 0 then p.units.filter fun u => us.any fun v => decide (u ≤ v) else us
      us.foldl (fun h u => performUnit (performAt home f) home h id u) h

/-- An outstanding access is performed whole. -/
def perform (h : Hw) (p : Pend) : Hw := performAt false (h.pends.length + 1) h p.id p.units

/-- Perform every outstanding access of a thread, in issue order (R184, R190, R160, R162, R234). -/
def performAll (h : Hw) (k : Key) (tid : BitVec 32) (launch : Nat) : Hw :=
  (h.pends.filter fun p => p.key == k && p.tid == tid && p.launch == launch).foldl perform h

/-! ### Fault records (R361 to R364) -/

/-- The contents of a fault record but for seq (R361). -/
structure Rec where
  cause : Nat
  detail : Nat
  flags : Nat
  core : Nat
  tid : Nat
  ip : DWord
  val : DWord
  sub : Nat
  cls : Nat
deriving DecidableEq, Repr, Inhabited

/-- The 32 bytes of a record, without the mark of a loss (R361). -/
def Rec.bytes (r : Rec) (seq : Nat) : List Byte :=
  leBytes 1 r.cause ++ leBytes 1 r.detail ++ leBytes 1 r.flags ++ leBytes 1 r.core ++ leBytes 4 r.tid ++
  leBytes 8 r.ip.toNat ++ leBytes 8 r.val.toNat ++ leBytes 4 seq ++ leBytes 1 r.sub ++ leBytes 1 r.cls ++ leBytes 2 0

/-- The partition itself, as it makes accesses (R314, R364). -/
def systemWho (part : Nat) : Who := ⟨part, 0, none, none⟩

/-- The keys of translated bytes. -/
def xkeys (xs : Xlated) : List Nat := xs.map fun (x : DWord × Nat × TlbEntry) => x.2.1

/-- The partition itself writes bytes. -/
def systemWrite (s : State) (part : Nat) (xs : Xlated) (bs : List Byte) : State :=
  s.mapHw fun h => writeKeys (touch h (systemWho part) .store xs) none ((xkeys xs).zip bs)

/-- The records of a launch that has ended, and that are still to be written, take another loss mark and pending bit (R364). -/
def setGone (s : State) (part launch : Nat) (g : Option (Bool × Bool)) : State :=
  s.mapHw fun h => { h with records := h.records.map fun x => if x.part == part && x.launch == launch then { x with gone := g } else x }

/-- A record is in its launch's fault area: its launch's interrupt is due, unless it is still unacknowledged (R364). `gone` is the loss mark and
the pending bit of a launch that has ended. -/
def recordWritten (s : State) (part launch : Nat) (gone : Option (Bool × Bool)) : State :=
  match s.hw.launch? part launch, gone with
  | some l, _ => if l.irq then s else (s.mapHw fun h => h.setLaunch { l with irq := true }).emit (.msix (part + 1) 0)
  | none, some (m, irq) => if irq then s else (setGone s part launch (some (m, true))).emit (.msix (part + 1) 0)
  | none, none => s.emit (.msix (part + 1) 0)

/-- A record of a launch is lost (R364). -/
def recordLost (s : State) (part launch : Nat) (gone : Option (Bool × Bool)) : State :=
  match s.hw.launch? part launch, gone with
  | some l, _ => recordWritten (s.mapHw fun h => h.setLaunch { l with lost := l.lost + 1, lossMark := true }) part launch gone
  | none, some (_, irq) => recordWritten (setGone s part launch (some (true, irq))) part launch (some (true, irq))
  | none, none => s.emit (.msix (part + 1) 0)

/-- The bytes of a record with the mark that records were lost before it (R361, R364). -/
def markLoss (bs : List Byte) : List Byte := bs.set 2 (bs.getD 2 0 ||| 16#8)

/-- A record begins to be written: it carries the mark of records lost since the last one that was written (R364). -/
def beginRecord (s : State) (r : RecWait) : State × RecWait :=
  match s.hw.launch? r.part r.launch, r.gone with
  | some l, _ => (s.mapHw fun h => h.setLaunch { l with lossMark := false }, if l.lossMark then { r with bytes := markLoss r.bytes } else r)
  | none, some (m, irq) => (setGone s r.part r.launch (some (false, irq)),
      { r with gone := some (false, irq), bytes := if m then markLoss r.bytes else r.bytes })
  | none, none => (s, r)

/-- A record is written whole. -/
def writeRecord (s : State) (xs : Xlated) (r : RecWait) : State :=
  let (s, r) := beginRecord s r
  recordWritten (systemWrite s r.part xs r.bytes) r.part r.launch r.gone

/-- Write a record at its address, in one step or, where `Hw.apart` says so, later in its four parts (R364): where its page is not resident or is staged,
it waits, behind the earlier records of its launch; where it meets a fault, it is lost (R288, R364, R374; the waiting is DEDUCED,
notes/assumptions/31.md). -/
def placeRecord (s : State) (r : RecWait) : State :=
  let hold : State := s.mapHw fun h => { h with records := h.records ++ [r] }
  if (s.hw.records.any fun x => x.part == r.part && x.launch == r.launch) || !r.put.isEmpty then hold
  else match checkGen s (systemWho r.part) .store r.addr r.bytes.length with
    | .ok xs => if s.hw.apart then hold else writeRecord s xs r
    | .error (.fault _) => recordLost s r.part r.launch r.gone
    | .error _ => hold

/-- One of the four 8-byte parts of the first record of a launch that is still to be written is written, single-copy atomic, bytes 24..31 last
(R364). -/
def recordPart (s : State) (part launch n : Nat) : State :=
  match s.hw.records.find? fun x => x.part == part && x.launch == launch with
  | none => s
  | some r =>
    let rest (s : State) (f : List RecWait → List RecWait) : State := s.mapHw fun h =>
      { h with records := f (h.records.filter fun x => x.part == part && x.launch == launch) ++
          h.records.filter fun x => !(x.part == part && x.launch == launch) }
    if 4 ≤ n || r.put.contains n || (n == 3 && r.put.length < 3) then s
    else match checkGen s (systemWho part) .store (r.addr + BitVec.ofNat 64 (8 * n)) 8 with
      | .ok xs =>
        let (s, r) := if r.put.isEmpty then beginRecord s r else (s, r)
        let s := systemWrite s part xs ((r.bytes.drop (8 * n)).take 8)
        if n == 3 then
          let s := s.mapHw fun h => clearCovered h ((List.range 32).map fun i => (xkeys xs).headD 0 - 24 + i) ((xkeys xs).headD 0)
          recordWritten (rest s fun rs => rs.drop 1) part launch r.gone
        else rest s fun rs => { r with put := n :: r.put } :: rs.drop 1
      | .error (.fault _) => recordLost (rest s fun rs => rs.drop 1) part launch r.gone
      | .error _ => s

/-- Append a record to a launch's fault area and signal it (R364). -/
def appendRecord (s : State) (part launch : Nat) (r : Rec) : State :=
  match s.hw.launch? part launch with
  | none => s
  | some l =>
    let s1 := s.mapHw fun h => h.setLaunch { l with seq := l.seq + 1 }
    if l.faddr.toNat % 32 == 0 && 32 * (l.seq + 1) ≤ l.fsize then
      placeRecord s1 ⟨part, launch, l.faddr + BitVec.ofNat 64 (32 * l.seq), r.bytes l.seq, [], none⟩
    else recordLost s1 part launch none

/-! ### Starting, killing and re-queuing a launch -/

/-- The core of a partition with the fewest pending start entries, ties to the lowest logical core (R317). -/
def leastCore (h : Hw) (part : Nat) : Option Nat :=
  minBy (fun c => (h.ctx part c).startq.length) (h.part part).cores

/-- Put a start entry into the start queue of a core. -/
def pushStart (h : Hw) (part core : Nat) (e : StartEntry) : Hw :=
  let c := h.ctx part core
  h.setCtx { c with startq := c.startq ++ [e] }

/-- The pending depth of a core as balancing compares it (R319): its start entries, and those of the unassigned auto-crews that stand at it. -/
def pendingDepth (h : Hw) (part core : Nat) : Nat :=
  (h.ctx part core).startq.length +
    (((h.part part).crewWait.filter fun w => w.core == core).map fun w => w.size).foldl (· + ·) 0

/-- An auto-crew waits for a core that can take it; the core in whose depth its entries count is the one of least depth (DESIGN CHOICE,
notes/assumptions/45.md: R319 has unassigned crews move, and no rule says where they stand). -/
def waitCrew (h : Hw) (part : Nat) (w : CrewWaiting) : Hw :=
  let p := h.part part
  let core := (minBy (fun c => pendingDepth h part c) p.cores).getD 0
  h.setPart { p with crewWait := p.crewWait ++ [{ w with core := core }] }

/-- The blocks of an auto-crew launch (R22): c threads each, the last one partial. -/
def crewBlocks (launch c count : Nat) : List CrewWaiting :=
  (List.range ((count + c - 1) / c)).map fun b => ⟨launch, b, b * c, min c (count - b * c), 0⟩

/-- Give every thread of a launch its start entry, or its place among the waiting auto-crews (R313, R316, R317). -/
def placeLaunch (h : Hw) (l : Launch) : Hw :=
  if l.crewSize == 0 then
    (List.range l.count).foldl (fun h t => match leastCore h l.part with
      | some c => pushStart h l.part c ⟨l.id, t, .plain⟩
      | none => h) h
  else (crewBlocks l.id l.crewSize l.count).foldl (fun h w => waitCrew h l.part w) h

/-- A copy command of a launch, and so on for the other queues: what the killing of a launch removes from a context (R367). Of a
trial's lookup, what it has written or inserted stays (DESIGN CHOICE, notes/assumptions/45.md). -/
def Ctx.purge (c : Ctx) (launch : Nat) : Ctx :=
  let mine (b : Issuer) : Bool := b.launch == launch
  let run (r : Option MxRun) : Option MxRun := r.bind fun x => if mine x.cmd.issuer then none else some x
  { c with
    startq := c.startq.filter fun e => e.launch != launch
    regions := c.regions.filter fun r => r.launch != launch
    resvs := c.resvs.filter fun r => r.launch != launch
    exited := c.exited.filter fun x => x.launch != launch
    mxq := c.mxq.filter fun m => !mine m.issuer
    mxRun := run c.mxRun
    mxSpill := run c.mxSpill
    cpq := c.cpq.filter fun m => !mine m.issuer
    selq := c.selq.filter fun m => !mine m.issuer
    lookups := c.lookups.filter fun m => m.launch != launch }

/-- The threads of a launch stop (R367): accesses in flight and buffered stores complete, but for those that a peer has not answered, which the
host has resumed no more (R406); memberships end, the records leave their slots. -/
def stopThreads (s : State) (part launch : Nat) : State :=
  let ks := (s.allThreads.filter fun t => t.key.part == part && t.launch == launch).map fun t => t.key
  let s := s.mapHw fun h =>
    let h : Hw := { h with pends := h.pends.filter fun p => !(p.key.part == part && p.launch == launch && s.allThreads.any fun t => t.park == .peer p.id) }
    let h := (h.pends.filter fun p => p.key.part == part && p.launch == launch).foldl perform h
    let h := (h.ctxs.filter fun c => c.part == part).foldl (fun (h : Hw) (c : Ctx) =>
      drainOutAll (wcDrain h c.part c.core fun l => ks.any l.holds) c.part c.core) h
    { h with
      pends := h.pends.filter fun p => !(p.key.part == part && p.launch == launch)
      ue := h.ue.filter fun u => !(u.part == part && u.launch == launch) }
  ks.foldl (fun s k => (leaveCrew s k).dropThread k) s

/-- What a request for draw credits is for still exists. -/
def Hw.permitLives (h : Hw) (f : PermitFor) : Bool :=
  match f with
  | .ticket k tid _ _ => h.threads.any fun t => t.key == k && t.tid == tid
  | .matrix _ id => h.ctxs.any fun c => c.mxq.any fun m => m.id == id
  | .copy id => h.ctxs.any fun c => c.cpq.any fun m => m.id == id
  | .select id => h.ctxs.any fun c => c.selq.any fun m => m.id == id

/-- Requests for draw credits of threads and commands that are gone are dropped. -/
def Hw.dropWaits (h : Hw) : Hw :=
  { h with budgets := h.budgets.map fun (b : Budget) =>
      { b with waiting := b.waiting.filter fun q => h.permitLives q.what, served := b.served.filter fun q => h.permitLives q.what } }

/-- The key of an auto-crew of a launch (R22). -/
def autoCrewOf (launch : Nat) (key : DWord) : Bool := key.toNat / 2 ^ 32 == 2 ^ 31 + launch

/-- The ranks reserved for threads of a launch that have not started are given up (R22, R367). -/
def dropReserved (s : State) (part launch : Nat) : State :=
  (s.hw.ctxs.filter fun c => c.part == part).foldl (fun (s : State) (c : Ctx) =>
    (c.crews.filter fun x => autoCrewOf launch x.key).foldl (fun s x =>
      settleCrew (s.mapHw fun h =>
        let d := h.ctx part c.core
        h.setCtx { d with crews := d.crews.map fun y => if y.handle == x.handle then { y with reserved := [] } else y })
        part c.core x.handle) s) s

/-- Everything of a launch leaves the partition's contexts; a staging frame is in use only while its launch lists it (R367, R375). -/
def clearLaunch (s : State) (part launch : Nat) : State :=
  (dropReserved (stopThreads s part launch) part launch).mapHw fun h =>
    let h1 : Hw := { h with ctxs := h.ctxs.map fun (c : Ctx) => if c.part == part then c.purge launch else c }
    let h2 := h1.dropWaits
    let p := h2.part part
    h2.setPart { p with crewWait := p.crewWait.filter fun w => w.launch != launch }

/-- A launch is no longer in flight: its records that are still to be written keep its loss mark and its pending bit (R364). -/
def dropLaunch (s : State) (part launch : Nat) : State :=
  let s := match s.hw.launch? part launch with
    | some l => setGone s part launch (some (l.lossMark, l.irq))
    | none => s
  s.mapHw fun h => { h with launches := h.launches.filter fun l => !(l.part == part && l.id == launch) }

/-- Kill a launch (R367). -/
def killLaunch (s : State) (part launch : Nat) : State := dropLaunch (clearLaunch s part launch) part launch

/-- A RESTARTABLE launch's work is discarded: its staged frames are free (R375). -/
def discardLaunch (s : State) (part launch : Nat) : State :=
  (clearLaunch s part launch).mapHw fun h =>
    match h.launch? part launch with
    | none => h
    | some m => h.setLaunch { m with
        nextTid := m.count, exits := [], staged := [], wants := [], heldPuts := [], ran := [], attempt := m.attempt + 1 }

/-- Discard a RESTARTABLE launch's work, append its REQUEUE record, and dispatch it again under the same id (R375, R381). It keeps
its place in the order of dispatch (DESIGN CHOICE, notes/assumptions/45.md). -/
def requeueLaunch (s : State) (part launch : Nat) (r : Rec) : State :=
  (appendRecord (discardLaunch s part launch) part launch r).mapHw fun h =>
    match h.launch? part launch with
    | none => h
    | some l => placeLaunch h l

/-- A launch consumes an uncorrectable error (R371, R375): re-queued at most three times if RESTARTABLE, else killed, with its
record. `detail` is the class of R370, or 6 for DMR. -/
def consume (s : State) (part launch core : Nat) (tid : Nat) (ip : DWord) (detail flags : Nat) (val : DWord) : State :=
  match s.hw.launch? part launch with
  | none => s
  | some l =>
    if l.restartable && l.attempt < 3 then
      requeueLaunch s part launch ⟨0x0A, 0, flags, core, tid, ip, BitVec.ofNat 64 (l.attempt + 1), 0, 0⟩
    else
      let s := appendRecord s part launch ⟨0x07, detail, flags, core, tid, ip, val, 0, 0⟩
      killLaunch s part launch

/-- Errors counted in ECCCNT (R370): corrected in bits 63:32, uncorrectable in bits 31:0, saturating. -/
def countEcc (v : DWord) (ce ue : Nat) : DWord :=
  let c := min (v.toNat / 2 ^ 32 + ce) (2 ^ 32 - 1)
  let u := min (v.toNat % 2 ^ 32 + ue) (2 ^ 32 - 1)
  BitVec.ofNat 64 (c * 2 ^ 32 + u)

/-- Count an error of a class, and send the PF's vector 2 (R370, R400). -/
def State.ecc (s : State) (cls ce ue : Nat) : State :=
  let s := s.setMod { s.mod with ecc := s.mod.ecc.setIfInBounds cls (countEcc (s.mod.ecc.toArray.getD cls 0) ce ue) }
  s.emit (.msix 0 2)

/-- A launch loses or repeats its work for an error it has consumed (R371): its record names the physical address of the byte (R362). -/
def consumeUe (s : State) (u : Ue) : State :=
  consume (s.mapHw fun h => noteReads h [u.key]) u.part u.launch u.core u.tid u.ip u.cls u.flags (BitVec.ofNat 64 u.key)

/-- The executing thread consumes the error of a byte, with the flags of R361. -/
def State.threadUe (s : State) (flags k : Nat) : Ue :=
  ⟨s.th.key.part, s.th.launch, s.th.key.core, s.th.tid.toNat, s.th.pc, poisonClass s.hw k, flags, k⟩

/-! ### What a step leaves to settle (R288, R364, R370, R371) -/

/-- The latent errors of device memory that a step has read are counted (R370). -/
def countFound (s : State) : State :=
  s.hw.found.foldl (fun s l => if l.double then s.ecc 5 0 1 else s.ecc 5 1 0) (s.mapHw fun h => { h with found := [] })

/-- The errors that a step has consumed take effect, one for each launch (R371). -/
def consumeFound (s : State) : State :=
  let firsts := s.hw.ue.foldl (fun (us : List Ue) u => if us.any fun v => v.part == u.part && v.launch == u.launch then us else us ++ [u]) []
  firsts.foldl consumeUe (s.mapHw fun h => { h with ue := [] })

/-- The records that wait for their pages are tried again. -/
def retryRecords (s : State) : State := s.hw.records.foldl placeRecord (s.mapHw fun h => { h with records := [] })

/-- What follows a step: errors are counted and consumed, and records that waited are written. -/
def settle (s : State) : State :=
  let s := if s.hw.found.isEmpty then s else countFound s
  let s := if s.hw.ue.isEmpty then s else consumeFound s
  if s.hw.records.isEmpty then s else retryRecords s

/-! ### Trials (R54, R346, R347) -/

/-- The clock in which a trial that ends now reaches the lookup (R355): that of one of its gang, or, by a free choice, that of another of the
same time, for several clocks may pass in one value of TIME. -/
def lookupClk (h : Hw) (c : Ctx) (time : Nat) : Nat :=
  match c.lookups.find? fun y => y.gang == h.gang with
  | some y => y.clk
  | none => match c.lookups.reverse.find? fun y => y.since == time && Config.freeBool h.fresh with
    | some y => y.clk
    | none => h.nextId

/-- The executing trial thread ends with a verdict: its lookup is due and its thread slot is free (R352, R357). -/
def endTrial (s : State) (verdict : Nat) : State :=
  match s.th.trial with
  | none => s
  | some r =>
    let t := s.th
    let used := r.req.fuel.toNat - t.fuel.toNat
    let x : Lookup := { id := s.hw.nextId, gang := s.hw.gang, req := r.req, tid := t.tid, launch := t.launch, verdict := verdict, done := r.done,
                        used := used, sig := t.sig, sign := t.sign, since := s.time,
                        clk := lookupClk s.hw (s.hw.ctx t.key.part t.key.core) s.time, probed := 0, answer := none, put := 0, wrote := [] }
    let s := s.mapHw fun h =>
      let h := performAll h t.key t.tid t.launch
      let c := h.ctx t.key.part t.key.core
      { h.setCtx { c with lookups := c.lookups ++ [x] } with
        nextId := h.nextId + 1, fresh := h.fresh + 1, pends := h.pends.filter fun p => !p.ofThread t }
    s.dropThread t.key

/-- The verdict of a local trap in a trial (R54): EMPTY 12, XREG 10, any other 11. -/
def trapVerdict (cause : BitVec 8) : Nat := if cause == 0x90#8 then 12 else if cause == 0x91#8 then 10 else 11

/-- The verdict of a supervisor fault in a trial (R54, R101, R359): addresses and watchdog 9, ILL 10, RDVZ 13. -/
def faultVerdict (cause : BitVec 8) : Nat :=
  if cause == 1#8 || cause == 2#8 || cause == 5#8 then 9 else if cause == 4#8 then 13 else 10

/-! ### Taking a fault or a trap -/

/-- The executing thread takes a supervisor fault (R360): it parks at the instruction and the record is appended; in a trial the
fault becomes the verdict. -/
def takeFault (s : State) (f : SupFault) : State :=
  if s.th.trial.isSome then endTrial s (faultVerdict f.cause)
  else
    let t := s.th
    let s := s.setTh { t with park := .fault, wait := .none }
    appendRecord s t.key.part t.launch
      ⟨f.cause.toNat, f.detail.toNat, (if f.store then 1 else 0) + (if f.fetch then 2 else 0), t.key.core, t.tid.toNat, t.pc, f.val,
        f.sub.toNat, 0⟩

/-- The sticky flags that a trapping instruction sets all the same (R50). -/
def Thread.stickyOr (t : Thread) (xf : BitVec 6) (fc : BitVec 25) : Thread :=
  { t with xflags := t.xflags ||| xf, fcsr := t.fcsr ||| fc }

/-- The executing thread takes a local trap (R50): to the handler of LTV, or escalated to a supervisor fault; in a trial the trap
becomes the verdict. That a trap sets the sticky flags also where it escalates, although a supervisor fault leaves no effect of its instruction
(R360), is a DESIGN CHOICE (notes/assumptions/45.md). -/
def takeTrap (s : State) (cause det : BitVec 8) (val : DWord) (xf : BitVec 6) (fc : BitVec 25) : State :=
  let s := s.setTh (s.th.stickyOr xf fc)
  if s.th.trial.isSome then endTrial s (trapVerdict cause)
  else if s.th.tstate || s.th.ltv == 0#64 then
    takeFault s ⟨6, if s.th.tstate then 0 else 1, false, false, val, cause⟩
  else
    let t := s.th
    s.setTh { t with
      ltip := t.pc, ltc := det ++ cause, ltval := val, tstate := true, pc := t.ltv, wait := .none, charged := false, latch := none, dmrMiss := false }

/-- Return from a local trap (R52): TSTATE.T is cleared and the thread goes on at an address. -/
def Thread.returnTo (t : Thread) (pc : DWord) : Thread :=
  { t with pc := pc, tstate := false, wait := .none, charged := false, latch := none, dmrMiss := false }

/-- When a wait began: a thread that already waits keeps its measure (R368). -/
def Wait.since (w : Wait) (now : Nat) : Nat :=
  match w with
  | .retry _ t => t
  | _ => now

/-- The pieces of pages whose first write by a launch, of a thread or of an engine, waits for staging (R373). -/
def wantPages (s : State) (part launch : Nat) (k : Option Key) (ps : List Nat) : State :=
  match s.hw.launch? part launch with
  | some l => s.mapHw fun h => h.setLaunch { l with wants := nub (l.wants ++ ps.map fun v => (v, k)) }
  | none => s

/-- The executing instruction does not complete. -/
def stopped (s : State) (e : Stop) : State :=
  match e with
  | .wait k => s.setTh { s.th with wait := .retry k (s.th.wait.since s.time) }
  | .stage ps => (wantPages s s.th.key.part s.th.launch (some s.th.key) ps).setTh { s.th with wait := .retry .staging (s.th.wait.since s.time) }
  | .trap c d v xf fc => takeTrap s c d v xf fc
  | .fault f => takeFault s f
  | .consumed u => consumeUe s u
  | .lostStore f xs => takeFault (s.mapHw fun h => writeKeys h (some (s.th.key.part, s.th.key.core)) xs) f

/-! ### The frame of an instruction -/

/-- The fuel an instruction costs (R141, R229, R347). -/
def fuelCost (t : Thread) (i : Instr) : Nat :=
  if !t.guard i then 1
  else match i with
    | .xmul _ | .xfma _ | .xdiv _ | .xsqrt _ => zxfLength t.p / 32
    | _ => 1

/-- The charge of R347: nothing outside a trial or for an instruction already charged; `none` when FUEL is less than the cost. -/
def Thread.charge (t : Thread) (i : Instr) : Option Thread :=
  if t.trial.isNone || t.charged then some t
  else if t.fuel.toNat < fuelCost t i then none
  else some { t with fuel := t.fuel - BitVec.ofNat 64 (fuelCost t i), charged := true }

/-- The trial has less FUEL than its next instruction costs; FUEL_EXHAUSTED ends it (R347). -/
def Thread.starve (t : Thread) : Thread := { t with trial := t.trial.map fun r => { r with starved := true } }

/-- Instructions that end a trial with FAULT.ill (R54, R239). -/
def trialForbidden (i : Instr) : Bool :=
  match i.form with
  | .lane major _ _ _ => major == 14
  | .scalar major minor _ _ =>
    (major == 8 && minor == 2) || major == 9 || major == 13 || major == 14 || major == 15 || major == 16 ||
    (major == 17 && minor != 2)
  | _ => false

/-- The first word of an instruction, for the val of ILL (R362). -/
def firstWord (i : Instr) : Word := (encode i).headD 0

/-- ILL raised by an instruction with a detail of R109. -/
def ill (i : Instr) (detail : BitVec 8) : Stop := illFault detail (firstWord i)

/-- The executing thread has completed its instruction and goes on after it. -/
def State.advance (s : State) (len : Nat) : State := s.setTh (s.th.past len)

/-- The executing thread has completed its instruction and goes on at its PC. -/
def State.settled (s : State) : State := s.setTh { s.th with wait := .none, charged := false, latch := none, dmrMiss := false }

/-- The frame of every instruction: check 5 of R101, the charge (R347), the guard (R141), the limits of a trial (R54), then its own
effect. -/
def enter (i : Instr) (s : State) (k : State → State) : Host.Outcome State Fault Refusal :=
  if !s.th.regsOk i then .next (stopped s (ill i 3))
  else match s.th.charge i with
    | none => .next (s.setTh s.th.starve)
    | some t =>
      let s := s.setTh t
      if !s.th.guard i then .next (s.advance i.length)
      else if s.th.trial.isSome && trialForbidden i then .next (endTrial s 10)
      else .next (k s)

/-- An instruction whose thread goes on after it. -/
def run (i : Instr) (s : State) (body : State → Except Stop State) : Host.Outcome State Fault Refusal :=
  enter i s fun s => match body s with
    | .ok s' => s'.advance i.length
    | .error e => stopped s e

/-- An instruction of the thread alone. -/
def runTh (i : Instr) (s : State) (body : Thread → Except Stop Thread) : Host.Outcome State Fault Refusal :=
  enter i s fun s => match body s.th with
    | .ok t => (s.setTh t).advance i.length
    | .error e => stopped s e

/-- An instruction that sets the PC itself. -/
def runJump (i : Instr) (s : State) (body : State → Except Stop State) : Host.Outcome State Fault Refusal :=
  enter i s fun s => match body s with
    | .ok s' => s'.settled
    | .error e => stopped s e

/-- An instruction after which the thread may be held, at the instruction, by what it has begun. -/
def runHeld (i : Instr) (s : State) (body : State → Except Stop State) : Host.Outcome State Fault Refusal :=
  enter i s fun s => match body s with
    | .ok s' => s'
    | .error e => stopped s e

/-- The executing thread is held at its instruction until the event it waits for. -/
def State.hold (s : State) (k : WaitKind) : State :=
  s.setTh { s.th with wait := .held k (s.th.wait.since s.time) }

/-- What performing accesses has met: an error that is consumed stops the instruction (R371), and where one that is to be performed first is
held for a peer (R406), the thread waits as for the data of a load (which of the waits of R368 that is, is a DESIGN CHOICE,
notes/assumptions/45.md). `left` tells the accesses that had to be performed. -/
def unlessConsumed (s : State) (left : Pend → Bool) : Except Stop State :=
  match s.hw.ue with
  | [] => if s.hw.pends.any fun p => left p && !p.todo.isEmpty then .error (.wait .scalarLoad) else .ok s
  | u :: _ => .error (.consumed u)

/-- Perform every outstanding access of the executing thread; a poisoned one is consumed (R371). -/
def flush (s : State) : Except Stop State :=
  unlessConsumed (s.mapHw fun h => performAll h s.th.key s.th.tid s.th.launch) fun p => p.ofThread s.th

/-- An event whose conditions do not hold in this state changes nothing. -/
def whenEnabled (c : Bool) (s : State) (s' : State) : Host.Outcome State Fault Refusal := .next (if c then s' else s)

end Sys2Proof.Machine
end

