-- ==== Sys2Proof/Machine/Fetch.lean ====
section
/-!
DEFINITION. Sys2Proof/Machine/Fetch.lean: which threads may issue (R9, R14, R324, R378), fetching an instruction (checks 1 to 4 of
R101, R85, R343, R395), and placing a program so that the next step runs its first instruction.
-/
namespace Sys2Proof.Machine

/-- The key that a fetch through a code version reads: the frame of the version's latest overlay of the page, else the page's own
(R395). -/
def overlayKey (p : Part) (ver ea key : Nat) : Nat :=
  let os := p.overlays.filter fun o => o.page == ea / 4096 * 4096 && o.ver ≤ ver
  match minBy (fun o => ver - o.ver) os with
  | some o => devKey (o.frame + ea % 4096)
  | none => key

/-- The code version of a launch (R398). -/
def Hw.version (h : Hw) (part launch : Nat) : Nat := ((h.launch? part launch).map fun l => l.ver).getD (h.part part).ver

/-- The keys that a fetch through a code version reads (R278, R395). -/
def fetchKeys (s : State) (w : Who) (ver : Nat) (ea : DWord) (n : Nat) : Except Stop (List Nat × Xlated) :=
  match checkGen s w .fetch ea n with
  | .error e => .error e
  | .ok xs => .ok (xs.map fun (x : DWord × Nat × TlbEntry) => overlayKey (s.hw.part w.part) ver x.1.toNat x.2.1, xs)

/-- The bytes that the partition itself reads through a code version, and what the read leaves behind; with the first
poisoned one (R371, R395). -/
def codeBytes (s : State) (part ver : Nat) (ea : DWord) (n : Nat) : Except Stop (List Byte × Option Nat × State) :=
  match fetchKeys s (systemWho part) ver ea n with
  | .error e => .error e
  | .ok (ks, xs) =>
    .ok (ks.map fun k => sget s.hw.mem k, poisonOf s.hw ks, s.mapHw fun h => noteReads (touch h (systemWho part) .fetch xs) ks)

/-- Who the executing thread is to the access checks. -/
def State.who (s : State) : Who := ⟨s.th.key.part, s.th.launch, some s.th.key, some s.th.picker⟩

/-- The bytes of an instruction fetch of the executing thread, through the core's instruction cache (R266, R271), and what the fetch leaves
behind. A request to a peer may get no response: a free choice (R406). That a cached line may show what its code was when it was filled is a DESIGN CHOICE (notes/assumptions/12.md): no rule discards
it but the code version. -/
def fetchBytes (s : State) (ver : Nat) (ea : DWord) (n : Nat) : Except Stop (List Byte × State) :=
  match fetchKeys s s.who ver ea n with
  | .error e => .error e
  | .ok (ks, xs) =>
    match poisonOf s.hw ks, (xs.zip ks).find? fun x => keyIsPeer x.2 && Config.freeBool s.hw.fresh with
    | some k, _ => .error (.consumed (s.threadUe 2 k))
    | none, some x => .error (xlateFault .fetch x.1.1)
    | none, none =>
      let c := s.hw.ctx s.th.key.part s.th.key.core
      let choice := Config.freeBool s.hw.fresh
      .ok (ks.map fun k => cacheByte c.icache (sget s.hw.mem k) choice (codeKey ver k),
        s.mapHw fun h =>
          let h := noteReads (touch h s.who .fetch xs) ks
          let c := h.ctx s.th.key.part s.th.key.core
          h.setCtx { c with icache := ks.foldl (fun x k => x.fill codeLines (!choice) (codeKey ver k)) c.icache })

/-- The code-bank bytes a trial may fetch (R343). -/
def TrialReq.covers (r : TrialReq) (ea : Nat) : Bool := r.slot * 256 ≤ ea && ea + 4 ≤ (r.slot + r.nslot) * 256

/-- A byte of the code bank as a running trial sees it (R253, R343). -/
def TrialRun.bankByte (r : TrialRun) (bank : Memory) (off : Nat) : Byte :=
  ((r.old.find? fun x => x.1 == off).map Prod.snd).getD (sget bank off)

/-- Fetch one word for the executing thread: through its launch's version, or, in a trial, from the code bank (R343). -/
def fetchWord (s : State) (ea : DWord) : Except Stop (Word × State) :=
  let t := s.th
  match t.trial with
  | some r =>
    if r.req.covers ea.toNat then
      let bank := (s.hw.ctx t.key.part t.key.core).bank
      .ok (BitVec.ofNat 32 (leNat ((List.range 4).map fun i => r.bankByte bank (ea.toNat + i))), s)
    else .error (xlateFault .fetch ea)
  | none => match fetchBytes s (s.hw.version t.key.part t.launch) ea 4 with
    | .ok (bs, s) => .ok (BitVec.ofNat 32 (leNat bs), s)
    | .error e => .error e

/-- The detail of ILL for a word that decodes to no instruction (R109). -/
def DecodeError.detail : DecodeError → BitVec 8
  | .reserved => 2
  | .register => 3

/-- Fetch and decode the instruction at the PC (checks 1 to 4 of R101). -/
def fetch (s : State) : Except Stop (Instr × State) :=
  match fetchWord s s.th.pc with
  | .error e => .error e
  | .ok (w0, s) =>
    match (if hasExtension w0 then fetchWord s (s.th.pc + 4) else .ok (0, s)) with
    | .error e => .error e
    | .ok (w1, s) => match decode s.th.mode w0 w1 with
      | .ok i => .ok (i, s)
      | .error e => .error (illFault (DecodeError.detail e) w0)

/-- A core of a partition runs: the partition is active and not halting (R323, R324), and the core is not in a migration (R378). -/
def coreRuns (h : Hw) (part core : Nat) : Bool :=
  let p := h.part part
  p.active && p.swap == .none && !(h.cores.any fun c => c.use == .moving core)

/-- A thread may issue: it is not parked, no event holds it, its trial neither folds, nor waits for its inputs, nor has run out of fuel,
and its core runs. -/
def mayIssue (s : State) (t : Thread) : Bool :=
  t.park == .none &&
  (match t.wait with
    | .held _ _ => false
    | _ => true) &&
  (match t.trial with
    | some r => !r.folding && !r.starved && !r.loading
    | none => true) &&
  coreRuns s.hw t.key.part t.key.core

/-- A thread's record is taken out for its instruction. -/
def State.enterThread (s : State) (t : Thread) : State :=
  { s with th := t, hw := { s.hw with threads := s.hw.threads.filter fun u => !(u.key == t.key) } }

/-- The executing thread's record goes back among the resident threads, unless it has left its slot. -/
def State.leaveThread (s : State) : State :=
  if s.th.live then { s with th := Thread.idle, hw := { s.hw with threads := s.th :: s.hw.threads } }
  else { s with th := Thread.idle }

/-- The moves of a gang (R14, R15): the chosen threads that may issue with the first one's picker, PC and launch, in ascending TID. -/
def gangMoves (s : State) (part core : Nat) (slots : List Nat) : List Move :=
  let ts := (nub slots).filterMap fun n => s.thread? ⟨part, core, n⟩
  let ts := ts.filter fun t => mayIssue s t
  match ts with
  | [] => []
  | t :: _ =>
    let same := ts.filter fun u => u.picker == t.picker && u.pc == t.pc && u.launch == t.launch && u.trial.isSome == t.trial.isSome
    ((sortBy (fun (u : Thread) => u.tid.toNat) same).take 32).map fun u => Move.issue u.key

/-! ### Placing an instruction where the next step fetches it -/

/-- The record of the launch that a placed instruction belongs to: launch 1 of partition 0, one thread, no wait, no fault area. -/
def placedLaunch : Launch :=
  { part := 0, id := 1, order := 0, hdr := 0, count := 1, prio := 0, arg := 0, sigaddr := 0, faddr := 0, fsize := 0, entry := 0,
    ltv := 0, win := 128, mode := .z3, crewSize := 0, scr := 524288, obuf := 524288, acc := 1024, restartable := false,
    scangated := false, dmr := false, trialhost := true, ver := 1, nextTid := 1, exits := [], seq := 0, lost := 0,
    lossMark := false, irq := false, attempt := 0, staged := [], wants := [], heldPuts := [], ran := [] }

/-- The thread of a placed instruction, in the state of R11 with W = 128. -/
def placedThread : Thread :=
  { Thread.idle with
    live := true, launch := 1, win := 128, cells := List.replicate 128 ⟨0, true, .plain⟩, tile := 5, prec := 0x31,
    seed := 0x100000000 }

/-- Where the tables and the page of a placed instruction lie: the root, its level 1 table, and a 1 GiB page (R275, R276). -/
def placedRoot : Nat := 0x100000
def placedTable : Nat := 0x101000
def placedPage : Nat := 0x40000000

/-- The memory of a placed instruction of eight bytes at virtual address 0: the two page-table entries and the code. -/
def placedMem (m : Memory) (bs : List Byte) : Memory :=
  let m := writeBytes m placedRoot (leBytes 8 (placedTable + 1))
  let m := writeBytes m placedTable (leBytes 8 (2 ^ 56 + placedPage + 11))
  writeBytes m placedPage bs

/-- Replace the element of a list that satisfies `p`, or add one. -/
def putBy {α : Type} (p : α → Bool) (v : α) (xs : List α) : List α :=
  if xs.any p then replaceFirst p v xs else v :: xs

/-- The hardware with an instruction placed for thread slot 0 of core 0 of partition 0. -/
def placeCode (h : Hw) (bs : List Byte) : Hw :=
  let p := { h.part 0 with
    active := true, swap := .none, xlroot := BitVec.ofNat 64 (placedRoot + 1), tlb := [], overlays := [],
    nextLaunch := max 2 (h.part 0).nextLaunch }
  let c := { h.ctx 0 0 with regions := [⟨1, [], [], [], []⟩], tlb := [], utlb := [], icache := .empty }
  { h with
    threads := placedThread :: h.threads.filter fun t => !(t.key == placedThread.key)
    parts := putBy (fun q => q.idx == 0) p h.parts
    ctxs := putBy (fun d => d.part == 0 && d.core == 0) c h.ctxs
    launches := placedLaunch :: h.launches.filter fun l => !(l.part == 0 && l.id == 1)
    cores := h.cores.map fun x => if x.use == .moving 0 then { x with use := .serving 0 } else x
    poison := [], latent := [], found := [], ue := [], records := []
    mem := placedMem h.mem bs }

end Sys2Proof.Machine
end

