-- ==== Sys2Proof/Machine/LaneInt.lean ====
section
/-!
DEFINITION. Sys2Proof/Machine/LaneInt.lean: the majors IALU, ISHIFT, IMUL, IBIT, ICMP/ISEL/IORD and MOVE (R149 to R154).
-/
namespace Sys2Proof.Machine

/-! ### Element functions (R150): `sg` is kind .i, `w` the element width, `a` and `b` the bit patterns -/

/-- The value of an element by its kind. -/
def elemVal (sg : Bool) (w x : Nat) : Int := intOf w sg x

def elAdd (sg : Bool) (w a b : Nat) : Int := elemVal sg w a + elemVal sg w b
def elSub (sg : Bool) (w a b : Nat) : Int := elemVal sg w a - elemVal sg w b
def elMin (sg : Bool) (w a b : Nat) : Int := min (elemVal sg w a) (elemVal sg w b)
def elMax (sg : Bool) (w a b : Nat) : Int := max (elemVal sg w a) (elemVal sg w b)
def elAbs (w a : Nat) : Int := (intOf w true a).natAbs
def elAnd (a b : Nat) : Int := (a &&& b : Nat)
def elOr (a b : Nat) : Int := (a ||| b : Nat)
def elXor (a b : Nat) : Int := (a ^^^ b : Nat)
def elAndn (w a b : Nat) : Int := (a &&& (2 ^ w - 1 - b) : Nat)
def elShl (w a b : Nat) : Int := (a * 2 ^ (b % w) : Nat)
def elShr (w a b : Nat) : Int := (a / 2 ^ (b % w) : Nat)
def elSar (w a b : Nat) : Int := intOf w true a / ((2 ^ (b % w) : Nat) : Int)
def elRotl (w a b : Nat) : Int := (a * 2 ^ (b % w) + a / 2 ^ (w - b % w) : Nat)
def elMul (a b : Nat) : Int := (a * b : Nat)
def elMulh (sg : Bool) (w a b : Nat) : Int := elemVal sg w a * elemVal sg w b / ((2 ^ w : Nat) : Int)

/-- The quotient, rounded toward zero; all ones for a zero divisor (R144). -/
def elDiv (sg : Bool) (w a b : Nat) : Int := if b == 0 then -1 else Int.tdiv (elemVal sg w a) (elemVal sg w b)

/-- The remainder with the sign of the dividend; the dividend for a zero divisor (R144). -/
def elRem (sg : Bool) (w a b : Nat) : Int := if b == 0 then a else Int.tmod (elemVal sg w a) (elemVal sg w b)

/-- The number of zero bits above the highest 1 among the low `w` bits (R59). -/
def elClz (w a : Nat) : Nat := if a == 0 then w else w - 1 - Nat.log2 a

/-- The number of zero bits below the lowest 1 among the low `w` bits (R59). -/
def elCtz : Nat → Nat → Nat
  | 0, _ => 0
  | w + 1, a => if a % 2 == 1 then 0 else 1 + elCtz w (a / 2)

/-- The 1-based index of the lowest 1, 0 for none (R59). -/
def elFfs (w a : Nat) : Nat := if a == 0 then 0 else elCtz w a + 1

/-- The number of 1s among the low `w` bits (R59). -/
def elPopc : Nat → Nat → Nat
  | 0, _ => 0
  | w + 1, a => a % 2 + elPopc w (a / 2)

/-- Bit i moves to bit w − 1 − i (R59). -/
def elBrev : Nat → Nat → Nat
  | 0, _ => 0
  | w + 1, a => a % 2 * 2 ^ w + elBrev w (a / 2)

/-- The position and length of a field descriptor (R146). -/
def fieldOf (w b : Nat) : Nat × Nat :=
  let pos := b % 64
  let len := b / 256 % 128
  (pos, if w ≤ pos then 0 else min len (w - pos))

/-- BFX and IBFX (R146). -/
def elBfx (sx : Bool) (w a b : Nat) : Nat :=
  let (pos, len) := fieldOf w b
  let f := a / 2 ^ pos % 2 ^ len
  if sx && decide (0 < len) && f / 2 ^ (len - 1) == 1 then f + (2 ^ w - 2 ^ len) else f

/-- BFI and IBFI (R146): the low len bits of `c` inserted into `a`. -/
def elBfi (w a b c : Nat) : Nat :=
  let (pos, len) := fieldOf w b
  let low := a % 2 ^ pos
  let high := a / 2 ^ (pos + len)
  low + c % 2 ^ len * 2 ^ pos + high * 2 ^ (pos + len)

/-! ### Shapes -/

/-- The bit pattern of a result and, for a narrow destination, its value: each element by `f`, clamped with .sat (R150, R151). -/
def intResult (m : BitVec 5) (f : Nat → Int) : Nat × Int :=
  let (w, n) := intWidth m
  let v := mapElems w n fun j => patOf w (if m[4] then (saturate w (isSigned m) (f j)).1 else f j)
  (v, if m[4] then f 0 else elemVal (isSigned m) w (patOf w (f 0)))

/-- The result of an instruction whose element j is `f w (a_j) (b_j) (c_j)`, as the thread writes it. -/
def Thread.intDo (t : Thread) (o : LaneOps) (f : Nat → Nat → Nat → Nat → Int) : Thread :=
  let w := (intWidth o.mod).1
  let a := t.intSrc o.mod o.a.toNat o.na
  let b := t.intB o
  let c := t.raw o.c.toNat (w == 64)
  let r := intResult o.mod fun j => f w (elemAt a w j) (elemAt b w j) (elemAt c w j)
  t.putInt o r.1 r.2

/-- A lane integer instruction with a result cell. -/
def intOp (i : Instr) (o : LaneOps) (third : Bool) (f : Nat → Nat → Nat → Nat → Int) (s : State) : Host.Outcome State Fault Refusal :=
  runTh i s fun t => do
    t.needSrcs o (intCells o.mod) third
    t.needFree o.d.toNat (intCells o.mod)
    .ok (t.intDo o f)

/-- Two sources. -/
def intBin (i : Instr) (o : LaneOps) (f : Nat → Nat → Nat → Int) (s : State) : Host.Outcome State Fault Refusal :=
  intOp i o false (fun w a b _ => f w a b) s

/-- One source: the b field is 0 and names no cell (R103). -/
def intUn (i : Instr) (o : LaneOps) (f : Nat → Nat → Int) (s : State) : Host.Outcome State Fault Refusal :=
  runTh i s fun t => do
    t.needAll o.ep (srcA o (intCells o.mod) ++ srcOld o)
    t.needFree o.d.toNat (intCells o.mod)
    .ok (t.intDo o fun w a _ _ => f w a)

/-- IDIV and IREM: a zero divisor with FCSR.IDZE raises the IDZ trap with the dividend (R144, R150, R47). -/
def intDivide (i : Instr) (o : LaneOps) (f : Bool → Nat → Nat → Nat → Int) (s : State) : Host.Outcome State Fault Refusal :=
  runTh i s fun t => do
    t.needSrcs o (intCells o.mod) false
    let w := (intWidth o.mod).1
    let sg := isSigned o.mod
    if t.fcsr[24] && t.intB o % 2 ^ w == 0 then
      .error (.trap 0x92 0 (BitVec.ofInt 64 (elemVal sg w (t.intSrc o.mod o.a.toNat o.na))) 0 0)
    else do
      t.needFree o.d.toNat (intCells o.mod)
      .ok (t.intDo o fun w a b _ => f sg w a b)

/-- ICMP: predicate d takes the comparison (R152). -/
def intCmp (i : Instr) (o : LaneOps) (f : Int → Int → Bool) (s : State) : Host.Outcome State Fault Refusal :=
  runTh i s fun t => do
    t.needSrcs o (intCells o.mod) false
    let w := (intWidth o.mod).1
    let sg := isSigned o.mod
    .ok (t.setPred o.d.toNat (f (elemVal sg w (t.intSrc o.mod o.a.toNat o.na)) (elemVal sg w (t.intB o))))

/-! ### IALU -/

/-- IADD (R150). -/
def execIadd (o : LaneOps) (s : State) := intBin (.iadd o) o (elAdd (isSigned o.mod)) s
/-- ISUB (R150). -/
def execIsub (o : LaneOps) (s : State) := intBin (.isub o) o (elSub (isSigned o.mod)) s
/-- IMIN (R150). -/
def execImin (o : LaneOps) (s : State) := intBin (.imin o) o (elMin (isSigned o.mod)) s
/-- IMAX (R150). -/
def execImax (o : LaneOps) (s : State) := intBin (.imax o) o (elMax (isSigned o.mod)) s
/-- IABS (R150). -/
def execIabs (o : LaneOps) (s : State) := intUn (.iabs o) o elAbs s
/-- IAND (R150). -/
def execIand (o : LaneOps) (s : State) := intBin (.iand o) o (fun _ a b => elAnd a b) s
/-- IOR (R150). -/
def execIor (o : LaneOps) (s : State) := intBin (.ior o) o (fun _ a b => elOr a b) s
/-- IXOR (R150). -/
def execIxor (o : LaneOps) (s : State) := intBin (.ixor o) o (fun _ a b => elXor a b) s
/-- IANDN (R150). -/
def execIandn (o : LaneOps) (s : State) := intBin (.iandn o) o elAndn s

/-! ### ISHIFT -/

/-- ISHL (R150, R143). -/
def execIshl (o : LaneOps) (s : State) := intBin (.ishl o) o elShl s
/-- ISHR (R150, R143). -/
def execIshr (o : LaneOps) (s : State) := intBin (.ishr o) o elShr s
/-- ISAR (R150, R143). -/
def execIsar (o : LaneOps) (s : State) := intBin (.isar o) o elSar s
/-- IROTL (R150, R143). -/
def execIrotl (o : LaneOps) (s : State) := intBin (.irotl o) o elRotl s

/-! ### IMUL -/

/-- IMUL (R150). -/
def execImul (o : LaneOps) (s : State) := intBin (.imul o) o (fun _ a b => elMul a b) s
/-- IMULH (R150). -/
def execImulh (o : LaneOps) (s : State) := intBin (.imulh o) o (elMulh (isSigned o.mod)) s
/-- IMAD (R150). -/
def execImad (o : LaneOps) (s : State) := intOp (.imad o) o true (fun _ a b c => elMul a b + c) s
/-- IDIV (R144, R150). -/
def execIdiv (o : LaneOps) (s : State) := intDivide (.idiv o) o elDiv s
/-- IREM (R144, R150). -/
def execIrem (o : LaneOps) (s : State) := intDivide (.irem o) o elRem s

/-! ### IBIT -/

/-- ICLZ (R59, R150). -/
def execIclz (o : LaneOps) (s : State) := intUn (.iclz o) o (fun w a => (elClz w a : Nat)) s
/-- ICTZ (R59, R150). -/
def execIctz (o : LaneOps) (s : State) := intUn (.ictz o) o (fun w a => (elCtz w a : Nat)) s
/-- IFFS (R59, R150). -/
def execIffs (o : LaneOps) (s : State) := intUn (.iffs o) o (fun w a => (elFfs w a : Nat)) s
/-- IPOPC (R59, R150). -/
def execIpopc (o : LaneOps) (s : State) := intUn (.ipopc o) o (fun w a => (elPopc w a : Nat)) s
/-- IBREV (R150). -/
def execIbrev (o : LaneOps) (s : State) := intUn (.ibrev o) o (fun w a => (elBrev w a : Nat)) s
/-- IBFX (R146, R150): kind .i sign-extends. -/
def execIbfx (o : LaneOps) (s : State) := intBin (.ibfx o) o (fun w a b => (elBfx (isSigned o.mod) w a b : Nat)) s
/-- IBFI (R146, R150): the third operand is inserted into a copy of a. -/
def execIbfi (o : LaneOps) (s : State) := intOp (.ibfi o) o true (fun w a b c => (elBfi w a b c : Nat)) s

/-! ### ICMP, ISEL, IORD -/

/-- ICMP.eq (R152). -/
def execIcmpEq (o : LaneOps) (s : State) := intCmp (.icmpEq o) o (fun a b => a == b) s
/-- ICMP.ne (R152). -/
def execIcmpNe (o : LaneOps) (s : State) := intCmp (.icmpNe o) o (fun a b => a != b) s
/-- ICMP.lt (R152). -/
def execIcmpLt (o : LaneOps) (s : State) := intCmp (.icmpLt o) o (fun a b => a < b) s
/-- ICMP.le (R152). -/
def execIcmpLe (o : LaneOps) (s : State) := intCmp (.icmpLe o) o (fun a b => a ≤ b) s
/-- ICMP.gt (R152). -/
def execIcmpGt (o : LaneOps) (s : State) := intCmp (.icmpGt o) o (fun a b => b < a) s
/-- ICMP.ge (R152). -/
def execIcmpGe (o : LaneOps) (s : State) := intCmp (.icmpGe o) o (fun a b => b ≤ a) s

/-- ISEL (R152): a where p[C] is true, else b; both are read. -/
def execIsel (o : LaneOps) (s : State) : Host.Outcome State Fault Refusal :=
  runTh (.isel o) s fun t => do
    t.needSrcs o (intCells o.mod) false
    t.needFree o.d.toNat (intCells o.mod)
    .ok (t.intDo o fun _ a b _ => if t.pred o.c.toNat then (a : Int) else (b : Int))

/-- IORD (R153): the image of R70 of the source, in the format of MOD. -/
def execIord (o : LaneOps) (s : State) : Host.Outcome State Fault Refusal :=
  runTh (.iord o) s fun t => do
    let f := AnyFmt.ofCode o.mod.toNat
    let n := if f.width == 64 then 2 else 1
    t.needAll o.ep (srcA o n ++ srcOld o)
    t.needFree o.d.toNat n
    let x := match o.na with
      | .full => t.cellsNat o.a.toNat n % 2 ^ f.width
      | .elem w pos => elemOf (t.cell o.a.toNat).data (narrowBits w) pos.toNat
    let v := image f x
    .ok (match o.nd with
      | .full => t.writePlains o.d.toNat (wordsOf n v)
      | .elem w pos => t.writePlain o.d.toNat (insertElem (t.cell o.d.toNat).data (narrowBits w) pos.toNat v))

/-! ### MOVE -/

/-- VMOV (R154). -/
def execVmov (o : LaneOps) (s : State) : Host.Outcome State Fault Refusal :=
  runTh (.vmov o) s fun t => do
    t.needAll o.ep (srcB o (intCells o.mod) ++ srcOld o)
    t.needFree o.d.toNat (intCells o.mod)
    .ok (t.intDo o fun _ _ b _ => (b : Int))

/-- SMOV.tov (R154). -/
def execSmovTov (o : LaneOps) (s : State) : Host.Outcome State Fault Refusal :=
  runTh (.smovTov o) s fun t => do
    t.needAll o.ep (srcOld o)
    t.needFree o.d.toNat (intCells o.mod)
    let v := (t.sreg o.a.toNat).toNat
    .ok (t.intDo o fun _ _ _ _ => (v : Int))

/-- SMOV.tos (R154). -/
def execSmovTos (o : LaneOps) (s : State) : Host.Outcome State Fault Refusal :=
  runTh (.smovTos o) s fun t => do
    t.need o.ep 0 o.a.toNat (intCells o.mod)
    .ok (t.setSreg o.d.toNat (BitVec.ofInt 64 (elemVal (isSigned o.mod) (intWidth o.mod).1 (t.intSrc o.mod o.a.toNat o.na))))

/-- The predicates p7..p0 as a number (R154). -/
def Thread.predBits (t : Thread) : Nat :=
  (List.range 8).foldl (fun acc j => acc + if t.pred j then 2 ^ j else 0) 0

/-- MOVP.tov (R154). -/
def execMovpTov (o : LaneOps) (s : State) : Host.Outcome State Fault Refusal :=
  runTh (.movpTov o) s fun t => do
    t.needAll o.ep (srcOld o)
    t.needFree o.d.toNat 1
    .ok (t.intDo o fun _ _ _ _ => (t.predBits : Int))

/-- MOVP.top (R154). -/
def execMovpTop (o : LaneOps) (s : State) : Host.Outcome State Fault Refusal :=
  runTh (.movpTop o) s fun t => do
    t.need o.ep 0 o.a.toNat 1
    let v := t.intSrc o.mod o.a.toNat o.na
    .ok { t with preds := Vector.ofFn fun j => v / 2 ^ j.val % 2 == 1 }

end Sys2Proof.Machine
end

