-- ==== Sys2Proof/Machine/Float.lean ====
section
/-!
DEFINITION. Sys2Proof/Machine/Float.lean: the majors FARITH, FSPEC, FCMP and FCVT (R195 to R205).
-/
namespace Sys2Proof.Machine

/-- The flags of several elements together (R196). -/
def allFlags (fs : List Flags) : Flags := fs.foldl Flags.or .none

/-- A float instruction whose element results are exact values and flags, placed into the destination format (R195, R196). -/
def Thread.floatDo (t : Thread) (o : LaneOps) (elem : Nat → Nat × Flags) : Except Stop Thread := do
  let rs := (List.range (floatMode o.mod).2).map elem
  let t' ← t.applyFloatFlags (allFlags (rs.map Prod.snd))
  t'.needFree o.d.toNat (floatCells o.mod)
  .ok (t'.putFloat o (rs.map Prod.fst))

/-- An exact element result, rounded once to the destination format in the mode in force (R196). -/
def Thread.floatPlace (t : Thread) (o : LaneOps) (r : FVal × Flags) : Nat × Flags :=
  let c := (dstFmt o).place (t.frm o.ro) r.1
  (c.1, r.2.or c.2)

/-- A float instruction of two sources. -/
def floatBin (i : Instr) (o : LaneOps) (f : RMode → FVal → FVal → FVal × Flags) (s : State) : Host.Outcome State Fault Refusal :=
  runTh i s fun t => do
    t.needSrcs o (floatCells o.mod) false
    t.floatDo o fun j =>
      t.floatPlace o (f (t.frm o.ro) (t.floatSrc o o.a.toNat o.na j) (t.floatSrc o (bCell o) o.nb j))

/-- A float instruction of one source: the b field is 0 and names no cell (R103). -/
def floatUn (i : Instr) (o : LaneOps) (elem : Thread → FVal → Nat × Flags) (s : State) : Host.Outcome State Fault Refusal :=
  runTh i s fun t => do
    t.needAll o.ep (srcA o (floatCells o.mod) ++ srcOld o)
    t.floatDo o fun j => elem t (t.floatSrc o o.a.toNat o.na j)

/-! ### FARITH (R198, R199) -/

/-- a + b. -/
def fltAdd (rm : RMode) (a b : FVal) : FVal × Flags := arith [a, b] (addVal rm a b)

/-- a − b; the sign of a NaN operand stays. -/
def fltSub (rm : RMode) (a b : FVal) : FVal × Flags := arith [a, b] (addVal rm a b.negate)

/-- a × b. -/
def fltMul (a b : FVal) : FVal × Flags := arith [a, b] (mulVal a b)

/-- a / b, with DZ. -/
def fltDiv (a b : FVal) : FVal × Flags :=
  let r := arith [a, b] ((divVal a b).map Prod.fst)
  (r.1, match divVal a b with
    | some (_, true) => r.2.or { dz := true }
    | _ => r.2)

/-- a × b + c; NV for 0 × inf even when c is a quiet NaN (R198). -/
def fltFma (rm : RMode) (a b c : FVal) : FVal × Flags :=
  let r := arith [a, b, c] (fmaVal rm a b c)
  (r.1, if !a.isNan && !b.isNan && (mulVal a b).isNone then r.2.or .invalid else r.2)

/-- FADD (R198). -/
def execFadd (o : LaneOps) (s : State) := floatBin (.fadd o) o fltAdd s
/-- FSUB (R198). -/
def execFsub (o : LaneOps) (s : State) := floatBin (.fsub o) o fltSub s
/-- FMUL (R198). -/
def execFmul (o : LaneOps) (s : State) := floatBin (.fmul o) o (fun _ a b => fltMul a b) s
/-- FMIN (R199). -/
def execFmin (o : LaneOps) (s : State) := floatBin (.fmin o) o (fun _ a b => minMaxVal false a b) s
/-- FMAX (R199). -/
def execFmax (o : LaneOps) (s : State) := floatBin (.fmax o) o (fun _ a b => minMaxVal true a b) s
/-- FDIV (R198). -/
def execFdiv (o : LaneOps) (s : State) := floatBin (.fdiv o) o (fun _ a b => fltDiv a b) s

/-- FFMA (R198). -/
def execFfma (o : LaneOps) (s : State) : Host.Outcome State Fault Refusal :=
  runTh (.ffma o) s fun t => do
    t.needSrcs o (floatCells o.mod) true
    t.floatDo o fun j =>
      t.floatPlace o (fltFma (t.frm o.ro) (t.floatSrc o o.a.toNat o.na j) (t.floatSrc o (bCell o) o.nb j)
        (t.floatSrc o o.c.toNat .full j))

/-! ### FSPEC (R200, R201, R81) -/

/-- √a. -/
def fltSqrt (a : FVal) : FVal × Flags := arith [a] (sqrtVal a)

/-- The true value of FRCP with its flags. -/
def fltRcp (a : FVal) : FVal × Flags := fltDiv (.fin false 1 0 false) a

/-- The true value of FRSQ with its flags. -/
def fltRsq (a : FVal) : FVal × Flags :=
  match a with
  | .nan _ _ _ _ => arith [a] none
  | .inf neg => if neg then (FVal.dflt, .invalid) else (FVal.zero false, .none)
  | .fin neg m e _ =>
    if m == 0 then (.inf neg, { dz := true })
    else if neg then (FVal.dflt, .invalid)
    else (rsqrtVal m e, .none)

/-- The integer that a finite value is, if it is one of moderate size. -/
def smallInt (neg : Bool) (m : Nat) (e : Int) : Option Int :=
  if 20 < e + (Nat.log2 m : Int) then none
  else if 0 ≤ e then some (if neg then -((m * 2 ^ e.toNat : Nat) : Int) else (m * 2 ^ e.toNat : Nat))
  else if e < -2000 then none
  else if m % 2 ^ (-e).toNat == 0 then some (if neg then -((m / 2 ^ (-e).toNat : Nat) : Int) else (m / 2 ^ (-e).toNat : Nat))
  else none

/-- The true value of FEXP2 with its flags. -/
def fltExp2 (a : FVal) : FVal × Flags :=
  match a with
  | .nan _ _ _ _ => arith [a] none
  | .inf neg => (if neg then FVal.zero false else .inf false, .none)
  | .fin neg m e _ =>
    if m == 0 then (.fin false 1 0 false, .none)
    else match smallInt neg m e with
      | some n => (.fin false 1 n false, .none)
      | none => (exp2Val neg m e, .none)

/-- The true value of FLOG2 with its flags. -/
def fltLog2 (a : FVal) : FVal × Flags :=
  match a with
  | .nan _ _ _ _ => arith [a] none
  | .inf neg => if neg then (FVal.dflt, .invalid) else (.inf false, .none)
  | .fin neg m e _ =>
    if m == 0 then (.inf true, { dz := true })
    else if neg then (FVal.dflt, .invalid)
    else (log2Val m e, .none)

/-- The number of a destination format among those of R106. -/
def fmtNumber (f : FFmt) : Nat := ((List.range 9).find? fun c => AnyFmt.ofCode c == .flt f).getD 0

/-- The place of a code of a format among its values, in ascending order. -/
def codeRank (w c : Nat) : Int := if 2 ^ (w - 1) ≤ c then -((c - 2 ^ (w - 1) : Nat) : Int) else (c : Int)

/-- Of the two values adjacent to a true result, the one of greater magnitude is returned (R81). FEXP2 and FLOG2 return the greater value
from some operand of the gap on, FRCP and FRSQ before it, so that they are monotone; `gap` is the code of the lesser magnitude. -/
def faithfulUp (fn fmts gap : Nat) (neg : Bool) (rank : Int) : Bool :=
  let after := decide (Config.faithfulCut fn fmts gap ≤ rank)
  (if fn < 2 then after else !after) != neg

/-- A faithful element (R81, R201): which of the adjacent values it is depends on the function, the source and destination formats and
the operand (notes/assumptions/8.md). -/
def faithfulElem (fn : Nat) (f : FVal → FVal × Flags) (o : LaneOps) (a : FVal) : Nat × Flags :=
  let r := f a
  let src := (floatMode o.mod).1
  let fmts := 16 * fmtNumber src + fmtNumber (dstFmt o)
  let up := faithfulUp fn fmts ((dstFmt o).faithful false r.1).1 r.1.neg (codeRank src.width (src.place .rne a).1)
  let c := (dstFmt o).faithful up r.1
  (c.1, r.2.or c.2)

/-- FSQRT (R200). -/
def execFsqrt (o : LaneOps) (s : State) := floatUn (.fsqrt o) o (fun t a => t.floatPlace o (fltSqrt a)) s
/-- FRCP (R201). -/
def execFrcp (o : LaneOps) (s : State) := floatUn (.frcp o) o (fun _ a => faithfulElem 2 fltRcp o a) s
/-- FRSQ (R201). -/
def execFrsq (o : LaneOps) (s : State) := floatUn (.frsq o) o (fun _ a => faithfulElem 3 fltRsq o a) s
/-- FEXP2 (R201). -/
def execFexp2 (o : LaneOps) (s : State) := floatUn (.fexp2 o) o (fun _ a => faithfulElem 0 fltExp2 o a) s
/-- FLOG2 (R201). -/
def execFlog2 (o : LaneOps) (s : State) := floatUn (.flog2 o) o (fun _ a => faithfulElem 1 fltLog2 o a) s

/-! ### FCMP (R202, R203) -/

/-- A float compare (R202): `f` decides two numbers, `onNan` is the result with a NaN, `strict` raises NV for any NaN. -/
def floatCmp (i : Instr) (o : LaneOps) (f : FVal → FVal → Bool) (onNan strict : Bool) (s : State) :
    Host.Outcome State Fault Refusal :=
  runTh i s fun t => do
    t.needSrcs o (floatCells o.mod) false
    let a := t.floatSrc o o.a.toNat o.na 0
    let b := t.floatSrc o (bCell o) o.nb 0
    let nan := a.isNan || b.isNan
    let t' ← t.applyFloatFlags { nv := anySnan [a, b] || (strict && nan) }
    .ok (t'.setPred o.d.toNat (if nan then onNan else f a b))

/-- FCMP.eq (R202). -/
def execFcmpEq (o : LaneOps) (s : State) := floatCmp (.fcmpEq o) o eqVal false false s
/-- FCMP.ne (R202). -/
def execFcmpNe (o : LaneOps) (s : State) := floatCmp (.fcmpNe o) o (fun a b => !eqVal a b) true false s
/-- FCMP.lt (R202). -/
def execFcmpLt (o : LaneOps) (s : State) := floatCmp (.fcmpLt o) o ltVal false true s
/-- FCMP.le (R202). -/
def execFcmpLe (o : LaneOps) (s : State) := floatCmp (.fcmpLe o) o (fun a b => ltVal a b || eqVal a b) false true s
/-- FCMP.gt (R202). -/
def execFcmpGt (o : LaneOps) (s : State) := floatCmp (.fcmpGt o) o (fun a b => ltVal b a) false true s
/-- FCMP.ge (R202). -/
def execFcmpGe (o : LaneOps) (s : State) := floatCmp (.fcmpGe o) o (fun a b => ltVal b a || eqVal a b) false true s
/-- FCMP.un (R202). -/
def execFcmpUn (o : LaneOps) (s : State) := floatCmp (.fcmpUn o) o (fun _ _ => false) true false s

/-- The bit of the class mask (R203). -/
def classBit (f : FFmt) (v : FVal) : Nat :=
  match v with
  | .nan _ q _ _ => if q then 9 else 8
  | .inf neg => if neg then 0 else 7
  | .fin neg m _ _ =>
    if m == 0 then (if neg then 3 else 4)
    else if v.expo < f.emin then (if neg then 2 else 5)
    else (if neg then 1 else 6)

/-- FCLASS (R203): one cell is written whatever the format. -/
def execFclass (o : LaneOps) (s : State) : Host.Outcome State Fault Refusal :=
  runTh (.fclass o) s fun t => do
    t.need o.ep 0 o.a.toNat (floatCells o.mod)
    t.needFree o.d.toNat 1
    let f := (floatMode o.mod).1
    let n := (floatMode o.mod).2
    .ok (t.writePlain o.d.toNat
      (BitVec.ofNat 32 (mapElems (32 / n) n fun j => 2 ^ classBit f (t.floatSrc o o.a.toNat o.na j))))

/-! ### FCVT (R204, R205) -/

/-- The number of elements of a conversion: as many as a cell holds of the wider format (R204). -/
def cvtCount (w : Nat) : Nat :=
  match w with
  | 4 => 8
  | 6 => 5
  | 8 => 4
  | 16 => 2
  | _ => 1

/-- FCVT (R204, R205): the minor is the destination format, MOD the source format. -/
def execFcvt (f : BitVec 4) (o : LaneOps) (s : State) : Host.Outcome State Fault Refusal :=
  runTh (.fcvt f o) s fun t => do
    let dst := AnyFmt.ofCode f.toNat
    let src := AnyFmt.ofCode o.mod.toNat
    let ns := if src.width == 64 then 2 else 1
    let nd := if dst.width == 64 then 2 else 1
    t.need o.ep 0 o.a.toNat ns
    let n := cvtCount (max src.width dst.width)
    let x := t.cellsNat o.a.toNat ns
    let rs := (List.range n).map fun j => convertElem src dst (t.frm o.ro) (elemAt x src.width j)
    let t' ← t.applyFloatFlags (allFlags (rs.map Prod.snd))
    t'.needFree o.d.toNat nd
    .ok (t'.writePlains o.d.toNat (wordsOf nd (mapElems dst.width n fun j => (rs.map Prod.fst).getD j 0)))

end Sys2Proof.Machine
end

