-- ==== Sys2Proof/Machine/Zxf.lean ====
section
/-!
DEFINITION. Sys2Proof/Machine/Zxf.lean: the variable-precision majors XARITH and XMISC (R213 to R224, R72 to R78).
-/
namespace Sys2Proof.Machine

/-- A ZXF operand as read: its value, its significance, its length and its register image (R214). -/
structure ZVal where
  v : FVal
  s : Nat
  l : Nat
  image : Nat
deriving DecidableEq, Repr, Inhabited

/-- The number of cells of the operand named at a cell: its group's where the cell is a head, else one (R37, R214). -/
def Thread.zCells (t : Thread) (i : Nat) : Nat :=
  match (t.cell i).tag with
  | .head lc _ => lc.toNat + 1
  | _ => 1

/-- A ZXF source as read (R37, R214): the cells of the length that its head's tag gives. -/
def Thread.zSource (t : Thread) (field i : Nat) : Source := (field, i, t.zCells i)

/-- The tag check and the value of a ZXF source (R214). -/
def Thread.zRead (t : Thread) (field i : Nat) : Except Stop ZVal :=
  match (t.cell i).tag with
  | .head lc s =>
    let n := lc.toNat + 1
    let x := t.cellsNat i n
    .ok ⟨zxfDecode (32 * n) x, s.toNat, 32 * n, x⟩
  | _ => .error (.trap 0x91 (BitVec.ofNat 8 field) (BitVec.ofNat 64 i) 0 0)

/-- The source reads of a ZXF instruction, operand by operand (R214): the first operand with an empty cell waits or raises EMPTY for its
lowest one. -/
def Thread.needEach (t : Thread) (ep : Bool) : List Source → Except Stop Unit
  | [] => .ok ()
  | x :: xs => do
    t.needAll ep [x]
    t.needEach ep xs

/-- One ZXF source in field a. -/
def Thread.zOne (t : Thread) (o : LaneOps) : Except Stop ZVal := do
  t.needAll o.ep [t.zSource 0 o.a.toNat]
  t.zRead 0 o.a.toNat

/-- Two ZXF sources in a and b. -/
def Thread.zTwo (t : Thread) (o : LaneOps) : Except Stop (ZVal × ZVal) := do
  t.needEach o.ep [t.zSource 0 o.a.toNat, t.zSource 1 (bCell o)]
  let a ← t.zRead 0 o.a.toNat
  let b ← t.zRead 1 (bCell o)
  .ok (a, b)

/-- The significance of a result (R77): an infinity or a NaN has that of the first operand it comes from, 0 where it comes from an
overflow or an invalid operation; any other result has `fin`. `r` is the exact result, `res` the rounded one. Where R218, R220, R222, R223
and R225 give min(s, p) without naming an overflow, the 0 of R77 is taken for every one of them (DESIGN CHOICE, notes/assumptions/45.md). -/
def resultSig (ops : List ZVal) (r res : FVal) (fin : Nat) : Nat :=
  match res with
  | .nan _ _ _ _ => ((ops.find? fun x => x.v.isNan).map ZVal.s).getD 0
  | .inf _ => if r.isInf then ((ops.find? fun x => x.v.isInf).map ZVal.s).getD 0 else 0
  | .fin _ _ _ _ => fin

/-- The steps of R215: round, find the significance by `sig` (of the rounded value, whether it is inexact, and its rounding floor),
apply flags and traps, write. -/
def Thread.zFinish (t : Thread) (o : LaneOps) (r : FVal × Flags) (sig : FVal → Bool → Int → Nat) : Except Stop Thread := do
  let l := zxfLength t.p
  let (res, fl, floor) := zxfRound t.p (t.xrm o.ro) r.1
  let s := sig res (r.2.nx || fl.nx) floor
  let t' ← t.applyZxfFlags (r.2.or fl) (some s)
  t'.needFree o.d.toNat (l / 32)
  .ok (t'.writeZxf o.d.toNat l (zxfEncode l res) s)

/-! ### XARITH (R217, R218) -/

/-- The significance of the sum of terms with trust floors `ts` (R77). -/
def sumOf (p : Nat) (ts : List Floor) (res : FVal) (inexact : Bool) (floor : Int) : Nat :=
  sumSig (ts.foldl Floor.max .bot) res inexact floor p

/-- XADD and XSUB. -/
def zxfSum (i : Instr) (o : LaneOps) (f : RMode → FVal → FVal → FVal × Flags) (s : State) : Host.Outcome State Fault Refusal :=
  runTh i s fun t => do
    let (a, b) ← t.zTwo o
    let r := f (t.xrm o.ro) a.v b.v
    t.zFinish o r fun res nx floor =>
      resultSig [a, b] r.1 res (sumOf t.p [trustFloor a.v a.s, trustFloor b.v b.s] res nx floor)

/-- XADD (R217). -/
def execXadd (o : LaneOps) (s : State) := zxfSum (.xadd o) o fltAdd s
/-- XSUB (R217). -/
def execXsub (o : LaneOps) (s : State) := zxfSum (.xsub o) o fltSub s

/-- XMUL (R217). -/
def execXmul (o : LaneOps) (s : State) : Host.Outcome State Fault Refusal :=
  runTh (.xmul o) s fun t => do
    let (a, b) ← t.zTwo o
    let r := fltMul a.v b.v
    t.zFinish o r fun res nx _ => resultSig [a, b] r.1 res (sigIf (min a.s b.s) nx t.p)

/-- XFMA (R217, R77): the exact product is a term of its own significance. -/
def execXfma (o : LaneOps) (s : State) : Host.Outcome State Fault Refusal :=
  runTh (.xfma o) s fun t => do
    t.needEach o.ep [t.zSource 0 o.a.toNat, t.zSource 1 (bCell o), t.zSource 2 o.c.toNat]
    let a ← t.zRead 0 o.a.toNat
    let b ← t.zRead 1 (bCell o)
    let c ← t.zRead 2 o.c.toNat
    let r := fltFma (t.xrm o.ro) a.v b.v c.v
    let prod := (mulVal a.v b.v).getD FVal.dflt
    t.zFinish o r fun res nx floor =>
      resultSig [a, b, c] r.1 res (sumOf t.p [trustFloor prod (min a.s b.s), trustFloor c.v c.s] res nx floor)

/-- The quotient with the flags of R216: a finite nonzero value divided by zero raises OF and NX. -/
def zxfQuot (a b : FVal) : FVal × Flags :=
  let r := fltDiv a b
  (r.1, if r.2.dz then { of := true, nx := true } else r.2)

/-- XDIV (R217, R216). -/
def execXdiv (o : LaneOps) (s : State) : Host.Outcome State Fault Refusal :=
  runTh (.xdiv o) s fun t => do
    let (a, b) ← t.zTwo o
    let r := zxfQuot a.v b.v
    t.zFinish o r fun res nx _ => resultSig [a, b] r.1 res (sigIf (min a.s b.s) nx t.p)

/-- XSQRT (R217). -/
def execXsqrt (o : LaneOps) (s : State) : Host.Outcome State Fault Refusal :=
  runTh (.xsqrt o) s fun t => do
    let a ← t.zOne o
    let r := fltSqrt a.v
    t.zFinish o r fun res nx _ => resultSig [a] r.1 res (sigIf a.s nx t.p)

/-- The operand that XMIN or XMAX chooses (R218, R199). No rule says which of two equal operands of different length or significance it is:
a (DESIGN CHOICE, notes/assumptions/45.md). -/
def zxfChoice (max : Bool) (a b : ZVal) : ZVal :=
  if a.v.isNan then (if b.v.isNan then a else b)
  else if b.v.isNan then a
  else if max then (if ltTotal a.v b.v then b else a)
  else (if ltTotal b.v a.v then b else a)

/-- XMIN and XMAX (R218). -/
def zxfMinMax (i : Instr) (o : LaneOps) (max : Bool) (s : State) : Host.Outcome State Fault Refusal :=
  runTh i s fun t => do
    let (a, b) ← t.zTwo o
    let r := minMaxVal max a.v b.v
    let c := zxfChoice max a b
    t.zFinish o r fun res nx _ => resultSig [c] r.1 res (sigIf c.s nx t.p)

/-- XMIN (R218). -/
def execXmin (o : LaneOps) (s : State) := zxfMinMax (.xmin o) o false s
/-- XMAX (R218). -/
def execXmax (o : LaneOps) (s : State) := zxfMinMax (.xmax o) o true s

/-! ### XMISC (R219 to R224) -/

/-- XCMP (R219): MOD gives the condition. -/
def execXcmp (o : LaneOps) (s : State) : Host.Outcome State Fault Refusal :=
  runTh (.xcmp o) s fun t => do
    let (a, b) ← t.zTwo o
    let nan := a.v.isNan || b.v.isNan
    let strict := o.mod == 2#5 || o.mod == 3#5
    let t' ← t.applyZxfFlags { nv := anySnan [a.v, b.v] || (strict && nan) } none
    let r := match o.mod.toNat with
      | 0 => !nan && eqVal a.v b.v
      | 1 => nan || !eqVal a.v b.v
      | 2 => !nan && ltVal a.v b.v
      | 3 => !nan && (ltVal a.v b.v || eqVal a.v b.v)
      | _ => nan
    .ok (t'.setPred o.d.toNat r)

/-- XRND.p (R220). -/
def execXrndP (o : LaneOps) (s : State) : Host.Outcome State Fault Refusal :=
  runTh (.xrndP o) s fun t => do
    let a ← t.zOne o
    let r := arith [a.v] (some a.v)
    t.zFinish o r fun res nx _ => resultSig [a] r.1 res (sigIf a.s nx t.p)

/-- A value rounded to an integer, its sign kept for a zero result, and NX where it differs (R220). -/
def zxfInt (rm : RMode) (a : FVal) : FVal × Flags :=
  match a with
  | .fin neg m e more =>
    if 0 ≤ e then (a, .none)
    else
      let r := toIntVal rm neg m e more
      (.fin neg r.1.natAbs 0 false, { nx := r.2 })
  | _ => arith [a] (some a)

/-- XRND.int (R220). -/
def execXrndInt (o : LaneOps) (s : State) : Host.Outcome State Fault Refusal :=
  runTh (.xrndInt o) s fun t => do
    let a ← t.zOne o
    let r := zxfInt (t.xrm o.ro) a.v
    t.zFinish o r fun res nx _ => resultSig [a] r.1 res (sigIf a.s nx t.p)

/-- The plain cells that a form of XCVT reads or writes: a pair for 64-bit formats (R221). -/
def cvtPlain (mod : Nat) : Nat := if mod == 2 || mod == 3 then 1 else 2

/-- The value of the plain source of an XCVT.from form (R221). -/
def cvtFrom (mod x : Nat) : FVal :=
  match mod with
  | 0 => valOfInt (intOf 64 true x)
  | 2 => fmtF32.decode x
  | _ => fmtF64.decode x

/-- The plain result of an XCVT.to form (R221). -/
def cvtTo (mod : Nat) (rm : RMode) (a : FVal) : Nat × Flags :=
  match mod with
  | 1 => floatToInt 64 true rm a
  | m =>
    let r := arith [a] (some a)
    let c := (if m == 3 then fmtF32 else fmtF64).place rm r.1
    (c.1, r.2.or c.2)

/-- XCVT (R221): an even MOD converts from a fixed format, an odd one to it. -/
def execXcvt (o : LaneOps) (s : State) : Host.Outcome State Fault Refusal :=
  runTh (.xcvt o) s fun t =>
    let m := o.mod.toNat
    let n := cvtPlain m
    if m % 2 == 0 then do
      t.need o.ep 0 o.a.toNat n
      let v := cvtFrom m (t.cellsNat o.a.toNat n)
      let r := arith [v] (some v)
      t.zFinish o r fun res nx _ => resultSig [⟨v, 255, 0, 0⟩] r.1 res (sigIf 255 nx t.p)
    else do
      let a ← t.zOne o
      let r := cvtTo m (t.xrm o.ro) a.v
      let t' ← t.applyZxfFlags r.2 none
      t'.needFree o.d.toNat n
      .ok (t'.writePlains o.d.toNat (wordsOf n r.1))

/-- a × 2^n (R222). A shift beyond ±100,000 has the effect of one of ±100,000: the exponents of ZXF lie within ±17,000. -/
def scaleVal (a : FVal) (n : Int) : FVal :=
  match a with
  | .fin neg m e more => if m == 0 then a else .fin neg m (e + max (-100000) (min n 100000)) more
  | _ => a

/-- XSCALE (R222). -/
def execXscale (o : LaneOps) (s : State) : Host.Outcome State Fault Refusal :=
  runTh (.xscale o) s fun t => do
    t.needEach o.ep [t.zSource 0 o.a.toNat, (1, bCell o, 1)]
    let a ← t.zRead 0 o.a.toNat
    let r := scaleVal a.v (t.cell (bCell o)).data.toInt
    t.zFinish o (r, .none) fun res nx _ => resultSig [a] r res (sigIf a.s nx t.p)

/-- XSIG.get (R223). -/
def execXsigGet (o : LaneOps) (s : State) : Host.Outcome State Fault Refusal :=
  runTh (.xsigGet o) s fun t => do
    let a ← t.zOne o
    t.needFree o.d.toNat 1
    .ok (t.writePlain o.d.toNat (BitVec.ofNat 32 a.s))

/-- XSIG.set (R223): the flags of the rounding are set; no trap, no PX. -/
def execXsigSet (o : LaneOps) (s : State) : Host.Outcome State Fault Refusal :=
  runTh (.xsigSet o) s fun t => do
    t.needEach o.ep [t.zSource 0 o.a.toNat, (1, bCell o, 1)]
    let a ← t.zRead 0 o.a.toNat
    let l := zxfLength t.p
    let (res, fl, _) := zxfRound t.p (t.xrm o.ro) a.v
    t.needFree o.d.toNat (l / 32)
    let v := (t.cell (bCell o)).data.toNat % 256
    let t' := { t with xflags := t.xflags ||| fl.xBits }
    .ok (t'.writeZxf o.d.toNat l (zxfEncode l res) (if res.isInf && !a.v.isInf then 0 else sigIf v fl.nx t.p))

/-- XTAG (R224): the metadata word as it stands when XTAG first executes; an empty vd delays only the write. -/
def execXtag (o : LaneOps) (s : State) : Host.Outcome State Fault Refusal :=
  enter (.xtag o) s fun s =>
    let t := s.th
    let w := t.latch.getD (t.cell o.a.toNat).meta
    if (t.cell o.d.toNat).full then (s.setTh (t.writePlain o.d.toNat w)).advance (Instr.xtag o).length
    else stopped (s.setTh { t with latch := some w }) (.wait .emptyCell)

end Sys2Proof.Machine
end

