-- ==== Sys2Proof/Machine/MemAccess.lean ====
section
/-!
DEFINITION. Sys2Proof/Machine/MemAccess.lean: the accesses of threads as shared operations: spaces and their limits (R55, R170, R193),
the checks in their order (R172, R173), loads that complete later (R36), loads and stores made at once, atomics (R180 to R182).
-/
namespace Sys2Proof.Machine

/-- What an access reaches: its locations in ascending address, how a load reads them, and the translations of a generic one. -/
structure Reach where
  locs : List Loc
  route : Route
  xs : Xlated
deriving DecidableEq, Repr, Inhabited

/-- The greatest memory type among the pages of an access (R283). No rule says how an access that spans pages of two types is performed:
that a load goes wholly by the greatest type is a DESIGN CHOICE (notes/assumptions/45.md); a store goes byte by byte. -/
def Reach.mt (r : Reach) : Nat := (r.xs.map fun (x : DWord × Nat × TlbEntry) => pteMt x.2.2.pte.toNat).foldl max 0

/-- The memory types of the bytes of a generic access. -/
def Reach.mts (r : Reach) : List Nat := r.xs.map fun (x : DWord × Nat × TlbEntry) => pteMt x.2.2.pte.toNat

/-- The pages of a generic access, as base and size. -/
def Reach.pages (r : Reach) : List (Nat × Nat) := nub (r.xs.map fun (x : DWord × Nat × TlbEntry) => (x.2.2.va, x.2.2.size))

/-- The addresses of the page-table entries of a generic access (R279). -/
def Reach.ptes (r : Reach) : List Nat := nub (r.xs.map fun (x : DWord × Nat × TlbEntry) => x.2.2.pteAddr)

/-- The lowest address of an access: of a generic one, or the offset of one of the scratchpad. -/
def Reach.ea (r : Reach) : DWord :=
  match r.xs.head?, r.locs.head? with
  | some x, _ => x.1
  | none, some (.scr o) => BitVec.ofNat 64 o
  | none, _ => 0

/-- A request to a peer module gets no response (R406): a free choice for an access that touches peer memory. -/
def Reach.lost (r : Reach) (h : Hw) : Bool := (physKeys r.locs).any keyIsPeer && Config.freeBool h.fresh

/-- The launch of the executing thread has this many scratchpad bytes (R170). -/
def State.scrSize (s : State) : Nat := ((s.hw.launch? s.th.key.part s.th.launch).map fun l => l.scr).getD 0

/-- The regions of the executing thread's launch on its core. -/
def State.region (s : State) : Region := (s.hw.ctx s.th.key.part s.th.key.core).region s.th.launch

/-- Scratchpad offsets `off` .. `off + n − 1` of a slice of `size` bytes at `base` (R170). An access waits while a line of it is absent
(R173), also through the sandbox window, as R344 and R301 have it against a clause of R173 (DEDUCED, notes/assumptions/16.md). -/
def reachScr (s : State) (acc : Acc) (base size : Nat) (off : DWord) (n : Nat) : Except Stop Reach :=
  if size < off.toNat + n then .error (permFault acc (if size ≤ off.toNat then off else BitVec.ofNat 64 size))
  else
    let os := (List.range n).map fun i => base + off.toNat + i
    if s.region.absentAt os then .error (.wait .absentLine)
    else .ok ⟨os.map Loc.scr, .scratch, []⟩

/-- A generic or constant access (R170, R172): the route goes past the caches where a page is not of type normal (R283) or is staged, so that
the staging frame is reached in L2 (R373). No rule says what
a constant load from a normal page of host or peer memory does: that it reads as a generic one would, through the constant cache, is a
DESIGN CHOICE (notes/assumptions/45.md). -/
def reachGen (s : State) (acc : Acc) (con : Bool) (ea : DWord) (n : Nat) : Except Stop Reach :=
  match checkGen s s.who acc ea n with
  | .error e => .error e
  | .ok xs =>
    let r : Reach := ⟨xs.map fun (x : DWord × Nat × TlbEntry) => Loc.phys x.2.1, if con then .con else .l1, xs⟩
    let staged := match s.hw.launch? s.th.key.part s.th.launch with
      | some l => xs.any fun (x : DWord × Nat × TlbEntry) => (l.stagedAt x.1.toNat).isSome
      | none => false
    .ok (if r.mt == 0 && !staged then r else { r with route := if con then .conUncached else .uncached })

/-- A trial may read the example-input region through gen or con (R193, R349). -/
def TrialReq.mayRead (r : TrialReq) (ea : DWord) (n : Nat) : Bool :=
  r.inp.toNat ≤ ea.toNat && ea.toNat + n ≤ r.inp.toNat + 4 * r.nin * r.nex

/-- An access of the executing thread to a space (0 gen, 1 scr, 2 con, 3 sbx), checked (R170, R172, R173, R193). -/
def reach (s : State) (acc : Acc) (space : Nat) (ea : DWord) (n : Nat) : Except Stop Reach :=
  match s.th.trial with
  | some r =>
    match space with
    | 3 => reachScr s acc r.req.sbase r.req.sbsz ea n
    | 1 => .error (permFault acc ea)
    | _ => if acc == .load && r.req.mayRead ea n then reachGen s acc (space == 2) ea n else .error (permFault acc ea)
  | none =>
    match space with
    | 0 => reachGen s acc false ea n
    | 1 => reachScr s acc 0 s.scrSize ea n
    | 2 => reachGen s acc true ea n
    | _ => .error (permFault acc ea)

/-- The space of a stack access: the sandbox in a trial, else generic (R155). -/
def State.stackSpace (s : State) : Nat := if s.th.trial.isSome then 3 else 0

/-- The translations of an access are used: REF, D and the TLBs (R279, R280). -/
def touched (s : State) (acc : Acc) (r : Reach) : State :=
  if r.xs.isEmpty then s else s.mapHw fun h => touch h s.who acc r.xs

/-- The buffered write-combining stores of the executing thread reach their homes (R283). -/
def drainOwn (s : State) : State := s.mapHw fun h => wcDrain h s.th.key.part s.th.key.core fun l => l.holds s.th.key

/-- Change the context of the executing thread's core. -/
def State.onCore (s : State) (f : Ctx → Ctx) : State := s.mapHw fun h => h.setCtx (f (h.ctx s.th.key.part s.th.key.core))

/-- The stores that the executing thread's core can see reach their homes, and every thread of the core reads those that are there: those the
thread has observed are among them (R184, R297). -/
def drainCore (s : State) : State :=
  (s.mapHw fun h => drainOutAll h s.th.key.part s.th.key.core).onCore fun c => c.endLate fun _ => true

/-- Every thread of the core reads the stores of the executing thread that are home. -/
def showOwn (s : State) : State := s.onCore fun c => c.endLate fun w => w.key == s.th.key

/-- The members of the executing thread's crew read the stores of it that are home (R292). -/
def showCrew (s : State) : State :=
  let ks := (s.members s.th.key.part s.th.key.core s.th.crew).map fun t => t.key
  s.onCore fun c => { c with late := c.late.map fun w => if w.key == s.th.key then { w with shown := nub (w.shown ++ ks) } else w }

/-- What the executing thread has read ahead on the paths of `p` no longer counts (R297). -/
def forget (s : State) (p : Nat → Bool) : State := s.mapHw fun h => forgetAhead h s.th.key p

/-- The executing thread's accesses are performed as far as its core sees, and its buffered stores reach their homes (R192). -/
def orderCore (s : State) : Except Stop State := (flush s).map fun s => showOwn (drainOwn s)

/-- The same as far as the members of its crew see. -/
def orderCrew (s : State) : Except Stop State := (flush s).map fun s => showCrew (drainOwn s)

/-- The executing thread's accesses, and the stores it has observed, are performed for every observer (R160, R162, R182, R234, R262). -/
def orderAll (s : State) : Except Stop State := (orderCore s).map drainCore

/-- The size of the unit in which an access of `n` bytes is single-copy atomic (R176): the whole of an aligned one, the aligned 8-byte
half of a 16-byte one, else a byte. -/
def atomOf (ea : DWord) (n : Nat) : Nat :=
  if n == 16 && ea.toNat % 16 == 0 then 8 else if n ≤ 8 && ea.toNat % max 1 n == 0 then max 1 n else 1

/-- An access of the executing thread with the next identifier. -/
def State.newPend (s : State) (kind : PendKind) (cell n : Nat) (atom : Nat) (r : Reach) : Pend :=
  { id := s.hw.nextId, key := s.th.key, tid := s.th.tid, launch := s.th.launch, ip := s.th.pc, ea := r.ea, gang := s.hw.gang,
    after := s.th.gangs, kind := kind, cell := cell, ncells := n, locs := r.locs, mts := r.mts, atom := atom, route := r.route,
    got := List.replicate r.locs.length none, sees := s.th.sees, pages := r.pages, ptes := r.ptes, again := false }

/-- An access becomes outstanding: its destination cells are marked empty (R36). -/
def State.issuePend (s : State) (p : Pend) : State :=
  (s.setTh (s.th.markEmpty p.cell p.ncells)).mapHw fun h => { h with pends := h.pends ++ [p], nextId := h.nextId + 1 }

/-- The gang of a load is remembered while loads of it are outstanding (R174). -/
def noteGang (s : State) : State :=
  let keep := s.th.gangs.filter fun g => s.hw.pends.any fun p => p.gang == g
  s.setTh { s.th with gangs := if keep.contains s.hw.gang then keep else s.hw.gang :: keep }

/-- What an access waits for before it is issued: on a page of type 3, every earlier access of the thread (R283). -/
def orderFirst (s : State) (r : Reach) : Except Stop State := if r.mt == 3 then orderAll s else .ok s

/-- What follows an access to a page of type 3: no later read of the thread returns an older value, from a cache or read ahead (R297). -/
def afterStrong (s : State) (r : Reach) : State :=
  if r.mt == 3 then
    forget (s.mapHw fun h => dropCon (dropL1 h s.th.key.part s.th.key.core) s.th.key.part s.th.key.core) fun _ => true
  else s

/-- An outstanding access is performed now, with what comes before it. -/
def performNow (s : State) (id : Nat) : Except Stop State :=
  unlessConsumed (s.mapHw fun h => match h.pends.find? fun p => p.id == id with
    | some p => perform h p
    | none => h) fun p => p.id == id

/-- An outstanding access leaves the list. -/
def dropPend (s : State) (id : Nat) : State := s.mapHw fun h => { h with pends := h.pends.filter fun q => q.id != id }

/-- The executing thread has read what an outstanding access of it read: stores it read from come before its later ones (R297, dep), and what
it read on the constant path is kept for its PFENCE (R186). -/
def Thread.saw (t : Thread) (p : Pend) : Thread :=
  let t := if p.sees.isEmpty then t else { t with sees := nub (t.sees ++ p.sees) }
  if p.route.path == 1 then { t with conRead := nub (t.conRead ++ physKeys p.locs) } else t

/-- Bytes read at once, with what comes before the read: the access as performed, and the state after it. -/
def readNow (s : State) (r : Reach) (atom : Nat) : Except Stop (Pend × State) := do
  let id := s.hw.nextId
  let p := s.newPend (.load 0) 0 0 atom r
  let s ← performNow (s.issuePend p) id
  .ok ((s.hw.pends.find? fun q => q.id == id).getD p, dropPend s id)

/-- A load made at once: check, order, read. -/
def loadNow (s : State) (space : Nat) (ea : DWord) (n : Nat) : Except Stop (List Byte × State) := do
  let r ← reach s .load space ea n
  let s ← orderFirst s r
  if r.lost s.hw then .error (xlateFault .load r.ea)
  else do
    let (p, s) ← readNow (touched s .load r) r (atomOf ea n)
    .ok ((p.bytes).getD [], afterStrong (s.setTh (s.th.saw p)) r)

/-- A store of the executing thread becomes outstanding (R172 to R175): no byte is written unless every check passes. On a page of type 3
it is performed before the next instruction issues (R283). -/
def issueStore (s : State) (space : Nat) (ea : DWord) (atom : Nat) (bs : List Byte) : Except Stop State := do
  let r ← reach s .store space ea bs.length
  let s ← orderFirst s r
  if r.mt == 3 && r.lost s.hw then
    .error (.lostStore ⟨1, 0, true, false, r.ea, 0⟩ (if Config.freeBool (s.hw.fresh + 1) then (physKeys r.locs).zip bs else []))
  else
    let id := s.hw.nextId
    let s := (touched s .store r).issuePend (s.newPend (.store bs) 0 0 atom r)
    if r.mt == 3 then (performNow s id).map fun s => afterStrong s r else .ok s

/-- A store in the units of R176. -/
def storeNow (s : State) (space : Nat) (ea : DWord) (bs : List Byte) : Except Stop State := issueStore s space ea (atomOf ea bs.length) bs

/-! ### Filling the cells of a completed producer -/

/-- The cells that a lane load writes, by its width (R171). -/
def loadWords (mod : BitVec 5) (bs : List Byte) : List Word :=
  let v := leNat bs
  match mod.toNat with
  | 1 => [BitVec.ofNat 32 (patOf 32 (intOf 8 true v))]
  | 3 => [BitVec.ofNat 32 (patOf 32 (intOf 16 true v))]
  | 5 => wordsOf 2 v
  | 6 => wordsOf 4 v
  | _ => [BitVec.ofNat 32 v]

/-- The width of a lane load or store in bytes (R171). -/
def widthBytes (mod : BitVec 5) : Nat :=
  match mod.toNat with
  | 0 | 1 => 1
  | 2 | 3 => 2
  | 5 => 8
  | 6 => 16
  | _ => 4

/-- The number of cells of a width (R171). -/
def widthCells (mod : BitVec 5) : Nat := if mod == 5#5 then 2 else if mod == 6#5 then 4 else 1

/-- The value of a loaded scalar (R178). -/
def scalarOf (size : Nat) (signed : Bool) (bs : List Byte) : DWord :=
  BitVec.ofInt 64 (intOf (8 * size) signed (leNat bs))

/-- A ZXF-M element as loaded (R225, R75): its value, its significance, and NV for a malformed header. -/
def zxfElement (bs : List Byte) : FVal × Nat × Bool :=
  let h := (bs.getD 0 0).toNat
  let lm := 32 * (h / 32 + 1)
  let low := h % 32
  if lm - 15 < low + 2 then (FVal.dflt, 0, true)
  else
    let pm := lm - 15 - low
    let s := (bs.getD 1 0).toNat
    let img := leNat (bs.drop 2)
    let ignored := 2 ^ (lm - 15 - pm)
    (zxfDecode lm (img / ignored * ignored), if pm < s && s != 255 then pm else s, false)

/-- A completed ZXF load (R225): rounded to the length fixed at issue; sticky flags, no trap; a NaN is written as loaded. An infinity that
the rounding's overflow gives has significance 0 (R77, notes/assumptions/45.md). -/
def Thread.fillZxf (t : Thread) (d p : Nat) (rm : BitVec 3) (smin : Nat) (bs : List Byte) : Thread :=
  let l := zxfLength p
  let (v, s, bad) := zxfElement bs
  let (res, fl, _) := zxfRound p (RMode.ofCode rm.toNat) v
  let s := if res.isInf && !v.isInf then 0 else sigIf s fl.nx p
  let bits := (if bad then 0x02#6 else 0) ||| fl.xBits ||| (if s < smin then xPx else 0)
  let t := t.refill d (l / 32)
  { t.writeZxf d l (zxfEncode l res) s with xflags := t.xflags ||| bits }

/-- A completed producer fills its cells: PLAIN and full (R36, R172, R180). -/
def Thread.fillPlain (t : Thread) (d n : Nat) (ws : List Word) : Thread := (t.refill d n).writePlains d ws

/-- A thread takes the bytes of its completed producer. -/
def Thread.fill (t : Thread) (p : Pend) (bs : List Byte) : Thread :=
  match p.kind with
  | .load mod => t.fillPlain p.cell p.ncells (loadWords mod bs)
  | .xload prec rm smin => t.fillZxf p.cell prec rm smin bs
  | .sload d size signed => t.setSreg d.toNat (scalarOf size signed bs)
  | .atomic _ _ _ _ _ _ => t.fillPlain p.cell p.ncells (wordsOf p.ncells (leNat bs))
  | .spawn _ _ | .await _ _ => t.fillPlain p.cell p.ncells (wordsOf p.ncells (leNat bs))
  | .store _ => t

/-- The thread that issued a producer, if it is still resident. -/
def State.owner? (s : State) (p : Pend) : Option Thread :=
  (s.thread? p.key).filter fun t => t.tid == p.tid && t.launch == p.launch

/-- A producer completes: it is no longer outstanding, and its thread takes its bytes. -/
def completePend (s : State) (p : Pend) (bs : List Byte) : State :=
  let s := dropPend s p.id
  match s.owner? p with
  | some t => s.setThread ((t.fill p bs).saw p)
  | none => s

/-! ### Issuing a load -/

/-- What issuing an access marks in its page-table entries: a compare and swap marks its write once it makes one (R279, R296). -/
def PendKind.marks (k : PendKind) (acc : Acc) : Acc :=
  match k with
  | .atomic .cas _ _ _ _ _ => .load
  | _ => acc

/-- Issue an access of checked locations that fills `n` cells from `cell` (R172, R180): its bytes are read later, on pages of type 2 in
order, and on pages of type 3 it completes before the next instruction issues (R283). -/
def issueAccess (s : State) (acc : Acc) (r : Reach) (kind : PendKind) (cell n atom : Nat) : Except Stop State := do
  let s ← orderFirst s r
  let id := s.hw.nextId
  let s := noteGang ((touched s (kind.marks acc) r).issuePend (s.newPend kind cell n atom r))
  if r.mt != 3 then .ok s
  else if r.lost s.hw then .error (xlateFault acc r.ea)
  else do
    let s ← performNow s id
    match s.hw.pends.find? fun p => p.id == id with
    | some p => .ok (afterStrong (completePend s p ((p.bytes).getD [])) r)
    | none => .ok s

/-- Issue a load of checked locations. -/
def issueLoad (s : State) (r : Reach) (kind : PendKind) (cell n : Nat) : Except Stop State :=
  issueAccess s .load r kind cell n (atomOf r.ea r.locs.length)

end Sys2Proof.Machine
end

