-- ==== Sys2Proof/Machine/LoadStore.lean ====
section
/-!
DEFINITION. Sys2Proof/Machine/LoadStore.lean: LD, ST, XLD, XST, SLD and SST (R169 to R178, R225 to R227).
-/
namespace Sys2Proof.Machine

/-- The effective address of a lane access (R170). -/
def Thread.laneEa (t : Thread) (o : LaneOps) : DWord :=
  t.sreg o.a.toNat + (match o.b with
    | .cell c => (t.cell c.toNat).data.signExtend 64
    | .imm v => v.signExtend 64)

/-- LD (R172): `k` is the space. -/
def execLd (k : BitVec 2) (o : LaneOps) (s : State) : Host.Outcome State Fault Refusal :=
  run (.ld k o) s fun s => do
    s.th.needB o 1
    let r ← reach s .load k.toNat (s.th.laneEa o) (widthBytes o.mod)
    s.th.needFree o.d.toNat (widthCells o.mod)
    issueLoad s r (.load o.mod) o.d.toNat (widthCells o.mod)

/-- The bytes that a lane store writes, lowest first (R171). -/
def Thread.storeBytes (t : Thread) (o : LaneOps) : List Byte :=
  leBytes (widthBytes o.mod) (t.cellsNat o.d.toNat (widthCells o.mod))

/-- ST (R172): `k` is the space; the cells of the d field are read. -/
def execSt (k : BitVec 2) (o : LaneOps) (s : State) : Host.Outcome State Fault Refusal :=
  run (.st k o) s fun s => do
    s.th.needAll o.ep (srcB o 1 ++ [(3, o.d.toNat, widthCells o.mod)])
    storeNow s k.toNat (s.th.laneEa o) (s.th.storeBytes o)

/-- The number of bytes of a ZXF-M element, from its first byte (R75, R225). -/
def zxfBytes (h : Byte) : Nat := 2 + 4 * (h.toNat / 32 + 1)

/-- An access of one byte extended to the `m` bytes from it up that lie in its aligned unit, and so on its page. -/
def Reach.extend (r : Reach) (m : Nat) : Reach :=
  let loc (l : Loc) : List Loc := (List.range m).map fun i => match l with
    | .phys k => .phys (k + i)
    | .scr o => .scr (o + i)
  let xlat (x : DWord × Nat × TlbEntry) : Xlated := (List.range m).map fun i => (x.1 + BitVec.ofNat 64 i, x.2.1 + i, x.2.2)
  { r with locs := r.locs.flatMap loc, xs := r.xs.flatMap xlat }

/-- The 8-byte unit of the first byte of an element, read now, and what the element reaches, whose length that byte gives (R225, R226). -/
def readZxf (s : State) (space : Nat) (ea : DWord) (r1 : Reach) : Except Stop (Pend × Reach × State) := do
  let (p, s) ← readNow s (r1.extend (8 - r1.ea.toNat % 8)) 8
  let r ← reach s .load space ea (zxfBytes (((p.bytes).getD []).getD 0 0))
  .ok (p, r, s)

/-- A ZXF load (R225, R226): the 8-byte unit of the first byte, which gives the length, is read at issue; the checks cover the bytes of the
element and no others, and the rest of it is read later, unit by unit. An element that goes over onto a page of type 3 is read only once the
earlier accesses of the thread are performed (R283). No rule says with which PREC an XLD in flight rounds and tests PX: p, rm and smin are
those of its issue, as its length is (DESIGN CHOICE, notes/assumptions/45.md). -/
def issueZxf (s : State) (space : Nat) (ea : DWord) (d : Nat) (rm : BitVec 3) : Except Stop State := do
  let r1 ← reach s .load space ea 1
  let s ← orderFirst s r1
  if r1.lost s.hw then .error (xlateFault .load ea)
  else do
    let (p, r, s1) ← readZxf s space ea r1
    let (p, r, s) ← if r.mt == 3 && r1.mt != 3 then do readZxf (← orderAll s) space ea r1 else .ok (p, r, s1)
    s.th.needFree d (zxfLength s.th.p / 32)
    if r.mt == 3 && r.lost s.hw then .error (xlateFault .load ea)
    else do
      let s := touched s .load r
      let q := s.newPend (.xload s.th.p rm s.th.smin) d (zxfLength s.th.p / 32) 8 r
      let got := (List.range r.locs.length).map fun i => p.got.getD i none
      let s := noteGang (s.issuePend { q with got := got, sees := p.sees })
      if r.mt != 3 then .ok s
      else do
        let s ← performNow s q.id
        match s.hw.pends.find? fun x => x.id == q.id with
        | some x => .ok (afterStrong (completePend s x ((x.bytes).getD [])) r)
        | none => .ok s

/-- XLD (R225): `k` is the space. RO overrides PREC.rm. -/
def execXld (k : BitVec 2) (o : LaneOps) (s : State) : Host.Outcome State Fault Refusal :=
  run (.xld k o) s fun s => do
    s.th.needB o 1
    let rm := if o.ro == 0#3 then s.th.prec.extractLsb' 16 3 else o.ro - 1
    issueZxf s k.toNat (s.th.laneEa o) o.d.toNat rm

/-- The bytes of a ZXF value in the memory form (R227). Where the length less 15 less the written precision is above 31, the 5-bit field of R75
cannot hold it; it is joined to the first byte as R227 writes it, and changes bits 7:5 (DESIGN CHOICE, notes/assumptions/45.md). -/
def zxfImage (p : Nat) (z : ZVal) : List Byte :=
  let free := 2 ^ (z.l - 15 - min p (z.l - 15))
  let pw := if z.image % free == 0 then min p (z.l - 15) else z.l - 15
  leBytes 1 (((z.l / 32 - 1) * 32) ||| (z.l - 15 - pw)) ++ leBytes 1 z.s ++ leBytes (z.l / 8) z.image

/-- XST (R227): the source is named by the d field. Its address faults come before XREG (R51): of a source without a head they are checked
over the 6 bytes of the shortest element (DESIGN CHOICE, notes/assumptions/45.md). Where cells of the offset and of the source are empty, EMPTY
names the lowest-numbered one (DESIGN CHOICE, notes/assumptions/10.md). Each aligned 8-byte unit is written as one (R226). -/
def execXst (k : BitVec 2) (o : LaneOps) (s : State) : Host.Outcome State Fault Refusal :=
  run (.xst k o) s fun s => do
    s.th.needAll o.ep (srcB o 1 ++ [s.th.zSource 3 o.d.toNat])
    let ea := s.th.laneEa o
    let _ ← reach s .store k.toNat ea (2 + 4 * s.th.zCells o.d.toNat)
    let z ← s.th.zRead 3 o.d.toNat
    issueStore s k.toNat ea 8 (zxfImage s.th.p z)

/-- The space of a scalar access (R107). -/
def scalarSpace (o : ScalarOps) : Nat := (o.mod.extractLsb' 0 2).toNat

/-- The effective address of a scalar access (R178). -/
def Thread.scalarEa (t : Thread) (o : ScalarOps) : DWord := t.code o.a + t.scalarB o.b

/-- The size and sign of SLD by its minor (R107). -/
def sldSize (k : BitVec 3) : Nat × Bool :=
  match k.toNat with
  | 0 => (1, false)
  | 1 => (1, true)
  | 2 => (2, false)
  | 3 => (2, true)
  | 4 => (4, false)
  | 5 => (4, true)
  | _ => (8, false)

/-- SLD (R178): the thread is held until its data arrive. -/
def execSld (k : BitVec 3) (o : ScalarOps) (s : State) : Host.Outcome State Fault Refusal :=
  runHeld (.sld k o) s fun s => do
    let (n, sg) := sldSize k
    let r ← reach s .load (scalarSpace o) (s.th.scalarEa o) n
    let s ← issueLoad s r (.sload (o.d.extractLsb' 0 5) n sg) 0 0
    if r.mt == 3 then .ok (s.advance (Instr.sld k o).length)
    else .ok ((s.setTh { s.th with latch := some (BitVec.ofNat 32 (Instr.sld k o).length) }).hold .scalarLoad)

/-- SST (R178). -/
def execSst (k : BitVec 2) (o : ScalarOps) (s : State) : Host.Outcome State Fault Refusal :=
  run (.sst k o) s fun s =>
    storeNow s (scalarSpace o) (s.th.scalarEa o) (leBytes (2 ^ k.toNat) (s.th.code o.d).toNat)

end Sys2Proof.Machine
end

