-- ==== Sys2Proof/Machine/Atomics.lean ====
section
/-!
DEFINITION. Sys2Proof/Machine/Atomics.lean: the major AMO (R179 to R183, R110).
-/
namespace Sys2Proof.Machine

/-- An atomic's scope, as the decode mode reads it (R105, R110): 0 device, 1 thread, 2 crew, 3 core, 4 system; and whether its
space is the scratchpad. -/
def amoScope (m : DecodeMode) (mod : BitVec 5) : Nat × Bool :=
  let c := (mod.extractLsb' 0 3).toNat
  let scr := 5 ≤ c
  let scope := if scr then c - 4 else c
  (if m == .z1 then 0 else scope, scr)

/-- The order bits of an atomic (R105): acquire and release. -/
def amoAcquire (mod : BitVec 5) : Bool := mod[3]
def amoRelease (mod : BitVec 5) : Bool := mod[4]

/-- A scope as far as it reaches for the executing thread: at crew scope a thread in no crew contains only itself (R292). -/
def State.scopeOf (s : State) (scope : Nat) : Nat := if scope == 2 && s.th.crew == 0 then 1 else scope

/-- An operand of an atomic at the operation's width (R179): the cells of a field, or the immediate sign-extended. -/
def Thread.amoB (t : Thread) (o : LaneOps) (n : Nat) : BitVec 128 :=
  match o.b with
  | .cell c => BitVec.ofNat 128 (t.cellsNat c.toNat n)
  | .imm v => v.signExtend 128

/-- The locations of an atomic (R180): its alignment, then translation and permission. -/
def reachAmo (s : State) (scr : Bool) (n : Nat) (ea : DWord) : Except Stop Reach :=
  if ea.toNat % n != 0 then .error (permFault .atomic ea)
  else if scr then reachScr s .atomic 0 s.scrSize ea n
  else (reachGen s .atomic false ea n).map fun r => { r with route := .uncached }

/-- An atomic on host or peer memory, or on a page of type 3, orders at system scope (R181, R283). -/
def Reach.beyond (r : Reach) : Bool :=
  r.mt == 3 || (physKeys r.locs).any fun k => !keyIsDevice k

/-- The accesses that a release orders first, as far as its scope reaches, and the write-combining stores it drains (R182, R283). -/
def releaseFirst (s : State) (scope : Nat) (mod : BitVec 5) : Except Stop State :=
  if !amoRelease mod || scope == 1 then .ok s
  else if scope == 0 || scope == 4 then orderAll s
  else if scope == 2 then orderCrew s
  else orderCore s

/-- AMO (R180): a long-latency producer; with an acquire it is performed before the next instruction (R182), and at device or
system scope it discards the core's L1 (R270). -/
def amo (i : Instr) (o : LaneOps) (op : AmoOp) (n : Nat) (s : State) : Host.Outcome State Fault Refusal :=
  run i s fun s => do
    let cells := n / 4
    let cas := op == .cas
    s.th.needAll o.ep (srcB o cells ++ if cas then srcC o cells else [])
    let (scope0, scr) := amoScope s.th.mode o.mod
    let r ← reachAmo s scr n (s.th.sreg o.a.toNat)
    s.th.needFree o.d.toNat cells
    let scope := s.scopeOf (if r.beyond then 4 else scope0)
    let b := s.th.amoB o cells
    let c := if cas then BitVec.ofNat 128 (s.th.cellsNat o.c.toNat cells) else 0#128
    let s ← releaseFirst s scope o.mod
    let acquire := (r.mt == 3 || amoAcquire o.mod) && scope != 1
    let discard := acquire && (scope == 0 || scope == 4)
    let id := s.hw.nextId
    let s ← issueAccess s .atomic r (.atomic op n b c (o.mod.extractLsb' 3 2) discard) o.d.toNat cells n
    if acquire && r.mt != 3 then (performNow s id).map fun s => forget s fun p => p != 1 else .ok s

/-- AMO.add.b32 (R179). -/
def execAmoAddB32 (o : LaneOps) (s : State) := amo (.amoAddB32 o) o .add 4 s
/-- AMO.add.b64 (R179). -/
def execAmoAddB64 (o : LaneOps) (s : State) := amo (.amoAddB64 o) o .add 8 s
/-- AMO.min.i32 (R179). -/
def execAmoMinI32 (o : LaneOps) (s : State) := amo (.amoMinI32 o) o .minI 4 s
/-- AMO.min.n32 (R179). -/
def execAmoMinN32 (o : LaneOps) (s : State) := amo (.amoMinN32 o) o .minN 4 s
/-- AMO.max.i32 (R179). -/
def execAmoMaxI32 (o : LaneOps) (s : State) := amo (.amoMaxI32 o) o .maxI 4 s
/-- AMO.max.n32 (R179). -/
def execAmoMaxN32 (o : LaneOps) (s : State) := amo (.amoMaxN32 o) o .maxN 4 s
/-- AMO.and.b32 (R179). -/
def execAmoAndB32 (o : LaneOps) (s : State) := amo (.amoAndB32 o) o .and 4 s
/-- AMO.or.b32 (R179). -/
def execAmoOrB32 (o : LaneOps) (s : State) := amo (.amoOrB32 o) o .or 4 s
/-- AMO.xor.b32 (R179). -/
def execAmoXorB32 (o : LaneOps) (s : State) := amo (.amoXorB32 o) o .xor 4 s
/-- AMO.swap.b32 (R179). -/
def execAmoSwapB32 (o : LaneOps) (s : State) := amo (.amoSwapB32 o) o .swap 4 s
/-- AMO.swap.b64 (R179). -/
def execAmoSwapB64 (o : LaneOps) (s : State) := amo (.amoSwapB64 o) o .swap 8 s
/-- AMO.cas.b32 (R179). -/
def execAmoCasB32 (o : LaneOps) (s : State) := amo (.amoCasB32 o) o .cas 4 s
/-- AMO.cas.b64 (R179). -/
def execAmoCasB64 (o : LaneOps) (s : State) := amo (.amoCasB64 o) o .cas 8 s
/-- AMO.cas.b128 (R179). -/
def execAmoCasB128 (o : LaneOps) (s : State) := amo (.amoCasB128 o) o .cas 16 s
/-- AMO.fadd.f32 (R179). -/
def execAmoFaddF32 (o : LaneOps) (s : State) := amo (.amoFaddF32 o) o .fadd 4 s

end Sys2Proof.Machine
end

