-- ==== Sys2Proof/Machine/Scalar.lean ====
section
/-!
DEFINITION. Sys2Proof/Machine/Scalar.lean: the majors SALU, SSHIFT, SMUL, SBIT, SCMP/SSEL/PLOP and SMOVI (R143 to R148).
-/
namespace Sys2Proof.Machine

/-- A scalar instruction that writes d with a function of the values of a and b (R143). -/
def scalarBin (i : Instr) (o : ScalarOps) (f : DWord → DWord → DWord) (s : State) : Host.Outcome State Fault Refusal :=
  runTh i s fun t => .ok (t.setSreg o.d.toNat (f (t.code o.a) (t.scalarB o.b)))

/-- A scalar instruction that writes d with a function of the value of a (R145). -/
def scalarUn (i : Instr) (o : ScalarOps) (f : DWord → DWord) (s : State) : Host.Outcome State Fault Refusal :=
  runTh i s fun t => .ok (t.setSreg o.d.toNat (f (t.code o.a)))

/-- A scalar compare: predicate d takes the comparison of a with b (R147, R33). -/
def scalarCmp (i : Instr) (o : ScalarOps) (f : DWord → DWord → Bool) (s : State) : Host.Outcome State Fault Refusal :=
  runTh i s fun t => .ok (t.setPred o.d.toNat (f (t.code o.a) (t.scalarB o.b)))

/-- DIV and REM: a zero divisor with FCSR.IDZE raises the IDZ trap with LTVAL = A (R144, R47). -/
def scalarDivide (i : Instr) (o : ScalarOps) (f : DWord → DWord → DWord) (s : State) : Host.Outcome State Fault Refusal :=
  runTh i s fun t =>
    if t.fcsr[24] && t.scalarB o.b == 0#64 then .error (.trap 0x92 0 (t.code o.a) 0 0)
    else .ok (t.setSreg o.d.toNat (f (t.code o.a) (t.scalarB o.b)))

/-- A shift count: bits 5:0 of B (R143). -/
def countOf (b : DWord) : Nat := b.toNat % 64

/-! ### SALU -/

/-- ADD (R143). -/
def execAdd (o : ScalarOps) (s : State) := scalarBin (.add o) o (fun a b => a + b) s
/-- SUB (R143). -/
def execSub (o : ScalarOps) (s : State) := scalarBin (.sub o) o (fun a b => a - b) s
/-- MIN.i (R143). -/
def execMinI (o : ScalarOps) (s : State) := scalarBin (.minI o) o (fun a b => if b.slt a then b else a) s
/-- MAX.i (R143). -/
def execMaxI (o : ScalarOps) (s : State) := scalarBin (.maxI o) o (fun a b => if a.slt b then b else a) s
/-- MIN.n (R143). -/
def execMinN (o : ScalarOps) (s : State) := scalarBin (.minN o) o (fun a b => if b.ult a then b else a) s
/-- MAX.n (R143). -/
def execMaxN (o : ScalarOps) (s : State) := scalarBin (.maxN o) o (fun a b => if a.ult b then b else a) s
/-- AND (R143). -/
def execAnd (o : ScalarOps) (s : State) := scalarBin (.and o) o (fun a b => a &&& b) s
/-- OR (R143). -/
def execOr (o : ScalarOps) (s : State) := scalarBin (.or o) o (fun a b => a ||| b) s
/-- XOR (R143). -/
def execXor (o : ScalarOps) (s : State) := scalarBin (.xor o) o (fun a b => a ^^^ b) s
/-- ANDN (R143). -/
def execAndn (o : ScalarOps) (s : State) := scalarBin (.andn o) o (fun a b => a &&& ~~~b) s

/-! ### SSHIFT -/

/-- SHL (R143). -/
def execShl (o : ScalarOps) (s : State) := scalarBin (.shl o) o (fun a b => a <<< countOf b) s
/-- SHR (R143). -/
def execShr (o : ScalarOps) (s : State) := scalarBin (.shr o) o (fun a b => a >>> countOf b) s
/-- SAR (R143). -/
def execSar (o : ScalarOps) (s : State) := scalarBin (.sar o) o (fun a b => a.sshiftRight (countOf b)) s
/-- ROTL (R143). -/
def execRotl (o : ScalarOps) (s : State) := scalarBin (.rotl o) o (fun a b => a.rotateLeft (countOf b)) s

/-! ### SMUL -/

/-- MUL (R144). -/
def execMul (o : ScalarOps) (s : State) := scalarBin (.mul o) o (fun a b => a * b) s
/-- MULH.i (R144). -/
def execMulhI (o : ScalarOps) (s : State) :=
  scalarBin (.mulhI o) o (fun a b => BitVec.ofInt 64 (a.toInt * b.toInt / 18446744073709551616)) s
/-- MULH.n (R144). -/
def execMulhN (o : ScalarOps) (s : State) :=
  scalarBin (.mulhN o) o (fun a b => BitVec.ofNat 64 (a.toNat * b.toNat / 18446744073709551616)) s
/-- DIV.i (R144). -/
def execDivI (o : ScalarOps) (s : State) :=
  scalarDivide (.divI o) o (fun a b => if b == 0#64 then -1#64 else BitVec.ofInt 64 (Int.tdiv a.toInt b.toInt)) s
/-- DIV.n (R144). -/
def execDivN (o : ScalarOps) (s : State) := scalarDivide (.divN o) o (fun a b => if b == 0#64 then -1#64 else a / b) s
/-- REM.i (R144). -/
def execRemI (o : ScalarOps) (s : State) :=
  scalarDivide (.remI o) o (fun a b => if b == 0#64 then a else BitVec.ofInt 64 (Int.tmod a.toInt b.toInt)) s
/-- REM.n (R144). -/
def execRemN (o : ScalarOps) (s : State) := scalarDivide (.remN o) o (fun a b => if b == 0#64 then a else a % b) s

/-! ### SBIT -/

/-- CLZ (R145). -/
def execClz (o : ScalarOps) (s : State) := scalarUn (.clz o) o (fun a => BitVec.ofNat 64 (elClz 64 a.toNat)) s
/-- CTZ (R145). -/
def execCtz (o : ScalarOps) (s : State) := scalarUn (.ctz o) o (fun a => BitVec.ofNat 64 (elCtz 64 a.toNat)) s
/-- FFS (R145). -/
def execFfs (o : ScalarOps) (s : State) := scalarUn (.ffs o) o (fun a => BitVec.ofNat 64 (elFfs 64 a.toNat)) s
/-- POPC (R145). -/
def execPopc (o : ScalarOps) (s : State) := scalarUn (.popc o) o (fun a => BitVec.ofNat 64 (elPopc 64 a.toNat)) s
/-- BREV (R145). -/
def execBrev (o : ScalarOps) (s : State) := scalarUn (.brev o) o (fun a => BitVec.ofNat 64 (elBrev 64 a.toNat)) s
/-- BFX (R146): sx is bit 15 of the descriptor. -/
def execBfx (o : ScalarOps) (s : State) :=
  scalarBin (.bfx o) o (fun a b => BitVec.ofNat 64 (elBfx b[15] 64 a.toNat b.toNat)) s
/-- BFI (R146): the low bits of A inserted into the old d. -/
def execBfi (o : ScalarOps) (s : State) : Host.Outcome State Fault Refusal :=
  runTh (.bfi o) s fun t =>
    .ok (t.setSreg o.d.toNat
      (BitVec.ofNat 64 (elBfi 64 (t.sreg o.d.toNat).toNat (t.scalarB o.b).toNat (t.code o.a).toNat)))

/-! ### Compares, SEL, PLOP -/

/-- CMP.eq (R147). -/
def execCmpEq (o : ScalarOps) (s : State) := scalarCmp (.cmpEq o) o (fun a b => a == b) s
/-- CMP.ne (R147). -/
def execCmpNe (o : ScalarOps) (s : State) := scalarCmp (.cmpNe o) o (fun a b => a != b) s
/-- CMP.lt.i (R147). -/
def execCmpLtI (o : ScalarOps) (s : State) := scalarCmp (.cmpLtI o) o (fun a b => a.slt b) s
/-- CMP.le.i (R147). -/
def execCmpLeI (o : ScalarOps) (s : State) := scalarCmp (.cmpLeI o) o (fun a b => a.sle b) s
/-- CMP.lt.n (R147). -/
def execCmpLtN (o : ScalarOps) (s : State) := scalarCmp (.cmpLtN o) o (fun a b => a.ult b) s
/-- CMP.le.n (R147). -/
def execCmpLeN (o : ScalarOps) (s : State) := scalarCmp (.cmpLeN o) o (fun a b => a.ule b) s

/-- SEL.pN (R147): N is MOD bits 2:0. -/
def execSel (o : ScalarOps) (s : State) : Host.Outcome State Fault Refusal :=
  runTh (.sel o) s fun t =>
    .ok (t.setSreg o.d.toNat (if t.pred (o.mod.extractLsb' 0 3).toNat then t.code o.a else t.scalarB o.b))

/-- The predicate number in operand b of PLOP. -/
def bIndex (o : ScalarOps) : Nat :=
  match o.b with
  | .code c => c.toNat
  | .imm _ => 0

/-- The predicate logic of a MOD value (R147, R107). -/
def plopOf (m : Nat) (a b : Bool) : Bool :=
  match m with
  | 0 => a && b
  | 1 => a || b
  | 2 => a != b
  | 3 => a && !b
  | 4 => !(a || b)
  | 5 => !a
  | _ => a

/-- PLOP (R147). -/
def execPlop (o : ScalarOps) (s : State) : Host.Outcome State Fault Refusal :=
  runTh (.plop o) s fun t =>
    .ok (t.setPred o.d.toNat (plopOf o.mod.toNat (t.pred o.a.toNat) (t.pred (bIndex o))))

/-! ### SMOVI -/

/-- MOVI (R148). -/
def execMovi (o : ScalarOps) (s : State) : Host.Outcome State Fault Refusal :=
  runTh (.movi o) s fun t => .ok (t.setSreg o.d.toNat (t.scalarB o.b))

/-- The 27 bits of an immediate operand, zero-extended (R148). -/
def immBits (o : ScalarOps) : DWord :=
  match o.b with
  | .imm v => v.zeroExtend 64
  | .code c => c.zeroExtend 64

/-- MOVHI (R148). -/
def execMovhi (o : ScalarOps) (s : State) : Host.Outcome State Fault Refusal :=
  runTh (.movhi o) s fun t => .ok (t.setSreg o.d.toNat ((t.sreg o.d.toNat <<< 27) ||| immBits o))

end Sys2Proof.Machine
end

