-- ==== Sys2Proof/Machine/Order.lean ====
section
/-!
DEFINITION. Sys2Proof/Machine/Order.lean: the major ORDER: FENCE, PFENCE and WAITC (R184 to R187).
-/
namespace Sys2Proof.Machine

/-- Perform the outstanding accesses of the executing thread that `p` selects (R184, R186); a poisoned one is consumed (R371). -/
def flushThose (s : State) (p : Pend → Bool) : Except Stop State :=
  unlessConsumed (s.mapHw fun h => (h.pends.filter fun q => q.ofThread s.th && p q).foldl perform h) fun q => q.ofThread s.th && p q

/-- Perform the outstanding accesses of the executing thread on the paths that `p` selects (R293). -/
def flushPaths (s : State) (p : Nat → Bool) : Except Stop State := flushThose s fun q => p q.route.path

/-- The code-bank writes that the executing thread's PFENCEs have named become known to the threads of its core whose own PFENCE names the
code bank later: the writer's FENCE or barrier (R186). -/
def showBank (s : State) : State :=
  if s.th.knows.isEmpty then s
  else s.mapHw fun h =>
    let c := h.ctx s.th.key.part s.th.key.core
    h.setCtx { c with bankShown := nub (c.bankShown ++ s.th.knows) }

/-- The completed code-bank writes of the executing thread, and those that their issuers have shown, are ordered before the trials that it
issues from now on (R186, R253). -/
def knowBank (s : State) : State :=
  let c := s.hw.ctx s.th.key.part s.th.key.core
  let mine (x : BankOld) : Bool := x.issuer.key == s.th.key && x.issuer.tid == s.th.tid && x.issuer.launch == s.th.launch &&
    c.cpq.all fun q => q.id != x.id
  s.setTh { s.th with knows := nub (s.th.knows ++ (c.bankOld.filter mine).map (fun x => x.id) ++ c.bankShown) }

/-- The accesses that a FENCE orders, other than one of scope .thread (R184): the generic and scratchpad ones; but at crew scope in a thread of no
crew, which that scope alone contains (R292), those of the scratchpad, ordered at core scope all the same, and the write-combining stores
(R283, R303). -/
def fenceOrders (alone : Bool) (q : Pend) : Bool := if alone then q.route.path == 2 || q.mts.contains 1 else q.route.path != 1

/-- FENCE (R184, R270, R283, R303): every scope but .thread performs the accesses that it orders and drains the thread's write-combining stores;
crew and core scope make its stores known to the crew or to the core, device and system scope bring the stores that its core can see home
and discard the core's L1. -/
def execFence (o : ScalarOps) (s : State) : Host.Outcome State Fault Refusal :=
  run (.fence o) s fun s => do
    let scope := if s.th.mode == .z1 then 0 else (o.mod.extractLsb' 0 3).toNat
    if scope == 1 then .ok s
    else
      let alone := scope == 2 && s.th.crew == 0
      let s ← flushThose s (fenceOrders alone)
      let s := forget (showBank (drainOwn s)) fun p => if alone then p == 2 else p != 1
      .ok (if scope == 0 || scope == 4 then (drainCore s).mapHw fun h => dropL1 h s.th.key.part s.th.key.core
        else if alone then s else if scope == 2 then showCrew s else showOwn s)

/-- The path mask of PFENCE (R107): generic, constant, scratchpad, code bank. -/
def pathMask (o : ScalarOps) : Nat := bIndex o

/-- A path is one that a PFENCE mask names. -/
def onPath (mask path : Nat) : Bool := mask / 2 ^ path % 2 == 1

/-- What the executing thread has read on the constant path, its later reads on the generic path return, or what is newer (R186): the L1 shows
these bytes as they are. -/
def renewConRead (s : State) : State :=
  let ks := nub (s.th.conRead ++ (s.hw.pends.filter fun q => q.ofThread s.th && q.route.path == 1).flatMap fun q => physKeys q.locs)
  (s.onCore fun c => { c with l1 := ks.foldl Cache.freshAt c.l1 }).setTh { s.th with conRead := [] }

/-- PFENCE (R186, R253, R271, R297): the thread's accesses on the named paths are performed, code-bank writes among them. From a generic or constant access the edge reaches
every observer of the other paths, so the stores that the core can see come home; naming the constant path discards the core's constant
cache, and no L1 line is discarded (R299), but no later generic read returns less than a constant one has. -/
def execPfence (o : ScalarOps) (s : State) : Host.Outcome State Fault Refusal :=
  run (.pfence o) s fun s => do
    let mask := pathMask o
    let s ← flushPaths s (onPath mask)
    let s := forget s (onPath mask)
    let s := if onPath mask 0 then drainOwn s else s
    let s := if onPath mask 0 || onPath mask 1 then drainCore s else s
    let s := if onPath mask 0 && onPath mask 1 then renewConRead s else s
    let s := if onPath mask 3 then knowBank s else s
    .ok (if onPath mask 1 then s.mapHw fun h => dropCon h s.th.key.part s.th.key.core else s)

/-- The place of a class in CTRS and in the issue counters. -/
def EngineClass.index : EngineClass → Fin 4
  | .copy => 0
  | .matrix => 1
  | .select => 2
  | .trial => 3

/-- The outstanding commands of a class (R45). -/
def Thread.outstanding (t : Thread) (c : EngineClass) : List CmdTag := t.cmds.filter fun x => x.cls == c

/-- The count of a class in CTRS (R45). -/
def Thread.count (t : Thread) (c : EngineClass) : Nat := (t.outstanding c).length

/-- The n of WAITC (R187): signed, clamped to 0..63. -/
def waitCount (b : DWord) : Nat := (max 0 (min 63 b.toInt)).toNat

/-- What WAITC waits for (R187): at most n outstanding commands, all among the n most recently issued. -/
def Thread.waitDone (t : Thread) (c : EngineClass) (n : Nat) : Bool :=
  decide (t.count c ≤ n) && (t.outstanding c).all fun x => decide (t.issued[c.index] ≤ x.seq + n)

/-- WAITC (R187): the effects of completed commands are ordered on every path, the constant path included. -/
def waitc (i : Instr) (o : ScalarOps) (c : EngineClass) (s : State) : Host.Outcome State Fault Refusal :=
  run i s fun s =>
    if s.th.waitDone c (waitCount (s.th.scalarB o.b)) then
      .ok (forget ((s.mapHw fun h => dropCon h s.th.key.part s.th.key.core).onCore fun c => c.endLate fun _ => true) fun _ => true)
    else .error (.wait .waitc)

/-- WAITC.copy (R187). -/
def execWaitcCopy (o : ScalarOps) (s : State) := waitc (.waitcCopy o) o .copy s
/-- WAITC.matrix (R187). -/
def execWaitcMatrix (o : ScalarOps) (s : State) := waitc (.waitcMatrix o) o .matrix s
/-- WAITC.select (R187). -/
def execWaitcSelect (o : ScalarOps) (s : State) := waitc (.waitcSelect o) o .select s
/-- WAITC.trial (R187). -/
def execWaitcTrial (o : ScalarOps) (s : State) := waitc (.waitcTrial o) o .trial s

end Sys2Proof.Machine
end

