-- ==== Sys2Proof/Machine/CrewOps.lean ====
section
/-!
DEFINITION. Sys2Proof/Machine/CrewOps.lean: the major CREW (R20 to R23, R188 to R192).
-/
namespace Sys2Proof.Machine

/-- A nonzero 32-bit handle that is not in use (R41, R240): the choice is free; an unsuitable one gives way to the least free
handle. -/
def pickHandle (used : List Nat) (free : Nat) : Nat :=
  let ok (h : Nat) : Bool := h != 0 && !used.contains h
  if ok (free % 2 ^ 32) then free % 2 ^ 32 else ((List.range (used.length + 2)).find? ok).getD 1

/-- The crew of a key in a partition: its core and itself (R20). -/
def findCrew (h : Hw) (part : Nat) (key : DWord) : Option (Nat × Crew) :=
  (h.ctxs.filter fun c => c.part == part).findSome? fun c => (c.crews.find? fun x => x.key == key).map fun x => (c.core, x)

/-- CJOIN fails (R20). -/
def joinFails (t : Thread) (h : Hw) (key : DWord) : Bool :=
  key == 0#64 || key[63] || t.crew != 0 ||
  (match findCrew h t.key.part key with
    | some (core, x) => core != t.key.core || 1024 ≤ x.crewn
    | none => false)

/-- The executing thread joins the crew of a key, or creates it (R20, R21); while a phase is open it takes part from the next one
(R188). -/
def joinCrew (s : State) (key : DWord) : State :=
  let t := s.th
  let c := s.hw.ctx t.key.part t.key.core
  match c.crews.find? fun x => x.key == key with
  | some x =>
    let s := s.mapHw fun h => h.setCtx (c.setCrew { x with crewn := x.crewn + 1 })
    s.setTh { t with crew := x.handle, rank := x.crewn, arrived := false, exempt := x.phase.isSome }
  | none =>
    let hd := pickHandle (c.crews.map fun x => x.handle) (Config.freeNat s.hw.fresh)
    let x : Crew := ⟨hd, key, 1, [], none, none, []⟩
    let s := (s.mapHw fun h => h.setCtx { c with crews := c.crews ++ [x] }).tick
    s.setTh { t with crew := hd, rank := 0, arrived := false, exempt := false }

/-- CJOIN (R188). -/
def execCjoin (o : ScalarOps) (s : State) : Host.Outcome State Fault Refusal :=
  run (.cjoin o) s fun s =>
    let key := s.th.code o.a
    if joinFails s.th s.hw key then .ok (s.setTh (s.th.setPred o.d.toNat false))
    else
      let s := joinCrew s key
      .ok (s.setTh (s.th.setPred o.d.toNat true))

/-- CPART (R189). -/
def execCpart (o : ScalarOps) (s : State) : Host.Outcome State Fault Refusal :=
  run (.cpart o) s fun s => .ok (leaveCrew s s.th.key)

/-- The crew of the executing thread. -/
def State.myCrew (s : State) : Option Crew := (s.hw.ctx s.th.key.part s.th.key.core).crew? s.th.crew

/-- Change the crew of the executing thread. -/
def State.setMyCrew (s : State) (x : Crew) : State :=
  s.mapHw fun h => h.setCtx ((h.ctx s.th.key.part s.th.key.core).setCrew x)

/-- The phase in which a member arrives next: the open one, or the next one for a member that joined while a phase was open (R188). -/
def Crew.phaseOf (x : Crew) (t : Thread) : Option Phase := if t.exempt then x.next else x.phase

/-- The crew with that phase open. -/
def Crew.openFor (x : Crew) (t : Thread) (ph : Phase) : Crew := if t.exempt then { x with next := some ph } else { x with phase := some ph }

/-- Record the executing thread's arrival in the oldest phase that it has not arrived in, which its first arrival opens (R190, R191); an
arrival of the other kind is a mismatch. -/
def arrive (s : State) (x : Crew) (compact : Bool) : Except Stop State :=
  match x.phaseOf s.th with
  | none => .ok ((s.setMyCrew (x.openFor s.th ⟨compact, s.th.pc⟩)).setTh { s.th with arrived := true })
  | some ph =>
    if ph.compact == compact then .ok (s.setTh { s.th with arrived := true })
    else .error (.fault ⟨4, 0, false, false, ph.pc, 0⟩)

/-- What an arrival completes (R190). -/
def settleArrival (s : State) : State := settlePhase s s.th.key.part s.th.key.core s.th.crew

/-- CARRIVE (R190): it waits only where the member has already arrived; its accesses before the arrival are performed (R192). -/
def execCarrive (o : ScalarOps) (s : State) : Host.Outcome State Fault Refusal :=
  runHeld (.carrive o) s fun s =>
    match s.myCrew with
    | none => .ok (s.advance (Instr.carrive o).length)
    | some x =>
      if s.th.arrived then .error (.wait .barrier)
      else do
        let s ← orderCore s
        let s ← arrive (showBank s) x false
        .ok (settleArrival (s.advance (Instr.carrive o).length))

/-- CWAIT (R190). -/
def execCwait (o : ScalarOps) (s : State) : Host.Outcome State Fault Refusal :=
  run (.cwait o) s fun s => if s.myCrew.isSome && s.th.arrived then .error (.wait .barrier) else .ok s

/-- CBAR and CCOMPACT (R190, R191): the member arrives and is held until the phase it has arrived in completes; one that has already
arrived in a phase waits for it first. Its accesses before the arrival are performed (R192). -/
def barrier (i : Instr) (compact : Bool) (s : State) : Host.Outcome State Fault Refusal :=
  runHeld i s fun s =>
    match s.myCrew with
    | none => .ok (s.advance i.length)
    | some x =>
      if s.th.arrived then .error (.wait .barrier)
      else do
        let s ← orderCore s
        let s ← arrive (showBank s) x compact
        let s := (s.setTh { s.th with latch := some (BitVec.ofNat 32 i.length) }).hold .barrier
        .ok (settleArrival s)

/-- CBAR (R190). -/
def execCbar (o : ScalarOps) (s : State) := barrier (.cbar o) false s
/-- CCOMPACT (R191). -/
def execCcompact (o : ScalarOps) (s : State) := barrier (.ccompact o) true s

end Sys2Proof.Machine
end

