-- ==== Sys2Proof/Machine/Control.lean ====
section
/-!
DEFINITION. Sys2Proof/Machine/Control.lean: BR, JUMP, THREAD, TRAPS and CSR (R89, R155 to R167, R40 to R49).
-/
namespace Sys2Proof.Machine

/-! ### BR and JUMP -/

/-- The target of a branch (R89). -/
def branchTarget (pc : DWord) (off : BitVec 19) : DWord := pc + (off.signExtend 64 <<< 2)

/-- BR (R89): the hint changes nothing (R90). -/
def execBr (o : BranchOps) (s : State) : Host.Outcome State Fault Refusal :=
  runJump (.br o) s fun s =>
    let take := s.th.pred o.pred.toNat != o.pneg
    .ok (s.setTh { s.th with pc := if take then branchTarget s.th.pc o.off else s.th.pc + 4 })

/-- A target with bits 1:0 ignored (R155). -/
def aligned4 (v : DWord) : DWord := v &&& 0xFFFFFFFFFFFFFFFC#64

/-- The address after an instruction of the executing thread. -/
def State.after (s : State) (i : Instr) : DWord := s.th.pc + BitVec.ofNat 64 i.length

/-- JMP (R155). -/
def execJmp (o : ScalarOps) (s : State) : Host.Outcome State Fault Refusal :=
  runJump (.jmp o) s fun s => .ok (s.setTh { s.th with pc := aligned4 (s.th.code o.a + s.th.scalarB o.b) })

/-- push(v) (R155): nothing changes where the access faults. -/
def push (s : State) (v : DWord) : Except Stop State := do
  let sp := s.th.sreg 31
  if sp.toNat % 8 != 0 then .error (permFault .store (sp - 8))
  else
    let s ← storeNow s s.stackSpace (sp - 8) (leBytes 8 v.toNat)
    .ok (s.setTh (s.th.setSreg 31 (sp - 8)))

/-- CALL (R155): a word offset. -/
def execCall (o : ScalarOps) (s : State) : Host.Outcome State Fault Refusal :=
  runJump (.call o) s fun s => do
    let t := s.th.pc + (s.th.scalarB o.b <<< 2)
    let s' ← push s (s.after (.call o))
    .ok (s'.setTh { s'.th with pc := aligned4 t })

/-- CALLI (R155). -/
def execCalli (o : ScalarOps) (s : State) : Host.Outcome State Fault Refusal :=
  runJump (.calli o) s fun s => do
    let t := aligned4 (s.th.code o.a)
    let s' ← push s (s.after (.calli o))
    .ok (s'.setTh { s'.th with pc := t })

/-- RET (R155). -/
def execRet (o : ScalarOps) (s : State) : Host.Outcome State Fault Refusal :=
  runJump (.ret o) s fun s => do
    let sp := s.th.sreg 31
    if sp.toNat % 8 != 0 then .error (permFault .load sp)
    else
      let (bs, s') ← loadNow s s.stackSpace sp 8
      .ok (s'.setTh { s'.th.setSreg 31 (sp + 8) with pc := aligned4 (BitVec.ofNat 64 (leNat bs)) })

/-- CSW (R156). -/
def execCsw (o : ScalarOps) (s : State) : Host.Outcome State Fault Refusal :=
  runJump (.csw o) s fun s =>
    let t := s.th
    let newpc := aligned4 (t.sreg o.d.toNat)
    let newfp := t.sreg o.a.toNat
    let t' := ((t.setSreg o.d.toNat (s.after (.csw o))).setSreg o.a.toNat (t.sreg 30)).setSreg 30 newfp
    .ok (s.setTh { t' with pc := newpc })

/-! ### THREAD -/

/-- NOP (R158). -/
def execNop (o : ScalarOps) (s : State) : Host.Outcome State Fault Refusal := run (.nop o) s fun s => .ok s

/-- YIELD (R158): a switch point (R18), as `isSwitch` says; it has no other effect. -/
def execYield (o : ScalarOps) (s : State) : Host.Outcome State Fault Refusal := run (.yield o) s fun s => .ok s

/-- SPAWN (R159, R160): the parent's accesses are performed; the child is made at completion. -/
def execSpawn (o : ScalarOps) (s : State) : Host.Outcome State Fault Refusal :=
  run (.spawn o) s fun s => do
    s.th.needFree o.d.toNat 1
    let kind := PendKind.spawn (aligned4 (s.th.code o.a)) (s.th.scalarB o.b)
    let s ← orderAll s
    .ok (s.issuePend (s.newPend kind o.d.toNat 1 1 ⟨[], .uncached, []⟩))

/-- The next unused TID of the executing thread's launch (R10). -/
def State.nextTid (s : State) : Nat := ((s.hw.launch? s.th.key.part s.th.launch).map fun l => l.nextTid).getD 0

/-- AWAIT of this TID gives all ones at once (R161). -/
def awaitsNothing (s : State) (tid : BitVec 32) : Bool :=
  s.th.trial.isSome || tid == s.th.tid || decide (s.nextTid ≤ tid.toNat)

/-- AWAIT (R161). Its result cells are under the empty policy (R99): where one of them is empty, EP = 1 raises EMPTY, and with EP = 0 the
instruction waits (R38). -/
def execAwait (o : ScalarOps) (s : State) : Host.Outcome State Fault Refusal :=
  run (.await o) s fun s => do
    s.th.need o.ep 3 o.d.toNat 2
    let tid := (s.th.code o.a).extractLsb' 0 32
    if awaitsNothing s tid then .ok (s.setTh (s.th.writePlains o.d.toNat [0xFFFFFFFF#32, 0xFFFFFFFF#32]))
    else .ok (s.issuePend (s.newPend (.await tid false) o.d.toNat 2 1 ⟨[], .uncached, []⟩))

/-- The physical core that serves a logical core (R378, R411). -/
def physOf (h : Hw) (core : Nat) : Option PhysCore := h.cores.find? fun c => c.use == .serving core || c.use == .moving core

/-- A launch had an event on a core (R380, R381), which takes the next number. -/
def noteRan (h : Hw) (part core launch : Nat) : Hw :=
  match h.launch? part launch, physOf h core with
  | some l, some c =>
    { h with nextId := h.nextId + 1 }.setLaunch
      { l with ran := (c.die, c.idx, h.nextId) :: l.ran.filter fun r => !(r.1 == c.die && r.2.1 == c.idx) }
  | _, _ => h

/-- A launch has work left on a core: threads, starts, commands or trials (R268). -/
def busyOn (s : State) (part core launch : Nat) : Bool :=
  let c := s.hw.ctx part core
  (s.allThreads.any fun t => t.key.part == part && t.key.core == core && t.launch == launch) ||
  (c.startq.any fun e => e.launch == launch) || (c.mxq.any fun m => m.issuer.launch == launch) ||
  (match c.mxRun with
    | some r => r.cmd.issuer.launch == launch
    | none => false) ||
  (match c.mxSpill with
    | some r => r.cmd.issuer.launch == launch
    | none => false) ||
  (c.cpq.any fun m => m.issuer.launch == launch) || (c.selq.any fun m => m.issuer.launch == launch) ||
  (c.lookups.any fun x => x.launch == launch) ||
  (s.hw.pends.any fun p => p.key.part == part && p.key.core == core && p.launch == launch)

/-- The regions of a launch on a core are freed once it has no work left there (R268). -/
def settleRegions (s : State) (part core launch : Nat) : State :=
  if busyOn s part core launch then s
  else s.mapHw fun h =>
    let c := h.ctx part core
    h.setCtx { c with
      regions := c.regions.filter fun r => r.launch != launch
      resvs := c.resvs.filter fun r => r.launch != launch
      exited := c.exited.filter fun x => x.launch != launch }

/-- A thread has engine commands or trials that have not completed on a core (R162). -/
def hasCommands (s : State) (part core launch : Nat) (tid : BitVec 32) : Bool :=
  let c := s.hw.ctx part core
  let mine (b : Issuer) : Bool := b.launch == launch && b.tid == tid
  let run (r : Option MxRun) : Bool := match r with
    | some x => mine x.cmd.issuer
    | none => false
  (c.mxq.any fun m => mine m.issuer) || run c.mxRun || run c.mxSpill || (c.cpq.any fun m => mine m.issuer) ||
  (c.selq.any fun m => mine m.issuer) || (c.lookups.any fun x => x.launch == launch && x.req.issuerTid == tid) ||
  (c.startq.any fun e => e.launch == launch && (match e.kind with
    | .trial r => r.issuerTid == tid
    | _ => false)) ||
  s.allThreads.any fun t => t.key.part == part && t.key.core == core && t.launch == launch && (match t.trial with
    | some r => r.req.issuerTid == tid
    | none => false)

/-- The reservations of a thread's own are released (R241). -/
def releaseOwn (c : Ctx) (launch : Nat) (tid : BitVec 32) : Ctx :=
  { c with resvs := c.resvs.map fun r => if r.owner == .thread launch tid then { r with released := true } else r }

/-- A thread that has exited keeps its reservations and its tickets until its commands have completed (R162, R241, R322). -/
def settleExited (s : State) (part core launch : Nat) (tid : BitVec 32) : State :=
  if hasCommands s part core launch tid then s
  else s.mapHw fun h =>
    let c := h.ctx part core
    if c.exited.any fun x => x.launch == launch && x.tid == tid then
      h.setCtx { releaseOwn c launch tid with exited := c.exited.filter fun x => !(x.launch == launch && x.tid == tid) }
    else h

/-- The executing thread ends (R162): its crew membership ends, its exit value is kept, its slot is free; a SPAWN in progress still
completes, and what it owns stays until its commands have completed. -/
def exitThread (s : State) (v : DWord) : State :=
  let t := s.th
  let s := leaveCrew s t.key
  let s := s.mapHw fun h =>
    let h := match h.launch? t.key.part t.launch with
      | some l => h.setLaunch { l with exits := (t.tid.toNat, v) :: l.exits }
      | none => h
    let h := { h with pends := h.pends.filter fun p => !(p.key == t.key) || (match p.kind with
      | .spawn _ _ => true
      | _ => false) }
    let c := h.ctx t.key.part t.key.core
    let h := h.setCtx { c with exited := ⟨t.launch, t.tid, t.tickets⟩ :: c.exited }
    noteRan h t.key.part t.key.core t.launch
  let s := settleExited (s.dropThread t.key) t.key.part t.key.core t.launch t.tid
  settleRegions s t.key.part t.key.core t.launch

/-- EXIT (R162); in a trial it ends the current example, which Campion then folds (R346). -/
def execExit (o : ScalarOps) (s : State) : Host.Outcome State Fault Refusal :=
  runHeld (.exit o) s fun s =>
    match s.th.trial with
    | some r => .ok (s.settled.setTh { s.settled.th with trial := some { r with folding := true } })
    | none => do
      let v := s.th.code o.a
      let s ← orderAll s
      .ok (exitThread s v)

/-! ### TRAPS -/

/-- TRAP (R163). -/
def execTrap (o : ScalarOps) (s : State) : Host.Outcome State Fault Refusal :=
  runJump (.trap o) s fun _ => .error (.trap ((immBits o).extractLsb' 0 8) 0 (immBits o) 0 0)

/-- TRET.retry (R52, R164). -/
def execTretRetry (o : ScalarOps) (s : State) : Host.Outcome State Fault Refusal :=
  runJump (.tretRetry o) s fun s => .ok (s.setTh (s.th.returnTo s.th.ltip))

/-- TRET.skip (R52, R164): the word at LTIP tells its instruction's length; a fetch fault there is TRET.skip's own. -/
def execTretSkip (o : ScalarOps) (s : State) : Host.Outcome State Fault Refusal :=
  runJump (.tretSkip o) s fun s => do
    let (w, s) ← fetchWord s s.th.ltip
    .ok (s.setTh (s.th.returnTo (s.th.ltip + if hasExtension w then 8 else 4)))

/-- TCLR (R52, R164). -/
def execTclr (o : ScalarOps) (s : State) : Host.Outcome State Fault Refusal :=
  runTh (.tclr o) s fun t => .ok { t with tstate := false }

/-! ### CSR -/

/-- The CSR address of an instruction (R107). -/
def csrAddr (o : ScalarOps) : Nat := (immBits o).toNat % 4096

/-- CTRS (R45). -/
def Thread.ctrs (t : Thread) : DWord :=
  BitVec.ofNat 64 (t.count .copy + 2 ^ 8 * t.count .matrix + 2 ^ 16 * t.count .select + 2 ^ 24 * t.count .trial)

/-- TRIALST (R53). -/
def Thread.trialst (t : Thread) : DWord :=
  match t.trial with
  | none => 0
  | some r => BitVec.ofNat 64 (1 + 2 ^ 8 * r.ex + 2 ^ 16 * r.req.nex)

/-- The number of a decode mode (R41). -/
def DecodeMode.number : DecodeMode → Nat
  | .z1 => 1
  | .z2 => 2
  | .z3 => 3

/-- The value of a CSR (R41); none for an address outside the map. -/
def csrValue (s : State) (a : Nat) : Option DWord :=
  let t := s.th
  match a with
  | 0x000 => some (t.tid.zeroExtend 64)
  | 0x001 => some (BitVec.ofNat 64 t.key.core)
  | 0x002 => some (BitVec.ofNat 64 t.launch)
  | 0x003 => some (BitVec.ofNat 64 t.crew)
  | 0x004 => some (BitVec.ofNat 64 t.rank)
  | 0x005 => some (BitVec.ofNat 64 (s.crewn t))
  | 0x006 => some (t.tile.zeroExtend 64)
  | 0x007 => some (BitVec.ofNat 64 t.win)
  | 0x008 => some (BitVec.ofNat 64 (DecodeMode.number t.mode))
  | 0x010 => some (t.prec.zeroExtend 64)
  | 0x011 => some (t.xflags.zeroExtend 64)
  | 0x012 => some (t.fcsr.zeroExtend 64)
  | 0x020 => some t.ltv
  | 0x021 => some (t.ltc.zeroExtend 64)
  | 0x022 => some t.ltip
  | 0x023 => some t.ltval
  | 0x024 => some (if t.tstate then 1 else 0)
  | 0x030 => some t.fuel
  | 0x031 => some t.sig
  | 0x032 => some (t.sign.zeroExtend 64)
  | 0x033 => some t.trialst
  | 0x040 => some t.ctrs
  | 0x050 => some (BitVec.ofNat 64 s.time)
  | 0x051 => some t.seed
  | _ => none

/-- CSRs that legacy decode refuses (R40). -/
def csrLegacy (a : Nat) : Bool := a == 0x010 || a == 0x011 || (0x030 ≤ a && a ≤ 0x033)

/-- CSRs that CSR instructions may write (R41). -/
def csrWritable (a : Nat) : Bool := [0x006, 0x010, 0x011, 0x012, 0x020, 0x021, 0x022, 0x023, 0x031, 0x032, 0x051].contains a

/-- CSRs that a trial may write (R54). -/
def csrTrial (a : Nat) : Bool := [0x006, 0x010, 0x011, 0x012, 0x051].contains a

/-- PREC with p clamped to 2..241 and its reserved bits 0 (R42); the flag tells a clamp. -/
def precOf (v : DWord) : BitVec 32 × Bool :=
  let w := v.extractLsb' 0 32 &&& 0x01F7FFFF#32
  let p := (w.extractLsb' 0 8).toNat
  if p < 2 then ((w &&& 0xFFFFFF00#32) ||| 2#32, true)
  else if 241 < p then ((w &&& 0xFFFFFF00#32) ||| 241#32, true)
  else (w, false)

/-- Write a CSR by its field rules (R25, R40, R42 to R49); the detail of ILL where the write is refused. -/
def csrStore (t : Thread) (a : Nat) (v : DWord) : Except (BitVec 8) Thread :=
  match a with
  | 0x006 =>
    let top := if t.mode == .z3 then 5 else 4
    if 1 ≤ v.toNat ∧ v.toNat ≤ top then .ok { t with tile := v.extractLsb' 0 3 } else .error 6
  | 0x010 =>
    if 6 ≤ (v.extractLsb' 16 3).toNat then .error 5
    else
      let (w, clamped) := precOf v
      .ok { t with prec := w, xflags := if clamped then t.xflags ||| xPc else t.xflags }
  | 0x011 => .ok { t with xflags := v.extractLsb' 0 6 }
  | 0x012 =>
    if 6 ≤ (v.extractLsb' 0 3).toNat then .error 5
    else .ok { t with fcsr := v.extractLsb' 0 25 &&& 0x11F1F07#25 }
  | 0x020 => .ok { t with ltv := aligned4 v }
  | 0x021 => .ok { t with ltc := v.extractLsb' 0 16 }
  | 0x022 => .ok { t with ltip := aligned4 v }
  | 0x023 => .ok { t with ltval := v }
  | 0x031 => .ok { t with sig := v }
  | 0x032 => .ok { t with sign := v.extractLsb' 0 12 }
  | 0x051 => .ok { t with seed := v, randN := 0 }
  | _ => .error 5

/-- An XLD of the executing thread has not completed: its flags are still to come. -/
def xldInFlight (s : State) : Bool := s.hw.pends.any fun p => p.key == s.th.key && p.tid == s.th.tid && p.launch == s.th.launch &&
  (match p.kind with
  | .xload _ _ _ => true
  | _ => false)

/-- The old value of a CSR, or ILL (R40). XFLAGS is set in program order with CSR instructions (R167): one that names it waits for the XLDs
in flight, as for their cells (DESIGN CHOICE for the form of the wait, notes/assumptions/45.md). -/
def csrOld (i : Instr) (s : State) (a : Nat) : Except Stop DWord :=
  if s.th.mode != .z3 && csrLegacy a then .error (ill i 5)
  else if a == 0x011 && xldInFlight s then .error (.wait .emptyCell)
  else match csrValue s a with
    | some v => .ok v
    | none => .error (ill i 5)

/-- CSRR (R165). -/
def execCsrr (o : ScalarOps) (s : State) : Host.Outcome State Fault Refusal :=
  run (.csrr o) s fun s => do
    let old ← csrOld (.csrr o) s (csrAddr o)
    .ok (s.setTh (s.th.setSreg o.d.toNat old))

/-- CSRW, CSRS, CSRC (R165, R166, R54): `f` makes the new value from the old one and A. -/
def csrChange (i : Instr) (o : ScalarOps) (f : DWord → DWord → DWord) (s : State) : Host.Outcome State Fault Refusal :=
  run i s fun s => do
    let a := csrAddr o
    let old ← csrOld i s a
    if !csrWritable a || (s.th.trial.isSome && !csrTrial a) then .error (ill i 5)
    else match csrStore s.th a (f old (s.th.code o.a)) with
      | .ok t => .ok (s.setTh (t.setSreg o.d.toNat old))
      | .error d => .error (ill i d)

/-- CSRW (R165). -/
def execCsrw (o : ScalarOps) (s : State) := csrChange (.csrw o) o (fun _ a => a) s
/-- CSRS (R165). -/
def execCsrs (o : ScalarOps) (s : State) := csrChange (.csrs o) o (fun old a => old ||| a) s
/-- CSRC (R165). -/
def execCsrc (o : ScalarOps) (s : State) := csrChange (.csrc o) o (fun old a => old &&& ~~~a) s

end Sys2Proof.Machine
end

