-- ==== Sys2Proof/Machine/Engines.lean ====
section
/-!
DEFINITION. Sys2Proof/Machine/Engines.lean: what the engine instructions and the engines share: parameter blocks (R232), issuing and
ending commands (R45, R234, R235), engine accesses, presence bits (R252, R272), reservations (R240, R241) and draw permits (R321).
-/
namespace Sys2Proof.Machine

/-! ### Parameter blocks (R232) -/

/-- The number in the bytes `i` .. `i + n − 1` of a block. -/
def fld (bs : List Byte) (i n : Nat) : Nat := leNat ((bs.drop i).take n)

/-- The bytes `i` .. `i + n − 1` of a block are 0. -/
def zeroFld (bs : List Byte) (i n : Nat) : Bool := fld bs i n == 0

/-- The issuing thread reads a block of `n` bytes at a block address, aligned to `align`, as one load (R232), each byte of which the thread may
have read ahead by itself (R176, R298); an address that is not admitted raises ILL with detail 2. -/
def readBlock (i : Instr) (s : State) (a : DWord) (n align : Nat) : Except Stop (List Byte × State) :=
  if a[63] then
    let off := a.extractLsb' 0 19
    if a.extractLsb' 19 44 != 0 || off.toNat % align != 0 then .error (ill i 2)
    else loadNow s 1 (off.zeroExtend 64) n
  else if a.toNat % align != 0 then .error (ill i 2)
  else loadNow s 0 a n

/-- A check of a field: ILL with detail 2 where it fails. -/
def check (i : Instr) (ok : Bool) : Except Stop Unit := if ok then .ok () else .error (ill i 2)

/-! ### Commands -/

/-- The sizes of the launch of the executing thread: scratchpad bytes, operand-buffer bytes, accumulator columns. -/
def State.obufSize (s : State) : Nat := ((s.hw.launch? s.th.key.part s.th.launch).map fun l => l.obuf).getD 0
def State.accCols (s : State) : Nat := ((s.hw.launch? s.th.key.part s.th.launch).map fun l => l.acc).getD 0

/-- The context of the executing thread's core. -/
def State.myCtx (s : State) : Ctx := s.hw.ctx s.th.key.part s.th.key.core

/-- Change a context. -/
def State.mapCtx (s : State) (part core : Nat) (f : Ctx → Ctx) : State :=
  s.mapHw fun h => h.setCtx (f (h.ctx part core))

/-- Change the regions of a launch on a core. -/
def State.mapRegion (s : State) (part core launch : Nat) (f : Region → Region) : State :=
  s.mapCtx part core fun c => c.setRegion (f (c.region launch))

/-- The executing thread issues a command that counts in a class (R45); at a count of 63 it waits. Its accesses come before the command
(R234). -/
def countCommand (s : State) (cls : EngineClass) : Except Stop (Issuer × State) :=
  if 63 ≤ s.th.count cls then .error (.wait .engine)
  else do
    let s ← orderAll s
    let t := s.th
    let seq := t.issued[cls.index]
    let b : Issuer := ⟨t.key, t.tid, t.launch, t.pc, seq⟩
    .ok (b, s.setTh { t with cmds := t.cmds ++ [⟨cls, seq⟩], issued := t.issued.set cls.index (seq + 1) })

/-- The executing thread issues a command that counts in no class. -/
def plainCommand (s : State) : Except Stop (Issuer × State) := do
  let s ← orderAll s
  .ok (⟨s.th.key, s.th.tid, s.th.launch, s.th.pc, 0⟩, s)

/-- A fresh identifier. -/
def State.newId (s : State) : Nat × State := (s.hw.nextId, s.mapHw fun h => { h with nextId := h.nextId + 1 })

/-- The issuer of a command, if it is still resident. -/
def State.issuer? (s : State) (b : Issuer) : Option Thread :=
  (s.thread? b.key).filter fun t => t.tid == b.tid && t.launch == b.launch

/-- A command's class count falls (R231). -/
def uncount (s : State) (b : Issuer) (cls : EngineClass) : State :=
  match s.issuer? b with
  | some t => s.setThread { t with cmds := removeFirst (fun x => x == ⟨cls, b.seq⟩) t.cmds }
  | none => s

/-- The number of a class in a fault record (R361). -/
def EngineClass.number : EngineClass → Nat
  | .copy => 0
  | .matrix => 1
  | .select => 2
  | .trial => 3

/-- An engine fault parks a thread at its next instruction boundary (R235); one that is parked already parks again when it is
resumed. -/
def Thread.engineFault (t : Thread) : Thread :=
  if t.park == .none then { t with park := .engine } else { t with engineDue := true }

/-- A command that has left its queue is over (R231, R268): its launch had an event on the core, what its issuer owns may end with it, and
its regions may be free. -/
def commandOver (s : State) (b : Issuer) : State :=
  let s := s.mapHw fun h => noteRan h b.key.part b.key.core b.launch
  settleRegions (settleExited s b.key.part b.key.core b.launch b.tid) b.key.part b.key.core b.launch

/-- A command that has left its queue stopped on a fault (R235): its ENGINE record is appended, the class count falls and the
issuer parks. -/
def engineFault (s : State) (b : Issuer) (cls : EngineClass) (counted : Bool) (f : SupFault) : State :=
  let s := appendRecord s b.key.part b.launch
    ⟨8, 0, 4 + (if f.store then 1 else 0), b.key.core, b.tid.toNat, b.ip, f.val, f.cause.toNat, cls.number⟩
  let s := if counted then uncount s b cls else s
  let s := match s.issuer? b with
    | some t => s.setThread t.engineFault
    | none => s
  commandOver s b

/-! ### Engine accesses -/

/-- Who a command is to the access checks: its issuer (R13, R235), on no picker's issue. -/
def Issuer.who (b : Issuer) : Who := ⟨b.key.part, b.launch, some b.key, none⟩

/-- A command consumes the error of a byte (R371): with a record for no thread. -/
def Issuer.ue (b : Issuer) (h : Hw) (k : Nat) : Ue := ⟨b.key.part, b.launch, b.key.core, 0xFFFFFFFF, b.ip, poisonClass h k, 4, k⟩

/-- A command that has not done its access: it waits, until the staging of a page is done where it is the first to write it (R373), or its
launch consumes an error (R371). A fault stops the command, which its engine says. -/
def commandWaits (s : State) (b : Issuer) (e : Stop) : State :=
  match e with
  | .stage ps => wantPages s b.key.part b.launch none ps
  | .consumed u => consumeUe s u
  | _ => s

/-- A command reads bytes through the generic path. -/
def engRead (s : State) (b : Issuer) (ea : DWord) (n : Nat) : Except Stop (List Byte × State) :=
  match checkGen s b.who .load ea n with
  | .error e => .error e
  | .ok xs => match poisonOf s.hw (xkeys xs) with
    | some k => .error (.consumed (b.ue s.hw k))
    | none => .ok ((xkeys xs).map fun k => sget s.hw.mem k, s.mapHw fun h => noteReads (touch h b.who .load xs) (xkeys xs))

/-- Write translated bytes at their homes. -/
def engPut (s : State) (b : Issuer) (xs : Xlated) (bs : List Byte) : State :=
  s.mapHw fun h => writeKeys (touch h b.who .store xs) none ((xkeys xs).zip bs)

/-- The 128-byte lines of written bytes are added to those that a command has written. -/
def addLines (wrote : List Nat) (ks : List Nat) : List Nat := nub (wrote ++ ks.map lineOf)

/-- At completion the lines that the command has written leave the L1 of its issuer's core (R300). -/
def dropWritten (s : State) (b : Issuer) (wrote : List Nat) : State :=
  s.mapHw fun h => dropL1Lines h b.key.part b.key.core (wrote.map (128 * ·))

/-- A command writes bytes through the generic path: all or none of them; with the lines it has written. -/
def engWrite (s : State) (b : Issuer) (wrote : List Nat) (ea : DWord) (bs : List Byte) : Except Stop (State × List Nat) :=
  match checkGen s b.who .store ea bs.length with
  | .error e => .error e
  | .ok xs => .ok (engPut s b xs bs, addLines wrote (xkeys xs))

/-- How many bytes of a write pass every check, from the first one up. -/
def writable (s : State) (b : Issuer) (ea : DWord) (n : Nat) : Nat :=
  ((List.range n).takeWhile fun i => (checkGen s b.who .store (ea + BitVec.ofNat 64 i) 1).isOk).length

/-- A write of which the bytes before the lowest failing one are written (R332); one that waits writes nothing. -/
def engWritePart (s : State) (b : Issuer) (wrote : List Nat) (ea : DWord) (bs : List Byte) : State × List Nat × Option Stop :=
  match engWrite s b wrote ea bs with
  | .ok (s', wrote') => (s', wrote', none)
  | .error (.fault f) => match engWrite s b wrote ea (bs.take (writable s b ea bs.length)) with
    | .ok (s', wrote') => (s', wrote', some (.fault f))
    | .error _ => (s, wrote, some (.fault f))
  | .error e => (s, wrote, some e)

/-- A stretch at an address, with its first byte at place `base`, is being written in several steps, and its byte at place `n` has just been:
where the bytes of its granule, of which `put` lists the places, are all written, its poison is cleared (R371). A stretch without an address is
not in memory. -/
def sealByte (s : State) (b : Issuer) (ea : Option DWord) (base n : Nat) (put : List Nat) : State :=
  match ea with
  | none => s
  | some a =>
    let x := a + BitVec.ofNat 64 (n - base)
    let r := x.toNat % 32
    if decide (base + r ≤ n) && (List.range 32).all fun i => put.contains (n - r + i) then
      match checkGen s b.who .store x 1 with
      | .ok xs => s.mapHw fun h => clearPoison h ((List.range 32).map fun i => (xkeys xs).headD 0 - r + i)
      | .error _ => s
    else s

/-- Write the bytes of a stretch at an address of which some have been written before, each at its place from `base` up (R291): `one` writes
bytes at an offset of the stretch. Where none has been written, the whole stretch is written at once. -/
def putRest (b : Issuer) (ea : Option DWord) (one : State → List Nat → Nat → List Byte → State × List Nat × Option Stop) (s : State)
    (wrote put : List Nat) (base : Nat) (bs : List Byte) : State × List Nat × Option Stop :=
  if (List.range bs.length).all fun i => !put.contains (base + i) then one s wrote 0 bs
  else (List.range bs.length).foldl (fun x i => match x.2.2 with
    | some _ => x
    | none =>
      if put.contains (base + i) then x
      else match one x.1 x.2.1 i [bs.getD i 0] with
        | (s, wrote, none) => (sealByte s b ea base (base + i) (put ++ (List.range (i + 1)).map (base + ·)), wrote, none)
        | y => y) (s, wrote, none)

/-- Bytes just read, but for those that were read before (R291). -/
def withSeen (seen : List (Nat × Byte)) (at_ : Nat → Nat) (bs : List Byte) : List Byte :=
  bs.mapIdx fun i b => ((seen.find? fun x => x.1 == at_ i).map Prod.snd).getD b

/-! ### Presence bits (R252, R272) -/

/-- The scratchpad lines of a range of offsets. -/
def linesOf (off n : Nat) : List Nat := if n == 0 then [] else (List.range (lineOf (off + n - 1) + 1 - lineOf off)).map fun i => lineOf off + i

/-- A command that is to write lines clears their presence bits; what threads have read ahead there no longer counts (R301). -/
def Ctx.clearLines (c : Ctx) (launch : Nat) (ls : List Nat) : Ctx :=
  let r := c.region launch
  (c.setRegion { r with absent := nub (r.absent ++ ls) }).dropAhead fun a =>
    (scrOffs (a.bytes.map Prod.fst)).any fun o => ls.contains (lineOf o)

/-- The width of a matrix or conversion destination code in bits (R106). -/
def fmtWidth (fmt : Nat) : Nat := (AnyFmt.ofCode fmt).width

/-- The bytes that a number of packed bits takes. -/
def bytesFor (bits : Nat) : Nat := (bits + 7) / 8

/-- The scratchpad lines an ACCRD writes (R248). -/
def AccRd.lines (d : AccRd) : List Nat :=
  match d.dst with
  | some off => linesOf off (bytesFor (d.cnt * fmtWidth d.fmt))
  | none => []

/-- The lines a matrix command writes. -/
def MxOp.lines (o : MxOp) : List Nat :=
  match o with
  | .rd d => d.lines
  | _ => []

/-- The address of a row (R249, R250, R333). -/
def rowAddr (base : DWord) (stride : Int) (r : Nat) : DWord := base + BitVec.ofInt 64 (stride * (r : Int))

/-- The scratchpad lines a copy command writes (R252). -/
def CopyCmd.lines (c : CopyCmd) : List Nat :=
  if c.dsp == 1 && c.kind != .look then nub ((List.range c.rows).flatMap fun r => linesOf (rowAddr c.dst c.ds r).toNat c.rb) else []

/-- The greatest extent of the output of a Teasel command (R255). -/
def SelBlock.outExtent (b : SelBlock) : Nat :=
  match b.out with
  | 1 => bytesFor b.n
  | 2 => 4 * b.n
  | _ => 0

/-- The scratchpad lines a Teasel command with `out` bytes of output writes. -/
def SelBlock.lines (k : SelBlock) (out : Nat) : List Nat :=
  if k.osp == 1 then linesOf k.outa.toNat out ++ linesOf k.recAddr.toNat 32 else []

/-- The lines that those commands of a launch on the core whose numbers satisfy `p` are still to write. -/
def Ctx.dueLines (c : Ctx) (launch : Nat) (p : Nat → Bool) : List Nat :=
  let mx (m : MxCmd) : List Nat := if m.issuer.launch == launch && p m.id then m.op.lines else []
  let run (r : Option MxRun) : List Nat := match r with
    | some x => mx x.cmd
    | none => []
  (c.cpq.filter fun q => q.issuer.launch == launch && p q.id).flatMap CopyCmd.lines ++
    ((c.selq.filter fun q => q.issuer.launch == launch && p q.id).flatMap fun q => q.blk.lines q.blk.outExtent) ++
    c.mxq.flatMap mx ++ run c.mxRun ++ run c.mxSpill

/-- A command's access to scratchpad lines waits for the commands issued before it that are still to write them (R234, R273, R301). -/
def Ctx.linesHeld (c : Ctx) (launch id : Nat) (ls : List Nat) : Bool :=
  let due := c.dueLines launch fun n => decide (n < id)
  ls.any fun l => due.contains l && (c.region launch).absent.contains l

/-- Command `id`, which was to write lines, is over: each becomes present once no other outstanding command that writes it remains (R252,
R272). -/
def Ctx.fillLines (c : Ctx) (launch id : Nat) (ls : List Nat) : Ctx :=
  let due := c.dueLines launch fun n => n != id
  let r := c.region launch
  c.setRegion { r with absent := r.absent.filter fun l => !(ls.contains l && !due.contains l) }

/-! ### Reservations (R240, R241) -/

/-- The reservation of a handle that a command of a launch may name. -/
def Ctx.resv? (c : Ctx) (launch handle : Nat) : Option Reservation :=
  c.resvs.find? fun r => r.handle == handle && r.launch == launch && !r.released

/-! ### Draw permits (R321, R322) -/

/-- The budget of a logical core. -/
def Hw.budget (h : Hw) (core : Nat) : Budget := (h.budgets.find? fun b => b.core == core).getD (Budget.fresh core)

def Hw.setBudget (h : Hw) (b : Budget) : Hw := { h with budgets := h.budgets.map fun c => if c.core == b.core then b else c }

/-- The balance covers a cost, or a cost beyond the whole grant finds the balance at the grant; a grant of 0 holds everything. -/
def Budget.covers (b : Budget) (cost : Nat) : Bool :=
  b.grant != 0 && (decide ((cost : Int) ≤ b.balance) || (b.grant < cost && b.balance == (b.grant : Int)))

/-- There is a ticket of a class among tickets (R322). -/
def hasTicket (cls : EngineClass) (ts : List Ticket) : Bool := ts.any fun x => x.cls == cls && x.count != 0

/-- The oldest ticket of a class is spent. -/
def spendTicket (cls : EngineClass) : List Ticket → List Ticket
  | [] => []
  | x :: xs =>
    if x.cls == cls && x.count != 0 then (if x.count == 1 then xs else { x with count := x.count - 1 } :: xs) else x :: spendTicket cls xs

/-- The tickets of the issuer of a command: of the thread, or of what it has left at its exit (R162, R322). -/
def issuerTickets (s : State) (b : Issuer) : List Ticket :=
  match s.issuer? b with
  | some t => t.tickets
  | none => ((((s.hw.ctx b.key.part b.key.core).exited.find? fun x => x.launch == b.launch && x.tid == b.tid).map fun x => x.tickets).getD [])

/-- The issuer of a command spends a ticket of a class. -/
def spendIssuerTicket (s : State) (b : Issuer) (cls : EngineClass) : State :=
  match s.issuer? b with
  | some t => s.setThread { t with tickets := spendTicket cls t.tickets }
  | none => s.mapCtx b.key.part b.key.core fun c => { c with exited := c.exited.map fun (x : Exited) =>
      if x.launch == b.launch && x.tid == b.tid then { x with tickets := spendTicket cls x.tickets } else x }

/-- Work at the head of its engine queue asks for its permit: a ticket of its issuer starts it without waiting; else it takes its
credits at once where no request of its partition waits (R324) and the balance covers them; else it waits. The flag tells whether it may start. -/
def takePermit (s : State) (b : Issuer) (cls : EngineClass) (what : PermitFor) (cost : Nat) : State × Bool :=
  let bud := s.hw.budget b.key.core
  let paid : Budget := { bud with balance := bud.balance - (cost : Int) }
  if hasTicket cls (issuerTickets s b) then
    let paid : Budget := { paid with waiting := paid.waiting.filter fun q => !(q.what == what) }
    ((spendIssuerTicket s b cls).mapHw fun h => h.setBudget paid, true)
  else if bud.waiting.any fun q => q.what == what then (s, false)
  else if (bud.waiting.all fun q => q.part != b.key.part) && bud.covers cost then (s.mapHw fun h => h.setBudget paid, true)
  else (s.mapHw fun h => h.setBudget { bud with waiting := bud.waiting ++ [⟨b.key.part, what, cost⟩] }, false)

/-- What is of a partition on a core proceeds: the partition runs there (R324, R325, R378). -/
def contextRuns (s : State) (part core : Nat) : Bool := (s.hw.part part).cores.contains core && coreRuns s.hw part core

/-- A core halts for a swap or a migration of what runs on it (R324, R378). -/
def haltsNow (h : Hw) (part core : Nat) : Bool :=
  let p := h.part part
  p.active && p.cores.contains core && (p.swap == .halting || (p.swap == .none && h.cores.any fun c => c.use == .moving core))

/-- The engines with queues (R236) of a core work for a partition: it runs there, and the core's grant is not 0 (R321). -/
def enginesRun (s : State) (part core : Nat) : Bool := contextRuns s part core && (s.hw.budget core).grant != 0

end Sys2Proof.Machine
end

