-- ==== Sys2Proof/Machine/Matrix.lean ====
section
/-!
DEFINITION. Sys2Proof/Machine/Matrix.lean: the major MATRIX (R240 to R248), the matrix engine (R79, R80, R245, R246, R327 to R331), and
the steps of the engine.
-/
namespace Sys2Proof.Machine

/-! ### Operand formats (R243, R244) -/

/-- The element width of a matrix operand format (R243). -/
def mxWidth (f : Nat) : Nat :=
  match f with
  | 0 | 1 | 5 => 8
  | 2 | 3 => 6
  | 4 | 6 => 4
  | 7 | 8 => 16
  | _ => 2

/-- The float format of a matrix operand code (R244). -/
def mxFmt (f : Nat) : FFmt :=
  match f with
  | 0 => fmtE4m3
  | 1 => fmtE5m2
  | 2 => fmtE3m2
  | 3 => fmtE2m3
  | 4 => fmtE2m1
  | 7 => fmtF16
  | _ => fmtBf16

/-- An integer operand format (R244). -/
def mxInt (f : Nat) : Bool := f == 5 || f == 6

/-- The accepted pairs (R244). -/
def mxPair (a b : Nat) : Bool :=
  (a < 4 && b < 4) || (a == 4 && b == 4) || ((a == 7 || a == 8) && (b == 7 || b == 8)) || (a < 2 && b == 9) || (mxInt a && mxInt b)

/-- A block length code with a format (R244): required on VQ2, not accepted on 16-bit and integer formats. -/
def mxBlockOk (f blk : Nat) : Bool := if f == 9 then blk == 1 || blk == 2 else if f < 5 then blk ≤ 2 else blk == 0

/-- The elements of a block (R240). -/
def blockLen (blk : Nat) : Nat := if blk == 0 then 0 else 16 * blk

/-- The clocks a command runs (R244, R245). -/
def mxClocks (fa k : Nat) : Nat := 64 + (if fa == 4 then k / 2 else if fa == 7 || fa == 8 then 2 * k else k)

/-! ### OBRES and OBREL -/

/-- The record of OBRES is within its limits (R240, R244); `size` is the launch's operand-buffer region. -/
def resvOk (bs : List Byte) (size : Nat) : Bool :=
  let base := fld bs 0 4
  let len := fld bs 4 4
  let f := fld bs 8 1
  let blk := fld bs 9 1
  let scale := fld bs 16 4
  let book := fld bs 20 4
  base % 128 == 0 && len % 128 == 0 && 128 ≤ len && base + len ≤ size && f ≤ 9 && mxBlockOk f blk &&
  zeroFld bs 10 2 && zeroFld bs 24 8 && (blk == 0 || scale < len) &&
  (if f == 9 then book % 4 == 0 && book + 1024 ≤ len else book == 0)

/-- The owner of a reservation of a thread (R240). -/
def Thread.owner (t : Thread) : Owner := if t.crew != 0 then .crew t.crew else .thread t.launch t.tid

/-- OBRES (R240): the handle is a free choice. -/
def execObres (o : ScalarOps) (s : State) : Host.Outcome State Fault Refusal :=
  run (.obres o) s fun s => do
    let (bs, s) ← readBlock (.obres o) s (s.th.code o.a) 32 16
    check (.obres o) (resvOk bs s.obufSize)
    let c := s.myCtx
    let base := fld bs 0 4
    let len := fld bs 4 4
    let clash (r : Reservation) : Bool := r.launch == s.th.launch && decide (base < r.base + r.length) && decide (r.base < base + len)
    if c.resvs.any clash || 64 ≤ c.resvs.length then .ok (s.setTh (s.th.setSreg o.d.toNat 0))
    else
      let hd := pickHandle (c.resvs.map fun r => r.handle) (Config.freeNat s.hw.fresh)
      let r : Reservation := ⟨hd, s.th.owner, s.th.launch, base, len, fld bs 8 1, fld bs 9 1, fld bs 12 4, fld bs 16 4, fld bs 20 4, false⟩
      let s := (s.mapCtx s.th.key.part s.th.key.core fun c => { c with resvs := c.resvs ++ [r] }).tick
      .ok (s.setTh (s.th.setSreg o.d.toNat (BitVec.ofNat 64 hd)))

/-- OBREL (R241): of a reservation of the thread's crew, or of its own, made while it was in no crew. -/
def execObrel (o : ScalarOps) (s : State) : Host.Outcome State Fault Refusal :=
  run (.obrel o) s fun s =>
    let hd := (s.th.code o.a).toNat % 2 ^ 32
    let mine (r : Reservation) : Bool := r.handle == hd && r.launch == s.th.launch &&
      (r.owner == s.th.owner || r.owner == .thread s.th.launch s.th.tid)
    .ok (s.mapCtx s.th.key.part s.th.key.core fun c =>
      { c with resvs := c.resvs.map fun (r : Reservation) => if mine r then { r with released := true } else r })

/-- The handles a matrix command names. -/
def MxOp.handles (o : MxOp) : List Nat :=
  match o with
  | .go p => (if p.srcA.obuf then [p.srcA.handle] else []) ++ (if p.srcB.obuf then [p.srcB.handle] else [])
  | _ => []

/-- Some command that has not completed names a handle (R241). -/
def Ctx.handleBusy (c : Ctx) (hd : Nat) : Bool :=
  let run (r : Option MxRun) : Bool := match r with
    | some x => x.cmd.op.handles.contains hd
    | none => false
  (c.mxq.any fun m => m.op.handles.contains hd) || run c.mxRun || run c.mxSpill || c.cpq.any fun m => m.handles.contains hd

/-- RESERVATION_RELEASE (R241): a released reservation ends once no command that names it is left. -/
def execReservationRelease (part core handle : Nat) (s : State) : Host.Outcome State Fault Refusal :=
  let c := s.hw.ctx part core
  whenEnabled (!c.handleBusy handle && c.resvs.any fun r => r.handle == handle && r.released) s
    (s.mapCtx part core fun c => { c with resvs := c.resvs.filter fun r => !(r.handle == handle && r.released) })

/-! ### MXGO (R242 to R244) -/

/-- The bytes of `n` packed elements (R58). -/
def rowBytes (f n : Nat) : Nat := bytesFor (n * mxWidth f)

/-- A source descriptor at byte `i` of the block with its scale offset, resolved and checked (R243, R331). No rule says that the operand's
format is the reservation's: that only VQ2 asks for a VQ2 reservation, which alone has a codebook, is a DESIGN CHOICE
(notes/assumptions/45.md). -/
def mxSource (c : Ctx) (launch scr : Nat) (bs : List Byte) (i sc f rows k : Nat) : Option MxSrc :=
  let rot := fld bs (i + 1) 1
  let blk := fld bs (i + 2) 1
  let base := fld bs (i + 4) 4
  let pitch := fld bs (i + 8) 4
  let tpitch := fld bs (i + 12) 4
  if !zeroFld bs (i + 3) 1 then none
  else if fld bs i 1 == 0 then
    match c.resv? launch base with
    | none => none
    | some r =>
      let bl := blockLen r.blk
      if rot == 0 && blk == 0 && pitch == 0 && tpitch == 0 && mxBlockOk f r.blk && (f != 9 || r.format == 9) &&
          (bl == 0 || k % bl == 0) && (rows - 1) * r.pitch + rowBytes f k ≤ r.length &&
          (bl == 0 || r.scale + rows * (k / bl) ≤ r.length) then
        some ⟨true, r.handle, 0, bl, r.base, r.pitch, 0, r.base + r.scale, r.base + r.book⟩
      else none
  else if fld bs i 1 == 1 then
    let bl := blockLen blk
    if rot ≤ 3 && f != 9 && mxBlockOk f blk && (bl == 0 || k % bl == 0) &&
        ((List.range ((k + 255) / 256)).all fun t =>
          base + t * tpitch + (rows - 1) * pitch + rowBytes f (min 256 (k - 256 * t)) ≤ scr) &&
        (bl == 0 || sc + rows * (k / bl) ≤ scr) then
      some ⟨false, 0, rot, bl, base, pitch, tpitch, sc, 0⟩
    else none
  else none

/-- The parameter block of MXGO within its limits (R242 to R244). -/
def mxGo? (c : Ctx) (launch scr cols : Nat) (bs : List Byte) : Option (MxGo × Bool) :=
  let fa := fld bs 0 1
  let fb := fld bs 1 1
  let flags := fld bs 2 1
  let m := fld bs 4 2
  let n := fld bs 6 2
  let k := fld bs 8 2
  let cb := fld bs 10 2
  let spill := fld bs 48 8
  if mxPair fa fb && flags < 4 && zeroFld bs 3 1 && 1 ≤ m && m ≤ 256 && 1 ≤ n && n ≤ 384 && 16 ≤ k && k ≤ 4096 && k % 16 == 0 &&
      cb + n ≤ cols && zeroFld bs 12 4 && spill % 4096 == 0 then
    match mxSource c launch scr bs 16 (fld bs 56 4) fa m k, mxSource c launch scr bs 32 (fld bs 60 4) fb n k with
    | some a, some b => some (⟨fa, fb, flags % 2 == 1, m, n, k, cb, a, b, BitVec.ofNat 64 spill⟩, flags / 2 == 1)
    | _, _ => none
  else none

/-- A matrix command enters the queue of the executing thread's core; a full queue holds the thread (R233). -/
def queueMx (s : State) (b : Issuer) (high : Bool) (op : MxOp) : State :=
  let (id, s) := s.newId
  s.mapCtx s.th.key.part s.th.key.core fun c => ({ c with mxq := c.mxq ++ [⟨id, b, high, op, false⟩] } : Ctx).clearLines s.th.launch op.lines

/-- The matrix queue of the executing thread's core is full (R233). That the running command takes no place of it, where the running copy and
Teasel commands take one of theirs, is a DESIGN CHOICE (notes/assumptions/45.md). -/
def mxFull (s : State) : Except Stop Unit := if 32 ≤ s.myCtx.mxq.length then .error (.wait .engine) else .ok ()

/-- MXGO (R242). -/
def execMxgo (o : ScalarOps) (s : State) : Host.Outcome State Fault Refusal :=
  run (.mxgo o) s fun s => do
    let a := s.th.code o.a
    check (.mxgo o) (a.toNat % 16 == 0)
    let (bs, s) ← loadNow s 1 a 64
    match mxGo? s.myCtx s.th.launch s.scrSize s.accCols bs with
    | none => .error (ill (.mxgo o) 2)
    | some (p, high) =>
      mxFull s
      let (b, s) ← countCommand s .matrix
      .ok (queueMx s b high (.go p))

/-- MXCLR (R247). -/
def execMxclr (o : ScalarOps) (s : State) : Host.Outcome State Fault Refusal :=
  run (.mxclr o) s fun s => do
    let a := (s.th.code o.a).toNat
    let b := (s.th.scalarB o.b).toNat
    check (.mxclr o) (1 ≤ b && b ≤ 1024 && a + b ≤ s.accCols)
    mxFull s
    let (iss, s) ← countCommand s .matrix
    .ok (queueMx s iss false (.clr a b))

/-- ACCWR (R247): the a field names a cell. That the ILL of an operand out of range, which execution finds, comes before EMPTY is a DESIGN CHOICE
(notes/assumptions/45.md): R51 places only the faults found at decode. -/
def execAccwr (o : ScalarOps) (s : State) : Host.Outcome State Fault Refusal :=
  run (.accwr o) s fun s => do
    let b := (s.th.scalarB o.b).toNat
    check (.accwr o) (b < 2 ^ 18 && b / 256 < s.accCols)
    s.th.need o.ep 0 o.a.toNat 1
    mxFull s
    let (iss, s) ← countCommand s .matrix
    .ok (queueMx s iss false (.wr (b % 256) (b / 256) (s.th.cell o.a.toNat).data))

/-- The descriptor of ACCRD (R248); `cell` is the destination cell of cell mode. -/
def accRd? (s : State) (a b cell : Nat) : Option AccRd :=
  let fmt := bitsOf a 29 26
  let rnd := bitsOf a 32 30
  let scr := bitsOf a 33 33 == 1
  let cnt := if scr then bitsOf a 45 35 else cvtCount (fmtWidth fmt)
  let col := bitsOf a 17 8
  let rm : BitVec 3 := if rnd == 0 then s.th.fcsr.extractLsb' 0 3 else BitVec.ofNat 3 (rnd - 1)
  if bitsOf a 63 46 == 0 && fmt != 3 && fmt != 15 && rnd != 7 && col + cnt ≤ s.accCols &&
      (if scr then 1 ≤ cnt && cnt ≤ 1024 && b + bytesFor (cnt * fmtWidth fmt) ≤ s.scrSize else bitsOf a 45 35 == 0) then
    some ⟨bitsOf a 7 0, col, cnt, bitsOf a 34 34 == 1, intOf 8 true (bitsOf a 25 18), rm, fmt, if scr then some b else none, cell⟩
  else none

/-- ACCRD (R248): in cell mode vd is marked empty and no class counts the command. -/
def execAccrd (o : ScalarOps) (s : State) : Host.Outcome State Fault Refusal :=
  run (.accrd o) s fun s => do
    match accRd? s (s.th.code o.a).toNat (s.th.scalarB o.b).toNat o.d.toNat with
    | none => .error (ill (.accrd o) 2)
    | some d =>
      match d.dst with
      | some _ => do
        mxFull s
        let (b, s) ← countCommand s .matrix
        .ok (queueMx s b false (.rd d))
      | none => do
        s.th.needFree d.cell 1
        mxFull s
        let (b, s) ← plainCommand s
        let s := queueMx s b false (.rd d)
        .ok (s.setTh (s.th.markEmpty d.cell 1))

/-! ### Reading operands (R62, R63, R243, R331) -/

/-- The byte at an address of an operand's row, rotated in the scratchpad. -/
def MxSrc.byteAt (x : MxSrc) (r : Region) (row a : Nat) : Nat :=
  if x.obuf then (sget r.obuf a).toNat else (sget r.scr (a ^^^ (row % 2 ^ x.rot * 16))).toNat

/-- Element (row, κ) of `w` bits. -/
def MxSrc.elem (x : MxSrc) (r : Region) (w row kk : Nat) : Nat :=
  let (start, e) := if x.obuf then (x.base + row * x.pitch, kk) else (x.base + kk / 256 * x.tpitch + row * x.pitch, kk % 256)
  let a := start + e * w / 8
  let b := e * w % 8
  let hi := if 8 < b + w then x.byteAt r row (a + 1) else 0
  (x.byteAt r row a + 256 * hi) / 2 ^ b % 2 ^ w

/-- The block scale of an element, as a value; 1 without blocks. -/
def MxSrc.scaleOf (x : MxSrc) (r : Region) (row kk k : Nat) : FVal :=
  if x.blk == 0 then .fin false 1 0 false
  else
    let a := x.scale + row * (k / x.blk) + kk / x.blk
    let e := (if x.obuf then sget r.obuf a else sget r.scr a).toNat
    if e == 255 then FVal.dflt else .fin false 1 ((e : Int) - 127) false

/-- Weight `e` of a VQ2 index with a codebook (R63). -/
def vq2Weight (book : List Byte) (index e : Nat) : FVal :=
  let entry := fld book (4 * (index / 256)) 4
  let mag := 2 * (entry / 2 ^ (4 * e) % 16) + index % 2
  let bit (j : Nat) : Bool := index / 2 ^ (j + 1) % 2 == 1
  let sgn := if e < 7 then bit e else ((List.range 7).countP bit) % 2 == 1
  .fin sgn mag (-3) false

/-- Element (row, κ) of a float operand, without its scale. -/
def MxSrc.value (x : MxSrc) (r : Region) (f : Nat) (book : List Byte) (row kk : Nat) : FVal :=
  if f == 9 then
    let a := x.base + row * x.pitch + 2 * (kk / 8)
    vq2Weight book ((sget r.obuf a).toNat + 256 * (sget r.obuf (a + 1)).toNat) (kk % 8)
  else (mxFmt f).decode (x.elem r (mxWidth f) row kk)

/-- A product with the scales of both operands (R79). -/
def mxProduct (a b sa sb : FVal) : FVal :=
  if a.isNan then a.quieten
  else if b.isNan then b.quieten
  else if sa.isNan || sb.isNan then FVal.dflt
  else match (mulVal a b).bind fun v => (mulVal v sa).bind fun v => mulVal v sb with
    | some v => v
    | none => FVal.dflt

/-- The product of row i of A and row j of B at κ. -/
def MxGo.term (p : MxGo) (r : Region) (book : List Byte) (i j kk : Nat) : FVal :=
  mxProduct (p.srcA.value r p.fa [] i kk) (p.srcB.value r p.fb book j kk) (p.srcA.scaleOf r i kk p.k) (p.srcB.scaleOf r j kk p.k)

/-- One group of 16 products added to a binary32 accumulator (R79). -/
def accumulate (acc : Nat) (terms : List FVal) : Nat :=
  let a := fmtF32.decode acc
  let g := (groupSum terms).1
  (fmtF32.place .rne (arith [a, g] (addVal .rne a g)).1).1

/-- Integer products of a range added to an int32 accumulator (R80). -/
def MxGo.intSum (p : MxGo) (r : Region) (i j lo n acc : Nat) : Nat :=
  let wa := mxWidth p.fa
  let wb := mxWidth p.fb
  let sum := (List.range n).foldl
    (fun (x : Int) e => x + intOf wa true (p.srcA.elem r wa i (lo + e)) * intOf wb true (p.srcB.elem r wb j (lo + e))) (acc : Int)
  patOf 32 sum

/-- The k-steps lo .. lo + n − 1 for one element of the tile (R79, R80). -/
def MxGo.advance (p : MxGo) (r : Region) (book : List Byte) (i j lo n acc : Nat) : Nat :=
  if mxInt p.fa then p.intSum r i j lo n acc
  else (List.range (n / 16)).foldl
    (fun a g => accumulate a ((List.range 16).map fun e => p.term r book i j (lo + 16 * g + e))) acc

/-- A tile of m × n words in canonical form. -/
def tileOf (m n : Nat) (f : Nat → Nat → Nat) : AccStore :=
  (List.range m).flatMap fun i => (List.range n).filterMap fun j =>
    let v := BitVec.ofNat 32 (f i j)
    if v == 0#32 then none else some (384 * i + j, v)

/-- The key of an operand byte in `MxRun.seen`. -/
def MxSrc.seenKey (x : MxSrc) (a : Nat) : Nat := if x.obuf then a else 2 ^ 32 + a

/-- The operand bytes of the k-steps lo .. lo + n − 1, which lie in one tile of 256, with `rows` rows of `w`-bit elements: those of the
elements and those of the scales. -/
def MxSrc.keys (x : MxSrc) (w rows k lo n : Nat) : List Nat :=
  (List.range rows).flatMap fun row =>
    let start := if x.obuf then x.base + row * x.pitch + lo * w / 8 else x.base + lo / 256 * x.tpitch + row * x.pitch + lo % 256 * w / 8
    ((List.range (bytesFor (n * w))).map fun i => if x.obuf then start + i else (start + i) ^^^ (row % 2 ^ x.rot * 16)).map x.seenKey ++
      if x.blk == 0 then []
      else (List.range ((lo + n - 1) / x.blk + 1 - lo / x.blk)).map fun i => x.seenKey (x.scale + row * (k / x.blk) + lo / x.blk + i)

/-- The operand bytes of the k-steps lo .. lo + n − 1 of a command. -/
def MxGo.keys (p : MxGo) (lo n : Nat) : List Nat :=
  p.srcA.keys (mxWidth p.fa) p.m p.k lo n ++ p.srcB.keys (mxWidth p.fb) p.n p.k lo n

/-- The byte of a region under a key of `MxRun.seen`. -/
def Region.operandByte (r : Region) (k : Nat) : Byte := if k < 2 ^ 32 then sget r.obuf k else sget r.scr (k - 2 ^ 32)

/-- A region as a command sees it, with the bytes that it has read before. -/
def Region.withSeen (r : Region) (seen : List (Nat × Byte)) : Region :=
  seen.foldl (fun (r : Region) x =>
    if x.1 < 2 ^ 32 then { r with obuf := sset r.obuf x.1 x.2 }
    else if x.1 < 2 ^ 40 then { r with scr := sset r.scr (x.1 - 2 ^ 32) x.2 } else r) r

/-- A command reads operand bytes, each once (R330). -/
def MxRun.look (x : MxRun) (r : Region) (ks : List Nat) : MxRun :=
  { x with seen := ks.foldl (fun seen k => if seen.any fun y => y.1 == k then seen else (k, r.operandByte k) :: seen) x.seen }

/-- A chunk of k-steps of a running command (R327): it reads what it has not read of the chunk's operands, and adds. -/
def MxRun.chunk (x : MxRun) (p : MxGo) (r : Region) (n : Nat) : MxRun :=
  let x := x.look r (p.keys x.done n)
  let r := r.withSeen x.seen
  { x with
    done := x.done + n
    tile := tileOf p.m p.n fun i j => p.advance r x.book i j x.done n (sget x.tile (384 * i + j)).toNat }

/-- The matrix engine of a core reads one operand byte of its running command ahead of the chunk (R330). -/
def mxReadAhead (s : State) (part core key : Nat) : State :=
  let c := s.hw.ctx part core
  match c.mxRun with
  | none => s
  | some x => match x.cmd.op with
    | .go p =>
      if enginesRun s part core && !x.spilling && ((List.range ((p.k + 255) / 256)).any fun t =>
          decide (x.done ≤ 256 * t) && (p.keys (256 * t) (min 256 (p.k - 256 * t))).contains key) then
        s.mapCtx part core fun c => { c with mxRun := some (x.look (c.region x.cmd.issuer.launch) [key]) }
      else s
    | _ => s

/-- The tile's words go to the accumulator store (R245). -/
def writeTile (acc : AccStore) (p : MxGo) (tile : AccStore) : AccStore :=
  (List.range p.m).foldl (fun a i => (List.range p.n).foldl (fun a j => sset a (1024 * i + p.cb + j) (sget tile (384 * i + j))) a) acc

/-! ### Choosing and starting commands (R234, R246, R329) -/

/-- The accumulator columns a command names: first and number. -/
def MxOp.cols (o : MxOp) : Nat × Nat :=
  match o with
  | .go p => (p.cb, p.n)
  | .clr col n => (col, n)
  | .wr _ col _ => (col, 1)
  | .rd d => (d.col, d.cnt)

/-- Two commands name overlapping columns of one region. -/
def mxOverlap (a b : MxCmd) : Bool :=
  let (ca, na) := a.op.cols
  let (cb, nb) := b.op.cols
  a.issuer.launch == b.issuer.launch && decide (ca < cb + nb) && decide (cb < ca + na)

/-- An earlier queued command of the same thread on overlapping columns holds a command (R234). -/
def mxBehind (q : List MxCmd) (m : MxCmd) : Bool :=
  q.any fun x => x.id < m.id && x.issuer.key == m.issuer.key && x.issuer.tid == m.issuer.tid && mxOverlap x m

/-- The high-priority command that may start next: in issue order, but for those that overlap a spilled command's columns. One that R234 holds
behind an earlier command of its thread holds the later ones, and does not count as queued for the resume rule (DESIGN CHOICE,
notes/assumptions/45.md). -/
def Ctx.nextHigh (c : Ctx) : Option MxCmd :=
  let clear (m : MxCmd) : Bool := match c.mxSpill with
    | some x => !mxOverlap x.cmd m
    | none => true
  (c.mxq.find? fun m => m.high && clear m).filter fun m => !mxBehind c.mxq m

/-- The low-priority command that may start next: none while a command is spilled. -/
def Ctx.nextLow (c : Ctx) : Option MxCmd :=
  if c.mxSpill.isSome then none else (c.mxq.find? fun m => !m.high).filter fun m => !mxBehind c.mxq m

/-- The scratchpad lines a source reads. -/
def MxSrc.lines (x : MxSrc) (f rows k : Nat) : List Nat :=
  if x.obuf then []
  else
    nub (((List.range ((k + 255) / 256)).flatMap fun t => (List.range rows).flatMap fun i =>
        linesOf (x.base + t * x.tpitch + i * x.pitch) (rowBytes f (min 256 (k - 256 * t)))) ++
      (if x.blk == 0 then [] else linesOf x.scale (rows * (k / x.blk))))

/-- The scratchpad lines a matrix command reads. -/
def MxOp.reads (o : MxOp) : List Nat :=
  match o with
  | .go p => p.srcA.lines p.fa p.m p.k ++ p.srcB.lines p.fb p.n p.k
  | _ => []

/-- A command starts (R245, R330): its accumulator words and the codebook are read. -/
def mxBegin (r : Region) (m : MxCmd) : MxRun :=
  match m.op with
  | .go p =>
    let tile := if p.clear then [] else tileOf p.m p.n fun i j => (sget r.acc (1024 * i + p.cb + j)).toNat
    ⟨m, 0, tile, if p.fb == 9 then readBytes r.obuf p.srcB.book 1024 else [], false, [], [], []⟩
  | _ => ⟨m, 0, [], [], false, [], [], []⟩

/-- The draw credits of a command (R320): none but for MXGO (R236). -/
def MxOp.cost (o : MxOp) : Option Nat :=
  match o with
  | .go p => some ((mxClocks p.fa p.k + 63) / 64)
  | _ => none

/-- MATRIX_COMMAND_START (R236, R245, R246, R329). A high-priority command that waits for its scratchpad lines counts as queued (DESIGN CHOICE,
notes/assumptions/45.md). -/
def execMatrixCommandStart (part core : Nat) (s : State) : Host.Outcome State Fault Refusal :=
  let c := s.hw.ctx part core
  if !(enginesRun s part core) || c.mxRun.isSome then .next s
  else match c.nextHigh.orElse fun _ => c.nextLow with
    | none => .next s
    | some m =>
      if c.linesHeld m.issuer.launch m.id (m.op.reads ++ m.op.lines) then .next s
      else
        let (s, go) := match m.op.cost with
          | none => (s, true)
          | some n => if m.permit then (s, true) else takePermit s m.issuer .matrix (.matrix m.high m.id) n
        if go then
          .next (s.mapCtx part core fun c =>
            { c with mxq := c.mxq.filter fun x => x.id != m.id, mxRun := some (mxBegin (c.region m.issuer.launch) m) })
        else .next s

/-- A high-priority command pre-empts the running low one at this boundary (R246). -/
def Ctx.preempts (c : Ctx) (x : MxRun) (p : MxGo) : Bool :=
  !x.cmd.high && p.spill != 0 && c.mxSpill.isNone && (match c.nextHigh with
    | some m => !mxOverlap x.cmd m
    | none => false)

/-- MATRIX_BOUNDARY (R246, R327): 256 k-steps are done and more are to come. -/
def execMatrixBoundary (part core : Nat) (s : State) : Host.Outcome State Fault Refusal :=
  let c := s.hw.ctx part core
  match c.mxRun with
  | none => .next s
  | some x => match x.cmd.op with
    | .go p =>
      whenEnabled (enginesRun s part core && !x.spilling && decide (x.done + 256 < p.k)) s
        (s.mapCtx part core fun c =>
          { c with mxRun := some { x.chunk p (c.region x.cmd.issuer.launch) 256 with spilling := c.preempts x p } })
    | _ => .next s

/-! ### Spilling (R328) -/

/-- The bytes of a partial tile in the spill area. -/
def spillBytes (p : MxGo) (tile : AccStore) : List Byte :=
  (List.range 256).flatMap fun i => (List.range 384).flatMap fun j =>
    if i < p.m && j < p.n then leBytes 4 (sget tile (384 * i + j)).toNat else leBytes 4 0

/-- The size of the spill area. -/
def spillSize : Nat := 393216

/-- The tile that the bytes of a spill area hold. -/
def spillTile (p : MxGo) (bs : List Byte) : AccStore :=
  let ws := Array.mk bs
  tileOf p.m p.n fun i j =>
    leNat ((List.range 4).map fun b => ws.getD (1536 * i + 4 * j + b) 0)

/-- The first page of the spill area, as its offset, that an access of a command may not use (R328): one that fails its checks, or is not
writable or not of type normal, which is a permission fault. -/
def spillStop (s : State) (b : Issuer) (acc : Acc) (ea : DWord) : Option (Nat × Stop) :=
  (List.range (spillSize / 4096)).findSome? fun j =>
    let a := ea + BitVec.ofNat 64 (4096 * j)
    match checkGen s b.who acc a 4096 with
    | .error e => some (4096 * j, e)
    | .ok xs =>
      if xs.all fun (x : DWord × Nat × TlbEntry) => pagePerm .store x.2.2.pte.toNat && pteMt x.2.2.pte.toNat == 0 then none
      else some (4096 * j, permFault acc a)

/-- A running or spilled matrix command stops or waits on what an access of it met; `s0` is the state where it waits. What it has written is
seen as after its completion (R297, R300). -/
def mxStopped (s s0 : State) (b : Issuer) (wrote : List Nat) (e : Stop) (drop : Ctx → Ctx) : State :=
  match e with
  | .fault f => engineFault ((dropWritten s b wrote).mapCtx b.key.part b.key.core drop) b .matrix true f
  | e => commandWaits s0 b e

/-- Write the spill area, but for the bytes written before, up to the first page that stops it. -/
def spillWrite (s : State) (b : Issuer) (wrote put : List Nat) (ea : DWord) (bs : List Byte) : State × List Nat × Option Stop :=
  let write (bs : List Byte) := putRest b (some ea) (fun s wrote i bs => engWritePart s b wrote (ea + BitVec.ofNat 64 i) bs) s wrote put 0 bs
  match spillStop s b .store ea with
  | none => write bs
  | some (n, .fault f) => match write (bs.take n) with
    | (s', wrote', none) => (s', wrote', some (.fault f))
    | r => r
  | some (_, e) => (s, wrote, some e)

/-- MATRIX_SPILL_COMPLETE (R328). -/
def execMatrixSpillComplete (part core : Nat) (s : State) : Host.Outcome State Fault Refusal :=
  match (s.hw.ctx part core).mxRun with
  | none => .next s
  | some x => match x.cmd.op with
    | .go p =>
      if !(enginesRun s part core && x.spilling) then .next s
      else
        let b := x.cmd.issuer
        match spillWrite s b x.wrote x.put p.spill (spillBytes p x.tile) with
        | (s', wrote, none) =>
          .next (s'.mapCtx part core fun c =>
            { c with mxRun := none, mxSpill := some { x with spilling := false, tile := [], put := [], wrote := wrote } })
        | (s', wrote, some e) => .next (mxStopped s' s b wrote e fun c => { c with mxRun := none })
    | _ => .next s

/-- The key of a byte of the spill area in `MxRun.seen`. -/
def spillKey (n : Nat) : Nat := 2 ^ 40 + n

/-- The bytes of the spill area that a command reads back, with those that it has read before (R291). -/
def spillRead (s : State) (b : Issuer) (seen : List (Nat × Byte)) (ea : DWord) : Except Stop (List Byte × State) :=
  match spillStop s b .load ea with
  | some (_, e) => .error e
  | none => match engRead s b ea spillSize with
    | .error e => .error e
    | .ok (bs, s) => .ok (if seen.any fun x => decide (2 ^ 40 ≤ x.1) then withSeen seen spillKey bs else bs, s)

/-- MATRIX_RESUME (R328, R329): the spilled command goes on from the bytes it reads back, without a new permit. -/
def execMatrixResume (part core : Nat) (s : State) : Host.Outcome State Fault Refusal :=
  let c := s.hw.ctx part core
  match c.mxSpill with
  | none => .next s
  | some x => match x.cmd.op with
    | .go p =>
      if !(enginesRun s part core) || c.mxRun.isSome || c.nextHigh.isSome then .next s
      else
        let b := x.cmd.issuer
        match spillRead s b x.seen p.spill with
        | .ok (bs, s') =>
          .next (s'.mapCtx part core fun c =>
            { c with mxSpill := none, mxRun := some { x with tile := spillTile p bs, seen := x.seen.filter fun y => decide (y.1 < 2 ^ 40) } })
        | .error e => .next (mxStopped s s b x.wrote e fun c => { c with mxSpill := none })
    | _ => .next s

/-! ### Completing commands -/

/-- One accumulator word converted (R248). -/
def accElem (d : AccRd) (w : Word) : Nat × Flags :=
  let v := if d.int then valOfInt (intOf 32 true w.toNat) else fmtF32.decode w.toNat
  let v := match v with
    | .fin n m e more => FVal.fin n m (e + d.sc) more
    | x => x
  let rm := RMode.ofCode d.rm.toNat
  match AnyFmt.ofCode d.fmt with
  | .flt g =>
    let (c, fl) := g.place rm v
    (c, if v.isSnan then fl.or .invalid else fl)
  | .int w sg => floatToInt w sg rm v

/-- The elements an ACCRD reads, converted. -/
def accElems (d : AccRd) (acc : AccStore) : List (Nat × Flags) :=
  (List.range d.cnt).map fun j => accElem d (sget acc (1024 * d.row + d.col + j))

/-- Packed elements written over the bits they take, byte by byte at the given places (R248). -/
def putPacked (m : Memory) (off w : Nat) (es : List Nat) (places : List Nat) : Memory :=
  let bits := w * es.length
  let v := mapElems w es.length fun j => es.getD j 0
  places.foldl (fun m j =>
    let old := (sget m (off + j)).toNat
    let k := min 8 (bits - 8 * j)
    sset m (off + j) (BitVec.ofNat 8 (v / 2 ^ (8 * j) % 2 ^ k + old / 2 ^ k * 2 ^ k))) m

/-- The bytes that an ACCRD in scratchpad mode writes. -/
def AccRd.size (d : AccRd) : Nat := bytesFor (d.cnt * fmtWidth d.fmt)

/-- The effect of ACCRD, as command `id`, at completion: the elements written, but for the bytes written before, the flags in the issuer's FCSR,
vd full (R36, R248). -/
def accReadDone (s : State) (id : Nat) (b : Issuer) (d : AccRd) (put : List Nat) : State :=
  let es := accElems d ((s.hw.ctx b.key.part b.key.core).region b.launch).acc
  let vals := es.map Prod.fst
  let s := match d.dst with
    | some off => (s.mapRegion b.key.part b.key.core b.launch fun r =>
        { r with scr := putPacked r.scr off (fmtWidth d.fmt) vals ((List.range d.size).filter fun j => !put.contains j) }).mapCtx
          b.key.part b.key.core fun c => c.fillLines b.launch id d.lines
    | none => s
  match s.issuer? b with
  | none => s
  | some t =>
    let t := { t with fcsr := t.fcsr ||| (allFlags (es.map Prod.snd)).fcsrBits }
    let t := match d.dst with
      | some _ => t
      | none => t.fillPlain d.cell 1 [BitVec.ofNat 32 (mapElems (fmtWidth d.fmt) d.cnt fun j => vals.getD j 0)]
    s.setThread t

/-- What a matrix command does at completion (R245, R247, R248). -/
def mxDone (s : State) (x : MxRun) : State :=
  let b := x.cmd.issuer
  let onAcc (f : Region → AccStore) : State := s.mapRegion b.key.part b.key.core b.launch fun r => { r with acc := f r }
  match x.cmd.op with
  | .go p => onAcc fun r => writeTile r.acc p (x.chunk p r (p.k - x.done)).tile
  | .clr col n => onAcc fun r => r.acc.filter fun c => !(col ≤ c.1 % 1024 && c.1 % 1024 < col + n)
  | .wr row col v => onAcc fun r => sset r.acc (1024 * row + col) v
  | .rd d => accReadDone s x.cmd.id b d x.put

/-- A cell-mode ACCRD counts in no class (R231). -/
def MxOp.counted (o : MxOp) : Bool :=
  match o with
  | .rd d => d.dst.isSome
  | _ => true

/-- The running command has only its last k-steps to do. -/
def MxRun.last (x : MxRun) : Bool :=
  match x.cmd.op with
  | .go p => decide (p.k ≤ x.done + 256)
  | _ => true

/-- The matrix engine makes one access of the command `id` ahead of the rest (R291): a byte of what the running command writes to its spill
area or to the scratchpad, or a byte of its spill area that the spilled command reads back. -/
def mxByte (s : State) (part core id n : Nat) : State :=
  let c := s.hw.ctx part core
  if !(enginesRun s part core) then s
  else match c.mxRun.filter fun x => x.cmd.id == id && !x.put.contains n with
    | some x =>
      let b := x.cmd.issuer
      let keep (s : State) (wrote : List Nat) : State := s.mapCtx part core fun c => { c with mxRun := some { x with put := n :: x.put, wrote := wrote } }
      match x.cmd.op with
      | .go p =>
        if x.spilling && decide (n < spillSize) && (spillStop s b .store p.spill).isNone then
          match engWrite s b x.wrote (p.spill + BitVec.ofNat 64 n) [(spillBytes p x.tile).getD n 0] with
          | .ok (s', wrote) => keep (sealByte s' b (some p.spill) 0 n (n :: x.put)) wrote
          | .error _ => s
        else s
      | .rd d => match d.dst with
        | some off =>
          if n < d.size then
            keep (s.mapRegion part core b.launch fun r =>
              { r with scr := putPacked r.scr off (fmtWidth d.fmt) ((accElems d r.acc).map Prod.fst) [n] }) x.wrote
          else s
        | none => s
      | _ => s
    | none => match c.mxSpill.filter fun x => x.cmd.id == id && !x.seen.any fun y => y.1 == spillKey n with
      | some x => match x.cmd.op with
        | .go p =>
          if c.mxRun.isSome || c.nextHigh.isSome || !decide (n < spillSize) || (spillStop s x.cmd.issuer .load p.spill).isSome then s
          else match engRead s x.cmd.issuer (p.spill + BitVec.ofNat 64 n) 1 with
            | .ok (bs, s') => s'.mapCtx part core fun c => { c with mxSpill := some { x with seen := (spillKey n, bs.headD 0) :: x.seen } }
            | .error _ => s
        | _ => s
      | none => s

/-- MATRIX_COMMAND_COMPLETE (R231, R245). -/
def execMatrixCommandComplete (part core : Nat) (s : State) : Host.Outcome State Fault Refusal :=
  match (s.hw.ctx part core).mxRun with
  | none => .next s
  | some x =>
    if !(enginesRun s part core && !x.spilling && x.last) then .next s
    else
      let s := (dropWritten (mxDone s x) x.cmd.issuer x.wrote).mapCtx part core fun c => { c with mxRun := none }
      let s := if x.cmd.op.counted then uncount s x.cmd.issuer .matrix else s
      .next (commandOver s x.cmd.issuer)

end Sys2Proof.Machine
end

