-- ==== Sys2Proof/Machine/Copy.lean ====
section
/-!
DEFINITION. Sys2Proof/Machine/Copy.lean: the major COPY and CBWR (R249 to R254), the copy engine (R332 to R334), and the steps of the
engine.
-/
namespace Sys2Proof.Machine

/-! ### Descriptors (R249) -/

/-- The rows of a range lie inside 0 .. size − 1. -/
def rowsIn (base : Nat) (stride : Int) (rows rb size : Nat) : Bool :=
  let last : Int := (base : Int) + stride * ((rows : Int) - 1)
  decide (base + rb ≤ size) && decide (0 ≤ last) && decide (last + (rb : Int) ≤ (size : Int))

/-- The size of the code bank in bytes (R342). -/
def bankSize : Nat := 262144

/-- An address of a copy in its space, checked and resolved (R249): the address to use, and the handle it names. -/
def copyPlace (s : State) (space : Nat) (a : DWord) (stride : Int) (rows rb : Nat) : Option (DWord × List Nat) :=
  match space with
  | 0 => some (a, [])
  | 1 => if rowsIn a.toNat stride rows rb s.scrSize then some (a, []) else none
  | 2 =>
    match s.myCtx.resv? s.th.launch (a.toNat / 2 ^ 32) with
    | none => none
    | some r =>
      let off := a.toNat % 2 ^ 32
      if rowsIn off stride rows rb r.length then some (BitVec.ofNat 64 (r.base + off), [r.handle]) else none
  | 3 => if rowsIn a.toNat stride rows rb bankSize then some (a, []) else none
  | _ => none

/-- A CPY descriptor within its limits (R249), as a command without issuer. -/
def copyCmd? (s : State) (kind : CopyKind) (bs : List Byte) : Option CopyCmd :=
  let ssp := fld bs 0 1
  let dsp := fld bs 1 1
  let rows := fld bs 4 4
  let rb := fld bs 8 4
  let src := BitVec.ofNat 64 (fld bs 16 8)
  let dst := BitVec.ofNat 64 (fld bs 24 8)
  let ss := intOf 32 true (fld bs 32 4)
  let ds := intOf 32 true (fld bs 36 4)
  let pat := BitVec.ofNat 64 (fld bs 40 8)
  let cmd (src dst : DWord) (hs : List Nat) : CopyCmd :=
    { id := 0, issuer := default, kind := kind, ssp := ssp, dsp := dsp, rows := rows, rb := rb, src := src, dst := dst, ss := ss, ds := ds,
      pat := pat, row := 0, piece := 0, permit := false, started := false, pages := [], handles := hs,
      seen := [], put := [], wrote := [] }
  if !(zeroFld bs 2 2 && zeroFld bs 12 4 && zeroFld bs 48 16) then none
  else match kind with
    | .look =>
      if ssp == 0 && dsp == 0 && 1 ≤ rows && rows ≤ 256 && rb == 0 && src.toNat % 8 == 0 && dst == 0 && ss == 0 && ds == 0 && pat == 0 then
        some (cmd src dst [])
      else none
    | .fill =>
      if ssp == 0 && dsp ≤ 3 && 1 ≤ rows && rows ≤ 65536 && 1 ≤ rb && rb ≤ 16777216 && src == 0 && ss == 0 then
        (copyPlace s dsp dst ds rows rb).map fun d => cmd src d.1 d.2
      else none
    | .copy =>
      if ssp ≤ 2 && dsp ≤ 3 && 1 ≤ rows && rows ≤ 65536 && 1 ≤ rb && rb ≤ 16777216 && pat == 0 then
        match copyPlace s ssp src ss rows rb, copyPlace s dsp dst ds rows rb with
        | some a, some d => some (cmd a.1 d.1 (a.2 ++ d.2))
        | _, _ => none
      else none

/-- A copy-engine command enters the queue of the executing thread's core (R233, R252); a full queue holds the thread. -/
def issueCopy (s : State) (c : CopyCmd) : Except Stop State :=
  if 64 ≤ s.myCtx.cpq.length then .error (.wait .engine)
  else do
    let (b, s) ← countCommand s .copy
    let (id, s) := s.newId
    let c : CopyCmd := { c with id := id, issuer := b }
    .ok (s.mapCtx b.key.part b.key.core fun x => ({ x with cpq := x.cpq ++ [c] } : Ctx).clearLines b.launch c.lines)

/-- CPY (R249): the descriptor is read and checked, then the command is issued. -/
def cpy (i : Instr) (o : ScalarOps) (kind : CopyKind) (s : State) : Host.Outcome State Fault Refusal :=
  run i s fun s => do
    let (bs, s) ← readBlock i s (s.th.code o.a) 64 16
    match copyCmd? s kind bs with
    | none => .error (ill i 2)
    | some c => issueCopy s c

/-- CPY.copy (R250). -/
def execCpyCopy (o : ScalarOps) (s : State) := cpy (.cpyCopy o) o .copy s
/-- CPY.fill (R250). -/
def execCpyFill (o : ScalarOps) (s : State) := cpy (.cpyFill o) o .fill s
/-- CPY.look (R251). -/
def execCpyLook (o : ScalarOps) (s : State) := cpy (.cpyLook o) o .look s

/-- CBWR's operands within their limits (R254): a copy of count × 256 bytes into the code bank. -/
def bankCmd? (s : State) (a b : DWord) : Option CopyCmd :=
  let first := bitsOf a.toNat 9 0
  let count := bitsOf a.toNat 26 16
  let rb := 256 * count
  let scr := b[63]
  let src : DWord := if scr then (b.extractLsb' 0 19).zeroExtend 64 else b
  if bitsOf a.toNat 15 10 == 0 && bitsOf a.toNat 63 27 == 0 && 1 ≤ count && count ≤ 1024 && first + count ≤ 1024 &&
      src.toNat % 4 == 0 && (!scr || (b.extractLsb' 19 44 == 0 && src.toNat + rb ≤ s.scrSize)) then
    some { id := 0, issuer := default, kind := .copy, ssp := if scr then 1 else 0, dsp := 3, rows := 1, rb := rb, src := src,
           dst := BitVec.ofNat 64 (256 * first), ss := 0, ds := 0, pat := 0, row := 0, piece := 0, permit := false, started := false,
           pages := [], handles := [], seen := [], put := [], wrote := [] }
  else none

/-- CBWR (R254). -/
def execCbwr (o : ScalarOps) (s : State) : Host.Outcome State Fault Refusal :=
  run (.cbwr o) s fun s =>
    match bankCmd? s (s.th.code o.a) (s.th.scalarB o.b) with
    | none => .error (ill (.cbwr o) 2)
    | some c => issueCopy s c

/-! ### Code-bank writes (R253, R344) -/

/-- The code-bank slots a command writes. -/
def CopyCmd.slots (c : CopyCmd) : List Nat :=
  if c.dsp == 3 && c.kind != .look then
    nub ((List.range c.rows).flatMap fun r =>
      let a := (rowAddr c.dst c.ds r).toNat
      (List.range ((a + c.rb - 1) / 256 + 1 - a / 256)).map fun i => a / 256 + i)
  else []

/-- A trial's slot range contains a slot. -/
def TrialReq.holds (r : TrialReq) (slots : List Nat) : Bool := slots.any fun j => r.slot ≤ j && j < r.slot + r.nslot

/-- A running trial of a context, up to the writing of its record, holds one of the slots (R344). -/
def slotsInUse (s : State) (part core : Nat) (slots : List Nat) : Bool :=
  (s.allThreads.any fun t => t.key.part == part && t.key.core == core && (match t.trial with
    | some r => r.req.holds slots
    | none => false)) ||
  (s.hw.ctx part core).lookups.any fun x => x.req.holds slots

/-- CODE_BANK_WRITE_START (R253). -/
def execCodeBankWriteStart (part core id : Nat) (s : State) : Host.Outcome State Fault Refusal :=
  match (s.hw.ctx part core).cpq.find? fun c => c.id == id && c.dsp == 3 && c.kind != .look && !c.started with
  | none => .next s
  | some c =>
    whenEnabled (enginesRun s part core && !slotsInUse s part core c.slots) s
      (s.mapCtx part core fun x =>
        { x with cpq := x.cpq.map fun (q : CopyCmd) => if q.id == id then { q with started := true } else q })

/-! ### Bursts (R332) -/

/-- A command of the copy order (R234): neither a lookahead nor a code-bank write that waits on a slot in use. -/
def copyOrdered (s : State) (part core : Nat) (c : CopyCmd) : Bool :=
  c.kind != .look && !(c.dsp == 3 && slotsInUse s part core c.slots)

/-- A copy has begun. -/
def CopyCmd.begun (c : CopyCmd) : Bool := c.row != 0 || c.piece != 0 || !c.seen.isEmpty || !c.put.isEmpty

/-- The command whose bursts run: one that has begun, else the first of the order. -/
def currentCopy (s : State) (part core : Nat) : Option CopyCmd :=
  let q := (s.hw.ctx part core).cpq.filter fun c => copyOrdered s part core c
  (q.find? CopyCmd.begun).orElse fun _ => q.head?

/-- Read bytes of a row's piece: the whole row must be readable (R332). -/
def copySource (s : State) (c : CopyCmd) (r off n : Nat) : Except Stop (List Byte × State) :=
  let b := c.issuer
  let a := rowAddr c.src c.ss r
  let g := (s.hw.ctx b.key.part b.key.core).region b.launch
  match c.kind, c.ssp with
  | .fill, _ => .ok ((List.range n).map fun i => BitVec.ofNat 8 (c.pat.toNat / 2 ^ (8 * ((off + i) % 8))), s)
  | _, 1 => .ok (readBytes g.scr (a.toNat + off) n, s)
  | _, 2 => .ok (readBytes g.obuf (a.toNat + off) n, s)
  | _, _ =>
    match checkGen s b.who .load a c.rb with
    | .error e => .error e
    | .ok _ => engRead s b (a + BitVec.ofNat 64 off) n

/-- Command `id` writes code-bank bytes; what they held stays known, for a trial may still see it (R253). -/
def Ctx.writeBank (c : Ctx) (id : Nat) (b : Issuer) (off : Nat) (bs : List Byte) : Ctx :=
  { c with
    bank := writeBytes c.bank off bs
    bankOld := c.bankOld ++ (List.range bs.length).map fun i => ⟨off + i, sget c.bank (off + i), id, b⟩ }

/-- Write bytes of a row's piece; with the lines of memory the command has written. -/
def copyDest (s : State) (c : CopyCmd) (r off : Nat) (bs : List Byte) : State × List Nat × Option Stop :=
  let b := c.issuer
  let a := rowAddr c.dst c.ds r
  match c.dsp with
  | 1 => (s.mapRegion b.key.part b.key.core b.launch fun g => { g with scr := writeBytes g.scr (a.toNat + off) bs }, c.wrote, none)
  | 2 => (s.mapRegion b.key.part b.key.core b.launch fun g => { g with obuf := writeBytes g.obuf (a.toNat + off) bs }, c.wrote, none)
  | 3 => (s.mapCtx b.key.part b.key.core fun x => x.writeBank c.id b (a.toNat + off) bs, c.wrote, none)
  | _ => engWritePart s b c.wrote (a + BitVec.ofNat 64 off) bs

/-- The source bytes of a stretch of the burst, `n` bytes at offset `off` of row r and at place `j` of the burst: those read before, and, where
some are missing, a read of the stretch (R291). -/
def copyBytes (s : State) (c : CopyCmd) (j r off n : Nat) : Except Stop (List Byte × State) :=
  match allSome ((List.range n).map fun i => (c.seen.find? fun x => x.1 == j + i).map Prod.snd) with
  | some bs => .ok (bs, s)
  | none => match copySource s c r off n with
    | .error e => .error e
    | .ok (bs, s) => .ok (withSeen c.seen (j + ·) bs, s)

/-- The address of an offset of a row's destination, where it is in memory. -/
def CopyCmd.destAddr (c : CopyCmd) (r off : Nat) : Option DWord :=
  if c.dsp == 0 then some (rowAddr c.dst c.ds r + BitVec.ofNat 64 off) else none

/-- Copy `n` bytes at offset `off` of row r, which stand at place `j` of the burst, as far as they have not been copied. -/
def copyPiece (s : State) (c : CopyCmd) (j r off n : Nat) : State × List Nat × Option Stop :=
  if (List.range n).all fun i => c.put.contains (j + i) then (s, c.wrote, none)
  else match copyBytes s c j r off n with
    | .error e => (s, c.wrote, some e)
    | .ok (bs, s) =>
      putRest c.issuer (c.destAddr r off) (fun s wrote i bs => copyDest s { c with wrote := wrote } r (off + i) bs) s c.wrote c.put j bs

/-- Copy whole rows from row r, at place `j` of the burst, until one stops. -/
def copyRows (s : State) (c : CopyCmd) (j r : Nat) : Nat → State × List Nat × Option Stop
  | 0 => (s, c.wrote, none)
  | n + 1 =>
    match copyPiece s c j r 0 c.rb with
    | (s', wrote, none) => copyRows s' { c with wrote := wrote } (j + c.rb) (r + 1) n
    | x => x

/-- The destination of a row overlaps its source at a higher address (R332). -/
def CopyCmd.downward (c : CopyCmd) (r : Nat) : Bool :=
  let a := (rowAddr c.src c.ss r).toNat
  let d := (rowAddr c.dst c.ds r).toNat
  c.kind == .copy && c.ssp == c.dsp && a < d && d < a + c.rb

/-- The pieces of a row (R332). -/
def CopyCmd.pieces (c : CopyCmd) : Nat := (c.rb + 65535) / 65536

/-- The rows of the next burst of a command whose rows are not cut (R332). -/
def CopyCmd.burstRows (c : CopyCmd) : Nat := min (max 1 (65536 / c.rb)) (c.rows - c.row)

/-- The place and the length of the next piece of a row that is cut. -/
def CopyCmd.pieceSpan (c : CopyCmd) : Nat × Nat :=
  let p := if c.downward c.row then c.pieces - 1 - c.piece else c.piece
  (65536 * p, min 65536 (c.rb - 65536 * p))

/-- One burst: the state after it, what it met, and the command's progress. -/
def burst (s : State) (c : CopyCmd) : State × Option Stop × CopyCmd :=
  let c' : CopyCmd := { c with started := true, permit := false, seen := [], put := [] }
  if c.rb ≤ 65536 then
    let (s, wrote, e) := copyRows s c 0 c.row c.burstRows
    (s, e, { c' with row := c.row + c.burstRows, wrote := wrote })
  else
    let (s, wrote, e) := copyPiece s c 0 c.row c.pieceSpan.1 c.pieceSpan.2
    let c' : CopyCmd := { c' with wrote := wrote }
    (s, e, if c.piece + 1 == c.pieces then { c' with row := c.row + 1, piece := 0 } else { c' with piece := c.piece + 1 })

/-- The scratchpad lines a copy reads. -/
def CopyCmd.reads (c : CopyCmd) : List Nat :=
  if c.kind == .copy && c.ssp == 1 then nub ((List.range c.rows).flatMap fun r => linesOf (rowAddr c.src c.ss r).toNat c.rb) else []

/-- A copy command leaves its queue: its lines become present (R252, R273) and its class count falls. -/
def endCopy (s : State) (c : CopyCmd) : State :=
  let b := c.issuer
  s.mapCtx b.key.part b.key.core fun x =>
    ({ x with cpq := x.cpq.filter fun (q : CopyCmd) => q.id != c.id } : Ctx).fillLines b.launch c.id c.lines

/-- A copy command stops or waits on what an access met; `s0` is the state where it waits. What it has written is seen as after its completion
(R297, R300). -/
def copyStopped (s s0 : State) (c : CopyCmd) (e : Stop) : State :=
  match e with
  | .fault f => engineFault (endCopy (dropWritten s c.issuer c.wrote) c) c.issuer .copy true f
  | e => commandWaits s0 c.issuer e

/-- Replace a copy command's progress. -/
def keepCopy (s : State) (c : CopyCmd) : State :=
  s.mapCtx c.issuer.key.part c.issuer.key.core fun x =>
    { x with cpq := x.cpq.map fun (q : CopyCmd) => if q.id == c.id then c else q }

/-- A burst has begun and is not over. -/
def CopyCmd.midBurst (c : CopyCmd) : Bool := !c.seen.isEmpty || !c.put.isEmpty

/-- The copy engine works on a command: its core's engines run, or the core halts and the burst that has begun is to be finished first
(R237, R324). -/
def copyRuns (s : State) (part core : Nat) (c : CopyCmd) : Bool :=
  enginesRun s part core || (c.midBurst && haltsNow s.hw part core)

/-- The copy engine of a core has begun a burst that can go on: a halt waits for it (R237, R324). One whose next access has to wait, for a page or
for staging, is saved as it stands. -/
def copyBusy (s : State) (part core : Nat) : Bool :=
  match currentCopy s part core with
  | none => false
  | some c => c.midBurst && (match (burst s c).2.1 with
    | some (.wait _) | some (.stage _) => false
    | _ => true)

/-- COPY_BURST (R236, R250, R332). -/
def execCopyBurst (part core : Nat) (s : State) : Host.Outcome State Fault Refusal :=
  let x := s.hw.ctx part core
  match currentCopy s part core with
    | none => .next s
    | some c =>
      if !(copyRuns s part core c) || decide (c.rows ≤ c.row) || (c.dsp == 3 && !c.started) || x.linesHeld c.issuer.launch c.id (c.reads ++ c.lines) then .next s
      else
        let (s1, go) := if c.permit then (s, true) else takePermit s c.issuer .copy (.copy c.id) 1
        if !go then .next s1
        else
          let (s2, e, c') := burst s1 c
          .next (match e with
            | none => keepCopy s2 c'
            | some e => copyStopped s2 (keepCopy s1 { c with permit := true }) { c with wrote := c'.wrote } e)

/-- The stretch of the next burst that is under way: the row, or the piece of one, at its place in the burst, with its row, offset and length.
A row is read before it is written, and written before the next one is read (R250). -/
def CopyCmd.stretch (c : CopyCmd) : Nat × Nat × Nat × Nat :=
  if c.rb ≤ 65536 then
    let j := c.put.length / max 1 c.rb
    (j * c.rb, c.row + j, 0, if j < c.burstRows then c.rb else 0)
  else (0, c.row, c.pieceSpan)

/-- Make one access of the stretch that is under way, at place `n` of the burst: its source byte is read, or, once all of them have been read,
its destination byte is written. An access that meets a fault or a wait is left to the burst. -/
def copyOne (s : State) (c : CopyCmd) (n : Nat) : State :=
  let (j, r, off, m) := c.stretch
  let got (k : Nat) : Option Byte := (c.seen.find? fun x => x.1 == k).map Prod.snd
  if !(decide (j ≤ n) && decide (n < j + m)) then keepCopy s c
  else match got n with
    | none => match copySource s c r (off + (n - j)) 1 with
      | .ok (bs, s) => keepCopy s { c with seen := (n, bs.headD 0) :: c.seen }
      | .error _ => keepCopy s c
    | some b =>
      if c.put.contains n || !(List.range m).all fun i => (got (j + i)).isSome then keepCopy s c
      else match copyDest s c r (off + (n - j)) [b] with
        | (s, wrote, none) =>
          keepCopy (sealByte s c.issuer (c.destAddr r off) j n (n :: c.put)) { c with put := n :: c.put, wrote := wrote }
        | _ => keepCopy s c

/-- The copy engine makes one access of its running command ahead of the rest of the burst (R291, R332); its permit comes first. -/
def copyAhead (s : State) (part core id n : Nat) : State :=
  match currentCopy s part core with
  | none => s
  | some c =>
    if !(copyRuns s part core c) || c.id != id || decide (c.rows ≤ c.row) || (c.dsp == 3 && !c.started) ||
        (s.hw.ctx part core).linesHeld c.issuer.launch c.id (c.reads ++ c.lines) then s
    else
      let (s, go) := if c.permit then (s, true) else takePermit s c.issuer .copy (.copy c.id) 1
      if go then copyOne s { c with permit := true, started := true } n else s

/-- COPY_COMPLETE (R231, R234, R252, R300). -/
def execCopyComplete (part core id : Nat) (s : State) : Host.Outcome State Fault Refusal :=
  if !(enginesRun s part core) then .next s
  else match currentCopy s part core with
    | none => .next s
    | some c =>
      whenEnabled (c.id == id && decide (c.rows ≤ c.row)) s
        (commandOver (uncount (endCopy (dropWritten s c.issuer c.wrote) c) c.issuer .copy) c.issuer)

/-! ### Lookahead (R251, R289) -/

/-- The page at an address is tiered and not resident: its base. -/
def absentPage (s : State) (part : Nat) (a : Nat) : Option Nat :=
  match walk s.hw (s.hw.part part).xlroot a with
  | some e => if pteTier e.pte.toNat && !pteRes e.pte.toNat then some e.va else none
  | none => none

/-- A lookahead command of a core that has not started its pages. -/
def lookDue (s : State) (part core id : Nat) : Option CopyCmd :=
  (s.hw.ctx part core).cpq.find? fun c => c.id == id && c.kind == .look && !c.started

/-- The list of a lookahead command: the bytes read before, and, where some are missing, a read of the list (R251, R291). -/
def lookBytes (s : State) (c : CopyCmd) : Except Stop (List Byte × State) :=
  match allSome ((List.range (8 * c.rows)).map fun i => (c.seen.find? fun x => x.1 == i).map Prod.snd) with
  | some bs => .ok (bs, s)
  | none => match engRead s c.issuer c.src (8 * c.rows) with
    | .error e => .error e
    | .ok (bs, s) => .ok (withSeen c.seen id bs, s)

/-- The copy engine reads the byte at a place of the list of a lookahead command ahead of the rest (R291). -/
def lookAhead (s : State) (part core n : Nat) (c : CopyCmd) : State :=
  if !(enginesRun s part core) || decide (8 * c.rows ≤ n) || c.seen.any fun x => x.1 == n then s
  else match engRead s c.issuer (c.src + BitVec.ofNat 64 n) 1 with
    | .ok (bs, s) => keepCopy s { c with seen := (n, bs.headD 0) :: c.seen }
    | .error _ => s

/-- The copy engine makes one single-byte access of a command ahead of the rest (R291). -/
def copyByte (s : State) (part core id n : Nat) : State :=
  match lookDue s part core id with
  | some c => lookAhead s part core n c
  | none => copyAhead s part core id n

/-- LOOKAHEAD_COMPLETE (R251): the command reads its list and starts the pages; it completes when all of them have become
resident. -/
def execLookaheadComplete (part core id : Nat) (s : State) : Host.Outcome State Fault Refusal :=
  match (s.hw.ctx part core).cpq.find? fun c => c.id == id && c.kind == .look with
  | none => .next s
  | some c =>
    if !(enginesRun s part core) then .next s
    else if c.started then
      let left := c.pages.filter fun a => (absentPage s part a).isSome
      .next (if left.isEmpty then commandOver (uncount (endCopy s c) c.issuer .copy) c.issuer else keepCopy s { c with pages := left })
    else match lookBytes s c with
      | .error e => .next (copyStopped s s c e)
      | .ok (bs, s) =>
        let pages := nub ((List.range c.rows).filterMap fun j => absentPage s part (fld bs (8 * j) 8))
        .next (keepCopy s { c with started := true, pages := pages, seen := [] })

end Sys2Proof.Machine
end

