-- ==== Sys2Proof/Machine/Starts.lean ====
section
/-!
DEFINITION. Sys2Proof/Machine/Starts.lean: starting threads (R11 to R14, R22, R268, R315 to R318): what a core can hold, which entry
starts next, and the state of a new thread.
-/
namespace Sys2Proof.Machine

/-! ### What a core can hold (R12, R268, R376) -/

/-- The cells and thread slots that a start entry needs: twice as many for a redundant pair. -/
def entryNeeds (l : Launch) (k : StartKind) : Nat × Nat :=
  match k with
  | .trial r => (r.win, 1)
  | _ => if l.dmr then (2 * l.win, 2) else (l.win, 1)

/-- The threads of a partition on a core. -/
def State.threadsOn (s : State) (part core : Nat) : List Thread := s.allThreads.filter fun t => t.key.part == part && t.key.core == core

/-- The cells and slots that resident threads take. -/
def State.taken (s : State) (part core : Nat) : Nat × Nat :=
  (s.threadsOn part core).foldl (fun (a : Nat × Nat) t => (a.1 + (if t.dmr then 2 * t.win else t.win), a.2 + (if t.dmr then 2 else 1))) (0, 0)

/-- An entry of an auto-crew, whose cells are reserved (R316). -/
def StartEntry.isCrew (e : StartEntry) : Bool :=
  match e.kind with
  | .crew _ => true
  | _ => false

/-- The cells and slots reserved for auto-crews assigned to a core whose members have not started (R316). -/
def State.reserved (s : State) (part core : Nat) : Nat × Nat :=
  ((s.hw.ctx part core).startq.filter StartEntry.isCrew).foldl (fun (a : Nat × Nat) e =>
    match s.hw.launch? part e.launch with
    | some l => let n := entryNeeds l e.kind; (a.1 + n.1, a.2 + n.2)
    | none => a) (0, 0)

/-- Cells and slots fit beside what a core holds and has reserved. -/
def State.fits (s : State) (part core : Nat) (need : Nat × Nat) : Bool :=
  let t := s.taken part core
  let r := s.reserved part core
  decide (t.1 + r.1 + need.1 ≤ 131072) && decide (t.2 + r.2 + need.2 ≤ 4096)

/-- A launch has its regions on a core, or they are free there (R268). -/
def regionsFit (h : Hw) (part core : Nat) (l : Launch) : Bool :=
  let rs := (h.ctx part core).regions
  let used (f : Launch → Nat) : Nat := (rs.map fun r => ((h.launch? part r.launch).map f).getD 0).foldl (· + ·) 0
  (rs.any fun r => r.launch == l.id) ||
  (decide (used (fun m => m.scr) + l.scr ≤ 524288) && decide (used (fun m => m.obuf) + l.obuf ≤ 524288) &&
    decide (used (fun m => m.acc) + l.acc ≤ 1024))

/-- The regions of a launch on a core are allocated: zero, every line present (R268). -/
def Ctx.allocate (c : Ctx) (launch : Nat) : Ctx :=
  if c.regions.any fun r => r.launch == launch then c else { c with regions := c.regions ++ [⟨launch, [], [], [], []⟩] }

/-! ### Choosing an entry, a slot and a picker -/

/-- A trial waits for bank writes that were issued before it, or have started, and touch its slots (R253, R344). -/
def trialHeld (c : Ctx) (r : TrialReq) : Bool := c.cpq.any fun q => (q.id < r.cid || q.started) && r.holds q.slots

/-- An entry can start now (R315, R316). -/
def canStart (s : State) (part core : Nat) (e : StartEntry) : Bool :=
  match s.hw.launch? part e.launch with
  | none => false
  | some l =>
    (e.isCrew || s.fits part core (entryNeeds l e.kind)) && regionsFit s.hw part core l &&
    (match e.kind with
      | .trial r => !trialHeld (s.hw.ctx part core) r
      | _ => true)

/-- The start order of R315: higher priority, earlier dispatch, lower TID. -/
def startOrder (h : Hw) (part : Nat) (es : List StartEntry) : List StartEntry :=
  let prio (e : StartEntry) : Nat := ((h.launch? part e.launch).map fun l => 3 - l.prio).getD 3
  let ord (e : StartEntry) : Nat := ((h.launch? part e.launch).map fun l => l.order).getD 0
  sortBy prio (sortBy ord (sortBy (fun (e : StartEntry) => e.tid) es))

/-- The entry that a core starts next: the first that can start, each launch's entries in ascending TID. -/
def nextStart (s : State) (part core : Nat) : Option StartEntry :=
  let es := startOrder s.hw part (s.hw.ctx part core).startq
  es.find? fun e => canStart s part core e && es.all fun d => d.launch != e.launch || decide (e.tid ≤ d.tid)

/-- A free thread slot of a core: a free choice, else the lowest one. -/
def pickSlot (used : List Nat) (free : Nat) : Nat :=
  let ok (n : Nat) : Bool := n < 4096 && !used.contains n
  if ok (free % 4096) then free % 4096 else ((List.range 4096).find? ok).getD 0

/-- The free slots for a thread: one, or for a redundant pair two, the lower one first, which gives the pair its stack (R13, R376). -/
def pickSlots (used : List Nat) (dmr : Bool) (free : Nat) : Nat × Option Nat :=
  let a := pickSlot used free
  if dmr then
    let b := pickSlot (a :: used) (free / 4096)
    (min a b, some (max a b))
  else (a, none)

/-- The picker with the fewest resident threads, ties to the lowest (R318). -/
def leastPicker (ts : List Thread) : Nat :=
  (minBy (fun p => ts.countP fun t => t.picker == p) (List.range 16)).getD 0

/-- The rank block of a rank (R24): 32 ranks, 16 in legacy decode. -/
def rankBlock (mode : DecodeMode) (rank : Nat) : Nat := match mode with
  | .z3 => rank / 32
  | _ => rank / 16

/-- The picker of a new member of an auto-crew (R318): that of its rank block, else the least loaded one. -/
def Crew.picker (x : Crew) (ts : List Thread) (block : Nat) : Nat :=
  match x.pickers.find? fun y => y.1 == block with
  | some y => y.2
  | none => leastPicker ts

/-! ### A new thread -/

/-- The initial TILE (R11). -/
def initTile : DecodeMode → BitVec 3
  | .z3 => 5
  | _ => 4

/-- A thread in the state of R11: entry and argument as given, on the stack of its slot (R13). -/
def newThread (l : Launch) (k : Key) (tid : Nat) (stkap : DWord) (entry arg : DWord) : Thread :=
  let top : DWord := if stkap[0] then BitVec.ofNat 64 (stackLo stkap k + 65536) else 0
  { Thread.idle with
    live := true, key := k, launch := l.id, tid := BitVec.ofNat 32 tid, pc := entry, win := l.win, mode := l.mode, dmr := l.dmr,
    cells := List.replicate l.win ⟨0, true, .plain⟩
    sregs := (((Vector.replicate 32 (0 : DWord)).set 0 arg).set 30 top).set 31 top
    tile := initTile l.mode, prec := 0x31, ltv := l.ltv, seed := BitVec.ofNat 64 (l.id * 2 ^ 32 + tid) }

/-- The key of an auto-crew (R22). -/
def autoKey (launch block : Nat) : DWord := BitVec.ofNat 64 (2 ^ 63 + launch * 2 ^ 32 + block)

/-- The thread slots taken on a core: two by a redundant pair. -/
def State.slotsOn (s : State) (part core : Nat) : List Nat := (s.threadsOn part core).flatMap fun t => t.key.slot :: t.slot2.toList

/-- The free slots for an entry. -/
def State.freeSlots (s : State) (part core : Nat) (dmr : Bool) : Nat × Option Nat :=
  pickSlots (s.slotsOn part core) dmr (Config.freeNat s.hw.fresh)

/-- An entry leaves the start queue; the launch has its regions on the core; the core's read caches hold nothing older than what
orders the start (R160, R262, R311). -/
def beginStart (s : State) (part core : Nat) (e : StartEntry) : State :=
  (s.mapHw fun h =>
    let h := h.setCtx (({ h.ctx part core with startq := (h.ctx part core).startq.filter fun d => d != e } : Ctx).allocate e.launch)
    noteRan (dropCon (dropL1 h part core) part core) part core e.launch).tick

/-- A resident thread is added; it has read nothing ahead. -/
def State.addThread (s : State) (t : Thread) : State :=
  s.mapHw fun h => let h := forgetAhead h t.key fun _ => true
    { h with threads := t :: h.threads }

/-- A thread takes a reserved place in its crew and the picker of its rank block (R22, R318). -/
def takeRank (c : Ctx) (ts : List Thread) (l : Launch) (block rank : Nat) (t : Thread) : Ctx × Thread :=
  match c.crews.find? fun x => x.key == autoKey l.id block with
  | some x =>
    let b := rankBlock l.mode rank
    let p := x.picker ts b
    (c.setCrew { x with reserved := x.reserved.filter fun r => r != rank, pickers := (b, p) :: x.pickers.filter fun y => y.1 != b },
      { t with crew := x.handle, rank := rank, picker := p })
  | none => (c, { t with picker := leastPicker ts })

/-- Start an ordinary, crew or spawned thread (R11, R315). -/
def startThread (s : State) (part core : Nat) (l : Launch) (e : StartEntry) : State :=
  let (slot, slot2) := s.freeSlots part core l.dmr
  let stk := (s.hw.part part).stkap
  let s := beginStart s part core e
  let c := s.hw.ctx part core
  let ts := s.threadsOn part core
  let new (entry arg : DWord) : Thread := { newThread l ⟨part, core, slot⟩ e.tid stk entry arg with slot2 := slot2 }
  match e.kind with
  | .crew block =>
    let (c, t) := takeRank c ts l block (e.tid % max 1 l.crewSize) (new l.entry l.arg)
    (s.mapHw fun h => h.setCtx c).addThread t
  | .spawn entry arg => s.addThread { new entry arg with picker := leastPicker ts }
  | _ => s.addThread { new l.entry l.arg with picker := leastPicker ts }

/-- THREAD_START (R315). -/
def execThreadStart (part core : Nat) (s : State) : Host.Outcome State Fault Refusal :=
  if !(contextRuns s part core) then .next s
  else match nextStart s part core with
    | none => .next s
    | some e => match e.kind, s.hw.launch? part e.launch with
      | .trial _, _ => .next s
      | _, none => .next s
      | _, some l => .next (startThread s part core l e)

end Sys2Proof.Machine
end

