-- ==== Sys2Proof/Machine/Trials.lean ====
section
/-!
DEFINITION. Sys2Proof/Machine/Trials.lean: TRIAL, SIGF, LQPUT, PERMIT and RAND (R258 to R265), and Campion: starting a trial, its
examples, its fuel and its lookup (R342 to R356).
-/
namespace Sys2Proof.Machine

/-! ### SIGF and RAND -/

/-- A value folded into a signature (R261). -/
def Thread.foldSig (t : Thread) (x : DWord) : Thread := { t with sig := (t.sig.rotateLeft 13) ^^^ x, sign := t.sign + 1 }

/-- SIGF.b32 (R261). -/
def execSigfB32 (o : LaneOps) (s : State) : Host.Outcome State Fault Refusal :=
  runTh (.sigfB32 o) s fun t => do
    t.need o.ep 0 o.a.toNat 1
    .ok (t.foldSig ((t.cell o.a.toNat).data.zeroExtend 64))

/-- SIGF.b64 (R261). -/
def execSigfB64 (o : LaneOps) (s : State) : Host.Outcome State Fault Refusal :=
  runTh (.sigfB64 o) s fun t => do
    t.need o.ep 0 o.a.toNat 2
    .ok (t.foldSig (t.pair o.a.toNat))

/-- mix64 (R265). -/
def mix64 (z : DWord) : DWord :=
  let z := (z ^^^ (z >>> 30)) * 0xBF58476D1CE4E5B9#64
  let z := (z ^^^ (z >>> 27)) * 0x94D049BB133111EB#64
  z ^^^ (z >>> 31)

/-- RAND (R265). -/
def execRand (o : ScalarOps) (s : State) : Host.Outcome State Fault Refusal :=
  runTh (.rand o) s fun t =>
    .ok { t.setSreg o.d.toNat (mix64 (t.seed + t.randN * 0x9E3779B97F4A7C15#64)) with randN := t.randN + 1 }

/-! ### LQPUT and PERMIT -/

/-- A queue of a partition. -/
def Part.queue (p : Part) (q : Nat) : Queue := p.queues.toArray.getD q Queue.empty

def Part.setQueue (p : Part) (q : Nat) (x : Queue) : Part := { p with queues := p.queues.setIfInBounds q x }

/-- The records of a queue, with those of doorbells that wait for their pages (R307, R308). -/
def Part.queueLoad (p : Part) (q : Nat) : Nat := (p.queue q).recs.length + p.bells.countP fun b => b.1 == q

/-- A record is appended to a queue (R307). -/
def putRecord (h : Hw) (part q : Nat) (r : List Byte) : Hw :=
  let p := h.part part
  let x := p.queue q
  h.setPart (p.setQueue q { x with recs := x.recs ++ [r] })

/-- LQPUT (R262); the record of a RESTARTABLE launch is held until it commits (R373). -/
def execLqput (o : ScalarOps) (s : State) : Host.Outcome State Fault Refusal :=
  run (.lqput o) s fun s => do
    let q := (s.th.scalarB o.b).toNat
    check (.lqput o) (q < 16)
    let (bs, s) ← readBlock (.lqput o) s (s.th.code o.a) 64 64
    let part := s.th.key.part
    match s.hw.launch? part s.th.launch with
    | some l =>
      if l.restartable then do
        let s ← orderAll s
        .ok (s.mapHw fun h => match h.launch? part l.id with
          | some l => h.setLaunch { l with heldPuts := l.heldPuts ++ [(q, bs)] }
          | none => h)
      else if 256 ≤ (s.hw.part part).queueLoad q then .error (.wait .launchQueue)
      else do
        let s ← orderAll s
        .ok (s.mapHw fun h => putRecord h part q bs)
    | none => .error (.wait .launchQueue)

/-- The class of a PERMIT (R264). -/
def permitClass (n : Nat) : EngineClass := if n == 0 then .matrix else if n == 1 then .copy else .select

/-- Tickets of a class added to a thread, up to 255 in all (R264). -/
def Thread.addTickets (t : Thread) (cls : EngineClass) (n : Nat) : Thread :=
  let have_ := (t.tickets.filter fun x => x.cls == cls).foldl (fun a (x : Ticket) => a + x.count) 0
  { t with tickets := t.tickets ++ [⟨cls, min n (255 - have_), 0⟩] }

/-- PERMIT (R264, R321): it costs no credits itself; it is granted at once where no request of the partition waits on the core and the
balance holds no debt, else at a refresh, which gives the tickets. -/
def execPermit (o : ScalarOps) (s : State) : Host.Outcome State Fault Refusal :=
  runHeld (.permit o) s fun s => do
    let a := (s.th.code o.a).toNat
    let n := bitsOf a 15 8
    check (.permit o) (a % 4 != 3 && bitsOf a 7 2 == 0 && a < 2 ^ 16 && n != 0)
    let t := s.th
    let cls := permitClass (a % 4)
    let what : PermitFor := .ticket t.key t.tid cls n
    let b := s.hw.budget t.key.core
    if b.served.any fun q => q.what == what then
      let b' : Budget := { b with served := removeFirst (fun (q : PermitReq) => q.what == what) b.served }
      .ok ((s.mapHw fun h => h.setBudget b').advance (Instr.permit o).length)
    else if (b.waiting.all fun q => q.part != t.key.part) && b.grant != 0 && decide (0 ≤ b.balance) then
      .ok (((s.setTh (t.addTickets cls n)).mapHw fun h => h.setBudget b).advance (Instr.permit o).length)
    else
      let b' : Budget := if b.waiting.any fun q => q.what == what then b else { b with waiting := b.waiting ++ [⟨t.key.part, what, 0⟩] }
      .ok (stopped (s.mapHw fun h => h.setBudget b') (.wait .engine))

/-! ### TRIAL -/

/-- The parameter block of TRIAL within its limits (R258); `scr` is the launch's scratchpad size. An empty sandbox too must begin within it
(DESIGN CHOICE, notes/assumptions/45.md). -/
def trialOk (bs : List Byte) (scr : Nat) : Bool :=
  let slot := fld bs 0 2
  let nslot := fld bs 2 2
  let entry := fld bs 4 4
  let win := fld bs 8 1
  let nex := fld bs 9 1
  let sbsz := fld bs 12 2
  let sbase := fld bs 16 4
  let tlog := fld bs 20 1
  slot ≤ 1023 && 1 ≤ nslot && nslot ≤ 1024 && slot + nslot ≤ 1024 && entry % 4 == 0 && entry < 256 * nslot && 8 ≤ win && win ≤ 128 &&
  win % 8 == 0 && 1 ≤ nex && nex ≤ 64 && fld bs 10 1 ≤ win && 1 ≤ fld bs 11 1 && fld bs 11 1 ≤ win && sbsz ≤ 4096 && sbsz % 16 == 0 &&
  zeroFld bs 14 2 && sbase % 16 == 0 && sbase + sbsz ≤ scr && tlog ≤ 32 && zeroFld bs 21 3 && 1 ≤ fld bs 24 8 &&
  (tlog == 0 || fld bs 40 8 % 16 == 0) && fld bs 48 8 % 16 == 0 && zeroFld bs 56 8

/-- A trial's request from its block and issuer. -/
def trialReq (bs : List Byte) (cid : Nat) (b : Issuer) (knows : List Nat) : TrialReq :=
  { cid := cid, slot := fld bs 0 2, nslot := fld bs 2 2, entry := fld bs 4 4, win := fld bs 8 1, nex := fld bs 9 1, nin := fld bs 10 1,
    nout := fld bs 11 1, sbsz := fld bs 12 2, sbase := fld bs 16 4, tlog := fld bs 20 1, fuel := BitVec.ofNat 64 (fld bs 24 8),
    inp := BitVec.ofNat 64 (fld bs 32 8), table := BitVec.ofNat 64 (fld bs 40 8), recAddr := BitVec.ofNat 64 (fld bs 48 8),
    issuer := b.key, issuerTid := b.tid, ip := b.ip, seq := b.seq, knows := knows }

/-- The launch of the executing thread. -/
def State.myLaunch (s : State) : Option Launch := s.hw.launch? s.th.key.part s.th.launch

/-- The launch takes its next TID (R10). -/
def takeTid (s : State) : State :=
  match s.myLaunch with
  | some l => s.mapHw fun h => h.setLaunch { l with nextTid := l.nextTid + 1 }
  | none => s

/-- TRIAL (R258, R259): outside kernels that set TRIALHOST it raises ILL with detail 2. -/
def execTrial (o : ScalarOps) (s : State) : Host.Outcome State Fault Refusal :=
  run (.trial o) s fun s => do
    check (.trial o) ((s.myLaunch.map fun l => l.trialhost).getD false)
    let (bs, s) ← readBlock (.trial o) s (s.th.code o.a) 64 16
    check (.trial o) (trialOk bs s.scrSize)
    let tid := s.nextTid
    if 2 ^ 32 ≤ tid then .ok (s.setTh (s.th.setSreg o.d.toNat 0))
    else
      let (b, s) ← countCommand s .trial
      let (cid, s) := s.newId
      let s := takeTid s
      let e : StartEntry := ⟨b.launch, tid, .trial (trialReq bs cid b s.th.knows)⟩
      let s := s.mapHw fun h => pushStart h b.key.part b.key.core e
      .ok (s.setTh (s.th.setSreg o.d.toNat (BitVec.ofNat 64 tid)))

/-! ### The examples of a trial (R345, R346) -/

/-- The bytes of example e's inputs. -/
def TrialReq.inputAt (r : TrialReq) (e : Nat) : DWord := r.inp + BitVec.ofNat 64 (4 * r.nin * e)

/-- The state of the executing trial thread at the start of example e (R345); `ins` are its input words, `loading` tells that they are still
to be read. -/
def Thread.exampleStart (t : Thread) (r : TrialRun) (e : Nat) (ins : List Word) (loading : Bool) : Thread :=
  { Thread.idle with
    live := true, key := t.key, launch := t.launch, tid := t.tid, win := r.req.win, picker := t.picker
    pc := BitVec.ofNat 64 (256 * r.req.slot + r.req.entry)
    cells := (List.range r.req.win).map fun i => ⟨ins.getD i 0, true, .plain⟩
    sregs := (((Vector.replicate 32 (0 : DWord)).set 0 (BitVec.ofNat 64 e)).set 30 (BitVec.ofNat 64 r.req.sbsz)).set 31
      (BitVec.ofNat 64 r.req.sbsz)
    tile := 5, prec := 0x31, seed := BitVec.ofNat 64 e, fuel := t.fuel, sig := t.sig, sign := t.sign
    trial := some { r with
      ex := e, folding := false, starved := false, loading := loading, seen := if loading then r.seen else [],
      zeroed := if loading then r.zeroed else [] } }

/-- The sandbox of a trial is zeroed, but for the offsets that have been zeroed before. -/
def TrialRun.zero (r : TrialRun) (m : Memory) : Memory :=
  if r.zeroed.isEmpty then zeroBytes m r.req.sbase r.req.sbsz
  else ((List.range r.req.sbsz).filter fun i => !r.zeroed.contains i).foldl (fun m i => sset m (r.req.sbase + i) 0) m

/-- The bytes of example e's inputs: those that have been read before, and, where some are missing, a read of them all (R345). One from a
peer module may get no response, by a free choice (R406). -/
def readInputs (s : State) (r : TrialRun) (e : Nat) : Except Stop (List Byte × State) :=
  let n := 4 * r.req.nin
  match allSome ((List.range n).map fun i => (r.seen.find? fun x => x.1 == i).map Prod.snd) with
  | some bs => .ok (bs, s)
  | none => match checkGen s s.who .load (r.req.inputAt e) n with
    | .error e => .error e
    | .ok xs => match poisonOf s.hw (xkeys xs) with
      | some k => .error (.consumed (s.threadUe 0 k))
      | none =>
        if (xkeys xs).any keyIsPeer && Config.freeBool s.hw.fresh then .error (xlateFault .load (r.req.inputAt e))
        else .ok (withSeen r.seen id ((xkeys xs).map fun k => sget s.hw.mem k),
          s.mapHw fun h => noteReads (touch h s.who .load xs) (xkeys xs))

/-- The sandbox of a trial lies on a scratchpad line that is absent. -/
def sandboxAbsent (s : State) (r : TrialRun) : Bool := s.region.absentAt ((List.range r.req.sbsz).map fun i => r.req.sbase + i)

/-- The executing trial thread begins example e: its inputs are read through the generic path, its sandbox is zeroed (R345), once no line of it
is absent (R301), and nothing that it has read ahead counts any more; a fault ends the trial with FAULT.mem. -/
def beginExample (s : State) (r : TrialRun) (e : Nat) : Except Stop State :=
  if sandboxAbsent s r then .error (.wait .absentLine)
  else match readInputs s r e with
    | .error (.wait k) => .error (.wait k)
    | .error (.consumed u) => .error (.consumed u)
    | .error _ => .ok (endTrial (s.setTh { s.th with trial := some r }) 9)
    | .ok (bs, s) =>
      let s := s.mapRegion s.th.key.part s.th.key.core s.th.launch fun g => { g with scr := r.zero g.scr }
      .ok (forget (s.setTh (s.th.exampleStart r e ((List.range r.req.nin).map fun i => BitVec.ofNat 32 (fld bs (4 * i) 4)) false)) fun _ => true)

/-- Do something with a resident thread as the executing one. -/
def asThread (s : State) (t : Thread) (f : State → State) : State := (f (s.enterThread t)).leaveThread

/-- The executing trial thread sets up example e, or waits until its inputs can be read (R344, R345). -/
def setupExample (s : State) (r : TrialRun) (e : Nat) : State :=
  match beginExample s r e with
  | .ok s' => s'
  | .error (.consumed u) => consumeUe s u
  | .error (.wait k) => s.setTh { s.th.exampleStart r e [] true with wait := .retry k (s.th.wait.since s.time) }
  | .error _ => s

/-- The executing trial thread begins to set up example e: in one step, or, where the move says so (`Port.split`), byte by byte (R291). -/
def beginSetup (s : State) (r : TrialRun) (e : Nat) : State :=
  if !s.port.split then setupExample s r e else s.setTh (s.th.exampleStart r e [] true)

/-- The code-bank bytes of a trial's slots in which it sees what an earlier write has left (R253, R186): of each byte, a free choice among what
stood there since the last write that the trial surely sees. -/
def bankView (h : Hw) (c : Ctx) (r : TrialReq) : List (Nat × Byte) :=
  let es := c.bankOld.filter fun e => decide (256 * r.slot ≤ e.off) && decide (e.off < 256 * (r.slot + r.nslot))
  let offs := nub (es.map fun e => e.off)
  (offs.zip (List.range offs.length)).filterMap fun x =>
    let past := ((es.filter fun e => e.off == x.1).reverse.takeWhile fun e => !r.knows.contains e.id)
    (past[Config.freeNat (h.fresh + 1 + x.2) % (past.length + 1)]?).map fun e => (x.1, e.byte)

/-- TRIAL_START (R259, R345). -/
def execTrialStart (part core tid : Nat) (s : State) : Host.Outcome State Fault Refusal :=
  if !(contextRuns s part core) then .next s
  else match nextStart s part core with
    | none => .next s
    | some e => match e.kind with
      | .trial r =>
        if e.tid != tid then .next s
        else
          let t : Thread := { Thread.idle with
            live := true, key := ⟨part, core, (s.freeSlots part core false).1⟩, launch := e.launch, tid := BitVec.ofNat 32 tid, win := r.win,
            fuel := r.fuel, picker := leastPicker (s.threadsOn part core) }
          let old := bankView s.hw (s.hw.ctx part core) r
          let s1 := (beginStart s part core e).mapHw fun h => { h with fresh := h.fresh + 256 * r.nslot }
          .next (beginSetup (s1.setTh t) ⟨r, 0, 0, false, false, false, [], [], old⟩ 0).leaveThread
      | _ => .next s

/-- The executing thread's output cells folded into its signature, whatever their tags (R346). -/
def foldOutputs (t : Thread) (n : Nat) : Thread :=
  (List.range n).foldl (fun t i => t.foldSig ((t.cell i).data.zeroExtend 64)) t

/-- The executing trial thread's example is over: its output cells are folded, its other accesses are performed, and the next example or
the end of the trial follows (R346). -/
def foldExample (s : State) (r : TrialRun) : State :=
  match flush (s.setTh (foldOutputs s.th r.req.nout)) with
  | .error e => stopped s e
  | .ok s =>
    let s := s.mapHw fun h => { h with pends := h.pends.filter fun p => !p.ofThread s.th }
    let r : TrialRun := { r with done := r.ex + 1, folding := false }
    if r.ex + 1 == r.req.nex then endTrial (s.setTh { s.th with trial := some r }) 0 else beginSetup s r (r.ex + 1)

/-- EXAMPLE_FOLD (R346): once the output cells are full. A trial that waits for the inputs of an example tries again to read them (R345). -/
def execExampleFold (part core slot : Nat) (s : State) : Host.Outcome State Fault Refusal :=
  match s.thread? ⟨part, core, slot⟩ with
  | none => .next s
  | some t => match t.trial with
    | none => .next s
    | some r =>
      if !contextRuns s part core then .next s
      else if r.loading then .next (asThread s t fun s => setupExample s r r.ex)
      else whenEnabled (r.folding && (t.firstEmpty 0 r.req.nout).isNone) s (asThread s t fun s => foldExample s r)

/-- Campion makes one access of an example that it is setting up (R291, R345): the input byte at a place, or, behind those, the zeroing of a
sandbox byte. One that meets a fault or a wait is left to the setup. -/
def exampleByte (s : State) (k : Key) (n : Nat) : State :=
  match s.thread? k with
  | none => s
  | some t => match t.trial with
    | none => s
    | some r =>
      let m := 4 * r.req.nin
      if !r.loading || !contextRuns s k.part k.core then s
      else asThread s t fun s =>
        let keep (s : State) (r : TrialRun) : State := s.setTh { s.th with trial := some r }
        if n < m then
          let a := r.req.inputAt r.ex + BitVec.ofNat 64 n
          match checkGen s s.who .load a 1 with
          | .error _ => s
          | .ok xs =>
            if (r.seen.any fun x => x.1 == n) || (poisonOf s.hw (xkeys xs)).isSome then s
            else keep (s.mapHw fun h => noteReads (touch h s.who .load xs) (xkeys xs))
              { r with seen := (n, sget s.hw.mem ((xkeys xs).headD 0)) :: r.seen }
        else if n - m < r.req.sbsz && !r.zeroed.contains (n - m) && !s.region.absentAt [r.req.sbase + (n - m)] then
          keep (s.mapRegion k.part k.core s.th.launch fun g => { g with scr := sset g.scr (r.req.sbase + (n - m)) 0 })
            { r with zeroed := (n - m) :: r.zeroed }
        else s

/-- FUEL_EXHAUSTED (R347, R348). -/
def execFuelExhausted (part core slot : Nat) (s : State) : Host.Outcome State Fault Refusal :=
  match s.thread? ⟨part, core, slot⟩ with
  | none => .next s
  | some t => match t.trial with
    | none => .next s
    | some r => whenEnabled (r.starved && contextRuns s part core) s (asThread s t fun s => endTrial s 1)

/-! ### The lookup (R352 to R356) -/

/-- The deduplication key (R352). -/
def dedupKey (sig : DWord) (sign : BitVec 12) (verdict : Nat) : DWord :=
  mix64 (sig ^^^ (sign.zeroExtend 64 <<< 48) ^^^ (BitVec.ofNat 64 verdict <<< 60))

/-- The issuer of a trial, as a command. -/
def Lookup.by_ (x : Lookup) : Issuer := ⟨x.req.issuer, x.req.issuerTid, x.launch, x.req.ip, x.req.seq⟩

/-- A new session-table entry (R353). -/
def Lookup.entry (x : Lookup) (key : DWord) : List Byte :=
  leBytes 8 key.toNat ++ leBytes 4 x.tid.toNat ++ leBytes 2 x.req.slot ++ leBytes 1 x.verdict ++ leBytes 1 1

/-- Probe up to `n` entries from the i-th one (R352): the state, the lines written, DUP and TFULL. Each entry is compared and, where it is
free, written in one atomic step at L2. -/
def probe (s : State) (x : Lookup) (key : DWord) (size i : Nat) : Nat → Except Stop (State × List Nat × Bool × Bool)
  | 0 => .ok (s, [], false, true)
  | n + 1 =>
    let a := x.req.table + BitVec.ofNat 64 (16 * ((key.toNat % size + i) % size))
    match checkGen s x.by_.who .atomic a 16 with
    | .error e => .error e
    | .ok xs =>
      let ks := xkeys xs
      match poisonOf s.hw ks with
      | some k => .error (.consumed (x.by_.ue s.hw k))
      | none =>
        let bs := ks.map fun k => sget s.hw.mem k
        let mark (acc : Acc) : State := s.mapHw fun h => noteReads (touch h x.by_.who acc xs) ks
        if fld bs 15 1 % 2 == 1 then
          (if fld bs 0 8 == key.toNat then .ok (mark .load, [], true, false) else probe (mark .load) x key size (i + 1) n)
        else .ok ((mark .atomic).mapHw fun h => writeKeys h none (ks.zip (x.entry key)), addLines [] ks, false, false)

/-- The lookup and insert of R352, from the first entry that has not been probed: the state, the lines written, DUP and TFULL. -/
def dedup (s : State) (x : Lookup) : Except Stop (State × List Nat × Bool × Bool) :=
  if x.req.tlog == 0 then .ok (s, [], false, false)
  else
    let key := dedupKey x.sig x.sign x.verdict
    let tup : FilterTuple := ⟨x.req.table, x.req.tlog, x.launch, key⟩
    let k := x.by_.key
    if (s.hw.ctx k.part k.core).filter.contains tup then .ok (s, [], true, false)
    else
      let size := 2 ^ x.req.tlog
      match probe s x key size x.probed (min size 64 - x.probed) with
      | .error e => .error e
      | .ok (s, wrote, dup, tfull) =>
        let s := if tfull then s else s.mapCtx k.part k.core fun c => { c with filter := (tup :: c.filter).take 16384 }
        .ok (s, wrote, dup, tfull)

/-- The result record of a trial (R260). -/
def Lookup.record (x : Lookup) (dup tfull : Bool) : List Byte :=
  leBytes 1 x.verdict ++ leBytes 1 ((if dup then 1 else 0) + (if tfull then 2 else 0)) ++ leBytes 1 x.done ++ leBytes 1 0 ++
  leBytes 4 (min x.used (2 ^ 32 - 1)) ++ leBytes 8 x.sig.toNat

/-- A trial is over: its exit value is known to AWAIT (R259) and its slots are no longer in use. -/
def trialOver (s : State) (x : Lookup) (v : DWord) : State :=
  let k := x.by_.key
  s.mapHw fun h =>
    let h := match h.launch? k.part x.launch with
      | some l => h.setLaunch { l with exits := (x.tid.toNat, v) :: l.exits }
      | none => h
    h.setCtx { h.ctx k.part k.core with lookups := (h.ctx k.part k.core).lookups.filter fun y => y.id != x.id }

/-- The lookup stops or waits on what an access met (R356); `s0` is the state where it waits. What it has written is seen as after its
completion (R297, R300). -/
def lookupStopped (s s0 : State) (x : Lookup) (e : Stop) : State :=
  match e with
  | .fault f => engineFault (trialOver (dropWritten s x.by_ x.wrote) x 0xFFFFFFFFFFFFFFFF) x.by_ .trial true f
  | e => commandWaits s0 x.by_ e

/-- A lookup into the same table that has reached its turn in the same clock, of a lower TID, comes first (R355). -/
def Ctx.lookupBehind (c : Ctx) (x : Lookup) : Bool :=
  c.lookups.any fun y => y.clk == x.clk && y.req.table == x.req.table && y.answer.isNone && decide (y.tid.toNat < x.tid.toNat)

/-- The answer of a lookup: what it has found, or what it finds now. -/
def answer (s : State) (x : Lookup) : Except Stop (State × List Nat × Bool × Bool) :=
  match x.answer with
  | some a => .ok (s, x.wrote, a)
  | none => dedup s x

/-- The half of the record that a lookup writes next, and what follows it: the low half comes first, or both at once (DESIGN CHOICE,
notes/assumptions/45.md: R356 gives the halves no order). -/
def Lookup.rest (x : Lookup) (dup tfull : Bool) : DWord × List Byte :=
  (x.req.recAddr + BitVec.ofNat 64 (8 * x.put), (x.record dup tfull).drop (8 * x.put))

/-- A lookup has begun: it has probed an entry, or written half of its record. -/
def Lookup.begun (x : Lookup) : Bool := x.probed != 0 || x.answer.isSome || x.put != 0

/-- A lookup waits: a core processes 32 at once (R357), and the lower TID of the same clock comes first (R355). -/
def Ctx.lookupWaits (c : Ctx) (x : Lookup) : Bool :=
  c.lookupBehind x || (!x.begun && decide (32 ≤ c.lookups.countP Lookup.begun))

/-- DEDUP_LOOKUP (R352, R356): the lookup, the record, the end of the trial. -/
def execDedupLookup (part core id : Nat) (s : State) : Host.Outcome State Fault Refusal :=
  match (s.hw.ctx part core).lookups.find? fun x => x.id == id with
  | none => .next s
  | some x =>
    if !(contextRuns s part core) || (s.hw.ctx part core).lookupWaits x then .next s
    else match answer s x with
      | .error e => .next (lookupStopped s s x e)
      | .ok (s1, wrote, dup, tfull) =>
        match engWrite s1 x.by_ wrote (x.rest dup tfull).1 (x.rest dup tfull).2 with
        | .error e => .next (lookupStopped s1 s { x with wrote := wrote } e)
        | .ok (s2, wrote) =>
          let s3 := trialOver (dropWritten s2 x.by_ wrote) x (BitVec.ofNat 64 (fld (x.record dup tfull) 0 8))
          .next (commandOver (uncount s3 x.by_ .trial) x.by_)

/-- Replace a lookup's progress. -/
def keepLookup (s : State) (x : Lookup) : State :=
  s.mapCtx x.by_.key.part x.by_.key.core fun c => { c with lookups := c.lookups.map fun y => if y.id == x.id then x else y }

/-- Campion makes the next access of a lookup ahead of the rest (R291, R352, R356): it probes an entry, or writes a half of the record, each of
them single-copy atomic. One that meets a fault or a wait is left to the lookup. -/
def lookupPart (s : State) (part core id : Nat) : State :=
  match (s.hw.ctx part core).lookups.find? fun x => x.id == id with
  | none => s
  | some x =>
    if !(contextRuns s part core) || (s.hw.ctx part core).lookupWaits x then s
    else match x.answer with
      | none =>
        let size := 2 ^ x.req.tlog
        let passed : Option State :=
          if x.req.tlog == 0 || decide (min size 64 ≤ x.probed + 1) then none
          else match probe s x (dedupKey x.sig x.sign x.verdict) size x.probed 1 with
            | .ok (s', _, false, true) => some s'
            | _ => none
        match passed with
        | some s' => keepLookup s' { x with probed := x.probed + 1 }
        | none => match dedup s x with
          | .ok (s', wrote, a) => keepLookup s' { x with answer := some a, wrote := wrote }
          | .error _ => s
      | some (dup, tfull) =>
        let (a, bs) := x.rest dup tfull
        if bs.isEmpty then s
        else match engWrite s x.by_ x.wrote a (bs.take 8) with
          | .ok (s', wrote) => keepLookup s' { x with put := x.put + 1, wrote := wrote }
          | .error _ => s

/-- FILTER_CACHE_DROP (R354). -/
def execFilterCacheDrop (part core idx : Nat) (s : State) : Host.Outcome State Fault Refusal :=
  .next (s.mapCtx part core fun c => { c with filter := c.filter.eraseIdx idx })

end Sys2Proof.Machine
end

