-- ==== Sys2Proof/Machine/Completions.lean ====
section
/-!
DEFINITION. Sys2Proof/Machine/Completions.lean: the steps that complete what instructions began: loads, scalar loads, atomics, SPAWN,
AWAIT, staging a page, and draining a write-combining buffer (R159, R161, R172, R178, R180, R225, R283, R373).
-/
namespace Sys2Proof.Machine

/-- An outstanding producer. -/
def Hw.pend? (h : Hw) (id : Nat) : Option Pend := h.pends.find? fun p => p.id == id

/-- The thread of a producer waits for the host's action on it (R406): the producer does not complete meanwhile. -/
def peerHeld (s : State) (p : Pend) : Bool := s.allThreads.any fun t => t.park == .peer p.id

/-- An outstanding access is performed, as far as it has not been, and completes. What it reads of poisoned bytes is consumed when the step is
over (R371). -/
def finishAccess (s : State) (p : Pend) : State :=
  let s := s.mapHw fun h => perform h p
  match s.hw.pend? p.id with
  | some q => match q.bytes with
    | some bs => completePend s q bs
    | none => s
  | none => s

/-- A producer of one kind completes. -/
def completeAccess (s : State) (id : Nat) (ok : PendKind → Bool) : Host.Outcome State Fault Refusal :=
  match s.hw.pend? id with
  | none => .next s
  | some p => .next (if ok p.kind && !peerHeld s p then finishAccess s p else s)

/-- LOAD_COMPLETE (R36, R172). -/
def execLoadComplete (id : Nat) (s : State) : Host.Outcome State Fault Refusal :=
  completeAccess s id fun k => match k with
    | .load _ => true
    | _ => false

/-- XLD_COMPLETE (R225). -/
def execXldComplete (id : Nat) (s : State) : Host.Outcome State Fault Refusal :=
  completeAccess s id fun k => match k with
    | .xload _ _ _ => true
    | _ => false

/-- ATOMIC_COMPLETE (R180). -/
def execAtomicComplete (id : Nat) (s : State) : Host.Outcome State Fault Refusal :=
  completeAccess s id fun k => match k with
    | .atomic _ _ _ _ _ _ => true
    | _ => false

/-- A scalar load's thread goes on after its instruction. -/
def resumeSld (s : State) (k : Key) : State :=
  match s.thread? k with
  | none => s
  | some t => match t.wait with
    | .held .scalarLoad _ => s.setThread (t.past (t.latch.getD 4#32).toNat)
    | _ => s

/-- SLD_DATA (R178): the data of a thread's scalar load arrive. -/
def execSldData (part core slot : Nat) (s : State) : Host.Outcome State Fault Refusal :=
  let k : Key := ⟨part, core, slot⟩
  let mine (p : Pend) : Bool := p.key == k && (match p.kind with
    | .sload _ _ _ => true
    | _ => false)
  match s.hw.pends.find? mine with
  | none => .next s
  | some p =>
    if peerHeld s p then .next s
    else
      let s := finishAccess s p
      .next (if (s.hw.pend? p.id).isNone then resumeSld s k else s)

/-- SPAWN_COMPLETE (R159): the spawns of one gang take TIDs in ascending TID of their threads. The result of a thread that is halted arrives
when it goes on (R39). -/
def execSpawnComplete (id : Nat) (s : State) : Host.Outcome State Fault Refusal :=
  let spawns (p : Pend) : Bool := match p.kind with
    | .spawn _ _ => true
    | _ => false
  match s.hw.pend? id with
  | none => .next s
  | some p => match p.kind, s.hw.launch? p.key.part p.launch with
    | .spawn entry arg, some l =>
      if !coreRuns s.hw p.key.part p.key.core || (s.hw.pends.any fun q => spawns q && q.gang == p.gang && q.id < p.id) then .next s
      else if 2 ^ 32 ≤ l.nextTid then .next (completePend s p (leBytes 4 0))
      else
        let s := s.mapHw fun h =>
          pushStart (h.setLaunch { l with nextTid := l.nextTid + 1 }) p.key.part p.key.core ⟨l.id, l.nextTid, .spawn entry arg⟩
        .next (completePend s p (leBytes 4 l.nextTid))
    | _, _ => .next s

/-- AWAIT_COMPLETE (R161, R39): the named thread has exited; what it did is seen from now on by the awaiting core. -/
def execAwaitComplete (id : Nat) (s : State) : Host.Outcome State Fault Refusal :=
  match s.hw.pend? id with
  | none => .next s
  | some p => match p.kind, s.hw.launch? p.key.part p.launch with
    | .await tid _, some l =>
      match l.exits.find? fun x => x.1 == tid.toNat && coreRuns s.hw p.key.part p.key.core with
      | none => .next s
      | some x =>
        let s := s.mapHw fun h =>
          forgetAhead (dropCon (dropL1 h p.key.part p.key.core) p.key.part p.key.core) p.key fun _ => true
        .next (completePend s p (leBytes 8 x.2.toNat))
    | _, _ => .next s

/-- WC_DRAIN (R283): a write-combining buffer reaches its home. -/
def execWcDrain (part core line : Nat) (s : State) : Host.Outcome State Fault Refusal :=
  .next (s.mapHw fun h => wcDrain h part core fun l => l.line == line)

/-! ### Staging (R373) -/

/-- Lines of a range of keys leave every read cache, and nothing read there before counts. -/
def dropRange (h : Hw) (k n : Nat) : Hw :=
  let out (line : Nat) : Bool := !(lineOf k ≤ line && line ≤ lineOf (k + n - 1))
  let cut (c : Cache) (of : Nat → Nat) : Cache := ⟨c.lines.filter fun l => out (of l), c.stale.filter fun x => out (of (lineOf x.1))⟩
  { h with ctxs := h.ctxs.map fun (c : Ctx) =>
      { c with
        l1 := cut c.l1 id, con := cut c.con id, icache := cut c.icache fun l => l % 2 ^ 73
        late := c.late.filter fun w => w.old.all fun x => out (lineOf x.1)
        ahead := c.ahead.filter fun a => (physKeys (a.bytes.map Prod.fst)).all fun x => out (lineOf x) } }

/-- Every access that has been issued to a range of keys is performed, and its stores are at home, before the range is moved as a whole. -/
def settleRange (h : Hw) (k n : Nat) : Hw :=
  let has (x : Nat) : Bool := decide (k ≤ x) && decide (x < k + n)
  let h := (h.pends.filter fun p => (physKeys p.locs).any has).foldl perform h
  h.ctxs.foldl (fun (h : Hw) (c : Ctx) =>
    let h := wcDrain h c.part c.core fun l => l.bytes.any fun x => has x.key
    drainOut h c.part c.core (((h.ctx c.part c.core).outq.filter fun o => o.bytes.any fun x => has x.1).map fun o => o.id)) h

/-- A block of device memory is read to be copied to another place: what has been stored to it is at home, and its latent errors are found
(R370). -/
def readBlockOf (h : Hw) (k n : Nat) : Hw := noteGranules (settleRange h k n) fun g => decide (k ≤ 32 * g) && decide (32 * g < k + n)

/-- A block of device memory is copied to another place, with its poison. -/
def copyBlock (h : Hw) (dst src n : Nat) : Hw :=
  let h := settleRange (readBlockOf h src n) dst n
  let moved := (h.mem.filter fun c => src ≤ c.1 && c.1 < src + n).map fun c => (dst + (c.1 - src), c.2)
  let inDst (g : Nat) : Bool := decide (dst ≤ 32 * g) && decide (32 * g < dst + n)
  let bad := (h.poison.filter fun p => src ≤ 32 * p.granule && 32 * p.granule < src + n).map fun p =>
    { p with granule := (dst + (32 * p.granule - src)) / 32 }
  { dropRange h dst n with
    mem := moved.foldl (fun m x => sset m x.1 x.2) (zeroBytes h.mem dst n)
    poison := bad ++ h.poison.filter fun p => !inDst p.granule
    latent := h.latent.filter fun l => !inDst l.granule }

/-- Two blocks overlap. -/
def blocksMeet (a b : Nat × Nat) : Bool := decide (a.1 < b.1 + b.2) && decide (b.1 < a.1 + a.2)

/-- The staging area of a partition: start and size (R373). -/
def stageArea (p : Part) : Nat × Nat := (bitsOf p.stgcfg.toNat 17 0 * 2 ^ 21, bitsOf p.stgcfg.toNat 47 32 * 2 ^ 21)

/-- The staging frames that launches of a partition hold. -/
def stagedFrames (h : Hw) (part : Nat) : List (Nat × Nat) :=
  (h.launches.filter fun l => l.part == part).flatMap fun (l : Launch) => l.staged.map fun (g : Staged) => (g.frame, g.size)

/-- A free staging frame of a size: a frame that a commit gave in exchange, else the lowest block of the area that is free. No rule says what
the frames of an area that passes the end of device memory are: that they are handed out like others, and hold bytes, is a DESIGN CHOICE
(notes/assumptions/45.md), as is which free frame is taken. -/
def freeFrame (h : Hw) (part size : Nat) : Option Nat :=
  let p := h.part part
  let used := stagedFrames h part
  let free (b : Nat × Nat) : Bool := used.all fun u => !blocksMeet u b
  match p.stageGiven.find? fun b => b.2 == size && free b with
  | some b => some b.1
  | none =>
    let a := stageArea p
    ((List.range (a.2 / size)).map fun i => a.1 + size * i).find? fun f =>
      free (f, size) && p.stageTaken.all fun u => !blocksMeet u (f, size)

/-- What staging a page of a launch makes (R373): none where the page cannot be staged or is staged already. -/
def stagedPiece (s : State) (l : Launch) (page : Nat) : Option Staged :=
  match walk s.hw (s.hw.part l.part).xlroot page with
  | none => none
  | some e =>
    let pte := e.pte.toNat
    let (va, size) := stagePiece e page
    let orig := pteFrame pte + (va - e.va)
    let taken := s.hw.launches.any fun m => m.staged.any fun g => blocksMeet (g.orig, g.size) (orig, size)
    if pteTgt pte != 0 || pteMt pte != 0 || !pteW pte || pteX pte || (pteTier pte && !pteRes pte) || taken then none
    else (freeFrame s.hw l.part size).map fun f => ⟨va, size, orig, f, decide (65536 < e.size)⟩

/-- STAGE_PAGE (R373): the page, or its 4 KiB piece, whose first write waits for it is copied into a free staging frame and mapped for the
launch alone. -/
def execStagePage (part launch page : Nat) (s : State) : Host.Outcome State Fault Refusal :=
  match s.hw.launch? part launch with
  | none => .next s
  | some l => match stagedPiece s l page with
    | none => .next s
    | some g =>
      whenEnabled (l.restartable && l.wants.any fun v => v.1 == g.va) s
        (s.mapHw fun h => (copyBlock h g.frame g.orig g.size).setLaunch
          { l with staged := l.staged ++ [g], wants := l.wants.filter fun v => v.1 != g.va })

end Sys2Proof.Machine
end

