-- ==== Sys2Proof/Machine/Scheduler.lean ====
section
/-!
DEFINITION. Sys2Proof/Machine/Scheduler.lean: launch queues, dispatch, patches, auto-crews, balancing, the end of a launch, draw grants
and partition swaps (R307 to R326, R373 to R375, R380, R393 to R398).
-/
namespace Sys2Proof.Machine

/-! ### Records (R263, R396) -/

/-- Fields of a launch or patch record. -/
def recHdr (r : List Byte) : DWord := BitVec.ofNat 64 (fld r 0 8)
def recPrio (r : List Byte) : Nat := fld r 12 1
def recKind (r : List Byte) : Nat := fld r 14 1
def recWaddr (r : List Byte) : DWord := BitVec.ofNat 64 (fld r 24 8)
def recWval (r : List Byte) : Nat := fld r 32 8
def recSig (r : List Byte) : DWord := BitVec.ofNat 64 (fld r 40 8)
def recFaddr (r : List Byte) : DWord := BitVec.ofNat 64 (fld r 48 8)
def recFsize (r : List Byte) : Nat := fld r 56 4

/-- The fields that launch and patch records share are within R263. That bits 7:2 of byte 12, which R263 does not name, are refused when one of
them is set is a DESIGN CHOICE (notes/assumptions/45.md). -/
def recOk (part : Nat) (r : List Byte) : Bool :=
  recPrio r ≤ 3 && fld r 13 1 == part && recKind r ≤ 1 && zeroFld r 15 1 && recFsize r % 32 == 0 && zeroFld r 60 4

/-- The partition itself reads bytes at system scope (R311): poisoned ones as they stand, since no thread or command consumes them
(DESIGN CHOICE, notes/assumptions/45.md). -/
def systemRead (s : State) (part : Nat) (ea : DWord) (n : Nat) : Except Stop (List Byte × State) :=
  match checkGen s (systemWho part) .load ea n with
  | .error e => .error e
  | .ok xs =>
    let ks := xkeys xs
    .ok (ks.map fun k => sget s.hw.mem k, s.mapHw fun h => noteReads (touch h (systemWho part) .load xs) ks)

/-- The wait address of a record faults (R312). -/
def waitFaults (s : State) (part : Nat) (r : List Byte) : Bool :=
  recWaddr r != 0 && (match checkGen s (systemWho part) .load (recWaddr r) 8 with
    | .error (.fault _) => true
    | _ => false)

/-- A record with no thread and no core, written at the head of a record's fault area (R312, R397). -/
def writeRefusal (s : State) (part : Nat) (r : List Byte) (x : Rec) : State :=
  if (recFaddr r).toNat % 32 == 0 && 32 ≤ recFsize r then placeRecord s ⟨part, 0, recFaddr r, x.bytes 0, [], none⟩
  else s.emit (.msix (part + 1) 0)

/-- The head of a queue is taken away. -/
def popQueue (h : Hw) (part q : Nat) : Hw :=
  let p := h.part part
  h.setPart { (p.setQueue q ⟨(p.queue q).recs.drop 1, false, none⟩) with rr := (q + 1) % 16 }

/-- A record is refused (R312): its queue moves on. -/
def refuse (s : State) (part q : Nat) (r : List Byte) (detail : Nat) : State :=
  writeRefusal (s.mapHw fun h => popQueue h part q) part r ⟨9, detail, 0, 255, 0xFFFFFFFF, recHdr r, 0, 0, 0⟩

/-! ### Readiness (R310, R311) -/

/-- The head of a queue. -/
def Part.head (p : Part) (q : Nat) : Option (List Byte) := (p.queue q).recs.head?

/-- The versions that are current or bound by a launch in flight (R397, R399). -/
def liveVersions (h : Hw) (part current : Nat) : List Nat :=
  nub (current :: (h.launches.filter fun l => l.part == part).map fun (l : Launch) => l.ver)

/-- The pages of a patch. -/
def patchPages (r : List Byte) : List (DWord × DWord) :=
  (List.range (fld r 8 4)).map fun i => (recHdr r + BitVec.ofNat 64 (4096 * i), BitVec.ofNat 64 (fld r 16 8) + BitVec.ofNat 64 (4096 * i))

/-- The frame of a 4 KiB page that R396 admits as a replacement: normal device memory with X and without W. -/
def patchFrame (s : State) (part : Nat) (src : DWord) : Option Nat :=
  match walk s.hw (s.hw.part part).xlroot src.toNat with
  | none => none
  | some e =>
    let pte := e.pte.toNat
    if pteTgt pte == 0 && pteMt pte == 0 && pteX pte && !pteW pte && (!pteTier pte || pteRes pte) then
      some (pteFrame pte + (src.toNat - e.va))
    else none

/-- A target page is mapped with X. -/
def patchTarget (s : State) (part : Nat) (tgt : DWord) : Bool :=
  match walk s.hw (s.hw.part part).xlroot tgt.toNat with
  | some e => pteX e.pte.toNat
  | none => false

/-- A patch record passes its checks (R396). -/
def patchOk (s : State) (part : Nat) (r : List Byte) : Bool :=
  let n := fld r 8 4
  let tgt := fld r 0 8
  let src := fld r 16 8
  1 ≤ n && n ≤ 4096 && tgt % 4096 == 0 && src % 4096 == 0 && !blocksMeet (tgt, 4096 * n) (src, 4096 * n) &&
  (s.hw.part part).ver != 2 ^ 32 - 1 && (patchPages r).all fun x => patchTarget s part x.1 && (patchFrame s part x.2).isSome

/-- A patch would exceed 16 versions (R397). -/
def tooManyVersions (h : Hw) (part : Nat) : Bool := decide (16 < (liveVersions h part ((h.part part).ver + 1)).length)

/-- The version on whose release a patch waits is still current or bound. -/
def Queue.heldBy (x : Queue) (h : Hw) (part : Nat) : Bool :=
  match x.hold with
  | some v => (liveVersions h part (h.part part).ver).contains v
  | none => false

/-- A head is due but for the versions: no wait address, or its word has been seen, or its address faults, which refuses it. -/
def headDue (s : State) (part q : Nat) (r : List Byte) : Bool :=
  recWaddr r == 0 || ((s.hw.part part).queue q).ready || waitFaults s part r

/-- A head is a patch that is to take effect (R396). -/
def applies (s : State) (part : Nat) (r : List Byte) : Bool :=
  recKind r == 1 && !waitFaults s part r && recOk part r && patchOk s part r

/-- A head is ready: it is due, and a patch that would exceed 16 versions has waited until the oldest of them is released (R397). -/
def headReady (s : State) (part q : Nat) : Bool :=
  match (s.hw.part part).head q with
  | none => false
  | some r =>
    headDue s part q r && (!applies s part r || !(((s.hw.part part).queue q).heldBy s.hw part || tooManyVersions s.hw part))

/-- A ready patch at the head of a queue that would exceed 16 versions begins to wait for the oldest of them (R397); so does one that had waited
for a version that is gone and would still exceed them. -/
def holdPatch (s : State) (part q : Nat) : State :=
  let p := s.hw.part part
  match p.head q with
  | none => s
  | some r =>
    if !((p.queue q).heldBy s.hw part) && recKind r == 1 && headDue s part q r && applies s part r && tooManyVersions s.hw part then
      s.mapHw fun h => h.setPart (p.setQueue q { p.queue q with hold := minBy id (liveVersions h part p.ver) })
    else s

/-- Every patch that has to wait does. -/
def holdPatches (s : State) : State :=
  (s.hw.parts.filter fun p => p.queues.toList.any fun x => !x.recs.isEmpty).foldl
    (fun s p => (List.range 16).foldl (fun s q => holdPatch s p.idx q) s) s

/-- The queue whose head is taken next (R310): highest priority, then round-robin in ascending queue number. -/
def chooseQueue (s : State) (part : Nat) : Option Nat :=
  let p := s.hw.part part
  let rank (q : Nat) : Nat := (3 - recPrio ((p.head q).getD []) % 4) * 16 + (q + 16 - p.rr % 16) % 16
  minBy rank ((List.range 16).filter fun q => headReady s part q)

/-- The word at the wait address of a queue's head is read (R311): the head is ready once the word is at least wval. -/
def pollQueue (s : State) (part q : Nat) : State :=
  match (s.hw.part part).head q with
  | none => s
  | some r =>
    if recWaddr r == 0 then s
    else match systemRead s part (recWaddr r) 8 with
      | .error _ => s
      | .ok (bs, s) =>
        let p := s.hw.part part
        if recWval r ≤ leNat bs then s.mapHw fun h => h.setPart (p.setQueue q { p.queue q with ready := true }) else s

/-- WAIT_WORD_POLL (R311). -/
def execWaitWordPoll (part q : Nat) (s : State) : Host.Outcome State Fault Refusal := .next (pollQueue s part q)

/-- After a signal increment the wait words of the partition are read at once (R311). -/
def pollAll (s : State) (part : Nat) : State := (List.range 16).foldl (fun s q => pollQueue s part q) s

/-! ### Dispatch (R312, R313, R393, R394) -/

/-- A kernel header within R393, for a partition whose current version is `ver`. -/
def headerOk (b : List Byte) (ver : Nat) : Bool :=
  let win := fld b 12 1
  let entry := fld b 8 4
  let ksize := fld b 28 4
  let ltv := fld b 32 8
  fld b 0 4 == 0x5A4B4844 && fld b 4 2 == 1 && 1 ≤ fld b 6 1 && fld b 6 1 ≤ 3 && fld b 7 1 < 16 && entry % 4 == 0 && 96 ≤ entry &&
  8 ≤ win && win ≤ 128 && win % 8 == 0 && zeroFld b 13 1 && fld b 14 2 ≤ 1024 && fld b 16 4 ≤ 524288 && fld b 16 4 % 128 == 0 &&
  fld b 20 4 ≤ 524288 && fld b 20 4 % 128 == 0 && fld b 24 2 ≤ 1024 && zeroFld b 26 2 && entry < ksize && ltv % 4 == 0 &&
  (ltv == 0 || ltv < ksize) && fld b 40 4 ≤ ver && zeroFld b 44 52

/-- The decode mode of a header. -/
def modeOf (n : Nat) : DecodeMode := if n == 1 then .z1 else if n == 2 then .z2 else .z3

/-- The resources of a launch do not suffice (R312, R316, R373, R394): detail 2. That "a core's free capacity" is exceeded when no core of the
partition has the regions free is DEDUCED (notes/assumptions/29.md). -/
def lacksResources (h : Hw) (part : Nat) (l : Launch) : Bool :=
  let p := h.part part
  (l.restartable && bitsOf p.stgcfg.toNat 47 32 == 0) || (l.dmr && decide (min 2048 (65536 / l.win) < l.crewSize)) ||
  !(p.cores.any fun c => regionsFit h part c l)

/-- The next launch id (R313): cyclic through 1 .. 2^31 − 1, skipping those in flight. -/
def freshLaunchId (h : Hw) (part : Nat) : Nat :=
  let start := (h.part part).nextLaunch
  let wrap (i : Nat) : Nat := (start - 1 + i) % (2 ^ 31 - 1) + 1
  (((List.range (h.launches.length + 1)).map wrap).find? fun i => (h.launch? part i).isNone).getD start

/-- The launch of a record and its header. -/
def makeLaunch (h : Hw) (part : Nat) (r b : List Byte) : Launch :=
  let p := h.part part
  let flags := fld b 7 1
  let hdr := recHdr r
  { part := part, id := freshLaunchId h part, order := p.nextOrder, hdr := hdr, count := fld r 8 4, prio := recPrio r,
    arg := BitVec.ofNat 64 (fld r 16 8), sigaddr := recSig r, faddr := recFaddr r, fsize := recFsize r,
    entry := hdr + BitVec.ofNat 64 (fld b 8 4), ltv := if fld b 32 8 == 0 then 0 else hdr + BitVec.ofNat 64 (fld b 32 8),
    win := fld b 12 1, mode := modeOf (fld b 6 1), crewSize := fld b 14 2, scr := fld b 16 4, obuf := fld b 20 4, acc := fld b 24 2,
    restartable := flags % 2 == 1, scangated := flags / 2 % 2 == 1, dmr := flags / 4 % 2 == 1, trialhost := flags / 8 == 1, ver := p.ver,
    nextTid := fld r 8 4, exits := [], seq := 0, lost := 0, lossMark := false, irq := false, attempt := 0, staged := [], wants := [],
    heldPuts := [], ran := [] }

/-- A launch enters flight: its id, its threads' start entries (R313). -/
def addLaunch (h : Hw) (l : Launch) : Hw :=
  let p := h.part l.part
  let h := h.setPart { p with nextLaunch := l.id % (2 ^ 31 - 1) + 1, nextOrder := p.nextOrder + 1 }
  placeLaunch { h with launches := h.launches ++ [l] } l

/-- DISPATCH (R310, R312, R313). A header on a page that is not resident holds the dispatcher of the partition until the page is fetched, and a
header with poisoned bytes is refused as one that breaks R393 is: the spec says neither (DESIGN CHOICE, notes/assumptions/45.md). -/
def execDispatch (part : Nat) (s : State) : Host.Outcome State Fault Refusal :=
  match chooseQueue s part with
  | none => .next s
  | some q =>
    let p := s.hw.part part
    let r := (p.head q).getD []
    if recKind r == 1 && recOk part r then .next s
    else if !(recOk part r && (recHdr r).toNat % 256 == 0 && 1 ≤ fld r 8 4) then .next (refuse s part q r 0)
    else if waitFaults s part r then .next (refuse s part q r 3)
    else match codeBytes s part p.ver (recHdr r) 96 with
      | .error (.fault _) => .next (refuse s part q r 1)
      | .error _ => .next s
      | .ok (b, bad, s1) =>
        let flags := fld b 7 1
        let l := makeLaunch s1.hw part r b
        if bad.isSome || !headerOk b p.ver then .next (refuse s1 part q r 1)
        else if flags / 2 % 2 == 1 && flags % 2 == 0 then .next (refuse s1 part q r 4)
        else if lacksResources s1.hw part l then .next (refuse s1 part q r 2)
        else .next (s1.setHw (addLaunch (popQueue s1.hw part q) l))

/-! ### The signal word (R314) -/

/-- Add 1 to the 64-bit word at an address, as one atomic, and read the wait words of the partition; what it met otherwise. -/
def signalAdd (s : State) (part : Nat) (ea : DWord) : Except Stop State :=
  match checkGen s (systemWho part) .atomic ea 8 with
  | .error e => .error e
  | .ok xs =>
    let ks := xkeys xs
    let old := leNat (ks.map fun k => sget s.hw.mem k)
    .ok (pollAll (s.mapHw fun h => writeKeys (noteReads (touch h (systemWho part) .atomic xs) ks) none (ks.zip (leBytes 8 (old + 1)))) part)

/-! ### Patches (R395 to R397) -/

/-- A patch takes effect: the next version is the current one with its overlays. -/
def applyPatch (s : State) (part q : Nat) (r : List Byte) : State :=
  s.mapHw fun h =>
    let p := h.part part
    let os : List Overlay := (patchPages r).map fun x => ⟨p.ver + 1, x.1.toNat, (patchFrame s part x.2).getD 0⟩
    popQueue (h.setPart { p with ver := p.ver + 1, overlays := p.overlays ++ os }) part q

/-- PATCH_APPLY (R396, R397): the patch at the head of its queue, between two dispatches; then its signal. Where the signal word's page is not
resident, the whole patch waits (DESIGN CHOICE, notes/assumptions/45.md). -/
def execPatchApply (part q : Nat) (s : State) : Host.Outcome State Fault Refusal :=
  let r := ((s.hw.part part).head q).getD []
  if !(chooseQueue s part == some q && recKind r == 1 && recOk part r) then .next s
  else if waitFaults s part r then .next (refuse s part q r 3)
  else if !patchOk s part r then .next (refuse s part q r 0)
  else
    let s1 := applyPatch s part q r
    if recSig r == 0 then .next s1
    else match signalAdd s1 part (recSig r) with
      | .ok s2 => .next s2
      | .error (.fault f) =>
        .next (writeRefusal s1 part r ⟨f.cause.toNat, 0, 1, 255, 0xFFFFFFFF, recHdr r, recSig r, 0, 0⟩)
      | .error _ => .next s

/-! ### Auto-crews and balancing (R316, R319) -/

/-- A core can take a crew whole. -/
def crewFits (s : State) (l : Launch) (core size : Nat) : Bool :=
  let n := entryNeeds l .plain
  s.fits l.part core (size * n.1, size * n.2) && regionsFit s.hw l.part core l

/-- The core that takes a crew: the fewest pending entries among those that can (R316). -/
def crewCore (s : State) (l : Launch) (size : Nat) : Option Nat :=
  minBy (fun c => (s.hw.ctx l.part c).startq.length) ((s.hw.part l.part).cores.filter fun c => crewFits s l c size)

/-- A crew is placed: its members' entries, its ranks reserved, its regions (R22, R316). -/
def assignCrew (s : State) (l : Launch) (core : Nat) (w : CrewWaiting) : State :=
  (s.mapHw fun h =>
    let p := h.part l.part
    let h := h.setPart { p with crewWait := p.crewWait.filter fun x => x != w }
    let c := (h.ctx l.part core).allocate l.id
    let handle := pickHandle (c.crews.map fun x => x.handle) (Config.freeNat h.fresh)
    h.setCtx { c with
      crews := c.crews ++ [⟨handle, autoKey l.id w.block, w.size, List.range w.size, none, none, []⟩]
      startq := c.startq ++ (List.range w.size).map fun i => ⟨l.id, w.tid + i, .crew w.block⟩ }).tick

/-- The waiting crews of a partition in the start order (R315). -/
def crewOrder (h : Hw) (part : Nat) : List CrewWaiting :=
  let prio (w : CrewWaiting) : Nat := ((h.launch? part w.launch).map fun l => 3 - l.prio).getD 3
  let ord (w : CrewWaiting) : Nat := ((h.launch? part w.launch).map fun l => l.order).getD 0
  sortBy prio (sortBy ord (sortBy (fun (w : CrewWaiting) => w.tid) (h.part part).crewWait))

/-- CREW_ASSIGN (R316): the first waiting crew that some core can take. -/
def execCrewAssign (part : Nat) (s : State) : Host.Outcome State Fault Refusal :=
  let place (w : CrewWaiting) : Option (Launch × Nat × CrewWaiting) :=
    match s.hw.launch? part w.launch with
    | some l => (crewCore s l w.size).map fun c => (l, c, w)
    | none => none
  match (crewOrder s.hw part).findSome? place with
  | none => .next s
  | some (l, c, w) => .next (assignCrew s l c w)

/-- An entry that balancing may move (R319). -/
def StartEntry.movable (e : StartEntry) : Bool :=
  match e.kind with
  | .plain | .spawn _ _ => true
  | _ => false

/-- What balancing moves: a start entry, or an unassigned auto-crew as one block. -/
inductive BalanceItem where
  | entry (e : StartEntry)
  | crew (w : CrewWaiting)
deriving DecidableEq, Repr, Inhabited

def BalanceItem.size : BalanceItem → Nat
  | .entry _ => 1
  | .crew w => w.size

/-- The items of a core that balancing may move, the latest first; an unassigned auto-crew counts as later than the start entries (DESIGN
CHOICE, notes/assumptions/45.md). -/
def balanceItems (h : Hw) (part core : Nat) : List BalanceItem :=
  (((h.part part).crewWait.filter fun w => w.core == core).reverse.map .crew) ++
    ((h.ctx part core).startq.reverse.filter StartEntry.movable).map .entry

/-- The items that move until the difference is at most `thr`. -/
def balanceMoves (thr : Int) : Int → List BalanceItem → List BalanceItem
  | _, [] => []
  | diff, x :: xs => if diff ≤ thr then [] else x :: balanceMoves thr (diff - 2 * (x.size : Int)) xs

/-- An item goes from one core's queue to another's. -/
def moveItem (part from_ into : Nat) (h : Hw) (x : BalanceItem) : Hw :=
  match x with
  | .crew w =>
    let p := h.part part
    h.setPart { p with crewWait := p.crewWait.map fun y => if y == w then { y with core := into } else y }
  | .entry e =>
    let src := h.ctx part from_
    pushStart (h.setCtx { src with startq := src.startq.filter fun d => d != e }) part into e

/-- Balance two neighbouring cores (R319): the deeper one's latest movable entries go over until the difference is at most `thr`. -/
def balancePair (h : Hw) (part thr a b : Nat) : Hw :=
  let da := pendingDepth h part a
  let db := pendingDepth h part b
  let (from_, into, diff) := if db ≤ da then (a, b, da - db) else (b, a, db - da)
  if a == b then h
  else (balanceMoves thr diff (balanceItems h part from_)).foldl (moveItem part from_ into) h

/-- Regions of launches that have no work left on a core are freed (R268). -/
def settleCores (s : State) (part : Nat) : State :=
  (s.hw.ctxs.filter fun c => c.part == part).foldl (fun s c => c.regions.foldl (fun s r => settleRegions s part c.core r.launch) s) s

/-- BALANCE_TICK (R319); the start queues of a shadowed partition are not balanced (DESIGN CHOICE, notes/assumptions/45.md). -/
def execBalanceTick (part : Nat) (s : State) : Host.Outcome State Fault Refusal :=
  let p := s.hw.part part
  let cs := p.cores
  let pairs := cs.zip (cs.drop 1 ++ cs.take 1)
  whenEnabled (!p.balcfg[12] && p.active) s
    (settleCores (s.mapHw fun h => pairs.foldl (fun h x => balancePair h part (bitsOf p.balcfg.toNat 11 0) x.1 x.2) h) part)

/-! ### The end of a launch (R314, R373, R375, R380) -/

/-- Every thread of a launch has exited and all of its work has completed (R314). -/
def launchDone (s : State) (l : Launch) : Bool :=
  ((s.hw.part l.part).crewWait.all fun w => w.launch != l.id) &&
  (s.hw.ctxs.all fun c => c.part != l.part || !busyOn s l.part c.core l.id) &&
  s.allThreads.all fun t => !(t.key.part == l.part && t.launch == l.id)

/-- A launch leaves flight: its regions and reservations are freed. -/
def endLaunch (s : State) (part launch : Nat) : State :=
  (dropLaunch s part launch).mapHw fun h =>
    { h with ctxs := h.ctxs.map fun (c : Ctx) => if c.part == part then c.purge launch else c }

/-- SIGNAL_INCREMENT (R314); of a RESTARTABLE launch only once it has committed and its held records are queued (R375). -/
def execSignalIncrement (part launch : Nat) (s : State) : Host.Outcome State Fault Refusal :=
  match s.hw.launch? part launch with
  | none => .next s
  | some l =>
    if l.restartable || !l.heldPuts.isEmpty || !launchDone s l then .next s
    else if l.sigaddr == 0 then .next (endLaunch s part launch)
    else match signalAdd s part l.sigaddr with
      | .ok s' => .next (endLaunch s' part launch)
      | .error (.fault f) =>
        .next (endLaunch (appendRecord s part launch ⟨f.cause.toNat, 0, 1, 255, 0xFFFFFFFF, l.hdr, l.sigaddr, 0, 0⟩) part launch)
      | .error _ => .next s

/-- A C-die still scans its cores: it has a spare, or a core in the scan or on the move (R382). -/
def dieScans (h : Hw) (die : Nat) : Bool :=
  h.cores.any fun c => c.die == die && (match c.use with
    | .spare | .scanning _ | .moving _ => true
    | _ => false)

/-- Every core that ran a SCANGATED launch has passed a scan that started after its last event there (R380). -/
def scanGate (h : Hw) (l : Launch) : Bool :=
  !l.scangated || l.ran.all fun x => !dieScans h x.1 || h.cores.any fun c => c.die == x.1 && c.idx == x.2.1 && x.2.2 < c.lastPass

/-- The page-table entry of a staged page with the staging frame in place of its own (R375). -/
def remapEntry (h : Hw) (a frame : Nat) : Hw :=
  let e := pteAt h a
  let e' := e - bitsOf e 55 12 * 4096 + frame
  { h with mem := writeBytes h.mem (devKey a) (leBytes 8 e') }

/-- One staged piece becomes visible: it is copied back, or its page is remapped and the old frame takes its place in the staging
area. A page whose entry has been changed meanwhile is not remapped, and what was staged of it is lost (DESIGN CHOICE,
notes/assumptions/45.md). -/
def commitPiece (h : Hw) (part : Nat) (g : Staged) : Hw :=
  if g.copyBack then copyBlock h g.orig g.frame g.size
  else
    let p := h.part part
    match walk h p.xlroot g.va with
    | none => h
    | some e =>
      if pteFrame e.pte.toNat != g.orig || e.size != g.size then h
      else
        let n := g.size / 4096
        let first := e.pteAddr - 8 * (e.pteAddr / 8 % n)
        let h := (List.range n).foldl (fun h i => remapEntry h (first + 8 * i) g.frame) h
        let given := p.stageGiven.contains (g.frame, g.size)
        let h := dropXlat (settleRange h g.orig g.size) part g.va g.size
        let p := h.part part
        h.setPart { p with
          stageTaken := if given then p.stageTaken else (g.frame, g.size) :: p.stageTaken
          stageGiven := (g.orig, g.size) :: p.stageGiven.filter fun b => b != (g.frame, g.size) }

/-- The held records of a launch that its queues have room for are queued, in issue order; the first that finds none waits, and with it
those behind it. -/
def queueHeld (part : Nat) : List (Nat × List Byte) → Hw → List (Nat × List Byte) × Hw
  | [], h => ([], h)
  | x :: xs, h => if 256 ≤ (h.part part).queueLoad x.1 then (x :: xs, h) else queueHeld part xs (putRecord h part x.1 x.2)

/-- LAUNCH_COMMIT (R375, R380): the staged data become visible in one step, then the held records are queued, as there is room for them;
the launch is as one without RESTARTABLE from then on. -/
def execLaunchCommit (part launch : Nat) (s : State) : Host.Outcome State Fault Refusal :=
  match s.hw.launch? part launch with
  | none => .next s
  | some l =>
    whenEnabled (if l.restartable then launchDone s l && scanGate s.hw l else !l.heldPuts.isEmpty) s
      (s.mapHw fun h =>
        let h := l.staged.foldl (fun h g => commitPiece h part g) h
        let (left, h) := queueHeld part l.heldPuts h
        h.setLaunch { l with restartable := false, scangated := false, staged := [], wants := [], heldPuts := left })

/-! ### Draw grants (R320 to R322) -/

/-- A request is granted: the command may start, or the thread has its tickets, and its PERMIT may complete (R264). -/
def grantPermit (h : Hw) (core : Nat) (q : PermitReq) : Hw :=
  match q.what with
  | .ticket k tid cls n =>
    let b := h.budget core
    { h.setBudget { b with served := b.served ++ [q] } with
      threads := h.threads.map fun t => if t.key == k && t.tid == tid then t.addTickets cls n else t }
  | .matrix _ id => { h with ctxs := h.ctxs.map fun (c : Ctx) =>
      { c with mxq := c.mxq.map fun (m : MxCmd) => if m.id == id then { m with permit := true } else m } }
  | .copy id => { h with ctxs := h.ctxs.map fun (c : Ctx) =>
      { c with cpq := c.cpq.map fun (m : CopyCmd) => if m.id == id then { m with permit := true } else m } }
  | .select id => { h with ctxs := h.ctxs.map fun (c : Ctx) =>
      { c with selq := c.selq.map fun (m : SelCmd) => if m.id == id then { m with permit := true } else m } }

/-- The place of a request at a refresh (R321). -/
def PermitReq.rank (q : PermitReq) : Nat :=
  match q.what with
  | .matrix true _ => 0
  | .ticket _ _ _ _ => 1
  | _ => 2

/-- Serve waiting requests in order until one cannot be covered. -/
def serve (core : Nat) : List PermitReq → Hw → Hw
  | [], h => h
  | q :: qs, h =>
    let b := h.budget core
    if b.covers q.cost then
      serve core qs (grantPermit (h.setBudget { b with
        balance := b.balance - (q.cost : Int), waiting := b.waiting.filter fun x => x.what != q.what }) core q)
    else h

/-- A core's balance is set to its new grant less its debt, and the waiting requests of the partition that runs there are served (R324). -/
def refreshCore (h : Hw) (core grant : Nat) : Hw :=
  let b := h.budget core
  let debt := if b.balance < 0 then b.balance else 0
  let h := h.setBudget { b with balance := (grant : Int) + debt, grant := grant }
  serve core (sortBy PermitReq.rank (b.waiting.filter fun q => coreRuns h q.part core)) h

/-- Tickets age; unused ones lapse at the second refresh (R264). -/
def ageTickets (ts : List Ticket) : List Ticket :=
  (ts.map fun (x : Ticket) => { x with age := x.age + 1 }).filter fun x => x.age < 2

/-- Every ticket ages, those of threads that have exited among them (R162). -/
def ageAll (s : State) : State :=
  (s.mapThreads fun t => { t with tickets := ageTickets t.tickets }).mapHw fun h =>
    { h with ctxs := h.ctxs.map fun c => { c with exited := c.exited.map fun x => { x with tickets := ageTickets x.tickets } } }

/-- GRANT_REFRESH (R320, R408): the grants are the power manager's; every grant is 0 while the limit in force is 0. -/
def execGrantRefresh (grants : List Nat) (s : State) : Host.Outcome State Fault Refusal :=
  let g (c : Nat) : Nat := if s.mod.eff == 0 then 0 else min 1023 (grants.getD c 0)
  .next ((ageAll s).mapHw fun h => (h.budgets.map fun b => b.core).foldl (fun h c => refreshCore h c (g c)) h.dropWaits)

/-! ### Partition swaps (R323 to R326) -/

/-- The partner of a partition (R326). -/
def Part.peer (p : Part) : Nat := bitsOf p.pswap.toNat 11 9

/-- Two partitions name each other and share their cores (R323). -/
def paired (h : Hw) (p : Part) : Bool :=
  let q := h.part p.peer
  p.pswap[8] && q.pswap[8] && q.peer == p.idx && q.idx != p.idx && q.cores == p.cores

/-- No core of a partition is in a migration (R378). -/
def coresSettled (h : Hw) (p : Part) : Bool := p.cores.all fun c => !(h.cores.any fun x => x.use == .moving c)

/-- A swap begins: the active partition halts, GO reads 1. -/
def beginSwap (s : State) (p : Part) : State :=
  s.mapHw fun h => h.setPart { p with swap := .halting, swapDue := false, pswap := p.pswap ||| 1 }

/-- A swap that was asked for while a core of the partition was in a migration begins once none is (R378); where the partitions no longer
name each other it is given up. -/
def beginDueSwap (s : State) (part : Nat) : State :=
  let p := s.hw.part part
  if p.swapDue && p.active && p.swap == .none && coresSettled s.hw p then
    if paired s.hw p then beginSwap s p
    else s.mapHw fun h => h.setPart { p with swapDue := false, pswap := p.pswap &&& ~~~1#64 }
  else s

/-- SLICE_EXPIRY (R323). -/
def execSliceExpiry (part : Nat) (s : State) : Host.Outcome State Fault Refusal :=
  let p := s.hw.part part
  let slice := bitsOf p.pswap.toNat 31 16
  whenEnabled (p.active && p.swap == .none && !p.swapDue && slice != 0 && paired s.hw p && coresSettled s.hw p &&
    decide (p.activeSince + 1000 * slice ≤ s.time)) s (beginSwap s p)

/-- An access in flight that a halt waits for (R324): loads, stores, atomics and scalar loads. -/
def Pend.isAccess (p : Pend) : Bool :=
  match p.kind with
  | .spawn _ _ | .await _ _ => false
  | _ => true

/-- SWAP_HALT_COMPLETE (R237, R324): no access is in flight and no burst is under way; buffered stores reach their homes. -/
def execSwapHaltComplete (part : Nat) (s : State) : Host.Outcome State Fault Refusal :=
  let p := s.hw.part part
  whenEnabled (p.swap == .halting && !(s.hw.pends.any fun q => q.key.part == part && q.isAccess && !peerHeld s q) &&
      p.cores.all fun c => !copyBusy s part c) s
    (s.mapHw fun h =>
      let h := p.cores.foldl (fun h c => drainOutAll (wcDrain h part c fun _ => true) part c) h
      h.setPart { p with swap := .exchanging })

/-- A wait's beginning moved on by the part of it that fell between two times, in which the watchdog did not count (R325, R368). -/
def Wait.shift (w : Wait) (out back : Nat) : Wait :=
  match w with
  | .none => .none
  | .retry k t => .retry k (t + (back - max t out))
  | .held k t => .held k (t + (back - max t out))

/-- A context as it is saved: its caches and TLBs are invalidated, its filter cache is dropped (R354, R379), nothing that has been read ahead
counts, and a Teasel pass in progress starts again (R237). -/
def Ctx.cold (c : Ctx) : Ctx :=
  { c with
    l1 := .empty, con := .empty, icache := .empty, late := [], ahead := [], tlb := [], utlb := [], filter := []
    selq := c.selq.map fun (q : SelCmd) => { q with seen := [] } }

/-- The launches of the active partition that have work on a core had an event there (R380, R381). -/
def noteAllRan (s : State) (part core : Nat) : State :=
  s.mapHw fun h => ((h.launches.filter fun l => l.part == part && busyOn s part core l.id).map fun l => l.id).foldl
    (fun h l => noteRan h part core l) h

/-- SWAP_EXCHANGE_COMPLETE (R324, R325, R379). -/
def execSwapExchangeComplete (part : Nat) (s : State) : Host.Outcome State Fault Refusal :=
  let p := s.hw.part part
  let q := s.hw.part p.peer
  let ran := p.cores.foldl (fun s c => noteAllRan s part c) s
  let s1 := ran.mapThreads fun t => if t.key.part == q.idx then { t with wait := t.wait.shift q.activeSince s.time } else t
  whenEnabled (p.swap == .exchanging && q.idx != part && q.cores == p.cores) s
    (s1.mapHw fun h =>
      let h := { h with ctxs := h.ctxs.map fun (c : Ctx) => if c.part == part || c.part == q.idx then c.cold else c }
      (h.setPart { p with active := false, swap := .none, activeSince := s.time, pswap := p.pswap &&& ~~~1#64, tlb := [] }).setPart
        { q with active := true, activeSince := s.time, tlb := [] })

end Sys2Proof.Machine
end

