-- ==== Sys2Proof/Machine/Select.lean ====
section
/-!
DEFINITION. Sys2Proof/Machine/Select.lean: SEL.run (R255), Teasel's passes and its outputs (R256, R257, R336 to R338).
-/
namespace Sys2Proof.Machine

/-! ### The block (R255) -/

/-- The element width of a column format in bits; 0 for ZXF-M. -/
def SelBlock.width (b : SelBlock) : Nat := if b.fmt == 16 then 0 else (AnyFmt.ofCode b.fmt).width

/-- The column is packed without a stride (R58). -/
def SelBlock.packed (b : SelBlock) : Bool := b.width == 4 || b.width == 6

/-- The greatest extents that the column, the weights and the output may touch (R255). -/
def SelBlock.colExtent (b : SelBlock) : Nat :=
  if b.packed then bytesFor (b.n * b.width) else (b.n - 1) * b.stride + (if b.fmt == 16 then 34 else b.width / 8)
def SelBlock.weightExtent (b : SelBlock) : Nat := if b.wfmt == 0 then 0 else (b.n - 1) * b.wstride + 4

/-- A block read from its 64 bytes. -/
def selBlock (bs : List Byte) : SelBlock :=
  { col := BitVec.ofNat 64 (fld bs 0 8), csp := fld bs 8 1, fmt := fld bs 9 1, mode := fld bs 10 1, nanp := fld bs 11 1,
    wfmt := fld bs 12 1, out := fld bs 13 1, osp := fld bs 14 1, n := fld bs 16 4, stride := fld bs 20 4,
    kw := BitVec.ofNat 64 (fld bs 24 8), wcol := BitVec.ofNat 64 (fld bs 32 8), wstride := fld bs 40 4,
    recAddr := BitVec.ofNat 64 (fld bs 48 8), outa := BitVec.ofNat 64 (fld bs 56 8) }

/-- The field k or W is within its limits (R255). -/
def SelBlock.targetOk (b : SelBlock) : Bool :=
  if b.mode == 2 then
    b.wfmt == 2 || (match fmtF64.decode b.kw.toNat with
      | .fin neg m _ _ => !neg || m == 0
      | _ => false)
  else b.kw.toNat / 2 ^ 32 == 0 && 1 ≤ b.kw.toNat && b.kw.toNat ≤ b.n

/-- A block within its limits; `scr` is the launch's scratchpad size (R255). -/
def SelBlock.ok (b : SelBlock) (bs : List Byte) (scr : Nat) : Bool :=
  zeroFld bs 15 1 && zeroFld bs 44 4 && b.csp ≤ 1 && b.fmt ≤ 16 && b.mode ≤ 2 && b.nanp ≤ 1 && b.wfmt ≤ 2 && (b.mode != 2 || b.wfmt != 0) &&
  b.out ≤ 2 && b.osp ≤ 1 && 1 ≤ b.n && b.n ≤ 1048576 && (!b.packed || b.stride == 0) && b.targetOk && b.recAddr.toNat % 32 == 0 &&
  b.outa.toNat % 4 == 0 &&
  (b.csp == 0 || (b.col.toNat + b.colExtent ≤ scr && (b.wfmt == 0 || b.wcol.toNat + b.weightExtent ≤ scr))) &&
  (b.osp == 0 || (b.recAddr.toNat + 32 ≤ scr && (b.out == 0 || b.outa.toNat + b.outExtent ≤ scr)))

/-- SEL.run (R255): a full Teasel queue holds the thread (R233). -/
def execSelRun (o : ScalarOps) (s : State) : Host.Outcome State Fault Refusal :=
  run (.selRun o) s fun s => do
    let (bs, s) ← readBlock (.selRun o) s (s.th.code o.a) 64 16
    let blk := selBlock bs
    check (.selRun o) (blk.ok bs s.scrSize)
    if 16 ≤ s.myCtx.selq.length then .error (.wait .engine)
    else
      let (b, s) ← countCommand s .select
      let (id, s) := s.newId
      .ok (s.mapCtx b.key.part b.key.core fun c =>
        { c with selq := c.selq ++ [{ id := id, issuer := b, blk := blk, permit := false, pass := 0, chosen := 0, cand := [], sel := [],
                                      need := 0, tgt := 0, clamped := false, result := none, seen := [], put := [], wrote := [] }] })

/-! ### Reading the column and the weights -/

/-- Teasel reads bytes in a space. -/
def selRead (s : State) (b : Issuer) (space : Nat) (a : DWord) (n : Nat) : Except Stop (List Byte × State) :=
  if space == 1 then .ok (readBytes ((s.hw.ctx b.key.part b.key.core).region b.launch).scr a.toNat n, s)
  else engRead s b a n

/-- The bytes of a space as a pass has them: those that it has read before, and, where some are missing, a read of them all (R291). -/
def selBytes (s : State) (b : Issuer) (seen : List (Nat × Byte)) (space : Nat) (a : DWord) (n : Nat) : Except Stop (List Byte × State) :=
  match allSome ((List.range n).map fun i => (seen.find? fun x => x.1 == a.toNat + i).map Prod.snd) with
  | some bs => .ok (bs, s)
  | none => match selRead s b space a n with
    | .error e => .error e
    | .ok (bs, s) => .ok (withSeen seen (a.toNat + ·) bs, s)

/-- Read something for each index of a list, in order. -/
def readEach {α : Type} (f : State → Nat → Except Stop (α × State)) : State → List Nat → Except Stop (List α × State)
  | s, [] => .ok ([], s)
  | s, i :: is =>
    match f s i with
    | .error e => .error e
    | .ok (x, s) => match readEach f s is with
      | .error e => .error e
      | .ok (xs, s) => .ok (x :: xs, s)

/-- The address of an entry of a strided array. -/
def entryAddr (base : DWord) (stride i : Nat) : DWord := base + BitVec.ofNat 64 (stride * i)

/-- An element of a column: its bits, its image (R70), and whether it is a NaN. -/
structure SelElem where
  bits : Nat
  image : Nat
  nan : Bool
deriving DecidableEq, Repr, Inhabited

/-- An element of a fixed format. -/
def fixedElem (fmt bits : Nat) : SelElem := ⟨bits, image (AnyFmt.ofCode fmt) bits, isNanCode (AnyFmt.ofCode fmt) bits⟩

/-- An element of a ZXF-M column of length l (R70, R75): fraction bits below its precision are ignored, a malformed one counts as the
default NaN; its bits count as 0 in the record (R257). -/
def zxfElem (l : Nat) (bs : List Byte) : SelElem :=
  let low := (bs.getD 0 0).toNat % 32
  let img := if l - 15 < low + 2 then zxfEncode l FVal.dflt else leNat (bs.drop 2) % 2 ^ l / 2 ^ low * 2 ^ low
  ⟨0, if img / 2 ^ (l - 1) % 2 == 0 then img + 2 ^ (l - 1) else 2 ^ l - 1 - img, (zxfDecode l img).isNan⟩

/-- The length that the first byte of a ZXF-M element gives (R75). -/
def zxfLen (h : Byte) : Nat := 32 * (h.toNat / 32 + 1)

/-- The elements of the column and the image width; no width for a ZXF-M column whose lengths differ, where each element counts by its own
length. -/
def readColumn (s : State) (b : Issuer) (k : SelBlock) (seen : List (Nat × Byte)) : Except Stop ((List SelElem × Option Nat) × State) :=
  let at_ (i : Nat) : DWord := entryAddr k.col k.stride i
  if k.fmt == 16 then
    match readEach (fun s i => selBytes s b seen k.csp (at_ i) 1) s (List.range k.n) with
    | .error e => .error e
    | .ok (hs, s) =>
      let ls := hs.map fun h => zxfLen (h.getD 0 0)
      let l := ls.headD 32
      match readEach (fun s i => selBytes s b seen k.csp (at_ i) (2 + ls.getD i 32 / 8)) s (List.range k.n) with
      | .error e => .error e
      | .ok (es, s) => .ok ((ls.zipWith zxfElem es, if ls.all fun x => x == l then some l else none), s)
  else if k.packed then
    match selBytes s b seen k.csp k.col k.colExtent with
    | .error e => .error e
    | .ok (bs, s) => .ok (((List.range k.n).map fun i => fixedElem k.fmt (elemAt (leNat bs) k.width i), some k.width), s)
  else
    match readEach (fun s i => selBytes s b seen k.csp (at_ i) (k.width / 8)) s (List.range k.n) with
    | .error e => .error e
    | .ok (es, s) => .ok ((es.map fun e => fixedElem k.fmt (leNat e), some k.width), s)

/-- A weight in the units of the command's sums, and whether it was clamped (R256, R337). -/
def weightOf (wfmt w : Nat) : Nat × Bool :=
  if wfmt == 2 then (w, false)
  else match fmtF32.decode w with
    | .nan _ _ _ _ => (0, true)
    | .inf neg => if neg then (0, true) else ((2 ^ 24 - 1) * 2 ^ (104 + 149), true)
    | .fin neg m e _ => if neg && m != 0 then (0, true) else (m * 2 ^ (e + 149).toNat, false)

/-- The weights of the column; zeros where there are none. -/
def readWeights (s : State) (b : Issuer) (k : SelBlock) (seen : List (Nat × Byte)) : Except Stop (List (Nat × Bool) × State) :=
  if k.wfmt == 0 then .ok (List.replicate k.n (0, false), s)
  else match readEach (fun s i => selBytes s b seen k.csp (entryAddr k.wcol k.wstride i) 4) s (List.range k.n) with
    | .error e => .error e
    | .ok (ws, s) => .ok (ws.map fun w => weightOf k.wfmt (leNat w), s)

/-- W in the units of the sums, rounded down: the sums are whole numbers of units. -/
def targetOf (k : SelBlock) : Int :=
  if k.wfmt == 2 then k.kw.toNat
  else match fmtF64.decode k.kw.toNat with
    | .fin _ m e _ => if 0 ≤ e + 149 then m * 2 ^ (e + 149).toNat else m / 2 ^ (-(e + 149)).toNat
    | _ => 0

/-! ### A pass (R336) -/

/-- What a pass has read: the elements, their weights and their image width, if they have one. -/
structure SelData where
  els : List SelElem
  ws : List (Nat × Bool)
  width : Option Nat
deriving DecidableEq, Repr, Inhabited

def SelData.el (x : SelData) (i : Nat) : SelElem := x.els.getD i ⟨0, 0, false⟩
def SelData.w (x : SelData) (i : Nat) : Nat := (x.ws.getD i (0, false)).1
def SelData.sumW (x : SelData) (is : List Nat) : Nat := is.foldl (fun a i => a + x.w i) 0

/-- The eligible indices (R256). -/
def SelData.eligible (x : SelData) (k : SelBlock) : List Nat := (List.range k.n).filter fun i => k.nanp == 1 || !(x.el i).nan

/-- The order runs from the top image down (R256). -/
def SelBlock.fromTop (k : SelBlock) : Bool := k.mode != 1

/-- The total weight as the record gives it (R257). -/
def totalField (k : SelBlock) (t : Nat) : Nat :=
  match k.wfmt with
  | 0 => 0
  | 1 => (fmtF64.place .rne (.fin false t (-149) false)).1
  | _ => t % 2 ^ 64

/-- The 32 bytes of a record (R257); `t` is the threshold image, where there is one. -/
def selRecord (k : SelBlock) (x : SelData) (status : Nat) (clamped : Bool) (t : Option Nat) : List Byte :=
  let el := x.eligible k
  let tail := leBytes 1 (status + if clamped then 128 else 0) ++ leBytes 3 0 ++ leBytes 8 (totalField k (x.sumW el))
  match t with
  | none => leBytes 20 0 ++ tail
  | some t =>
    let eq := el.filter fun i => (x.el i).image == t
    let beyond := el.filter fun i => if k.fromTop then decide (t < (x.el i).image) else decide ((x.el i).image < t)
    let first := eq.headD 0
    leBytes 8 (x.el first).bits ++ leBytes 4 first ++ leBytes 4 beyond.length ++ leBytes 4 eq.length ++ tail

/-- The image of the element that comes last in the order. -/
def lastImage (k : SelBlock) (x : SelData) (is : List Nat) : Nat :=
  let ims := is.map fun i => (x.el i).image
  if k.fromTop then ims.foldl min (ims.headD 0) else ims.foldl max (ims.headD 0)

/-- The result of status FEWER (R256, R257): every eligible element is selected. -/
def fewerResult (k : SelBlock) (x : SelData) (clamped : Bool) : SelResult :=
  let el := x.eligible k
  ⟨el, selRecord k x 1 clamped (some (lastImage k x el)), false⟩

/-- The bins of a digit, walked from the top (R336): the target bin with the selection, count and weight left before it, or none. -/
def walkBins (k : SelBlock) (x : SelData) (digit : Nat → Nat) (cand : List Nat) :
    List Nat → List Nat → Nat → Int → Option (Nat × List Nat × Nat × Int)
  | [], _, _, _ => none
  | b :: bs, sel, need, tgt =>
    let bin := cand.filter fun i => digit i == b
    if (if k.mode == 2 then decide (tgt < (x.sumW bin : Int)) else decide (need ≤ bin.length)) then some (b, sel, need, tgt)
    else walkBins k x digit cand bs (sel ++ bin) (need - bin.length) (tgt - (x.sumW bin : Int))

/-- The output phase (R336): candidates in ascending index, up to the count or until the running weight exceeds what is left. -/
def takeTies (k : SelBlock) (x : SelData) : List Nat → Nat → Int → List Nat
  | [], _, _ => []
  | i :: is, need, tgt =>
    if k.mode == 2 then (if tgt < (x.w i : Int) then [i] else i :: takeTies k x is need (tgt - (x.w i : Int)))
    else if need == 0 then []
    else i :: takeTies k x is (need - 1) tgt

/-- A pass over the values read (R336, R338). -/
def selPass (c : SelCmd) (x : SelData) : SelCmd :=
  let k := c.blk
  let el := x.eligible k
  let digits := (x.width.getD 32 + 3) / 4
  let d := digits - 1 - c.pass
  let cand := if c.pass == 0 then el else c.cand.filter fun i => (x.el i).image / 16 ^ (d + 1) == c.chosen
  let need := if c.pass == 0 then k.kw.toNat else c.need
  let tgt := if c.pass == 0 then targetOf k else c.tgt
  let clamped := c.clamped || (k.wfmt != 0 && x.ws.any Prod.snd)
  let done (r : SelResult) : SelCmd := { c with permit := false, pass := c.pass + 1, seen := [], clamped := clamped, result := some r }
  if x.width.isNone then done ⟨[], selRecord k x 4 clamped none, true⟩
  else if el.isEmpty then done ⟨[], selRecord k x 2 clamped none, false⟩
  else if k.mode == 2 && x.sumW el == 0 then done ⟨[], selRecord k x 3 clamped none, false⟩
  else
    let digit (i : Nat) : Nat := (x.el i).image / 16 ^ d % 16
    let order := if k.fromTop then (List.range 16).reverse else List.range 16
    match walkBins k x digit cand order c.sel need tgt with
    | none => done (fewerResult k x clamped)
    | some (b, sel, need, tgt) =>
      let cand := cand.filter fun i => digit i == b
      let chosen := 16 * c.chosen + b
      if d == 0 then
        let all := sel ++ takeTies k x cand need tgt
        done ⟨(List.range k.n).filter fun i => all.contains i, selRecord k x 0 clamped (some chosen), false⟩
      else
        { c with permit := false, pass := c.pass + 1, seen := [], chosen := chosen, cand := cand, sel := sel, need := need, tgt := tgt, clamped := clamped }

/-- Replace a Teasel command's progress. -/
def keepSel (s : State) (c : SelCmd) : State :=
  s.mapCtx c.issuer.key.part c.issuer.key.core fun x => { x with selq := x.selq.map fun (q : SelCmd) => if q.id == c.id then c else q }

/-- A Teasel command leaves its queue; the lines that only its writes have kept absent become present (R252, R272). -/
def endSel (s : State) (c : SelCmd) : State :=
  s.mapCtx c.issuer.key.part c.issuer.key.core fun x =>
    ({ x with selq := x.selq.filter fun (q : SelCmd) => q.id != c.id } : Ctx).fillLines c.issuer.launch c.id (c.blk.lines c.blk.outExtent)

/-- A Teasel command stops or waits on what an access met; `s0` is the state where it waits. What it has written is seen as after its completion
(R297, R300). -/
def selStopped (s s0 : State) (c : SelCmd) (e : Stop) : State :=
  match e with
  | .fault f => engineFault (endSel (dropWritten s c.issuer c.wrote) c) c.issuer .select true f
  | e => commandWaits s0 c.issuer e

/-- The scratchpad lines a Teasel command reads. -/
def SelBlock.reads (k : SelBlock) : List Nat :=
  if k.csp == 1 then linesOf k.col.toNat k.colExtent ++ linesOf k.wcol.toNat k.weightExtent else []

/-- SELECT_PASS (R236, R336, R338). -/
def execSelectPass (part core : Nat) (s : State) : Host.Outcome State Fault Refusal :=
  let x := s.hw.ctx part core
  match x.selq with
  | [] => .next s
  | c :: _ =>
    if !(enginesRun s part core) || c.result.isSome || x.linesHeld c.issuer.launch c.id c.blk.reads then .next s
    else
      let (s, go) := if c.permit then (s, true) else takePermit s c.issuer .select (.select c.id) 1
      if !go then .next s
      else
        let b := c.issuer
        let s0 := keepSel s { c with permit := true }
        match readColumn s b c.blk c.seen with
        | .error e => .next (selStopped s s0 c e)
        | .ok ((els, width), s) =>
          match readWeights s b c.blk c.seen with
          | .error e => .next (selStopped s s0 c e)
          | .ok (ws, s) => .next (keepSel s (selPass c ⟨els, ws, width⟩))

/-! ### Outputs (R256, R257, R341) -/

/-- The bytes of a mask. -/
def maskBytes (n : Nat) (sel : List Nat) : List Byte :=
  (List.range (bytesFor n)).map fun j =>
    BitVec.ofNat 8 ((List.range 8).foldl (fun a b => if sel.contains (8 * j + b) then a + 2 ^ b else a) 0)

/-- The bytes of the output at outa: none for a MIXED column or without output. -/
def outBytes (k : SelBlock) (r : SelResult) : List Byte :=
  if r.mixed then []
  else match k.out with
    | 1 => maskBytes k.n r.sel
    | 2 => r.sel.flatMap fun i => leBytes 4 i
    | _ => []

/-- Teasel writes bytes in a space; with the lines of memory it has written. -/
def selWrite (s : State) (b : Issuer) (wrote : List Nat) (space : Nat) (a : DWord) (bs : List Byte) : State × List Nat × Option Stop :=
  if space == 1 then
    (s.mapRegion b.key.part b.key.core b.launch fun r => { r with scr := writeBytes r.scr a.toNat bs }, wrote, none)
  else engWritePart s b wrote a bs

/-- What Teasel has not yet written of a stretch of its output, which stands at place `base` of it. -/
def selPut (s : State) (c : SelCmd) (wrote : List Nat) (a : DWord) (base : Nat) (bs : List Byte) : State × List Nat × Option Stop :=
  putRest c.issuer (if c.blk.osp == 0 then some a else none)
    (fun s wrote i bs => selWrite s c.issuer wrote c.blk.osp (a + BitVec.ofNat 64 i) bs) s wrote c.put base bs

/-- The space in which a pass reads an address, if it is one of those that the pass reads: of the column or of the weights. The bytes of a ZXF-M
element beyond its first are known once that one has been read. -/
def SelBlock.spaceOf (k : SelBlock) (seen : List (Nat × Byte)) (a : Nat) : Option Nat :=
  let in_ (base : DWord) (stride width : Nat) : Bool := (List.range k.n).any fun i =>
    let e := (entryAddr base stride i).toNat
    let w := if width == 0 then ((seen.find? fun x => x.1 == e).map fun x => 2 + zxfLen x.2 / 8).getD 1 else width
    decide (e ≤ a) && decide (a < e + w)
  let column := if k.packed then decide (k.col.toNat ≤ a) && decide (a < k.col.toNat + k.colExtent) else in_ k.col k.stride (k.width / 8)
  if column || (k.wfmt != 0 && in_ k.wcol k.wstride 4) then some k.csp else none

/-- SELECT_COMPLETE (R231, R257, R300): the output, then the record. -/
def execSelectComplete (part core : Nat) (s : State) : Host.Outcome State Fault Refusal :=
  match (s.hw.ctx part core).selq with
  | [] => .next s
  | c :: _ =>
    match c.result with
    | none => .next s
    | some r =>
      let b := c.issuer
      let out := outBytes c.blk r
      if !(enginesRun s part core) || (s.hw.ctx part core).linesHeld b.launch c.id (c.blk.lines out.length) then .next s
      else
        match selPut s c c.wrote c.blk.outa 0 out with
        | (s1, wrote, some e) => .next (selStopped s1 s { c with wrote := wrote } e)
        | (s1, wrote, none) => match selPut s1 c wrote c.blk.recAddr out.length r.record with
          | (s2, wrote, some e) => .next (selStopped s2 s { c with wrote := wrote } e)
          | (s2, wrote, none) => .next (commandOver (uncount (endSel (dropWritten s2 b wrote) c) b .select) b)

/-- Teasel writes one aligned 4-byte unit of the output or of the record behind it, single-copy atomic (R341): the one that holds place `n`. -/
def selUnit (s : State) (c : SelCmd) (r : SelResult) (n : Nat) : State :=
  let b := c.issuer
  let out := outBytes c.blk r
  let inOut := decide (n < out.length)
  let base := if inOut then 0 else out.length
  let bs := if inOut then out else r.record
  let a := if inOut then c.blk.outa else c.blk.recAddr
  let lo := (n - base) / 4 * 4
  let unit := (bs.drop lo).take 4
  match selWrite s b c.wrote c.blk.osp (a + BitVec.ofNat 64 lo) unit with
  | (s, wrote, none) =>
    let put := (List.range unit.length).map (fun i => base + lo + i) ++ c.put
    keepSel (sealByte s b (if c.blk.osp == 0 then some a else none) base (base + lo) put) { c with put := put, wrote := wrote }
  | _ => s

/-- Teasel makes one access of a core's first command ahead of the rest (R291): it reads the byte of a pass at address `n`, for which the permit
comes first, or it writes the unit at place `n` of the output and the record behind it, which is written once the output is. An access that
meets a fault or a wait is left to the pass or the output. -/
def selByte (s : State) (part core id n : Nat) : State :=
  let x := s.hw.ctx part core
  match x.selq with
  | [] => s
  | c :: _ =>
    let b := c.issuer
    if !(enginesRun s part core) || c.id != id then s
    else match c.result with
      | none =>
        match (if x.linesHeld b.launch c.id c.blk.reads then none else c.blk.spaceOf c.seen n) with
        | none => s
        | some space =>
          let (s, go) := if c.permit then (s, true) else takePermit s b .select (.select c.id) 1
          if !go then s
          else match selRead s b space (BitVec.ofNat 64 n) 1 with
            | .error _ => keepSel s { c with permit := true }
            | .ok (bs, s) => keepSel s { c with permit := true, seen := if c.seen.any fun y => y.1 == n then c.seen else (n, bs.headD 0) :: c.seen }
      | some r =>
        let out := outBytes c.blk r
        let due := decide (n < out.length) || (decide (n < out.length + r.record.length) && (List.range out.length).all fun i => c.put.contains i)
        if x.linesHeld b.launch c.id (c.blk.lines out.length) || c.put.contains n || !due then s else selUnit s c r n

end Sys2Proof.Machine
end

