-- ==== Sys2Proof/Machine/Service.lean ====
section
/-!
DEFINITION. Sys2Proof/Machine/Service.lean: the second tier, the watchdog, the patrol scrub, peer timeouts, upsets and redundant pairs,
migrations and the rotating scan (R286 to R290, R368, R370, R371, R376 to R382, R406).
-/
namespace Sys2Proof.Machine

/-! ### The second tier (R286 to R289) -/

/-- The indices of a table's entries that hold anything. -/
def tableIdx (m : Memory) (base n : Nat) : List Nat :=
  nub ((m.filter fun c => base ≤ c.1 && c.1 < base + 8 * n).map fun c => (c.1 - base) / 8)

/-- The entries of a table that lead to a next table: their index and the table. -/
def subTables (h : Hw) (base n : Nat) : List (Nat × Nat) :=
  (tableIdx h.mem base n).filterMap fun i => (nextTable (pteAt h (base + 8 * i))).map fun t => (i, t)

/-- The resident tiered pages of a partition. -/
def tierPages (h : Hw) (p : Part) : List TlbEntry :=
  if !p.xlroot[0] then []
  else
    (subTables h (bitsOf p.xlroot.toNat 55 20 * 2 ^ 20) 131072).flatMap fun (i0, t1) =>
    (subTables h t1 512).flatMap fun (i1, t2) =>
    (subTables h t2 512).flatMap fun (i2, t3) =>
    (tableIdx h.mem t3 512).filterMap fun i3 =>
      let e := pteAt h (t3 + 8 * i3)
      if i3 % 16 == 0 && pteS64 e && pteTier e && pteRes e then
        leafEntry (i0 * 2 ^ 39 + i1 * 2 ^ 30 + i2 * 2 ^ 21 + i3 * 4096) e (t3 + 8 * i3) 65536
      else none

/-- Change the sixteen entries of a 64 KiB page from their first one's address. -/
def mapGroup (h : Hw) (a : Nat) (f : Nat → Nat) : Hw :=
  { h with mem := (List.range 16).foldl (fun m i => writeBytes m (devKey (a + 8 * i)) (leBytes 8 (f (pteAt h (a + 8 * i))))) h.mem }

/-- Some entry of a page's group has a bit set. -/
def groupBit (h : Hw) (a bit : Nat) : Bool := (List.range 16).any fun i => bitsOf (pteAt h (a + 8 * i)) bit bit == 1

/-- An entry with a bit cleared. -/
def clearBit (bit e : Nat) : Nat := if bitsOf e bit bit == 1 then e - 2 ^ bit else e

/-- The bytes of a block, with offsets as keys. -/
def blockBytes (m : Memory) (base n : Nat) : Memory :=
  (m.filter fun c => base ≤ c.1 && c.1 < base + n).map fun c => (c.1 - base, c.2)

/-- The poisoned granules of a block, with offsets. -/
def blockPoison (h : Hw) (base n : Nat) : List Poison :=
  (h.poison.filter fun p => base ≤ 32 * p.granule && 32 * p.granule < base + n).map fun p => { p with granule := p.granule - base / 32 }

/-- The flash copy of a page. -/
def flashCopy (h : Hw) (part va : Nat) : Option FlashPage := h.flash.find? fun f => f.part == part && f.va == va

/-- A frame has a valid flash copy: the one that a fetch filled it from, and it is still the same. -/
def flashValid (h : Hw) (part va frame : Nat) : Bool :=
  match flashCopy h part va with
  | some f => f.frame == some frame && f.bytes == blockBytes h.mem frame 65536
  | none => false

/-- The flash area of a partition has room for one more page (R403 TIERFL), and so have the 16 TiB of the module (R2, R266). A page's copy keeps
its space until a boot (DESIGN CHOICE, notes/assumptions/33.md). -/
def flashRoom (h : Hw) (p : Part) : Bool :=
  let area := min (bitsOf p.tierfl.toNat 47 32) (16384 - bitsOf p.tierfl.toNat 13 0)
  decide ((h.flash.filter fun f => f.part == p.idx).length < area * 16384) && decide (h.flash.length < 2 ^ 28)

/-- The rows of the burst of a copy command that comes next. -/
def CopyCmd.nextRows (c : CopyCmd) (base : DWord) (stride : Int) : List (DWord × Nat) :=
  (List.range (if c.rb ≤ 65536 then c.burstRows else 1)).map fun j => (rowAddr base stride (c.row + j), c.rb)

/-- The generic ranges that the next accesses of a copy command read: those of its burst, or its list of pages. -/
def CopyCmd.nextReads (c : CopyCmd) : List (DWord × Nat) :=
  if c.kind == .look then [(c.src, 8 * c.rows)] else if c.kind == .copy && c.ssp == 0 then c.nextRows c.src c.ss else []

/-- The generic ranges that its next burst writes. -/
def CopyCmd.nextWrites (c : CopyCmd) : List (DWord × Nat) :=
  if c.kind != .look && c.dsp == 0 then c.nextRows c.dst c.ds else []

/-- The generic ranges that a Teasel command reads, and those that it writes. -/
def SelBlock.readRanges (k : SelBlock) : List (DWord × Nat) := if k.csp == 0 then [(k.col, k.colExtent), (k.wcol, k.weightExtent)] else []
def SelBlock.writeRanges (k : SelBlock) : List (DWord × Nat) := if k.osp == 0 then [(k.outa, k.outExtent), (k.recAddr, 32)] else []

/-- The generic ranges that a lookup touches. -/
def Lookup.ranges (x : Lookup) : List (DWord × Nat) :=
  (x.req.recAddr, 16) :: if x.req.tlog == 0 || x.answer.isSome then [] else [(x.req.table, 16 * 2 ^ x.req.tlog)]

/-- The spill area of a matrix command. -/
def MxRun.ranges (x : MxRun) : List (DWord × Nat) :=
  match x.cmd.op with
  | .go p => [(p.spill, spillSize)]
  | _ => []

/-- The generic ranges of the commands of a context that are in flight: begun and not over. -/
def Ctx.inFlight (c : Ctx) : List (DWord × Nat) :=
  ((c.cpq.filter fun q => q.permit || q.begun).flatMap fun q => q.nextReads ++ q.nextWrites) ++
  ((c.selq.take 1).filter fun q => q.permit || q.pass != 0 || !q.seen.isEmpty).flatMap (fun q => q.blk.readRanges ++ q.blk.writeRanges) ++
  ((c.mxRun.toList.filter fun x => x.spilling) ++ c.mxSpill.toList).flatMap MxRun.ranges ++
  (c.lookups.filter fun x => x.probed != 0 || x.answer.isSome).flatMap Lookup.ranges

/-- The first address and the number of bytes of an access from outside. -/
def extSpan : ExtAccess → Nat × Nat
  | .read a n => (a, n)
  | .write a bs => (a, bs.length)
  | .atomicAdd a n _ => (a, n)
  | .atomicSwap a n _ => (a, n)
  | .atomicCas a n _ _ => (a, n)

/-- The inputs that a trial thread is reading (R345). -/
def Thread.loadingRange (t : Thread) : Option (DWord × Nat) :=
  match t.trial with
  | some r => if r.loading then some (r.req.inputAt r.ex, 4 * r.req.nin) else none
  | none => none

/-- The frame is in use: an access, of the module or from outside, a record, a command, a trial's reading of its inputs or a lookahead is in
flight on it, or a launch has staged it (R287). -/
def frameInUse (h : Hw) (part : Nat) (e : TlbEntry) : Bool :=
  let f := pteFrame e.pte.toNat
  let inFrame (k : Nat) : Bool := f ≤ k && k < f + 65536
  let onPage (x : DWord × Nat) : Bool := blocksMeet (x.1.toNat, x.2) (e.va, 65536)
  (h.pends.any fun p => (physKeys p.locs).any inFrame) || (h.outside.any fun x => blocksMeet (extSpan x.access) (f, 65536)) ||
  (h.launches.any fun l => l.staged.any fun g => blocksMeet (g.orig, g.size) (f, 65536)) ||
  (h.threads.any fun t => t.key.part == part && t.loadingRange.any onPage) ||
  (h.records.any fun r => r.part == part && !r.put.isEmpty && onPage (r.addr, 32)) ||
  h.ctxs.any fun c => c.part == part &&
    ((c.cpq.any fun q => q.pages.contains e.va) || c.inFlight.any onPage)

/-- A page goes to flash and its frame is free (R287): with what has been stored to it, and with its poison. -/
def evictPage (h : Hw) (part : Nat) (e : TlbEntry) : Hw :=
  let f := pteFrame e.pte.toNat
  let h := readBlockOf h f 65536
  let keep := flashValid h part e.va f && !groupBit h e.pteAddr 5
  let flash := if keep then
      h.flash.map fun x => if x.part == part && x.va == e.va then { x with frame := none } else x
    else ⟨part, e.va, blockBytes h.mem f 65536, blockPoison h f 65536, none⟩ :: h.flash.filter fun x => !(x.part == part && x.va == e.va)
  let h := dropXlat (mapGroup h e.pteAddr fun x => clearBit 5 (clearBit 7 x)) part e.va 65536
  { dropRange h f 65536 with flash := flash, freeTier := f :: h.freeTier }

/-- The hand visits a frame (R287). -/
def visitFrame (h : Hw) (p : Part) (e : TlbEntry) : Hw :=
  if frameInUse h p.idx e then h
  else if groupBit h e.pteAddr 6 then dropXlat (mapGroup h e.pteAddr fun x => clearBit 6 x) p.idx e.va 65536
  else if bitsOf p.tierfl.toNat 47 32 == 0 then h
  else if flashRoom h p || (flashValid h p.idx e.va (pteFrame e.pte.toNat) && !groupBit h e.pteAddr 5) then evictPage h p.idx e
  else h

/-- The module's free frames, in MiB (R287, R290). -/
def freeMiB (h : Hw) : Nat := h.freeTier.length / 16

/-- The hand, where it runs, goes to the next resident tiered frame (R287, R290). -/
def handStep (s : State) : State :=
  let free := freeMiB s.hw
  let runs := if free < s.mod.tierLow.toNat then true else if s.mod.tierHigh.toNat ≤ free then false else s.mod.handRuns
  let s := s.setMod { s.mod with handRuns := runs }
  if !runs then s
  else
    let pages := s.hw.parts.flatMap fun p => (tierPages s.hw p).map fun e => (p, e)
    let dist (x : Part × TlbEntry) : Nat := (pteFrame x.2.pte.toNat + 2 ^ 40 - s.mod.hand - 1) % 2 ^ 40
    match minBy dist pages with
    | none => s
    | some (p, e) => (s.setMod { s.mod with hand := pteFrame e.pte.toNat }).mapHw fun h => visitFrame h p e

/-- TIER_HAND_STEP (R287, R290): `free` names the module's free memory in MiB; a step that names another amount does not take place. -/
def execTierHandStep (free : Nat) (s : State) : Host.Outcome State Fault Refusal :=
  whenEnabled (free == freeMiB s.hw) s (handStep s)

/-- A page comes back from flash into a frame (R288): its contents and its poison, and RES = 1, REF = 1 in its sixteen entries. -/
def fetchPage (h : Hw) (part : Nat) (e : TlbEntry) (f : FlashPage) (frame : Nat) : Hw :=
  let first := e.pteAddr - 8 * (e.pteAddr / 8 % 16)
  let set (x : Nat) : Nat := clearBit 6 (clearBit 7 (x - bitsOf x 55 12 * 4096)) + frame + 128 + 64
  let h := dropXlat (mapGroup (dropRange h frame 65536) first set) part e.va 65536
  let out (g : Nat) : Bool := !(frame ≤ 32 * g && 32 * g < frame + 65536)
  { h with
    mem := f.bytes.foldl (fun m c => sset m (frame + c.1) c.2) (zeroBytes h.mem frame 65536)
    poison := (f.poison.map fun p => { p with granule := p.granule + frame / 32 }) ++ h.poison.filter fun p => out p.granule
    latent := h.latent.filter fun l => out l.granule
    flash := h.flash.map fun x => if x.part == part && x.va == e.va then { x with frame := some frame } else x
    freeTier := h.freeTier.filter fun x => x != frame }

/-- TIER_FETCH_COMPLETE (R288): a page comes back from flash into a free frame. -/
def execTierFetchComplete (part page frame : Nat) (s : State) : Host.Outcome State Fault Refusal :=
  match walk s.hw (s.hw.part part).xlroot page with
  | none => .next s
  | some e =>
    let pte := e.pte.toNat
    match flashCopy s.hw part e.va with
    | none => .next s
    | some f =>
      whenEnabled (pteTier pte && !pteRes pte && s.hw.freeTier.contains frame) s (s.mapHw fun h => fetchPage h part e f frame)

/-! ### The watchdog (R368) -/

/-- The detail code of a wait (R368). -/
def WaitKind.code : WaitKind → Nat
  | .emptyCell => 0
  | .absentLine => 1
  | .tierPage => 2
  | .waitc => 3
  | .await => 4
  | .barrier => 5
  | .rendezvous => 6
  | .launchQueue => 7
  | .slotInUse => 8
  | .engine => 9
  | .staging => 10
  | .scalarLoad => 11

/-- A wait on a cell that an AWAIT is to fill counts as a wait on its result. -/
def waitsOnAwait (s : State) (t : Thread) : Bool :=
  match fetch (s.enterThread t) with
  | .error _ => false
  | .ok (i, _) =>
    (cellSpans i t.p).any fun c => (List.range c.2).any fun j =>
      !(t.cell (c.1 + j)).full && s.hw.pends.any fun p => p.key == t.key && p.cell ≤ c.1 + j && c.1 + j < p.cell + p.ncells &&
        (match p.kind with
          | .await _ _ => true
          | _ => false)

/-- What a thread waits for and since when. -/
def Wait.what : Wait → Option (WaitKind × Nat)
  | .none => Option.none
  | .retry k t => some (k, t)
  | .held k t => some (k, t)

/-- WATCHDOG_EXPIRY (R368): the thread parks with its wait in place; a trial ends with FAULT.mem. -/
def execWatchdogExpiry (part core slot : Nat) (s : State) : Host.Outcome State Fault Refusal :=
  match s.thread? ⟨part, core, slot⟩ with
  | none => .next s
  | some t =>
    let lim := bitsOf (s.hw.part part).wdcfg.toNat 31 0
    match t.wait.what with
    | none => .next s
    | some (k, since) =>
      if lim == 0 || t.park != .none || !(coreRuns s.hw part core) || s.time - since ≤ 1000 * lim then .next s
      else if t.trial.isSome then .next (asThread s t fun s => endTrial s 9)
      else
        let k := if k == .emptyCell && waitsOnAwait s t then .await else k
        .next (appendRecord (s.setThread { t with park := .watchdog }) part t.launch
          ⟨5, k.code, 0, core, t.tid.toNat, t.pc, BitVec.ofNat 64 ((s.time - since) / 1000), 0, 0⟩)

/-! ### Errors in memory (R370, R371) -/

/-- PATROL_SCRUB (R370, R371): the latent errors of a 32-byte granule of device memory are found: corrected, or poisoning it, and
counted. -/
def execPatrolScrub (granule : Nat) (s : State) : Host.Outcome State Fault Refusal :=
  .next (countFound (s.mapHw fun h => noteGranules h fun g => g == granule))

/-- The launch of a resident thread consumes an uncorrectable error of a class. -/
def consumeAt (s : State) (k : Key) (cls : Nat) : State :=
  match s.thread? k with
  | none => s
  | some t => consume s k.part t.launch k.core t.tid.toNat t.pc cls 0 0

/-- The issuer of the command of a number. -/
def Ctx.issuerOf (c : Ctx) (id : Nat) : Option Issuer :=
  let run (r : Option MxRun) : List (Nat × Issuer) := match r with
    | some x => [(x.cmd.id, x.cmd.issuer)]
    | none => []
  let all := c.mxq.map (fun m => (m.id, m.issuer)) ++ run c.mxRun ++ run c.mxSpill ++ c.cpq.map (fun m => (m.id, m.issuer)) ++
    c.selq.map fun m => (m.id, m.issuer)
  (all.find? fun x => x.1 == id).map Prod.snd

/-- The launch of a command consumes an uncorrectable error of a class (R371): with no thread in its record. -/
def consumeByCommand (s : State) (part core id cls : Nat) : State :=
  match (s.hw.ctx part core).issuerOf id with
  | none => s
  | some b => consume s part b.launch core 0xFFFFFFFF b.ip cls 4 0

/-- An upset (R370, R371): a single-bit error is corrected and counted, a double-bit error is counted and consumed, refetched, or
poisons memory; in device memory it stays latent until something reads it. What shadow storage holds of a partition that does not run (R379) is
consumed by the launch it belongs to. -/
def upset (s : State) (w : UpsetAt) (double : Bool) : State :=
  match w with
  | .thread k => if double then consumeAt (s.ecc 0 0 1) k 0 else s.ecc 0 1 0
  | .region k => if double then consumeAt (s.ecc 1 0 1) k 1 else s.ecc 1 1 0
  | .engine part core id => if double then consumeByCommand (s.ecc 1 0 1) part core id 1 else s.ecc 1 1 0
  | .cleanCopy => s.ecc 2 1 0
  | .shadow k =>
    if !double then s.ecc 3 1 0
    else if (s.hw.part k.part).active then s.ecc 3 0 1
    else consumeAt (s.ecc 3 0 1) k 3
  | .l2 g => if double then (s.mapHw fun h => { h with poison := ⟨g, 4⟩ :: h.poison }).ecc 4 0 1 else s.ecc 4 1 0
  | .memory g => s.mapHw fun h => { h with latent := ⟨g, double⟩ :: h.latent }

/-! ### Peers (R406) -/

/-- The lowest address of a range that a partition's translation takes to a peer module. -/
def peerByte (s : State) (part : Nat) (ea : DWord) (n : Nat) : Option DWord :=
  (eaBytes ea n).find? fun a => match translate s.hw (systemWho part) a.toNat with
    | some e => keyIsPeer (e.key s.mod.modid.toNat a.toNat)
    | none => false

/-- The first of several ranges that touches a peer. -/
def peerRange (s : State) (part : Nat) (rs : List (DWord × Nat)) : Option DWord := rs.findSome? fun r => peerByte s part r.1 r.2

/-- The fault of a request that got no response. -/
def lostFault (ea : DWord) (store : Bool) : SupFault := ⟨1, 0, store, false, ea, 0⟩

/-- An access of a thread got no response: the thread parks with a translation fault; a trial ends with FAULT.mem. A store may have been
performed at the peer all the same: a free choice. -/
def pendLost (s : State) (p : Pend) : State :=
  match s.owner? p with
  | none => s.mapHw fun h => { h with pends := h.pends.filter fun q => q.id != p.id }
  | some t =>
    if t.park != .none then s
    else if t.trial.isSome then asThread s t fun s => endTrial s 9
    else
      let s := if p.isStore && Config.freeBool s.hw.fresh then (s.mapHw fun h => perform h p).tick else s.tick
      appendRecord (s.setThread { t with park := .peer p.id }) p.key.part p.launch
        ⟨1, 0, if p.isStore || p.isAtomic then 1 else 0, p.key.core, p.tid.toNat, p.ip, p.ea, 0, 0⟩

/-- A copy command has sent a request: it is a lookahead, or the running command, whose next burst has its permit. -/
def copySent (s : State) (part core : Nat) (q : CopyCmd) : Bool :=
  enginesRun s part core && (q.kind == .look || (q.permit && (currentCopy s part core).any fun c => c.id == q.id))

/-- A Teasel command has sent a request: it is the first of its core, and its next pass has its permit or its output is due. -/
def selSent (s : State) (part core : Nat) (q : SelCmd) : Bool :=
  enginesRun s part core && (q.permit || q.result.isSome) && ((s.hw.ctx part core).selq.head?).any fun c => c.id == q.id

/-- An engine command got no response (R406): it stops with an ENGINE fault. Those of its writes that have been performed at the peer ahead of
the rest (R291) stand. A command that has sent no request meets none of this. Its record says whether the lost request was a write (R361). -/
def commandLost (s : State) (id : Nat) : State :=
  let copy (c : Ctx) : Option State := (c.cpq.find? fun q => q.id == id && copySent s c.part c.core q).bind fun q =>
    let stop (store : Bool) (a : DWord) : State := copyStopped s s q (.fault (lostFault a store))
    ((peerRange s c.part q.nextReads).map (stop false)).orElse fun _ => (peerRange s c.part q.nextWrites).map (stop true)
  let sel (c : Ctx) : Option State := (c.selq.find? fun q => q.id == id && selSent s c.part c.core q).bind fun q =>
    let writes := q.result.isSome
    (peerRange s c.part (if writes then q.blk.writeRanges else q.blk.readRanges)).map fun a => selStopped s s q (.fault (lostFault a writes))
  let look (c : Ctx) : Option State := (c.lookups.find? fun x => x.id == id && contextRuns s c.part c.core && !c.lookupWaits x).bind fun x =>
    (peerRange s c.part x.ranges).map fun a => lookupStopped s s x (.fault (lostFault a true))
  let mx (c : Ctx) (r : Option MxRun) (store : Bool) (drop : Ctx → Ctx) : Option State := r.bind fun x =>
    if x.cmd.id == id && x.spilling == store && enginesRun s c.part c.core && (store || (c.mxRun.isNone && c.nextHigh.isNone)) then
      (peerRange s c.part x.ranges).map fun a => mxStopped s s x.cmd.issuer x.wrote (.fault (lostFault a store)) drop
    else none
  (s.hw.ctxs.findSome? fun c =>
    (copy c).orElse fun _ => (sel c).orElse fun _ => (look c).orElse fun _ =>
      (mx c c.mxRun true fun c => { c with mxRun := none }).orElse fun _ => mx c c.mxSpill false fun c => { c with mxSpill := none }).getD s

/-- PEER_TIMEOUT (R406). -/
def execPeerTimeout (id : Nat) (s : State) : Host.Outcome State Fault Refusal :=
  match s.hw.pend? id with
  | some p => .next (if (physKeys p.locs).any keyIsPeer then pendLost s p else s)
  | none => .next (commandLost s id)

/-! ### Migration and the rotating scan (R378 to R382) -/

/-- Change the use of a physical core. -/
def setUse (h : Hw) (die idx : Nat) (f : PhysCore → PhysCore) : Hw :=
  { h with cores := h.cores.map fun c => if c.die == die && c.idx == idx then f c else c }

/-- No partition of a core is in a swap (R378). -/
def swapSettled (h : Hw) (core : Nat) : Bool := h.parts.all fun p => !p.cores.contains core || p.swap == .none

/-- MIGRATION (R378): the core halts to give up its logical core to the die's spare; one core of a die moves at a time. -/
def execMigration (core : Nat) (s : State) : Host.Outcome State Fault Refusal :=
  match s.hw.cores.find? fun c => c.use == .serving core with
  | none => .next s
  | some c =>
    let moving (x : PhysCore) : Bool := match x.use with
      | .moving _ => x.die == c.die
      | _ => false
    whenEnabled ((s.hw.cores.any fun x => x.die == c.die && x.use == .spare) && !s.hw.cores.any moving && swapSettled s.hw core) s
      (s.mapHw fun h => setUse h c.die c.idx fun x => { x with use := .moving core })

/-- MIGRATION_COMPLETE (R237, R378, R379): no access of the core is in flight and no burst is under way; the spare takes the logical core over with cold caches, and the
freed core begins its scan. A swap that was asked for meanwhile begins (R378). -/
def execMigrationComplete (core : Nat) (s : State) : Host.Outcome State Fault Refusal :=
  match s.hw.cores.find? fun c => c.use == .moving core with
  | none => .next s
  | some c =>
    match s.hw.cores.find? fun x => x.die == c.die && x.use == .spare with
    | none => .next s
    | some sp =>
      let parts := s.hw.parts.filter fun p => p.cores.contains core
      let ran := (parts.filter fun p => p.active).foldl (fun s p => noteAllRan s p.idx core) s
      let moved := ran.mapHw fun h =>
        let h := parts.foldl (fun h p => drainOutAll (wcDrain h p.idx core fun _ => true) p.idx core) h
        let h := { h with ctxs := h.ctxs.map fun (x : Ctx) => if x.core == core then x.cold else x }
        let h := setUse (setUse h c.die c.idx fun x => { x with use := .scanning h.nextId }) sp.die sp.idx fun x => { x with use := .serving core }
        { h with nextId := h.nextId + 1 }
      whenEnabled (!(s.hw.pends.any fun q => q.key.core == core && q.isAccess && !peerHeld s q) && parts.all fun p => !copyBusy s p.idx core) s
        (parts.foldl (fun s p => beginDueSwap s p.idx) moved)

/-- A launch that ran on a core since the event of a number, is gated by scans and has not committed (R381). -/
def Launch.ranOn (l : Launch) (die idx since : Nat) : Bool :=
  l.scangated && l.ran.any fun x => x.1 == die && x.2.1 == idx && since ≤ x.2.2

/-- A launch is discarded and re-queued because a core that ran it failed its scan (R375, R381), at most three times in all. -/
def requeueForScan (s : State) (l : Launch) : State :=
  if l.attempt < 3 then requeueLaunch s l.part l.id ⟨10, 1, 0, 255, 0xFFFFFFFF, l.hdr, BitVec.ofNat 64 (l.attempt + 1), 0, 0⟩
  else killLaunch (appendRecord s l.part l.id ⟨7, 0, 0, 255, 0xFFFFFFFF, l.hdr, 0, 0, 0⟩) l.part l.id

/-- The newest copy of the configuration store that verifies. -/
def newestStore (cs : List StoreCopy) : Option StoreCopy :=
  minBy (fun c => (cs.map fun x => x.serial).foldl max 0 - c.serial) (cs.filter fun c => c.valid)

/-- A store write replaces the older copy (R409). -/
def writeStore (cs : List StoreCopy) (new : StoreCopy) : List StoreCopy :=
  let top := (cs.map fun x => x.serial).foldl max 0
  match minBy (fun c => c.serial) cs with
  | some old => replaceFirst (fun c => c == old) { new with serial := top + 1 } cs
  | none => [{ new with serial := top + 1 }]

/-- A core is retired (R381): the store records it, the die counts as degraded, and its gated launches are re-queued. -/
def retireCore (s : State) (c : PhysCore) : State :=
  let s := s.mapHw fun h => setUse h c.die c.idx fun x => { x with use := .retired }
  let m := s.mod
  let stores := match newestStore m.stores with
    | some st => writeStore m.stores { st with retired := st.retired ++ [(c.die, c.idx)] }
    | none => m.stores
  let s := (s.setMod { m with stores := stores, deg := m.deg ||| (1#4 <<< c.die) }).emit (.msix 0 1)
  (s.hw.launches.filter fun l => l.ranOn c.die c.idx c.lastPass).foldl requeueForScan s

/-- SCAN_COMPLETE (R378, R381): the freed core becomes the spare, or is retired. -/
def execScanComplete (die core : Nat) (pass : Bool) (s : State) : Host.Outcome State Fault Refusal :=
  match s.hw.cores.find? fun c => c.die == die && c.idx == core with
  | none => .next s
  | some c => match c.use with
    | .scanning since =>
      .next (if pass then s.mapHw fun h => setUse h die core fun x => { x with use := .spare, lastPass := since } else retireCore s c)
    | _ => .next s

/-! ### Gangs and events -/

/-- A gang issues (R14, R15): its threads' issues come next, one after another. -/
def startGang (s : State) (part core : Nat) (slots : List Nat) : State :=
  { s with agenda := gangMoves s part core slots ++ s.agenda, hw := { s.hw with gang := s.hw.gang + 1 } }

/-- A move that the schedule chooses begins a new gang (R15). -/
def newGang (s : State) : State := s.mapHw fun h => { h with gang := h.gang + 1 }

/-- A step that the hardware or the outside makes, as opposed to an instruction of a thread. -/
def isEvent (i : Instr) : Bool :=
  match i with
  | .unassignedMajorOrMinor _ => false
  | i => match i.form with
    | .step => true
    | _ => false

end Sys2Proof.Machine
end

