-- ==== Sys2Proof/Machine/Supervisor.lean ====
section
/-!
DEFINITION. Sys2Proof/Machine/Supervisor.lean: the host's actions on faults (R365 to R367) and the words that name no instruction (R108).
-/
namespace Sys2Proof.Machine

/-! ### Words that name no instruction -/

/-- The detail of ILL for a word whose major or minor names no instruction (R109). -/
def unassignedDetail (why : Unassigned) : BitVec 8 :=
  match why with
  | .major => 0
  | .minor => 1
  | .removed => 4

/-- UNASSIGNED_MAJOR_OR_MINOR (R108): ILL, or FAULT.ill in a trial; the first word is fetched again for the record. -/
def execUnassignedMajorOrMinor (why : Unassigned) (s : State) : Host.Outcome State Fault Refusal :=
  match fetchWord s s.th.pc with
  | .ok (w, s) => .next (stopped s (illFault (unassignedDetail why) w))
  | .error e => .next (stopped s e)

/-! ### Resuming parked threads (R366) -/

/-- A thread is no longer parked; one that an engine fault is due to park does so at once (R235). -/
def Thread.unpark (t : Thread) : Thread := { t with park := if t.engineDue then .engine else .none, engineDue := false }

/-- A wait is resumed with its measure 0 (R368). -/
def Wait.restart (w : Wait) (now : Nat) : Wait :=
  match w with
  | .none => .none
  | .retry k _ => .retry k now
  | .held k _ => .held k now

/-- The kind of an access, as the checks tell them apart. -/
def Pend.acc (p : Pend) : Acc := if p.isStore then .store else if p.isAtomic then .atomic else .load

/-- An access that got no response with the translation that it has now (R282). -/
def Pend.retranslate (p : Pend) (r : Reach) : Pend := { p with locs := r.locs, mts := r.mts, route := r.route, pages := r.pages, ptes := r.ptes, again := false }

/-- An access that got no response is attempted again (R366, R406): it is checked and translated anew, for an invalidation may have passed
meanwhile (R282). A fault parks its thread again; where it has to wait for a page, its thread stays parked until the page is there. -/
def retryAccess (s : State) (t : Thread) (p : Pend) : State :=
  let put (s : State) (q : Pend) : State := s.mapHw fun h => { h with pends := h.pends.map fun x => if x.id == q.id then q else x }
  match reachGen (s.enterThread t) p.acc (p.route.path == 1) p.ea p.locs.length with
  | .ok r =>
    let r := if p.isAtomic then { r with route := .uncached } else r
    put ((s.mapHw fun h => touch h ⟨t.key.part, t.launch, some t.key, some t.picker⟩ (p.kind.marks p.acc) r.xs).setThread
      { t.unpark with wait := t.wait.restart s.time }) (p.retranslate r)
  | .error (.fault f) =>
    appendRecord (put s { p with again := false }) p.key.part p.launch
      ⟨f.cause.toNat, f.detail.toNat, if f.store then 1 else 0, p.key.core, p.tid.toNat, p.ip, f.val, 0, 0⟩
  | .error (.stage ps) => put (wantPages s p.key.part p.launch (some p.key) ps) { p with again := true }
  | .error _ => put s { p with again := true }

/-- RETRY of one thread: it attempts its instruction again, resumes its wait, or, after an engine fault, goes on; an access that got no response
is attempted again. -/
def retryThread (s : State) (t : Thread) : State :=
  match t.park with
  | .peer id => match s.hw.pend? id with
    | some p => retryAccess s t p
    | none => s.setThread { t.unpark with wait := t.wait.restart s.time }
  | _ => s.setThread { t.unpark with wait := t.wait.restart s.time }

/-- The accesses that wait for a page to be attempted again are tried once more. -/
def retryAccesses (s : State) : State :=
  (s.hw.pends.filter fun p => p.again).foldl (fun s p => match s.owner? p with
    | some t => if t.park == .peer p.id then retryAccess s t p else s
    | none => s) s

/-- The length of the instruction at a thread's PC: its first word tells; a word that cannot be fetched counts as one word. -/
def skipLength (s : State) (t : Thread) : Nat :=
  match fetchWord (s.enterThread t) t.pc with
  | .ok (w, _) => if hasExtension w then 8 else 4
  | .error _ => 4

/-- A thread's arrival at an open rendezvous of its crew is withdrawn; one that is left with no arrival is not open (R27). -/
def withdrawRendezvous (s : State) (t : Thread) : State :=
  s.mapHw fun h =>
    let c := h.ctx t.key.part t.key.core
    let gone (r : Rendezvous) : Rendezvous :=
      if r.crew == t.crew then { r with arrivals := r.arrivals.filter fun a => a.rank != t.rank } else r
    h.setCtx { c with rvs := (c.rvs.map gone).filter fun r => !r.arrivals.isEmpty }

/-- A thread's arrival in a phase of its crew is withdrawn; a phase that no arrival and no later joiner keeps open closes. -/
def withdrawBarrier (s : State) (t : Thread) : State :=
  let kept := (s.members t.key.part t.key.core t.crew).any fun u =>
    u.key != t.key && (if t.exempt then u.exempt && u.arrived else u.arrived || u.exempt)
  let s := s.setThread { t with arrived := false }
  if kept then s
  else s.mapHw fun h =>
    let c := h.ctx t.key.part t.key.core
    match c.crew? t.crew with
    | some x => h.setCtx (c.setCrew (if t.exempt then { x with next := none } else { x with phase := none }))
    | none => h

/-- The scalar load of a thread is withdrawn: its data write no register. -/
def withdrawSld (s : State) (k : Key) : State :=
  s.mapHw fun h => { h with pends := h.pends.filter fun p => !(p.key == k && (match p.kind with
    | .sload _ _ _ => true
    | _ => false)) }

/-- The pieces of pages that a thread is the first to write need not be staged for it (R373). -/
def withdrawStaging (s : State) (t : Thread) : State :=
  match s.hw.launch? t.key.part t.launch with
  | some l => s.mapHw fun h => h.setLaunch { l with wants := l.wants.filter fun v => v.2 != some t.key }
  | none => s

/-- What a skipped instruction has begun is withdrawn. -/
def withdrawWait (s : State) (t : Thread) : State :=
  match t.wait with
  | .held .scalarLoad _ => withdrawSld s t.key
  | .held .rendezvous _ => withdrawRendezvous s t
  | .held .barrier _ => withdrawBarrier s t
  | .retry .staging _ => withdrawStaging s t
  | .retry .engine _ => s.mapHw fun h => { h with budgets := h.budgets.map fun (b : Budget) =>
      let mine (q : PermitReq) : Bool := match q.what with
        | .ticket k _ _ _ => k == t.key
        | _ => false
      { b with waiting := b.waiting.filter fun q => !mine q, served := b.served.filter fun q => !mine q } }
  | _ => s

/-- The thread of a key goes on after its instruction. -/
def passOver (s : State) (k : Key) (len : Nat) : State :=
  match s.thread? k with
  | none => s
  | some t => s.setThread (t.unpark.past len)

/-- A producer that got no response is given up (R366): its cells are full again, as they were. -/
def giveUp (s : State) (t : Thread) (id : Nat) : State :=
  match s.hw.pend? id with
  | none => s.setThread t.unpark
  | some p =>
    let s := withdrawStaging (s.mapHw fun h => { h with pends := h.pends.filter fun q => q.id != id }) t
    match p.kind, t.wait with
    | .sload _ _ _, .held .scalarLoad _ => s.setThread (t.unpark.past (t.latch.getD 4#32).toNat)
    | _, _ => s.setThread { (t.markFull p.cell p.ncells).unpark with wait := t.wait.restart s.time }

/-- SKIP of one thread (R366): it goes on after its instruction, which has the effect of a false guard; after an engine fault, or where
the wait the watchdog met has ended meanwhile, it simply goes on. -/
def skipThread (s : State) (t : Thread) : State :=
  match t.park with
  | .none => s
  | .engine => retryThread s t
  | .peer id => giveUp s t id
  | .fault => passOver s t.key (skipLength s t)
  | .watchdog => match t.wait with
    | .none => retryThread s t
    | _ => passOver (withdrawWait s t) t.key (skipLength s t)

/-- SKIPCLR of one thread: SKIP, then TSTATE.T is 0. -/
def skipClear (s : State) (t : Thread) : State :=
  let s := skipThread s t
  match s.thread? t.key with
  | some u => s.setThread { u with tstate := false }
  | none => s

/-! ### FLTCMD (R365) -/

/-- A partition exists and the module is up: its registers can be written (R400, R410). -/
def hostUp (s : State) : Bool := !s.mod.inReset && s.hw.parts.any fun p => p.idx == s.port.part

/-- The launch that FLTTGT names. -/
def fltLaunch (s : State) : Option Launch :=
  s.hw.launch? s.port.part (bitsOf (s.hw.part s.port.part).flttgt.toNat 63 32)

/-- FLTCMD.ERR after a command. -/
def setFltErr (s : State) (b : Bool) : State :=
  s.mapHw fun h => h.setPart { h.part s.port.part with fltErr := b }

/-- A write of FLTCMD with an act (R365): refused, with ERR, where the launch is not in flight or `f` gives nothing. -/
def fltcmd (act : Nat) (s : State) (f : Launch → Option State) : Host.Outcome State Fault Refusal :=
  if !hostUp s || bitsOf s.port.data.toNat 2 0 != act then .next s
  else match (fltLaunch s).bind f with
    | some s' => .next (setFltErr s' false)
    | none => .next (setFltErr s true)

/-- The parked threads that a command acts on: every one of the launch, or the one of FLTTGT.tid. -/
def fltThreads (s : State) (l : Launch) : List Key :=
  let tid := bitsOf (s.hw.part s.port.part).flttgt.toNat 31 0
  (s.allThreads.filter fun t => t.key.part == l.part && t.launch == l.id && t.park != .none && (s.port.data[3] || t.tid.toNat == tid)).map
    fun t => t.key

/-- A command that acts on parked threads. -/
def fltOnThreads (act : Nat) (s : State) (f : State → Thread → State) : Host.Outcome State Fault Refusal :=
  fltcmd act s fun l =>
    let ks := fltThreads s l
    if ks.isEmpty && !s.port.data[3] then none
    else some (ks.foldl (fun s k => match s.thread? k with
      | some t => f s t
      | none => s) s)

/-- RETRY (R366). -/
def execRetry (s : State) : Host.Outcome State Fault Refusal := fltOnThreads 1 s retryThread

/-- SKIP (R366). -/
def execSkip (s : State) : Host.Outcome State Fault Refusal := fltOnThreads 2 s skipThread

/-- SKIPCLR (R366). -/
def execSkipclr (s : State) : Host.Outcome State Fault Refusal := fltOnThreads 3 s skipClear

/-- KILL (R366, R367). -/
def execKill (s : State) : Host.Outcome State Fault Refusal := fltcmd 4 s fun l => some (killLaunch s l.part l.id)

/-- ACK (R366): the mark of a loss stays. -/
def execAck (s : State) : Host.Outcome State Fault Refusal :=
  fltcmd 5 s fun l => some (s.mapHw fun h => h.setLaunch { l with irq := false, lost := 0 })

/-- FLTCMD_REFUSED_ACT (R365): acts 0, 6 and 7. -/
def execFltcmdRefusedAct (s : State) : Host.Outcome State Fault Refusal :=
  let act := bitsOf s.port.data.toNat 2 0
  whenEnabled (hostUp s && (act == 0 || 6 ≤ act)) s (setFltErr s true)

end Sys2Proof.Machine
end

