-- ==== Sys2Proof/Machine/Registers.lean ====
section
/-!
DEFINITION. Sys2Proof/Machine/Registers.lean: what the host reads in the partition and module blocks (R403, R404), its register writes
(R7, R281, R282, R290, R308, R309, R326, R407, R13), and accesses from outside to device memory (R402, R406).
-/
namespace Sys2Proof.Machine

/-! ### What registers read as -/

/-- LQSTAT (R309): HELD for every queue whose head waits for its word, and OVF. -/
def lqstat (p : Part) : DWord :=
  let held (q : Nat) : Bool := match p.head q with
    | some r => recWaddr r != 0 && !(p.queue q).ready
    | none => false
  BitVec.ofNat 64 ((List.range 16).foldl (fun a q => a + if held q then 2 ^ (16 + q) else 0) p.lqovf.toNat)

/-- CVER (R399). -/
def cver (h : Hw) (p : Part) : DWord :=
  BitVec.ofNat 64 ((liveVersions h p.idx p.ver).foldl min p.ver * 2 ^ 32 + p.ver)

/-- FLTSTAT (R365). -/
def fltstat (h : Hw) (p : Part) : DWord :=
  match h.launch? p.idx (bitsOf p.flttgt.toNat 63 32) with
  | some l => BitVec.ofNat 64 (l.lost % 2 ^ 32 * 2 ^ 32 + l.seq % 2 ^ 32)
  | none => 0

/-- A register of the partition block (R403): an offset that holds none reads 0 (R402), as write-only LQDB does. -/
def partRead (h : Hw) (p : Part) (off : Nat) : DWord :=
  match off with
  | 0x000 => p.xlroot
  | 0x008 => p.xlinv
  | 0x108 => lqstat p
  | 0x110 => p.balcfg
  | 0x118 => p.pswap
  | 0x120 => p.wdcfg
  | 0x128 => p.stgcfg
  | 0x130 => cver h p
  | 0x140 => p.flttgt
  | 0x148 => if p.fltErr then 0x8000000000000000 else 0
  | 0x150 => fltstat h p
  | 0x158 => p.tierfl
  | 0x160 => p.stkap
  | _ => 0

/-- The cores in service on a die (R411). -/
def inService (h : Hw) (die : Nat) : Nat :=
  h.cores.countP fun c => c.die == die && (match c.use with
    | .serving _ | .moving _ => true
    | _ => false)

/-- HEALTH (R404). -/
def health (s : State) : DWord :=
  let n := (List.range 4).map (inService s.hw)
  BitVec.ofNat 64 ((n.zipIdx.foldl (fun a x => a + x.1 * 2 ^ (16 + 4 * x.2)) 0) + n.foldl (· + ·) 0 * 512 +
    (if s.mod.cfgb then 256 else 0) + s.mod.deg.toNat * 16)

/-- PWRSTAT (R407). -/
def pwrstat (m : Module) : DWord := BitVec.ofNat 64 (m.tj.toNat * 2 ^ 32 + m.eff.toNat * 2 ^ 16 + m.pwr.toNat)

/-- A register of the module block (R404). -/
def modRead (s : State) (off : Nat) : DWord :=
  match off with
  | 0x000 => s.mod.modid.zeroExtend 64
  | 0x008 => s.mod.pwrlim.zeroExtend 64
  | 0x010 => pwrstat s.mod
  | 0x018 => s.mod.tierHigh ++ s.mod.tierLow
  | 0x050 => health s
  | off => if 0x020 ≤ off && off < 0x050 && off % 8 == 0 then s.mod.ecc.toArray.getD ((off - 0x020) / 8) 0 else 0

/-! ### Plain writes -/

/-- The partition that a register write addresses. -/
def State.hostPart (s : State) : Part := s.hw.part s.port.part

/-- A write that changes the addressed partition. -/
def onPart (s : State) (f : Part → Part) : Host.Outcome State Fault Refusal :=
  whenEnabled (hostUp s) s (s.mapHw fun h => h.setPart (f (h.part s.port.part)))

/-- REGISTER_WRITE (R7): a register whose fields are stored as written and whose reserved bits read 0. TIERFL and ECCCNT can be written
only through the PF, function 0 of `Port.sel` (R403, R404); an offset that holds no register ignores the write (R402). -/
def execRegisterWrite (s : State) : Host.Outcome State Fault Refusal :=
  let v := s.port.data
  match s.port.reg with
  | .xlroot => onPart s fun p => { p with xlroot := v &&& 0x00FFFFFFFFF00001 }
  | .balcfg => onPart s fun p => { p with balcfg := v &&& 0x1FFF }
  | .wdcfg => onPart s fun p => { p with wdcfg := v &&& 0xFFFFFFFF }
  | .stgcfg => onPart s fun p => { p with stgcfg := v &&& 0x0000FFFF0003FFFF }
  | .flttgt => onPart s fun p => { p with flttgt := v }
  | .tierfl => if s.port.sel == 0 then onPart s fun p => { p with tierfl := v &&& 0x0000FFFF00003FFF } else .next s
  | .ecccnt c =>
    whenEnabled (!s.mod.inReset && s.port.sel == 0) s (s.setMod { s.mod with ecc := s.mod.ecc.setIfInBounds c.toNat v })
  | .other _ => .next s

/-- STKAP (R13): ignored while a launch of the partition is in flight. -/
def execStkap (s : State) : Host.Outcome State Fault Refusal :=
  if s.hw.launches.any fun l => l.part == s.port.part then .next s
  else onPart s fun p => { p with stkap := s.port.data &&& 0x00FFFFFC00000001 }

/-- LQSTAT_CLEAR (R309): the bits written 1 are cleared. -/
def execLqstatClear (s : State) : Host.Outcome State Fault Refusal :=
  onPart s fun p => { p with lqovf := p.lqovf &&& ~~~(s.port.data.extractLsb' 0 16) }

/-- TIERWM (R290): high is raised to low. -/
def execTierwm (s : State) : Host.Outcome State Fault Refusal :=
  let high := s.port.data.extractLsb' 32 32
  let low := s.port.data.extractLsb' 0 32
  whenEnabled (!s.mod.inReset) s (s.setMod { s.mod with tierHigh := if high.ult low then low else high, tierLow := low })

/-! ### Power (R407, R408) -/

/-- A power limit within 1,000 .. 2,200 W. -/
def clampLim (v : BitVec 12) : BitVec 12 := if v.ult 1000 then 1000 else if (2200#12).ult v then 2200 else v

/-- The limit in force at a junction temperature (R408). Where the product is not a whole number of watts, which neighbour it is stored
as is a free choice. -/
def effOf (lim : BitVec 12) (tj : Nat) (up : Bool) : BitVec 12 :=
  if tj < 95 then lim
  else if tj < 105 then
    let n := lim.toNat * (20 - (tj - 94))
    BitVec.ofNat 12 (n / 20 + if n % 20 != 0 && up then 1 else 0)
  else 0

/-- The module at a power limit and a junction temperature. -/
def setPower (s : State) (lim : BitVec 12) (tj : BitVec 8) : State :=
  (s.setMod { s.mod with pwrlim := lim, tj := tj, eff := effOf lim tj.toNat (Config.freeBool s.hw.fresh) }).tick

/-- PWRLIM (R407). -/
def execPwrlim (s : State) : Host.Outcome State Fault Refusal :=
  whenEnabled (!s.mod.inReset) s (setPower s (clampLim (s.port.data.extractLsb' 0 12)) s.mod.tj)

/-! ### Accesses from outside (R374, R402, R405, R406) -/

/-- What an access writes, from the bytes it reads. -/
def extNew (x : ExtAccess) (old : List Byte) : Option (List Byte) :=
  let v := leNat old
  match x with
  | .read _ _ => none
  | .write _ bs => some bs
  | .atomicAdd _ n b => some (leBytes n (amoNew .add n v b.toNat 0))
  | .atomicSwap _ n b => some (leBytes n (amoNew .swap n v b.toNat 0))
  | .atomicCas _ n b c => if v == b.toNat % 2 ^ (8 * n) then some (leBytes n (c.toNat % 2 ^ (8 * n))) else none

/-- A write from outside gives no answer; a read or an atomic answers with the bytes it has read. -/
def extAnswers (x : ExtAccess) : Bool :=
  match x with
  | .write _ _ => false
  | _ => true

/-- An access to device memory at physical addresses: one event; poisoned bytes are answered as poisoned (R371). -/
def extPerform (s : State) (x : ExtAccess) : State :=
  let a := extSpan x
  let ks := (List.range a.2).map fun i => devKey (a.1 + i)
  let old := ks.map fun k => sget s.hw.mem k
  let bad := ks.any (keyPoisoned s.hw)
  let s := if extAnswers x then s.mapHw fun h => noteReads h ks else s
  let s := match extNew x old with
    | none => s
    | some bs => s.mapHw fun h => writeKeys h none (ks.zip bs)
  if extAnswers x then s.emit (.readAnswer old bad) else s

/-- An access whose first `n` bytes lie in device memory (R2). -/
def extInside (x : ExtAccess) : Bool := decide ((extSpan x).1 + (extSpan x).2 ≤ deviceSize)

/-- Some byte of a range lies in a frame that a launch has staged (R374). -/
def stagedRange (h : Hw) (a n : Nat) : Bool := h.launches.any fun l => l.staged.any fun g => blocksMeet (g.orig, g.size) (a, n)

/-- An access from outside writes. -/
def extWrites (x : ExtAccess) : Bool :=
  match x with
  | .read _ _ => false
  | _ => true

/-- The byte at a place of an access from outside is accessed (R291). -/
def outsideOne (s : State) (x : Outside) (i : Nat) : State × Outside :=
  let k := devKey ((extSpan x.access).1 + i)
  match x.access with
  | .write _ bs =>
    let got := (i, bs.getD i 0) :: x.got
    (s.mapHw fun h => clearCovered (writeKeys h none [(k, bs.getD i 0)]) (got.map fun y => devKey ((extSpan x.access).1 + y.1)) k,
      { x with got := got })
  | _ => (s.mapHw fun h => noteReads h [k],
      { x with got := (i, sget s.hw.mem k) :: x.got, poisoned := x.poisoned || keyPoisoned s.hw k })

/-- An access from outside that is under way goes on: the byte at place `n` of a read or write, or, for an atomic and for a place behind the last
one, all that is left of it, and its answer. -/
def outsideMore (s : State) (x : Outside) (n : Nat) : State :=
  let span := extSpan x.access
  let left := (List.range span.2).filter fun i => !x.got.any fun y => y.1 == i
  let ended (s : State) : State := s.mapHw fun h => { h with outside := h.outside.filter fun y => y.id != x.id }
  let keep (s : State) (x : Outside) : State := s.mapHw fun h => { h with outside := h.outside.map fun y => if y.id == x.id then x else y }
  if x.peer && extWrites x.access && stagedRange s.hw span.1 span.2 then s
  else match x.access with
    | .read _ _ | .write _ _ =>
      if n < span.2 then
        if left.contains n then
          let (s, x) := outsideOne s x n
          keep s x
        else s
      else
        let (s, x) := left.foldl (fun (a : State × Outside) i => outsideOne a.1 a.2 i) (s, x)
        let s := ended s
        if extAnswers x.access then
          s.emit (.readAnswer ((List.range span.2).map fun i => ((x.got.find? fun y => y.1 == i).map Prod.snd).getD 0) x.poisoned)
        else s
    | _ => ended (extPerform s x.access)

/-- A posted write of the host from a function over a link (R305). -/
def Outside.posted (x : Outside) (fn link : Nat) : Bool :=
  !x.peer && x.fn == fn && x.link == link && (match x.access with
    | .write _ _ => true
    | _ => false)

/-- A move for an access from outside that is under way; a posted write waits for the earlier ones of its function and link (R305, R401). -/
def outsideByte (s : State) (id n : Nat) : State :=
  match s.hw.outside.find? fun x => x.id == id with
  | none => s
  | some x =>
    if x.posted x.fn x.link && s.hw.outside.any fun y => y.posted x.fn x.link && decide (y.id < id) then s else outsideMore s x n

/-- The posted writes of a function over a link that are under way reach their homes, in the order in which they were sent (R305, R401). -/
def finishPosted (s : State) (fn link : Nat) : State :=
  (s.hw.outside.filter fun x => x.posted fn link).foldl (fun s x => outsideMore s x (extSpan x.access).2) s

/-! ### The doorbell (R308) -/

/-- A doorbell is refused: OVF of its queue. -/
def refuseBell (s : State) (part q : Nat) : State :=
  s.mapHw fun h =>
    let p := h.part part
    h.setPart { p with lqovf := p.lqovf ||| (1#16 <<< q) }

/-- The partition reads the record of an accepted doorbell and appends it to its queue; a fault refuses it, with the VF's vector 1; where its
page is not resident the doorbell waits, behind the earlier ones of its queue (R288, R307). -/
def ringBell (s : State) (part : Nat) (b : Nat × Nat) : State :=
  let wait : State := s.mapHw fun h =>
    let p := h.part part
    h.setPart { p with bells := p.bells ++ [b] }
  if (s.hw.part part).bells.any fun x => x.1 == b.1 then wait
  else match systemRead s part (BitVec.ofNat 64 b.2) 64 with
    | .ok (bs, s) => s.mapHw fun h => putRecord h part b.1 bs
    | .error (.fault _) => (refuseBell s part b.1).emit (.msix (part + 1) 1)
    | .error _ => wait

/-- The doorbells of a partition that wait are tried again. -/
def ringBells (s : State) (part : Nat) : State :=
  let p := s.hw.part part
  p.bells.foldl (fun s b => ringBell s part b) (s.mapHw fun h => h.setPart { p with bells := [] })

/-- The doorbells of every partition that wait are tried again. -/
def ringAllBells (s : State) : State :=
  ((s.hw.parts.filter fun p => !p.bells.isEmpty).map fun p => p.idx).foldl ringBells s

/-- LQDB (R308): refused, with OVF, where a reserved bit is set or the queue is full. The posted writes that the same function has sent before it,
over the same link, reach their homes first (R305, R401). -/
def execLqdb (s : State) : Host.Outcome State Fault Refusal :=
  let v := s.port.data.toNat
  let q := bitsOf v 3 0
  if !hostUp s then .next s
  else if bitsOf v 63 56 != 0 || bitsOf v 5 4 != 0 || 256 ≤ s.hostPart.queueLoad q then .next (refuseBell s s.port.part q)
  else .next (ringBell (finishPosted s s.port.sel s.port.link) s.port.part (q, bitsOf v 55 6 * 64))

/-! ### Invalidation (R281, R282) -/

/-- A write of XLINV whose kind is one of `ok`: `f` gives the register and the request that a set GO starts. -/
def writeXlinv (s : State) (ok : Nat → Bool) (f : Part → DWord → Part) : Host.Outcome State Fault Refusal :=
  let v := s.port.data
  let p := s.hostPart
  if !ok (bitsOf v.toNat 3 2) || (v[0] && p.xlinv[0]) then .next s
  else
    let fields := v &&& 0x00FFFFFFFFFFF00C
    onPart s fun p => if v[0] then f p fields else { p with xlinv := fields ||| (p.xlinv &&& 3) }

/-- An invalidation starts: GO reads 1, and the last request was not refused. -/
def startXlinv (p : Part) (fields : DWord) : Part := { p with xlinv := fields ||| 1, xlinvRun := fields }

/-- XLINV_PAGE (R282): kind 0. -/
def execXlinvPage (s : State) : Host.Outcome State Fault Refusal := writeXlinv s (fun k => k == 0) startXlinv

/-- XLINV_PARTITION (R282): kind 1. -/
def execXlinvPartition (s : State) : Host.Outcome State Fault Refusal := writeXlinv s (fun k => k == 1) startXlinv

/-- XLINV_REFUSED_KIND (R282): kinds 2 and 3 complete at once with no effect and set ERR. -/
def execXlinvRefusedKind (s : State) : Host.Outcome State Fault Refusal :=
  writeXlinv s (fun k => 2 ≤ k) fun p fields => { p with xlinv := fields ||| 2 }

/-- The page that a request names, as base and size; every address for a request of kind 1. -/
def xlinvRange (run : DWord) : Nat × Nat := if bitsOf run.toNat 3 2 == 1 then (0, 2 ^ 64) else (bitsOf run.toNat 55 12 * 4096, 4096)

/-- Some of the translations that an access used, as base and size, are covered by a request. -/
def xlinvCovers (run : DWord) (pages : List (Nat × Nat)) : Bool := pages.any fun x => blocksMeet x (xlinvRange run)

/-- An outstanding access has used a covered translation and has not been performed. -/
def xlinvHeld (s : State) (p : Part) (q : Pend) : Bool :=
  q.key.part == p.idx && !q.todo.isEmpty && !peerHeld s q && xlinvCovers p.xlinvRun q.pages

/-- XLINV_COMPLETE (R282): every access that used a covered translation has been performed, to its home; no TLB holds one. -/
def execXlinvComplete (part : Nat) (s : State) : Host.Outcome State Fault Refusal :=
  let p := s.hw.part part
  let run := p.xlinvRun
  whenEnabled (p.xlinv[0] && !(s.hw.pends.any fun q => xlinvHeld s p q)) s
    (s.mapHw fun h =>
      let h := p.cores.foldl (fun (h : Hw) c =>
        let h := wcDrain h part c fun l => xlinvCovers run l.pages
        drainOut h part c (((h.ctx part c).outq.filter fun o => xlinvCovers run o.pages).map fun o => o.id)) h
      let h := dropXlat h part (xlinvRange run).1 (xlinvRange run).2
      h.setPart { h.part part with xlinv := p.xlinv &&& ~~~1#64 })

/-! ### PSWAP (R323, R326) -/

/-- The fields of PSWAP as a write stores them: a nonzero slice below 20 is stored as 20. -/
def pswapFields (v : DWord) : DWord :=
  let slice := bitsOf v.toNat 31 16
  (v &&& 0xF00) ||| (BitVec.ofNat 64 (if slice == 0 then 0 else max 20 slice) <<< 16)

/-- A write pairs a partition with one that does not hold the same cores (R323). -/
def pairRefused (h : Hw) (p : Part) (v : DWord) : Bool :=
  v[8] && (h.part (bitsOf v.toNat 11 9)).cores != p.cores

/-- The pairing fields are stored, or the write is refused with ERR (R323, R326). -/
def storePair (h : Hw) (p : Part) (v : DWord) : Part :=
  if pairRefused h p v then { p with pswap := p.pswap ||| 2 } else { p with pswap := pswapFields v ||| (p.pswap &&& 1) }

/-- PSWAP_PAIR (R323, R326): a write with GO = 0. While a swap is under way it stores the fields at once like any other (DESIGN CHOICE,
notes/assumptions/45.md). -/
def execPswapPair (s : State) : Host.Outcome State Fault Refusal :=
  if s.port.data[0] then .next s else onPart s fun p => storePair s.hw p s.port.data

/-- PSWAP_GO (R326): a write with GO = 1; ignored while GO reads 1, while EN = 0, and from the shadowed partition. A swap begins where
the two partitions name each other (R323), once no core of them is in a migration (R378); GO reads 1 meanwhile. -/
def execPswapGo (s : State) : Host.Outcome State Fault Refusal :=
  let p := s.hostPart
  if !hostUp s || !s.port.data[0] || p.pswap[0] || !p.pswap[8] || !p.active then .next s
  else if pairRefused s.hw p s.port.data then .next (s.mapHw fun h => h.setPart (storePair h p s.port.data))
  else
    let h := s.hw.setPart (storePair s.hw p s.port.data)
    let q := h.part p.idx
    if !paired h q then .next (s.setHw h)
    else if coresSettled h q then .next (beginSwap (s.setHw h) q)
    else .next (s.setHw (h.setPart { q with swapDue := true, pswap := q.pswap ||| 1 }))

/-! ### Accesses from the host (R402) -/

/-- An access from outside, in one step, or, where the port says so (`Port.split`), left under way (R291). A posted write of the host that is made
in one step comes after the earlier ones of its function and link (R305). -/
def extBegin (s : State) (peer : Bool) : State :=
  if s.port.split then
    s.mapHw fun h =>
      { h with outside := h.outside ++ [⟨h.nextId, peer, s.port.sel, s.port.link, s.port.access, [], false⟩], nextId := h.nextId + 1 }
  else match s.port.access with
    | .write _ _ => extPerform (if peer then s else finishPosted s s.port.sel s.port.link) s.port.access
    | x => extPerform s x

/-- HOST_BAR2_ACCESS (R402, R374): untranslated and unstaged; BAR2 shows the device addresses below its size. -/
def execHostBar2Access (s : State) : Host.Outcome State Fault Refusal :=
  if s.mod.inReset then .next s
  else if !(extInside s.port.access && decide ((extSpan s.port.access).1 + (extSpan s.port.access).2 ≤ s.mod.bar2)) then .fault .noSuchAddress
  else .next (extBegin s false)

/-- The host sets the size of BAR2 (R402): a power of two from 256 MiB to 512 GiB. -/
def resizeBar (s : State) (size : Nat) : State :=
  if (List.range 12).any fun i => size == 2 ^ (28 + i) then s.setMod { s.mod with bar2 := size } else s

/-! ### BAR0 (R400, R402) -/

/-- What a place in the BAR0 of a function is: a register of the module, of a partition, or none. -/
inductive BarPlace where
  | module (off : Nat)
  | part (idx off : Nat)
  | none
deriving DecidableEq, Repr, Inhabited

/-- The place at an offset of the BAR0 of a function (R402): the PF's holds the module block at 0 and partition block q at
0x100_0000 + 0x10_0000 × q; that of the VF of partition q, function q + 1, holds partition block q at 0. -/
def barPlace (fn off : Nat) : BarPlace :=
  if fn == 0 then
    if off < 0x100000 then .module off
    else if 0x1000000 ≤ off && off < 0x1800000 then .part ((off - 0x1000000) / 0x100000) (off % 0x100000)
    else .none
  else if fn ≤ 8 && off < 0x100000 then .part (fn - 1) off
  else .none

/-- The value at a place; 0 where no register is, and in the block of a partition that is not configured. -/
def placeRead (s : State) (x : BarPlace) : DWord :=
  match x with
  | .module off => modRead s off
  | .part q off => if s.hw.parts.any fun p => p.idx == q then partRead s.hw (s.hw.part q) off else 0
  | .none => 0

/-- The mean power of the last 1 ms (R407): a free value at each read of PWRSTAT. -/
def samplePower (s : State) : State := (s.setMod { s.mod with pwr := BitVec.ofNat 12 (Config.freeNat s.hw.fresh) }).tick

/-- The host reads 8 bytes of a BAR0. -/
def barRead (s : State) (fn off : Nat) : State :=
  if s.mod.inReset then s
  else
    let s := if barPlace fn off == .module 0x010 then samplePower s else s
    s.emit (.register (placeRead s (barPlace fn off)))

/-- The write of a partition register as the step that it is, with the register of a plain one. -/
def partWrite (off : Nat) (v : DWord) : Instr × HostReg :=
  match off with
  | 0x000 => (.registerWrite, .xlroot)
  | 0x008 => (if bitsOf v.toNat 3 2 == 0 then .xlinvPage else if bitsOf v.toNat 3 2 == 1 then .xlinvPartition else .xlinvRefusedKind, .xlroot)
  | 0x100 => (.lqdb, .xlroot)
  | 0x108 => (.lqstatClear, .xlroot)
  | 0x110 => (.registerWrite, .balcfg)
  | 0x118 => (if v[0] then .pswapGo else .pswapPair, .xlroot)
  | 0x120 => (.registerWrite, .wdcfg)
  | 0x128 => (.registerWrite, .stgcfg)
  | 0x140 => (.registerWrite, .flttgt)
  | 0x148 => (match bitsOf v.toNat 2 0 with
    | 1 => .retry
    | 2 => .skip
    | 3 => .skipclr
    | 4 => .kill
    | 5 => .ack
    | _ => .fltcmdRefusedAct, .xlroot)
  | 0x158 => (.registerWrite, .tierfl)
  | 0x160 => (.stkap, .xlroot)
  | off => (.registerWrite, .other off)

/-- The write of a module register as the step that it is. -/
def modWrite (off : Nat) : Instr × HostReg :=
  match off with
  | 0x008 => (.pwrlim, .xlroot)
  | 0x018 => (.tierwm, .xlroot)
  | 0x058 => (.resetctl, .xlroot)
  | off => if 0x020 ≤ off && off < 0x050 && off % 8 == 0 then (.registerWrite, .ecccnt (BitVec.ofNat 3 ((off - 0x020) / 8)))
    else (.registerWrite, .other off)

/-- The step that a write to the BAR0 of a function is, and the transaction it takes its data from; `pass` lists the cores that pass the scan of
a reset (R411). -/
def barWrite (fn link off : Nat) (v : DWord) (pass : List (Nat × Nat)) : Instr × Port :=
  let port (part : Nat) (r : HostReg) : Port := { Port.idle with part := part, data := v, reg := r, sel := fn, link := link, pass := pass }
  match barPlace fn off with
  | .module off => ((modWrite off).1, port 0 (modWrite off).2)
  | .part q off => ((partWrite off v).1, port q (partWrite off v).2)
  | .none => (.registerWrite, port 0 (.other off))

/-- PEER_REQUEST (R374, R406): a write to a page that a launch has staged waits. -/
def execPeerRequest (s : State) : Host.Outcome State Fault Refusal :=
  let x := s.port.access
  if s.mod.inReset then .next s
  else if !extInside x then .fault .noSuchAddress
  else whenEnabled (!(extWrites x && stagedRange s.hw (extSpan x).1 (extSpan x).2)) s (extBegin s true)

end Sys2Proof.Machine
end

