-- ==== Sys2Proof/Machine/Boot.lean ====
section
/-!
DEFINITION. Sys2Proof/Machine/Boot.lean: the boot and the resets of the module (R409 to R411), temperature (R408), and management (R412).
-/
namespace Sys2Proof.Machine

/-! ### The cores of a boot (R411) -/

/-- The use of the cores of one die after the scan: those retired before are not scanned, those that fail are retired; with all thirteen
passing the store's choice, else core 12, is the spare. -/
def dieCores (store : StoreCopy) (pass : List (Nat × Nat)) (now d : Nat) : List PhysCore :=
  let good (i : Nat) : Bool := !store.retired.contains (d, i) && pass.contains (d, i)
  let spare := ((store.spares.find? fun x => x.1 == d && x.2 < 13).map fun x => x.2).getD 12
  let all := (List.range 13).all good
  (List.range 13).map fun i =>
    ⟨d, i, if !good i then .retired else if all && i == spare then .spare else .serving 0, now⟩

/-- Logical core indices, densely, in ascending die and physical order. -/
def numberCores : Nat → List PhysCore → List PhysCore
  | _, [] => []
  | n, c :: cs => match c.use with
    | .serving _ => { c with use := .serving n } :: numberCores (n + 1) cs
    | _ => c :: numberCores n cs

/-- The physical cores of the module after the scan of a boot. -/
def bootCores (store : StoreCopy) (pass : List (Nat × Nat)) (now : Nat) : List PhysCore :=
  numberCores 0 ((List.range 4).flatMap (dieCores store pass now))

/-- The number of cores in service. -/
def servingCount (cs : List PhysCore) : Nat := cs.countP fun c => match c.use with
  | .serving _ => true
  | _ => false

/-- DEG: the dies without a spare. -/
def bootDeg (cs : List PhysCore) : BitVec 4 :=
  BitVec.ofNat 4 ((List.range 4).foldl (fun a d => a + if cs.any fun c => c.die == d && c.use == .spare then 0 else 2 ^ d) 0)

/-- The cores that this boot retires: they passed earlier scans and fail this one. -/
def newlyRetired (store : StoreCopy) (cs : List PhysCore) : List (Nat × Nat) :=
  (cs.filter fun c => c.use == .retired && !store.retired.contains (c.die, c.idx)).map fun c => (c.die, c.idx)

/-! ### The partitions of a boot (R410, R411) -/

/-- A partition of the store's layout that can be created: every core it names is in service. -/
def creatable (n : Nat) (p : StorePartition) : Bool := p.cores.all fun c => c < n

/-- The partitions that a boot creates, with their cores in ascending order and the fields of TIERFL (R403); of two that hold a core in common the one with the lower number is active. -/
def bootParts (n : Nat) (ps : List StorePartition) : List Part :=
  let ok := ps.filter (creatable n)
  ok.map fun p =>
    Part.fresh p.part (sortBy id (nub p.cores)) (p.tierfl &&& 0x0000FFFF00003FFF) (!(ok.any fun q => decide (q.part < p.part) && q.cores.any fun c => p.cores.contains c))

/-- Everything that instructions, engines and the scheduler act on after a boot: device memory zero (R410 step 2); the memory of the host and of
peers, what left the module, and the counters of the model stay. -/
def bootHw (h : Hw) (store : StoreCopy) (cs : List PhysCore) : Hw :=
  let n := servingCount cs
  let parts := bootParts n store.parts
  { found := [], ue := [], records := [], apart := false, threads := [], ctxs := parts.flatMap fun p => p.cores.map (Ctx.empty p.idx), parts := parts, launches := [], pends := [], outside := [],
    mem := h.mem.filter fun c => !keyIsDevice c.1
    poison := [], latent := [], flash := [], freeTier := [], budgets := (List.range n).map Budget.fresh, cores := cs,
    out := h.out ++ (store.parts.filter fun p => !creatable n p).map fun _ => .msix 0 1
    nextId := h.nextId, fresh := h.fresh, gang := h.gang }

/-- Nothing runs: the module stays in reset (R409). -/
def deadHw (h : Hw) : Hw :=
  { h with threads := [], ctxs := [], parts := [], launches := [], pends := [], outside := [],
           mem := h.mem.filter fun c => !keyIsDevice c.1, poison := [], latent := [], flash := [], freeTier := [], budgets := [], cores := [], found := [], ue := [], records := [] }

/-- The module's registers after a boot from a copy of the store. -/
def bootMod (s : State) (store : StoreCopy) (cs : List PhysCore) : Module :=
  let lim := clampLim (store.pwrlim.getD 1900)
  let old := newlyRetired store cs
  { modid := store.modid, pwrlim := lim, tj := s.mod.tj, eff := effOf lim s.mod.tj.toNat (Config.freeBool s.hw.fresh), pwr := 0,
    tierHigh := 2048, tierLow := 1024, ecc := Vector.replicate 6 0, deg := bootDeg cs, cfgb := s.mod.stores.head? != some store,
    hand := 0, handRuns := false, inReset := false, bar2 := 2 ^ 39,
    stores := if old.isEmpty then s.mod.stores else writeStore s.mod.stores { store with retired := store.retired ++ old } }

/-- Boot the module (R409 to R411) from the newest copy of the store that verifies; with none it stays in reset. `Port.pass` lists the
cores that pass the scan of step 3. -/
def boot (s : State) : State :=
  let s := s.tick
  match newestStore s.mod.stores with
  | none => { s with th := Thread.idle, hw := deadHw s.hw, mod := { s.mod with inReset := true } }
  | some st =>
    let cs := bootCores st s.port.pass s.hw.nextId
    { s with th := Thread.idle, hw := bootHw s.hw st cs, mod := bootMod s st cs }

/-- COLD_BOOT (R410, R48): power-on; TIME counts from 0. -/
def execColdBoot (s : State) : Host.Outcome State Fault Refusal := .next (boot { s with time := 0 })

/-- RESETCTL (R404, R410): exactly 1 resets the module. -/
def execResetctl (s : State) : Host.Outcome State Fault Refusal := whenEnabled (!s.mod.inReset && s.port.data == 1) s (boot s)

/-- FUNCTION_LEVEL_RESET (R410): of the VF of the partition that the port names. -/
def execFunctionLevelReset (s : State) : Host.Outcome State Fault Refusal :=
  let part := s.port.part
  let ls := s.hw.launches.filter fun l => l.part == part
  let s1 := ls.foldl (fun s l => killLaunch s part l.id) s
  whenEnabled (hostUp s) s
    (s1.mapHw fun h => h.setPart
      { h.part part with queues := Vector.replicate 16 Queue.empty, bells := [], xlroot := 0, xlinv := 0, xlinvRun := 0 })

/-- HEALTH is kept in the store (R408). -/
def keepHealth (s : State) : State :=
  match newestStore s.mod.stores with
  | some st => s.setMod { s.mod with stores := writeStore s.mod.stores { st with health := health s } }
  | none => s

/-- TEMPERATURE_CHANGE (R408): the hottest die reaches a temperature; entering 95 .. 104 alerts, 110 and above resets, with HEALTH kept. -/
def execTemperatureChange (s : State) : Host.Outcome State Fault Refusal :=
  let tj := s.port.data.extractLsb' 0 8
  let warm (t : Nat) : Bool := 95 ≤ t && t < 105
  let s1 := setPower s s.mod.pwrlim tj
  .next (if s.mod.inReset then s.setMod { s.mod with tj := tj }
    else if 110 ≤ tj.toNat then boot (keepHealth s1)
    else if warm tj.toNat && !warm s.mod.tj.toNat then s1.emit (.msix 0 0)
    else s1)

/-! ### Management (R412) -/

/-- MGMT_READ_STATUS (R412): `Port.sel` 0 reads HEALTH, 1 PWRSTAT, 2 + c the counts of ECC class c; the mean power is a free value. -/
def execMgmtReadStatus (s : State) : Host.Outcome State Fault Refusal :=
  let s1 := samplePower s
  match s.port.sel with
  | 0 => .next (s.emit (.status (health s)))
  | 1 => .next (s1.emit (.status (pwrstat s1.mod)))
  | n => .next (if n < 8 then s.emit (.status (s.mod.ecc.toArray.getD (n - 2) 0)) else s)

/-- MGMT_SET_PWRLIM (R407, R412). -/
def execMgmtSetPwrlim (s : State) : Host.Outcome State Fault Refusal :=
  .next (setPower s (clampLim (s.port.data.extractLsb' 0 12)) s.mod.tj)

/-- MGMT_READ_STORE (R412). -/
def execMgmtReadStore (s : State) : Host.Outcome State Fault Refusal := .next (s.emit (.store s.mod.stores))

/-- MGMT_REWRITE_STORE (R409, R412): the older copy is written; it takes effect at the next boot. -/
def execMgmtRewriteStore (s : State) : Host.Outcome State Fault Refusal :=
  .next (s.setMod { s.mod with stores := writeStore s.mod.stores s.port.store })

/-- MGMT_RESET (R412). -/
def execMgmtReset (s : State) : Host.Outcome State Fault Refusal := .next (boot s)

end Sys2Proof.Machine
end

