-- ==== Sys2Proof/Machine/Lanes.lean ====
section
/-!
DEFINITION. Sys2Proof/Machine/Lanes.lean: the major XLANE, the cross-lane instructions (R26 to R29, R206 to R211).
-/
namespace Sys2Proof.Machine

/-- The cells that a cross-lane instruction reads: for a and for b, whether the field names one (R208 to R211). -/
def lanesRead (i : Instr) : Bool × Bool :=
  match i with
  | .shflIdx _ | .shflUp _ | .shflDown _ | .shflXor _ | .permbNib _ | .permbByte _ => (true, true)
  | .red _ | .scanIncl _ | .scanExcl _ => (true, false)
  | _ => (false, false)

/-- The cross-lane instruction writes cell d. -/
def lanesWriteCell (i : Instr) : Bool :=
  match i with
  | .voteAny _ | .voteAll _ | .voteUniform _ => false
  | _ => true

/-- A member reads its sources before it arrives (R206); a false guard supplies nothing. It arrives only once its destination cells are
full (R38): that the arrival waits, not the write at completion, is a DESIGN CHOICE (notes/assumptions/45.md). -/
def arrivalOf (t : Thread) (i : Instr) (o : LaneOps) : Except Stop Arrival :=
  if !t.laneGuard o then .ok ⟨t.rank, false, 0, 0, false⟩
  else do
    let r := lanesRead i
    t.needAll o.ep ((if r.1 then srcA o 1 else []) ++ if r.2 then srcB o 1 else [])
    if lanesWriteCell i then t.needFree o.d.toNat 1
    let b : Word := match o.b with
      | .cell c => (t.cell c.toNat).data
      | .imm v => v.signExtend 32
    .ok ⟨t.rank, true, (t.cell o.a.toNat).data, b, t.pred o.a.toNat⟩

/-- The result for a thread in no crew, a tile of one (R28): reductions and scans return its own value. -/
def aloneResult (i : Instr) (rm : RMode) (me : Arrival) : LaneResult :=
  let r := laneResult i rm [me] me.rank 1 me
  match i with
  | .red _ | .scanIncl _ | .scanExcl _ => { r with cell := some me.a }
  | _ => r

/-- An open rendezvous shares a rank with a tile of 2^w ranks from `base` (R27). -/
def Rendezvous.shares (r : Rendezvous) (base w : Nat) : Bool := r.base < base + 2 ^ w && base < r.base + 2 ^ r.tile

/-- An arrival joins the rendezvous it belongs to, or opens one; `none` when it does not match (R27). -/
def joinRendezvous (c : Ctx) (t : Thread) (i : Instr) (a : Arrival) : Except DWord Ctx :=
  let w := t.tile.toNat
  let base := t.rank / 2 ^ w * 2 ^ w
  match c.rvs.find? fun r => r.crew == t.crew && r.shares base w with
  | none => .ok { c with rvs := c.rvs ++ [⟨t.crew, base, w, t.pc, i, [a]⟩] }
  | some r =>
    if r.pc == t.pc && r.tile == w then
      .ok { c with rvs := c.rvs.map fun q => if q.crew == r.crew && q.base == r.base then { q with arrivals := q.arrivals ++ [a] } else q }
    else .error r.pc

/-- A cross-lane instruction (R206). Check 5 and the charge come first, as for every instruction; a false guard still arrives. -/
def lanes (i : Instr) (o : LaneOps) (s : State) : Host.Outcome State Fault Refusal :=
  if !s.th.regsOk i then .next (stopped s (ill i 3))
  else match s.th.charge i with
    | none => .next (s.setTh s.th.starve)
    | some t =>
      let s := s.setTh t
      match arrivalOf t i o with
      | .error e => .next (stopped s e)
      | .ok me =>
        if t.crew == 0 then
          if me.guard then .next ((s.setTh (t.takeLane i (aloneResult i (t.frm o.ro) me))).advance i.length)
          else .next (s.advance i.length)
        else match joinRendezvous (s.hw.ctx t.key.part t.key.core) t i me with
          | .error pc => .next (stopped s (.fault ⟨4, 0, false, false, pc, 0⟩))
          | .ok c =>
            let s := (s.mapHw fun h => h.setCtx c).hold .rendezvous
            .next (settleRendezvous s t.key.part t.key.core t.crew)

/-- SHFL.idx (R208). -/
def execShflIdx (o : LaneOps) (s : State) := lanes (.shflIdx o) o s
/-- SHFL.up (R208). -/
def execShflUp (o : LaneOps) (s : State) := lanes (.shflUp o) o s
/-- SHFL.down (R208). -/
def execShflDown (o : LaneOps) (s : State) := lanes (.shflDown o) o s
/-- SHFL.xor (R208). -/
def execShflXor (o : LaneOps) (s : State) := lanes (.shflXor o) o s
/-- VOTE.any (R209). -/
def execVoteAny (o : LaneOps) (s : State) := lanes (.voteAny o) o s
/-- VOTE.all (R209). -/
def execVoteAll (o : LaneOps) (s : State) := lanes (.voteAll o) o s
/-- VOTE.ballot (R209). -/
def execVoteBallot (o : LaneOps) (s : State) := lanes (.voteBallot o) o s
/-- VOTE.uniform (R209). -/
def execVoteUniform (o : LaneOps) (s : State) := lanes (.voteUniform o) o s
/-- RED (R210). -/
def execRed (o : LaneOps) (s : State) := lanes (.red o) o s
/-- SCAN.incl (R210). -/
def execScanIncl (o : LaneOps) (s : State) := lanes (.scanIncl o) o s
/-- SCAN.excl (R210). -/
def execScanExcl (o : LaneOps) (s : State) := lanes (.scanExcl o) o s
/-- PERMB.nib (R211). -/
def execPermbNib (o : LaneOps) (s : State) := lanes (.permbNib o) o s
/-- PERMB.byte (R211). -/
def execPermbByte (o : LaneOps) (s : State) := lanes (.permbByte o) o s

end Sys2Proof.Machine
end

