-- ==== Sys2Proof/Machine/Dispatch.lean ====
section
/-!
DEFINITION. Sys2Proof/Machine/Dispatch.lean: the meaning of every instruction and step, one arm for each constructor.
-/
namespace Sys2Proof.Machine

/-- The effect of one instruction, or of one step of the hardware or of the outside, on the state. -/
def exec (i : Instr) (s : State) : Host.Outcome State Fault Refusal :=
  match i with
  | .iadd o => Sys2Proof.Machine.execIadd o s
  | .isub o => Sys2Proof.Machine.execIsub o s
  | .imin o => Sys2Proof.Machine.execImin o s
  | .imax o => Sys2Proof.Machine.execImax o s
  | .iabs o => Sys2Proof.Machine.execIabs o s
  | .iand o => Sys2Proof.Machine.execIand o s
  | .ior o => Sys2Proof.Machine.execIor o s
  | .ixor o => Sys2Proof.Machine.execIxor o s
  | .iandn o => Sys2Proof.Machine.execIandn o s
  | .ishl o => Sys2Proof.Machine.execIshl o s
  | .ishr o => Sys2Proof.Machine.execIshr o s
  | .isar o => Sys2Proof.Machine.execIsar o s
  | .irotl o => Sys2Proof.Machine.execIrotl o s
  | .imul o => Sys2Proof.Machine.execImul o s
  | .imulh o => Sys2Proof.Machine.execImulh o s
  | .imad o => Sys2Proof.Machine.execImad o s
  | .idiv o => Sys2Proof.Machine.execIdiv o s
  | .irem o => Sys2Proof.Machine.execIrem o s
  | .iclz o => Sys2Proof.Machine.execIclz o s
  | .ictz o => Sys2Proof.Machine.execIctz o s
  | .iffs o => Sys2Proof.Machine.execIffs o s
  | .ipopc o => Sys2Proof.Machine.execIpopc o s
  | .ibrev o => Sys2Proof.Machine.execIbrev o s
  | .ibfx o => Sys2Proof.Machine.execIbfx o s
  | .ibfi o => Sys2Proof.Machine.execIbfi o s
  | .icmpEq o => Sys2Proof.Machine.execIcmpEq o s
  | .icmpNe o => Sys2Proof.Machine.execIcmpNe o s
  | .icmpLt o => Sys2Proof.Machine.execIcmpLt o s
  | .icmpLe o => Sys2Proof.Machine.execIcmpLe o s
  | .icmpGt o => Sys2Proof.Machine.execIcmpGt o s
  | .icmpGe o => Sys2Proof.Machine.execIcmpGe o s
  | .isel o => Sys2Proof.Machine.execIsel o s
  | .iord o => Sys2Proof.Machine.execIord o s
  | .fadd o => Sys2Proof.Machine.execFadd o s
  | .fsub o => Sys2Proof.Machine.execFsub o s
  | .fmul o => Sys2Proof.Machine.execFmul o s
  | .ffma o => Sys2Proof.Machine.execFfma o s
  | .fmin o => Sys2Proof.Machine.execFmin o s
  | .fmax o => Sys2Proof.Machine.execFmax o s
  | .fdiv o => Sys2Proof.Machine.execFdiv o s
  | .fsqrt o => Sys2Proof.Machine.execFsqrt o s
  | .frcp o => Sys2Proof.Machine.execFrcp o s
  | .frsq o => Sys2Proof.Machine.execFrsq o s
  | .fexp2 o => Sys2Proof.Machine.execFexp2 o s
  | .flog2 o => Sys2Proof.Machine.execFlog2 o s
  | .fcmpEq o => Sys2Proof.Machine.execFcmpEq o s
  | .fcmpNe o => Sys2Proof.Machine.execFcmpNe o s
  | .fcmpLt o => Sys2Proof.Machine.execFcmpLt o s
  | .fcmpLe o => Sys2Proof.Machine.execFcmpLe o s
  | .fcmpGt o => Sys2Proof.Machine.execFcmpGt o s
  | .fcmpGe o => Sys2Proof.Machine.execFcmpGe o s
  | .fcmpUn o => Sys2Proof.Machine.execFcmpUn o s
  | .fclass o => Sys2Proof.Machine.execFclass o s
  | .fcvt f o => Sys2Proof.Machine.execFcvt f o s
  | .xadd o => Sys2Proof.Machine.execXadd o s
  | .xsub o => Sys2Proof.Machine.execXsub o s
  | .xmul o => Sys2Proof.Machine.execXmul o s
  | .xfma o => Sys2Proof.Machine.execXfma o s
  | .xdiv o => Sys2Proof.Machine.execXdiv o s
  | .xsqrt o => Sys2Proof.Machine.execXsqrt o s
  | .xmin o => Sys2Proof.Machine.execXmin o s
  | .xmax o => Sys2Proof.Machine.execXmax o s
  | .xcmp o => Sys2Proof.Machine.execXcmp o s
  | .xrndP o => Sys2Proof.Machine.execXrndP o s
  | .xrndInt o => Sys2Proof.Machine.execXrndInt o s
  | .xcvt o => Sys2Proof.Machine.execXcvt o s
  | .xscale o => Sys2Proof.Machine.execXscale o s
  | .xsigGet o => Sys2Proof.Machine.execXsigGet o s
  | .xsigSet o => Sys2Proof.Machine.execXsigSet o s
  | .xtag o => Sys2Proof.Machine.execXtag o s
  | .ld k o => Sys2Proof.Machine.execLd k o s
  | .st k o => Sys2Proof.Machine.execSt k o s
  | .xld k o => Sys2Proof.Machine.execXld k o s
  | .xst k o => Sys2Proof.Machine.execXst k o s
  | .amoAddB32 o => Sys2Proof.Machine.execAmoAddB32 o s
  | .amoAddB64 o => Sys2Proof.Machine.execAmoAddB64 o s
  | .amoMinI32 o => Sys2Proof.Machine.execAmoMinI32 o s
  | .amoMinN32 o => Sys2Proof.Machine.execAmoMinN32 o s
  | .amoMaxI32 o => Sys2Proof.Machine.execAmoMaxI32 o s
  | .amoMaxN32 o => Sys2Proof.Machine.execAmoMaxN32 o s
  | .amoAndB32 o => Sys2Proof.Machine.execAmoAndB32 o s
  | .amoOrB32 o => Sys2Proof.Machine.execAmoOrB32 o s
  | .amoXorB32 o => Sys2Proof.Machine.execAmoXorB32 o s
  | .amoSwapB32 o => Sys2Proof.Machine.execAmoSwapB32 o s
  | .amoSwapB64 o => Sys2Proof.Machine.execAmoSwapB64 o s
  | .amoCasB32 o => Sys2Proof.Machine.execAmoCasB32 o s
  | .amoCasB64 o => Sys2Proof.Machine.execAmoCasB64 o s
  | .amoCasB128 o => Sys2Proof.Machine.execAmoCasB128 o s
  | .amoFaddF32 o => Sys2Proof.Machine.execAmoFaddF32 o s
  | .shflIdx o => Sys2Proof.Machine.execShflIdx o s
  | .shflUp o => Sys2Proof.Machine.execShflUp o s
  | .shflDown o => Sys2Proof.Machine.execShflDown o s
  | .shflXor o => Sys2Proof.Machine.execShflXor o s
  | .voteAny o => Sys2Proof.Machine.execVoteAny o s
  | .voteAll o => Sys2Proof.Machine.execVoteAll o s
  | .voteBallot o => Sys2Proof.Machine.execVoteBallot o s
  | .voteUniform o => Sys2Proof.Machine.execVoteUniform o s
  | .red o => Sys2Proof.Machine.execRed o s
  | .scanIncl o => Sys2Proof.Machine.execScanIncl o s
  | .scanExcl o => Sys2Proof.Machine.execScanExcl o s
  | .permbNib o => Sys2Proof.Machine.execPermbNib o s
  | .permbByte o => Sys2Proof.Machine.execPermbByte o s
  | .vmov o => Sys2Proof.Machine.execVmov o s
  | .smovTov o => Sys2Proof.Machine.execSmovTov o s
  | .smovTos o => Sys2Proof.Machine.execSmovTos o s
  | .movpTov o => Sys2Proof.Machine.execMovpTov o s
  | .movpTop o => Sys2Proof.Machine.execMovpTop o s
  | .sigfB32 o => Sys2Proof.Machine.execSigfB32 o s
  | .sigfB64 o => Sys2Proof.Machine.execSigfB64 o s
  | .add o => Sys2Proof.Machine.execAdd o s
  | .sub o => Sys2Proof.Machine.execSub o s
  | .minI o => Sys2Proof.Machine.execMinI o s
  | .maxI o => Sys2Proof.Machine.execMaxI o s
  | .minN o => Sys2Proof.Machine.execMinN o s
  | .maxN o => Sys2Proof.Machine.execMaxN o s
  | .and o => Sys2Proof.Machine.execAnd o s
  | .or o => Sys2Proof.Machine.execOr o s
  | .xor o => Sys2Proof.Machine.execXor o s
  | .andn o => Sys2Proof.Machine.execAndn o s
  | .shl o => Sys2Proof.Machine.execShl o s
  | .shr o => Sys2Proof.Machine.execShr o s
  | .sar o => Sys2Proof.Machine.execSar o s
  | .rotl o => Sys2Proof.Machine.execRotl o s
  | .mul o => Sys2Proof.Machine.execMul o s
  | .mulhI o => Sys2Proof.Machine.execMulhI o s
  | .mulhN o => Sys2Proof.Machine.execMulhN o s
  | .divI o => Sys2Proof.Machine.execDivI o s
  | .divN o => Sys2Proof.Machine.execDivN o s
  | .remI o => Sys2Proof.Machine.execRemI o s
  | .remN o => Sys2Proof.Machine.execRemN o s
  | .clz o => Sys2Proof.Machine.execClz o s
  | .ctz o => Sys2Proof.Machine.execCtz o s
  | .ffs o => Sys2Proof.Machine.execFfs o s
  | .popc o => Sys2Proof.Machine.execPopc o s
  | .brev o => Sys2Proof.Machine.execBrev o s
  | .bfx o => Sys2Proof.Machine.execBfx o s
  | .bfi o => Sys2Proof.Machine.execBfi o s
  | .cmpEq o => Sys2Proof.Machine.execCmpEq o s
  | .cmpNe o => Sys2Proof.Machine.execCmpNe o s
  | .cmpLtI o => Sys2Proof.Machine.execCmpLtI o s
  | .cmpLeI o => Sys2Proof.Machine.execCmpLeI o s
  | .cmpLtN o => Sys2Proof.Machine.execCmpLtN o s
  | .cmpLeN o => Sys2Proof.Machine.execCmpLeN o s
  | .sel o => Sys2Proof.Machine.execSel o s
  | .plop o => Sys2Proof.Machine.execPlop o s
  | .movi o => Sys2Proof.Machine.execMovi o s
  | .movhi o => Sys2Proof.Machine.execMovhi o s
  | .br o => Sys2Proof.Machine.execBr o s
  | .jmp o => Sys2Proof.Machine.execJmp o s
  | .call o => Sys2Proof.Machine.execCall o s
  | .calli o => Sys2Proof.Machine.execCalli o s
  | .ret o => Sys2Proof.Machine.execRet o s
  | .csw o => Sys2Proof.Machine.execCsw o s
  | .nop o => Sys2Proof.Machine.execNop o s
  | .yield o => Sys2Proof.Machine.execYield o s
  | .spawn o => Sys2Proof.Machine.execSpawn o s
  | .await o => Sys2Proof.Machine.execAwait o s
  | .exit o => Sys2Proof.Machine.execExit o s
  | .cjoin o => Sys2Proof.Machine.execCjoin o s
  | .cpart o => Sys2Proof.Machine.execCpart o s
  | .ccompact o => Sys2Proof.Machine.execCcompact o s
  | .cbar o => Sys2Proof.Machine.execCbar o s
  | .carrive o => Sys2Proof.Machine.execCarrive o s
  | .cwait o => Sys2Proof.Machine.execCwait o s
  | .fence o => Sys2Proof.Machine.execFence o s
  | .pfence o => Sys2Proof.Machine.execPfence o s
  | .waitcCopy o => Sys2Proof.Machine.execWaitcCopy o s
  | .waitcMatrix o => Sys2Proof.Machine.execWaitcMatrix o s
  | .waitcSelect o => Sys2Proof.Machine.execWaitcSelect o s
  | .waitcTrial o => Sys2Proof.Machine.execWaitcTrial o s
  | .csrr o => Sys2Proof.Machine.execCsrr o s
  | .csrw o => Sys2Proof.Machine.execCsrw o s
  | .csrs o => Sys2Proof.Machine.execCsrs o s
  | .csrc o => Sys2Proof.Machine.execCsrc o s
  | .trap o => Sys2Proof.Machine.execTrap o s
  | .tretRetry o => Sys2Proof.Machine.execTretRetry o s
  | .tretSkip o => Sys2Proof.Machine.execTretSkip o s
  | .tclr o => Sys2Proof.Machine.execTclr o s
  | .obres o => Sys2Proof.Machine.execObres o s
  | .obrel o => Sys2Proof.Machine.execObrel o s
  | .mxgo o => Sys2Proof.Machine.execMxgo o s
  | .mxclr o => Sys2Proof.Machine.execMxclr o s
  | .accrd o => Sys2Proof.Machine.execAccrd o s
  | .accwr o => Sys2Proof.Machine.execAccwr o s
  | .cpyCopy o => Sys2Proof.Machine.execCpyCopy o s
  | .cpyFill o => Sys2Proof.Machine.execCpyFill o s
  | .cpyLook o => Sys2Proof.Machine.execCpyLook o s
  | .selRun o => Sys2Proof.Machine.execSelRun o s
  | .trial o => Sys2Proof.Machine.execTrial o s
  | .cbwr o => Sys2Proof.Machine.execCbwr o s
  | .lqput o => Sys2Proof.Machine.execLqput o s
  | .permit o => Sys2Proof.Machine.execPermit o s
  | .rand o => Sys2Proof.Machine.execRand o s
  | .sld k o => Sys2Proof.Machine.execSld k o s
  | .sst k o => Sys2Proof.Machine.execSst k o s
  | .loadComplete id => Sys2Proof.Machine.execLoadComplete id s
  | .xldComplete id => Sys2Proof.Machine.execXldComplete id s
  | .sldData part core slot => Sys2Proof.Machine.execSldData part core slot s
  | .atomicComplete id => Sys2Proof.Machine.execAtomicComplete id s
  | .spawnComplete id => Sys2Proof.Machine.execSpawnComplete id s
  | .awaitComplete id => Sys2Proof.Machine.execAwaitComplete id s
  | .stagePage part launch page => Sys2Proof.Machine.execStagePage part launch page s
  | .wcDrain part core line => Sys2Proof.Machine.execWcDrain part core line s
  | .reservationRelease part core handle => Sys2Proof.Machine.execReservationRelease part core handle s
  | .matrixCommandStart part core => Sys2Proof.Machine.execMatrixCommandStart part core s
  | .matrixBoundary part core => Sys2Proof.Machine.execMatrixBoundary part core s
  | .matrixSpillComplete part core => Sys2Proof.Machine.execMatrixSpillComplete part core s
  | .matrixResume part core => Sys2Proof.Machine.execMatrixResume part core s
  | .matrixCommandComplete part core => Sys2Proof.Machine.execMatrixCommandComplete part core s
  | .copyBurst part core => Sys2Proof.Machine.execCopyBurst part core s
  | .copyComplete part core id => Sys2Proof.Machine.execCopyComplete part core id s
  | .codeBankWriteStart part core id => Sys2Proof.Machine.execCodeBankWriteStart part core id s
  | .lookaheadComplete part core id => Sys2Proof.Machine.execLookaheadComplete part core id s
  | .selectPass part core => Sys2Proof.Machine.execSelectPass part core s
  | .selectComplete part core => Sys2Proof.Machine.execSelectComplete part core s
  | .trialStart part core tid => Sys2Proof.Machine.execTrialStart part core tid s
  | .exampleFold part core slot => Sys2Proof.Machine.execExampleFold part core slot s
  | .fuelExhausted part core slot => Sys2Proof.Machine.execFuelExhausted part core slot s
  | .dedupLookup part core id => Sys2Proof.Machine.execDedupLookup part core id s
  | .dispatch part => Sys2Proof.Machine.execDispatch part s
  | .waitWordPoll part q => Sys2Proof.Machine.execWaitWordPoll part q s
  | .patchApply part q => Sys2Proof.Machine.execPatchApply part q s
  | .crewAssign part => Sys2Proof.Machine.execCrewAssign part s
  | .threadStart part core => Sys2Proof.Machine.execThreadStart part core s
  | .balanceTick part => Sys2Proof.Machine.execBalanceTick part s
  | .signalIncrement part launch => Sys2Proof.Machine.execSignalIncrement part launch s
  | .launchCommit part launch => Sys2Proof.Machine.execLaunchCommit part launch s
  | .grantRefresh grants => Sys2Proof.Machine.execGrantRefresh grants s
  | .tierHandStep free => Sys2Proof.Machine.execTierHandStep free s
  | .tierFetchComplete part page frame => Sys2Proof.Machine.execTierFetchComplete part page frame s
  | .watchdogExpiry part core slot => Sys2Proof.Machine.execWatchdogExpiry part core slot s
  | .patrolScrub granule => Sys2Proof.Machine.execPatrolScrub granule s
  | .peerTimeout id => Sys2Proof.Machine.execPeerTimeout id s
  | .sliceExpiry part => Sys2Proof.Machine.execSliceExpiry part s
  | .swapHaltComplete part => Sys2Proof.Machine.execSwapHaltComplete part s
  | .swapExchangeComplete part => Sys2Proof.Machine.execSwapExchangeComplete part s
  | .migration core => Sys2Proof.Machine.execMigration core s
  | .migrationComplete core => Sys2Proof.Machine.execMigrationComplete core s
  | .scanComplete die core pass => Sys2Proof.Machine.execScanComplete die core pass s
  | .xlinvComplete part => Sys2Proof.Machine.execXlinvComplete part s
  | .unassignedMajorOrMinor why => Sys2Proof.Machine.execUnassignedMajorOrMinor why s
  | .filterCacheDrop part core idx => Sys2Proof.Machine.execFilterCacheDrop part core idx s
  | .peerRequest => Sys2Proof.Machine.execPeerRequest s
  | .hostBar2Access => Sys2Proof.Machine.execHostBar2Access s
  | .lqdb => Sys2Proof.Machine.execLqdb s
  | .lqstatClear => Sys2Proof.Machine.execLqstatClear s
  | .xlinvPage => Sys2Proof.Machine.execXlinvPage s
  | .xlinvPartition => Sys2Proof.Machine.execXlinvPartition s
  | .pswapGo => Sys2Proof.Machine.execPswapGo s
  | .pswapPair => Sys2Proof.Machine.execPswapPair s
  | .stkap => Sys2Proof.Machine.execStkap s
  | .retry => Sys2Proof.Machine.execRetry s
  | .skip => Sys2Proof.Machine.execSkip s
  | .skipclr => Sys2Proof.Machine.execSkipclr s
  | .kill => Sys2Proof.Machine.execKill s
  | .ack => Sys2Proof.Machine.execAck s
  | .pwrlim => Sys2Proof.Machine.execPwrlim s
  | .tierwm => Sys2Proof.Machine.execTierwm s
  | .resetctl => Sys2Proof.Machine.execResetctl s
  | .registerWrite => Sys2Proof.Machine.execRegisterWrite s
  | .functionLevelReset => Sys2Proof.Machine.execFunctionLevelReset s
  | .coldBoot => Sys2Proof.Machine.execColdBoot s
  | .temperatureChange => Sys2Proof.Machine.execTemperatureChange s
  | .mgmtReadStatus => Sys2Proof.Machine.execMgmtReadStatus s
  | .mgmtSetPwrlim => Sys2Proof.Machine.execMgmtSetPwrlim s
  | .mgmtReadStore => Sys2Proof.Machine.execMgmtReadStore s
  | .mgmtRewriteStore => Sys2Proof.Machine.execMgmtRewriteStore s
  | .mgmtReset => Sys2Proof.Machine.execMgmtReset s
  | .fltcmdRefusedAct => Sys2Proof.Machine.execFltcmdRefusedAct s
  | .xlinvRefusedKind => Sys2Proof.Machine.execXlinvRefusedKind s

end Sys2Proof.Machine
end

