-- ==== Sys2Proof/Machine/Pickers.lean ====
section
/-!
DEFINITION. Sys2Proof/Machine/Pickers.lean: which threads are ready (R9), the PC classes of a picker, their eviction and choice (R17), and
switch points and rotations (R18, R157, R164, R190, R206).
-/
namespace Sys2Proof.Machine

/-! ### Waking (R9, R368) -/

/-- A thread that tried its instruction now would wait; of a trial whose example is to be set up, that setup would. -/
def waitsNow (s : State) (t : Thread) : Bool :=
  let s := s.enterThread t
  let waits (s : State) : Bool := s.th.live && match s.th.wait with
    | .retry _ _ => true
    | _ => false
  match t.trial with
  | some r =>
    if r.loading then match beginExample s r r.ex with
      | .error (.wait _) => true
      | _ => false
    else retried s waits
  | none => retried s waits
where
  /-- What the thread's next issue would leave. -/
  retried (s : State) (waits : State → Bool) : Bool :=
    match fetch s with
    | .error e => waits (stopped s e)
    | .ok (i, s) => match exec i s with
      | .next s => waits s
      | _ => false

/-- A thread whose wait is over is ready again: what it waited for has come about (R9), which breaks the measure of the watchdog (R368). -/
def wake (s : State) (t : Thread) : Thread :=
  match t.wait with
  | .retry _ _ => if t.park == .none && !(waitsNow s t) then { t with wait := .none } else t
  | _ => t

/-- Every thread whose wait is over is ready. -/
def wakeAll (s : State) : State := s.mapHw fun h => { h with threads := h.threads.map (wake s) }

/-- A ready thread (R9). -/
def isReady (s : State) (t : Thread) : Bool := t.wait == .none && mayIssue s t

/-! ### Redundant pairs (R376, R377) -/

/-- The control transfers, of which the copies of a redundant pair compare also whether they are taken (R376). -/
def transfers (i : Instr) : Bool :=
  match i with
  | .br _ | .jmp _ | .call _ | .calli _ | .ret _ | .csw _ | .tretRetry _ | .tretSkip _ => true
  | _ => false

/-- The other instructions before the effect of which the copies of a redundant pair are compared (R376, R238): stores, atomics, SPAWN, EXIT,
and the engine and system instructions of R231. -/
def compares (i : Instr) : Bool :=
  match i with
  | .spawn _ | .exit _ | .trial _ | .lqput _ | .cbwr _
  | .mxgo _ | .mxclr _ | .accrd _ | .accwr _ | .cpyCopy _ | .cpyFill _ | .cpyLook _ | .selRun _ | .st _ _ | .xst _ _ | .sst _ _
  | .amoAddB32 _ | .amoAddB64 _ | .amoMinI32 _ | .amoMinN32 _ | .amoMaxI32 _ | .amoMaxN32 _ | .amoAndB32 _ | .amoOrB32 _ | .amoXorB32 _
  | .obres _ | .obrel _ | .permit _ | .rand _ | .sigfB32 _ | .sigfB64 _ | .amoSwapB32 _ | .amoSwapB64 _ | .amoCasB32 _ | .amoCasB64 _ | .amoCasB128 _ | .amoFaddF32 _ => true
  | _ => false

/-- A redundant pair meets a mismatch (R376, R377) at the compared instruction that it is about to execute: the instruction is executed once
more; a second mismatch there counts as an uncorrectable error consumed. A thread that would wait there is not about to execute it. -/
def dmrMismatch (s : State) (k : Key) : State :=
  match s.thread? k with
  | none => s
  | some t =>
    let due := match fetch (s.enterThread t) with
      | .ok (i, _) => transfers i || (compares i && t.guard i)
      | .error _ => false
    if !(t.dmr && isReady s t && due) || waitsNow s t then s
    else if !t.dmrMiss then s.setThread { t with dmrMiss := true }
    else consume s k.part t.launch k.core t.tid.toNat t.pc 6 8 0

/-! ### PC classes (R17) -/

/-- A thread belongs to a class: the same PC, launch and kind of fetch. -/
def PcClass.has (c : PcClass) (t : Thread) : Bool := t.pc == c.pc && t.launch == c.launch && t.trial.isSome == c.bank

/-- Some of these threads belong to the class. -/
def PcClass.hasAny (c : PcClass) (ts : List Thread) : Bool := ts.any c.has

/-- Two classes of the same threads. -/
def PcClass.same (c d : PcClass) : Bool := c.pc == d.pc && c.launch == d.launch && c.bank == d.bank

/-- The class that the picker issues from. -/
def Picker.current (p : Picker) : Option PcClass :=
  match p.chosen with
  | none => none
  | some n => p.active.find? fun c => c.born == n

/-- The picker has no class to issue from. -/
def Picker.over (p : Picker) : Picker := { p with chosen := none, switch := false, lead := none, issued := [] }

/-- The chosen class goes on at another PC: it takes the place of the class that stands there. -/
def Picker.moveTo (p : Picker) (c : PcClass) (pc : DWord) : Picker :=
  let d := { c with pc := pc }
  { p with
    active := (p.active.filter fun e => e.born == c.born || !e.same d).map fun e => if e.born == c.born then d else e
    pending := p.pending.filter fun e => !e.same d
    lead := none, issued := [] }

/-- The picker issues from the chosen class while it has a ready thread that has not issued there; then the class goes on where its first
gang has gone, unless it has reached a switch point or no ready thread is there (R18). That a class goes on in the threads it has issued,
where its lowest TID has gone, is DEDUCED (notes/assumptions/46.md): were a class over once its threads have left its PC, every
instruction would be a switch point. -/
def Picker.endTurn (p : Picker) (rdy : List Thread) : Picker :=
  match p.current with
  | none => p.over
  | some c =>
    if rdy.any fun t => c.has t && !p.issued.contains t.key.slot then p
    else match p.switch, p.lead with
      | false, some pc => if { c with pc := pc : PcClass }.hasAny rdy then p.moveTo c pc else p.over
      | _, _ => p.over

/-- A class without threads is no more. -/
def Picker.sweep (p : Picker) (ts : List Thread) : Picker :=
  { p with active := p.active.filter fun c => c.hasAny ts, pending := p.pending.filter fun c => c.hasAny ts }

/-- A class as it becomes active: its age goes on, for it is counted from its last issue (R17). -/
def PcClass.begin (c : PcClass) : PcClass := { c with held := 0, waited := 0 }

/-- Classes without a ready thread do not count as waiting for their turn (R18). -/
def Picker.reckon (p : Picker) (rdy : List Thread) : Picker :=
  { p with
    active := p.active.map fun c => if c.hasAny rdy then c else { c with waited := 0 }
    pending := p.pending.map fun c => if c.hasAny rdy then c else { c with held := 0 } }

/-- The first of classes by a count of theirs: the greatest count, and of two equal ones the class that arose first. -/
def PcClass.foremost (f : PcClass → Nat) (cs : List PcClass) : Option PcClass :=
  let top := cs.foldl (fun m c => max m (f c)) 0
  minBy (fun (c : PcClass) => c.born) (cs.filter fun c => f c == top)

/-- Of classes served one a rotation, those of greatest count first, some class would be served past its bound if none were served now: with
k + 1 of them at the bound less k or beyond, the last one is. -/
def PcClass.pressed (bound : Nat) (f : PcClass → Nat) (cs : List PcClass) : Bool :=
  (List.range bound).any fun k => decide (k < cs.countP fun c => decide (bound ≤ f c + k))

/-- The pending class that becomes active next: the oldest one that has a ready thread (R17); but where the next rotation would pass the bound
of R18 for another, the one that has been pending and ready for the most rotations. -/
def Picker.pick (p : Picker) (rdy : List Thread) : Option PcClass :=
  match p.pending.filter fun c => c.hasAny rdy with
  | [] => none
  | d :: ds => if PcClass.pressed 15 PcClass.held ds then PcClass.foremost PcClass.held (d :: ds) else some d

/-- A pending class becomes active. -/
def Picker.enter (p : Picker) (d : PcClass) : Picker :=
  { p with active := p.active ++ [d.begin], pending := p.pending.filter fun c => c.born != d.born }

/-- Pending classes become active while fewer than 8 are (R17): those with ready threads first, then the oldest. The first argument bounds their
number. -/
def Picker.fill (rdy : List Thread) : Nat → Picker → Picker
  | 0, p => p
  | n + 1, p =>
    if 8 ≤ p.active.length then p
    else match (p.pick rdy).orElse fun _ => p.pending.head? with
      | some d => fill rdy n (p.enter d)
      | none => p

/-- The classes that arise are pending, those of lower TIDs first. -/
def Picker.arise (p : Picker) (ts : List Thread) : Picker :=
  (sortBy (fun (t : Thread) => t.tid.toNat) ts).foldl (fun (p : Picker) t =>
    if (p.active ++ p.pending).any fun c => c.has t then p
    else { p with pending := p.pending ++ [⟨t.pc, t.launch, t.trial.isSome, 0, p.next, 0, 0⟩], next := p.next + 1 }) p

/-- Swap an active class for a pending one. The class swapped out is the last of the pending ones: the oldest pending class is the one that
has been pending longest (DESIGN CHOICE, notes/assumptions/46.md). -/
def Picker.swap (p : Picker) (out into : PcClass) : Picker :=
  { p with
    active := p.active.map fun c => if c.born == out.born then into.begin else c
    pending := (p.pending.filter fun c => c.born != into.born) ++ [{ out with held := 0, waited := 0 }] }

/-- An active class all of whose threads wait is swapped out for the oldest pending class that has a ready thread (R17). -/
def Picker.evict (p : Picker) (rdy : List Thread) : Picker :=
  p.active.foldl (fun (p : Picker) c =>
    if p.chosen == some c.born || c.hasAny rdy then p
    else match p.pick rdy with
      | some d => p.swap c d
      | none => p) p

/-- Rotations go by: every age grows, and the counts of the classes that have a ready thread. -/
def Picker.tick (p : Picker) (rdy : List Thread) : Picker :=
  { p with
    active := p.active.map fun c => { c with age := c.age + 1, waited := if c.hasAny rdy then c.waited + 1 else 0 }
    pending := p.pending.map fun c => { c with age := c.age + 1, held := if c.hasAny rdy then c.held + 1 else 0 } }

/-- A pending class with a ready thread becomes active by its sixteenth rotation (R18): where one of them would otherwise come too late, the one
that has waited longest takes the place of the class whose turn has just ended, `done`, if it is still active; no class that waits for
its turn makes room (DESIGN CHOICE, notes/assumptions/46.md: R18 states the bound, and no rule says which class makes room nor when). -/
def Picker.letIn (p : Picker) (rdy : List Thread) (done : Option Nat) : Picker :=
  let ds := p.pending.filter fun c => c.hasAny rdy
  if PcClass.pressed 16 PcClass.held ds then
    match PcClass.foremost PcClass.held ds, p.active.find? fun c => done == some c.born with
    | some d, some c => p.swap c d
    | _, _ => p
  else p

/-- The class a rotation chooses (R17): of the active classes with a ready thread, the one of greatest age, the older one of two of equal age;
but where another would then be passed by at its eighth rotation (R18), the one that has been active and ready for the most rotations. The
rule of ages alone keeps that bound only among classes that are active together: a class swapped in brings its age with it (DESIGN CHOICE,
notes/assumptions/46.md). -/
def Picker.choice (p : Picker) (rdy : List Thread) : Option PcClass :=
  let rs := p.active.filter fun c => c.hasAny rdy
  match PcClass.foremost PcClass.age rs with
  | none => none
  | some c =>
    if PcClass.pressed 8 PcClass.waited (rs.filter fun d => d.born != c.born) then PcClass.foremost PcClass.waited rs else some c

/-- A rotation (R17, R18), after the turn of class `done`, if one has just ended. -/
def Picker.rotate (p : Picker) (rdy : List Thread) (done : Option Nat) : Picker :=
  let p := (p.tick rdy).letIn rdy done
  match p.choice rdy with
  | none => { p with chosen := none }
  | some c => { p with
      chosen := some c.born
      active := p.active.map fun d => if d.born == c.born then { d with waited := 0 } else d }

/-- A picker before its next gang: its share of the threads are `ts`, of which `rdy` are ready. -/
def Picker.refresh (p : Picker) (ts rdy : List Thread) : Picker :=
  let e := p.endTurn rdy
  let done := if e.chosen.isNone then p.chosen else none
  let q := ((e.sweep ts).reckon rdy).fill rdy 8
  let q := ((q.arise ts).fill rdy 8).evict rdy
  if q.chosen.isNone && q.active.any fun c => c.hasAny rdy then q.rotate rdy done else q

/-- The pickers of a core, before the next gang. -/
def refreshCtx (s : State) (c : Ctx) : Ctx :=
  let ts := (s.threadsOn c.part c.core).filter fun t => t.park == .none
  { c with pickers := c.pickers.mapIdx fun i p =>
      let mine := ts.filter fun t => t.picker == i
      p.refresh mine (mine.filter (isReady s)) }

/-- Every picker, before the next gang. -/
def refreshPickers (s : State) : State := s.mapHw fun h => { h with ctxs := h.ctxs.map (refreshCtx s) }

/-! ### Issuing (R18) -/

/-- The thread is of the class that its picker issues from, and has not issued there. -/
def mayPick (s : State) (k : Key) : Bool :=
  match s.thread? k with
  | none => false
  | some t => match (s.hw.ctx k.part k.core).pickers[t.picker]? with
    | none => false
    | some p => !p.issued.contains k.slot && match p.current with
      | none => false
      | some c => c.has t

/-- A move of the schedule, without the threads that no picker issues. -/
def admitted (s : State) (m : Move) : Move :=
  match m with
  | .issue k => if mayPick s k then m else .gang k.part k.core []
  | .gang part core slots => .gang part core (slots.filter fun n => mayPick s ⟨part, core, n⟩)
  | m => m

/-- An instruction that a thread has completed, from a PC to the next one, is a switch point (R18, R89, R157, R164, R190, R206): a taken BR whose
offset is not positive, and any other transfer of control to or below its own address; for the others the guard is `took`. A cross-lane instruction is one whatever its guard, for its member arrives (R206). -/
def isSwitch (i : Instr) (took : Bool) (pc next : DWord) : Bool :=
  match i with
  | .yield _ | .await _ | .exit _ | .cwait _ | .cbar _ | .ccompact _ => took
  | .br b => decide (b.off.toInt ≤ 0) && next == branchTarget pc b.off
  | .jmp _ | .call _ | .calli _ | .ret _ | .csw _ | .tretRetry _ | .tretSkip _ => took && decide (next.toNat ≤ pc.toNat)
  | i => match i.form with
    | .lane major _ _ _ => (major == 14 && took) || major == 15
    | _ => false

/-- A class has issued: one of its threads has completed an instruction, and stands at a PC unless it has exited. -/
def Picker.note (p : Picker) (t : Thread) (next : Option DWord) (switch : Bool) : Picker :=
  match p.current with
  | none => p
  | some c =>
    if !c.has t then p
    else { p with
      active := p.active.map fun d => if d.born == c.born then { d with age := 0 } else d
      switch := p.switch || switch
      lead := if p.lead.isSome then p.lead else next.filter fun pc => pc != t.pc
      issued := t.key.slot :: p.issued }

/-- The picker of a thread that has tried to issue: nothing where the thread waits, has parked or has trapped instead. -/
def noteIssue (s : State) (t : Thread) (i : Instr) : State :=
  let after : Option Thread := (s.thread? t.key).filter fun (u : Thread) => u.tid == t.tid && u.launch == t.launch
  let tried := match after with
    | none => false
    | some (u : Thread) => u.park != Park.none || (u.tstate && !t.tstate) || (match u.wait with
      | .retry _ _ => true
      | _ => false)
  if tried then s
  else s.mapHw fun h =>
    let c := h.ctx t.key.part t.key.core
    match c.pickers[t.picker]? with
    | none => h
    | some p =>
      let switch := isSwitch i (t.guard i) t.pc ((after.map fun (u : Thread) => u.pc).getD t.pc)
      h.setCtx { c with pickers := c.pickers.set t.picker (p.note t (after.map fun (u : Thread) => u.pc) switch) }

end Sys2Proof.Machine
end

