-- ==== Sys2Proof/Machine/Moves.lean ====
section
/-!
DEFINITION. Sys2Proof/Machine/Moves.lean: the moves of the module: a thread's issue, a gang, a step of the hardware or of the outside, the
performing of an access, and what follows each of them.
-/
namespace Sys2Proof.Machine

/-- A thread issues its next instruction: fetch, decode, execute. -/
def issueStep (s : State) (k : Key) : Host.Outcome State Fault Refusal :=
  match s.thread? k with
  | none => .next s
  | some t =>
    if mayIssue s t then
      let s := s.enterThread t
      match fetch s with
      | .error e => .next (stopped s e).leaveThread
      | .ok (i, s) => match exec i s with
        | .next s => .next (noteIssue s.leaveThread t i)
        | .fault f => .fault f
        | .refused f => .refused f
    else .next s

/-- A thread that runs reads ahead (R298, R299); not one whose example is being set up (R345). -/
def aheadStep (s : State) (k : Key) (r : Route) (place : Nat) : State :=
  match s.thread? k with
  | none => s
  | some t =>
    let loading := match t.trial with
      | some x => x.loading
      | none => false
    if loading || !contextRuns s k.part k.core then s else s.mapHw fun h => readAhead h t r place

/-- A unit of an outstanding access is performed (R291), unless a peer owes its answer (R406). -/
def performStep (s : State) (id u : Nat) (home : Bool) : State :=
  match s.hw.pends.find? fun p => p.id == id with
  | none => s
  | some p => if p.units.contains u && !(peerHeld s p) then s.mapHw fun h => performAt home (h.pends.length + 1) h id [u] else s

/-- An event, with the transaction that it takes its data from. -/
def eventStep (s : State) (i : Instr) (p : Port) : Host.Outcome State Fault Refusal :=
  if isEvent i then exec i { s with port := p } else .next s

/-- One move (R14, R413). -/
def moveEffect (s : State) (m : Move) : Host.Outcome State Fault Refusal :=
  match m with
  | .issue k => issueStep s k
  | .gang part core slots => .next (startGang s part core slots)
  | .event i p => eventStep s i p
  | .perform id u home => .next (performStep s id u home)
  | .home part core id => .next (s.mapHw fun h => drainOut h part core [id])
  | .mxRead part core key => .next (mxReadAhead s part core key)
  | .barRead fn off => .next (barRead s fn off)
  | .outside id n => .next (outsideByte s id n)
  | .copyByte part core id n => .next (copyByte s part core id n)
  | .selByte part core id n => .next (selByte s part core id n)
  | .mxByte part core id n => .next (mxByte s part core id n)
  | .lookupPart part core id => .next (lookupPart s part core id)
  | .exampleByte k n => .next (exampleByte s k n)
  | .recordsApart on => .next (s.mapHw fun h => { h with apart := on })
  | .recordPart part launch n => .next (recordPart s part launch n)
  | .readAhead k r place => .next (aheadStep s k r place)
  | .prefetch part core con key => .next (s.mapHw fun h => prefetch h part core con key)
  | .barWrite fn link off v pass =>
    if s.mod.inReset then .next s else eventStep (finishPosted s fn link) (barWrite fn link off v pass).1 (barWrite fn link off v pass).2
  | .barResize size => .next (resizeBar s size)
  | .pass ns => .next { s with time := s.time + ns }
  | .upset w double => .next (upset s w double)
  | .dmrMismatch k => .next (dmrMismatch s k)

/-- What follows a move: errors are counted and consumed, records that waited are written, doorbells that waited are rung (R288, R364,
R370, R371), accesses that wait to be attempted again are (R366), patches begin to wait (R397), and the stores whose time is up reach their homes (R283, R306). -/
def afterMove (s : State) : State :=
  let s := holdPatches (retryAccesses (ringAllBells (settle s)))
  s.mapHw fun h => (h.ctxs.filter Ctx.storesUnderWay).foldl (fun h c => drainDue h c.part c.core) h

/-- One move and what follows it. -/
def moveStep (s : State) (m : Move) : Host.Outcome State Fault Refusal :=
  match moveEffect s m with
  | .next s => .next (afterMove s)
  | .fault f => .fault f
  | .refused f => .refused f

/-- The move that the schedule chooses (R17, R18): threads whose waits are over wake, every picker has its class, and a new gang
begins (R15). -/
def scheduledMove (s : State) : Host.Outcome State Fault Refusal :=
  let s := newGang (refreshPickers (wakeAll { s with ticks := s.ticks + 1 }))
  moveStep s (admitted s (Config.schedule (s.ticks - 1)))

end Sys2Proof.Machine
end

