-- ==== Sys2Proof/Machine/Step.lean ====
section
/-!
DEFINITION. Sys2Proof/Machine/Step.lean: one step of the module, and placing an instruction for the next step.
-/
namespace Sys2Proof.Machine

/-- One step of the module: the next move of the agenda, else the one that the schedule chooses. -/
def step (s : State) : Host.Outcome State Fault Refusal :=
  match s.agenda with
  | m :: rest => moveStep { s with agenda := rest } m
  | [] => scheduledMove s

/-- The state with an instruction of `nbits` bits stored where the next step fetches it: for thread slot 0 of core 0 of partition 0,
which the next move issues. The bits above `nbits`, up to eight bytes, are 0. -/
def State.withFetchWord (s : State) (nbits w : Nat) : State :=
  { s with
    th := Thread.idle
    hw := placeCode s.hw (leBytes 8 (w % 2 ^ nbits))
    agenda := [.issue placedThread.key] }

end Sys2Proof.Machine
end

