-- ==== Sys2Proof/Safety.lean ====
section
/-!
DEFINITION. Sys2Proof/Safety.lean: what counts as a safe run, and the terms in which the claims about the machine are stated: when an
instruction reaches its own effect, when it completes, and what a state must meet.
-/
namespace Sys2Proof.Machine

/-! ### Safe runs -/

/-- A step is safe: the machine goes on. -/
def SafeStep (s : State) : Prop := ∃ s', step s = .next s'

/-- A run of `n` steps is safe. -/
def SafeRun : Nat → State → Prop
  | 0, _ => True
  | n + 1, s => ∃ s', step s = .next s' ∧ SafeRun n s'

/-- The memories that hold bytes of the module are in their canonical form. -/
def State.canonical (s : State) : Prop := swf s.hw.mem = true

/-- The module's registers hold what their writes allow (R290, R407): 1,000 W ≤ PWRLIM ≤ 2,200 W, TIERWM.low ≤ TIERWM.high. -/
def Module.legal (m : Module) : Prop := 1000 ≤ m.pwrlim.toNat ∧ m.pwrlim.toNat ≤ 2200 ∧ m.tierLow.toNat ≤ m.tierHigh.toNat

/-! ### Instructions -/

/-- An instruction reaches its own effect as the thread `t`: every register it names lies in the window (R31), a trial has paid for it
(R347), its guard is true (R141), and a trial is not ended by it (R54). Outside trials `t` is the thread as it was. -/
structure Entered (i : Instr) (s : State) (t : Thread) : Prop where
  regs : s.th.regsOk i = true
  paid : s.th.charge i = some t
  guarded : t.guard i = true
  allowed : (t.trial.isSome && trialForbidden i) = false

/-- An instruction completes with its thread as `u`, past the instruction, and everything else as it was. -/
def Completes (i : Instr) (s : State) (u : Thread) : Prop := exec i s = .next (s.setTh (u.past i.length))

/-- An instruction completes with the state as `s'`, its thread past the instruction. -/
def CompletesAs (i : Instr) (s s' : State) : Prop := exec i s = .next (s'.advance i.length)

/-- An instruction that sets the PC completes with the state as `s'`. -/
def JumpsAs (i : Instr) (s s' : State) : Prop := exec i s = .next s'.settled

/-- An instruction does not complete. -/
def StopsWith (i : Instr) (s : State) (t : Thread) (e : Stop) : Prop := exec i s = .next (stopped (s.setTh t) e)

/-- The `n` cells from `i` up are full. -/
def Thread.fullAt (t : Thread) (i n : Nat) : Prop := ∀ j, i ≤ j → j < i + n → (t.cell j).full = true

/-- Every cell of the sources is full. -/
def Thread.sourcesFull (t : Thread) (xs : List Source) : Prop := ∀ x ∈ xs, t.fullAt x.2.1 x.2.2

/-- Every byte of memory reads in `s'` as in `s`. -/
def SameMemory (s s' : State) : Prop := ∀ k, sget s'.hw.mem k = sget s.hw.mem k

/-- Every byte of memory outside some keys reads in `s'` as in `s`. -/
def SameMemoryBut (ks : List Nat) (s s' : State) : Prop := ∀ k, k ∉ ks → sget s'.hw.mem k = sget s.hw.mem k

/-- The registers of a thread that no instruction of the lane and scalar arithmetic majors writes but through its flags: crew state, TILE,
PREC, the trap registers, FUEL, SIG and SIGN, SEED, and the counts of commands (R41). -/
def Thread.sameSystem (t u : Thread) : Prop :=
  u.key = t.key ∧ u.launch = t.launch ∧ u.tid = t.tid ∧ u.win = t.win ∧ u.mode = t.mode ∧ u.crew = t.crew ∧ u.rank = t.rank ∧
  u.tile = t.tile ∧ u.prec = t.prec ∧ u.ltv = t.ltv ∧ u.ltc = t.ltc ∧ u.ltip = t.ltip ∧ u.ltval = t.ltval ∧ u.tstate = t.tstate ∧
  u.fuel = t.fuel ∧ u.sig = t.sig ∧ u.sign = t.sign ∧ u.seed = t.seed ∧ u.randN = t.randN ∧ u.cmds = t.cmds ∧ u.issued = t.issued ∧
  u.tickets = t.tickets ∧ u.trial = t.trial

end Sys2Proof.Machine
end

