-- ==== Sys2Proof/Certificates/Slice0/Obligations.lean ====
section
/-!
DEFINITION. Sys2Proof/Certificates/Slice0/Obligations.lean: the statements about the K48 for the provers.
-/
open Sys2Proof Sys2Proof.Machine

/-! ### Reset, fetching and decoding -/

/-- What the spec states for reset (R410 step 2, R281, R319, R368, R373, R309, R365, R13, R399, R290, R370, R407): device memory reads 0,
no launch and no thread, the registers of every partition and of the module at their reset values. The layout of one partition with 48
cores is the model's choice (log entry 22). -/
def Obligations.ResetLeavesSpecifiedValues : Prop :=
  let s := State.reset
  (∀ k, sget s.hw.mem k = 0#8) ∧ s.hw.launches = [] ∧ s.hw.threads = [] ∧ s.th.live = false ∧ s.time = 0 ∧
  (∀ p ∈ s.hw.parts, p.xlroot = 0 ∧ p.xlinv = 0 ∧ p.balcfg = 0x40 ∧ p.wdcfg = 1000000 ∧ p.stgcfg = 0 ∧ p.flttgt = 0 ∧
    p.fltErr = false ∧ p.stkap = 0 ∧ p.pswap = 0 ∧ p.lqovf = 0 ∧ p.ver = 1 ∧ p.tlb = [] ∧ ∀ q, q < 16 → p.queue q = ⟨[], false, none⟩) ∧
  s.mod.pwrlim = 1900 ∧ s.mod.tierHigh = 2048 ∧ s.mod.tierLow = 1024 ∧ ∀ c : Fin 6, s.mod.ecc[c] = 0

/-- A step runs the decoded instruction: where the next move is the issue of a resident thread that may issue, its word at the PC is
fetched, with the word after it where bit 30 says so, and the words decode to `i`, the step is `i` executed as that thread; then the thread
goes back to its slot, its picker notes the issue (R18), and what follows a move is settled. -/
def Obligations.StepRunsDecodedInstruction : Prop :=
  ∀ (s s1 s2 : State) (k : Key) (rest : List Move) (t : Thread) (w0 w1 : Word) (i : Instr),
    s.agenda = .issue k :: rest →
    ({ s with agenda := rest } : State).thread? k = some t →
    mayIssue { s with agenda := rest } t = true →
    fetchWord (({ s with agenda := rest } : State).enterThread t) t.pc = .ok (w0, s1) →
    (if hasExtension w0 then fetchWord s1 (s1.th.pc + 4) = .ok (w1, s2) else s2 = s1) →
    decode s2.th.mode w0 w1 = .ok i →
    step s = (match exec i s2 with
      | .next s' => .next (afterMove (noteIssue s'.leaveThread t i))
      | .fault f => .fault f
      | .refused r => .refused r)

/-- Words written out bit by bit from the encodings of the spec's own examples decode to the instructions that they stand for (R86, R88,
R89, R91, R92, R99, R104, R107; the words are those of R109, R148, R151, R199 and R204). -/
def Obligations.ExampleWordsDecode : Prop :=
  let o (d a b : BitVec 7) : LaneOps :=
    { x := false, pg := 7, pn := false, ep := false, d := d, a := a, b := .cell b, na := .full, nb := .full, nd := .full, c := 0, ro := 0,
      falt := false, mod := 0 }
  decode .z3 0x00000000 0 = .ok (.iadd (o 0 0 0)) ∧
  decode .z3 0x0A414082 0 = .ok (.fmul (o 5 1 2)) ∧
  decode .z3 0x0A014283 0 = .ok (.fadd (o 5 5 3)) ∧
  decode .z3 0x40014103 0xE0000019 = .ok (.iadd { o 5 2 3 with x := true, mod := 0b11001 }) ∧
  decode .z3 0x4A610082 0xE0000060 = .ok (.ffma { o 4 1 2 with x := true, c := 3 }) ∧
  decode .z3 0x50818380 0xE0000001 = .ok (.fcvt 4 { o 6 7 0 with x := true, mod := 1 }) ∧
  decode .z3 0xFFFFFFFF 0 = .ok (.unassignedMajorOrMinor .major)

/-- Decoding the words that `encode` writes gives the instruction back, for every instruction that the encoding admits and every value of
its operands (R83 to R107). The steps without an encoding have no words. -/
def Obligations.DecodeInvertsEncode : Prop :=
  ∀ i : Instr, i.WellFormed → i.form ≠ .step → decodeWords .z3 (encode i) = .ok i

/-- Whatever the decoder accepts is an instruction that the encoding admits, or the step that raises ILL for an unassigned or removed code
(R101 checks 3 and 4, R108). -/
def Obligations.DecodedIsWellFormed : Prop :=
  ∀ (m : DecodeMode) (w0 w1 : Word) (i : Instr), decode m w0 w1 = .ok i →
    i.WellFormed ∧ (i.form = .step → ∃ why, i = .unassignedMajorOrMinor why)

/-- A word of an unassigned major (V 0x12..0x1F, S 0x13..0x1F) raises ILL with detail 0, outside trials as a supervisor fault with the word
in its record, whatever the decode mode (R108, R109, R101 check 3). -/
def Obligations.UnassignedMajorRaisesIll : Prop :=
  ∀ (m : DecodeMode) (w0 w1 : Word), (if w0[31] then 0x13 else 0x12) ≤ (w0.extractLsb' 25 5).toNat →
    decode m w0 w1 = .ok (.unassignedMajorOrMinor .major) ∧
    ∀ s w s1, fetchWord s s.th.pc = .ok (w, s1) →
      exec (.unassignedMajorOrMinor .major) s = .next (stopped s1 (.fault ⟨3, 0, false, false, w.zeroExtend 64, 0⟩)) ∧
      exec (.unassignedMajorOrMinor .minor) s = .next (stopped s1 (.fault ⟨3, 1, false, false, w.zeroExtend 64, 0⟩)) ∧
      exec (.unassignedMajorOrMinor .removed) s = .next (stopped s1 (.fault ⟨3, 4, false, false, w.zeroExtend 64, 0⟩))

/-! ### The frame of every instruction -/

/-- An instruction whose form goes through the common frame: every instruction with an encoding but the cross-lane ones, at which a thread
with a false guard still arrives (R206), and BR, which has no guard (R89). -/
def Guardable (i : Instr) : Prop :=
  match i.form with
  | .lane major _ _ _ => major ≠ 15
  | .scalar _ _ _ _ => True
  | _ => False

/-- A false guard: no effect but the advance of the PC past the instruction, and one unit of fuel in a trial (R141). An instruction that names
a cell at or above the window raises ILL with detail 3 before anything else, whatever its guard (R31, R101 check 5, R109). -/
def Obligations.GuardAndWindowChecks : Prop :=
  ∀ (i : Instr) (s : State),
    (∀ t, Guardable i → s.th.regsOk i = true → s.th.charge i = some t → t.guard i = false →
      Completes i s t ∧ (s.th.trial = none → t = s.th) ∧
      (s.th.trial.isSome = true → s.th.charged = false → t.fuel = s.th.fuel - 1)) ∧
    (Guardable i ∨ (∃ minor sig o, i.form = .lane 15 minor sig o) → s.th.regsOk i = false →
      exec i s = .next (stopped s (.fault ⟨3, 3, false, false, (firstWord i).zeroExtend 64, 0⟩)))

/-- A local trap is delivered to the handler, or escalated: outside trials, with LTV ≠ 0 and TSTATE.T = 0, LTIP, LTC, LTVAL, TSTATE.T and
the PC take the values of R50 and nothing else of the state but the sticky flags changes; otherwise the thread parks with the supervisor
fault ESCALATED, and LTC, LTIP and LTVAL stay. That the sticky flags are set also where the trap escalates, although a supervisor fault leaves
no effect of its instruction (R360), is the model's choice (log entry 45). -/
def Obligations.LocalTrapIsDelivered : Prop :=
  ∀ (s : State) (cause det : BitVec 8) (val : DWord) (xf : BitVec 6) (fc : BitVec 25), s.th.trial = none →
    (s.th.tstate = false → s.th.ltv ≠ 0 →
      stopped s (.trap cause det val xf fc) = s.setTh { s.th with
        xflags := s.th.xflags ||| xf, fcsr := s.th.fcsr ||| fc, ltip := s.th.pc, ltc := det ++ cause, ltval := val, tstate := true,
        pc := s.th.ltv, wait := .none, charged := false, latch := none, dmrMiss := false }) ∧
    (s.th.tstate = true ∨ s.th.ltv = 0 →
      let u := { s.th with xflags := s.th.xflags ||| xf, fcsr := s.th.fcsr ||| fc }
      stopped s (.trap cause det val xf fc) =
        takeFault (s.setTh u) ⟨6, if s.th.tstate then 0 else 1, false, false, val, cause⟩)

/-- The 32 bytes of a record, with the mark of records lost before it where `lost` says so (R361, R364). -/
def markedRecord (lost : Bool) (bytes : List Byte) : List Byte :=
  if lost then bytes.take 2 ++ [bytes.getD 2 0 ||| 16#8] ++ bytes.drop 3 else bytes

/-- A record that is written apart is written in four aligned 8-byte parts, each at once, bytes 24..31 last; with the last of them it is written,
and the message is due (R364). A record that is still to be written as its launch ends keeps that launch's loss mark and its pending bit. -/
def RecordPartRules : Prop :=
  (∀ (s : State) (part launch n : Nat) (r : RecWait) (l : Launch), s.canonical →
    s.hw.records.find? (fun x => x.part == part && x.launch == launch) = some r → s.hw.launch? part launch = some l → r.bytes.length = 32 →
    n < 4 → n ∉ r.put →
    let u := recordPart s part launch n
    let bytes := markedRecord (r.put.isEmpty && l.lossMark) r.bytes
    (n = 3 → r.put.length < 3 → u = s) ∧
    (n ≠ 3 ∨ 3 ≤ r.put.length → ∀ xs, checkGen s (systemWho part) .store (r.addr + BitVec.ofNat 64 (8 * n)) 8 = .ok xs →
      SameMemoryBut (xkeys xs ++ xs.map fun x => devKey x.2.2.pteAddr) s u ∧
      ((xkeys xs).Nodup → (xkeys xs).map (sget u.hw.mem) = (bytes.drop (8 * n)).take 8) ∧
      (n ≠ 3 → u.hw.out = s.hw.out ∧ { r with bytes := bytes, put := n :: r.put } ∈ u.hw.records ∧
        u.hw.records.length = s.hw.records.length) ∧
      (n = 3 → u.hw.records.length + 1 = s.hw.records.length ∧
        u.hw.out = if l.irq then s.hw.out else s.hw.out ++ [.msix (part + 1) 0]))) ∧
  (∀ (s : State) (part launch : Nat) (l : Launch), s.hw.launch? part launch = some l → ∀ r ∈ (dropLaunch s part launch).hw.records,
    r.part = part → r.launch = launch → r.gone = some (l.lossMark, l.irq)) ∧
  ∀ (s : State) (xs : Xlated) (r : RecWait) (m irq : Bool), s.canonical → s.hw.launch? r.part r.launch = none → r.gone = some (m, irq) →
    r.bytes.length = 32 → xs.length = 32 → (xkeys xs).Nodup →
    (xkeys xs).map (sget (writeRecord s xs r).hw.mem) = markedRecord m r.bytes ∧
    (writeRecord s xs r).hw.out = if irq then s.hw.out else s.hw.out ++ [.msix (r.part + 1) 0]

/-- A supervisor fault outside a trial parks the thread at its instruction, every other register as it was. Its record goes to FADDR +
32 × seq where FADDR is a multiple of 32, the fault area has room for it and the partition may write there: then these 32 bytes, with the mark
of records lost since the last one written, and no others change, but for REF and D of the entries that translate them; where FADDR is no
multiple of 32, or it has no room or meets a fault, it is lost and counted; a record written or lost gives the message of the partition's own
vector (number part + 1 of the model's messages) unless the last one of the launch is unacknowledged; with no launch all stays as it was
(R279, R360, R361, R364). DEDUCED (log entry 31) is that a lost record takes its sequence number, sets the pending bit and sends the message,
that a misaligned FADDR counts as lost, that a record whose page is not resident or is staged waits, and that the later ones of its launch wait
behind it. The record is written in one step, or, where the machine writes records apart, in the parts of `RecordPartRules`. -/
def Obligations.SupervisorFaultParksAndRecords : Prop :=
  RecordPartRules ∧ ∀ (s : State) (f : SupFault), s.th.trial = none → s.canonical →
    let u := takeFault s f
    u.th = { s.th with park := .fault, wait := .none } ∧
    (s.hw.launch? s.th.key.part s.th.launch = none → u.hw = s.hw) ∧
    ∀ l, s.hw.launch? s.th.key.part s.th.launch = some l →
      let at_ := l.faddr + BitVec.ofNat 64 (32 * l.seq)
      let bytes := Rec.bytes ⟨f.cause.toNat, f.detail.toNat, (if f.store then 1 else 0) + (if f.fetch then 2 else 0), s.th.key.core,
        s.th.tid.toNat, s.th.pc, f.val, f.sub.toNat, 0⟩ l.seq
      let me : RecWait := ⟨s.th.key.part, s.th.launch, at_, bytes, [], none⟩
      let behind := s.hw.records.any fun x => x.part == s.th.key.part && x.launch == s.th.launch
      let told := u.hw.out = if l.irq then s.hw.out else s.hw.out ++ [.msix (s.th.key.part + 1) 0]
      let lost := SameMemory s u ∧ u.hw.records = s.hw.records ∧ told ∧
        u.hw.launch? s.th.key.part s.th.launch = some { l with lost := l.lost + 1, lossMark := true, seq := l.seq + 1, irq := true }
      (l.faddr.toNat % 32 ≠ 0 ∨ l.fsize < 32 * (l.seq + 1) → lost) ∧
      (l.faddr.toNat % 32 = 0 → 32 * (l.seq + 1) ≤ l.fsize →
        (behind = true → SameMemory s u ∧ u.hw.records = s.hw.records ++ [me]) ∧
        (behind = false → ∀ e, checkGen s (systemWho s.th.key.part) .store at_ 32 = .error e →
          ((∃ g, e = .fault g) → lost) ∧ ((∀ g, e ≠ .fault g) → SameMemory s u ∧ u.hw.records = s.hw.records ++ [me])) ∧
        (behind = false → s.hw.apart = true → ∀ xs, checkGen s (systemWho s.th.key.part) .store at_ 32 = .ok xs →
          SameMemory s u ∧ u.hw.records = s.hw.records ++ [me]) ∧
        (behind = false → s.hw.apart = false → ∀ xs, checkGen s (systemWho s.th.key.part) .store at_ 32 = .ok xs →
          SameMemoryBut (xkeys xs ++ xs.map fun x => devKey x.2.2.pteAddr) s u ∧ u.hw.records = s.hw.records ∧ told ∧
          u.hw.launch? s.th.key.part s.th.launch = some { l with lossMark := false, seq := l.seq + 1, irq := true } ∧
          ((xkeys xs).Nodup → (xkeys xs).map (sget u.hw.mem) = markedRecord l.lossMark bytes)))

/-! ### The scalar set -/

/-- SALU and SSHIFT (R143): sd takes the effect of the table on the values of a and b, and nothing else changes but the PC. -/
def Obligations.ScalarAluAndShiftResults : Prop :=
  ∀ (o : ScalarOps) (s : State) (t : Thread),
    let a := t.code o.a
    let b := t.scalarB o.b
    let k := (b.extractLsb' 0 6).toNat
    let d := o.d.toNat
    (Entered (.add o) s t → Completes (.add o) s (t.setSreg d (a + b))) ∧
    (Entered (.sub o) s t → Completes (.sub o) s (t.setSreg d (a - b))) ∧
    (Entered (.minI o) s t → Completes (.minI o) s (t.setSreg d (if a.toInt ≤ b.toInt then a else b))) ∧
    (Entered (.maxI o) s t → Completes (.maxI o) s (t.setSreg d (if b.toInt ≤ a.toInt then a else b))) ∧
    (Entered (.minN o) s t → Completes (.minN o) s (t.setSreg d (if a.toNat ≤ b.toNat then a else b))) ∧
    (Entered (.maxN o) s t → Completes (.maxN o) s (t.setSreg d (if b.toNat ≤ a.toNat then a else b))) ∧
    (Entered (.and o) s t → Completes (.and o) s (t.setSreg d (a &&& b))) ∧
    (Entered (.or o) s t → Completes (.or o) s (t.setSreg d (a ||| b))) ∧
    (Entered (.xor o) s t → Completes (.xor o) s (t.setSreg d (a ^^^ b))) ∧
    (Entered (.andn o) s t → Completes (.andn o) s (t.setSreg d (a &&& ~~~b))) ∧
    (Entered (.shl o) s t → Completes (.shl o) s (t.setSreg d (a <<< k))) ∧
    (Entered (.shr o) s t → Completes (.shr o) s (t.setSreg d (a >>> k))) ∧
    (Entered (.sar o) s t → Completes (.sar o) s (t.setSreg d (BitVec.ofInt 64 (a.toInt / 2 ^ k)))) ∧
    (Entered (.rotl o) s t → Completes (.rotl o) s (t.setSreg d ((a <<< k) ||| (a >>> (64 - k)))))

/-- SMUL (R144): the low and high halves of the exact products, the quotients rounded toward zero and the remainders; division by zero
writes all ones, or A for REM, and raises the IDZ trap with LTVAL = A instead where FCSR.IDZE is set; −2^63 by −1 gives −2^63 and 0. -/
def Obligations.ScalarMultiplyDivideResults : Prop :=
  ∀ (o : ScalarOps) (s : State) (t : Thread),
    let a := t.code o.a
    let b := t.scalarB o.b
    let d := o.d.toNat
    let trap : Stop := .trap 0x92 0 a 0 0
    (Entered (.mul o) s t → Completes (.mul o) s (t.setSreg d (BitVec.ofNat 64 (a.toNat * b.toNat)))) ∧
    (Entered (.mulhI o) s t → Completes (.mulhI o) s (t.setSreg d ((a.signExtend 128 * b.signExtend 128).extractLsb' 64 64))) ∧
    (Entered (.mulhN o) s t → Completes (.mulhN o) s (t.setSreg d ((a.zeroExtend 128 * b.zeroExtend 128).extractLsb' 64 64))) ∧
    (b ≠ 0 →
      (Entered (.divI o) s t → Completes (.divI o) s (t.setSreg d (BitVec.ofInt 64 (a.toInt.tdiv b.toInt)))) ∧
      (Entered (.divN o) s t → Completes (.divN o) s (t.setSreg d (BitVec.ofNat 64 (a.toNat / b.toNat)))) ∧
      (Entered (.remI o) s t → Completes (.remI o) s (t.setSreg d (BitVec.ofInt 64 (a.toInt - b.toInt * a.toInt.tdiv b.toInt)))) ∧
      (Entered (.remN o) s t → Completes (.remN o) s (t.setSreg d (BitVec.ofNat 64 (a.toNat - b.toNat * (a.toNat / b.toNat)))))) ∧
    (b = 0 → t.fcsr[24] = false →
      (Entered (.divI o) s t → Completes (.divI o) s (t.setSreg d (-1))) ∧
      (Entered (.divN o) s t → Completes (.divN o) s (t.setSreg d (-1))) ∧
      (Entered (.remI o) s t → Completes (.remI o) s (t.setSreg d a)) ∧
      (Entered (.remN o) s t → Completes (.remN o) s (t.setSreg d a))) ∧
    (b = 0 → t.fcsr[24] = true →
      (Entered (.divI o) s t → StopsWith (.divI o) s t trap) ∧ (Entered (.divN o) s t → StopsWith (.divN o) s t trap) ∧
      (Entered (.remI o) s t → StopsWith (.remI o) s t trap) ∧ (Entered (.remN o) s t → StopsWith (.remN o) s t trap))

/-- SBIT (R145, R146, R59): leading and trailing zeros with 64 for 0, the 1-based lowest set bit with 0 for 0, the number of set bits, and the
bits in reverse; the field of B[14:8] bits at B[5:0], cut at the operand's width, which BFX extends by B[15] and BFI takes from the low bits
of A into the old sd. -/
def Obligations.ScalarBitResults : Prop :=
  ∀ (o : ScalarOps) (s : State) (t : Thread),
    let a := t.code o.a
    let b := t.scalarB o.b
    let d := o.d.toNat
    let pos := (b.extractLsb' 0 6).toNat
    let len := min (b.extractLsb' 8 7).toNat (64 - pos)
    let low : DWord := BitVec.ofNat 64 (2 ^ len - 1)
    let f := (a >>> pos) &&& low
    let mask := low <<< pos
    (Entered (.clz o) s t → ∃ n, Completes (.clz o) s (t.setSreg d (BitVec.ofNat 64 n)) ∧
      (if a = 0 then n = 64 else n < 64 ∧ 2 ^ (63 - n) ≤ a.toNat ∧ a.toNat < 2 ^ (64 - n))) ∧
    (Entered (.ctz o) s t → ∃ n, Completes (.ctz o) s (t.setSreg d (BitVec.ofNat 64 n)) ∧
      (if a = 0 then n = 64 else n < 64 ∧ a.toNat % 2 ^ n = 0 ∧ a.toNat % 2 ^ (n + 1) ≠ 0)) ∧
    (Entered (.ffs o) s t → ∃ n, Completes (.ffs o) s (t.setSreg d (BitVec.ofNat 64 n)) ∧
      (if a = 0 then n = 0 else 1 ≤ n ∧ n ≤ 64 ∧ a.toNat % 2 ^ (n - 1) = 0 ∧ a.toNat % 2 ^ n ≠ 0)) ∧
    (Entered (.popc o) s t → Completes (.popc o) s (t.setSreg d (BitVec.ofNat 64 ((List.range 64).countP fun i => a.getLsbD i)))) ∧
    (Entered (.brev o) s t → ∃ v : DWord, Completes (.brev o) s (t.setSreg d v) ∧ ∀ i, i < 64 → v.getLsbD i = a.getLsbD (63 - i)) ∧
    (Entered (.bfx o) s t → Completes (.bfx o) s (t.setSreg d
      (if b[15] && decide (0 < len) && f.getLsbD (len - 1) then f ||| ~~~low else f))) ∧
    (Entered (.bfi o) s t → Completes (.bfi o) s (t.setSreg d ((t.sreg d &&& ~~~mask) ||| ((a <<< pos) &&& mask))))

/-- The scalar compares, SEL and PLOP (R147): the compares and PLOP write predicate d, a write to p7 is discarded. MOVI and MOVHI (R148): sd
takes the sign-extended immediate, or is shifted left by 27 with the immediate in its low bits. -/
def Obligations.ScalarPredicateAndMoveResults : Prop :=
  ∀ (o : ScalarOps) (s : State) (t : Thread),
    let a := t.code o.a
    let b := t.scalarB o.b
    let d := o.d.toNat
    let pa := t.pred o.a.toNat
    let logic (m : BitVec 5) (pb : Bool) : Bool :=
      if m = 0 then pa && pb else if m = 1 then pa || pb else if m = 2 then pa ^^ pb else if m = 3 then pa && !pb
      else if m = 4 then !(pa || pb) else if m = 5 then !pa else pa
    (Entered (.cmpEq o) s t → Completes (.cmpEq o) s (t.setPred d (decide (a = b)))) ∧
    (Entered (.cmpNe o) s t → Completes (.cmpNe o) s (t.setPred d (decide (a ≠ b)))) ∧
    (Entered (.cmpLtI o) s t → Completes (.cmpLtI o) s (t.setPred d (decide (a.toInt < b.toInt)))) ∧
    (Entered (.cmpLeI o) s t → Completes (.cmpLeI o) s (t.setPred d (decide (a.toInt ≤ b.toInt)))) ∧
    (Entered (.cmpLtN o) s t → Completes (.cmpLtN o) s (t.setPred d (decide (a.toNat < b.toNat)))) ∧
    (Entered (.cmpLeN o) s t → Completes (.cmpLeN o) s (t.setPred d (decide (a.toNat ≤ b.toNat)))) ∧
    (Entered (.sel o) s t → Completes (.sel o) s (t.setSreg d (if t.pred (o.mod.extractLsb' 0 3).toNat then a else b))) ∧
    (∀ c, o.b = .code c → Entered (.plop o) s t → Completes (.plop o) s (t.setPred d (logic o.mod (t.pred c.toNat)))) ∧
    (∀ v, t.setPred 7 v = t) ∧
    ∀ i : BitVec 27, o.b = .imm i →
      (Entered (.movi o) s t → Completes (.movi o) s (t.setSreg d (i.signExtend 64))) ∧
      (Entered (.movhi o) s t → Completes (.movhi o) s (t.setSreg d ((t.sreg d <<< 27) ||| i.zeroExtend 64)))

/-- The frame of the scalar arithmetic majors SALU, SSHIFT, SMUL, SBIT, SCMP/SSEL/PLOP and SMOVI: one that reaches its own effect
completes or raises a trap that writes nothing, and where it completes every predicate and every scalar register but sd, or for a compare
and PLOP every scalar register and every predicate but pd, every cell, flag and system register is unchanged. `Completes` says that all
else of the state, every byte of memory in it, is unchanged (R33, R143 to R148). -/
def Obligations.ScalarArithmeticFrame : Prop :=
  ∀ (i : Instr) (major minor : Nat) (sig : ScalarSig) (o : ScalarOps) (s : State) (t : Thread),
    i.form = .scalar major minor sig o → major ≤ 5 → Entered i s t →
    (∃ v, StopsWith i s t (.trap 0x92 0 v 0 0)) ∨
    ∃ u, Completes i s u ∧ u.cells = t.cells ∧ u.fcsr = t.fcsr ∧ u.xflags = t.xflags ∧ t.sameSystem u ∧
      (if sig.d = .pred then u.sregs = t.sregs ∧ ∀ p, p ≠ o.d.toNat → u.pred p = t.pred p
       else u.preds = t.preds ∧ ∀ r, r ≠ o.d.toNat → u.sreg r = t.sreg r)

/-! ### The lane set: integers and moves -/

/-- The number of cells of a lane operand at MOD's width (R31, R105). -/
abbrev cellsOf (o : LaneOps) : Nat := intCells o.mod

/-- The sources of a lane instruction of two operands, and its destination, can be read and written now (R37, R38). -/
def TwoReady (t : Thread) (o : LaneOps) : Prop :=
  t.sourcesFull (srcA o (cellsOf o) ++ srcB o (cellsOf o) ++ srcOld o) ∧ t.fullAt o.d.toNat (cellsOf o)

/-- The same of one operand. -/
def OneReady (t : Thread) (o : LaneOps) : Prop :=
  t.sourcesFull (srcA o (cellsOf o) ++ srcOld o) ∧ t.fullAt o.d.toNat (cellsOf o)

/-- The same of three operands. -/
def ThreeReady (t : Thread) (o : LaneOps) : Prop :=
  t.sourcesFull (srcA o (cellsOf o) ++ srcB o (cellsOf o) ++ srcC o (cellsOf o) ++ srcOld o) ∧ t.fullAt o.d.toNat (cellsOf o)

/-- IALU, ISHIFT, IMUL but IDIV and IREM (R150): on full cells each completes, with d written by `intDo` with the element result of the
table on the elements of its sources; `OperandAndResultElements` says what that is on each element. -/
def Obligations.LaneIntegerArithmeticResults : Prop :=
  ∀ (o : LaneOps) (s : State) (t : Thread),
    let sg := isSigned o.mod
    let v (w x : Nat) : Int := intOf w sg x
    (TwoReady t o →
      (Entered (.iadd o) s t → Completes (.iadd o) s (t.intDo o fun w a b _ => v w a + v w b)) ∧
      (Entered (.isub o) s t → Completes (.isub o) s (t.intDo o fun w a b _ => v w a - v w b)) ∧
      (Entered (.imin o) s t → Completes (.imin o) s (t.intDo o fun w a b _ => if v w a ≤ v w b then v w a else v w b)) ∧
      (Entered (.imax o) s t → Completes (.imax o) s (t.intDo o fun w a b _ => if v w b ≤ v w a then v w a else v w b)) ∧
      (Entered (.iand o) s t → Completes (.iand o) s (t.intDo o fun _ a b _ => ((a &&& b : Nat) : Int))) ∧
      (Entered (.ior o) s t → Completes (.ior o) s (t.intDo o fun _ a b _ => ((a ||| b : Nat) : Int))) ∧
      (Entered (.ixor o) s t → Completes (.ixor o) s (t.intDo o fun _ a b _ => ((a ^^^ b : Nat) : Int))) ∧
      (Entered (.iandn o) s t → Completes (.iandn o) s (t.intDo o fun w a b _ => ((a &&& (2 ^ w - 1 - b) : Nat) : Int))) ∧
      (Entered (.ishl o) s t → Completes (.ishl o) s (t.intDo o fun w a b _ => (a : Int) * 2 ^ (b % w))) ∧
      (Entered (.ishr o) s t → Completes (.ishr o) s (t.intDo o fun w a b _ => ((a / 2 ^ (b % w) : Nat) : Int))) ∧
      (Entered (.isar o) s t → Completes (.isar o) s (t.intDo o fun w a b _ => intOf w true a / 2 ^ (b % w))) ∧
      (Entered (.irotl o) s t → Completes (.irotl o) s (t.intDo o fun w a b _ =>
        ((a * 2 ^ (b % w) + a / 2 ^ (w - b % w) : Nat) : Int))) ∧
      (Entered (.imul o) s t → Completes (.imul o) s (t.intDo o fun _ a b _ => (a : Int) * b)) ∧
      (Entered (.imulh o) s t → Completes (.imulh o) s (t.intDo o fun w a b _ => v w a * v w b / 2 ^ w))) ∧
    (OneReady t o → Entered (.iabs o) s t → Completes (.iabs o) s (t.intDo o fun w a _ _ => ((intOf w true a).natAbs : Int))) ∧
    (ThreeReady t o → Entered (.imad o) s t → Completes (.imad o) s (t.intDo o fun _ a b c => (a : Int) * b + c))

/-- IDIV and IREM (R144, R150): the quotient rounded toward zero and the remainder that goes with it; all ones and the dividend for a zero
divisor; with FCSR.IDZE the IDZ trap instead, with the dividend extended to 64 bits. -/
def Obligations.LaneDivideResults : Prop :=
  ∀ (o : LaneOps) (s : State) (t : Thread),
    let w := (intWidth o.mod).1
    let sg := isSigned o.mod
    let zero := t.intB o % 2 ^ w = 0
    let trap : Stop := .trap 0x92 0 (BitVec.ofInt 64 (intOf w sg (t.intSrc o.mod o.a.toNat o.na))) 0 0
    (TwoReady t o → (t.fcsr[24] = false ∨ ¬ zero) →
      (Entered (.idiv o) s t → Completes (.idiv o) s (t.intDo o fun w a b _ =>
        if b = 0 then -1 else (intOf w sg a).tdiv (intOf w sg b))) ∧
      (Entered (.irem o) s t → Completes (.irem o) s (t.intDo o fun w a b _ =>
        if b = 0 then a else intOf w sg a - intOf w sg b * (intOf w sg a).tdiv (intOf w sg b)))) ∧
    (t.sourcesFull (srcA o (cellsOf o) ++ srcB o (cellsOf o) ++ srcOld o) → t.fcsr[24] = true → zero →
      (Entered (.idiv o) s t → StopsWith (.idiv o) s t trap) ∧ (Entered (.irem o) s t → StopsWith (.irem o) s t trap))

/-- IBIT (R59, R146, R150): counts, reversal, and the bit fields of the descriptor in b, which IBFX extends for kind .i. -/
def Obligations.LaneBitResults : Prop :=
  ∀ (o : LaneOps) (s : State) (t : Thread),
    let pos (b : Nat) : Nat := b % 64
    let len (w b : Nat) : Nat := if w ≤ pos b then 0 else min (b / 256 % 128) (w - pos b)
    let field (w a b : Nat) : Nat := a / 2 ^ pos b % 2 ^ len w b
    (OneReady t o →
      (Entered (.iclz o) s t → Completes (.iclz o) s (t.intDo o fun w a _ _ =>
        ((if a = 0 then w else w - 1 - Nat.log2 a : Nat) : Int))) ∧
      (Entered (.ictz o) s t → Completes (.ictz o) s (t.intDo o fun w a _ _ =>
        (((List.range w).find? (fun i => a.testBit i)).getD w : Nat))) ∧
      (Entered (.iffs o) s t → Completes (.iffs o) s (t.intDo o fun w a _ _ =>
        ((if a = 0 then 0 else ((List.range w).find? (fun i => a.testBit i)).getD w + 1 : Nat) : Int))) ∧
      (Entered (.ipopc o) s t → Completes (.ipopc o) s (t.intDo o fun w a _ _ => ((List.range w).countP (fun i => a.testBit i) : Nat))) ∧
      (Entered (.ibrev o) s t → Completes (.ibrev o) s (t.intDo o fun w a _ _ => (elBrev w a : Nat)))) ∧
    (∀ w a i, i < w → (elBrev w a).testBit i = a.testBit (w - 1 - i)) ∧
    (TwoReady t o → Entered (.ibfx o) s t → Completes (.ibfx o) s (t.intDo o fun w a b _ =>
      ((if isSigned o.mod = true ∧ 0 < len w b ∧ (field w a b).testBit (len w b - 1) = true then field w a b + (2 ^ w - 2 ^ len w b)
        else field w a b : Nat) : Int))) ∧
    (ThreeReady t o → Entered (.ibfi o) s t → Completes (.ibfi o) s (t.intDo o fun w a b c =>
      ((a % 2 ^ pos b + c % 2 ^ len w b * 2 ^ pos b + a / 2 ^ (pos b + len w b) * 2 ^ (pos b + len w b) : Nat) : Int)))

/-- ICMP, ISEL and IORD (R152, R153): ICMP writes predicate d; ISEL takes a or b by the predicate C; IORD writes the image of R70 of its
source, read at the format's width or as the narrow element, into the cells of d or into the narrow element of d, whose other bits stay. -/
def Obligations.LaneCompareSelectResults : Prop :=
  ∀ (o : LaneOps) (s : State) (t : Thread),
    let w := (intWidth o.mod).1
    let sg := isSigned o.mod
    let a := intOf w sg (t.intSrc o.mod o.a.toNat o.na)
    let b := intOf w sg (t.intB o)
    let d := o.d.toNat
    let f := AnyFmt.ofCode o.mod.toNat
    let n := if f.width = 64 then 2 else 1
    (t.sourcesFull (srcA o (cellsOf o) ++ srcB o (cellsOf o) ++ srcOld o) →
      (Entered (.icmpEq o) s t → Completes (.icmpEq o) s (t.setPred d (decide (a = b)))) ∧
      (Entered (.icmpNe o) s t → Completes (.icmpNe o) s (t.setPred d (decide (a ≠ b)))) ∧
      (Entered (.icmpLt o) s t → Completes (.icmpLt o) s (t.setPred d (decide (a < b)))) ∧
      (Entered (.icmpLe o) s t → Completes (.icmpLe o) s (t.setPred d (decide (a ≤ b)))) ∧
      (Entered (.icmpGt o) s t → Completes (.icmpGt o) s (t.setPred d (decide (a > b)))) ∧
      (Entered (.icmpGe o) s t → Completes (.icmpGe o) s (t.setPred d (decide (a ≥ b))))) ∧
    (TwoReady t o → Entered (.isel o) s t → Completes (.isel o) s (t.intDo o fun _ a b _ => if t.pred o.c.toNat then (a : Int) else b)) ∧
    (t.sourcesFull (srcA o n ++ srcOld o) → t.fullAt d n → Entered (.iord o) s t →
      let x := match o.na with
        | .full => t.cellsNat o.a.toNat n % 2 ^ f.width
        | .elem w pos => (t.cell o.a.toNat).data.toNat / 2 ^ (narrowBits w * pos.toNat) % 2 ^ narrowBits w
      (o.nd = .full → Completes (.iord o) s (t.writePlains d (wordsOf n (image f x)))) ∧
      ∀ w pos, o.nd = .elem w pos → ∃ v : Word, Completes (.iord o) s (t.writePlain d v) ∧ ∀ i, i < 32 →
        v.getLsbD i = if narrowBits w * pos.toNat ≤ i ∧ i < narrowBits w * (pos.toNat + 1) then (image f x).testBit (i - narrowBits w * pos.toNat)
          else (t.cell d).data.getLsbD i)

/-- MOVE (R154): VMOV, SMOV and MOVP in both directions. -/
def Obligations.MoveResults : Prop :=
  ∀ (o : LaneOps) (s : State) (t : Thread),
    let d := o.d.toNat
    (t.sourcesFull (srcB o (cellsOf o) ++ srcOld o) → t.fullAt d (cellsOf o) → Entered (.vmov o) s t →
      Completes (.vmov o) s (t.intDo o fun _ _ b _ => (b : Int))) ∧
    (t.sourcesFull (srcOld o) → t.fullAt d (cellsOf o) → Entered (.smovTov o) s t →
      Completes (.smovTov o) s (t.intDo o fun _ _ _ _ => ((t.sreg o.a.toNat).toNat : Int))) ∧
    (t.fullAt o.a.toNat (cellsOf o) → Entered (.smovTos o) s t →
      Completes (.smovTos o) s (t.setSreg d
        (BitVec.ofInt 64 (intOf (intWidth o.mod).1 (isSigned o.mod) (t.intSrc o.mod o.a.toNat o.na))))) ∧
    (t.sourcesFull (srcOld o) → t.fullAt d 1 → Entered (.movpTov o) s t →
      ∃ v : Nat, Completes (.movpTov o) s (t.intDo o fun _ _ _ _ => (v : Int)) ∧ v < 256 ∧ ∀ p, p < 8 → v.testBit p = t.pred p) ∧
    (t.fullAt o.a.toNat 1 → Entered (.movpTop o) s t →
      ∃ u, Completes (.movpTop o) s u ∧ u.cells = t.cells ∧ u.sregs = t.sregs ∧ t.sameSystem u ∧
        ∀ p, p < 7 → u.pred p = (t.intSrc o.mod o.a.toNat o.na).testBit p)

/-- Bit k of the cells from i on (R58). -/
def cellBit (t : Thread) (i k : Nat) : Bool := (t.cell (i + k / 32)).data.getLsbD (k % 32)

/-- What a lane instruction reads from its operands (R58, R93 to R95): element j of full cells is bits w·j up to w·(j + 1) of them, a pair at
width 64; a narrow element is its bits of the cell, sign-extended for .i and else zero-extended, or the number of its narrow format; an
immediate is the same value in every element. -/
def OperandElements : Prop :=
  ∀ (t : Thread) (o : LaneOps) (i j : Nat),
    let w := (intWidth o.mod).1
    let f := (floatMode o.mod).1
    (∀ k, k < w → (elemAt (t.intSrc o.mod i .full) w j).testBit k = (decide (j < (intWidth o.mod).2) && cellBit t i (w * j + k))) ∧
    (∀ wd pos, intOf 32 (isSigned o.mod) (t.intSrc o.mod i (.elem wd pos)) =
        intOf (narrowBits wd) (isSigned o.mod) ((t.cell i).data.toNat / 2 ^ (narrowBits wd * pos.toNat)) ∧
      t.intSrc o.mod i (.elem wd pos) < 2 ^ 32) ∧
    (∀ c, o.b = .cell c → t.intB o = t.intSrc o.mod c.toNat o.nb) ∧
    (∀ v, o.b = .imm v → j < (intWidth o.mod).2 → ((elemAt (t.intB o) w j : Nat) : Int) = v.toInt % (2 : Int) ^ w) ∧
    (o.mod.toNat < 4 → j < (floatMode o.mod).2 → ∃ x, t.floatSrc o i .full j = f.decode x ∧ x < 2 ^ f.width ∧
      ∀ k, k < f.width → x.testBit k = cellBit t i (f.width * j + k)) ∧
    (∀ wd pos, t.floatSrc o i (.elem wd pos) j =
      (narrowFmt wd o.falt).decode ((t.cell i).data.toNat / 2 ^ (narrowBits wd * pos.toNat) % 2 ^ narrowBits wd))

/-- A cell with the bits of one narrow element replaced, and the others kept (R96). -/
def ElementReplaced (old new : Word) (w pos x : Nat) : Prop :=
  ∀ i, i < 32 → new.getLsbD i = if w * pos ≤ i ∧ i < w * (pos + 1) then x.testBit (i - w * pos) else old.getLsbD i

/-- What a lane instruction reads and writes (R58, R93 to R96, R150, R151, R195). Each element of an integer result is its own function of the
elements of the sources, as they are read: modulo 2^w, or, with .sat, the exact value clamped to the range of w bits; full cells of d take
the elements in their places. Into a narrow element of d goes, for .b, the low bits of the 32-bit result, and else the result saturated to
the element's range, with .sat the exact one; the other bits of the cell stay. A float result takes the full cells of d, or a narrow
element of it, in the same way. -/
def Obligations.OperandAndResultElements : Prop :=
  OperandElements ∧
  ∀ (t : Thread) (o : LaneOps) (f : Nat → Nat → Nat → Nat → Int) (codes : List Nat),
    let w := (intWidth o.mod).1
    let n := (intWidth o.mod).2
    let sg := isSigned o.mod
    let d := o.d.toNat
    let exact (j : Nat) : Int := f w (elemAt (t.intSrc o.mod o.a.toNat o.na) w j) (elemAt (t.intB o) w j)
      (elemAt (t.intSrc o.mod o.c.toNat .full) w j)
    let clamp (b : Nat) (x : Int) : Int := max (intRange b sg).1 (min (intRange b sg).2 x)
    let g := (floatMode o.mod).1
    (o.nd = .full →
      (∃ v, t.intDo o f = t.writePlains d (wordsOf (cellsOf o) v) ∧ v < 2 ^ (32 * cellsOf o) ∧
        ∀ j, j < n → ((elemAt v w j : Nat) : Int) = (if o.mod[4] then clamp w (exact j) else exact j) % (2 : Int) ^ w) ∧
      (o.mod.toNat < 4 → ∃ v, t.putFloat o codes = t.writePlains d (wordsOf (floatCells o.mod) v) ∧ v < 2 ^ (32 * floatCells o.mod) ∧
        ∀ j, j < (floatMode o.mod).2 → elemAt v g.width j = codes.getD j 0 % 2 ^ g.width)) ∧
    ∀ wd pos, o.nd = .elem wd pos →
      let z : Int := if o.mod[4] then exact 0 else intOf w sg (patOf w (exact 0))
      (∃ v, t.putFloat o codes = t.writePlain d v ∧ ElementReplaced (t.cell d).data v (narrowBits wd) pos.toNat (codes.getD 0 0)) ∧
      ∃ v x, t.intDo o f = t.writePlain d v ∧ ElementReplaced (t.cell d).data v (narrowBits wd) pos.toNat x ∧
        ((x : Nat) : Int) = (if isBits o.mod then z else clamp (narrowBits wd) z) % (2 : Int) ^ narrowBits wd

/-- Some source cell of an instruction is empty: policy 0 waits, and policy 1 raises EMPTY with LTVAL the lowest empty cell of the sources
and, as detail, a field that names it. -/
def EmptyStops (i : Instr) (o : LaneOps) (s : State) (t : Thread) (xs : List Source) : Prop :=
  Entered i s t → ¬ t.sourcesFull xs →
    (o.ep = false → StopsWith i s t (.wait .emptyCell)) ∧
    (o.ep = true → ∃ c field, StopsWith i s t (.trap 0x90 (BitVec.ofNat 8 field) (BitVec.ofNat 64 c) 0 0) ∧
      (t.cell c).full = false ∧ (∃ x ∈ xs, x.1 = field ∧ x.2.1 ≤ c ∧ c < x.2.1 + x.2.2) ∧
      ∀ x ∈ xs, ∀ j, x.2.1 ≤ j → j < x.2.1 + x.2.2 → j < c → (t.cell j).full = true)

/-- Empty sources (R37, R46, R47): where some source cell of an integer, compare or float instruction is empty, policy 0 waits, and policy 1
raises EMPTY with LTVAL the lowest empty cell of the sources. That it is the lowest over all the sources, and which field the detail names,
is DEDUCED (log entry 10). -/
def Obligations.EmptySourcePolicy : Prop :=
  ∀ (i : Instr) (o : LaneOps) (s : State) (t : Thread),
    let n := floatCells o.mod
    (i ∈ [.iadd o, .isub o, .imin o, .imax o, .iand o, .ior o, .ixor o, .iandn o, .ishl o, .ishr o, .isar o, .irotl o, .imul o, .imulh o,
         .idiv o, .irem o, .icmpEq o, .icmpNe o, .icmpLt o, .icmpLe o, .icmpGt o, .icmpGe o, .isel o] →
      EmptyStops i o s t (srcA o (cellsOf o) ++ srcB o (cellsOf o) ++ srcOld o)) ∧
    (i ∈ [.fadd o, .fsub o, .fmul o, .fdiv o, .fmin o, .fmax o, .fcmpEq o, .fcmpNe o, .fcmpLt o, .fcmpLe o, .fcmpGt o, .fcmpGe o,
         .fcmpUn o] → EmptyStops i o s t (srcA o n ++ srcB o n ++ srcOld o)) ∧
    EmptyStops (.imad o) o s t (srcA o (cellsOf o) ++ srcB o (cellsOf o) ++ srcC o (cellsOf o) ++ srcOld o) ∧
    EmptyStops (.ffma o) o s t (srcA o n ++ srcB o n ++ srcC o n ++ srcOld o) ∧
    (i ∈ [.fsqrt o, .frcp o, .frsq o, .fexp2 o, .flog2 o] → EmptyStops i o s t (srcA o n ++ srcOld o))

/-- The frame of the integer and move majors (IALU, ISHIFT, IMUL, IBIT, ICMP/ISEL/IORD, MOVE): whatever an instruction of them answers
outside a trial, it completes with memory, the caches, every other thread, its flags and its system registers unchanged, or it does not
complete; scalar registers change only in SMOV.tos, and predicates only in ICMP and MOVP.top. -/
def Obligations.LaneIntegerFrame : Prop :=
  ∀ (i : Instr) (major minor : Nat) (sig : LaneSig) (o : LaneOps) (s : State) (t : Thread),
    i.form = .lane major minor sig o → (major ≤ 4 ∨ major = 16) → Entered i s t →
    (∃ e, StopsWith i s t e) ∨
    ∃ u, Completes i s u ∧ u.fcsr = t.fcsr ∧ u.xflags = t.xflags ∧ t.sameSystem u ∧
      ((∀ o, i ≠ .smovTos o) → u.sregs = t.sregs) ∧ (sig.d ≠ .pred → (∀ o, i ≠ .movpTop o) → u.preds = t.preds) ∧
      (sig.d ≠ .cell → u.cells = t.cells) ∧ u.cells.length = t.cells.length

/-! ### The lane set: floats -/

/-- The sources of a float instruction, and its destination, can be read and written now. -/
def FloatReady (t : Thread) (o : LaneOps) (xs : List Source) : Prop :=
  t.sourcesFull (xs ++ srcOld o) ∧ t.fullAt o.d.toNat (floatCells o.mod)

/-- The element results and flags that an instruction writes, one for each element of its format (R195, R196). -/
def elemResults (o : LaneOps) (elem : Nat → Nat × Flags) : List Nat × Flags :=
  let rs := (List.range (floatMode o.mod).2).map elem
  (rs.map Prod.fst, allFlags (rs.map Prod.snd))

/-- A float instruction with these elements completes, with their flags in FCSR and d written, unless an enabled flag is raised: then it
raises the trap of the first one, sets the sticky flags and writes nothing (R196, R50). -/
def FloatOutcome (i : Instr) (o : LaneOps) (s : State) (t : Thread) (elem : Nat → Nat × Flags) : Prop :=
  let r := elemResults o elem
  match floatTrap t.fcsr r.2 with
  | none => Completes i s (({ t with fcsr := t.fcsr ||| r.2.fcsrBits } : Thread).putFloat o r.1)
  | some c => StopsWith i s t (.trap c 0 0 0 r.2.fcsrBits)

/-- A value is exactly this real number. -/
def ValueIs (v : FVal) (x : ℝ) : Prop :=
  ∃ (neg : Bool) (m : Nat) (e : Int), v = .fin neg m e false ∧ x = (if neg then -1 else 1) * ((m : ℝ) * 2 ^ e)

/-- A value stands for this real number: it is exactly that, or gives at least 257 leading bits of it and says that more follow, so that
rounding to any precision of the formats takes the same course for both. -/
def StandsFor (v : FVal) (x : ℝ) : Prop :=
  ∃ (neg : Bool) (m : Nat) (e : Int) (more : Bool), v = .fin neg m e more ∧
    let y := if neg then -x else x
    if more then 2 ^ 256 ≤ m ∧ (m : ℝ) * 2 ^ e < y ∧ y < ((m : ℝ) + 1) * 2 ^ e else y = (m : ℝ) * 2 ^ e

/-- The integer that a rounding mode takes for a number t ≥ 0, the magnitude of a number of this sign (R42, R44, R64). -/
def RoundsInt (rm : RMode) (neg : Bool) (t : ℝ) (n : Nat) : Prop :=
  if t = ⌊t⌋₊ then (n : ℝ) = t
  else match rm with
    | .rtz => n = ⌊t⌋₊
    | .rup => n = if neg then ⌊t⌋₊ else ⌊t⌋₊ + 1
    | .rdn => n = if neg then ⌊t⌋₊ + 1 else ⌊t⌋₊
    | .rne => |t - n| < 1 / 2 ∨ (|t - n| = 1 / 2 ∧ n % 2 = 0)
    | .rna => |t - n| < 1 / 2 ∨ (|t - n| = 1 / 2 ∧ n = ⌊t⌋₊ + 1)
    | .rodd => (n = ⌊t⌋₊ ∨ n = ⌊t⌋₊ + 1) ∧ n % 2 = 1

/-- The rounding of R64 of a magnitude x > 0 to p bits with the least normal exponent emin: x lies in a binade, whose quantum, not below that
of emin, is 2^q, and y is an integer number of quanta by the mode. -/
def RoundsTo (p : Nat) (emin : Int) (rm : RMode) (neg : Bool) (x y : ℝ) : Prop :=
  ∃ (e : Int) (n : Nat), (2 : ℝ) ^ e ≤ x ∧ x < 2 ^ (e + 1) ∧
    let q : Int := max e emin - p + 1
    RoundsInt rm neg (x / 2 ^ q) n ∧ y = n * 2 ^ q

/-- The float formats of R60. -/
def floatFormats : List FFmt := [fmtF64, fmtF32, fmtF16, fmtBf16, fmtE4m3, fmtE5m2, fmtE3m2, fmtE2m3, fmtE2m1]

/-- The largest finite value of a format (R60). -/
def MaxFinite (f : FFmt) (x : ℝ) : Prop := ValueIs (f.decode f.maxCode) x

/-- A code of a format is this magnitude with this sign. -/
def CodeIs (f : FFmt) (c : Nat) (neg : Bool) (y : ℝ) : Prop := ∃ (m : Nat) (e : Int), f.decode c = .fin neg m e false ∧ y = (m : ℝ) * 2 ^ e

/-- Placing a value that stands for a nonzero real number into a format is the rounding of R64 of that number, with the flags of R67, or the
overflow of R66 where the rounding exceeds the largest finite value. -/
def PlacesByR64 : Prop :=
  ∀ f ∈ floatFormats, ∀ (rm : RMode) (v : FVal) (x big : ℝ), StandsFor v x → x ≠ 0 → MaxFinite f big →
    ∃ y, RoundsTo f.p f.emin rm v.neg |x| y ∧
      (y ≤ big → CodeIs f (f.place rm v).1 v.neg y ∧
        ((f.place rm v).2.nx = true ↔ y ≠ |x|) ∧ ((f.place rm v).2.uf = true ↔ y ≠ |x| ∧ |x| < 2 ^ f.emin) ∧
        (f.place rm v).2.of = false ∧ (f.place rm v).2.nv = false ∧ (f.place rm v).2.dz = false) ∧
      (big < y → f.place rm v = (f.signBit v.neg + (if f.specials = .ieee ∧ overflowToInf rm v.neg = true then f.infCode else f.maxCode),
        { of := true, nx := true }))

/-- The exact results of finite operands (R65, R198, R200, R217): the sum, the product, the fused product and sum, the quotient and the root
are those of the real numbers; an exact sum of 0 of operands of different signs is −0 only in the mode .rdn. -/
def ExactArithmetic : Prop :=
  ∀ (rm : RMode) (a b c : FVal) (x y z : ℝ), ValueIs a x → ValueIs b y → ValueIs c z →
    (∃ v, fltAdd rm a b = (v, .none) ∧ ValueIs v (x + y) ∧ (x + y = 0 → v.neg = if a.neg = b.neg then a.neg else rm == .rdn)) ∧
    (∃ v, fltSub rm a b = (v, .none) ∧ ValueIs v (x - y) ∧ (x - y = 0 → v.neg = if a.neg = b.neg then rm == .rdn else a.neg)) ∧
    (∃ v, fltMul a b = (v, .none) ∧ ValueIs v (x * y) ∧ v.neg = (a.neg != b.neg)) ∧
    (∃ v, fltFma rm a b c = (v, .none) ∧ ValueIs v (x * y + z)) ∧
    (y ≠ 0 → ∃ v, fltDiv a b = (v, .none) ∧ zxfQuot a b = (v, .none) ∧ StandsFor v (x / y) ∧ v.neg = (a.neg != b.neg)) ∧
    (0 < x ∨ x = 0 → ∃ v, fltSqrt a = (v, .none) ∧ StandsFor v (√x) ∧ v.neg = a.neg) ∧
    (x < 0 → fltSqrt a = (FVal.dflt, .invalid)) ∧
    (x < y → minMaxVal false a b = (a, .none) ∧ minMaxVal true a b = (b, .none) ∧ minMaxVal false b a = (a, .none) ∧
      minMaxVal true b a = (b, .none))

/-- What an operation makes of NaN operands, in their order (R69): the first of them, with its quiet bit set, and NV where one is signalling; `nv`
tells that the operation is invalid apart from that. -/
def NanOperands (ops : List FVal) (nv : Prop) (r : FVal × Flags) : Prop :=
  ∀ pre x post, ops = pre ++ x :: post → (∀ y ∈ pre, y.isNan = false) → x.isNan = true →
    (∃ neg q fr fw, x = .nan neg q fr fw ∧ r.1 = .nan neg true (if q then fr else fr + 2 ^ (fw - 1)) fw) ∧
    ((nv ∨ ∃ y ∈ ops, y.isSnan = true) → r.2 = .invalid) ∧ (¬ nv → (∀ y ∈ ops, y.isSnan = false) → r.2 = .none)

/-- The operations on NaNs, infinities and zero divisors (R69, R198, R199, R216, R217): a NaN operand goes through, quieted; an invalid operation
gives the default NaN with NV, a finite number divided by zero an infinity with DZ (in ZXF with OF and NX), any other operation on an
infinity what IEEE 754 gives, with no flag. The minimum and the maximum take the operand that is no NaN, and −0 counts as less than +0. -/
def SpecialOperands : Prop :=
  let invalid : FVal × Flags := (FVal.dflt, .invalid)
  let zero (v : FVal) : Prop := ∃ n e l, v = .fin n 0 e l
  (∀ (rm : RMode) (a b c : FVal), NanOperands [a, b] False (fltAdd rm a b) ∧ NanOperands [a, b] False (fltSub rm a b) ∧
    NanOperands [a, b] False (fltMul a b) ∧ NanOperands [a, b] False (fltDiv a b) ∧ NanOperands [a, b] False (zxfQuot a b) ∧
    NanOperands [a] False (fltSqrt a) ∧
    NanOperands [a, b, c] ((a.isInf = true ∧ zero b) ∨ (zero a ∧ b.isInf = true)) (fltFma rm a b c)) ∧
  (∀ (rm : RMode) (x y : Bool),
    fltAdd rm (.inf x) (.inf y) = (if x = y then (.inf x, .none) else invalid) ∧
    fltSub rm (.inf x) (.inf y) = (if x = y then invalid else (.inf x, .none)) ∧
    fltMul (.inf x) (.inf y) = (.inf (x != y), .none) ∧ fltDiv (.inf x) (.inf y) = invalid ∧ zxfQuot (.inf x) (.inf y) = invalid ∧
    fltSqrt (.inf false) = (.inf false, .none) ∧ fltSqrt (.inf true) = invalid) ∧
  (∀ (rm : RMode) (x n : Bool) (m : Nat) (e : Int) (more : Bool),
    let v : FVal := .fin n m e more
    fltAdd rm (.inf x) v = (.inf x, .none) ∧ fltAdd rm v (.inf x) = (.inf x, .none) ∧ fltSub rm (.inf x) v = (.inf x, .none) ∧
    fltSub rm v (.inf x) = (.inf !x, .none) ∧ fltMul (.inf x) v = (if m = 0 then invalid else (.inf (x != n), .none)) ∧
    fltMul v (.inf x) = (if m = 0 then invalid else (.inf (n != x), .none)) ∧
    fltDiv (.inf x) v = (.inf (x != n), .none) ∧ zxfQuot (.inf x) v = (.inf (x != n), .none) ∧
    fltDiv v (.inf x) = (FVal.zero (n != x), .none) ∧ zxfQuot v (.inf x) = (FVal.zero (n != x), .none) ∧
    ∀ (z : Bool) (d : Int) (l : Bool),
      fltDiv v (.fin z 0 d l) = (if m = 0 then invalid else (.inf (n != z), { dz := true })) ∧
      zxfQuot v (.fin z 0 d l) = (if m = 0 then invalid else (.inf (n != z), { of := true, nx := true }))) ∧
  (∀ (rm : RMode) (a b c : FVal), a.isNan = false → b.isNan = false → c.isNan = false →
    (∀ x, fltMul a b = (.inf x, .none) → fltFma rm a b c = if c = .inf !x then invalid else (.inf x, .none)) ∧
    (fltMul a b = invalid → fltFma rm a b c = invalid) ∧
    ∀ n m e x, fltMul a b = (.fin n m e false, .none) → c = .inf x → fltFma rm a b c = (.inf x, .none)) ∧
  ∀ (mx : Bool) (a b : FVal),
    let fl : Flags := if a.isSnan || b.isSnan then .invalid else .none
    (a.isNan = true → b.isNan = false → minMaxVal mx a b = (b, fl)) ∧ (a.isNan = false → b.isNan = true → minMaxVal mx a b = (a, fl)) ∧
    (a.isNan = true → b.isNan = true → NanOperands [a, b] False (minMaxVal mx a b)) ∧
    (∀ x, a = .inf x → b.isNan = false →
      minMaxVal mx a b = (if x = mx then b else a, .none) ∧ minMaxVal mx b a = (if x = mx then b else a, .none)) ∧
    (a.isZero = true → b.isZero = true → a.neg = true → b.neg = false →
      minMaxVal mx a b = (if mx then b else a, .none) ∧ minMaxVal mx b a = (if mx then b else a, .none))

/-- Placing what is not a nonzero number (R65 to R67, R69): a zero keeps its sign; an infinity stays where the format has one, else it is the
greatest finite value, with NV; a NaN is quiet with the top bits of its payload, or the NaN of its sign in E4M3, or +0 with NV. -/
def SpecialsPlaced : Prop :=
  ∀ f ∈ floatFormats, ∀ (rm : RMode) (neg : Bool),
    (∀ e, f.place rm (.fin neg 0 e false) = (f.signBit neg, .none)) ∧
    f.place rm (.inf neg) = (if f.specials = .ieee then (f.signBit neg + f.infCode, .none) else (f.signBit neg + f.maxCode, .invalid)) ∧
    ∀ q fr fw, fr < 2 ^ fw →
      let c := f.place rm (.nan neg q fr fw)
      (f.specials = .ieee → c.2 = .none ∧ f.decode c.1 =
        let top := if fw ≤ f.mbits then fr * 2 ^ (f.mbits - fw) else fr / 2 ^ (fw - f.mbits)
        .nan neg true (if top < 2 ^ (f.mbits - 1) then top + 2 ^ (f.mbits - 1) else top) f.mbits) ∧
      (f.specials = .nanOnly → c = (f.signBit neg + 0x7F, .none)) ∧ (f.specials = .none → c = (0, .invalid))

/-- FARITH (R64 to R67, R69, R196, R198, R199): each element of d is the exact sum, difference, product, quotient, fused product and sum, or the
lesser or greater operand, rounded once to the destination format in the mode of RO or FCSR.frm; what is exact is that of the real numbers,
and the rounding is that of R64; what becomes of NaNs, infinities and zero divisors. -/
def Obligations.FloatArithmeticResults : Prop :=
  ExactArithmetic ∧ PlacesByR64 ∧ SpecialOperands ∧ SpecialsPlaced ∧ ∀ (o : LaneOps) (s : State) (t : Thread),
    let n := floatCells o.mod
    let rm := t.frm o.ro
    let a (j : Nat) : FVal := t.floatSrc o o.a.toNat o.na j
    let b (j : Nat) : FVal := t.floatSrc o (bCell o) o.nb j
    let c (j : Nat) : FVal := t.floatSrc o o.c.toNat .full j
    let out (r : FVal × Flags) : Nat × Flags := (((dstFmt o).place rm r.1).1, r.2.or ((dstFmt o).place rm r.1).2)
    (FloatReady t o (srcA o n ++ srcB o n) →
      (Entered (.fadd o) s t → FloatOutcome (.fadd o) o s t fun j => out (fltAdd rm (a j) (b j))) ∧
      (Entered (.fsub o) s t → FloatOutcome (.fsub o) o s t fun j => out (fltSub rm (a j) (b j))) ∧
      (Entered (.fmul o) s t → FloatOutcome (.fmul o) o s t fun j => out (fltMul (a j) (b j))) ∧
      (Entered (.fdiv o) s t → FloatOutcome (.fdiv o) o s t fun j => out (fltDiv (a j) (b j))) ∧
      (Entered (.fmin o) s t → FloatOutcome (.fmin o) o s t fun j => out (minMaxVal false (a j) (b j))) ∧
      (Entered (.fmax o) s t → FloatOutcome (.fmax o) o s t fun j => out (minMaxVal true (a j) (b j)))) ∧
    (FloatReady t o (srcA o n ++ srcB o n ++ srcC o n) → Entered (.ffma o) s t →
      FloatOutcome (.ffma o) o s t fun j => out (fltFma rm (a j) (b j) (c j)))

/-- A faithful result is the true value where the format has it, else the value next to it in magnitude below or above, as `up` says; beyond
the range of the format it is the overflow of R66 (R81; in a format without infinities DEDUCED, log entry 38). -/
def FaithfulIsNext : Prop :=
  ∀ f ∈ floatFormats, ∀ (up : Bool) (v : FVal) (x big : ℝ), StandsFor v x → x ≠ 0 → MaxFinite f big →
    ∃ y z, RoundsTo f.p f.emin (if up then .rup else .rtz) false |x| y ∧ RoundsTo f.p f.emin .rup false |x| z ∧
      (z ≤ big → CodeIs f (f.faithful up v).1 v.neg y ∧
        (f.faithful up v).2 = { nx := decide (z ≠ |x|), uf := decide (z ≠ |x| ∧ |x| < 2 ^ f.emin) }) ∧
      (big < z → f.faithful up v = (f.signBit v.neg + (if f.specials = .ieee then f.infCode else f.maxCode), { of := true, nx := true }))

/-- The true values of the special functions of a finite operand (R201): the reciprocal and the reciprocal root as exactly as rounding can
tell; the power within one part in 2^200, and beyond the range of every format where its exponent is; the logarithm within 2^−300. -/
def SpecialTrueValues : Prop :=
  ∀ (a : FVal) (x : ℝ), ValueIs a x →
    (x ≠ 0 → ∃ v, fltRcp a = (v, .none) ∧ StandsFor v (1 / x) ∧ v.neg = a.neg) ∧
    (0 < x → ∃ v, fltRsq a = (v, .none) ∧ StandsFor v (1 / √x) ∧ v.neg = false) ∧
    (∃ m e more, fltExp2 a = (.fin false m e more, .none) ∧
      (|x| < 2 ^ 21 → |(m : ℝ) * 2 ^ e - (2 : ℝ) ^ x| ≤ (2 : ℝ) ^ x / 2 ^ 200) ∧
      (2 ^ 21 ≤ x → (2 : ℝ) ^ ((2 : Int) ^ 20) ≤ (m : ℝ) * 2 ^ e) ∧ (x ≤ -2 ^ 21 → (m : ℝ) * 2 ^ e ≤ (2 : ℝ) ^ (-(2 : Int) ^ 20))) ∧
    (0 < x → ∃ neg m e more, fltLog2 a = (.fin neg m e more, .none) ∧
      |(if neg then -1 else 1) * ((m : ℝ) * 2 ^ e) - Real.logb 2 x| ≤ 1 / 2 ^ 300)

/-- The special cases of R81: zeros, infinities, negative numbers and NaNs; the powers of integers and the logarithms of powers of two are exact. -/
def SpecialFunctionCases : Prop :=
  let invalid : FVal × Flags := (FVal.dflt, .invalid)
  (∀ a : FVal, NanOperands [a] False (fltRcp a) ∧ NanOperands [a] False (fltRsq a) ∧ NanOperands [a] False (fltExp2 a) ∧
    NanOperands [a] False (fltLog2 a)) ∧
  (∀ (n : Bool) (e : Int),
    let z : FVal := .fin n 0 e false
    fltExp2 z = (.fin false 1 0 false, .none) ∧ fltLog2 z = (.inf true, { dz := true }) ∧ fltRcp z = (.inf n, { dz := true }) ∧
    fltRsq z = (.inf n, { dz := true })) ∧
  (∀ (m : Nat) (e : Int), m ≠ 0 → fltLog2 (.fin true m e false) = invalid ∧ fltRsq (.fin true m e false) = invalid) ∧
  fltExp2 (.inf false) = (.inf false, .none) ∧ fltLog2 (.inf false) = (.inf false, .none) ∧ fltRcp (.inf false) = (FVal.zero false, .none) ∧
  fltRsq (.inf false) = (FVal.zero false, .none) ∧ fltExp2 (.inf true) = (FVal.zero false, .none) ∧ fltLog2 (.inf true) = invalid ∧
  fltRcp (.inf true) = (FVal.zero true, .none) ∧ fltRsq (.inf true) = invalid ∧
  (∀ (n : Bool) (m : Nat) (e k : Int), ValueIs (.fin n m e false) k → k ≠ 0 → |k| < 2 ^ 20 → -2000 ≤ e →
    fltExp2 (.fin n m e false) = (.fin false 1 k false, .none)) ∧
  (∀ (l : Nat) (e : Int), ∃ v, fltLog2 (.fin false (2 ^ l) e false) = (v, .none) ∧ ValueIs v ((e + l : Int) : ℝ)) ∧
  ∀ (f : FFmt) (up : Bool),
    (∀ n e, f.faithful up (.fin n 0 e false) = (f.signBit n, .none)) ∧ (∀ n, f.faithful up (.inf n) = f.place .rne (.inf n)) ∧
    ∀ n q fr fw, f.faithful up (.nan n q fr fw) = f.place .rne (.nan n q fr fw)

/-- The place of an operand follows its value, as that of a code among the values of its format does. -/
def RankFollowsValue : Prop :=
  ∀ f ∈ floatFormats, ∀ (v v' : FVal) (x x' : ℝ), ValueIs v x → ValueIs v' x' → x ≤ x' →
    codeRank f.width (f.place .rne v).1 ≤ codeRank f.width (f.place .rne v').1

/-- FSPEC (R69, R81, R200, R201): FSQRT rounds the root once; FRCP and FRSQ return one of the two values of the destination format next to the true
one, the true one where the format has it; FEXP2 and FLOG2 do the same for a value within one part in 2^200, or within 2^−300, of the true
one, which the model takes for it (log entry 8). Which neighbour is returned, the spec leaves open, but that the functions are monotone:
for operands whose values have the same neighbours, FEXP2 and FLOG2 turn once from the lesser to the greater as the operand grows, FRCP and
FRSQ the other way (log entry 8). Overflow into a narrow format without infinities is DEDUCED (log entry 38). -/
def Obligations.FloatSpecialFunctionResults : Prop :=
  FaithfulIsNext ∧ SpecialTrueValues ∧ SpecialFunctionCases ∧ SpecialOperands ∧ SpecialsPlaced ∧ RankFollowsValue ∧
  (∀ fmts gap neg r r', r ≤ r' →
    (∀ fn, fn < 2 → ((faithfulUp fn fmts gap neg r != neg) = true → (faithfulUp fn fmts gap neg r' != neg) = true)) ∧
    ∀ fn, 2 ≤ fn → ((faithfulUp fn fmts gap neg r' != neg) = true → (faithfulUp fn fmts gap neg r != neg) = true)) ∧
  ∀ (o : LaneOps) (s : State) (t : Thread), FloatReady t o (srcA o (floatCells o.mod)) →
    let rm := t.frm o.ro
    let a (j : Nat) : FVal := t.floatSrc o o.a.toNat o.na j
    let near (fn : Nat) (f : FVal → FVal × Flags) (x : FVal) : Prop :=
      let src := (floatMode o.mod).1
      let up := faithfulUp fn (16 * fmtNumber src + fmtNumber (dstFmt o)) ((dstFmt o).faithful false (f x).1).1 (f x).1.neg
        (codeRank src.width (src.place .rne x).1)
      faithfulElem fn f o x = (((dstFmt o).faithful up (f x).1).1, (f x).2.or ((dstFmt o).faithful up (f x).1).2)
    (∀ x, near 2 fltRcp x ∧ near 3 fltRsq x ∧ near 0 fltExp2 x ∧ near 1 fltLog2 x) ∧
    (Entered (.fsqrt o) s t → FloatOutcome (.fsqrt o) o s t fun j =>
      (((dstFmt o).place rm (fltSqrt (a j)).1).1, (fltSqrt (a j)).2.or ((dstFmt o).place rm (fltSqrt (a j)).1).2)) ∧
    (Entered (.frcp o) s t → FloatOutcome (.frcp o) o s t fun j => faithfulElem 2 fltRcp o (a j)) ∧
    (Entered (.frsq o) s t → FloatOutcome (.frsq o) o s t fun j => faithfulElem 3 fltRsq o (a j)) ∧
    (Entered (.fexp2 o) s t → FloatOutcome (.fexp2 o) o s t fun j => faithfulElem 0 fltExp2 o (a j)) ∧
    (Entered (.flog2 o) s t → FloatOutcome (.flog2 o) o s t fun j => faithfulElem 1 fltLog2 o (a j))

/-- A float compare completes with its predicate, or raises the NV trap where NV is enabled and raised (R196, R202). -/
def CompareOutcome (i : Instr) (o : LaneOps) (s : State) (t : Thread) (nv r : Bool) : Prop :=
  if nv && t.fcsr[16] then StopsWith i s t (.trap 0x88 0 0 0 0x100)
  else Completes i s (({ t with fcsr := t.fcsr ||| (if nv then 0x100 else 0) } : Thread).setPred o.d.toNat r)

/-- FCMP and FCLASS (R202, R203): the compares with their results and NV for NaN operands, −0 equal to +0; the class mask has exactly the
bit of its operand's class. -/
def Obligations.FloatCompareClassResults : Prop :=
  ∀ (o : LaneOps) (s : State) (t : Thread),
    let n := floatCells o.mod
    let a := t.floatSrc o o.a.toNat o.na 0
    let b := t.floatSrc o (bCell o) o.nb 0
    let nan := a.isNan || b.isNan
    let snan := a.isSnan || b.isSnan
    (t.sourcesFull (srcA o n ++ srcB o n ++ srcOld o) →
      (Entered (.fcmpEq o) s t → CompareOutcome (.fcmpEq o) o s t snan (!nan && eqVal a b)) ∧
      (Entered (.fcmpNe o) s t → CompareOutcome (.fcmpNe o) o s t snan (nan || !eqVal a b)) ∧
      (Entered (.fcmpLt o) s t → CompareOutcome (.fcmpLt o) o s t (snan || nan) (!nan && ltVal a b)) ∧
      (Entered (.fcmpLe o) s t → CompareOutcome (.fcmpLe o) o s t (snan || nan) (!nan && (ltVal a b || eqVal a b))) ∧
      (Entered (.fcmpGt o) s t → CompareOutcome (.fcmpGt o) o s t (snan || nan) (!nan && ltVal b a)) ∧
      (Entered (.fcmpGe o) s t → CompareOutcome (.fcmpGe o) o s t (snan || nan) (!nan && (ltVal b a || eqVal a b))) ∧
      (Entered (.fcmpUn o) s t → CompareOutcome (.fcmpUn o) o s t snan nan)) ∧
    (t.sourcesFull (srcA o n) → t.fullAt o.d.toNat 1 → Entered (.fclass o) s t →
      ∃ v : Nat, Completes (.fclass o) s (t.writePlain o.d.toNat (BitVec.ofNat 32 v)) ∧
        ∀ j, j < (floatMode o.mod).2 → elemAt v (32 / (floatMode o.mod).2) j = 2 ^ classBit (floatMode o.mod).1 (t.floatSrc o o.a.toNat o.na j)) ∧
    eqVal (FVal.zero true) (FVal.zero false) = true

/-- The integer formats of R106: width and sign. -/
def integerFormats : List (Nat × Bool) := [(8, true), (8, false), (16, true), (16, false), (32, true), (32, false), (64, true)]

/-- The conversions of one element from a float format (R205, with R64 to R67 and R69). In its own format a code stays, but that a signalling
NaN is quieted, with NV. Into another float format a number is placed by R64 (`PlacesByR64`), a zero keeps its sign, an infinity is one or
the largest finite value with NV, a NaN is quiet with the top bits of its payload, or the NaN of its sign in E4M3, or +0 with NV. Into an
integer format a number is rounded by R64 with a quantum of 1 and saturated, with NX where it is written as a different value; a NaN gives
0 and an infinity the extreme, with NV alone. -/
def ConvertsFromFloat : Prop :=
  ∀ f ∈ floatFormats, ∀ (rm : RMode) (x : Nat),
    let into (d : AnyFmt) : Nat × Flags := convertElem (.flt f) d rm x
    let nv (quiet : Bool) : Flags := if quiet then .none else .invalid
    let quieted (g : FFmt) (c : Nat) (neg : Bool) (fr : Nat) : Prop := c < 2 ^ g.width ∧
      g.decode c = .nan neg true (if fr < 2 ^ (g.mbits - 1) then fr + 2 ^ (g.mbits - 1) else fr) g.mbits
    ((f.decode x).isSnan = false → into (.flt f) = (x % 2 ^ f.width, .none)) ∧
    (∀ neg fr fw, f.decode x = .nan neg false fr fw → quieted f (into (.flt f)).1 neg fr ∧ (into (.flt f)).2 = .invalid) ∧
    (∀ g ∈ floatFormats, g ≠ f →
      (∀ neg m e, f.decode x = .fin neg m e false → into (.flt g) = g.place rm (.fin neg m e false) ∧
        (m = 0 → into (.flt g) = (g.signBit neg, .none))) ∧
      (∀ neg, f.decode x = .inf neg → into (.flt g) =
        if g.specials = .ieee then (g.signBit neg + g.infCode, .none) else (g.signBit neg + g.maxCode, .invalid)) ∧
      (∀ neg quiet fr fw, f.decode x = .nan neg quiet fr fw →
        (g.specials = .ieee → quieted g (into (.flt g)).1 neg (if fw ≤ g.mbits then fr * 2 ^ (g.mbits - fw) else fr / 2 ^ (fw - g.mbits)) ∧
          (into (.flt g)).2 = nv quiet) ∧
        (g.specials = .nanOnly → into (.flt g) = (g.signBit neg + 0x7F, nv quiet)) ∧
        (g.specials = .none → into (.flt g) = (0, .invalid)))) ∧
    ∀ p ∈ integerFormats,
      let c := into (.int p.1 p.2)
      let got := intOf p.1 p.2 c.1
      let lo := (intRange p.1 p.2).1
      let hi := (intRange p.1 p.2).2
      c.1 < 2 ^ p.1 ∧
      (∀ neg quiet fr fw, f.decode x = .nan neg quiet fr fw → c = (0, .invalid)) ∧
      (∀ neg, f.decode x = .inf neg → got = (if neg then lo else hi) ∧ c.2 = .invalid) ∧
      ∀ y : ℝ, ValueIs (f.decode x) y → ∃ n, RoundsInt rm (f.decode x).neg |y| n ∧
        got = max lo (min hi (if (f.decode x).neg then -(n : Int) else n)) ∧
        (c.2.nx = true ↔ (got : ℝ) ≠ y) ∧ c.2 = { nx := c.2.nx }

/-- The conversions of one element from an integer format (R205): into a float format the integer, with the sign of it, is placed by R64; into
an integer format it is saturated, with NX where that changes it. -/
def ConvertsFromInteger : Prop :=
  ∀ p ∈ integerFormats, ∀ (rm : RMode) (x : Nat),
    let i := intOf p.1 p.2 x
    (∀ g ∈ floatFormats, ∃ v, ValueIs v (i : ℝ) ∧ v.neg = decide (i < 0) ∧ convertElem (.int p.1 p.2) (.flt g) rm x = g.place rm v ∧
      (i = 0 → convertElem (.int p.1 p.2) (.flt g) rm x = (0, .none))) ∧
    ∀ q ∈ integerFormats,
      let c := convertElem (.int p.1 p.2) (.int q.1 q.2) rm x
      c.1 < 2 ^ q.1 ∧ intOf q.1 q.2 c.1 = max (intRange q.1 q.2).1 (min (intRange q.1 q.2).2 i) ∧
        c.2 = { nx := decide (intOf q.1 q.2 c.1 ≠ i) }

/-- FCVT (R204, R205): n elements, n by the wider format, each converted from its slot to its slot, the bits above them 0; an enabled flag
traps and writes nothing. What each conversion gives is `ConvertsFromFloat` and `ConvertsFromInteger`, with the rounding of R64 and the
overflow of R66. -/
def Obligations.FloatConvertResults : Prop :=
  ConvertsFromFloat ∧ ConvertsFromInteger ∧ PlacesByR64 ∧
  ∀ (f : BitVec 4) (o : LaneOps) (s : State) (t : Thread),
    let dst := AnyFmt.ofCode f.toNat
    let src := AnyFmt.ofCode o.mod.toNat
    let ns := if src.width = 64 then 2 else 1
    let nd := if dst.width = 64 then 2 else 1
    let n := cvtCount (max src.width dst.width)
    let e (j : Nat) : Nat × Flags := convertElem src dst (t.frm o.ro) (t.cellsNat o.a.toNat ns / 2 ^ (src.width * j) % 2 ^ src.width)
    let fl := allFlags ((List.range n).map fun j => (e j).2)
    Entered (.fcvt f o) s t → t.fullAt o.a.toNat ns → t.fullAt o.d.toNat nd →
    match floatTrap t.fcsr fl with
    | some c => StopsWith (.fcvt f o) s t (.trap c 0 0 0 fl.fcsrBits)
    | none => ∃ v : Nat, Completes (.fcvt f o) s (({ t with fcsr := t.fcsr ||| fl.fcsrBits } : Thread).writePlains o.d.toNat (wordsOf nd v)) ∧
        (∀ j, j < n → v / 2 ^ (dst.width * j) % 2 ^ dst.width = (e j).1 % 2 ^ dst.width) ∧ v < 2 ^ (dst.width * n)

/-! ### The lane set: variable precision -/

/-- A source of a ZXF instruction: a full group named by its head (R37, R214). -/
def ZxfAt (t : Thread) (i : Nat) (z : ZVal) : Prop :=
  ∃ lc sg, (t.cell i).tag = .head lc sg ∧ t.fullAt i (lc.toNat + 1) ∧
    z = ⟨zxfDecode (32 * (lc.toNat + 1)) (t.cellsNat i (lc.toNat + 1)), sg.toNat, 32 * (lc.toNat + 1), t.cellsNat i (lc.toNat + 1)⟩

/-- A ZXF instruction with the exact result `r` and the significance `sig` (of the rounded value, its inexactness and its rounding floor)
completes: the result rounded to PREC.p in the mode of RO or PREC.rm, its flags and PX in XFLAGS, a group of L/32 cells written; or, where
an enable of PREC is met, it raises the trap of R215 with the sticky flags set and nothing written. -/
def ZxfOutcome (i : Instr) (o : LaneOps) (s : State) (t : Thread) (r : FVal × Flags) (sig : FVal → Bool → Int → Nat) : Prop :=
  let l := zxfLength t.p
  let q := zxfRound t.p (t.xrm o.ro) r.1
  let v := sig q.1 (r.2.nx || q.2.1.nx) q.2.2
  match t.applyZxfFlags (r.2.or q.2.1) (some v) with
  | .ok u => Completes i s (u.writeZxf o.d.toNat l (zxfEncode l q.1) v)
  | .error e => StopsWith i s t e

/-- Rounding a value that stands for a nonzero real number to precision p is the rounding of R64 of that number, with the flags of R67, or the
overflow of R66; the rounded value has an image of the length of p (R72, R73, R215). -/
def ZxfRoundsByR64 : Prop :=
  ∀ (p : Nat) (rm : RMode) (v : FVal) (x : ℝ), 1 ≤ p → p ≤ 241 → StandsFor v x → x ≠ 0 →
    let r := zxfRound p rm v
    let l := zxfLength p
    let big : ℝ := (2 ^ p - 1) * 2 ^ (16384 - (p : Int))
    ∃ y, RoundsTo p (-16382) rm v.neg |x| y ∧
      (y ≤ big → (∃ m e, zxfDecode l (zxfEncode l r.1) = .fin v.neg m e false ∧ y = (m : ℝ) * 2 ^ e) ∧
        (∃ n q, r.1 = .fin v.neg n q false ∧ y = (n : ℝ) * 2 ^ q) ∧
        (r.2.1.nx = true ↔ y ≠ |x|) ∧ (r.2.1.uf = true ↔ y ≠ |x| ∧ |x| < 2 ^ (-16382 : Int)) ∧
        r.2.1.of = false ∧ r.2.1.nv = false) ∧
      (big < y → r.2.1 = { of := true, nx := true } ∧
        r.1 = if overflowToInf rm v.neg = true then .inf v.neg else .fin v.neg (2 ^ p - 1) (16384 - (p : Int)) false)

/-- What is not a nonzero number is written as it is (R65, R72, R215): a zero with its sign, an infinity, a NaN with its sign, its quiet bit and the
top bits of its fraction. That a NaN keeps those below the precision is the model's choice (log entry 45). -/
def ZxfSpecials : Prop :=
  ∀ (p : Nat) (rm : RMode) (neg : Bool), 2 ≤ p → p ≤ 241 →
    let l := zxfLength p
    let fb := l - 16
    (∀ e, zxfRound p rm (.fin neg 0 e false) = (.fin neg 0 e false, .none, 0) ∧
      zxfDecode l (zxfEncode l (.fin neg 0 e false)) = .fin neg 0 (-16382 - fb) false) ∧
    zxfRound p rm (.inf neg) = (.inf neg, .none, 0) ∧ zxfDecode l (zxfEncode l (.inf neg)) = .inf neg ∧
    ∀ fr fw, 2 ^ (fw - 1) ≤ fr → fr < 2 ^ fw → 1 ≤ fw →
      zxfRound p rm (.nan neg true fr fw) = (.nan neg true fr fw, .none, 0) ∧
      zxfDecode l (zxfEncode l (.nan neg true fr fw)) = .nan neg true (if fw ≤ fb then fr * 2 ^ (fb - fw) else fr / 2 ^ (fw - fb)) fb

/-- XARITH (R64 to R66, R69, R72, R77, R215 to R218): the exact results, those of the real numbers, rounded once by R64; the significance of sums
from the trust floors of their terms, of the others from the least of their operands. Which of two equal operands XMIN and XMAX take, and
that an overflow has significance 0, are the model's choice (log entry 45). -/
def Obligations.ZxfArithmeticResults : Prop :=
  ExactArithmetic ∧ SpecialOperands ∧ ZxfRoundsByR64 ∧ ZxfSpecials ∧ ∀ (o : LaneOps) (s : State) (t : Thread) (a b c : ZVal),
    t.fullAt o.d.toNat (zxfLength t.p / 32) → ZxfAt t o.a.toNat a →
    let rm := t.xrm o.ro
    let p := t.p
    (Entered (.xsqrt o) s t → ZxfOutcome (.xsqrt o) o s t (fltSqrt a.v) fun res nx _ =>
      resultSig [a] (fltSqrt a.v).1 res (if nx then min a.s p else a.s)) ∧
    (ZxfAt t (bCell o) b →
      let sum (r : FVal × Flags) (res : FVal) (nx : Bool) (fl : Int) : Nat :=
        resultSig [a, b] r.1 res (sumOf p [trustFloor a.v a.s, trustFloor b.v b.s] res nx fl)
      let prod (r : FVal × Flags) (res : FVal) (nx : Bool) (_ : Int) : Nat :=
        resultSig [a, b] r.1 res (if nx then min (min a.s b.s) p else min a.s b.s)
      (Entered (.xadd o) s t → ZxfOutcome (.xadd o) o s t (fltAdd rm a.v b.v) (sum (fltAdd rm a.v b.v))) ∧
      (Entered (.xsub o) s t → ZxfOutcome (.xsub o) o s t (fltSub rm a.v b.v) (sum (fltSub rm a.v b.v))) ∧
      (Entered (.xmul o) s t → ZxfOutcome (.xmul o) o s t (fltMul a.v b.v) (prod (fltMul a.v b.v))) ∧
      (Entered (.xdiv o) s t → ZxfOutcome (.xdiv o) o s t (zxfQuot a.v b.v) (prod (zxfQuot a.v b.v))) ∧
      (Entered (.xmin o) s t → ZxfOutcome (.xmin o) o s t (minMaxVal false a.v b.v) fun res nx _ =>
        resultSig [zxfChoice false a b] (minMaxVal false a.v b.v).1 res (sigIf (zxfChoice false a b).s nx p)) ∧
      (Entered (.xmax o) s t → ZxfOutcome (.xmax o) o s t (minMaxVal true a.v b.v) fun res nx _ =>
        resultSig [zxfChoice true a b] (minMaxVal true a.v b.v).1 res (sigIf (zxfChoice true a b).s nx p)) ∧
      (ZxfAt t o.c.toNat c → Entered (.xfma o) s t →
        let r := fltFma rm a.v b.v c.v
        ZxfOutcome (.xfma o) o s t r fun res nx fl => resultSig [a, b, c] r.1 res
          (sumOf p [trustFloor ((mulVal a.v b.v).getD FVal.dflt) (min a.s b.s), trustFloor c.v c.s] res nx fl)))

/-- XMISC (R219 to R224): compare with its NV flag and trap, rounding to a precision and to an integer, conversion, scaling, reading and
setting the significance, and the metadata word of a cell. That XSIG.set keeps a signalling NaN and raises no NV is DEDUCED (log entry 38);
that an overflow has significance 0 is the model's choice (log entry 45). -/
def Obligations.ZxfMiscResults : Prop :=
  ∀ (o : LaneOps) (s : State) (t : Thread) (a b : ZVal),
    let d := o.d.toNat
    let l := zxfLength t.p
    let nb := (t.cell (bCell o)).data
    (ZxfAt t o.a.toNat a → ZxfAt t (bCell o) b → Entered (.xcmp o) s t → o.mod.toNat ≤ 4 →
      let nan := a.v.isNan || b.v.isNan
      let nv := a.v.isSnan || b.v.isSnan || (decide (o.mod = 2 ∨ o.mod = 3) && nan)
      let r : Bool := if o.mod = 0 then !nan && eqVal a.v b.v else if o.mod = 1 then nan || !eqVal a.v b.v
        else if o.mod = 2 then !nan && ltVal a.v b.v else if o.mod = 3 then !nan && (ltVal a.v b.v || eqVal a.v b.v) else nan
      ((nv && t.prec[21]) = false → Completes (.xcmp o) s (({ t with xflags := t.xflags ||| (if nv then 2 else 0) } : Thread).setPred d r)) ∧
      ((nv && t.prec[21]) = true → StopsWith (.xcmp o) s t (.trap 0x81 0 0 2 0))) ∧
    (∀ (v w : FVal) (x y : ℝ), ValueIs v x → ValueIs w y → (eqVal v w = true ↔ x = y) ∧ (ltVal v w = true ↔ x < y)) ∧
    (t.fullAt d (l / 32) → ZxfAt t o.a.toNat a →
      (Entered (.xrndP o) s t → ZxfOutcome (.xrndP o) o s t (arith [a.v] (some a.v)) fun res nx _ =>
        resultSig [a] (arith [a.v] (some a.v)).1 res (sigIf a.s nx t.p)) ∧
      (Entered (.xrndInt o) s t → ZxfOutcome (.xrndInt o) o s t (zxfInt (t.xrm o.ro) a.v) fun res nx _ =>
        resultSig [a] (zxfInt (t.xrm o.ro) a.v).1 res (sigIf a.s nx t.p)) ∧
      (t.fullAt (bCell o) 1 → Entered (.xscale o) s t → ZxfOutcome (.xscale o) o s t (scaleVal a.v nb.toInt, .none) fun res nx _ =>
        resultSig [a] (scaleVal a.v nb.toInt) res (sigIf a.s nx t.p)) ∧
      (t.fullAt (bCell o) 1 → Entered (.xsigSet o) s t →
        let q := zxfRound t.p (t.xrm o.ro) a.v
        Completes (.xsigSet o) s (({ t with xflags := t.xflags ||| q.2.1.xBits } : Thread).writeZxf d l (zxfEncode l q.1)
          (if q.1.isInf && !a.v.isInf then 0 else if q.2.1.nx then min (nb.toNat % 256) t.p else nb.toNat % 256)))) ∧
    (ZxfAt t o.a.toNat a → t.fullAt d 1 → Entered (.xsigGet o) s t →
      Completes (.xsigGet o) s (t.writePlain d (BitVec.ofNat 32 a.s))) ∧
    (t.fullAt o.a.toNat (cvtPlain o.mod.toNat) → t.fullAt d (l / 32) → o.mod.toNat % 2 = 0 → Entered (.xcvt o) s t →
      let v := cvtFrom o.mod.toNat (t.cellsNat o.a.toNat (cvtPlain o.mod.toNat))
      ZxfOutcome (.xcvt o) o s t (arith [v] (some v)) fun res nx _ =>
        resultSig [⟨v, 255, 0, 0⟩] (arith [v] (some v)).1 res (sigIf 255 nx t.p)) ∧
    (ZxfAt t o.a.toNat a → t.fullAt d (cvtPlain o.mod.toNat) → o.mod.toNat % 2 = 1 → Entered (.xcvt o) s t →
      let r := cvtTo o.mod.toNat (t.xrm o.ro) a.v
      match t.applyZxfFlags r.2 none with
      | .ok u => Completes (.xcvt o) s (u.writePlains d (wordsOf (cvtPlain o.mod.toNat) r.1))
      | .error e => StopsWith (.xcvt o) s t e) ∧
    (t.latch = none → t.fullAt d 1 → Entered (.xtag o) s t →
      Completes (.xtag o) s (t.writePlain d (t.cell o.a.toNat).meta))

/-- A write of cells (R35): each cell written is full, PLAIN and holds its data, or, for a ZXF result of 32 × n bits, a group of n full cells
holds the image (R74), the first a head with the length and the significance, the others tails, and reads back as that image; no other cell
changes its data or its F, and no other register changes. -/
def Obligations.CellWritesReadBack : Prop :=
  ∀ (t : Thread) (i : Nat),
    (∀ vs : List Word, i + vs.length ≤ t.cells.length →
      let u := t.writePlains i vs
      (∀ j, (h : j < vs.length) → u.cell (i + j) = ⟨vs[j], true, .plain⟩) ∧
      (∀ j, j < i ∨ i + vs.length ≤ j → (u.cell j).data = (t.cell j).data ∧ (u.cell j).full = (t.cell j).full) ∧
      u.cells.length = t.cells.length ∧ u.sregs = t.sregs ∧ u.preds = t.preds ∧ t.sameSystem u) ∧
    ∀ n image sig : Nat, 1 ≤ n → n ≤ 8 → i + n ≤ t.cells.length → sig < 256 → image < 2 ^ (32 * n) →
      let u := t.writeZxf i (32 * n) image sig
      u.cellsNat i n = image ∧ (u.cell i).tag = .head (BitVec.ofNat 3 (n - 1)) (BitVec.ofNat 8 sig) ∧ u.fullAt i n ∧
      (∀ j, i < j → j < i + n → (u.cell j).tag = .tail) ∧
      u.zRead 0 i = .ok ⟨zxfDecode (32 * n) image, sig, 32 * n, image⟩ ∧
      (∀ j, j < i ∨ i + n ≤ j → (u.cell j).data = (t.cell j).data ∧ (u.cell j).full = (t.cell j).full) ∧
      u.sregs = t.sregs ∧ u.preds = t.preds ∧ t.sameSystem u

/-! ### Memory -/

/-- The keys of the page-table entries that translate an access: setting REF and D changes these bytes and no others (R279). -/
def pteKeys (xs : Xlated) : List Nat := xs.map fun x => devKey x.2.2.pteAddr

/-- No outstanding access of any thread shares a byte with an access. -/
def NoneOutstanding (s : State) (ls : List Loc) : Prop := ∀ q ∈ s.hw.pends, ∀ l ∈ q.locs, l ∉ ls

/-- The keys of the bytes that wait in the write-combining buffers of a thread's core (R283). -/
def wcKeys (s : State) (k : Key) : List Nat := (s.hw.ctx k.part k.core).wc.flatMap fun l => l.bytes.map fun x => x.key

/-- Bits hi:lo of a page-table entry or of a table base (R276). -/
def field (e hi lo : Nat) : Nat := e / 2 ^ lo % 2 ^ (hi + 1 - lo)

/-- The walk of the four levels (R275 to R278): which entry it reads at each, where it ends in the translation fault, and the page that its
leaf maps: of 1 GiB, 2 MiB, 64 KiB or 4 KiB. Where the entries of a 64 KiB group differ, any valid one of them serves. That a resident tiered
page outside device memory, and a table base there, give the translation fault is the model's choice (log entries 42 and 45). -/
def WalksByR278 : Prop :=
  (∀ (h : Hw) (a : Nat), pteAt h a = leNat ((List.range 8).map fun i => sget h.mem (devKey a + i))) ∧
  ∀ (h : Hw) (xlroot : DWord) (ea : Nat),
    let frame (e : Nat) : Nat := 4096 * field e 55 12
    let points (e : Nat) : Prop := field e 0 0 = 1 ∧ field e 56 56 = 0 ∧ frame e < 549755813888
    let root := 2 ^ 20 * field xlroot.toNat 55 20
    let e0 := pteAt h (root + 8 * field ea 55 39)
    let a1 := frame e0 + 8 * field ea 38 30
    let e1 := pteAt h a1
    let a2 := frame e1 + 8 * field ea 29 21
    let e2 := pteAt h a2
    let a3 := frame e2 + 8 * field ea 20 12
    let e3 := pteAt h a3
    let good (e size : Nat) : Prop := field e 0 0 = 1 ∧ field e 59 58 ≠ 3 ∧
      (field e 9 9 = 1 ∨ field e 8 8 = 1 → field e 11 10 = 0 ∧ field e 59 58 = 0) ∧ (field e 8 8 = 1 → size = 65536) ∧ frame e % size = 0 ∧
      ((field e 8 8 = 1 ∧ field e 7 7 = 0) ∨ field e 59 58 = 1 ∨ frame e + size ≤ 549755813888)
    let ends (e a size : Nat) : Prop := (good e size → walk h xlroot ea = some ⟨ea / size * size, size, BitVec.ofNat 64 e, a⟩) ∧
      (¬ good e size → walk h xlroot ea = none)
    (2 ^ 56 ≤ ea ∨ xlroot[0] = false ∨ 549755813888 ≤ root → walk h xlroot ea = none) ∧
    (ea < 2 ^ 56 → xlroot[0] = true → root < 549755813888 →
      (¬ points e0 → walk h xlroot ea = none) ∧
      (points e0 → field e1 56 56 = 1 → ends e1 a1 (2 ^ 30)) ∧
      (points e0 → field e1 56 56 = 0 → ¬ points e1 → walk h xlroot ea = none) ∧
      (points e0 → points e1 → field e2 56 56 = 1 → ends e2 a2 (2 ^ 21)) ∧
      (points e0 → points e1 → field e2 56 56 = 0 → ¬ points e2 → walk h xlroot ea = none) ∧
      (points e0 → points e1 → points e2 →
        let group (j : Nat) : Nat := frame e2 + 8 * (16 * (field ea 20 12 / 16) + j)
        let agrees (e : Nat) : Prop := field e 59 7 = field e3 59 7 ∧ field e 3 0 = field e3 3 0
        (field e3 57 57 = 0 → ends e3 a3 4096) ∧
        (field e3 57 57 = 1 → (∀ j, j < 16 → agrees (pteAt h (group j))) → ends e3 a3 65536) ∧
        (field e3 57 57 = 1 → ∀ x, walk h xlroot ea = some x → ∃ j, j < 16 ∧ good (pteAt h (group j)) 65536 ∧
          x = ⟨ea / 65536 * 65536, 65536, BitVec.ofNat 64 (pteAt h (group j)), group j⟩)))

/-- The translation that an access uses (R277, R280, R282): the walk's, unless a cached one that differs from it, in more than REF, D and reserved
bits, covers the address: then any of these. The physical address is the frame plus the place in the page, in the memory that TGT names. -/
def TranslatesByR280 : Prop :=
  (∀ (h : Hw) (w : Who) (ea : Nat),
    let now := walk h (h.part w.part).xlroot ea
    let cached (c : TlbEntry) : Prop := c ∈ (h.part w.part).tlb ∨ ∃ k, w.key = some k ∧
      (c ∈ (h.ctx k.part k.core).tlb ∨ ∃ p, w.picker = some p ∧ (p, c) ∈ (h.ctx k.part k.core).utlb)
    let same (c e : TlbEntry) : Prop := field c.pte.toNat 59 7 = field e.pte.toNat 59 7 ∧ field c.pte.toNat 3 0 = field e.pte.toNat 3 0 ∧
      c.pteAddr = e.pteAddr ∧ c.va = e.va ∧ c.size = e.size
    let differs (c : TlbEntry) : Prop := cached c ∧ c.va ≤ ea ∧ ea < c.va + c.size ∧ ∀ e, now = some e → ¬ same c e
    ((∀ c, ¬ differs c) → Machine.translate h w ea = now) ∧
    (Machine.translate h w ea = now ∨ ∃ c, differs c ∧ Machine.translate h w ea = some c)) ∧
  ∀ (e : TlbEntry) (modid ea : Nat),
    let pa := 4096 * field e.pte.toNat 55 12 + (ea - e.va)
    let tgt := field e.pte.toNat 59 58
    e.key modid ea = if tgt = 1 then hostKey pa else if tgt = 2 ∧ field ea 55 44 ≠ modid then peerKey (field ea 55 44) pa else devKey pa

/-- The permissions of a page (R85, R180, R278, R283), and the aperture of the private stacks (R13). -/
def PermitsByR278 : Prop :=
  (∀ e : Nat,
    (pagePerm .load e = true ↔ field e 1 1 = 1) ∧ (pagePerm .store e = true ↔ field e 2 2 = 1 ∧ field e 3 3 = 0) ∧
    (pagePerm .atomic e = true ↔ field e 1 1 = 1 ∧ field e 2 2 = 1 ∧ field e 3 3 = 0 ∧ field e 11 10 ≠ 1) ∧
    (pagePerm .fetch e = true ↔ field e 3 3 = 1 ∧ field e 11 10 = 0)) ∧
  ∀ (stkap : DWord) (w : Who) (ea : Nat),
    let base := 2 ^ 34 * field stkap.toNat 55 34
    (w.key = none → apertureOk stkap w ea = true) ∧
    ∀ k, w.key = some k →
      let lo := base + 65536 * (4096 * k.core + k.slot)
      (apertureOk stkap w ea = true ↔ stkap[0] = false ∨ ea < base ∨ base + 2 ^ 34 ≤ ea ∨ (lo ≤ ea ∧ ea < lo + 65536))

/-- The checks of a generic access of a thread come in the order of R172 and R13, each over every byte: translation, then, on resident
pages, page permission, then the stack aperture; the fault names the lowest byte that fails. Where all pass and the access writes a page
that another launch has staged, it waits, and where its RESTARTABLE launch has yet to stage it, it asks for that (R373, R374). That the wait for
a page of the second tier comes between translation and permission is the model's choice (log entry 45). How an address is translated, what a
page permits and what the aperture admits (R13, R275 to R282). -/
def Obligations.GenericAccessChecksInOrder : Prop :=
  WalksByR278 ∧ TranslatesByR280 ∧ PermitsByR278 ∧ ∀ (s : State) (w : Who) (acc : Acc) (ea : DWord) (n : Nat),
    let at_ (i : Nat) : DWord := ea + BitVec.ofNat 64 i
    let tr (i : Nat) : Option TlbEntry := Machine.translate s.hw w (at_ i).toNat
    (∀ i, i < n → tr i = none → (∀ j, j < i → (tr j).isSome) → checkGen s w acc ea n = .error (xlateFault acc (at_ i))) ∧
    ∀ e : Nat → TlbEntry, (∀ i, i < n → tr i = some (e i)) →
      let pte (i : Nat) : Nat := (e i).pte.toNat
      let perm (i : Nat) : Prop := pagePerm acc (pte i) = true ∧ unstageable s.hw w acc (pte i) = false
      let apt (i : Nat) : Prop := acc = .fetch ∨ apertureOk (s.hw.part w.part).stkap w (at_ i).toNat = true
      ((∃ i, i < n ∧ pteTier (pte i) = true ∧ pteRes (pte i) = false) → checkGen s w acc ea n = .error (.wait .tierPage)) ∧
      ((∀ i, i < n → pteTier (pte i) = true → pteRes (pte i) = true) →
        (∀ i, i < n → ¬ perm i → (∀ j, j < i → perm j) → checkGen s w acc ea n = .error (permFault acc (at_ i))) ∧
        ((∀ i, i < n → perm i) →
          (∀ i, i < n → ¬ apt i → (∀ j, j < i → apt j) → checkGen s w acc ea n = .error (permFault acc (at_ i))) ∧
          ((∀ i, i < n → apt i) →
            let xs := (List.range n).map fun i => (at_ i, accessKey s.hw s.mod.modid.toNat w (e i) (at_ i).toNat, e i)
            let other := ∃ x ∈ xs, stagedByOther s.hw w x.2.1 = true
            (acc.writes = false → checkGen s w acc ea n = .ok xs) ∧
            (acc.writes = true → other → checkGen s w acc ea n = .error (.wait .staging)) ∧
            (acc.writes = true → ¬ other → unstaged s.hw w xs ≠ [] → checkGen s w acc ea n = .error (.stage (unstaged s.hw w xs))) ∧
            (acc.writes = true → ¬ other → unstaged s.hw w xs = [] → checkGen s w acc ea n = .ok xs))))

/-- The keys of the stores that a thread's core can see and that have not reached their homes (R294, R299). -/
def outKeys (s : State) (k : Key) : List Nat := (s.hw.ctx k.part k.core).outq.flatMap fun o => o.bytes.map Prod.fst

/-- An access of the thread has become outstanding: the last of the list, with the bytes it touches, none of them performed. -/
def IssuedPend (s u : State) (t : Thread) (r : Reach) (p : Pend) : Prop :=
  u.hw.pends = s.hw.pends ++ [p] ∧ p.key = t.key ∧ p.tid = t.tid ∧ p.launch = t.launch ∧ p.ip = t.pc ∧ p.ea = r.ea ∧ p.gang = s.hw.gang ∧
  p.locs = r.locs ∧ p.mts = r.mts ∧ p.route = r.route

/-- The numbers of the accesses that are outstanding, or that a thread is held for, have been given. -/
def NumbersGiven (s : State) : Prop :=
  (∀ q ∈ s.hw.pends, q.id < s.hw.nextId) ∧ ∀ v ∈ s.hw.threads, ∀ n, v.park = .peer n → n < s.hw.nextId

/-- An access to a page of type 3 is performed and completes before the next instruction issues, after every earlier access of the thread and
the stores it has observed (R283, R297); only where other threads' accesses come before it, and one of them is held for a peer (R406), does the
thread wait instead: nowhere where `alone` holds of the state. That the core's caches of data are then empty is DEDUCED (log entry 5); which
wait that is, is the model's choice (log entry 45). -/
def StrongOutcome (i : Instr) (s s0 : State) (t : Thread) (r : Reach) (alone : State → Prop) (done : State → State → List Byte → Prop) : Prop :=
  (∀ e, orderAll s0 = .error e → StopsWith i s t e) ∧
  ∀ s1, orderAll s0 = .ok s1 → NumbersGiven s1 → (physKeys r.locs).any keyIsPeer = false → t.live = true →
    (∃ ue, StopsWith i s t (.consumed ue)) ∨ (¬ alone s1 ∧ StopsWith i s t (.wait .scalarLoad)) ∨
    ∃ u bs, CompletesAs i s u ∧ bs.length = r.locs.length ∧ done s1 u bs ∧ (∀ q ∈ u.hw.pends, q.id < s1.hw.nextId) ∧
      (u.hw.ctx t.key.part t.key.core).l1 = .empty ∧ (u.hw.ctx t.key.part t.key.core).con = .empty

/-- LD, SLD and XLD (R36, R172, R178, R225, R226, R283): where the access passes its checks the load is issued: a producer with the bytes of
the access becomes outstanding, the cells that it fills are marked empty, and the thread goes on, or, for SLD, is held until the data arrive.
On a page of type 3 it completes before the next instruction. XLD reads the aligned 8-byte unit of its first byte, which gives the length, at
issue. Nothing else of the thread changes, and no byte of memory but REF and D of the page-table entries. With which PREC an XLD in flight
rounds is the model's choice (log entry 45); that an access to a page of type 3 leaves the core's caches of data empty is DEDUCED (log
entry 5). -/
def Obligations.LoadsBecomeOutstanding : Prop :=
  ∀ (s : State) (t : Thread) (r : Reach),
    let s0 := s.setTh t
    let issued (v u : State) (r : Reach) (p : Pend) (cell n : Nat) : Prop :=
      IssuedPend v u t r p ∧ p.cell = cell ∧ p.ncells = n ∧ u.th.cells = (t.markEmpty cell n).cells ∧ u.th.sregs = t.sregs ∧
      u.th.preds = t.preds ∧ u.th.fcsr = t.fcsr ∧ u.th.xflags = t.xflags ∧ t.sameSystem u.th ∧ (v.canonical → SameMemoryBut (pteKeys r.xs) v u)
    (∀ (k : BitVec 2) (o : LaneOps), Entered (.ld k o) s t → t.sourcesFull (srcB o 1) → t.fullAt o.d.toNat (widthCells o.mod) →
      reach s0 .load k.toNat (t.laneEa o) (widthBytes o.mod) = .ok r →
      (r.mt < 3 → ∃ u p, exec (.ld k o) s = .next u ∧ issued s u r p o.d.toNat (widthCells o.mod) ∧ p.kind = .load o.mod ∧
        p.atom = atomOf r.ea (widthBytes o.mod) ∧ p.got = List.replicate (widthBytes o.mod) none ∧ u.th.wait = .none ∧
        u.th.pc = t.pc + BitVec.ofNat 64 (Instr.ld k o).length) ∧
      (r.mt = 3 → StrongOutcome (.ld k o) s s0 t r (fun _ => True) fun _ u bs =>
        u.th.cells = ((t.markEmpty o.d.toNat (widthCells o.mod)).fillPlain o.d.toNat (widthCells o.mod) (loadWords o.mod bs)).cells)) ∧
    (∀ (k : BitVec 3) (o : ScalarOps), Entered (.sld k o) s t →
      reach s0 .load (scalarSpace o) (t.scalarEa o) (sldSize k).1 = .ok r →
      (r.mt < 3 → ∃ u p, exec (.sld k o) s = .next u ∧ issued s u r p 0 0 ∧
        p.kind = .sload (o.d.extractLsb' 0 5) (sldSize k).1 (sldSize k).2 ∧ p.got = List.replicate (sldSize k).1 none ∧
        (∃ n, u.th.wait = .held .scalarLoad n) ∧ u.th.pc = t.pc) ∧
      (r.mt = 3 → StrongOutcome (.sld k o) s s0 t r (fun _ => True) fun _ u bs =>
        u.th.cells = t.cells ∧ u.th.sregs = (t.setSreg (o.d.extractLsb' 0 5).toNat (scalarOf (sldSize k).1 (sldSize k).2 bs)).sregs)) ∧
    (∀ (k : BitVec 2) (o : LaneOps) (s1 : State) (p1 : Pend) (r1 : Reach), Entered (.xld k o) s t → t.sourcesFull (srcB o 1) →
      reach s0 .load k.toNat (t.laneEa o) 1 = .ok r1 → r1.mt < 3 → r1.lost s.hw = false →
      readNow s0 (r1.extend (8 - r1.ea.toNat % 8)) 8 = .ok (p1, s1) →
      ((∀ q ∈ s.hw.pends, ¬ (q.key = t.key ∧ q.tid = t.tid ∧ q.launch = t.launch) ∧ q.id ≠ s.hw.nextId) → outKeys s t.key = [] →
        SameMemory s s1 ∧ s1.hw.pends = s.hw.pends) ∧
      (reach s1 .load k.toNat (t.laneEa o) (zxfBytes ((p1.bytes.getD []).getD 0 0)) = .ok r → r.mt < 3 →
        t.fullAt o.d.toNat (zxfLength t.p / 32) →
        ∃ u p, exec (.xld k o) s = .next u ∧ issued s1 u r p o.d.toNat (zxfLength t.p / 32) ∧
          p.kind = .xload t.p (if o.ro = 0 then t.prec.extractLsb' 16 3 else o.ro - 1) t.smin ∧ p.atom = 8 ∧
          p.got = (List.range r.locs.length).map (fun i => p1.got.getD i none) ∧ s.hw.gang ∈ u.th.gangs ∧
          u.th.wait = .none ∧ u.th.pc = t.pc + BitVec.ofNat 64 (Instr.xld k o).length)) ∧
    ∀ (k : BitVec 2) (o : LaneOps) (s1 s2 : State) (p1 : Pend) (r1 : Reach), Entered (.xld k o) s t → t.sourcesFull (srcB o 1) → t.live = true →
      reach s0 .load k.toNat (t.laneEa o) 1 = .ok r1 → r1.mt = 3 → orderAll s0 = .ok s1 → r1.lost s1.hw = false →
      readNow s1 (r1.extend (8 - r1.ea.toNat % 8)) 8 = .ok (p1, s2) → NumbersGiven s2 →
      reach s2 .load k.toNat (t.laneEa o) (zxfBytes ((p1.bytes.getD []).getD 0 0)) = .ok r → r.mt = 3 → r.lost s2.hw = false →
      t.fullAt o.d.toNat (zxfLength t.p / 32) →
      (∃ ue, StopsWith (.xld k o) s t (.consumed ue)) ∨
      ∃ u bs, CompletesAs (.xld k o) s u ∧ bs.length = r.locs.length ∧
        (∀ i b, p1.got[i]? = some (some b) → i < bs.length → bs[i]? = some b) ∧
        u.th.cells = ((t.markEmpty o.d.toNat (zxfLength t.p / 32)).fillZxf o.d.toNat t.p
          (if o.ro = 0 then t.prec.extractLsb' 16 3 else o.ro - 1) t.smin bs).cells

/-- A store that passes its checks (R171 to R175, R283): it becomes outstanding with its bytes, the registers of the thread stay, and no byte
of memory changes but REF and D of the page-table entries; on a page of type 3 its bytes are at their homes before the next instruction. -/
def StoreOutcome (i : Instr) (s : State) (t : Thread) (space : Nat) (ea : DWord) (bs : List Byte) (atom : Nat) : Prop :=
  let s0 := s.setTh t
  ∀ r : Reach, reach s0 .store space ea bs.length = .ok r →
    (r.mt < 3 → ∃ u p, exec i s = .next u ∧ IssuedPend s u t r p ∧ p.kind = .store bs ∧ p.atom = atom ∧
      p.got = List.replicate bs.length none ∧ u.th = t.past i.length ∧ (s.canonical → SameMemoryBut (pteKeys r.xs) s u)) ∧
    (r.mt = 3 → StrongOutcome i s s0 t r (fun s1 => NoneOutstanding s1 r.locs) fun s1 u _ =>
      u.th = t ∧ (s1.canonical → NoneOutstanding s1 r.locs → (∀ m ∈ r.mts, 2 ≤ m) → (xkeys r.xs).Nodup →
        (xkeys r.xs).map (sget u.hw.mem) = bs ∧ SameMemoryBut (xkeys r.xs ++ pteKeys r.xs ++ outKeys s1 t.key ++ wcKeys s1 t.key) s1 u))

/-- A store that is performed, with nothing before it and no other store of its gang to its bytes (R174, R175, R283, R294, R299). On normal
pages its bytes are what the threads of its core read, and no home changes; on pages of type 2 and 3 they are at their homes; on type 1 they
are in the core's buffer, or at their homes where the buffer has filled; in the scratchpad they are in the launch's region. A store of a normal
page may also go home at once (`performAt true`; other threads of its core may then still read what stood there); one that covers a poisoned granule does. The stores that a
core can see come home with the values that it saw. That a store of a normal page is otherwise first seen on its own core and comes home later is DEDUCED
(log entry 5). -/
def StoresLand : Prop :=
  (∀ (h : Hw) (p : Pend) (data : List Byte) (ks : List Nat), swf h.mem = true → p ∈ h.pends → (∀ q ∈ h.pends, q.id = p.id → q = p) →
    p.kind = .store data → data.length = p.locs.length → p.mts.length = p.locs.length → p.got = List.replicate p.locs.length none →
    (∀ q ∈ h.pends, q ≠ p → q.before p p.locs = [] ∧ (q.isStore = true → q.gang = p.gang → ∀ l ∈ q.locs, l ∉ p.locs)) →
    (∃ x ∈ h.ctxs, x.part = p.key.part ∧ x.core = p.key.core) → p.locs = ks.map Loc.phys → ks.Nodup →
    (∀ t ∈ h.threads, t.park ≠ .peer p.id) →
    let c := h.ctx p.key.part p.key.core
    let h' := perform h p
    let c' := h'.ctx p.key.part p.key.core
    (∀ q ∈ h'.pends, q.id ≠ p.id) ∧
    let sound (g : Nat) : Prop := (∀ x ∈ h.poison, x.granule ≠ g) ∧ ∀ x ∈ h.latent, x.granule ≠ g
    (p.route = .l1 → (∀ m ∈ p.mts, m = 0) → (∀ l ∈ c.wc, ∀ x ∈ l.bytes, x.id ∉ p.sees) → (∀ o ∈ c.outq, (o.bytes.map Prod.fst).Nodup) →
      (∀ o ∈ c.outq, o.gang = p.gang → ∀ x ∈ o.bytes, x.1 ∉ ks) →
      ((∀ g, (∀ i, i < 32 → 32 * g + i ∈ ks) → sound g) → h'.mem = h.mem) ∧
      (∀ i, i < ks.length → c'.view h'.mem (ks.getD i 0) = data.getD i 0) ∧ ∀ k, k ∉ ks → c'.view h'.mem k = c.view h.mem k) ∧
    (let reaches (h' : Hw) : Prop := (∀ i, i < ks.length → sget h'.mem (ks.getD i 0) = data.getD i 0) ∧
      ∀ k, k ∉ ks → (∀ o ∈ c.outq, ∀ x ∈ o.bytes, x.1 ≠ k) → (∀ l ∈ c.wc, ∀ x ∈ l.bytes, x.id ∈ p.sees → ∀ y ∈ l.bytes, y.key ≠ k) →
        sget h'.mem k = sget h.mem k
     (p.route = .uncached → (∀ m ∈ p.mts, m ≠ 1) → reaches h') ∧
     (p.route = .l1 → (∀ m ∈ p.mts, m = 0) → reaches (performAt true (h.pends.length + 1) h p.id p.units))) ∧
    (p.route = .uncached → (∀ m ∈ p.mts, m = 1) → ∀ i, i < ks.length →
      wcByte c' p.key (ks.getD i 0) = some (data.getD i 0) ∨ sget h'.mem (ks.getD i 0) = data.getD i 0)) ∧
  (∀ (h : Hw) (p : Pend) (data : List Byte) (os : List Nat), p ∈ h.pends → (∀ q ∈ h.pends, q.id = p.id → q = p) →
    p.kind = .store data → data.length = p.locs.length → p.mts = [] → p.got = List.replicate p.locs.length none →
    (∀ q ∈ h.pends, q ≠ p → q.before p p.locs = [] ∧ (q.isStore = true → q.gang = p.gang → ∀ l ∈ q.locs, l ∉ p.locs)) →
    p.route = .scratch → p.locs = os.map Loc.scr → os.Nodup → (∀ t ∈ h.threads, t.park ≠ .peer p.id) →
    (∃ x ∈ h.ctxs, x.part = p.key.part ∧ x.core = p.key.core) → (∃ x ∈ (h.ctx p.key.part p.key.core).regions, x.launch = p.launch) →
    swf ((h.ctx p.key.part p.key.core).region p.launch).scr = true →
    let m := ((h.ctx p.key.part p.key.core).region p.launch).scr
    let m' := (((perform h p).ctx p.key.part p.key.core).region p.launch).scr
    (∀ i, i < os.length → sget m' (os.getD i 0) = data.getD i 0) ∧ ∀ o, o ∉ os → sget m' o = sget m o) ∧
  ∀ (h : Hw) (part core : Nat), swf h.mem = true → (∃ x ∈ h.ctxs, x.part = part ∧ x.core = core) →
    (∀ o ∈ (h.ctx part core).outq, (o.bytes.map Prod.fst).Nodup) →
    ((drainOutAll h part core).ctx part core).outq = [] ∧
    ∀ k, sget (drainOutAll h part core).mem k = (h.ctx part core).view h.mem k

/-- ST, SST and XST (R171 to R178, R226, R227, R283, R294): where the access passes its checks, a store of the bytes of the source at the
address that the instruction computes becomes outstanding, in the units in which it is atomic, and the thread goes on; the registers of the
thread stay. When it is performed its bytes, and no others, are what its core reads, and they reach their homes with the values it saw. That
they are first seen on their own core, and that a store to a page of type 3 leaves the core's caches of data empty, is DEDUCED (log entry 5). -/
def Obligations.StoresWriteTheirBytes : Prop :=
  StoresLand ∧ ∀ (s : State) (t : Thread),
    (∀ (k : BitVec 2) (o : LaneOps), Entered (.st k o) s t → t.sourcesFull (srcB o 1 ++ [(3, o.d.toNat, widthCells o.mod)]) →
      StoreOutcome (.st k o) s t k.toNat (t.laneEa o) (leBytes (widthBytes o.mod) (t.cellsNat o.d.toNat (widthCells o.mod)))
        (atomOf (t.laneEa o) (widthBytes o.mod))) ∧
    (∀ (k : BitVec 2) (o : ScalarOps), Entered (.sst k o) s t →
      StoreOutcome (.sst k o) s t (scalarSpace o) (t.scalarEa o) (leBytes (2 ^ k.toNat) (t.code o.d).toNat)
        (atomOf (t.scalarEa o) (2 ^ k.toNat))) ∧
    (∀ (k : BitVec 2) (o : LaneOps) (z : ZVal) (r : Reach), Entered (.xst k o) s t → t.sourcesFull (srcB o 1) → ZxfAt t o.d.toNat z →
      reach (s.setTh t) .store k.toNat (t.laneEa o) (2 + z.l / 8) = .ok r →
      StoreOutcome (.xst k o) s t k.toNat (t.laneEa o) (zxfImage t.p z) 8)

/-- The atomics of the table of R179: minor, operation and width. -/
def amoTable (o : LaneOps) : List (Instr × AmoOp × Nat) :=
  [(.amoAddB32 o, .add, 4), (.amoAddB64 o, .add, 8), (.amoMinI32 o, .minI, 4), (.amoMinN32 o, .minN, 4), (.amoMaxI32 o, .maxI, 4),
   (.amoMaxN32 o, .maxN, 4), (.amoAndB32 o, .and, 4), (.amoOrB32 o, .or, 4), (.amoXorB32 o, .xor, 4), (.amoSwapB32 o, .swap, 4),
   (.amoSwapB64 o, .swap, 8), (.amoCasB32 o, .cas, 4), (.amoCasB64 o, .cas, 8), (.amoCasB128 o, .cas, 16), (.amoFaddF32 o, .fadd, 4)]

/-- AMO (R36, R105, R179 to R182, R283): an aligned atomic on admitted bytes is issued: its cells are marked empty and an atomic with its
operands becomes outstanding; with an acquire beyond the thread's scope it is performed at once, and on a page of type 3 it also completes
(when the others are performed is free, log entry 5). A misaligned one raises the permission fault. The new value, w = 8 × bytes: the sum
modulo 2^w, the lesser or greater as signed or as unsigned numbers, the bitwise operations, the operand, the swap value where the old value
equals the compare value, and the binary32 sum rounded to nearest even. -/
def Obligations.AtomicsBecomeOutstanding : Prop :=
    (∀ (o : LaneOps) (s s1 : State) (t : Thread) (r : Reach), ∀ x ∈ amoTable o,
      let i := x.1
      let op := x.2.1
      let n := x.2.2
      let cells := n / 4
      let s0 := s.setTh t
      let scr := (amoScope t.mode o.mod).2
      let named := if r.beyond then 4 else (amoScope t.mode o.mod).1
      let scope := if named = 2 ∧ t.crew = 0 then 1 else named
      let c := if op = .cas then BitVec.ofNat 128 (t.cellsNat o.c.toNat cells) else 0
      let acquire := (r.mt == 3 || o.mod[3]) && scope != 1
      let discard := acquire && (scope == 0 || scope == 4)
      let p := s1.newPend (.atomic op n (t.amoB o cells) c (o.mod.extractLsb' 3 2) discard) o.d.toNat cells n r
      let issued := noteGang ((touched s1 (if op = .cas then .load else .atomic) r).issuePend p)
      Entered i s t → t.sourcesFull (srcB o cells ++ if op = .cas then srcC o cells else []) →
      ((t.sreg o.a.toNat).toNat % n ≠ 0 → StopsWith i s t (permFault .atomic (t.sreg o.a.toNat))) ∧
      (reachAmo s0 scr n (t.sreg o.a.toNat) = .ok r → t.fullAt o.d.toNat cells → releaseFirst s0 scope o.mod = .ok s1 →
        (r.mt < 3 → acquire = false → CompletesAs i s issued) ∧
        (r.mt < 3 → acquire = true → (∀ u, performNow issued s1.hw.nextId = .ok u → CompletesAs i s (forget u fun p => p != 1)) ∧
          ∀ e, performNow issued s1.hw.nextId = .error e → StopsWith i s t e) ∧
        (r.mt = 3 → StrongOutcome i s s1 t r (fun v => ∀ q ∈ v.hw.pends, q.isAtomic = true → q.gang ≠ v.hw.gang) fun _ u bs =>
          u.th.cells = ((t.markEmpty o.d.toNat cells).fillPlain o.d.toNat cells (wordsOf cells (leNat bs))).cells))) ∧
    ∀ (n old b c : Nat), n ∈ [4, 8, 16] → old < 2 ^ (8 * n) → b < 2 ^ (8 * n) → c < 2 ^ (8 * n) →
      let w := 8 * n
      let sg (x : Nat) : Int := if x < 2 ^ (w - 1) then x else (x : Int) - 2 ^ w
      amoNew .add n old b c = (old + b) % 2 ^ w ∧
      (amoNew .minI n old b c = old ∨ amoNew .minI n old b c = b) ∧ sg (amoNew .minI n old b c) = min (sg old) (sg b) ∧
      (amoNew .maxI n old b c = old ∨ amoNew .maxI n old b c = b) ∧ sg (amoNew .maxI n old b c) = max (sg old) (sg b) ∧
      amoNew .minN n old b c = min old b ∧ amoNew .maxN n old b c = max old b ∧
      amoNew .and n old b c = old &&& b ∧ amoNew .or n old b c = old ||| b ∧ amoNew .xor n old b c = old ^^^ b ∧
      amoNew .swap n old b c = b ∧ amoNew .cas n old b c = (if old = b then c else old) ∧
      (n = 4 → (fmtF32.decode old).isNan = false → (fmtF32.decode b).isNan = false →
        amoNew .fadd n old b c = (fmtF32.place .rne ((addVal .rne (fmtF32.decode old) (fmtF32.decode b)).getD FVal.dflt)).1)

/-! ### Cross-lane instructions -/

/-- The cross-lane instructions of R208 to R211. -/
def laneTable (o : LaneOps) : List Instr :=
  [.shflIdx o, .shflUp o, .shflDown o, .shflXor o, .voteAny o, .voteAll o, .voteBallot o, .voteUniform o, .red o, .scanIncl o, .scanExcl o,
   .permbNib o, .permbByte o]

/-- Which open rendezvous an arriving member belongs to (R27): one of its crew that shares a rank with the member's tile. At the PC and the TILE
recorded there the arrival is counted; at another it raises RDVZ, with that PC; where the member belongs to none, it opens one over its
tile. -/
def ArrivesByR27 : Prop :=
  ∀ (c : Ctx) (t : Thread) (i : Instr) (a : Arrival),
    let w := t.tile.toNat
    let base := t.rank / 2 ^ w * 2 ^ w
    let belongs (r : Rendezvous) : Prop := r.crew = t.crew ∧ ∃ k, base ≤ k ∧ k < base + 2 ^ w ∧ r.base ≤ k ∧ k < r.base + 2 ^ r.tile
    ((∀ r ∈ c.rvs, ¬ belongs r) → joinRendezvous c t i a = .ok { c with rvs := c.rvs ++ [⟨t.crew, base, w, t.pc, i, [a]⟩] }) ∧
    ∀ pre r post, c.rvs = pre ++ r :: post → (∀ q ∈ pre, ¬ belongs q) → belongs r →
      (r.pc = t.pc → r.tile = w → (∀ q ∈ pre ++ post, ¬ (q.crew = r.crew ∧ q.base = r.base)) →
        joinRendezvous c t i a = .ok { c with rvs := pre ++ { r with arrivals := r.arrivals ++ [a] } :: post }) ∧
      (r.pc ≠ t.pc ∨ r.tile ≠ w → joinRendezvous c t i a = .error r.pc)

/-- When a rendezvous completes (R22, R26): once no rank of its tile is reserved and every member of its crew, neither vacant nor exited, whose rank
lies in it has arrived. Every one that is complete is over, with its result for each member that has arrived, which goes on after the
instruction; the members of no such one stay as they are. -/
def CompletesByR26 : Prop :=
  (∀ (s : State) (part core handle : Nat) (t : Thread), t ∈ s.members part core handle ↔
    t ∈ s.allThreads ∧ t.key.part = part ∧ t.key.core = core ∧ t.crew = handle ∧ handle ≠ 0) ∧
  ∀ (s : State) (part core handle : Nat), (∃ c ∈ s.hw.ctxs, c.part = part ∧ c.core = core) →
    let rvs := (s.hw.ctx part core).rvs
    (rvs.map fun r => (r.crew, r.base)).Nodup →
    let full (r : Rendezvous) : Prop := r ∈ rvs ∧ r.crew = handle ∧ r.arrivals ≠ [] ∧
      (∀ c, (s.hw.ctx part core).crew? handle = some c → ∀ k ∈ c.reserved, ¬ (r.base ≤ k ∧ k < r.base + 2 ^ r.tile)) ∧
      ∀ t ∈ s.members part core handle, r.base ≤ t.rank → t.rank < r.base + 2 ^ r.tile → ∃ a ∈ r.arrivals, a.rank = t.rank
    let u := settleRendezvous s part core handle
    (∀ r, r ∈ (u.hw.ctx part core).rvs ↔ r ∈ rvs ∧ ¬ full r) ∧
    (∀ k t r me, full r → s.thread? k = some t → k.part = part → k.core = core → t.crew = handle →
      r.arrivals.find? (fun a => a.rank == t.rank) = some me → (∀ q ∈ rvs, q ≠ r → q.crew = handle → ∀ a ∈ q.arrivals, a.rank ≠ t.rank) →
      u.thread? k = some (((if me.guard then
        t.takeLane r.op (laneResult r.op (t.frm (laneOpsOf r.op).ro) r.arrivals r.base (2 ^ r.tile) me) else t).past r.op.length))) ∧
    ∀ k t, s.thread? k = some t → (¬ (k.part = part ∧ k.core = core ∧ t.crew = handle) ∨
      ∀ r, full r → ∀ a ∈ r.arrivals, a.rank ≠ t.rank) → u.thread? k = some t

/-- A cross-lane instruction of a thread in no crew completes at once as a tile of one; a false guard receives nothing (R28, R206). In a crew
the thread arrives and is held, and whatever rendezvous of the crew is now ready completes; an arrival at another PC or with another TILE
raises RDVZ with the PC of the open rendezvous (R26, R27). That RED and SCAN of a thread in no crew return the raw value with the flags of R210
is DEDUCED (log entry 26). -/
def Obligations.CrossLaneInstructionsRendezvous : Prop :=
  ArrivesByR27 ∧ CompletesByR26 ∧ ∀ (o : LaneOps) (s : State) (t : Thread) (me : Arrival), ∀ i ∈ laneTable o,
    s.th.regsOk i = true → s.th.charge i = some t → arrivalOf t i o = .ok me →
    let x := s.hw.ctx t.key.part t.key.core
    (t.crew = 0 → me.guard = false → Completes i s t) ∧
    (t.crew = 0 → me.guard = true →
      let r := laneResult i (t.frm o.ro) [me] me.rank 1 me
      let own := i ∈ [.red o, .scanIncl o, .scanExcl o]
      (own → Completes i s (t.takeLane i { r with cell := some me.a })) ∧ (¬ own → Completes i s (t.takeLane i r))) ∧
    (∀ c, t.crew ≠ 0 → joinRendezvous x t i me = .ok c → exec i s = .next
      (settleRendezvous (((s.setTh t).mapHw fun h => h.setCtx c).hold .rendezvous) t.key.part t.key.core t.crew)) ∧
    (∀ pc, t.crew ≠ 0 → joinRendezvous x t i me = .error pc → StopsWith i s t (.fault ⟨4, 0, false, false, pc, 0⟩))

/-- What each contributor of a tile of `w` lanes receives (R79, R199, R208 to R211): the shuffles, the votes, the ballot, sums, least and
greatest elements with their identities, on integers and on floats, and the bytes of PERMB. A float sum is the exact sum of the real numbers,
rounded once; a NaN is that of the lowest lane; infinities of both signs are invalid. A lane's contributor is the member of that rank that has
arrived, with a guard that is true; a lane without one gives nothing. That an exact sum of zero is +0 in the mode .rdn too, unless every term is
−0, is the model's choice (log entry 45). -/
def Obligations.CrossLaneResults : Prop :=
  (∀ (xs : List Arrival) (base lane : Nat), (∀ a, contributor xs base lane = some a → a ∈ xs ∧ a.guard = true ∧ a.rank = base + lane) ∧
    (contributor xs base lane = none → ∀ a ∈ xs, a.guard = true → a.rank ≠ base + lane)) ∧
  (∀ (xs : List Arrival) (base lo n : Nat), contributors xs base lo lo = [] ∧ contributors xs base lo (lo + n + 1) =
    contributors xs base lo (lo + n) ++ (contributor xs base (lo + n)).toList) ∧
  ∀ (o : LaneOps) (rm : RMode) (xs : List Arrival) (base w : Nat) (me : Arrival), w ≤ 32 → base ≤ me.rank → me.rank < base + w →
    let l := me.rank - base
    let at_ (j : Nat) : Option Arrival := contributor xs base j
    let res (i : Instr) : LaneResult := laneResult i rm xs base w me
    let shfl (j : Int) : LaneResult :=
      let hit := (if 0 ≤ j ∧ j < w then at_ j.toNat else none)
      ⟨some ((hit.map fun a => a.a).getD me.a), some ((o.mod.extractLsb' 0 3).toNat, hit.isSome), .none⟩
    let byte (v : Word) (i : Nat) : Nat := v.toNat / 2 ^ (8 * i) % 256
    let table (k : Nat) : Nat := if k / 4 < w then ((at_ (k / 4)).map fun a => byte a.a (k % 4)).getD 0 else 0
    let size := if o.mod[0] then 32 else 16
    res (.shflIdx o) = shfl me.b.toNat ∧ res (.shflUp o) = shfl ((l : Int) - me.b.toNat) ∧
    res (.shflDown o) = shfl ((l : Int) + me.b.toNat) ∧ res (.shflXor o) = shfl ((l ^^^ me.b.toNat : Nat) : Int) ∧
    (∃ v, res (.voteAny o) = ⟨none, some (o.d.toNat, v), .none⟩ ∧ (v = true ↔ ∃ j a, j < w ∧ at_ j = some a ∧ a.p = true)) ∧
    (∃ v, res (.voteAll o) = ⟨none, some (o.d.toNat, v), .none⟩ ∧ (v = true ↔ ∀ j a, j < w → at_ j = some a → a.p = true)) ∧
    (∃ v, res (.voteUniform o) = ⟨none, some (o.d.toNat, v), .none⟩ ∧ (v = true ↔ ∀ j a, j < w → at_ j = some a → a.p = me.p)) ∧
    (∃ v : Word, res (.voteBallot o) = ⟨some v, none, .none⟩ ∧
      ∀ j, j < 32 → (v.getLsbD j = true ↔ j < w ∧ ∃ a, at_ j = some a ∧ a.p = true)) ∧
    (∀ (i : Instr) (hi : Nat), (i = .red o ∧ hi = w) ∨ (i = .scanIncl o ∧ hi = l + 1) ∨ (i = .scanExcl o ∧ hi = l) →
      (o.mod.extractLsb' 3 2).toNat < 2 → ∃ v : Word, res i = ⟨some v, none, .none⟩ ∧
        let vs := (contributors xs base 0 hi).map fun a => a.a
        let op := (o.mod.extractLsb' 0 3).toNat
        let sg := (o.mod.extractLsb' 3 2).toNat = 0
        (op = 0 → v = vs.foldl (· + ·) 0) ∧ (op = 3 → v = vs.foldl (· &&& ·) 0xFFFFFFFF) ∧ (op = 4 → v = vs.foldl (· ||| ·) 0) ∧
        (op = 5 → v = vs.foldl (· ^^^ ·) 0) ∧
        (op = 1 → sg → (v ∈ vs ∨ v = 0x7FFFFFFF) ∧ ∀ x ∈ vs, v.toInt ≤ x.toInt) ∧
        (op = 1 → ¬ sg → (v ∈ vs ∨ v = 0xFFFFFFFF) ∧ ∀ x ∈ vs, v.toNat ≤ x.toNat) ∧
        (op = 2 → sg → (v ∈ vs ∨ v = 0x80000000) ∧ ∀ x ∈ vs, x.toInt ≤ v.toInt) ∧
        (op = 2 → ¬ sg → (v ∈ vs ∨ v = 0) ∧ ∀ x ∈ vs, x.toNat ≤ v.toNat)) ∧
    (∀ (i : Instr) (hi : Nat), (i = .red o ∧ hi = w) ∨ (i = .scanIncl o ∧ hi = l + 1) ∨ (i = .scanExcl o ∧ hi = l) →
      (o.mod.extractLsb' 3 2).toNat = 2 → (o.mod.extractLsb' 0 3).toNat < 3 →
        let vs := (contributors xs base 0 hi).map fun a => fmtF32.decode a.a.toNat
        let op := (o.mod.extractLsb' 0 3).toNat
        let code (v : FVal) (fl : Flags) : LaneResult :=
          ⟨some (BitVec.ofNat 32 (fmtF32.place rm v).1), none, fl.or (fmtF32.place rm v).2⟩
        let nv : Flags := if ∃ v ∈ vs, v.isSnan = true then .invalid else .none
        let better (x y : FVal) : Bool := if op = 1 then ltTotal x y else ltTotal y x
        (op = 0 → (∀ n, vs.find? FVal.isNan = some n → res i = code n.quieten nv) ∧
          ((∀ v ∈ vs, v.isNan = false) →
            (FVal.inf false ∈ vs → FVal.inf true ∈ vs → res i = code FVal.dflt .invalid) ∧
            (∀ n, FVal.inf n ∈ vs → FVal.inf (!n) ∉ vs → res i = code (.inf n) .none) ∧
            ∀ rs : List ℝ, List.Forall₂ ValueIs vs rs →
              ∃ v, res i = code v .none ∧ ValueIs v rs.sum ∧
                (rs.sum = 0 → (v.neg = true ↔ vs ≠ [] ∧ ∀ v ∈ vs, v.isZero = true ∧ v.neg = true)))) ∧
        (op = 1 ∨ op = 2 →
          (∀ v ∈ vs, v.isNan = false → ∃ m ∈ vs, m.isNan = false ∧ res i = code m nv ∧ ∀ x ∈ vs, x.isNan = false → better x m = false) ∧
          (∀ n, vs.find? FVal.isNan = some n → (∀ v ∈ vs, v.isNan = true) → res i = code n.quieten nv) ∧
          (vs = [] → res i = code (.inf (decide (op = 2))) .none))) ∧
    (∃ v : Word, res (.permbNib o) = ⟨some v, none, .none⟩ ∧ ∀ i, i < 4 → byte v i = table (byte me.b i % 16)) ∧
    (∃ v : Word, res (.permbByte o) = ⟨some v, none, .none⟩ ∧
      ∀ i, i < 4 → byte v i = if byte me.b i < size then table (byte me.b i) else 0)

/-! ### Crews -/

/-- Nothing that a thread has read ahead on some paths counts any longer (R297). -/
def ForgotAhead (c : Ctx) (k : Key) (p : Nat → Prop) : Prop := ∀ a ∈ c.ahead, a.key = k → ¬ p a.route.path

/-- When CJOIN fails (R20), where the partition has at most one crew of the key. -/
def JoinFailsByR20 : Prop :=
  ∀ (t : Thread) (h : Hw) (key : DWord),
    let never := key = 0 ∨ key[63] = true ∨ t.crew ≠ 0
    ((∀ c ∈ h.ctxs, c.part = t.key.part → ∀ x ∈ c.crews, x.key ≠ key) → (joinFails t h key = true ↔ never)) ∧
    ∀ c ∈ h.ctxs, c.part = t.key.part → ∀ x ∈ c.crews, x.key = key →
      (∀ d ∈ h.ctxs, d.part = t.key.part → ∀ y ∈ d.crews, y.key = key → d.core = c.core ∧ y = x) →
      (joinFails t h key = true ↔ never ∨ c.core ≠ t.key.core ∨ 1024 ≤ x.crewn)

/-- Leaving a crew (R21, R26, R189): the rank becomes vacant, CREWN does not fall, an arrival of the leaver at a rendezvous is withdrawn, and what
waited for it alone completes; a crew with no member and no reserved rank dissolves, and its reservations are released. -/
def LeavesByR21 : Prop :=
  (∀ (s : State) (k : Key) (t : Thread), s.thread? k = some t → (∃ c ∈ s.hw.ctxs, c.part = k.part ∧ c.core = k.core) →
    (t.crew = 0 → leaveCrew s k = s) ∧
    (t.crew ≠ 0 → ∃ v, leaveCrew s k = settleCrew v k.part k.core t.crew ∧
      v.thread? k = some { t with crew := 0, rank := 0, arrived := false, exempt := false } ∧ (∀ k', k' ≠ k → v.thread? k' = s.thread? k') ∧
      (v.hw.ctx k.part k.core).crews = (s.hw.ctx k.part k.core).crews ∧
      (v.hw.ctx k.part k.core).rvs = ((s.hw.ctx k.part k.core).rvs.map fun r =>
        if r.crew = t.crew then { r with arrivals := r.arrivals.filter fun a => a.rank ≠ t.rank } else r).filter fun r => r.arrivals ≠ [])) ∧
  (∀ (s : State) (part core handle : Nat), handle ≠ 0 → settleCrew s part core handle =
    dissolveCrew (settlePhase (settlePhase (settleRendezvous s part core handle) part core handle) part core handle) part core handle) ∧
  ∀ (s : State) (part core handle : Nat) (x : Crew), (∃ c ∈ s.hw.ctxs, c.part = part ∧ c.core = core) →
    (s.hw.ctx part core).crew? handle = some x →
    let ends := s.members part core handle = [] ∧ x.reserved = []
    (¬ ends → dissolveCrew s part core handle = s) ∧
    (ends → let c := (dissolveCrew s part core handle).hw.ctx part core
      (∀ y, y ∈ c.crews ↔ y ∈ (s.hw.ctx part core).crews ∧ y.handle ≠ handle) ∧
      c.resvs = (s.hw.ctx part core).resvs.map fun r => if r.owner = .crew handle then { r with released := true } else r)

/-- Barrier phases (R188, R190 to R192): the open phase of a crew completes once no rank is reserved and every member that takes part in it has
arrived; then the next one is the open one, the members that waited in it go on, a member that had joined meanwhile takes part, and the core's
constant cache is empty. CCOMPACT renumbers the ranks densely in their old order, and CREWN is their number. -/
def PhasesByR190 : Prop :=
  (∀ s : State, settleArrival s = settlePhase s s.th.key.part s.th.key.core s.th.crew) ∧
  (∀ (s : State) (part core handle : Nat) (x : Crew), (∃ c ∈ s.hw.ctxs, c.part = part ∧ c.core = core) →
    (s.hw.ctx part core).crew? handle = some x →
    let us := s.members part core handle
    let ready := x.reserved = [] ∧ ∀ t ∈ us, t.arrived = true ∨ t.exempt = true
    let u := settlePhase s part core handle
    (x.phase = none ∨ ¬ ready → u = s) ∧
    ∀ ph, x.phase = some ph → ready →
      let ranks := us.map fun t => t.rank
      let c := u.hw.ctx part core
      c.crew? handle = some (if ph.compact then { x with phase := x.next, next := none, crewn := ranks.toFinset.card } else
        { x with phase := x.next, next := none }) ∧ c.con = Cache.empty ∧
      (∀ t ∈ us, ForgotAhead c t.key fun _ => True) ∧
      (∀ k t, s.thread? k = some t → ¬ (k.part = part ∧ k.core = core ∧ t.crew = handle) → u.thread? k = some t) ∧
      ∀ k t, s.thread? k = some t → k.part = part → k.core = core → t.crew = handle → handle ≠ 0 →
        let r := if ph.compact then (ranks.toFinset.filter fun r => r < t.rank).card else t.rank
        (t.exempt = true → u.thread? k = some { t with rank := r, exempt := false }) ∧
        (t.exempt = false → t.arrived = true → (∀ since, t.wait = .held .barrier since → u.thread? k =
            some (({ t with rank := r, arrived := false } : Thread).past (t.latch.getD 4).toNat)) ∧
          ((∀ since, t.wait ≠ .held .barrier since) → u.thread? k = some { t with rank := r, arrived := false }))) ∧
  ∀ ranks : List Nat,
    let new (r : Nat) : Nat := (ranks.toFinset.filter fun x => x < r).card
    (∀ a ∈ ranks, ∀ b ∈ ranks, a < b → new a < new b) ∧ (∀ a ∈ ranks, new a < ranks.toFinset.card) ∧
    ∀ n, n < ranks.toFinset.card → ∃ a ∈ ranks, new a = n

/-- CREW (R20, R21, R188 to R191): a failing CJOIN clears its predicate; a joining thread takes the crew's handle and the next rank, or makes
a crew with a handle of its own (any nonzero handle not in use: the model's free choice, log entry 7) and rank 0. CPART leaves the crew.
Outside a crew CCOMPACT, CBAR, CARRIVE and CWAIT have no effect; in a crew an arrival is recorded, after the member's earlier accesses are
performed (R192), in the open phase, and what it completes completes; a member that has arrived already waits; an arrival of the other kind
raises RDVZ with the PC of the first one. That a member which joined while a phase was open is exempt from it and arrives in the next one, also
before the open one is complete, is DEDUCED (log entry 26). The code-bank writes that the member's PFENCEs have named are shown, as
`OrderingInstructionResults` says. When a CJOIN fails, what leaving does, and when a phase completes. -/
def Obligations.CrewInstructionResults : Prop :=
  JoinFailsByR20 ∧ LeavesByR21 ∧ PhasesByR190 ∧ ∀ (o : ScalarOps) (s : State) (t : Thread),
    let s0 := s.setTh t
    let key := t.code o.a
    let d := o.d.toNat
    let crews := (s.hw.ctx t.key.part t.key.core).crews
    let j := joinCrew s0 key
    (Entered (.cjoin o) s t →
      (joinFails t s.hw key = true → Completes (.cjoin o) s (t.setPred d false)) ∧
      (joinFails t s.hw key = false → CompletesAs (.cjoin o) s (j.setTh (j.th.setPred d true)) ∧
        (∀ x, crews.find? (fun x => x.key == key) = some x → j.th.crew = x.handle ∧ j.th.rank = x.crewn) ∧
        (crews.find? (fun x => x.key == key) = none → j.th.rank = 0 ∧ j.th.crew ≠ 0 ∧ ∀ x ∈ crews, x.handle ≠ j.th.crew) ∧
        j.th.cells = t.cells ∧ j.th.sregs = t.sregs ∧ j.th.preds = t.preds ∧ j.hw.mem = s.hw.mem)) ∧
    (Entered (.cpart o) s t → CompletesAs (.cpart o) s (leaveCrew s0 t.key) ∧
      (t.live = true → t.crew = 0 → Completes (.cpart o) s t)) ∧
    (s0.myCrew = none →
      (Entered (.cbar o) s t → Completes (.cbar o) s t) ∧ (Entered (.ccompact o) s t → Completes (.ccompact o) s t) ∧
      (Entered (.carrive o) s t → Completes (.carrive o) s t) ∧ (Entered (.cwait o) s t → Completes (.cwait o) s t)) ∧
    ∀ x, s0.myCrew = some x →
      let held (i : Instr) (u : State) : State :=
        settleArrival ((u.setTh { u.th with latch := some (BitVec.ofNat 32 i.length) }).hold .barrier)
      (t.arrived = true →
        (Entered (.cbar o) s t → StopsWith (.cbar o) s t (.wait .barrier)) ∧
        (Entered (.ccompact o) s t → StopsWith (.ccompact o) s t (.wait .barrier)) ∧
        (Entered (.carrive o) s t → StopsWith (.carrive o) s t (.wait .barrier)) ∧
        (Entered (.cwait o) s t → StopsWith (.cwait o) s t (.wait .barrier))) ∧
      (t.arrived = false → Entered (.cwait o) s t → Completes (.cwait o) s t) ∧
      (∀ e, t.arrived = false → orderCore s0 = .error e →
        (Entered (.cbar o) s t → StopsWith (.cbar o) s t e) ∧ (Entered (.ccompact o) s t → StopsWith (.ccompact o) s t e) ∧
        (Entered (.carrive o) s t → StopsWith (.carrive o) s t e)) ∧
      ∀ s1, t.arrived = false → orderCore s0 = .ok s1 →
        let phase := if t.exempt then x.next else x.phase
        let shown := showBank s1
        let opened (compact : Bool) : State := shown.setMyCrew
          (if t.exempt then { x with next := some ⟨compact, t.pc⟩ } else { x with phase := some ⟨compact, t.pc⟩ })
        let after (compact : Bool) : State := (match phase with
          | none => opened compact
          | some _ => shown).setTh { t with arrived := true }
        ((∀ ph, phase = some ph → ph.compact = false) →
          (Entered (.cbar o) s t → exec (.cbar o) s = .next (held (.cbar o) (after false))) ∧
          (Entered (.carrive o) s t → exec (.carrive o) s = .next (settleArrival ((after false).advance (Instr.carrive o).length)))) ∧
        ((∀ ph, phase = some ph → ph.compact = true) → Entered (.ccompact o) s t →
          exec (.ccompact o) s = .next (held (.ccompact o) (after true))) ∧
        (∀ ph, phase = some ph →
          (ph.compact = true → (Entered (.cbar o) s t → StopsWith (.cbar o) s t (.fault ⟨4, 0, false, false, ph.pc, 0⟩)) ∧
            (Entered (.carrive o) s t → StopsWith (.carrive o) s t (.fault ⟨4, 0, false, false, ph.pc, 0⟩))) ∧
          (ph.compact = false → Entered (.ccompact o) s t → StopsWith (.ccompact o) s t (.fault ⟨4, 0, false, false, ph.pc, 0⟩)))

/-! ### Ordering -/

/-- The stores and reads of a thread's core that a thread may still meet out of order: no store is on its way home, every thread reads those that
are home. -/
def NothingLate (c : Ctx) : Prop := c.outq = [] ∧ c.late = []

/-- FENCE, PFENCE and WAITC (R184, R186, R187, R192, R270, R271, R283, R293, R297, R299, R303): a fence of any scope but .thread performs every
outstanding generic and scratchpad access of the thread, drains its buffered stores, and lets no later access of these paths return what the
thread has read ahead; at crew scope its stores that are home are read by the members, at core scope by every thread of the core, and at
device and system scope the stores that its core can see come home and the core's L1 is discarded. A thread in no crew is alone in its
crew scope (R292): its FENCE.crew performs the scratchpad accesses, at core scope all the same, and the write-combining ones. PFENCE performs
the accesses of the paths of its mask, discards the constant cache where it names that path, and no L1 line; where it names the generic
and the constant path, no byte that the thread has read on the constant one is stale in the L1; where it names the code bank, the completed
code-bank writes of the thread and those shown on its core become known to the trials that it issues, and a FENCE shows them; WAITC completes
once at most n commands of the class are outstanding, all among the n most recently issued, and waits until then. That a WAITC which completes
also discards the constant cache is DEDUCED (log entry 26), and so is that a PFENCE of the generic or constant path brings home every store
that the core can see (log entry 5). -/
def Obligations.OrderingInstructionResults : Prop :=
  ∀ (o : ScalarOps) (s : State) (t : Thread),
    let s0 := s.setTh t
    let part := t.key.part
    let core := t.key.core
    let named := if t.mode = .z1 then 0 else (o.mod.extractLsb' 0 3).toNat
    let alone := named = 2 ∧ t.crew = 0
    let orders (q : Pend) : Bool := if alone then q.route.path == 2 || q.mts.contains 1 else q.route.path != 1
    let mask := pathMask o
    let n := (max 0 (min 63 (t.scalarB o.b).toInt)).toNat
    let done (u : State) (p : Pend → Prop) : Prop := ∀ q ∈ u.hw.pends, q.key = t.key → q.tid = t.tid → q.launch = t.launch → p q → q.todo = []
    (Entered (.fence o) s t → named = 1 → Completes (.fence o) s t) ∧
    (∀ s1, Entered (.fence o) s t → named ≠ 1 → flushThose s0 orders = .ok s1 → ∃ u, CompletesAs (.fence o) s u ∧
      let c := u.hw.ctx part core
      u.th = t ∧ done u (fun q => orders q = true) ∧ (∀ l ∈ c.wc, l.holds t.key = false) ∧
      ForgotAhead c t.key (fun p => if alone then p = 2 else p ≠ 1) ∧
      ((∃ x ∈ s.hw.ctxs, x.part = part ∧ x.core = core) → ∀ w ∈ t.knows, w ∈ c.bankShown) ∧
      (named = 2 → ¬ alone → ∀ w ∈ c.late, w.key = t.key → ∀ m ∈ s0.members part core t.crew, m.key ∈ w.shown) ∧
      (named = 3 → ∀ w ∈ c.late, w.key ≠ t.key) ∧
      (named = 0 ∨ named = 4 → NothingLate c ∧ c.l1 = Cache.empty)) ∧
    (∀ s1, Entered (.pfence o) s t → flushPaths s0 (onPath mask) = .ok s1 → ∃ u, CompletesAs (.pfence o) s u ∧
      let c1 := s1.hw.ctx part core
      let c := u.hw.ctx part core
      let con := if mask % 4 = 3 then [] else t.conRead
      (mask / 8 % 2 = 0 → u.th = { t with conRead := con }) ∧
      (mask / 8 % 2 = 1 → ∃ ks, u.th = { t with conRead := con, knows := ks } ∧ ∀ w, w ∈ ks ↔ w ∈ t.knows ∨ w ∈ c1.bankShown ∨
        ∃ x ∈ c1.bankOld, x.id = w ∧ x.issuer.key = t.key ∧ x.issuer.tid = t.tid ∧ x.issuer.launch = t.launch ∧ ∀ q ∈ c1.cpq, q.id ≠ w) ∧
      done u (fun q => mask / 2 ^ q.route.path % 2 = 1) ∧ ForgotAhead c t.key (fun p => mask / 2 ^ p % 2 = 1) ∧
      (mask % 2 = 1 → ∀ l ∈ c.wc, l.holds t.key = false) ∧ (mask % 4 ≠ 0 → NothingLate c) ∧
      (mask / 2 % 2 = 1 → c.con = Cache.empty) ∧ c.l1.lines = c1.l1.lines ∧
      (mask % 4 = 3 → ∀ k, (k ∈ t.conRead ∨ ∃ q ∈ s1.hw.pends, q.ofThread t = true ∧ q.route.path = 1 ∧ Loc.phys k ∈ q.locs) →
        ∀ x ∈ c.l1.stale, x.1 ≠ k)) ∧
    (∀ e, Entered (.fence o) s t → named ≠ 1 → flushThose s0 orders = .error e → StopsWith (.fence o) s t e) ∧
    (∀ e, Entered (.pfence o) s t → flushPaths s0 (onPath mask) = .error e → StopsWith (.pfence o) s t e) ∧
    ∀ x ∈ [(Instr.waitcCopy o, EngineClass.copy), (.waitcMatrix o, .matrix), (.waitcSelect o, .select), (.waitcTrial o, .trial)],
      Entered x.1 s t →
      let mine := t.cmds.filter fun c => c.cls == x.2
      let done := mine.length ≤ n ∧ ∀ c ∈ mine, t.issued[x.2.index] ≤ c.seq + n
      (done → ∃ u, CompletesAs x.1 s u ∧ u.th = t ∧ u.hw.mem = s.hw.mem ∧ u.hw.pends = s.hw.pends ∧
        (u.hw.ctx part core).con = Cache.empty ∧ (u.hw.ctx part core).late = [] ∧ ForgotAhead (u.hw.ctx part core) t.key fun _ => True) ∧
      (¬ done → StopsWith x.1 s t (.wait .waitc))

/-! ### Control -/

/-- BR, JMP and CSW (R89, R155, R156): where the PC goes, and what CSW exchanges; nothing else changes. CALL, CALLI and RET (R155): s31
misaligned raises the permission fault with nothing changed; else the return address is stored below the stack, or loaded from it, s31 moves
by 8 and the PC takes the target with bits 1:0 clear. The store becomes outstanding, the load is performed at once, after the thread's own
stores to the slot; no byte of memory but REF and D of the page-table entries changes meanwhile (where no page is of type 3). -/
def Obligations.ControlTransferResults : Prop :=
  ∀ (s : State) (t : Thread),
    (∀ o : BranchOps, Entered (.br o) s t → JumpsAs (.br o) s (s.setTh { t with
      pc := if t.pred o.pred.toNat = !o.pneg then t.pc + (o.off.signExtend 64 <<< 2) else t.pc + 4 })) ∧
    (∀ o : ScalarOps, Entered (.jmp o) s t →
      JumpsAs (.jmp o) s (s.setTh { t with pc := (t.code o.a + t.scalarB o.b) &&& ~~~3 })) ∧
    (∀ o : ScalarOps, Entered (.csw o) s t → o.d ≠ o.a → o.d.toNat < 32 → o.d.toNat ≠ 30 → o.a.toNat < 32 → o.a.toNat ≠ 30 →
      ∃ u, JumpsAs (.csw o) s (s.setTh u) ∧
      u.pc = t.sreg o.d.toNat &&& ~~~3 ∧ u.sreg o.d.toNat = t.pc + BitVec.ofNat 64 (Instr.csw o).length ∧
      u.sreg o.a.toNat = t.sreg 30 ∧ u.sreg 30 = t.sreg o.a.toNat ∧
      (∀ r, r ≠ o.d.toNat → r ≠ o.a.toNat → r ≠ 30 → u.sreg r = t.sreg r) ∧ u.cells = t.cells ∧ u.preds = t.preds ∧
      u.fcsr = t.fcsr ∧ u.xflags = t.xflags ∧ t.sameSystem u) ∧
    ∀ (o : ScalarOps) (s1 : State),
      let s0 := s.setTh t
      let sp := t.sreg 31
      let space := if t.trial.isSome then 3 else 0
      let call (i : Instr) (target : DWord) : Prop := Entered i s t →
        let bs := leBytes 8 (t.pc + BitVec.ofNat 64 i.length).toNat
        (sp.toNat % 8 ≠ 0 → StopsWith i s t (permFault .store (sp - 8))) ∧
        (∀ e, sp.toNat % 8 = 0 → storeNow s0 space (sp - 8) bs = .error e → StopsWith i s t e) ∧
        (sp.toNat % 8 = 0 → storeNow s0 space (sp - 8) bs = .ok s1 →
          JumpsAs i s (s1.setTh { t.setSreg 31 (sp - 8) with pc := target &&& ~~~3 }) ∧
          ∀ r, reach s0 .store space (sp - 8) 8 = .ok r → r.mt ≠ 3 → (∃ p, IssuedPend s s1 t r p ∧ p.kind = .store bs ∧ p.atom = 8) ∧
            (s.canonical → SameMemoryBut (pteKeys r.xs) s s1))
      call (.call o) (t.pc + (t.scalarB o.b <<< 2)) ∧ call (.calli o) (t.code o.a) ∧
      (Entered (.ret o) s t →
        (sp.toNat % 8 ≠ 0 → StopsWith (.ret o) s t (permFault .load sp)) ∧
        (∀ e, sp.toNat % 8 = 0 → loadNow s0 space sp 8 = .error e → StopsWith (.ret o) s t e) ∧
        ∀ bs, sp.toNat % 8 = 0 → loadNow s0 space sp 8 = .ok (bs, s1) →
          (∃ ids, s1.th = { t with sees := ids }) ∧
          JumpsAs (.ret o) s (s1.setTh { s1.th.setSreg 31 (sp + 8) with pc := BitVec.ofNat 64 (leNat bs) &&& ~~~3 }) ∧
          ∀ r, reach s0 .load space sp 8 = .ok r → r.mt ≠ 3 → outKeys s t.key = [] →
            (∀ a ∈ (s.hw.ctx t.key.part t.key.core).ahead, a.key ≠ t.key) → (∀ q ∈ s.hw.pends, ¬ (q.key = t.key ∧ q.tid = t.tid ∧ q.launch = t.launch) ∧ q.id ≠ s.hw.nextId) →
            bs = readLocs (touched s0 .load r).hw t.key t.launch r.route r.locs ∧ (s.canonical → SameMemoryBut (pteKeys r.xs) s s1))

/-- A picker in order (R17): at most 8 active classes, each class with a number of its own, and the class it issues from among the active ones. -/
def PickerWf (p : Picker) : Prop :=
  p.active.length ≤ 8 ∧ ((p.active ++ p.pending).map fun c => c.born).Nodup ∧ (∀ c ∈ p.active ++ p.pending, c.born < p.next) ∧
  ∀ n, p.chosen = some n → ∃ c ∈ p.active, c.born = n

/-- Of these classes, served one a rotation and the one that has waited longest first, none would come later than its rotation of number
`bound` if one is served at the next rotation but one: for each k at most k of them have waited for `bound` less k rotations. -/
def InTime (bound : Nat) (f : PcClass → Nat) (cs : List PcClass) : Prop := ∀ k, k < bound → (cs.countP fun c => decide (bound ≤ f c + k)) ≤ k

/-- A picker that keeps the bounds of R18 so far: no active class has, while ready, seen eight rotations since it became active or was chosen, no
pending one sixteen, and neither has come so near to it, together with others, that one of them must. A picker that issues from no class has no
class that waits for its turn. -/
def PickerDue (p : Picker) : Prop :=
  InTime 8 PcClass.waited p.active ∧ InTime 16 PcClass.held p.pending ∧
  (p.chosen = none → (∀ c ∈ p.active, c.waited = 0) ∧ ∀ c ∈ p.pending, c.held = 0)

/-- A rotation after the turn of the class of number `done` (R17, R18). Every class ages by one, and what it has waited while ready counts one
more. Where a pending class would else come too late, the one that has waited longest takes the place of the class whose turn is over; no class
that waits for its turn makes room. Of the active classes with a ready thread the one of greatest age is chosen, the older one of two; but
where another would then pass its eighth rotation, the one that has waited longest. The pending class that becomes active is the oldest one
with a ready thread; but where another would then come too late, the one that has waited longest. When a class is let in, which one makes room,
and that the bounds come before the ages, is the model's choice (log entry 46). -/
def RotationRules : Prop :=
  ∀ (p : Picker) (rdy : List Thread) (done : Option Nat), PickerWf p →
    let t := p.tick rdy
    let m := t.letIn rdy done
    let q := p.rotate rdy done
    let ready (c : PcClass) : Bool := c.hasAny rdy
    (t.active = p.active.map (fun c => { c with age := c.age + 1, waited := if ready c then c.waited + 1 else 0 }) ∧
      t.pending = p.pending.map fun c => { c with age := c.age + 1, held := if ready c then c.held + 1 else 0 }) ∧
    (InTime 16 PcClass.held (t.pending.filter ready) → m = t) ∧
    ((∀ c ∈ t.active, done ≠ some c.born) → m = t) ∧
    (¬ InTime 16 PcClass.held (t.pending.filter ready) → ∀ c ∈ t.active, done = some c.born → ∃ d, d ∈ t.pending ∧ ready d = true ∧
      (∀ x ∈ t.pending, ready x = true → x.held ≤ d.held) ∧
      m.active = t.active.map (fun x => if x.born = c.born then { d with held := 0, waited := 0 } else x) ∧
      m.pending = t.pending.filter (fun x => x.born ≠ d.born) ++ [{ c with held := 0, waited := 0 }]) ∧
    q.pending = m.pending ∧ ((∃ c ∈ m.active, ready c = true) ↔ q.chosen.isSome = true) ∧
    (∀ n, q.chosen = some n → ∃ a c, a ∈ m.active ∧ ready a = true ∧ (∀ x ∈ m.active, ready x = true → x.age < a.age ∨ (x.age = a.age ∧ a.born ≤ x.born)) ∧
      c ∈ m.active ∧ ready c = true ∧ c.born = n ∧ q.current = some { c with waited := 0 } ∧
      let others := m.active.filter fun x => ready x && decide (x.born ≠ a.born)
      (InTime 8 PcClass.waited others → c = a) ∧
      (¬ InTime 8 PcClass.waited others → ∀ x ∈ m.active, ready x = true → x.waited < c.waited ∨ (x.waited = c.waited ∧ c.born ≤ x.born))) ∧
    ∀ d ds, p.pending.filter ready = d :: ds →
      (InTime 15 PcClass.held ds → p.pick rdy = some d) ∧
      (¬ InTime 15 PcClass.held ds → ∃ x, p.pick rdy = some x ∧ x ∈ d :: ds ∧ ∀ y ∈ d :: ds, y.held ≤ x.held)

/-- The classes of a picker, and how it chooses (R17, R18), before each gang: `ts` are its threads, `rdy` the ready ones. Every thread has a
class, and none is pending while fewer than 8 are active; a class that has threads left to issue keeps its turn, and one that has reached no
switch point goes on at the PC where its lowest TID has gone (DEDUCED, log entry 46); no active class waits as a whole while a pending one has
a ready thread; where no class has a turn, a rotation chooses one, with the ages counted since the classes issued last, active or pending; no
active class passes its eighth rotation, and, of at most fifteen pending ones, none its sixteenth: more than that no picker can keep, for one
class has its turn at a rotation. A taken BR is a switch point where its offset is not positive, whatever address that gives (R89). Only
threads of the chosen class issue. -/
def PickerRules : Prop :=
  RotationRules ∧
  (∀ (p : Picker) (ts rdy : List Thread), PickerWf p → (∀ t ∈ rdy, t ∈ ts) →
    let q := p.refresh ts rdy
    let e := p.endTurn rdy
    PickerWf q ∧ (∀ t ∈ ts, ∃ c ∈ q.active ++ q.pending, c.has t = true) ∧ (q.pending ≠ [] → q.active.length = 8) ∧
    ((∃ c ∈ q.active, q.chosen ≠ some c.born ∧ c.hasAny rdy = false) → ∀ d ∈ q.pending, d.hasAny rdy = false) ∧
    (PickerDue p → q.pending.length ≤ 15 → PickerDue q) ∧
    (∀ c, p.current = some c → (∃ t ∈ rdy, c.has t = true ∧ t.key.slot ∉ p.issued) → e = p) ∧
    (∀ c, p.current = some c → (∀ t ∈ rdy, c.has t = true → t.key.slot ∈ p.issued) →
      (p.switch = true → e.chosen = none) ∧
      ∀ pc, p.switch = false → p.lead = some pc → (∃ t ∈ rdy, t.pc = pc ∧ t.launch = c.launch ∧ t.trial.isSome = c.bank) →
        e.current = some { c with pc := pc }) ∧
    (∀ n, e.chosen = some n → q.chosen = some n) ∧
    (e.chosen = none → (∃ c ∈ q.active, c.hasAny rdy = true) → ∃ m : Picker, q = m.rotate rdy p.chosen ∧ PickerWf m ∧
      ∀ c ∈ m.active ++ m.pending, (∃ c0 ∈ p.active ++ p.pending, c0.born = c.born ∧ c0.age = c.age) ∨ (c.age = 0 ∧ p.next ≤ c.born))) ∧
  (∀ (p : Picker) (t : Thread) (c : PcClass) next switch, PickerWf p → p.current = some c → c.has t = true →
    let q := p.note t next switch
    PickerWf q ∧ (PickerDue p → PickerDue q) ∧ q.current = some { c with age := 0 } ∧ q.switch = (p.switch || switch) ∧
    t.key.slot ∈ q.issued) ∧
  (∀ (s : State) (k : Key), admitted s (.issue k) = .issue k ↔ mayPick s k = true) ∧
  (∀ (s : State) (part core : Nat) (slots : List Nat), ∃ ns, admitted s (.gang part core slots) = .gang part core ns ∧
    ∀ n, n ∈ ns ↔ n ∈ slots ∧ mayPick s ⟨part, core, n⟩ = true) ∧
  (∀ (o : ScalarOps) (b : BranchOps) (took : Bool) (pc next : DWord),
    (∀ i ∈ [Instr.yield o, .await o, .exit o, .cwait o, .cbar o, .ccompact o], isSwitch i took pc next = took) ∧
    (isSwitch (.br b) took pc next = true ↔ b.off.toInt ≤ 0 ∧ next = pc + (b.off.signExtend 64 <<< 2)) ∧
    (∀ i ∈ [Instr.jmp o, .call o, .calli o, .ret o, .csw o, .tretRetry o, .tretSkip o],
      (isSwitch i took pc next = true ↔ took = true ∧ next.toNat ≤ pc.toNat)) ∧
    isSwitch (.carrive o) took pc next = false ∧ isSwitch (.nop o) took pc next = false) ∧
  ∀ (i : Instr) (major a : Nat) b c (took : Bool) (pc next : DWord), i.form = .lane major a b c →
    (isSwitch i took pc next = true ↔ (major = 14 ∧ took = true) ∨ major = 15)

/-- THREAD (R17, R18, R36, R157 to R162, R345): NOP and YIELD have no effect on the thread; YIELD is one of the switch points, at which the
picker turns to another class, and how it chooses `PickerRules` says (log entry 46); SPAWN and AWAIT mark their cells empty and
become outstanding, AWAIT of the thread itself, of a TID not yet assigned, or in a trial, gives all ones at once, and its result cells are under
the empty policy (R99): where one of them is empty, EP = 1 raises EMPTY, and with EP = 0 it waits; EXIT performs the thread's
accesses, keeps the exit value and frees the slot; in a trial it ends the example. -/
def Obligations.ThreadInstructionResults : Prop :=
  PickerRules ∧ ∀ (o : ScalarOps) (s : State) (t : Thread),
    let s0 := s.setTh t
    let d := o.d.toNat
    let tid := (t.code o.a).extractLsb' 0 32
    (Entered (.nop o) s t → Completes (.nop o) s t) ∧ (Entered (.yield o) s t → Completes (.yield o) s t) ∧
    (∀ s1, Entered (.spawn o) s t → t.fullAt d 1 → orderAll s0 = .ok s1 →
      ∃ u p, CompletesAs (.spawn o) s u ∧ u.th = t.markEmpty d 1 ∧ u.hw.pends = s1.hw.pends ++ [p] ∧ p.key = t.key ∧ p.tid = t.tid ∧
        p.launch = t.launch ∧ p.cell = d ∧ p.ncells = 1 ∧ p.kind = .spawn (t.code o.a &&& ~~~3) (t.scalarB o.b)) ∧
    (Entered (.await o) s t → ¬ t.fullAt d 2 →
      (o.ep = false → StopsWith (.await o) s t (.wait .emptyCell)) ∧
      (o.ep = true → ∃ c, d ≤ c ∧ c < d + 2 ∧ (t.cell c).full = false ∧ (∀ j, d ≤ j → j < c → (t.cell j).full = true) ∧
        StopsWith (.await o) s t (.trap 0x90 3 (BitVec.ofNat 64 c) 0 0))) ∧
    (Entered (.await o) s t → t.fullAt d 2 →
      let now := t.trial.isSome = true ∨ tid = t.tid ∨ s0.nextTid ≤ tid.toNat
      (now → Completes (.await o) s (t.writePlains d [0xFFFFFFFF, 0xFFFFFFFF])) ∧
      (¬ now → ∃ u p, CompletesAs (.await o) s u ∧ u.th = t.markEmpty d 2 ∧ u.hw.pends = s.hw.pends ++ [p] ∧ p.key = t.key ∧
        p.launch = t.launch ∧ p.cell = d ∧ p.ncells = 2 ∧ p.kind = .await tid false)) ∧
    (∀ s1, Entered (.exit o) s t → t.live = true → t.trial = none → orderAll s0 = .ok s1 →
      ∃ u, exec (.exit o) s = .next u ∧ u.th.live = false ∧ u.th.crew = 0 ∧
        ∀ l, s1.hw.launch? t.key.part t.launch = some l → ∃ l', u.hw.launch? t.key.part t.launch = some l' ∧
          l'.exits = (t.tid.toNat, t.code o.a) :: l.exits) ∧
    (∀ r, Entered (.exit o) s t → t.trial = some r →
      exec (.exit o) s = .next (s.setTh { t with
        wait := .none, charged := false, latch := none, dmrMiss := false, trial := some { r with folding := true } }))

/-- TRAPS (R50, R52, R163, R164): TRAP takes the trap with its code and value, TRET.retry and TRET.skip go on at LTIP or after the
instruction there with TSTATE.T clear, TCLR clears TSTATE.T. -/
def Obligations.TrapInstructionResults : Prop :=
  ∀ (o : ScalarOps) (s : State) (t : Thread),
    let v := immBits o
    let clean (u : Thread) : Thread := { u with wait := .none, charged := false, latch := none, dmrMiss := false }
    (Entered (.trap o) s t →
      StopsWith (.trap o) s t (.trap (v.extractLsb' 0 8) 0 v 0 0) ∧
      (t.trial = none → t.tstate = false → t.ltv ≠ 0 → exec (.trap o) s = .next (s.setTh (clean { t with
        ltip := t.pc, ltc := 0#8 ++ v.extractLsb' 0 8, ltval := v, tstate := true, pc := t.ltv })))) ∧
    (Entered (.tretRetry o) s t → exec (.tretRetry o) s = .next (s.setTh (clean { t with pc := t.ltip, tstate := false }))) ∧
    (∀ w s1, Entered (.tretSkip o) s t → fetchWord (s.setTh t) t.ltip = .ok (w, s1) →
      exec (.tretSkip o) s = .next (s1.setTh (clean { t with pc := t.ltip + (if w[30] then 8 else 4), tstate := false }))) ∧
    (∀ e, Entered (.tretSkip o) s t → fetchWord (s.setTh t) t.ltip = .error e → StopsWith (.tretSkip o) s t e) ∧
    (Entered (.tclr o) s t → Completes (.tclr o) s { t with tstate := false })

/-- The CSR instructions read and write the registers of the map (R40, R41, R165, R166, R54): sd takes the old value, the register the new
one by its field rules; an address without a register, one that legacy decode lacks, and a write that is refused raise ILL and write
nothing. The field rules of CSR writes (R7, R25, R42 to R46, R49): TILE within the decode mode's range; PREC.p clamped to 2 .. 241 with PC set, its
rounding mode refused at 6 and 7; FCSR's mode likewise and its reserved bits 0; LTV and LTIP with bits 1:0 clear; a SEED write resets the RAND
counter. One that names XFLAGS waits for the XLDs in flight (R167; the form of the wait is the model's choice, log entry 45). -/
def Obligations.CsrInstructionResults : Prop :=
    (∀ (o : ScalarOps) (s : State) (t : Thread),
      let s0 := s.setTh t
      let a := csrAddr o
      let x := t.code o.a
      let d := o.d.toNat
      let known := t.mode = .z3 ∨ csrLegacy a = false
      let may := csrWritable a = true ∧ (t.trial = none ∨ csrTrial a = true)
      let waits := a = 0x011 ∧ xldInFlight s0 = true
      (known → waits → ∀ i ∈ [Instr.csrr o, .csrw o, .csrs o, .csrc o], Entered i s t → StopsWith i s t (.wait .emptyCell)) ∧
      (∀ old, known → ¬ waits → csrValue s0 a = some old →
        (Entered (.csrr o) s t → Completes (.csrr o) s (t.setSreg d old)) ∧
        ∀ y ∈ [(Instr.csrw o, x), (.csrs o, old ||| x), (.csrc o, old &&& ~~~x)], Entered y.1 s t →
          (∀ u, may → csrStore t a y.2 = .ok u → Completes y.1 s (u.setSreg d old)) ∧
          (∀ e, may → csrStore t a y.2 = .error e → StopsWith y.1 s t (ill y.1 e)) ∧
          (¬ may → StopsWith y.1 s t (ill y.1 5))) ∧
      (¬ known ∨ csrValue s0 a = none → ¬ (known ∧ waits) →
        ∀ i ∈ [Instr.csrr o, .csrw o, .csrs o, .csrc o], Entered i s t → StopsWith i s t (ill i 5))) ∧
    (∀ s : State,
      let t := s.th
      let n (x : Nat) : Option DWord := some (BitVec.ofNat 64 x)
      let map : List (Nat × Option DWord) :=
        [(0x000, n t.tid.toNat), (0x001, n t.key.core), (0x002, n t.launch), (0x003, n t.crew), (0x004, n t.rank), (0x006, n t.tile.toNat),
         (0x007, n t.win), (0x008, n (match t.mode with
           | .z1 => 1
           | .z2 => 2
           | .z3 => 3)), (0x010, n t.prec.toNat), (0x011, n t.xflags.toNat), (0x012, n t.fcsr.toNat), (0x020, some t.ltv),
         (0x021, n t.ltc.toNat), (0x022, some t.ltip), (0x023, some t.ltval), (0x024, n (if t.tstate then 1 else 0)), (0x030, some t.fuel),
         (0x031, some t.sig), (0x032, n t.sign.toNat), (0x050, n s.time), (0x051, some t.seed)]
      (∀ x ∈ map, csrValue s x.1 = x.2) ∧
      csrValue s 0x005 = n (if t.crew = 0 then 0 else match s.myCrew with
        | some c => c.crewn
        | none => 0) ∧
      (t.trial = none → csrValue s 0x033 = some 0) ∧
      (∀ r, t.trial = some r → csrValue s 0x033 = n (1 + 2 ^ 8 * r.ex + 2 ^ 16 * r.req.nex)) ∧
      ((∀ c, t.count c < 256) → ∃ v : DWord, csrValue s 0x040 = some v ∧ v.toNat / 2 ^ 32 = 0 ∧ v.toNat % 256 = t.count .copy ∧
        v.toNat / 2 ^ 8 % 256 = t.count .matrix ∧ v.toNat / 2 ^ 16 % 256 = t.count .select ∧ v.toNat / 2 ^ 24 % 256 = t.count .trial) ∧
      ∀ a, a ∉ map.map Prod.fst ++ [0x005, 0x033, 0x040] → csrValue s a = none) ∧
    ∀ (t : Thread) (v : DWord),
      let top := if t.mode = .z3 then 5 else 4
      let p := v.toNat % 256
      (1 ≤ v.toNat → v.toNat ≤ top → csrStore t 0x006 v = .ok { t with tile := v.extractLsb' 0 3 }) ∧
      (v.toNat = 0 ∨ top < v.toNat → csrStore t 0x006 v = .error 6) ∧
      (v.toNat / 2 ^ 16 % 8 < 6 → ∃ u, csrStore t 0x010 v = .ok u ∧ u.p = (if p < 2 then 2 else if 241 < p then 241 else p) ∧
        u.smin = v.toNat / 2 ^ 8 % 256 ∧ u.prec.toNat / 2 ^ 16 % 8 = v.toNat / 2 ^ 16 % 8 ∧ u.prec.toNat / 2 ^ 25 = 0 ∧
        u.prec.toNat / 2 ^ 20 % 32 = v.toNat / 2 ^ 20 % 32 ∧
        u.prec[19] = false ∧ u.xflags = (if p < 2 ∨ 241 < p then t.xflags ||| xPc else t.xflags) ∧
        u = { t with prec := u.prec, xflags := u.xflags }) ∧
      (6 ≤ v.toNat / 2 ^ 16 % 8 → csrStore t 0x010 v = .error 5) ∧
      (v.toNat % 8 < 6 → ∃ u, csrStore t 0x012 v = .ok u ∧ u = { t with fcsr := u.fcsr } ∧
        ∀ i, i < 25 → u.fcsr.getLsbD i = (v.getLsbD i && decide (i < 3 ∨ (8 ≤ i ∧ i < 13) ∨ (16 ≤ i ∧ i < 21) ∨ i = 24))) ∧
      (6 ≤ v.toNat % 8 → csrStore t 0x012 v = .error 5) ∧
      csrStore t 0x020 v = .ok { t with ltv := v &&& ~~~3 } ∧ csrStore t 0x051 v = .ok { t with seed := v, randN := 0 } ∧
      csrStore t 0x011 v = .ok { t with xflags := v.extractLsb' 0 6 } ∧ csrStore t 0x021 v = .ok { t with ltc := v.extractLsb' 0 16 } ∧
      csrStore t 0x022 v = .ok { t with ltip := v &&& ~~~3 } ∧ csrStore t 0x023 v = .ok { t with ltval := v } ∧
      csrStore t 0x031 v = .ok { t with sig := v } ∧ csrStore t 0x032 v = .ok { t with sign := v.extractLsb' 0 12 } ∧
      (∀ a, csrWritable a = true ↔ a ∈ [0x006, 0x010, 0x011, 0x012, 0x020, 0x021, 0x022, 0x023, 0x031, 0x032, 0x051])

/-! ### Engine, trial and queue instructions -/

/-- The limits of a reservation record, `size` being that of the launch's operand-buffer region (R240, R244). -/
def ReservationLimits (bs : List Byte) (size : Nat) : Prop :=
  let base := fld bs 0 4
  let len := fld bs 4 4
  let f := fld bs 8 1
  let blk := fld bs 9 1
  base % 128 = 0 ∧ len % 128 = 0 ∧ 128 ≤ len ∧ base + len ≤ size ∧ f ≤ 9 ∧
  (if f = 9 then blk = 1 ∨ blk = 2 else if f < 5 then blk ≤ 2 else blk = 0) ∧ fld bs 10 2 = 0 ∧ fld bs 24 8 = 0 ∧
  (blk ≠ 0 → fld bs 16 4 < len) ∧ (if f = 9 then fld bs 20 4 % 4 = 0 ∧ fld bs 20 4 + 1024 ≤ len else fld bs 20 4 = 0)

/-- OBRES, OBREL and the release (R36, R232, R240, R241): a record within its limits that overlaps no reservation of the launch, on a core
with fewer than 64, makes a reservation with a nonzero handle that is not in use (which one is the model's free choice, log entry 7); else
sd takes 0. OBREL marks the thread's own reservation of that handle, which ends once no command names it. A record beyond its limits raises
ILL with detail 2. -/
def Obligations.ReservationResults : Prop :=
  (∀ (bs : List Byte) (size : Nat), resvOk bs size = true ↔ ReservationLimits bs size) ∧
  ∀ (s : State) (t : Thread),
    (∀ (o : ScalarOps) (bs : List Byte) (s1 : State), Entered (.obres o) s t →
      readBlock (.obres o) (s.setTh t) (t.code o.a) 32 16 = .ok (bs, s1) →
      let d := o.d.toNat
      let rs := s1.myCtx.resvs
      let base := fld bs 0 4
      let len := fld bs 4 4
      let clash := ∃ r ∈ rs, r.launch = t.launch ∧ base < r.base + r.length ∧ r.base < base + len
      (resvOk bs s1.obufSize = false → StopsWith (.obres o) s t (ill (.obres o) 2)) ∧
      (resvOk bs s1.obufSize = true → clash ∨ 64 ≤ rs.length → CompletesAs (.obres o) s (s1.setTh (s1.th.setSreg d 0))) ∧
      (resvOk bs s1.obufSize = true → ¬ clash → rs.length < 64 → ∃ hd, hd ≠ 0 ∧ hd < 2 ^ 32 ∧ (∀ r ∈ rs, r.handle ≠ hd) ∧
        CompletesAs (.obres o) s (((s1.mapCtx t.key.part t.key.core fun c => { c with resvs := c.resvs ++
          [⟨hd, t.owner, t.launch, base, len, fld bs 8 1, fld bs 9 1, fld bs 12 4, fld bs 16 4, fld bs 20 4, false⟩] }).tick).setTh
          (s1.th.setSreg d (BitVec.ofNat 64 hd))))) ∧
    (∀ o : ScalarOps, Entered (.obrel o) s t → CompletesAs (.obrel o) s ((s.setTh t).mapCtx t.key.part t.key.core fun c =>
      { c with resvs := c.resvs.map fun r =>
          if r.handle = (t.code o.a).toNat % 2 ^ 32 ∧ r.launch = t.launch ∧ (r.owner = t.owner ∨ r.owner = .thread t.launch t.tid)
          then { r with released := true } else r })) ∧
    ∀ part core hd : Nat,
      let c := s.hw.ctx part core
      (c.handleBusy hd = false → (∃ r ∈ c.resvs, r.handle = hd ∧ r.released = true) →
        exec (.reservationRelease part core hd) s =
          .next (s.mapCtx part core fun c => { c with resvs := c.resvs.filter fun r => !(r.handle == hd && r.released) })) ∧
      (c.handleBusy hd = true → exec (.reservationRelease part core hd) s = .next s)

/-- A source descriptor of MXGO at byte `i` of the block, with the scale offset `sc`, for `rows` rows of `k` elements of format `f`, is within
its limits and names this source (R240, R243, R244): an operand-buffer one is a reservation of the launch, and every byte of its elements and
scales lies in it, or in the scratchpad region. That VQ2 asks for a VQ2 reservation is the model's choice (log entry 45). -/
def SourceIs (c : Ctx) (launch scr : Nat) (bs : List Byte) (i sc f rows k : Nat) (x : MxSrc) : Prop :=
  let rot := fld bs (i + 1) 1
  let blk := fld bs (i + 2) 1
  let base := fld bs (i + 4) 4
  let pitch := fld bs (i + 8) 4
  let tpitch := fld bs (i + 12) 4
  let w := mxWidth f
  let blocked (b : Nat) : Prop := if f = 9 then b = 1 ∨ b = 2 else if f < 5 then b ≤ 2 else b = 0
  let inside (start : Nat → Nat → Nat) (scale b size : Nat) : Prop :=
    (∀ row e, row < rows → e < k → start row e < size) ∧
    (b ≠ 0 → k % (16 * b) = 0 ∧ ∀ row j, row < rows → j < k / (16 * b) → scale + row * (k / (16 * b)) + j < size)
  fld bs (i + 3) 1 = 0 ∧
  ((fld bs i 1 = 0 ∧ rot = 0 ∧ blk = 0 ∧ pitch = 0 ∧ tpitch = 0 ∧ ∃ r, c.resv? launch base = some r ∧ blocked r.blk ∧
      (f = 9 → r.format = 9) ∧ inside (fun row e => row * r.pitch + (e * w + w - 1) / 8) r.scale r.blk r.length ∧
      x = ⟨true, r.handle, 0, 16 * r.blk, r.base, r.pitch, 0, r.base + r.scale, r.base + r.book⟩) ∨
    (fld bs i 1 = 1 ∧ rot ≤ 3 ∧ f ≠ 9 ∧ blocked blk ∧
      inside (fun row e => base + e / 256 * tpitch + row * pitch + (e % 256 * w + w - 1) / 8) sc blk scr ∧
      x = ⟨false, 0, rot, 16 * blk, base, pitch, tpitch, sc, 0⟩))

/-- An address of a copy descriptor in its space is within its limits for these rows, and resolves to `x`, naming `hs` (R249). -/
def PlaceIs (s : State) (space : Nat) (a : DWord) (stride : Int) (rows rb : Nat) (x : DWord) (hs : List Nat) : Prop :=
  let inside (base size : Nat) : Prop := ∀ r : Nat, r < rows → 0 ≤ base + stride * r ∧ base + stride * r + rb ≤ size
  (space = 0 ∧ x = a ∧ hs = []) ∨ (space = 1 ∧ inside a.toNat s.scrSize ∧ x = a ∧ hs = []) ∨
  (space = 2 ∧ ∃ r, s.myCtx.resv? s.th.launch (a.toNat / 2 ^ 32) = some r ∧ inside (a.toNat % 2 ^ 32) r.length ∧
    x = BitVec.ofNat 64 (r.base + a.toNat % 2 ^ 32) ∧ hs = [r.handle]) ∨
  (space = 3 ∧ inside a.toNat 262144 ∧ x = a ∧ hs = [])

/-- The limits of the commands and what their operands make of them (R240 to R249, R252, R254): the blocks of MXGO and of CPY, and the operands
of ACCRD and CBWR, are accepted within the limits of their tables, and of no others; the lines that a command is to write are those that hold
a byte of its destination in the scratchpad, and what threads have read ahead of them no longer counts (R301). -/
def CommandLimits : Prop :=
  (∀ (c : Ctx) (launch scr cols : Nat) (bs : List Byte) (p : MxGo) (high : Bool), mxGo? c launch scr cols bs = some (p, high) ↔
    let fa := fld bs 0 1
    let fb := fld bs 1 1
    ((fa < 4 ∧ fb < 4) ∨ (fa = 4 ∧ fb = 4) ∨ ((fa = 7 ∨ fa = 8) ∧ (fb = 7 ∨ fb = 8)) ∨ (fa < 2 ∧ fb = 9) ∨
      ((fa = 5 ∨ fa = 6) ∧ (fb = 5 ∨ fb = 6))) ∧
    fld bs 2 1 < 4 ∧ fld bs 3 1 = 0 ∧ fld bs 12 4 = 0 ∧ 1 ≤ p.m ∧ p.m ≤ 256 ∧ 1 ≤ p.n ∧ p.n ≤ 384 ∧ 16 ≤ p.k ∧ p.k ≤ 4096 ∧ p.k % 16 = 0 ∧
    p.cb + p.n ≤ cols ∧ p.spill.toNat % 4096 = 0 ∧ SourceIs c launch scr bs 16 (fld bs 56 4) fa p.m p.k p.srcA ∧
    SourceIs c launch scr bs 32 (fld bs 60 4) fb p.n p.k p.srcB ∧
    p = ⟨fa, fb, fld bs 2 1 % 2 == 1, fld bs 4 2, fld bs 6 2, fld bs 8 2, fld bs 10 2, p.srcA, p.srcB, BitVec.ofNat 64 (fld bs 48 8)⟩ ∧
    high = (fld bs 2 1 / 2 == 1)) ∧
  (∀ (s : State) (a b cell : Nat) (d : AccRd), a < 2 ^ 64 → (accRd? s a b cell = some d ↔
    let f (hi lo : Nat) : Nat := a / 2 ^ lo % 2 ^ (hi + 1 - lo)
    let fmt := f 29 26
    let w := (AnyFmt.ofCode fmt).width
    f 63 46 = 0 ∧ fmt ≠ 3 ∧ fmt ≠ 15 ∧ f 32 30 ≠ 7 ∧ d.col + d.cnt ≤ s.accCols ∧
    (f 33 33 = 0 → f 45 35 = 0 ∧ d.cnt = cvtCount w ∧ d.dst = none) ∧
    (f 33 33 = 1 → 1 ≤ d.cnt ∧ d.cnt ≤ 1024 ∧ d.cnt = f 45 35 ∧ b + (d.cnt * w + 7) / 8 ≤ s.scrSize ∧ d.dst = some b) ∧
    d = ⟨f 7 0, f 17 8, d.cnt, f 34 34 == 1, if f 25 18 < 128 then f 25 18 else (f 25 18 : Int) - 256,
      if f 32 30 = 0 then s.th.fcsr.extractLsb' 0 3 else BitVec.ofNat 3 (f 32 30 - 1), fmt, d.dst, cell⟩)) ∧
  (∀ (s : State) (kind : CopyKind) (bs : List Byte) (c : CopyCmd), copyCmd? s kind bs = some c ↔
    let src := BitVec.ofNat 64 (fld bs 16 8)
    let dst := BitVec.ofNat 64 (fld bs 24 8)
    let stride (i : Nat) : Int := if fld bs i 4 < 2 ^ 31 then fld bs i 4 else (fld bs i 4 : Int) - 2 ^ 32
    let pat := fld bs 40 8
    let ran := 1 ≤ c.rows ∧ c.rows ≤ 65536 ∧ 1 ≤ c.rb ∧ c.rb ≤ 16777216
    fld bs 2 2 = 0 ∧ fld bs 12 4 = 0 ∧ fld bs 48 8 = 0 ∧ fld bs 56 8 = 0 ∧
    (kind = .look → c.ssp = 0 ∧ c.dsp = 0 ∧ 1 ≤ c.rows ∧ c.rows ≤ 256 ∧ c.rb = 0 ∧ src.toNat % 8 = 0 ∧ dst = 0 ∧ c.ss = 0 ∧ c.ds = 0 ∧ pat = 0 ∧
      c.src = src ∧ c.dst = 0 ∧ c.handles = []) ∧
    (kind = .fill → c.ssp = 0 ∧ c.dsp ≤ 3 ∧ ran ∧ src = 0 ∧ c.ss = 0 ∧ c.src = 0 ∧ PlaceIs s c.dsp dst c.ds c.rows c.rb c.dst c.handles) ∧
    (kind = .copy → c.ssp ≤ 2 ∧ c.dsp ≤ 3 ∧ ran ∧ pat = 0 ∧ ∃ hs hd, PlaceIs s c.ssp src c.ss c.rows c.rb c.src hs ∧
      PlaceIs s c.dsp dst c.ds c.rows c.rb c.dst hd ∧ c.handles = hs ++ hd) ∧
    c = { id := 0, issuer := default, kind := kind, ssp := fld bs 0 1, dsp := fld bs 1 1, rows := fld bs 4 4, rb := fld bs 8 4, src := c.src,
          dst := c.dst, ss := stride 32, ds := stride 36, pat := BitVec.ofNat 64 pat, row := 0, piece := 0, permit := false,
          started := false, pages := [], handles := c.handles, seen := [], put := [], wrote := [] }) ∧
  (∀ (s : State) (a b : DWord) (c : CopyCmd), bankCmd? s a b = some c ↔
    let first := a.toNat % 2 ^ 10
    let count := a.toNat / 2 ^ 16 % 2 ^ 11
    let off := b.toNat % 2 ^ 19
    a.toNat / 2 ^ 10 % 2 ^ 6 = 0 ∧ a.toNat / 2 ^ 27 = 0 ∧ 1 ≤ count ∧ count ≤ 1024 ∧ first + count ≤ 1024 ∧ c.src.toNat % 4 = 0 ∧
    (b[63] = true → b.toNat / 2 ^ 19 % 2 ^ 44 = 0 ∧ off + 256 * count ≤ s.scrSize) ∧
    c = { id := 0, issuer := default, kind := .copy, ssp := if b[63] then 1 else 0, dsp := 3, rows := 1, rb := 256 * count,
          src := if b[63] then BitVec.ofNat 64 off else b, dst := BitVec.ofNat 64 (256 * first), ss := 0, ds := 0, pat := 0, row := 0,
          piece := 0, permit := false, started := false, pages := [], handles := [], seen := [], put := [], wrote := [] }) ∧
  (∀ (c : CopyCmd) (l : Nat), l ∈ c.lines ↔ c.dsp = 1 ∧ c.kind ≠ .look ∧
    ∃ r i, r < c.rows ∧ i < c.rb ∧ l = ((c.dst + BitVec.ofInt 64 (c.ds * r)).toNat + i) / 128) ∧
  (∀ (d : AccRd) (l : Nat), l ∈ (MxOp.rd d).lines ↔ ∃ off i, d.dst = some off ∧ i < (d.cnt * (AnyFmt.ofCode d.fmt).width + 7) / 8 ∧
    l = (off + i) / 128) ∧
  (∀ p, (MxOp.go p).lines = []) ∧ (∀ col n, (MxOp.clr col n).lines = []) ∧ (∀ row col v, (MxOp.wr row col v).lines = []) ∧
  ∀ (c : Ctx) (launch : Nat) (ls : List Nat), (∃ r ∈ c.regions, r.launch = launch) →
    let x := c.clearLines launch ls
    (∀ l, l ∈ (x.region launch).absent ↔ l ∈ (c.region launch).absent ∨ l ∈ ls) ∧
    x.region launch = { c.region launch with absent := (x.region launch).absent } ∧ (∀ k, k ≠ launch → x.region k = c.region k) ∧
    x = { c with regions := x.regions, ahead := x.ahead } ∧
    ∀ a, a ∈ x.ahead ↔ a ∈ c.ahead ∧ ∀ y ∈ a.bytes, ∀ o, y.1 = .scr o → o / 128 ∉ ls

/-- Every access of the executing thread has been performed, and what its core can see is home: no store of it is on its way, no buffer holds a
store of the thread, and every thread of the core reads what is home (R234). -/
def AccessesPerformed (u u' : State) : Prop :=
  let c := u'.hw.ctx u.th.key.part u.th.key.core
  (∀ q ∈ u'.hw.pends, q.ofThread u.th = true → q.todo = []) ∧ NothingLate c ∧ ∀ l ∈ c.wc, l.holds u.th.key = false

/-- MXGO, MXCLR, ACCRD, ACCWR, CPY, CBWR and SEL.run (R45, R231 to R234, R242 to R255): a command within its limits, with room in its queue
and fewer than 63 of its class outstanding, is issued: the thread's accesses are performed, its class counts one more, and the command
stands last in the queue of the core with the lines that it is to write marked absent. Cell-mode ACCRD counts in no class and marks its
cell empty. At 63 outstanding, or with its queue full, the thread waits; beyond its limits the command raises ILL with detail 2. That the
running matrix command takes no place of its queue, and that the ILL of ACCWR comes before EMPTY, are the model's choice (log entry 45). -/
def Obligations.EngineCommandsIssue : Prop :=
  CommandLimits ∧
  (∀ (u : State) (c : Issuer) (high : Bool) (op : MxOp), queueMx u c high op =
    (u.mapHw fun h => { h with nextId := h.nextId + 1 }).mapCtx u.th.key.part u.th.key.core fun x =>
      ({ x with mxq := x.mxq ++ [⟨u.hw.nextId, c, high, op, false⟩] } : Ctx).clearLines u.th.launch op.lines) ∧
  ∀ (o : ScalarOps) (s : State) (t : Thread),
    let s0 := s.setTh t
    let a := t.code o.a
    let b := t.scalarB o.b
    (∀ (u : State) (cls : EngineClass), 63 ≤ u.th.count cls → countCommand u cls = .error (.wait .engine)) ∧
    (∀ (u u' : State) (cls : EngineClass) (c : Issuer), countCommand u cls = .ok (c, u') →
      c = ⟨u.th.key, u.th.tid, u.th.launch, u.th.pc, u.th.issued[cls.index]⟩ ∧ u'.th.cmds = u.th.cmds ++ [⟨cls, c.seq⟩] ∧
      u'.th.count cls = u.th.count cls + 1 ∧ u'.th.issued[cls.index] = u.th.issued[cls.index] + 1 ∧ u'.th.cells = u.th.cells ∧
      u'.th.sregs = u.th.sregs ∧ u'.th.pc = u.th.pc ∧ AccessesPerformed u u') ∧
    (∀ (u u' : State) (c : Issuer), plainCommand u = .ok (c, u') →
      c = ⟨u.th.key, u.th.tid, u.th.launch, u.th.pc, 0⟩ ∧ u'.th = u.th ∧ AccessesPerformed u u') ∧
    (∀ bs s1 p high c s2, Entered (.mxgo o) s t → a.toNat % 16 = 0 → loadNow s0 1 a 64 = .ok (bs, s1) →
      mxGo? s1.myCtx t.launch s1.scrSize s1.accCols bs = some (p, high) → s1.myCtx.mxq.length < 32 →
      countCommand s1 .matrix = .ok (c, s2) → CompletesAs (.mxgo o) s (queueMx s2 c high (.go p))) ∧
    (∀ c s2, Entered (.mxclr o) s t → 1 ≤ b.toNat → b.toNat ≤ 1024 → a.toNat + b.toNat ≤ s0.accCols → s0.myCtx.mxq.length < 32 →
      countCommand s0 .matrix = .ok (c, s2) → CompletesAs (.mxclr o) s (queueMx s2 c false (.clr a.toNat b.toNat))) ∧
    (∀ d c s2, Entered (.accrd o) s t → accRd? s0 a.toNat b.toNat o.d.toNat = some d → s0.myCtx.mxq.length < 32 →
      (d.dst.isSome = true → countCommand s0 .matrix = .ok (c, s2) → CompletesAs (.accrd o) s (queueMx s2 c false (.rd d))) ∧
      (d.dst = none → t.fullAt o.d.toNat 1 → plainCommand s0 = .ok (c, s2) →
        CompletesAs (.accrd o) s ((queueMx s2 c false (.rd d)).setTh (t.markEmpty o.d.toNat 1)))) ∧
    (∀ c s2, Entered (.accwr o) s t → b.toNat < 2 ^ 18 → b.toNat / 256 < s0.accCols → t.fullAt o.a.toNat 1 → s0.myCtx.mxq.length < 32 →
      countCommand s0 .matrix = .ok (c, s2) →
      CompletesAs (.accwr o) s (queueMx s2 c false (.wr (b.toNat % 256) (b.toNat / 256) (t.cell o.a.toNat).data))) ∧
    (∀ x ∈ [(Instr.cpyCopy o, CopyKind.copy), (.cpyFill o, .fill), (.cpyLook o, .look)], ∀ bs s1 q u, Entered x.1 s t →
      readBlock x.1 s0 a 64 16 = .ok (bs, s1) → copyCmd? s1 x.2 bs = some q → issueCopy s1 q = .ok u → CompletesAs x.1 s u) ∧
    (∀ q u, Entered (.cbwr o) s t → bankCmd? s0 a b = some q → issueCopy s0 q = .ok u → CompletesAs (.cbwr o) s u) ∧
    (∀ (u : State) (q : CopyCmd), 64 ≤ u.myCtx.cpq.length → issueCopy u q = .error (.wait .engine)) ∧
    (∀ (u u1 : State) (q : CopyCmd) (c : Issuer), u.myCtx.cpq.length < 64 → countCommand u .copy = .ok (c, u1) →
      let q' : CopyCmd := { q with id := u1.hw.nextId, issuer := c }
      issueCopy u q = .ok ((u1.mapHw fun h => { h with nextId := h.nextId + 1 }).mapCtx c.key.part c.key.core fun x =>
        ({ x with cpq := x.cpq ++ [q'] } : Ctx).clearLines c.launch q'.lines)) ∧
    (∀ bs s1 c s2, Entered (.selRun o) s t → readBlock (.selRun o) s0 a 64 16 = .ok (bs, s1) →
      (selBlock bs).ok bs s1.scrSize = true → s1.myCtx.selq.length < 16 → countCommand s1 .select = .ok (c, s2) →
      CompletesAs (.selRun o) s ((s2.mapHw fun h => { h with nextId := h.nextId + 1 }).mapCtx c.key.part c.key.core fun x =>
        { x with selq := x.selq ++ [{ id := s2.hw.nextId, issuer := c, blk := selBlock bs, permit := false, pass := 0, chosen := 0,
                                      cand := [], sel := [], need := 0, tgt := 0, clamped := false, result := none,
                                      seen := [], put := [], wrote := [] }] })) ∧
    (∀ bs s1, (Entered (.selRun o) s t → readBlock (.selRun o) s0 a 64 16 = .ok (bs, s1) → (selBlock bs).ok bs s1.scrSize = false →
        StopsWith (.selRun o) s t (ill (.selRun o) 2)) ∧
      (Entered (.mxgo o) s t → a.toNat % 16 = 0 → loadNow s0 1 a 64 = .ok (bs, s1) →
        mxGo? s1.myCtx t.launch s1.scrSize s1.accCols bs = none → StopsWith (.mxgo o) s t (ill (.mxgo o) 2))) ∧
    (Entered (.mxgo o) s t → a.toNat % 16 ≠ 0 → StopsWith (.mxgo o) s t (ill (.mxgo o) 2)) ∧
    (Entered (.mxclr o) s t → b.toNat = 0 ∨ 1024 < b.toNat ∨ s0.accCols < a.toNat + b.toNat → StopsWith (.mxclr o) s t (ill (.mxclr o) 2)) ∧
    (Entered (.accwr o) s t → 2 ^ 18 ≤ b.toNat ∨ s0.accCols ≤ b.toNat / 256 → StopsWith (.accwr o) s t (ill (.accwr o) 2)) ∧
    (Entered (.accrd o) s t → accRd? s0 a.toNat b.toNat o.d.toNat = none → StopsWith (.accrd o) s t (ill (.accrd o) 2)) ∧
    (∀ x ∈ [(Instr.cpyCopy o, CopyKind.copy), (.cpyFill o, .fill), (.cpyLook o, .look)], ∀ bs s1, Entered x.1 s t →
      readBlock x.1 s0 a 64 16 = .ok (bs, s1) → copyCmd? s1 x.2 bs = none → StopsWith x.1 s t (ill x.1 2)) ∧
    (Entered (.cbwr o) s t → bankCmd? s0 a b = none → StopsWith (.cbwr o) s t (ill (.cbwr o) 2)) ∧
    (∀ bs s1 p high, Entered (.mxgo o) s t → a.toNat % 16 = 0 → loadNow s0 1 a 64 = .ok (bs, s1) →
      mxGo? s1.myCtx t.launch s1.scrSize s1.accCols bs = some (p, high) → 32 ≤ s1.myCtx.mxq.length ∨ 63 ≤ t.count .matrix →
      StopsWith (.mxgo o) s t (.wait .engine)) ∧
    (32 ≤ s0.myCtx.mxq.length ∨ 63 ≤ t.count .matrix →
      (Entered (.mxclr o) s t → 1 ≤ b.toNat → b.toNat ≤ 1024 → a.toNat + b.toNat ≤ s0.accCols → StopsWith (.mxclr o) s t (.wait .engine)) ∧
      (∀ d, Entered (.accrd o) s t → accRd? s0 a.toNat b.toNat o.d.toNat = some d → d.dst.isSome = true →
        StopsWith (.accrd o) s t (.wait .engine)) ∧
      (Entered (.accwr o) s t → b.toNat < 2 ^ 18 → b.toNat / 256 < s0.accCols → t.fullAt o.a.toNat 1 →
        StopsWith (.accwr o) s t (.wait .engine))) ∧
    (∀ d, Entered (.accrd o) s t → accRd? s0 a.toNat b.toNat o.d.toNat = some d → d.dst = none → t.fullAt o.d.toNat 1 →
      32 ≤ s0.myCtx.mxq.length → StopsWith (.accrd o) s t (.wait .engine)) ∧
    (∀ x ∈ [(Instr.cpyCopy o, CopyKind.copy), (.cpyFill o, .fill), (.cpyLook o, .look)], ∀ bs s1 q, Entered x.1 s t →
      readBlock x.1 s0 a 64 16 = .ok (bs, s1) → copyCmd? s1 x.2 bs = some q → 64 ≤ s1.myCtx.cpq.length ∨ 63 ≤ t.count .copy →
      StopsWith x.1 s t (.wait .engine)) ∧
    (∀ q, Entered (.cbwr o) s t → bankCmd? s0 a b = some q → 64 ≤ s0.myCtx.cpq.length ∨ 63 ≤ t.count .copy →
      StopsWith (.cbwr o) s t (.wait .engine)) ∧
    ∀ bs s1, Entered (.selRun o) s t → readBlock (.selRun o) s0 a 64 16 = .ok (bs, s1) → (selBlock bs).ok bs s1.scrSize = true →
      16 ≤ s1.myCtx.selq.length ∨ 63 ≤ t.count .select → StopsWith (.selRun o) s t (.wait .engine)

/-- The limits of a trial's block (R258), `scr` being the size of the launch's scratchpad region. That an empty sandbox too lies in the region is
the model's choice (log entry 45). -/
def TrialLimits (bs : List Byte) (scr : Nat) : Prop :=
  let f (i n : Nat) : Nat := leNat ((bs.drop i).take n)
  f 0 2 ≤ 1023 ∧ 1 ≤ f 2 2 ∧ f 0 2 + f 2 2 ≤ 1024 ∧ f 4 4 % 4 = 0 ∧ f 4 4 < 256 * f 2 2 ∧ 8 ≤ f 8 1 ∧ f 8 1 ≤ 128 ∧ f 8 1 % 8 = 0 ∧
  1 ≤ f 9 1 ∧ f 9 1 ≤ 64 ∧ f 10 1 ≤ f 8 1 ∧ 1 ≤ f 11 1 ∧ f 11 1 ≤ f 8 1 ∧ f 12 2 ≤ 4096 ∧ f 12 2 % 16 = 0 ∧ f 14 2 = 0 ∧
  f 16 4 % 16 = 0 ∧ f 16 4 + f 12 2 ≤ scr ∧ f 20 1 ≤ 32 ∧ f 21 3 = 0 ∧ 1 ≤ f 24 8 ∧ (f 20 1 ≠ 0 → f 40 8 % 16 = 0) ∧ f 48 8 % 16 = 0 ∧
  f 56 8 = 0

/-- SIGF, RAND, LQPUT, PERMIT and TRIAL (R258 to R265, R321, R373): the signature rotated left by 13 and XORed with the operand, its count one
more; the next number of the thread's generator; a record appended to a launch queue, or held while its launch is RESTARTABLE; tickets of a
class, at once where no request of the partition waits and the balance holds no debt, else a wait until a refresh has granted them; a trial's
start entry with the launch's next TID in sd, or, where no TID is left, sd = 0 and nothing else. That a PERMIT costs no credits and takes part in the order of the requests is DEDUCED (log entry 18). -/
def Obligations.TrialAndQueueInstructionResults : Prop :=
  (∀ (bs : List Byte) (scr : Nat), trialOk bs scr = true ↔ TrialLimits bs scr) ∧
  ∀ (s s1 s2 : State) (t : Thread),
    let s0 := s.setTh t
    (∀ o : LaneOps, t.fullAt o.a.toNat 1 → Entered (.sigfB32 o) s t → Completes (.sigfB32 o) s
      { t with sig := t.sig.rotateLeft 13 ^^^ (t.cell o.a.toNat).data.zeroExtend 64, sign := t.sign + 1 }) ∧
    (∀ o : LaneOps, t.fullAt o.a.toNat 2 → Entered (.sigfB64 o) s t → Completes (.sigfB64 o) s
      { t with sig := t.sig.rotateLeft 13 ^^^ ((t.cell (o.a.toNat + 1)).data ++ (t.cell o.a.toNat).data), sign := t.sign + 1 }) ∧
    (∀ o : ScalarOps, Entered (.rand o) s t →
      let z0 := t.seed + t.randN * 0x9E3779B97F4A7C15
      let z1 := (z0 ^^^ (z0 >>> 30)) * 0xBF58476D1CE4E5B9
      let z2 := (z1 ^^^ (z1 >>> 27)) * 0x94D049BB133111EB
      Completes (.rand o) s { t.setSreg o.d.toNat (z2 ^^^ (z2 >>> 31)) with randN := t.randN + 1 }) ∧
    (∀ (o : ScalarOps) (bs : List Byte) (l : Launch), Entered (.lqput o) s t → (t.scalarB o.b).toNat < 16 →
      readBlock (.lqput o) s0 (t.code o.a) 64 64 = .ok (bs, s1) → s1.hw.launch? t.key.part t.launch = some l →
      let q := (t.scalarB o.b).toNat
      let load := ((s1.hw.part t.key.part).queue q).recs.length + ((s1.hw.part t.key.part).bells.filter fun b => b.1 == q).length
      (l.restartable = false → 256 ≤ load → StopsWith (.lqput o) s t (.wait .launchQueue)) ∧
      (l.restartable = false → load < 256 → orderAll s1 = .ok s2 →
        CompletesAs (.lqput o) s (s2.mapHw fun h => putRecord h t.key.part q bs)) ∧
      ∀ l2, l.restartable = true → orderAll s1 = .ok s2 → s2.hw.launch? t.key.part l.id = some l2 →
        CompletesAs (.lqput o) s (s2.mapHw fun h => h.setLaunch { l2 with heldPuts := l2.heldPuts ++ [(q, bs)] })) ∧
    (∀ o : ScalarOps, Entered (.permit o) s t →
      let a := (t.code o.a).toNat
      let n := a / 256 % 256
      let cls := if a % 4 = 0 then EngineClass.matrix else if a % 4 = 1 then .copy else .select
      let b := s.hw.budget t.key.core
      let me : PermitFor := .ticket t.key t.tid cls n
      let done (u : Thread) (b : Budget) : State := ((s.setTh u).mapHw fun h => h.setBudget b).advance (Instr.permit o).length
      (a % 4 = 3 ∨ a / 4 % 64 ≠ 0 ∨ 2 ^ 16 ≤ a ∨ n = 0 → StopsWith (.permit o) s t (ill (.permit o) 2)) ∧
      (a % 4 ≠ 3 → a / 4 % 64 = 0 → a < 2 ^ 16 → n ≠ 0 → (∀ q ∈ b.served, q.what ≠ me) →
        let idle := ∀ q ∈ b.waiting, q.part ≠ t.key.part
        (idle → b.grant ≠ 0 → 0 ≤ b.balance → exec (.permit o) s = .next (done (t.addTickets cls n) b)) ∧
        (¬ idle ∨ b.grant = 0 ∨ b.balance < 0 → (∀ q ∈ b.waiting, q.what ≠ me) → exec (.permit o) s =
          .next (stopped ((s.setTh t).mapHw fun h => h.setBudget { b with waiting := b.waiting ++ [⟨t.key.part, me, 0⟩] }) (.wait .engine)))) ∧
      (a % 4 ≠ 3 → a / 4 % 64 = 0 → a < 2 ^ 16 → n ≠ 0 → (∃ q ∈ b.served, q.what = me) →
        exec (.permit o) s = .next (done t { b with served := removeFirst (fun q => q.what == me) b.served }))) ∧
    ∀ (o : ScalarOps) (bs : List Byte) (l : Launch) (c : Issuer), Entered (.trial o) s t → s.hw.launch? t.key.part t.launch = some l →
      (l.trialhost = false → StopsWith (.trial o) s t (ill (.trial o) 2)) ∧
      (l.trialhost = true → readBlock (.trial o) s0 (t.code o.a) 64 16 = .ok (bs, s1) → trialOk bs s1.scrSize = true → 2 ^ 32 ≤ s1.nextTid →
        CompletesAs (.trial o) s (s1.setTh (s1.th.setSreg o.d.toNat 0))) ∧
      (l.trialhost = true → readBlock (.trial o) s0 (t.code o.a) 64 16 = .ok (bs, s1) → trialOk bs s1.scrSize = false →
        StopsWith (.trial o) s t (ill (.trial o) 2)) ∧
      (l.trialhost = true → readBlock (.trial o) s0 (t.code o.a) 64 16 = .ok (bs, s1) → trialOk bs s1.scrSize = true → s1.nextTid < 2 ^ 32 →
        63 ≤ t.count .trial → StopsWith (.trial o) s t (.wait .engine)) ∧
      (l.trialhost = true → readBlock (.trial o) s0 (t.code o.a) 64 16 = .ok (bs, s1) → trialOk bs s1.scrSize = true → s1.nextTid < 2 ^ 32 →
        countCommand s1 .trial = .ok (c, s2) → ∃ u, CompletesAs (.trial o) s u ∧ u.th.sreg o.d.toNat = (if o.d.toNat < 32 then
          BitVec.ofNat 64 s1.nextTid else 0) ∧ u.th.cmds = t.cmds ++ [⟨.trial, c.seq⟩] ∧
          ∃ e, u.hw = pushStart (takeTid (s2.mapHw fun h => { h with nextId := h.nextId + 1 })).hw t.key.part t.key.core e ∧
            e.launch = t.launch ∧ e.tid = s1.nextTid ∧ e.kind = .trial (trialReq bs s2.hw.nextId c t.knows))

/-! ### What completes later -/

/-- A producer that its thread does not hold back for the host (R406), with a number of its own and its bytes in the space of its route. -/
def Outstanding (s : State) (p : Pend) : Prop :=
  s.hw.pend? p.id = some p ∧ peerHeld s p = false ∧ (∀ q ∈ s.hw.pends, q.id = p.id → q = p) ∧ p.got.length = p.locs.length ∧
  ∀ l ∈ p.locs, p.route = .scratch ↔ ∃ o, l = .scr o

/-- No other outstanding access comes before this one (R174, R175, R180, R283). -/
def NothingBefore (s : State) (p : Pend) : Prop := ∀ q ∈ s.hw.pends, q ≠ p → q.before p p.locs = []

/-- Nor has any of it been performed. -/
def FirstInOrder (s : State) (p : Pend) : Prop := p.got = List.replicate p.locs.length none ∧ NothingBefore s p

/-- A producer has completed: it is no longer outstanding, its thread, if it is still resident, is `f` of what it was, no other thread has
changed. -/
def Completed (s u : State) (p : Pend) (f : Thread → Thread) : Prop :=
  (∀ q ∈ u.hw.pends, q.id ≠ p.id) ∧ (∀ t, s.owner? p = some t → u.thread? p.key = some (f t)) ∧
  (s.owner? p = none → u.thread? p.key = s.thread? p.key) ∧ ∀ k, k ≠ p.key → u.thread? k = s.thread? k

/-- What performing an access reads, and what it changes (R176, R180, R181, R279, R292, R294, R296, R298): a load that is one unit reads its bytes as
its route gives them now, and changes no byte but that a core's own stores to the bytes of a read past its cache come home first; or it takes
what its thread has read ahead of them, not on pages of types 2 and 3; an atomic reads the old
value and writes the new one, in memory or in the scratchpad, in one step, a compare that fails writes nothing, and no other byte changes but
those of the stores of its core that come home first and, for a compare and swap that writes, REF and D of the entries it was translated by. In which order
accesses are performed (`Pend.before`), and which stores of the core come home before a read past its cache or an atomic, is DEDUCED (log
entry 5). -/
def PerformEffects (s : State) (p : Pend) (bs : List Byte) : Prop :=
  let h := s.hw
  let u := perform h p
  let ks := physKeys p.locs
  FirstInOrder s p →
    (p.isLoad = true → p.units.length ≤ 1 →
      let h1 := beforeRead (accessAhead h p.key p.route p.locs) p.key p.route ks
      (bs = readLocs h1 p.key p.launch p.route p.locs ∧ u.mem = h1.mem ∧ (p.route = .l1 ∨ p.route = .con ∨ p.route = .scratch → u.mem = h.mem)) ∨
      (p.device = false ∧ u.mem = h.mem ∧ ∃ a ∈ (h.ctx p.key.part p.key.core).ahead, a.key = p.key ∧ a.route = p.route ∧
        bs.length = p.locs.length ∧ ∀ (i : Nat) (l : Loc) (b : Byte), p.locs[i]? = some l → bs[i]? = some b → (l, b) ∈ a.bytes)) ∧
    ∀ op n b c order discard, p.kind = .atomic op n b c order discard → p.units ≠ [] → swf h.mem = true →
      let h1 := drainOutKeys (drainSeen h p.key.part p.key.core p.sees) p.key.part p.key.core ks
      let fails := op = .cas ∧ leNat bs ≠ b.toNat % 2 ^ (8 * n)
      let new := leBytes n (amoNew op n (leNat bs) b.toNat c.toNat)
      let entry := if op = .cas then p.ptes.map devKey else []
      bs = readLocs h1 p.key p.launch p.route p.locs ∧
      (fails → ∀ k, sget u.mem k = sget h1.mem k) ∧
      (¬ fails → p.route ≠ .scratch → ks.Nodup → ks.length = n →
        ks.map (sget u.mem) = new ∧ ∀ k, k ∉ ks ++ entry → sget u.mem k = sget h1.mem k) ∧
      (¬ fails → p.route = .scratch → (∃ x ∈ h.ctxs, x.part = p.key.part ∧ x.core = p.key.core) →
        (∃ x ∈ (h.ctx p.key.part p.key.core).regions, x.launch = p.launch) →
        let m := ((h.ctx p.key.part p.key.core).region p.launch).scr
        let m' := ((u.ctx p.key.part p.key.core).region p.launch).scr
        swf m = true → (scrOffs p.locs).Nodup → (scrOffs p.locs).length = n →
        (scrOffs p.locs).map (sget m') = new ∧ (∀ o, o ∉ scrOffs p.locs → sget m' o = sget m o) ∧ ∀ k, sget u.mem k = sget h1.mem k)

/-- LOAD_COMPLETE, XLD_COMPLETE, SLD_DATA and ATOMIC_COMPLETE (R36, R172, R176, R178, R180, R225, R292, R296): the access is performed, as far
as it has not been, and whole where none comes before it that could be held for a peer (R406); then the cells, or the register, of the producer take the bytes it has read, extended or rounded as its instruction
says, and are full. What performing it reads and changes, in memory or in the scratchpad, `PerformEffects` says; the order of accesses and the
stores that come home first rest on log entry 5. -/
def Obligations.AccessesComplete : Prop :=
  ∀ (s : State) (p : Pend), Outstanding s p →
    let h := perform s.hw p
    (NothingBefore s p → p.isLoad = true ∨ (p.isAtomic = true ∧ p.units ≠ []) → ∃ q bs, h.pend? p.id = some q ∧ q.bytes = some bs ∧ bs.length = p.locs.length) ∧
    ∀ q bs, h.pend? p.id = some q → q.bytes = some bs →
      PerformEffects s p bs ∧
      (∀ m, p.kind = .load m → ∃ u, exec (.loadComplete p.id) s = .next u ∧ u.hw.mem = h.mem ∧
        Completed s u p fun t => (t.fillPlain p.cell p.ncells (loadWords m bs)).saw q) ∧
      (∀ prec rm smin, p.kind = .xload prec rm smin → ∃ u, exec (.xldComplete p.id) s = .next u ∧ u.hw.mem = h.mem ∧
        Completed s u p fun t => (t.fillZxf p.cell prec rm smin bs).saw q) ∧
      (∀ d n sg t since len, p.kind = .sload d n sg → s.owner? p = some t → t.wait = .held .scalarLoad since → t.latch = some len →
        (∀ x ∈ s.hw.pends, x.key = p.key → (∃ d n sg, x.kind = .sload d n sg) → x = p) →
        ∃ u, exec (.sldData p.key.part p.key.core p.key.slot) s = .next u ∧ u.hw.mem = h.mem ∧
          Completed s u p fun t => ((t.setSreg d.toNat (scalarOf n sg bs)).saw q).past len.toNat) ∧
      ∀ op n b c order discard, p.kind = .atomic op n b c order discard → ∃ u, exec (.atomicComplete p.id) s = .next u ∧ u.hw.mem = h.mem ∧
        Completed s u p fun t => (t.fillPlain p.cell p.ncells (wordsOf p.ncells (leNat bs))).saw q

/-- SPAWN_COMPLETE, AWAIT_COMPLETE, WC_DRAIN and STAGE_PAGE (R10, R39, R159, R161, R283, R373): a spawn takes the launch's next TID for a start
entry on the parent's core and gives it to the parent, or 0 where all are taken; an await gives the exit value of the thread it names once
that has exited, and not before; both wait while the core is halted; a write-combining line reaches its home; a page whose first write waits is
copied byte for byte to its staging frame, and no other page. -/
def Obligations.SpawnsAndStagingComplete : Prop :=
  ∀ (s : State) (p : Pend) (l : Launch),
    (∀ entry arg, s.hw.pend? p.id = some p → p.kind = .spawn entry arg → s.hw.launch? p.key.part p.launch = some l →
      (∀ q ∈ s.hw.pends, q.gang = p.gang → (∃ e a, q.kind = .spawn e a) → p.id ≤ q.id) →
      (coreRuns s.hw p.key.part p.key.core = false → exec (.spawnComplete p.id) s = .next s) ∧
      (coreRuns s.hw p.key.part p.key.core = true → ∃ u, exec (.spawnComplete p.id) s = .next u ∧
        (l.nextTid < 2 ^ 32 →
          (Completed s u p fun t => (t.fillPlain p.cell p.ncells (wordsOf p.ncells l.nextTid)).saw p) ∧ u.hw.ctxs =
            (pushStart s.hw p.key.part p.key.core ⟨l.id, l.nextTid, .spawn entry arg⟩).ctxs ∧
          ∃ l', u.hw.launch? p.key.part p.launch = some l' ∧ l' = { l with nextTid := l.nextTid + 1 }) ∧
        (2 ^ 32 ≤ l.nextTid → (Completed s u p fun t => (t.fillPlain p.cell p.ncells (wordsOf p.ncells 0)).saw p) ∧
          u.hw.ctxs = s.hw.ctxs))) ∧
    (∀ tid now, s.hw.pend? p.id = some p → p.kind = .await tid now → s.hw.launch? p.key.part p.launch = some l →
      (coreRuns s.hw p.key.part p.key.core = false → exec (.awaitComplete p.id) s = .next s) ∧
      (coreRuns s.hw p.key.part p.key.core = true →
        ∀ v, l.exits.find? (fun x => x.1 == tid.toNat) = some v → ∃ u, exec (.awaitComplete p.id) s = .next u ∧ u.hw.mem = s.hw.mem ∧
          Completed s u p fun t => (t.fillPlain p.cell p.ncells (wordsOf p.ncells v.2.toNat)).saw p) ∧
      (l.exits.find? (fun x => x.1 == tid.toNat) = none → exec (.awaitComplete p.id) s = .next s)) ∧
    (∀ part core line, s.canonical → ∃ u, exec (.wcDrain part core line) s = .next u ∧
      (∀ x ∈ (u.hw.ctx part core).wc, x.line ≠ line) ∧
      SameMemoryBut (((s.hw.ctx part core).wc.filter fun x => x.line == line).flatMap fun x => x.bytes.map fun y => y.key) s u ∧
      ∀ x, (s.hw.ctx part core).wc.filter (fun x => x.line == line) = [x] → (x.bytes.map fun y => y.key).Nodup →
        ∀ y ∈ x.bytes, sget u.hw.mem y.key = y.byte) ∧
    ∀ part id page, s.hw.launch? part id = some l →
      (stagedPiece s l page = none → exec (.stagePage part id page) s = .next s) ∧
      ∀ g, stagedPiece s l page = some g →
        (l.restartable = false ∨ (∀ v ∈ l.wants, v.1 ≠ g.va) → exec (.stagePage part id page) s = .next s) ∧
        (l.restartable = true → (∃ v ∈ l.wants, v.1 = g.va) → s.canonical → blocksMeet (g.frame, g.size) (g.orig, g.size) = false →
          let h1 := settleRange (readBlockOf s.hw g.orig g.size) g.frame g.size
          ((∀ q ∈ s.hw.pends, physKeys q.locs = []) → (∀ c ∈ s.hw.ctxs, c.wc = [] ∧ c.outq = []) → h1.mem = s.hw.mem) ∧
          ∃ u, exec (.stagePage part id page) s = .next u ∧
            u.hw.launch? part id = some { l with staged := l.staged ++ [g], wants := l.wants.filter fun v => v.1 != g.va } ∧
            (∀ i, i < g.size → sget u.hw.mem (g.frame + i) = sget h1.mem (g.orig + i)) ∧
            ∀ k, k < g.frame ∨ g.frame + g.size ≤ k → sget u.hw.mem k = sget h1.mem k)

/-! ### The engines -/

/-- What a command writes of a stretch of its destination at an address, some of whose bytes it has written before (R291): all of it at once, or
each byte that is left by itself, in ascending order, until one of them stops. A granule of 32 bytes whose bytes have all been written so is
no longer poisoned (R371), and no other one is changed. -/
def WritesTheRest : Prop :=
  (∀ (b : Issuer) (ea : Option DWord) (one : State → List Nat → Nat → List Byte → State × List Nat × Option Stop) (s : State)
      (wrote put : List Nat) (base : Nat) (bs : List Byte),
    ((∀ i, i < bs.length → base + i ∉ put) → putRest b ea one s wrote put base bs = one s wrote 0 bs) ∧
    ((∃ i, i < bs.length ∧ base + i ∈ put) → putRest b ea one s wrote put base bs =
      ((List.range bs.length).filter fun i => base + i ∉ put).foldl (fun x i =>
        if x.2.2 = none then
          let y := one x.1 x.2.1 i [bs.getD i 0]
          if y.2.2 = none then (sealByte y.1 b ea base (base + i) (put ++ (List.range (i + 1)).map (base + ·)), y.2.1, none) else y
        else x) (s, wrote, none))) ∧
  (∀ (s : State) (b : Issuer) (base n : Nat) (put : List Nat), sealByte s b none base n put = s) ∧
  (∀ (s : State) (b : Issuer) (a : DWord) (base n : Nat) (put : List Nat), base ≤ n →
    let x := a + BitVec.ofNat 64 (n - base)
    let r := x.toNat % 32
    let covered := base + r ≤ n ∧ ∀ i, i < 32 → n - r + i ∈ put
    (¬ covered → sealByte s b (some a) base n put = s) ∧
    (covered → ∀ xs, checkGen s b.who .store x 1 = .ok xs → sealByte s b (some a) base n put =
      s.mapHw fun h => clearPoison h ((List.range 32).map fun i => (xkeys xs).headD 0 - r + i))) ∧
  ∀ (h : Hw) (ks : List Nat),
    let whole (g : Nat) : Prop := ∀ i, i < 32 → 32 * g + i ∈ ks
    clearPoison h ks = { h with poison := (clearPoison h ks).poison, latent := (clearPoison h ks).latent } ∧
    (∀ p, p ∈ (clearPoison h ks).poison ↔ p ∈ h.poison ∧ ¬ whole p.granule) ∧
    ∀ l, l ∈ (clearPoison h ks).latent ↔ l ∈ h.latent ∧ ¬ whole l.granule

/-- Reading operand bytes of a command, each once (R330): the bytes read before stay, the bytes of the addresses that are new are those of the
region now, and the command computes from the bytes it has read. -/
def OperandsReadOnce : Prop :=
  ∀ (x : MxRun) (r : Region) (ks : List Nat), (x.seen.map Prod.fst).Nodup → swf r.obuf = true → swf r.scr = true →
    let y := x.look r ks
    let was (k : Nat) : Option Byte := (x.seen.find? fun z => z.1 == k).map Prod.snd
    (y.seen.map Prod.fst).Nodup ∧
    ∀ k, (y.seen.find? fun z => z.1 == k).map Prod.snd = (was k).or (if k ∈ ks then some (r.operandByte k) else none) ∧
      (r.withSeen y.seen).operandByte k = (was k).getD (r.operandByte k)

/-- The float element of a tile (R79): each group of 16 products, taken exactly with the block scales of both operands, is summed exactly,
and its sum with the accumulator is rounded once to binary32, to nearest even; a NaN or infinite term, or accumulator, gives what R79 says;
the groups are taken in ascending k. -/
def FloatTileElement : Prop :=
  ∀ (p : MxGo) (r : Region) (book : List Byte) (i j lo acc : Nat), mxInt p.fa = false → acc < 2 ^ 32 →
    let va (e : Nat) : FVal := p.srcA.value r p.fa [] i (lo + e)
    let vb (e : Nat) : FVal := p.srcB.value r p.fb book j (lo + e)
    let sa (e : Nat) : FVal := p.srcA.scaleOf r i (lo + e) p.k
    let sb (e : Nat) : FVal := p.srcB.scaleOf r j (lo + e) p.k
    let c := p.advance r book i j lo 16 acc
    (∀ (a b u w : Nat → ℝ) (z big : ℝ), (∀ e < 16, ValueIs (va e) (a e) ∧ ValueIs (vb e) (b e) ∧ ValueIs (sa e) (u e) ∧ ValueIs (sb e) (w e)) →
      ValueIs (fmtF32.decode acc) z → MaxFinite fmtF32 big →
      let sum := z + ((List.range 16).map fun e => a e * b e * u e * w e).sum
      (sum = 0 → c % 2 ^ 31 = 0 ∧ c < 2 ^ 32) ∧
      (sum ≠ 0 → ∃ y, RoundsTo 24 (-126) .rne (decide (sum < 0)) |sum| y ∧ (y ≤ big → CodeIs fmtF32 c (decide (sum < 0)) y) ∧
        (big < y → c = fmtF32.signBit (decide (sum < 0)) + fmtF32.infCode))) ∧
    ((∃ e < 16, (va e).isNan = true ∨ (vb e).isNan = true ∨ (sa e).isNan = true ∨ (sb e).isNan = true) ∨
      (fmtF32.decode acc).isNan = true → (fmtF32.decode c).isNan = true) ∧
    (∀ neg, (∃ e < 16, p.term r book i j (lo + e) = .inf neg) →
      (∀ e < 16, (p.term r book i j (lo + e)).isNan = false ∧ p.term r book i j (lo + e) ≠ .inf !neg) →
      (fmtF32.decode acc).isNan = false → fmtF32.decode acc ≠ .inf !neg → c = fmtF32.signBit neg + fmtF32.infCode) ∧
    ∀ g, p.advance r book i j lo (16 * (g + 1)) acc = p.advance r book i j (lo + 16 * g) 16 (p.advance r book i j lo (16 * g) acc)

/-- One accumulator word converted by ACCRD (R64 to R67, R205, R248): its value, as binary32 or as int32, times 2^sc, rounded once in the mode of the
descriptor to the destination format, or to an integer, which is saturated; what becomes of infinities and NaNs. -/
def ConvertsByR248 : Prop :=
  ∀ (d : AccRd) (w : Word),
    let rm := RMode.ofCode d.rm.toNat
    let e := accElem d w
    let x : FVal := fmtF32.decode w.toNat
    (∀ y : ℝ, (d.int = true → y = (w.toInt : ℝ)) → (d.int = false → ValueIs x y) →
      let v : ℝ := y * 2 ^ d.sc
      let neg := if d.int then decide (w.toInt < 0) else x.neg
      (∀ f, AnyFmt.ofCode d.fmt = .flt f →
        (y = 0 → e = (f.signBit neg, .none)) ∧
        ∀ big, y ≠ 0 → MaxFinite f big → ∃ z, RoundsTo f.p f.emin rm neg |v| z ∧
          (z ≤ big → CodeIs f e.1 neg z ∧ e.2 = { nx := decide (z ≠ |v|), uf := decide (z ≠ |v| ∧ |v| < 2 ^ f.emin) }) ∧
          (big < z → e = (f.signBit neg + (if f.specials = .ieee ∧ overflowToInf rm neg = true then f.infCode else f.maxCode),
            { of := true, nx := true }))) ∧
      ∀ n sg, AnyFmt.ofCode d.fmt = .int n sg → ∃ k : Nat, RoundsInt rm neg |v| k ∧ e.1 < 2 ^ n ∧
        intOf n sg e.1 = max (intRange n sg).1 (min (intRange n sg).2 (if neg then -(k : Int) else k)) ∧
        e.2 = { nx := decide ((intOf n sg e.1 : ℝ) ≠ v) }) ∧
    (d.int = false →
      (∀ f, AnyFmt.ofCode d.fmt = .flt f → x.isNan = true ∨ x.isInf = true →
        e.1 = (f.place rm x).1 ∧ e.2 = if x.isSnan then (f.place rm x).2.or .invalid else (f.place rm x).2) ∧
      ∀ n sg, AnyFmt.ofCode d.fmt = .int n sg → (x.isNan = true → e = (0, .invalid)) ∧
        ∀ neg, x = .inf neg → e.1 < 2 ^ n ∧ intOf n sg e.1 = (if neg then (intRange n sg).1 else (intRange n sg).2) ∧ e.2 = .invalid)

/-- What a completed ACCRD delivers (R36, R58, R167, R248): its elements packed into the cell, the upper bits 0, which is full; or into the
scratchpad from its offset on, where only the bits of the elements are written, and no byte that had been written before, with its lines
present again; the flags of its elements in its issuer's FCSR. -/
def AccReadDelivers : Prop :=
  ∀ (s : State) (x : MxRun) (d : AccRd), x.cmd.op = .rd d →
    let b := x.cmd.issuer
    let c := s.hw.ctx b.key.part b.key.core
    let g := c.region b.launch
    let w := (AnyFmt.ofCode d.fmt).width
    let e (j : Nat) : Nat × Flags := accElem d (sget g.acc (1024 * d.row + d.col + j))
    let fl := (allFlags ((List.range d.cnt).map fun j => (e j).2)).fcsrBits
    let u := mxDone s x
    ∃ v : Nat, v < 2 ^ (w * d.cnt) ∧ (∀ j, j < d.cnt → v / 2 ^ (w * j) % 2 ^ w = (e j).1 % 2 ^ w) ∧
      (d.dst = none → (s.issuer? b = none → u = s) ∧
        ∀ t, s.issuer? b = some t →
          u = s.setThread (({ t with fcsr := t.fcsr ||| fl } : Thread).fillPlain d.cell 1 [BitVec.ofNat 32 v])) ∧
      ∀ off, d.dst = some off → (∃ y ∈ s.hw.ctxs, y.part = b.key.part ∧ y.core = b.key.core) → (∃ r ∈ c.regions, r.launch = b.launch) →
        swf g.scr = true →
        let g' := (u.hw.ctx b.key.part b.key.core).region b.launch
        let n := (w * d.cnt + 7) / 8
        (∀ j k, j < n → k < 8 → (sget g'.scr (off + j)).getLsbD k =
          if j ∉ x.put ∧ 8 * j + k < w * d.cnt then v.testBit (8 * j + k) else (sget g.scr (off + j)).getLsbD k) ∧
        (∀ k, k < off ∨ off + n ≤ k → sget g'.scr k = sget g.scr k) ∧ g'.acc = g.acc ∧ g'.obuf = g.obuf ∧ u.hw.mem = s.hw.mem ∧
        g'.absent = ((c.fillLines b.launch x.cmd.id d.lines).region b.launch).absent ∧
        ∀ t, s.issuer? b = some t → u.issuer? b = some { t with fcsr := t.fcsr ||| fl }

/-- The matrix engine's events (R79, R80, R231, R236, R241, R245 to R248, R327 to R330): a command that may start leaves its queue, once its
draw permit is taken, and runs; a boundary adds 256 k-steps; a command that completes has its effect, its count falls; a spilled tile goes to
the spill area, up to the first page that it may not write, and comes back from it. When a command reads its operands, each byte once; which
word an element of a tile becomes (for integers, the sum of the products of signed elements and the old word, modulo 2^32; for floats, the
groups of R79), where it goes, what MXCLR and ACCWR change, and what ACCRD delivers. What a command has read or written ahead of the rest (R291) it does not read or
write again; what a stopped command has written leaves the L1 of its core (DEDUCED, log entry 17). -/
def Obligations.MatrixEngineEvents : Prop :=
  WritesTheRest ∧ OperandsReadOnce ∧ FloatTileElement ∧ ConvertsByR248 ∧ AccReadDelivers ∧ ∀ (s : State) (part core : Nat),
    let c := s.hw.ctx part core
    enginesRun s part core = true →
    (∀ m, c.mxRun = none → (c.nextHigh.orElse fun _ => c.nextLow) = some m →
      c.linesHeld m.issuer.launch m.id (m.op.reads ++ m.op.lines) = false →
      let begin_ (u : State) : State := u.mapCtx part core fun c =>
        { c with mxq := c.mxq.filter fun x => x.id != m.id, mxRun := some (mxBegin (c.region m.issuer.launch) m) }
      (m.op.cost = none ∨ m.permit = true → exec (.matrixCommandStart part core) s = .next (begin_ s)) ∧
      ∀ n u, m.op.cost = some n → m.permit = false →
        (takePermit s m.issuer .matrix (.matrix m.high m.id) n = (u, true) → exec (.matrixCommandStart part core) s = .next (begin_ u)) ∧
        (takePermit s m.issuer .matrix (.matrix m.high m.id) n = (u, false) → exec (.matrixCommandStart part core) s = .next u)) ∧
    (∀ x p, c.mxRun = some x → x.cmd.op = .go p → x.spilling = false → x.done + 256 < p.k →
      exec (.matrixBoundary part core) s = .next (s.mapCtx part core fun c =>
        { c with mxRun := some { x.chunk p (c.region x.cmd.issuer.launch) 256 with spilling := c.preempts x p } })) ∧
    (∀ x, c.mxRun = some x → x.spilling = false → x.last = true →
      let done := (dropWritten (mxDone s x) x.cmd.issuer x.wrote).mapCtx part core fun c => { c with mxRun := none }
      exec (.matrixCommandComplete part core) s =
        .next (commandOver (if x.cmd.op.counted then uncount done x.cmd.issuer .matrix else done) x.cmd.issuer)) ∧
    (∀ x p, c.mxRun = some x → x.cmd.op = .go p → x.spilling = true →
      let area := spillBytes p x.tile
      let rest (bs : List Byte) := putRest x.cmd.issuer (some p.spill) (fun u w i bs => engWritePart u x.cmd.issuer w (p.spill + BitVec.ofNat 64 i) bs) s x.wrote x.put 0 bs
      (∀ u wrote, spillStop s x.cmd.issuer .store p.spill = none → rest area = (u, wrote, none) →
        exec (.matrixSpillComplete part core) s = .next (u.mapCtx part core fun c =>
          { c with mxRun := none, mxSpill := some { x with spilling := false, tile := [], put := [], wrote := wrote } })) ∧
      ∀ n f u wrote, spillStop s x.cmd.issuer .store p.spill = some (n, .fault f) → rest (area.take n) = (u, wrote, none) →
        x.cmd.issuer.key.part = part → x.cmd.issuer.key.core = core →
        exec (.matrixSpillComplete part core) s =
          .next (engineFault ((dropWritten u x.cmd.issuer wrote).mapCtx part core fun c => { c with mxRun := none })
            x.cmd.issuer .matrix true f)) ∧
    (∀ (b : Issuer) (acc : Acc) (ea : DWord), spillStop s b acc ea = none → ∀ j, j < spillSize / 4096 →
      ∃ xs, checkGen s b.who acc (ea + BitVec.ofNat 64 (4096 * j)) 4096 = .ok xs ∧
        ∀ x ∈ xs, pagePerm .store x.2.2.pte.toNat = true ∧ pteMt x.2.2.pte.toNat = 0) ∧
    (∀ x p bs u, c.mxSpill = some x → x.cmd.op = .go p → c.mxRun = none → c.nextHigh = none →
      spillStop s x.cmd.issuer .load p.spill = none → engRead s x.cmd.issuer p.spill spillSize = .ok (bs, u) →
      let now := (List.range spillSize).map fun j => ((x.seen.find? fun y => y.1 == 2 ^ 40 + j).map Prod.snd).getD (bs.getD j 0)
      exec (.matrixResume part core) s = .next (u.mapCtx part core fun c =>
        { c with mxSpill := none, mxRun := some { x with tile := spillTile p now, seen := x.seen.filter fun y => y.1 < 2 ^ 40 } })) ∧
    (∀ x row col v, x.cmd.op = .wr row col v → mxDone s x = s.mapRegion x.cmd.issuer.key.part x.cmd.issuer.key.core x.cmd.issuer.launch
      fun r => { r with acc := sset r.acc (1024 * row + col) v }) ∧
    (∀ x col n, x.cmd.op = .clr col n → mxDone s x = s.mapRegion x.cmd.issuer.key.part x.cmd.issuer.key.core x.cmd.issuer.launch
      fun r => { r with acc := r.acc.filter fun c => !(col ≤ c.1 % 1024 && c.1 % 1024 < col + n) }) ∧
    (∀ x p, x.cmd.op = .go p → mxDone s x = s.mapRegion x.cmd.issuer.key.part x.cmd.issuer.key.core x.cmd.issuer.launch
      fun r => { r with acc := writeTile r.acc p (x.chunk p r (p.k - x.done)).tile }) ∧
    (∀ (x : MxRun) (p : MxGo) (r : Region) (n i j : Nat), i < p.m → j < p.n → p.m ≤ 256 → p.n ≤ 384 →
      let v := r.withSeen (x.look r (p.keys x.done n)).seen
      sget (x.chunk p r n).tile (384 * i + j) = BitVec.ofNat 32 (p.advance v x.book i j x.done n (sget x.tile (384 * i + j)).toNat)) ∧
    (∀ (acc tile : AccStore) (p : MxGo) (i j : Nat), swf acc = true → p.cb + p.n ≤ 1024 → i < 256 → j < 1024 →
      sget (writeTile acc p tile) (1024 * i + j) =
        if i < p.m ∧ p.cb ≤ j ∧ j < p.cb + p.n then sget tile (384 * i + (j - p.cb)) else sget acc (1024 * i + j)) ∧
    (∀ (p : MxGo) (r : Region) (book : List Byte) (i j lo n acc : Nat), mxInt p.fa = true → acc < 2 ^ 32 →
      let a (e : Nat) : Int := intOf (mxWidth p.fa) true (p.srcA.elem r (mxWidth p.fa) i (lo + e))
      let b (e : Nat) : Int := intOf (mxWidth p.fb) true (p.srcB.elem r (mxWidth p.fb) j (lo + e))
      ((p.advance r book i j lo n acc : Nat) : Int) = ((acc : Int) + ((List.range n).map fun e => a e * b e).sum) % 2 ^ 32) ∧
    ∀ (acc : AccStore) (col n k : Nat), swf acc = true →
      sget (acc.filter fun c => !(col ≤ c.1 % 1024 && c.1 % 1024 < col + n)) k =
        if col ≤ k % 1024 ∧ k % 1024 < col + n then 0 else sget acc k

/-- The n bytes from an offset on of a store of bytes are these; the others stay. -/
def WritesBytes (m m' : Memory) (off : Nat) (bs : List Byte) : Prop :=
  (∀ i, i < bs.length → sget m' (off + i) = bs.getD i 0) ∧ ∀ k, k < off ∨ off + bs.length ≤ k → sget m' k = sget m k

/-- When the lines of commands become present again (R252, R272, R234): as a command ends, those that it was to write and that no other outstanding
command of its launch on the core writes, be it a copy, a read of the accumulators or a selection; no other line changes. An access of a
command waits for the absent lines that commands issued before it are still to write. -/
def LinesReturn : Prop :=
  ∀ (c : Ctx) (launch id : Nat) (ls : List Nat),
    let due (p : Nat → Prop) (l : Nat) : Prop :=
      (∃ q ∈ c.cpq, q.issuer.launch = launch ∧ p q.id ∧ l ∈ q.lines) ∨
      (∃ q ∈ c.selq, q.issuer.launch = launch ∧ p q.id ∧ l ∈ q.blk.lines q.blk.outExtent) ∨
      (∃ m ∈ c.mxq ++ (c.mxRun.toList ++ c.mxSpill.toList).map (fun x => x.cmd), m.issuer.launch = launch ∧ p m.id ∧ l ∈ m.op.lines)
    ((∃ r ∈ c.regions, r.launch = launch) → ∀ l, l ∈ ((c.fillLines launch id ls).region launch).absent ↔
      l ∈ (c.region launch).absent ∧ ¬ (l ∈ ls ∧ ¬ due (fun n => n ≠ id) l)) ∧
    (c.linesHeld launch id ls = true ↔ ∃ l ∈ ls, l ∈ (c.region launch).absent ∧ due (fun n => n < id) l)

/-- The bytes that a copy moves (R250, R332). A piece of row r reads from its offset in the row at src + r × ss, in the scratchpad, in the
operand buffer or in memory, and is written from the same offset of the row at dst + r × ds on; a fill writes byte b of a row as pattern byte
b mod 8. A burst of whole rows takes them in ascending order, each read whole, from what the rows before it left, before it is written; the
pieces of a long row run in ascending address, but in descending address where the destination overlaps the source at a higher address. Of a burst
that is under way byte by byte (R291), what has been read and written is not read or written again; a byte is read before any of its row, or
piece, is written. -/
def CopyMoves : Prop :=
  ∀ (s : State) (c : CopyCmd) (r off n : Nat),
    let b := c.issuer
    let g (u : State) : Region := (u.hw.ctx b.key.part b.key.core).region b.launch
    let src := c.src + BitVec.ofInt 64 (c.ss * r)
    let dst := c.dst + BitVec.ofInt 64 (c.ds * r)
    (c.kind = .fill → ∃ bs, copySource s c r off n = .ok (bs, s) ∧ bs.length = n ∧
      ∀ i, i < n → bs[i]? = some (BitVec.ofNat 8 (c.pat.toNat / 2 ^ (8 * ((off + i) % 8))))) ∧
    (c.kind = .copy → c.ssp = 1 →
      copySource s c r off n = .ok ((List.range n).map fun i => sget (g s).scr (src.toNat + off + i), s)) ∧
    (c.kind = .copy → c.ssp = 2 →
      copySource s c r off n = .ok ((List.range n).map fun i => sget (g s).obuf (src.toNat + off + i), s)) ∧
    (∀ bs u, c.kind = .copy → c.ssp = 0 → copySource s c r off n = .ok (bs, u) →
      ∃ xs, checkGen s b.who .load (src + BitVec.ofNat 64 off) n = .ok xs ∧ bs = (xkeys xs).map fun k => sget s.hw.mem k) ∧
    (∀ bs u wrote, copyDest s c r off bs = (u, wrote, none) → (∃ x ∈ s.hw.ctxs, x.part = b.key.part ∧ x.core = b.key.core) →
      let own := ∃ r ∈ (s.hw.ctx b.key.part b.key.core).regions, r.launch = b.launch
      (c.dsp = 1 → own → swf (g s).scr = true → WritesBytes (g s).scr (g u).scr (dst.toNat + off) bs ∧ u.hw.mem = s.hw.mem) ∧
      (c.dsp = 2 → own → swf (g s).obuf = true → WritesBytes (g s).obuf (g u).obuf (dst.toNat + off) bs ∧ u.hw.mem = s.hw.mem) ∧
      (c.dsp = 3 → swf (s.hw.ctx b.key.part b.key.core).bank = true →
        WritesBytes (s.hw.ctx b.key.part b.key.core).bank (u.hw.ctx b.key.part b.key.core).bank (dst.toNat + off) bs ∧ u.hw.mem = s.hw.mem) ∧
      (c.dsp = 0 → s.canonical → ∃ xs, checkGen s b.who .store (dst + BitVec.ofNat 64 off) bs.length = .ok xs ∧
        ((xkeys xs).Nodup → (xkeys xs).length = bs.length → ∀ i, i < bs.length → sget u.hw.mem ((xkeys xs).getD i 0) = bs.getD i 0))) ∧
    (∀ j bs u, copyBytes s c j r off n = .ok (bs, u) →
      let was (i : Nat) : Option Byte := (c.seen.find? fun x => x.1 == j + i).map Prod.snd
      (∀ i b, i < n → was i = some b → bs[i]? = some b) ∧ ((∀ i, i < n → (was i).isSome = true) → u = s) ∧
      ((∃ i, i < n ∧ was i = none) → ∃ src, copySource s c r off n = .ok (src, u) ∧ ∀ i, i < n → was i = none → bs[i]? = src[i]?)) ∧
    (∀ j, ((∀ i, i < n → j + i ∈ c.put) → copyPiece s c j r off n = (s, c.wrote, none)) ∧
      ((∃ i, i < n ∧ j + i ∉ c.put) → ∀ bs u, copyBytes s c j r off n = .ok (bs, u) → copyPiece s c j r off n =
        putRest b (if c.dsp = 0 then some (dst + BitVec.ofNat 64 off) else none)
          (fun v wrote i bs => copyDest v { c with wrote := wrote } r (off + i) bs) u c.wrote c.put j bs)) ∧
    (∀ v c', c.rb ≤ 65536 → 0 < c.rb → burst s c = (v, none, c') →
      let m := min (max 1 (65536 / c.rb)) (c.rows - c.row)
      c'.row = c.row + m ∧ c'.piece = c.piece ∧ c'.seen = [] ∧ c'.put = [] ∧
      ∃ f : Nat → State × List Nat, f 0 = (s, c.wrote) ∧ f m = (v, c'.wrote) ∧
        ∀ j, j < m → copyPiece (f j).1 { c with wrote := (f j).2 } (j * c.rb) (c.row + j) 0 c.rb = ((f (j + 1)).1, (f (j + 1)).2, none)) ∧
    (∀ v c', 65536 < c.rb → burst s c = (v, none, c') →
      let a := (c.src + BitVec.ofInt 64 (c.ss * c.row)).toNat
      let d := (c.dst + BitVec.ofInt 64 (c.ds * c.row)).toNat
      let last := (c.rb + 65535) / 65536
      let p := if c.kind = .copy ∧ c.ssp = c.dsp ∧ a < d ∧ d < a + c.rb then last - 1 - c.piece else c.piece
      copyPiece s c 0 c.row (65536 * p) (min 65536 (c.rb - 65536 * p)) = (v, c'.wrote, none) ∧ c'.seen = [] ∧ c'.put = [] ∧
      (c'.row, c'.piece) = if c.piece + 1 = last then (c.row + 1, 0) else (c.row, c.piece + 1)) ∧
    ∀ k, c.stretch.1 ≤ k → k < c.stretch.1 + c.stretch.2.2.2 →
      let at_ := c.stretch.2.2.1 + (k - c.stretch.1)
      let was (i : Nat) : Option Byte := (c.seen.find? fun x => x.1 == i).map Prod.snd
      (∀ bs u, was k = none → copySource s c c.stretch.2.1 at_ 1 = .ok (bs, u) →
        copyOne s c k = keepCopy u { c with seen := (k, bs.headD 0) :: c.seen }) ∧
      (∀ v u wrote, was k = some v → k ∉ c.put → (∀ i, i < c.stretch.2.2.2 → (was (c.stretch.1 + i)).isSome = true) →
        copyDest s c c.stretch.2.1 at_ [v] = (u, wrote, none) →
        let begin_ := c.dst + BitVec.ofInt 64 (c.ds * c.stretch.2.1) + BitVec.ofNat 64 c.stretch.2.2.1
        copyOne s c k = keepCopy (sealByte u b (if c.dsp = 0 then some begin_ else none) c.stretch.1 k (k :: c.put))
          { c with put := k :: c.put, wrote := wrote }) ∧
      ((∃ i, i < c.stretch.2.2.2 ∧ was (c.stretch.1 + i) = none) → was k ≠ none → copyOne s c k = keepCopy s c)

/-- The list of a lookahead command (R251, R291): its bytes, each as it has been read before, or as a read of the list has it. -/
def LookaheadReads : Prop :=
  ∀ (s u : State) (c : CopyCmd) (bs : List Byte), lookBytes s c = .ok (bs, u) →
    let was (i : Nat) : Option Byte := (c.seen.find? fun x => x.1 == i).map Prod.snd
    (∀ i b, i < 8 * c.rows → was i = some b → bs[i]? = some b) ∧ ((∀ i, i < 8 * c.rows → (was i).isSome = true) → u = s) ∧
    ((∃ i, i < 8 * c.rows ∧ was i = none) → ∃ src, engRead s c.issuer c.src (8 * c.rows) = .ok (src, u) ∧
      ∀ i, i < 8 * c.rows → was i = none → bs[i]? = src[i]?)

/-- The copy engine's events (R231, R236, R237, R249 to R254, R300, R324, R332, R344): a burst moves its rows or its piece, once its draw permit is
taken, and keeps its place, also one that has begun when its core halts for a swap or a migration; a fault stops the command; a command whose rows are done leaves its queue, the lines of memory that it wrote leave
the L1 of its core, and the lines that it was to write become present, but for those that other commands are still to write (so also of a
stopped command, DEDUCED, log entry 17); a code-bank write starts once no running trial holds its slots; a lookahead starts
its absent pages and ends when all are resident. Which bytes a copy moves and a fill writes. -/
def Obligations.CopyEngineEvents : Prop :=
  CopyMoves ∧ LinesReturn ∧ LookaheadReads ∧ ∀ (s : State) (part core : Nat),
    let x := s.hw.ctx part core
    let p := s.hw.part part
    let halts := p.active = true ∧ core ∈ p.cores ∧ (p.swap = .halting ∨ (p.swap = .none ∧ ∃ y ∈ s.hw.cores, y.use = .moving core))
    (∀ c u v c', currentCopy s part core = some c →
      enginesRun s part core = true ∨ (halts ∧ (c.seen ≠ [] ∨ c.put ≠ [])) → c.row < c.rows → x.linesHeld c.issuer.launch c.id (c.reads ++ c.lines) = false →
      (c.dsp = 3 → c.started = true) →
      (if c.permit then (s, true) else takePermit s c.issuer .copy (.copy c.id) 1) = (u, true) →
      (burst u c = (v, none, c') → exec (.copyBurst part core) s = .next (keepCopy v c')) ∧
      ∀ f, burst u c = (v, some (.fault f), c') →
        exec (.copyBurst part core) s = .next (engineFault
          (endCopy (dropWritten v c.issuer c'.wrote) { c with wrote := c'.wrote }) c.issuer .copy true f)) ∧
    (enginesRun s part core = true →
    (∀ c, currentCopy s part core = some c → c.rows ≤ c.row →
      exec (.copyComplete part core c.id) s =
        .next (commandOver (uncount (endCopy (dropWritten s c.issuer c.wrote) c) c.issuer .copy) c.issuer)) ∧
    (∀ c id, x.cpq.find? (fun c => c.id == id && c.dsp == 3 && c.kind != .look && !c.started) = some c →
      (slotsInUse s part core c.slots = false → exec (.codeBankWriteStart part core id) s = .next (s.mapCtx part core fun x =>
        { x with cpq := x.cpq.map fun q => if q.id == id then { q with started := true } else q })) ∧
      (slotsInUse s part core c.slots = true → exec (.codeBankWriteStart part core id) s = .next s)) ∧
    ∀ c id, x.cpq.find? (fun c => c.id == id && c.kind == .look) = some c →
      (c.started = true → (∀ a ∈ c.pages, absentPage s part a = none) →
        exec (.lookaheadComplete part core id) s = .next (commandOver (uncount (endCopy s c) c.issuer .copy) c.issuer)) ∧
      ∀ bs u, c.started = false → lookBytes s c = .ok (bs, u) →
        ∃ pages, exec (.lookaheadComplete part core id) s = .next (keepCopy u { c with started := true, pages := pages, seen := [] }) ∧
          ∀ va, va ∈ pages ↔ ∃ j, j < c.rows ∧ absentPage u part (fld bs (8 * j) 8) = some va)

/-- The weights of a selection (R256): one that is negative or a NaN counts as 0 and one of +∞ as the greatest finite value, and both are
clamped; any other counts as it is, in units of 2^−149, and so does the target, of which the sums need to exceed only the whole units. -/
def WeightsByR256 : Prop :=
  (∀ (c : Nat) (y : ℝ), ValueIs (fmtF32.decode c) y →
    (0 ≤ y → (weightOf 1 c).2 = false ∧ ((weightOf 1 c).1 : ℝ) * 2 ^ (-149 : Int) = y) ∧ (y < 0 → weightOf 1 c = (0, true))) ∧
  (∀ c, (fmtF32.decode c).isNan = true ∨ fmtF32.decode c = .inf true → weightOf 1 c = (0, true)) ∧
  (∀ c big, fmtF32.decode c = .inf false → MaxFinite fmtF32 big → (weightOf 1 c).2 = true ∧ ((weightOf 1 c).1 : ℝ) * 2 ^ (-149 : Int) = big) ∧
  (∀ c, weightOf 2 c = (c, false)) ∧
  (∀ (k : SelBlock) (y : ℝ), k.wfmt = 1 → ValueIs (fmtF64.decode k.kw.toNat) y → 0 ≤ y →
    ∀ m : Nat, targetOf k < m ↔ y < (m : ℝ) * 2 ^ (-149 : Int)) ∧
  ∀ k : SelBlock, k.wfmt = 2 → targetOf k = k.kw.toNat

/-- The record of R257, with a threshold image t where there is one: `el` are the eligible indices, ascending. -/
def RecordByR257 (k : SelBlock) (x : SelData) (el : List Nat) (status : Nat) (t : Option Nat) (record : List Byte) : Prop :=
  let flag := if k.wfmt ≠ 0 ∧ ∃ w ∈ x.ws, w.2 = true then 128 else 0
  let tail := leBytes 1 (status + flag) ++ leBytes 3 0 ++ leBytes 8 (totalField k (el.map x.w).sum)
  match t with
  | none => record = leBytes 20 0 ++ tail
  | some t => ∃ first, first ∈ el ∧ (x.el first).image = t ∧ (∀ i ∈ el, (x.el i).image = t → first ≤ i) ∧
      record = leBytes 8 (x.el first).bits ++ leBytes 4 first ++
        leBytes 4 (el.countP fun i => if k.mode = 1 then (x.el i).image < t else t < (x.el i).image) ++
        leBytes 4 (el.countP fun i => (x.el i).image = t) ++ tail

/-- The order of R256: from the top image down, for mode 1 from the bottom image up, ties by ascending index. -/
def SelBefore (k : SelBlock) (x : SelData) (i j : Nat) : Prop :=
  (x.el i).image = (x.el j).image ∧ i < j ∨
    if k.mode = 1 then (x.el i).image < (x.el j).image else (x.el j).image < (x.el i).image

/-- What the passes of a command come to (R256, R257, R336), where every pass reads the same column and weights: of the eligible elements in
their order, the first k are selected, in mode 2 the least number whose weights sum to more than W; all of them where there are fewer; none
where there is no eligible element, where their weight is 0 or where the lengths of a ZXF-M column differ. `j` counts the passes. -/
def SelectsByR256 : Prop :=
  ∀ (c : SelCmd) (x : SelData) (o : List Nat), c.pass = 0 → c.chosen = 0 → c.sel = [] → c.clamped = false → c.result = none →
    let k := c.blk
    let el := (List.range k.n).filter fun i => k.nanp = 1 ∨ (x.el i).nan = false
    let total := (el.map x.w).sum
    let result (r : SelResult) : Prop := ∃ j, 1 ≤ j ∧ j ≤ max 1 ((x.width.getD 4 + 3) / 4) ∧
      (∀ i, i < j → ((fun c => selPass c x)^[i] c).result = none) ∧ ((fun c => selPass c x)^[j] c).result = some r
    let selects (m status : Nat) : Prop := ∃ r, result r ∧ r.mixed = false ∧ r.sel = (List.range k.n).filter (fun i => i ∈ o.take m) ∧
      RecordByR257 k x el status (some (x.el (o.getD (m - 1) 0)).image) r.record
    o.Perm el → o.Pairwise (SelBefore k x) → (∀ i, 16 ^ ((x.width.getD 4 + 3) / 4) > (x.el i).image) → (∀ w, x.width = some w → 1 ≤ w) →
    k.mode ≤ 2 → (k.mode = 2 → k.wfmt ≠ 0 ∧ 0 ≤ targetOf k) → (k.mode ≠ 2 → 1 ≤ k.kw.toNat) →
    (x.width = none → ∃ r, result r ∧ r.mixed = true ∧ r.sel = [] ∧ RecordByR257 k x el 4 none r.record) ∧
    (x.width ≠ none →
      (el = [] → ∃ r, result r ∧ r.mixed = false ∧ r.sel = [] ∧ RecordByR257 k x el 2 none r.record) ∧
      (el ≠ [] → k.mode = 2 → total = 0 → ∃ r, result r ∧ r.mixed = false ∧ r.sel = [] ∧ RecordByR257 k x el 3 none r.record) ∧
      (el ≠ [] → k.mode ≠ 2 → el.length < k.kw.toNat → selects el.length 1) ∧
      (k.mode ≠ 2 → k.kw.toNat ≤ el.length → selects k.kw.toNat 0) ∧
      (k.mode = 2 → 0 < total → (total : Int) ≤ targetOf k → selects el.length 1) ∧
      ∀ m, k.mode = 2 → m < el.length → (((o.take m).map x.w).sum : Int) ≤ targetOf k →
        targetOf k < ((o.take (m + 1)).map x.w).sum → selects (m + 1) 0)

/-- The outputs of R256: bit i of the mask is set for each selected index, and the others are 0; the index list holds the selected indices. -/
def OutputsByR256 : Prop :=
  ∀ (k : SelBlock) (r : SelResult), (∀ i ∈ r.sel, i < k.n) →
    (r.mixed = true ∨ k.out = 0 → outBytes k r = []) ∧
    (r.mixed = false → k.out = 1 → (outBytes k r).length = (k.n + 7) / 8 ∧
      ∀ i, i < 8 * ((k.n + 7) / 8) → (((outBytes k r).getD (i / 8) 0).getLsbD (i % 8) = true ↔ i ∈ r.sel)) ∧
    (r.mixed = false → k.out = 2 → outBytes k r = r.sel.flatMap fun i => leBytes 4 i)

/-- Where Teasel writes part of its output ahead of the rest (R291, R341), it writes the aligned 4-byte unit that holds the place, whole and in one
write: of the output, or, behind it, of the record. -/
def WritesUnits : Prop :=
  (∀ (s : State) (c : SelCmd) (r : SelResult) (n : Nat),
    let out := outBytes c.blk r
    let (base, bs, a) := if n < out.length then (0, out, c.blk.outa) else (out.length, r.record, c.blk.recAddr)
    let lo := 4 * ((n - base) / 4)
    let unit := (bs.drop lo).take 4
    ∀ u wrote, selWrite s c.issuer c.wrote c.blk.osp (a + BitVec.ofNat 64 lo) unit = (u, wrote, none) →
      let put := (List.range unit.length).map (fun i => base + lo + i) ++ c.put
      selUnit s c r n =
        keepSel (sealByte u c.issuer (if c.blk.osp = 0 then some a else none) base (base + lo) put) { c with put := put, wrote := wrote }) ∧
  ∀ (s u : State) (b : Issuer) (wrote w : List Nat) (a : DWord) (bs : List Byte), selWrite s b wrote 1 a bs = (u, w, none) →
    (∃ x ∈ s.hw.ctxs, x.part = b.key.part ∧ x.core = b.key.core) → (∃ r ∈ (s.hw.ctx b.key.part b.key.core).regions, r.launch = b.launch) →
    let g (v : State) : Region := (v.hw.ctx b.key.part b.key.core).region b.launch
    swf (g s).scr = true → WritesBytes (g s).scr (g u).scr a.toNat bs ∧ u.hw.mem = s.hw.mem ∧ w = wrote

/-- Teasel's events (R231, R236, R255 to R257, R300, R336, R341): a pass reads the column and the weights and narrows the candidates; a command
whose result is known writes its output, then its record, drops the lines that it wrote from the L1 of its core, and leaves its queue, with its
lines present again (`LinesReturn`). Bytes that it has read or written ahead of the rest (R291) it does not read or write again. Which
elements the passes select, which of equal ones, what the record says and what the output holds. That the clamp flag of a record counts the
weights of elements that the passes leave out is DEDUCED (log entry 19); that the output is written before the record is the model's choice (log
entry 17). -/
def Obligations.SelectEngineEvents : Prop :=
  WeightsByR256 ∧ SelectsByR256 ∧ OutputsByR256 ∧ WritesUnits ∧ ∀ (s : State) (part core : Nat) (c : SelCmd) (rest : List SelCmd),
    let x := s.hw.ctx part core
    x.selq = c :: rest → enginesRun s part core = true →
    (∀ u, c.result = none → x.linesHeld c.issuer.launch c.id c.blk.reads = false →
      (if c.permit then (s, true) else takePermit s c.issuer .select (.select c.id) 1) = (u, true) →
      ∀ els width u1 ws u2, readColumn u c.issuer c.blk c.seen = .ok ((els, width), u1) → readWeights u1 c.issuer c.blk c.seen = .ok (ws, u2) →
        exec (.selectPass part core) s = .next (keepSel u2 (selPass c ⟨els, ws, width⟩))) ∧
    ∀ r u w1 v w2, c.result = some r → x.linesHeld c.issuer.launch c.id (c.blk.lines (outBytes c.blk r).length) = false →
      let rest (u : State) (w : List Nat) (a : DWord) (base : Nat) (bs : List Byte) :=
        putRest c.issuer (if c.blk.osp = 0 then some a else none)
          (fun u w i bs => selWrite u c.issuer w c.blk.osp (a + BitVec.ofNat 64 i) bs) u w c.put base bs
      rest s c.wrote c.blk.outa 0 (outBytes c.blk r) = (u, w1, none) →
      rest u w1 c.blk.recAddr (outBytes c.blk r).length r.record = (v, w2, none) →
      exec (.selectComplete part core) s =
        .next (commandOver (uncount (endSel (dropWritten v c.issuer w2) c) c.issuer .select) c.issuer)

/-- The beginning of an example (R301, R345, R371, R406): while a line of its sandbox is absent it waits; its inputs, read through the generic path
with those of their bytes that have been read before, fill its cells, and its sandbox is zeroed, with no other byte of the scratchpad changed;
a fault ends the trial with FAULT.mem (9), and so may the loss of an answer of a peer (a free choice). That it waits for what is not yet
readable is DEDUCED (log entry 20). -/
def ExampleBegins : Prop :=
  ∀ (s : State) (r : TrialRun) (e : Nat),
    let n := 4 * r.req.nin
    let ea := r.req.inp + BitVec.ofNat 64 (n * e)
    let faulted : State := endTrial (s.setTh { s.th with trial := some r }) 9
    let was (i : Nat) : Option Byte := (r.seen.find? fun x => x.1 == i).map Prod.snd
    let inputs (bs : List Byte) : List Byte := (List.range n).map fun i => (was i).getD (bs.getD i 0)
    let absent := ∃ i, i < r.req.sbsz ∧ (r.req.sbase + i) / 128 ∈ s.region.absent
    let scr (u : State) : Memory := ((u.hw.ctx s.th.key.part s.th.key.core).region s.th.launch).scr
    let begun (u : State) (bs : List Byte) : Prop :=
      u.th = s.th.exampleStart r e ((List.range r.req.nin).map fun i => BitVec.ofNat 32 (leNat ((bs.drop (4 * i)).take 4))) false ∧
      ((∃ x ∈ s.hw.ctxs, x.part = s.th.key.part ∧ x.core = s.th.key.core) →
        (∃ x ∈ (s.hw.ctx s.th.key.part s.th.key.core).regions, x.launch = s.th.launch) → swf (scr s) = true →
        (∀ i, i < r.req.sbsz → i ∉ r.zeroed → sget (scr u) (r.req.sbase + i) = 0) ∧
        (∀ k, (k < r.req.sbase ∨ r.req.sbase + r.req.sbsz ≤ k) → sget (scr u) k = sget (scr s) k) ∧
        ∀ i, i < r.req.sbsz → i ∈ r.zeroed → sget (scr u) (r.req.sbase + i) = sget (scr s) (r.req.sbase + i))
    (absent → beginExample s r e = .error (.wait .absentLine)) ∧
    (¬ absent → (∀ i, i < n → (was i).isSome = true) → ∃ u, beginExample s r e = .ok u ∧ begun u (inputs [])) ∧
    (¬ absent → (∃ i, i < n ∧ was i = none) →
      (∀ k, checkGen s s.who .load ea n = .error (.wait k) → beginExample s r e = .error (.wait k)) ∧
      (∀ f, checkGen s s.who .load ea n = .error (.fault f) → beginExample s r e = .ok faulted) ∧
      ∀ xs, checkGen s s.who .load ea n = .ok xs →
        ((∃ k ∈ xkeys xs, keyPoisoned s.hw k = true) → ∃ ue, beginExample s r e = .error (.consumed ue)) ∧
        ((∀ k ∈ xkeys xs, keyPoisoned s.hw k = false) →
          (∃ u, beginExample s r e = .ok u ∧ begun u (inputs ((xkeys xs).map fun k => sget s.hw.mem k))) ∨
          ((∃ k ∈ xkeys xs, keyIsPeer k = true) ∧ beginExample s r e = .ok faulted)))

/-- The code that a trial sees (R186, R253): a byte of its slots is that of the bank, or one that a code-bank write has overwritten which no PFENCE
of its issuer has named, nor a later write of that byte. Which one is the model's free choice (log entry 47). -/
def TrialCode : Prop :=
  (∀ (h : Hw) (c : Ctx) (r : TrialReq), ∀ x ∈ bankView h c r, 256 * r.slot ≤ x.1 ∧ x.1 < 256 * (r.slot + r.nslot) ∧
    ∃ pre e post, c.bankOld = pre ++ e :: post ∧ e.off = x.1 ∧ e.byte = x.2 ∧ e.id ∉ r.knows ∧ ∀ y ∈ post, y.off = x.1 → y.id ∉ r.knows) ∧
  ∀ (r : TrialRun) (bank : Memory) (off : Nat), (∀ b, (off, b) ∉ r.old) → r.bankByte bank off = sget bank off

/-- The deduplication of a trial (R352 to R354). Without a table there is no lookup. A tuple that the filter cache of the core holds is DUP. Else
the table is probed from the entry that the key names on, cyclically, 64 entries at most; each is compared and, where it is free, written in
one step, as an atomic: a valid entry of the key is DUP; a valid one of another key is passed; a free one, whatever else it holds, takes the
key, the trial's TID, its first slot, its verdict and the valid bit, and no other byte of memory changes but the REF and D bits of the
translation (R279). Without a match and without a free entry TFULL is set and nothing is cached; else the tuple enters the filter cache, of
16,384 tuples. -/
def DedupByR352 : Prop :=
  ∀ (s : State) (x : Lookup), s.canonical →
    let c := s.hw.ctx x.by_.key.part x.by_.key.core
    let z0 := x.sig ^^^ (x.sign.zeroExtend 64 <<< 48) ^^^ (BitVec.ofNat 64 x.verdict <<< 60)
    let z1 := (z0 ^^^ (z0 >>> 30)) * 0xBF58476D1CE4E5B9
    let z2 := (z1 ^^^ (z1 >>> 27)) * 0x94D049BB133111EB
    let key := z2 ^^^ (z2 >>> 31)
    let tuple : FilterTuple := ⟨x.req.table, x.req.tlog, x.launch, key⟩
    let size := 2 ^ x.req.tlog
    (x.req.tlog = 0 → dedup s x = .ok (s, [], false, false)) ∧
    (x.req.tlog ≠ 0 → tuple ∈ c.filter → dedup s x = .ok (s, [], true, false)) ∧
    (∀ u wrote dup tfull, x.req.tlog ≠ 0 → tuple ∉ c.filter →
      probe s x key size x.probed (min size 64 - x.probed) = .ok (u, wrote, dup, tfull) →
      (tfull = true → dedup s x = .ok (u, wrote, dup, true)) ∧
      (tfull = false → dedup s x = .ok (u.mapCtx x.by_.key.part x.by_.key.core fun c =>
        { c with filter := (tuple :: c.filter).take 16384 }, wrote, dup, false))) ∧
    (∀ e, x.req.tlog ≠ 0 → tuple ∉ c.filter → probe s x key size x.probed (min size 64 - x.probed) = .error e → dedup s x = .error e) ∧
    ∀ i n, probe s x key size i 0 = .ok (s, [], false, true) ∧
      let a := x.req.table + BitVec.ofNat 64 (16 * ((key.toNat % size + i) % size))
      (∀ e, checkGen s x.by_.who .atomic a 16 = .error e → probe s x key size i (n + 1) = .error e) ∧
      ∀ xs, checkGen s x.by_.who .atomic a 16 = .ok xs → (∀ k ∈ xkeys xs, keyPoisoned s.hw k = false) →
        let old := (xkeys xs).map (sget s.hw.mem)
        let valid := (old.getD 15 0).getLsbD 0 = true
        (valid → leNat (old.take 8) = key.toNat →
          ∃ u, probe s x key size i (n + 1) = .ok (u, [], true, false) ∧ SameMemoryBut (pteKeys xs) s u) ∧
        (valid → leNat (old.take 8) ≠ key.toNat →
          ∃ u, probe s x key size i (n + 1) = probe u x key size (i + 1) n ∧ SameMemoryBut (pteKeys xs) s u) ∧
        (¬ valid → (xkeys xs).Nodup → (∀ k ∈ xkeys xs, k ∉ pteKeys xs) →
          ∃ u wrote, probe s x key size i (n + 1) = .ok (u, wrote, false, false) ∧ SameMemoryBut (xkeys xs ++ pteKeys xs) s u ∧
            (xkeys xs).map (sget u.hw.mem) =
              leBytes 8 key.toNat ++ leBytes 4 x.tid.toNat ++ leBytes 2 x.req.slot ++ leBytes 1 x.verdict ++ [1])

/-- Trials (R54, R258 to R261, R345 to R357): a start begins the first example in the state of R345, at once or, where the step says so, byte by
byte (R291); a fold takes the output cells into the signature in ascending index, then the next example begins, or the trial ends with COMPLETE
(verdict 0) after the last; a trial out of fuel ends with FUEL; the lookup, once those of lower TIDs that reached it with it have their answer
and fewer than 32 others of its core have begun,
inserts or finds its key, writes its record and ends the trial's command; a tuple of the filter cache may go. Which entry a lookup probes, what
it inserts and what DUP and TFULL say. That a trial whose inputs cannot
be read yet waits and tries again, and which lookups count as reaching the lookup in one clk, is DEDUCED (log entry 20); that the low half of the
record is not written after the high one is the model's choice (log entry 45). -/
def Obligations.TrialEvents : Prop :=
  ExampleBegins ∧ TrialCode ∧ DedupByR352 ∧ ∀ (s : State) (part core : Nat),
    (∀ e r, contextRuns s part core = true → nextStart s part core = some e → e.kind = .trial r →
      let t : Thread := { Thread.idle with
        live := true, key := ⟨part, core, (s.freeSlots part core false).1⟩, launch := e.launch, tid := BitVec.ofNat 32 e.tid, win := r.win,
        fuel := r.fuel, picker := leastPicker (s.threadsOn part core) }
      let s1 := ((beginStart s part core e).mapHw fun h => { h with fresh := h.fresh + 256 * r.nslot }).setTh t
      let run : TrialRun := ⟨r, 0, 0, false, false, false, [], [], bankView s.hw (s.hw.ctx part core) r⟩
      (s.port.split = true → exec (.trialStart part core e.tid) s = .next (s1.setTh (t.exampleStart run 0 [] true)).leaveThread) ∧
      (s.port.split = false →
        (∀ u, beginExample s1 run 0 = .ok u → exec (.trialStart part core e.tid) s = .next u.leaveThread) ∧
        (∀ ue, beginExample s1 run 0 = .error (.consumed ue) → exec (.trialStart part core e.tid) s = .next (consumeUe s1 ue).leaveThread) ∧
        ∀ k, beginExample s1 run 0 = .error (.wait k) → exec (.trialStart part core e.tid) s = .next
          (s1.setTh { t.exampleStart run 0 [] true with wait := .retry k (t.wait.since s1.time) }).leaveThread)) ∧
    (∀ slot t r, contextRuns s part core = true → s.thread? ⟨part, core, slot⟩ = some t → t.trial = some r →
      let t' := (List.range r.req.nout).foldl (fun t i => t.foldSig ((t.cell i).data.zeroExtend 64)) t
      (∀ s1, r.loading = false → r.folding = true → t.fullAt 0 r.req.nout → flush ((s.enterThread t).setTh t') = .ok s1 →
        let s2 := s1.mapHw fun h => { h with pends := h.pends.filter fun p =>
          !(p.key == s1.th.key && p.tid == s1.th.tid && p.launch == s1.th.launch) }
        let r' : TrialRun := { r with done := r.ex + 1, folding := false }
        (r.ex + 1 = r.req.nex → exec (.exampleFold part core slot) s = .next (endTrial (s2.setTh { s2.th with trial := some r' }) 0).leaveThread) ∧
        (r.ex + 1 ≠ r.req.nex → s.port.split = true → exec (.exampleFold part core slot) s =
          .next (s2.setTh (s2.th.exampleStart r' (r.ex + 1) [] true)).leaveThread) ∧
        ∀ u, r.ex + 1 ≠ r.req.nex → s.port.split = false → beginExample s2 r' (r.ex + 1) = .ok u →
          exec (.exampleFold part core slot) s = .next u.leaveThread) ∧
      (∀ u, r.loading = true → beginExample (s.enterThread t) r r.ex = .ok u → exec (.exampleFold part core slot) s = .next u.leaveThread) ∧
      (r.starved = true → exec (.fuelExhausted part core slot) s = .next (endTrial (s.enterThread t) 1).leaveThread) ∧
      (r.starved = false → exec (.fuelExhausted part core slot) s = .next s)) ∧
    (∀ x, contextRuns s part core = true → (s.hw.ctx part core).lookups.find? (fun y => y.id == x.id) = some x →
      let behind := ∃ y ∈ (s.hw.ctx part core).lookups, y.clk = x.clk ∧ y.req.table = x.req.table ∧ y.answer = none ∧ y.tid.toNat < x.tid.toNat
      let begun (y : Lookup) : Bool := y.probed != 0 || y.answer.isSome || y.put != 0
      let waits := behind ∨ (begun x = false ∧ 32 ≤ ((s.hw.ctx part core).lookups.filter begun).length)
      (waits → exec (.dedupLookup part core x.id) s = .next s) ∧
      ∀ u v w w' dup full, ¬ waits →
        (x.answer = none → dedup s x = .ok (u, w, dup, full)) → (∀ a, x.answer = some a → (u, w, dup, full) = (s, x.wrote, a)) →
        engWrite u x.by_ w (x.req.recAddr + BitVec.ofNat 64 (8 * x.put)) ((x.record dup full).drop (8 * x.put)) = .ok (v, w') →
        exec (.dedupLookup part core x.id) s = .next (commandOver (uncount
          (trialOver (dropWritten v x.by_ w') x (BitVec.ofNat 64 (fld (x.record dup full) 0 8))) x.by_ .trial) x.by_)) ∧
    (∀ idx, exec (.filterCacheDrop part core idx) s = .next (s.mapCtx part core fun c => { c with filter := c.filter.eraseIdx idx })) ∧
    ∀ (t : Thread) (r : TrialRun) (e : Nat) (ins : List Word), r.req.win ≤ 128 →
      let u := t.exampleStart r e ins false
      u.pc = BitVec.ofNat 64 (256 * r.req.slot + r.req.entry) ∧ u.cells.length = r.req.win ∧
      (∀ i, i < r.req.win → u.cell i = ⟨ins.getD i 0, true, .plain⟩) ∧ u.sreg 0 = BitVec.ofNat 64 e ∧
      u.sreg 30 = BitVec.ofNat 64 r.req.sbsz ∧ u.sreg 31 = BitVec.ofNat 64 r.req.sbsz ∧
      (∀ i, 0 < i → i < 30 → u.sreg i = 0) ∧ (∀ i, i < 7 → u.pred i = false) ∧ u.tile = 5 ∧ u.prec = 49 ∧ u.xflags = 0 ∧ u.fcsr = 0 ∧
      u.tstate = false ∧ u.ltv = 0 ∧ u.seed = BitVec.ofNat 64 e ∧ u.randN = 0 ∧ u.fuel = t.fuel ∧ u.sig = t.sig ∧ u.sign = t.sign

/-! ### The scheduler -/

/-- When the head of a queue is ready (R308, R310, R396, R397): it has no wait address, or its word has been seen, or its address faults, which
refuses it; and a patch that is to take effect and would exceed 16 versions has waited until the oldest of them is released, and, where it would
exceed them still, waits for the one that is the oldest then. -/
def HeadRules : Prop :=
  ∀ (s : State) (part q : Nat),
    let p := s.hw.part part
    let live := liveVersions s.hw part
    let applies (r : List Byte) := recKind r = 1 ∧ waitFaults s part r = false ∧ recOk part r = true ∧ patchOk s part r = true
    let due (r : List Byte) := recWaddr r = 0 ∨ (p.queue q).ready = true ∨ waitFaults s part r = true
    (headReady s part q = true ↔ ∃ r, p.head q = some r ∧ due r ∧
      (applies r → (∀ v, (p.queue q).hold = some v → v ∉ live p.ver) ∧ (live (p.ver + 1)).length ≤ 16)) ∧
    (∀ v w, v ∈ live w ↔ v = w ∨ ∃ l ∈ s.hw.launches, l.part = part ∧ l.ver = v) ∧ (∀ w, (live w).Nodup) ∧
    ((∃ v, (p.queue q).hold = some v ∧ v ∈ live p.ver) → holdPatch s part q = s) ∧
    ∀ r, p ∈ s.hw.parts → p.idx = part → q < 16 → p.head q = some r → due r → applies r → 16 < (live (p.ver + 1)).length →
      (∀ v, (p.queue q).hold = some v → v ∉ live p.ver) → ∃ v, (((holdPatch s part q).hw.part part).queue q).hold = some v ∧ v ∈ live p.ver ∧ ∀ w ∈ live p.ver, v ≤ w

/-- What decides a dispatch (R310 to R313, R316, R373, R394): the queue taken has a ready head, of the greatest priority, and of those the
first in the cyclic order of the queues; the launch id is the first from the counter on that no launch in flight has; the wait address faults
where its word cannot be read; resources lack where a RESTARTABLE launch has no staging area, a redundant crew does not fit a core, or no core
has the launch's regions free (DEDUCED, log entry 29). That the cyclic order goes on from one place for all priorities is the model's choice (log
entry 23). -/
def DispatchRules : Prop :=
  ∀ (s : State) (part : Nat),
    let p := s.hw.part part
    (∀ q, chooseQueue s part = some q → q < 16 ∧ headReady s part q = true ∧ ∀ q', q' < 16 → headReady s part q' = true →
      let prio (q : Nat) := recPrio ((p.head q).getD []) % 4
      prio q' < prio q ∨ (prio q' = prio q ∧ (q + 16 - p.rr % 16) % 16 ≤ (q' + 16 - p.rr % 16) % 16)) ∧
    ((∃ q, q < 16 ∧ headReady s part q = true) → (chooseQueue s part).isSome = true) ∧
    (1 ≤ p.nextLaunch → s.hw.launches.length + 1 < 2 ^ 31 → ∃ i,
      let at_ (j : Nat) := (p.nextLaunch - 1 + j) % (2 ^ 31 - 1) + 1
      freshLaunchId s.hw part = at_ i ∧ s.hw.launch? part (at_ i) = none ∧ ∀ j, j < i → (s.hw.launch? part (at_ j)).isSome = true) ∧
    (∀ r, waitFaults s part r = true ↔ recWaddr r ≠ 0 ∧ ∃ f, checkGen s (systemWho part) .load (recWaddr r) 8 = .error (.fault f)) ∧
    (∀ ea n xs, checkGen s (systemWho part) .load ea n = .ok xs →
      ∃ u, systemRead s part ea n = .ok ((xkeys xs).map fun k => sget s.hw.mem k, u)) ∧
    ∀ l : Launch, lacksResources s.hw part l = true ↔ (l.restartable = true ∧ bitsOf p.stgcfg.toNat 47 32 = 0) ∨
      (l.dmr = true ∧ min 2048 (65536 / l.win) < l.crewSize) ∨ ∀ c ∈ p.cores, regionsFit s.hw part c l = false

/-- The limits of a launch or patch record (R263, R396) and of a kernel header (R393), for a partition whose current version is `ver`. That bits
7:2 of a record's byte 12 are refused when one of them is set is the model's choice (log entry 45). -/
def RecordLimits : Prop :=
  (∀ (part : Nat) (r : List Byte),
    let f (i n : Nat) : Nat := leNat ((r.drop i).take n)
    recOk part r = true ↔ f 12 1 ≤ 3 ∧ f 13 1 = part ∧ f 14 1 ≤ 1 ∧ f 15 1 = 0 ∧ f 56 4 % 32 = 0 ∧ f 60 4 = 0) ∧
  ∀ (b : List Byte) (ver : Nat),
    let f (i n : Nat) : Nat := leNat ((b.drop i).take n)
    headerOk b ver = true ↔ f 0 4 = 0x5A4B4844 ∧ f 4 2 = 1 ∧ 1 ≤ f 6 1 ∧ f 6 1 ≤ 3 ∧ f 7 1 < 16 ∧ f 8 4 % 4 = 0 ∧ 96 ≤ f 8 4 ∧
      8 ≤ f 12 1 ∧ f 12 1 ≤ 128 ∧ f 12 1 % 8 = 0 ∧ f 13 1 = 0 ∧ f 14 2 ≤ 1024 ∧ f 16 4 ≤ 524288 ∧ f 16 4 % 128 = 0 ∧
      f 20 4 ≤ 524288 ∧ f 20 4 % 128 = 0 ∧ f 24 2 ≤ 1024 ∧ f 26 2 = 0 ∧ f 8 4 < f 28 4 ∧ f 32 8 % 4 = 0 ∧
      (f 32 8 = 0 ∨ f 32 8 < f 28 4) ∧ f 40 4 ≤ ver ∧ f 44 52 = 0

/-- A patch (R396, R397): it passes its checks where its pages number 1 to 4,096, its two ranges start at pages and do not overlap, the counter can
go on, every target page is mapped with X, and every replacement page is a resident normal page of device memory with X = 1 and W = 0. It then
makes the next version, whose overlays name the frames of that moment, and leaves its queue; memory stays. -/
def PatchRules : Prop :=
  ∀ (s : State) (part q : Nat) (r : List Byte),
    let p := s.hw.part part
    let tgt := leNat (r.take 8)
    let src := leNat ((r.drop 16).take 8)
    let n := leNat ((r.drop 8).take 4)
    let page (base i : Nat) : Nat := (base + 4096 * i) % 2 ^ 64
    let replaces (a f : Nat) : Prop := ∃ e, walk s.hw p.xlroot a = some e ∧ f = 4096 * field e.pte.toNat 55 12 + (a - e.va) ∧
      let b (i : Nat) : Nat := field e.pte.toNat i i
      field e.pte.toNat 59 58 = 0 ∧ field e.pte.toNat 11 10 = 0 ∧ b 3 = 1 ∧ b 2 = 0 ∧ (b 8 = 1 → b 7 = 1)
    (patchOk s part r = true ↔ 1 ≤ n ∧ n ≤ 4096 ∧ tgt % 4096 = 0 ∧ src % 4096 = 0 ∧ ¬ (tgt < src + 4096 * n ∧ src < tgt + 4096 * n) ∧
      p.ver ≠ 2 ^ 32 - 1 ∧ ∀ i, i < n →
        (∃ e, walk s.hw p.xlroot (page tgt i) = some e ∧ field e.pte.toNat 3 3 = 1) ∧ ∃ f, replaces (page src i) f) ∧
    (patchOk s part r = true → p ∈ s.hw.parts → p.idx = part → q < 16 →
      let u := applyPatch s part q r
      let p' := u.hw.part part
      p'.ver = p.ver + 1 ∧
      (∃ f : Nat → Nat, (∀ i, i < n → replaces (page src i) (f i)) ∧
        p'.overlays = p.overlays ++ (List.range n).map fun i => ⟨p.ver + 1, page tgt i, f i⟩) ∧
      (p'.queue q).recs = (p.queue q).recs.drop 1 ∧ (∀ q', q' ≠ q → p'.queue q' = p.queue q') ∧ u.hw.mem = s.hw.mem ∧
      u.hw.launches = s.hw.launches)

/-- What a core has taken and reserved leaves room for cells and thread slots (R12, R315, R316, R376): a redundant pair takes twice as much; the
members of assigned auto-crews that have not started count. -/
def CoreHolds (s : State) (part core cells slots : Nat) : Prop :=
  let ts := s.threadsOn part core
  let crew (e : StartEntry) : Bool := match e.kind with
    | .crew _ => true
    | _ => false
  let ls := ((s.hw.ctx part core).startq.filter crew).filterMap fun e => s.hw.launch? part e.launch
  (ts.map fun t => if t.dmr then 2 * t.win else t.win).sum + (ls.map fun l => if l.dmr then 2 * l.win else l.win).sum + cells ≤ 131072 ∧
  (ts.map fun t => if t.dmr then 2 else 1).sum + (ls.map fun l => if l.dmr then 2 else 1).sum + slots ≤ 4096

/-- The regions of a launch are on a core, or are free there (R268). -/
def RegionsHold (h : Hw) (part core : Nat) (l : Launch) : Prop :=
  let rs := (h.ctx part core).regions
  let used (f : Launch → Nat) : Nat := ((rs.filterMap fun r => h.launch? part r.launch).map f).sum
  (∃ r ∈ rs, r.launch = l.id) ∨ (used (fun m => m.scr) + l.scr ≤ 524288 ∧ used (fun m => m.obuf) + l.obuf ≤ 524288 ∧
    used (fun m => m.acc) + l.acc ≤ 1024)

/-- The start order of R315 among what two launches have to start. -/
def StartsBefore (l m : Launch) (tid tid' : Nat) : Prop :=
  m.prio < l.prio ∨ (m.prio = l.prio ∧ (l.order < m.order ∨ (l.order = m.order ∧ tid ≤ tid')))

/-- The placement of a launch (R22, R313, R316, R317): it is in flight, the counters of its partition go on, and each of its threads, in ascending TID,
has its start entry in the shortest start queue, the lowest of equal ones; or its blocks of c threads wait as auto-crews. -/
def PlacesByR313 : Prop :=
  (∀ (h : Hw) (l : Launch), let p := h.part l.part
    p ∈ h.parts → p.idx = l.part →
      let p' : Part := { p with nextLaunch := l.id % (2 ^ 31 - 1) + 1, nextOrder := p.nextOrder + 1 }
      let u := addLaunch h l
      u = placeLaunch { h.setPart p' with launches := h.launches ++ [l] } l ∧ u.launches = h.launches ++ [l]) ∧
  (∀ (h : Hw) (part core : Nat) (e : StartEntry), (∃ c ∈ h.ctxs, c.part = part ∧ c.core = core) →
    ((pushStart h part core e).ctx part core).startq = (h.ctx part core).startq ++ [e]) ∧
  ∀ (h : Hw) (l : Launch),
    let p := h.part l.part
    (l.crewSize = 0 → placeLaunch h { l with count := 0 } = h ∧ ∀ n c,
      let g := placeLaunch h { l with count := n }
      let len (c : Nat) : Nat := (g.ctx l.part c).startq.length
      p.cores.Pairwise (· < ·) → c ∈ p.cores → (∀ d ∈ p.cores, len c < len d ∨ (len c = len d ∧ c ≤ d)) →
      placeLaunch h { l with count := n + 1 } = pushStart g l.part c ⟨l.id, n, .plain⟩) ∧
    (l.crewSize ≠ 0 → p ∈ h.parts → p.idx = l.part →
      let u := placeLaunch h l
      let shown (w : CrewWaiting) : Nat × Nat × Nat × Nat := (w.launch, w.block, w.tid, w.size)
      (u.part l.part).crewWait.map shown = p.crewWait.map shown ++ (List.range ((l.count + l.crewSize - 1) / l.crewSize)).map
        (fun b => (l.id, b, b * l.crewSize, min l.crewSize (l.count - b * l.crewSize))) ∧ u.ctxs = h.ctxs)

/-- Auto-crews (R22, R268, R316): the waiting ones in the start order; a core can take one whole where it can hold all its members and the regions;
of those cores that can, the one with the shortest start queue takes it, the lowest of equal ones. It is then a crew there, with a fresh
handle, the key of R22 and all its ranks reserved, its members have their start entries, and the launch has its regions. -/
def CrewsByR316 : Prop :=
  (∀ (h : Hw) (part : Nat), (crewOrder h part).Perm (h.part part).crewWait ∧ ((∀ l ∈ h.launches, l.prio ≤ 3) →
    (crewOrder h part).Pairwise fun v w => ∀ l m, h.launch? part v.launch = some l → h.launch? part w.launch = some m →
      StartsBefore l m v.tid w.tid)) ∧
  (∀ (s : State) (l : Launch) (core size : Nat),
    let per := if l.dmr then 2 else 1
    crewFits s l core size = true ↔ CoreHolds s l.part core (size * (per * l.win)) (size * per) ∧ RegionsHold s.hw l.part core l) ∧
  (∀ (s : State) (l : Launch) (size : Nat),
    let cores := (s.hw.part l.part).cores
    let len (c : Nat) : Nat := (s.hw.ctx l.part c).startq.length
    (∀ c, crewCore s l size = some c → c ∈ cores ∧ crewFits s l c size = true ∧
      ∀ d ∈ cores, crewFits s l d size = true → len c ≤ len d ∧ (cores.Pairwise (· < ·) → len c = len d → c ≤ d)) ∧
    (crewCore s l size = none ↔ ∀ d ∈ cores, crewFits s l d size = false)) ∧
  ∀ (s : State) (l : Launch) (core : Nat) (w : CrewWaiting),
    let p := s.hw.part l.part
    let c := s.hw.ctx l.part core
    let u := assignCrew s l core w
    let c' := u.hw.ctx l.part core
    p ∈ s.hw.parts → p.idx = l.part → (∃ c ∈ s.hw.ctxs, c.part = l.part ∧ c.core = core) →
    (u.hw.part l.part).crewWait = p.crewWait.filter (fun x => x != w) ∧
    (∃ handle, handle ≠ 0 ∧ (∀ x ∈ c.crews, x.handle ≠ handle) ∧ c'.crews = c.crews ++
      [⟨handle, BitVec.ofNat 64 (2 ^ 63 + l.id * 2 ^ 32 + w.block), w.size, List.range w.size, none, none, []⟩]) ∧
    c'.startq = c.startq ++ (List.range w.size).map (fun i => ⟨l.id, w.tid + i, .crew w.block⟩) ∧
    c'.regions = (if c.regions.any (fun r => r.launch == l.id) then c.regions else c.regions ++ [⟨l.id, [], [], [], []⟩]) ∧
    u.hw.threads = s.hw.threads ∧ u.th = s.th

/-- Which entry a core starts next, and the start of a thread (R11, R13, R14, R22, R24, R268, R315, R318, R376). An entry can start where its launch
is in flight, the core can hold it (a member of an auto-crew has its place) and the launch's regions, and, for a trial, no earlier or begun
code-bank write touches its slots; of those that can, and have no lower TID of their launch before them, the first in the start order starts.
The thread takes a free slot, a redundant pair two, the lower first, and is in the state of R11; it takes the picker with the fewest threads,
the lowest of equal ones, in an auto-crew the picker of its rank block; the launch has its regions on the core. Which free slot it takes is
a free choice, and that a rank block takes the picker with the fewest threads when its first member starts is the model's (log entry 40). -/
def StartsByR11 : Prop :=
  (∀ (s : State) (part core : Nat), let q := (s.hw.ctx part core).startq
    (∀ e, canStart s part core e = true ↔ ∃ l, s.hw.launch? part e.launch = some l ∧ RegionsHold s.hw part core l ∧
      ((∃ b, e.kind = .crew b) ∨ (∃ r, e.kind = .trial r ∧ CoreHolds s part core r.win 1) ∨
        ((∀ b, e.kind ≠ .crew b) ∧ (∀ r, e.kind ≠ .trial r) ∧
          CoreHolds s part core (if l.dmr then 2 * l.win else l.win) (if l.dmr then 2 else 1))) ∧
      ∀ r, e.kind = .trial r → ∀ w ∈ (s.hw.ctx part core).cpq, w.id < r.cid ∨ w.started = true → r.holds w.slots = false) ∧
    (let able (e : StartEntry) : Prop := canStart s part core e = true ∧ ∀ d ∈ q, d.launch = e.launch → e.tid ≤ d.tid
     (nextStart s part core = none ↔ ∀ e ∈ q, ¬ able e) ∧
     ∀ e, nextStart s part core = some e → e ∈ q ∧ able e ∧ ((∀ l ∈ s.hw.launches, l.prio ≤ 3) → ∀ d ∈ q, able d →
      ∀ l m, s.hw.launch? part e.launch = some l → s.hw.launch? part d.launch = some m → StartsBefore l m e.tid d.tid))) ∧
  ∀ (s : State) (part core : Nat) (l : Launch) (e : StartEntry), (∃ c ∈ s.hw.ctxs, c.part = part ∧ c.core = core) →
    (∀ r, e.kind ≠ .trial r) → (s.slotsOn part core).length + (if l.dmr then 2 else 1) ≤ 4096 →
    let c := s.hw.ctx part core
    let u := startThread s part core l e
    let c' := u.hw.ctx part core
    let ts := s.threadsOn part core
    let free (n : Nat) : Prop := n < 4096 ∧ n ∉ s.slotsOn part core
    let on (p : Nat) : Nat := ts.countP fun t => t.picker == p
    let least (p : Nat) : Prop := p < 16 ∧ ∀ q, q < 16 → on p < on q ∨ (on p = on q ∧ p ≤ q)
    ∃ slot t, u.hw.threads = t :: s.hw.threads ∧ u.th = s.th ∧ free slot ∧
      (l.dmr = false → t.slot2 = none) ∧ (l.dmr = true → ∃ b, t.slot2 = some b ∧ slot < b ∧ free b) ∧
      (let how : DWord × DWord := match e.kind with
        | .spawn entry arg => (entry, arg)
        | _ => (l.entry, l.arg)
       t = { newThread l ⟨part, core, slot⟩ e.tid (s.hw.part part).stkap how.1 how.2 with
         slot2 := t.slot2, crew := t.crew, rank := t.rank, picker := t.picker }) ∧
      c'.startq = c.startq.filter (fun d => d != e) ∧
      c'.regions = (if c.regions.any (fun r => r.launch == e.launch) then c.regions else c.regions ++ [⟨e.launch, [], [], [], []⟩]) ∧
      ((∀ b, e.kind ≠ .crew b) → t.crew = 0 ∧ t.rank = 0 ∧ least t.picker ∧ c'.crews = c.crews) ∧
      ∀ b x, e.kind = .crew b → c.crews.find? (fun x => x.key == BitVec.ofNat 64 (2 ^ 63 + l.id * 2 ^ 32 + b)) = some x →
        let rank := e.tid % max 1 l.crewSize
        let block := rank / (if l.mode = .z3 then 32 else 16)
        t.crew = x.handle ∧ t.rank = rank ∧ (∀ y, x.pickers.find? (fun y => y.1 == block) = some y → t.picker = y.2) ∧
        ((∀ y ∈ x.pickers, y.1 ≠ block) → least t.picker) ∧
        ∀ y ∈ c'.crews, y.handle = x.handle → y = { x with
          reserved := x.reserved.filter (fun r => r != rank), pickers := (block, t.picker) :: x.pickers.filter fun y => y.1 != block }

/-- Balancing of two neighbours (R319): from the deeper core its waiting auto-crews, each as one block, and then its entries of plain and spawned
threads go over, the latest first, until the difference of the depths is at most `thr` or none is left that may move. That an unassigned auto-crew stands at one core
and goes before the start entries is the model's choice (log entry 45). -/
def BalancesByR319 : Prop :=
  (∀ (h : Hw) (part thr a b : Nat),
    let waiting (c : Nat) : List CrewWaiting := (h.part part).crewWait.filter fun w => w.core == c
    let depth (c : Nat) : Nat := (h.ctx part c).startq.length + ((waiting c).map fun w => w.size).sum
    let deep := if depth b ≤ depth a then a else b
    let shallow := if depth b ≤ depth a then b else a
    let free (e : StartEntry) : Bool := match e.kind with
      | .plain | .spawn _ _ => true
      | _ => false
    let items := ((waiting deep).reverse.map BalanceItem.crew) ++ (((h.ctx part deep).startq.reverse.filter free).map BalanceItem.entry)
    let size (x : BalanceItem) : Nat := match x with
      | .crew w => w.size
      | .entry _ => 1
    let diff (m : Nat) : Int := (depth deep : Int) - depth shallow - 2 * (((items.take m).map size).sum : Nat)
    (a = b → balancePair h part thr a b = h) ∧
    (a ≠ b → ∃ m, m ≤ items.length ∧ balancePair h part thr a b = (items.take m).foldl (moveItem part deep shallow) h ∧
      (∀ j, j < m → (thr : Int) < diff j) ∧ (m < items.length → diff m ≤ thr))) ∧
  ∀ (h : Hw) (part deep shallow : Nat), deep ≠ shallow →
    (∀ e, (∃ c ∈ h.ctxs, c.part = part ∧ c.core = deep) → (∃ c ∈ h.ctxs, c.part = part ∧ c.core = shallow) →
      let u := moveItem part deep shallow h (.entry e)
      (u.ctx part deep).startq = (h.ctx part deep).startq.filter (fun d => d != e) ∧
      (u.ctx part shallow).startq = (h.ctx part shallow).startq ++ [e] ∧ u.parts = h.parts) ∧
    ∀ w, h.part part ∈ h.parts → (h.part part).idx = part →
      let u := moveItem part deep shallow h (.crew w)
      (u.part part).crewWait = (h.part part).crewWait.map (fun y => if y = w then { y with core := shallow } else y) ∧ u.ctxs = h.ctxs

/-- Launches (R11, R263, R307 to R319, R393, R395 to R397): the head of a queue is ready once its wait word has its value; the queue taken has a
ready head of the greatest priority; its record dispatches as a launch with a fresh id and its threads' start entries, is refused, with detail
3 where its wait word cannot be read, or is a patch that makes the next version; crews are placed whole; the next entry of a core starts a
thread in the state of R11; balancing moves the latest entries between neighbours until their depths are close; the limits of a record, a patch and a kernel header. The order of the checks of a dispatch (details 0, 3, 1, 4, 2) and what counts as lacking capacity are
DEDUCED (log entry 29); that the queues of all priorities share one place of the cyclic order is the model's choice (log entry 23). -/
def Obligations.LaunchEvents : Prop :=
  HeadRules ∧ DispatchRules ∧ RecordLimits ∧ PatchRules ∧ PlacesByR313 ∧ CrewsByR316 ∧ StartsByR11 ∧ BalancesByR319 ∧
  ∀ (s : State) (part : Nat),
    let p := s.hw.part part
    (∀ q r bs u, p.head q = some r → recWaddr r ≠ 0 → systemRead s part (recWaddr r) 8 = .ok (bs, u) →
      let p' := u.hw.part part
      (recWval r ≤ leNat bs →
        exec (.waitWordPoll part q) s = .next (u.mapHw fun h => h.setPart (p'.setQueue q { p'.queue q with ready := true }))) ∧
      (leNat bs < recWval r → exec (.waitWordPoll part q) s = .next u)) ∧
    (∀ q r, chooseQueue s part = some q → p.head q = some r → recKind r = 0 →
      (recOk part r = false ∨ (recHdr r).toNat % 256 ≠ 0 ∨ fld r 8 4 = 0 → exec (.dispatch part) s = .next (refuse s part q r 0)) ∧
      (recOk part r = true → (recHdr r).toNat % 256 = 0 → 1 ≤ fld r 8 4 → waitFaults s part r = true →
        exec (.dispatch part) s = .next (refuse s part q r 3)) ∧
      ∀ b u, recOk part r = true → (recHdr r).toNat % 256 = 0 → 1 ≤ fld r 8 4 → waitFaults s part r = false →
        codeBytes s part p.ver (recHdr r) 96 = .ok (b, none, u) →
        let l := makeLaunch u.hw part r b
        l.id = freshLaunchId u.hw part ∧
        (headerOk b p.ver = false → exec (.dispatch part) s = .next (refuse u part q r 1)) ∧
        (headerOk b p.ver = true → fld b 7 1 / 2 % 2 = 1 ∧ fld b 7 1 % 2 = 0 → exec (.dispatch part) s = .next (refuse u part q r 4)) ∧
        (headerOk b p.ver = true → ¬ (fld b 7 1 / 2 % 2 = 1 ∧ fld b 7 1 % 2 = 0) →
          (lacksResources u.hw part l = true → exec (.dispatch part) s = .next (refuse u part q r 2)) ∧
          (lacksResources u.hw part l = false → exec (.dispatch part) s = .next (u.setHw (addLaunch (popQueue u.hw part q) l))))) ∧
    (∀ q r, chooseQueue s part = some q → p.head q = some r → recKind r = 1 → recOk part r = true →
      (waitFaults s part r = true → exec (.patchApply part q) s = .next (refuse s part q r 3)) ∧
      (waitFaults s part r = false → patchOk s part r = false → exec (.patchApply part q) s = .next (refuse s part q r 0)) ∧
      (waitFaults s part r = false → patchOk s part r = true →
        (recSig r = 0 → exec (.patchApply part q) s = .next (applyPatch s part q r)) ∧
        ∀ u, recSig r ≠ 0 → signalAdd (applyPatch s part q r) part (recSig r) = .ok u → exec (.patchApply part q) s = .next u)) ∧
    (∀ pre w post l core, crewOrder s.hw part = pre ++ w :: post →
      (∀ x ∈ pre, ∀ l', s.hw.launch? part x.launch = some l' → crewCore s l' x.size = none) →
      s.hw.launch? part w.launch = some l → crewCore s l w.size = some core →
      exec (.crewAssign part) s = .next (assignCrew s l core w)) ∧
    (∀ core e l, contextRuns s part core = true → nextStart s part core = some e → (∀ r, e.kind ≠ .trial r) →
      s.hw.launch? part e.launch = some l → exec (.threadStart part core) s = .next (startThread s part core l e)) ∧
    (p.active = true → p.balcfg[12] = false → exec (.balanceTick part) s = .next (settleCores (s.mapHw fun h =>
      (p.cores.zip (p.cores.drop 1 ++ p.cores.take 1)).foldl
        (fun h x => balancePair h part (bitsOf p.balcfg.toNat 11 0) x.1 x.2) h) part)) ∧
    (p.active = false ∨ p.balcfg[12] = true → exec (.balanceTick part) s = .next s) ∧
    ∀ (l : Launch) (k : Key) (tid : Nat) (stk entry arg : DWord),
      let t := newThread l k tid stk entry arg
      let top := if stk[0] then BitVec.ofNat 64 (stackLo stk k + 65536) else 0
      t.pc = entry ∧ t.sreg 0 = arg ∧ t.sreg 30 = top ∧ t.sreg 31 = top ∧ (∀ i, 0 < i → i < 30 → t.sreg i = 0) ∧
      (∀ i, i < 7 → t.pred i = false) ∧ t.cells = List.replicate l.win ⟨0, true, .plain⟩ ∧ t.tid = BitVec.ofNat 32 tid ∧ t.crew = 0 ∧
      t.rank = 0 ∧ t.tile = (if l.mode = .z3 then 5 else 4) ∧ t.prec = 49 ∧ t.xflags = 0 ∧ t.fcsr = 0 ∧ t.ltv = l.ltv ∧ t.ltc = 0 ∧
      t.ltip = 0 ∧ t.ltval = 0 ∧ t.live = true ∧ t.key = k ∧ t.launch = l.id ∧ t.win = l.win ∧ t.mode = l.mode ∧ t.dmr = l.dmr ∧
      t.park = .none ∧ t.wait = .none ∧ t.trial = none ∧ t.tstate = false ∧ t.seed = BitVec.ofNat 64 (l.id * 2 ^ 32 + tid) ∧ t.randN = 0 ∧ t.sig = 0 ∧ t.sign = 0 ∧
      t.cmds = []

/-- How one staged piece becomes visible (R375). A piece of a large page is copied back into the original frame, and no other byte changes. A 4
KiB or 64 KiB page is remapped: each of its entries names the staging frame and is otherwise as it was, no other byte changes, every TLB of the
partition loses the page, and the old frame takes the place of the staging frame in the staging area. Where the entry has been changed
meanwhile nothing happens, which is the model's choice (log entry 45). -/
def CommitsByR375 : Prop :=
  ∀ (h : Hw) (part : Nat) (g : Staged), swf h.mem = true → (∀ c ∈ h.ctxs, c.wc = [] ∧ c.outq = []) →
    let within (a k : Nat) : Prop := a ≤ k ∧ k < a + g.size
    (∀ q ∈ h.pends, ∀ k ∈ physKeys q.locs, ¬ within g.orig k ∧ ¬ within g.frame k) →
    let p := h.part part
    let u := commitPiece h part g
    (g.copyBack = true → (∀ i, i < g.size → sget u.mem (g.orig + i) = sget h.mem (g.frame + i)) ∧
      ∀ k, ¬ within g.orig k → sget u.mem k = sget h.mem k) ∧
    (g.copyBack = false → walk h p.xlroot g.va = none → u = h) ∧
    ∀ e, g.copyBack = false → walk h p.xlroot g.va = some e →
      (4096 * field e.pte.toNat 55 12 ≠ g.orig ∨ e.size ≠ g.size → u = h) ∧
      (4096 * field e.pte.toNat 55 12 = g.orig → e.size = g.size → (g.size = 4096 ∨ g.size = 65536) → g.frame % 4096 = 0 → g.frame < 2 ^ 56 →
        p ∈ h.parts → p.idx = part →
        let n := g.size / 4096
        let first := e.pteAddr - 8 * (e.pteAddr / 8 % n)
        (∀ i, i < n →
          let x := pteAt h (first + 8 * i)
          let y := pteAt u (first + 8 * i)
          4096 * field y 55 12 = g.frame ∧ field y 63 56 = field x 63 56 ∧ field y 11 0 = field x 11 0) ∧
        (∀ k, ¬ (first ≤ k ∧ k < first + 8 * n) → sget u.mem k = sget h.mem k) ∧
        (let stale (x : TlbEntry) : Prop := blocksMeet (x.va, x.size) (g.va, g.size) = true
         (∀ x ∈ (u.part part).tlb, ¬ stale x) ∧ ∀ c ∈ u.ctxs, c.part = part → (∀ x ∈ c.tlb, ¬ stale x) ∧ ∀ x ∈ c.utlb, ¬ stale x.2) ∧
        (u.part part).stageGiven = (g.orig, g.size) :: p.stageGiven.filter (fun b => b != (g.frame, g.size)) ∧
        (u.part part).stageTaken = if (g.frame, g.size) ∈ p.stageGiven then p.stageTaken else (g.frame, g.size) :: p.stageTaken)

/-- A refresh on one core (R264, R320 to R322, R324): the balance is the grant less a debt. The waiting requests of the partition that runs there are
served, high-priority matrix commands first, then `PERMIT` requests, then all others, each group in the order in which it began to wait, until
one cannot be covered: by the balance, or, where it exceeds the whole grant, by a balance at the grant; a grant of 0 covers none. One that is
served has paid its cost, waits no more, and may start, or has its tickets. -/
def RefreshesByR320 : Prop :=
  ∀ (h : Hw) (core grant : Nat), (∃ b ∈ h.budgets, b.core = core) →
    let b := h.budget core
    let u := refreshCore h core grant
    let here := b.waiting.filter fun q => coreRuns h q.part core
    let group (q : PermitReq) : Nat := match q.what with
      | .matrix true _ => 0
      | .ticket _ _ _ _ => 1
      | _ => 2
    ∃ (qs : List PermitReq) (m : Nat), m ≤ qs.length ∧ qs.Pairwise (fun x y => group x ≤ group y) ∧
      (∀ g, qs.filter (fun q => group q == g) = here.filter (fun q => group q == g)) ∧
      let debt : Int := min 0 b.balance
      let left (j : Nat) : Int := (grant : Int) + debt - (((qs.take j).map fun q => q.cost).sum : Nat)
      let covered (j : Nat) (q : PermitReq) : Prop := grant ≠ 0 ∧ ((q.cost : Int) ≤ left j ∨ (grant < q.cost ∧ left j = grant))
      let done := qs.take m
      (∀ j q, j < m → qs[j]? = some q → covered j q) ∧ (∀ q, qs[m]? = some q → ¬ covered m q) ∧
      u.budget core = { b with
        balance := left m, grant := grant, waiting := b.waiting.filter fun x => done.all fun q => x.what != q.what
        served := b.served ++ done.filter fun q => group q == 1 } ∧
      u.ctxs = h.ctxs.map (fun (c : Ctx) => { c with
        mxq := c.mxq.map fun (x : MxCmd) => { x with
          permit := x.permit || done.any fun q => q.what == .matrix true x.id || q.what == .matrix false x.id }
        cpq := c.cpq.map fun (x : CopyCmd) => { x with permit := x.permit || done.any fun q => q.what == .copy x.id }
        selq := c.selq.map fun (x : SelCmd) => { x with permit := x.permit || done.any fun q => q.what == .select x.id } }) ∧
      u.threads = h.threads.map (fun t => done.foldl (fun (t : Thread) q => match q.what with
        | .ticket k tid cls n => if t.key = k ∧ t.tid = tid then { t with tickets := t.tickets ++
            [⟨cls, min n (255 - ((t.tickets.filter fun x => x.cls == cls).map fun x => x.count).sum), 0⟩] } else t
        | _ => t) t) ∧ u.mem = h.mem ∧ ∀ c, c ≠ core → u.budget c = h.budget c

/-- A launch leaves flight (R268, R314): it alone; on every core of its partition its regions and reservations are free. When every core that ran it
has passed a scan (R380). -/
def EndsByR314 : Prop :=
  (∀ (s : State) (part launch : Nat), let u := endLaunch s part launch
    u.hw.launches = s.hw.launches.filter (fun l => !(l.part == part && l.id == launch)) ∧ u.hw.mem = s.hw.mem ∧
    u.hw.threads = s.hw.threads ∧ u.th = s.th ∧ u.hw.parts = s.hw.parts ∧ u.hw.ctxs.length = s.hw.ctxs.length ∧
    ∀ (i : Nat) (c : Ctx), u.hw.ctxs[i]? = some c → ∃ d : Ctx, s.hw.ctxs[i]? = some d ∧ c.part = d.part ∧ c.core = d.core ∧ (d.part ≠ part → c = d) ∧
      (d.part = part → c.regions = d.regions.filter (fun r => r.launch != launch) ∧ c.resvs = d.resvs.filter (fun r => r.launch != launch) ∧
        c.startq = d.startq.filter (fun e => e.launch != launch) ∧ c.crews = d.crews ∧ c.bank = d.bank)) ∧
  ∀ (h : Hw) (l : Launch), scanGate h l = true ↔ l.scangated = false ∨ ∀ x ∈ l.ran,
    (∀ c ∈ h.cores, c.die = x.1 → c.use = .retired ∨ ∃ k, c.use = .serving k) ∨
    ∃ c ∈ h.cores, c.die = x.1 ∧ c.idx = x.2.1 ∧ x.2.2 < c.lastPass

/-- The copy engine has begun a burst whose next access need not wait, for a page or for staging (R237, R324). -/
def BurstGoesOn (s : State) (part core : Nat) : Prop :=
  ∃ x, currentCopy s part core = some x ∧ (x.seen ≠ [] ∨ x.put ≠ []) ∧ (∀ k, (burst s x).2.1 ≠ some (.wait k)) ∧
    ∀ ps, (burst s x).2.1 ≠ some (.stage ps)

/-- The end of a launch, draw grants and partition swaps (R264, R314, R320 to R325, R373, R375, R380): the signal word counts one more, as one
atomic, the wait words of the partition are read, and the launch leaves flight; a RESTARTABLE one commits first and then queues its held
records as far as there is room; a refresh gives the grants, all 0 while the limit in force is 0; a slice that has run out begins a swap,
which waits for the accesses in flight and for a copy burst that has begun, and then the shadowed partition is the active one; a Teasel pass in
progress starts again. How a staged piece becomes visible, how a refresh serves the waiting requests, and what a launch leaves. The staging area and the exchange rest on log
entries 28 and 30 as well. -/
def Obligations.LaunchEndAndSwapEvents : Prop :=
  CommitsByR375 ∧ RefreshesByR320 ∧ EndsByR314 ∧ ∀ (s : State) (part : Nat),
    let p := s.hw.part part
    (∀ id l, s.hw.launch? part id = some l → l.restartable = false → l.heldPuts = [] → launchDone s l = true →
      (l.sigaddr = 0 → exec (.signalIncrement part id) s = .next (endLaunch s part id)) ∧
      (∀ u, l.sigaddr ≠ 0 → signalAdd s part l.sigaddr = .ok u → exec (.signalIncrement part id) s = .next (endLaunch u part id)) ∧
      ∀ f, l.sigaddr ≠ 0 → signalAdd s part l.sigaddr = .error (.fault f) → exec (.signalIncrement part id) s = .next (endLaunch
        (appendRecord s part id ⟨f.cause.toNat, 0, 1, 255, 0xFFFFFFFF, l.hdr, l.sigaddr, 0, 0⟩) part id)) ∧
    (∀ ea xs, checkGen s (systemWho part) .atomic ea 8 = .ok xs → s.canonical → (xkeys xs).Nodup → (∀ k ∈ xkeys xs, k ∉ pteKeys xs) →
      ∃ u, signalAdd s part ea = .ok (pollAll u part) ∧ SameMemoryBut (xkeys xs ++ pteKeys xs) s u ∧
        leNat ((xkeys xs).map (sget u.hw.mem)) = (leNat ((xkeys xs).map (sget s.hw.mem)) + 1) % 2 ^ 64) ∧
    (∀ id l, s.hw.launch? part id = some l → launchDone s l = false → exec (.signalIncrement part id) s = .next s) ∧
    (∀ id l, s.hw.launch? part id = some l → (l.restartable = true → launchDone s l = true ∧ scanGate s.hw l = true) →
      (l.restartable = false → l.heldPuts ≠ []) →
      let h := l.staged.foldl (fun h g => commitPiece h part g) s.hw
      exec (.launchCommit part id) s = .next (s.setHw ((queueHeld part l.heldPuts h).2.setLaunch
        { l with restartable := false, scangated := false, staged := [], wants := [], heldPuts := (queueHeld part l.heldPuts h).1 }))) ∧
    (∀ (xs : List (Nat × List Byte)) (h : Hw), ∃ n, n ≤ xs.length ∧ (queueHeld part xs h).1 = xs.drop n ∧
      (queueHeld part xs h).2 = (xs.take n).foldl (fun h x => putRecord h part x.1 x.2) h ∧
      ∀ x, xs[n]? = some x → 256 ≤ ((queueHeld part xs h).2.part part).queueLoad x.1) ∧
    (∀ gs : List Nat, exec (.grantRefresh gs) s = .next ((ageAll s).mapHw fun h =>
      (h.budgets.map fun b => b.core).foldl
        (fun h c => refreshCore h c (if s.mod.eff = 0 then 0 else min 1023 (gs.getD c 0))) h.dropWaits)) ∧
    (p.active = true → p.swap = .none → p.swapDue = false → bitsOf p.pswap.toNat 31 16 ≠ 0 → paired s.hw p = true →
      coresSettled s.hw p = true →
      (p.activeSince + 1000 * bitsOf p.pswap.toNat 31 16 ≤ s.time → exec (.sliceExpiry part) s = .next (s.mapHw fun h =>
        h.setPart { p with swap := .halting, swapDue := false, pswap := p.pswap ||| 1 })) ∧
      (s.time < p.activeSince + 1000 * bitsOf p.pswap.toNat 31 16 → exec (.sliceExpiry part) s = .next s)) ∧
    (p.swap = .halting →
      ((∀ q ∈ s.hw.pends, q.key.part = part → q.isAccess = true → peerHeld s q = true) → (∀ c ∈ p.cores, ¬ BurstGoesOn s part c) →
        exec (.swapHaltComplete part) s = .next (s.mapHw fun h =>
          (p.cores.foldl (fun h c => drainOutAll (wcDrain h part c fun _ => true) part c) h).setPart { p with swap := .exchanging })) ∧
      ((∃ q ∈ s.hw.pends, q.key.part = part ∧ q.isAccess = true ∧ peerHeld s q = false) ∨ (∃ c ∈ p.cores, BurstGoesOn s part c) →
        exec (.swapHaltComplete part) s = .next s)) ∧
    (p ∈ s.hw.parts → s.hw.part p.peer ∈ s.hw.parts → p.idx = part → p.swap = .exchanging → (s.hw.part p.peer).idx = p.peer → p.peer ≠ part →
      (s.hw.part p.peer).cores = p.cores → ∃ u, exec (.swapExchangeComplete part) s = .next u ∧ (u.hw.part part).active = false ∧
        (u.hw.part part).swap = .none ∧ (u.hw.part part).pswap = p.pswap &&& ~~~1 ∧ (u.hw.part p.peer).active = true ∧
        (u.hw.part p.peer).activeSince = s.time ∧ u.hw.mem = s.hw.mem ∧ (u.hw.part part).tlb = [] ∧ (u.hw.part p.peer).tlb = [] ∧
        ∀ c ∈ u.hw.ctxs, c.part = part ∨ c.part = p.peer →
          c.l1 = Cache.empty ∧ c.con = Cache.empty ∧ c.icache = Cache.empty ∧ c.tlb = [] ∧ c.utlb = [] ∧ c.filter = [] ∧ c.late = [] ∧
          c.ahead = [] ∧ ∀ q ∈ c.selq, q.seen = [])

/-! ### Service -/

/-- What follows a failed scan (R375, R381): a gated launch that ran on the core is discarded and queued again, under the same id, at most three
times; after that it is killed. -/
def RequeuesAfterScan : Prop :=
  ∀ (s : State) (l : Launch), s.hw.launch? l.part l.id = some l →
    let u := requeueForScan s l
    (l.attempt < 3 →
      (∃ m, u.hw.launch? l.part l.id = some m ∧ m.attempt = l.attempt + 1 ∧ m.staged = [] ∧ m.heldPuts = [] ∧ m.exits = []) ∧
      u = requeueLaunch s l.part l.id ⟨10, 1, 0, 255, 0xFFFFFFFF, l.hdr, BitVec.ofNat 64 (l.attempt + 1), 0, 0⟩) ∧
    (3 ≤ l.attempt → u.hw.launch? l.part l.id = none) ∧
    ∀ t ∈ u.hw.threads, ¬(t.key.part = l.part ∧ t.launch = l.id)

/-- What a tier fetch leaves (R288): the frame holds the page as flash kept it, the sixteen entries of the page name the frame and have RES = 1,
no other byte of memory changes, and the frame is no longer free. -/
def FetchesPage (s u : State) (e : TlbEntry) (f : FlashPage) (frame : Nat) : Prop :=
  let first := e.pteAddr - 8 * (e.pteAddr / 8 % 16)
  frame ∉ u.hw.freeTier ∧ (∀ i, i < 65536 → sget u.hw.mem (frame + i) = sget f.bytes i) ∧
  (∀ i, i < 16 → let x := pteAt u.hw (first + 8 * i); pteRes x = true ∧ pteFrame x = frame ∧ pteV x = pteV (pteAt s.hw (first + 8 * i))) ∧
  ∀ k, ¬(frame ≤ k ∧ k < frame + 65536) → ¬(first ≤ k ∧ k < first + 128) → sget u.hw.mem k = sget s.hw.mem k

/-- A visit of the clock hand to the frame of a page (R287): one in use is skipped; a page that has been touched loses REF, and every TLB loses the
page; one that has not goes to flash, unless a valid copy of it is there and it is clean, its entry has RES and D 0, and its frame is free; with
no room in flash only pages with a valid copy and D = 0 go. That flash keeps a page's copy, and so its space, until a boot is the model's choice
(log entry 33). -/
def HandVisits : Prop :=
  ∀ (h : Hw) (p : Part) (e : TlbEntry), swf h.mem = true → e.pteAddr % 128 = 0 → (∀ c ∈ h.ctxs, c.wc = [] ∧ c.outq = []) →
    let f := pteFrame e.pte.toNat
    let u := visitFrame h p e
    let pte (g : Hw) (i : Nat) : Nat := pteAt g (e.pteAddr + 8 * i)
    let ref := ∃ i, i < 16 ∧ pte h i / 64 % 2 = 1
    let dirty := ∃ i, i < 16 ∧ pte h i / 32 % 2 = 1
    let entries (bits : Nat → Nat) : Prop := (∀ i, i < 16 → pte u i = bits (pte h i)) ∧
      ∀ k, ¬ (e.pteAddr ≤ k ∧ k < e.pteAddr + 128) → sget u.mem k = sget h.mem k
    let gone : Prop := (∀ q ∈ u.parts, q.idx = p.idx → ∀ x ∈ q.tlb, blocksMeet (x.va, x.size) (e.va, 65536) = false) ∧
      ∀ c ∈ u.ctxs, c.part = p.idx → (∀ x ∈ c.tlb, blocksMeet (x.va, x.size) (e.va, 65536) = false) ∧
        ∀ x ∈ c.utlb, blocksMeet (x.2.va, x.2.size) (e.va, 65536) = false
    let goes := bitsOf p.tierfl.toNat 47 32 ≠ 0 ∧ (flashRoom h p = true ∨ (flashValid h p.idx e.va f = true ∧ ¬ dirty))
    (frameInUse h p.idx e = true → u = h) ∧
    (frameInUse h p.idx e = false →
      (ref → entries (fun x => if x / 64 % 2 = 1 then x - 64 else x) ∧ gone ∧ u.freeTier = h.freeTier ∧ u.flash = h.flash) ∧
      (¬ ref → goes → entries (fun x => (x - if x / 128 % 2 = 1 then 128 else 0) - if x / 32 % 2 = 1 then 32 else 0) ∧ gone ∧
        u.freeTier = f :: h.freeTier ∧
        ∃ c ∈ u.flash, c.part = p.idx ∧ c.va = e.va ∧ c.frame = none ∧ ∀ i, i < 65536 → sget c.bytes i = sget h.mem (f + i)) ∧
      (¬ ref → ¬ goes → u = h))

/-- The second tier, the watchdog, the scrub, peer timeouts, migration, the rotating scan and invalidation (R280 to R282, R287, R288, R290,
R368, R370, R371, R375, R378 to R382, R406). A page comes back from flash with its contents; the launches gated on a core that fails its scan
are queued again. A hand step takes place at the module's free amount and at no other (log entry 24): below TIERWM.low the hand advances, up to
TIERWM.high it goes on if it runs, and there it stops. That a timed-out store may have been performed, and which granules count as found, rest on
log entries 15 and 32; that a wait in the cell of an AWAIT has detail 4 is DEDUCED (log entry 11), and so is that the REQUEUE record names core
0xFF and the kernel header (log entry 37). -/
def Obligations.ServiceEvents : Prop :=
  RequeuesAfterScan ∧ HandVisits ∧ ∀ (s : State) (part core : Nat),
    (∀ n, n ≠ freeMiB s.hw → exec (.tierHandStep n) s = .next s) ∧
    (∀ q e, freeMiB s.hw < s.mod.tierLow.toNat ∨ (freeMiB s.hw < s.mod.tierHigh.toNat ∧ s.mod.handRuns = true) →
      minBy (fun x : Part × TlbEntry => (pteFrame x.2.pte.toNat + 2 ^ 40 - s.mod.hand - 1) % 2 ^ 40)
        (s.hw.parts.flatMap fun p => (tierPages s.hw p).map fun e => (p, e)) = some (q, e) →
      exec (.tierHandStep (freeMiB s.hw)) s = .next ((s.setMod { s.mod with handRuns := true, hand := pteFrame e.pte.toNat }).mapHw fun h =>
        visitFrame h q e)) ∧
    (s.mod.tierLow.toNat ≤ freeMiB s.hw → freeMiB s.hw < s.mod.tierHigh.toNat → s.mod.handRuns = false →
      exec (.tierHandStep (freeMiB s.hw)) s = .next s) ∧
    (s.mod.tierHigh.toNat ≤ freeMiB s.hw → s.mod.tierLow.toNat ≤ freeMiB s.hw →
      exec (.tierHandStep (freeMiB s.hw)) s = .next (s.setMod { s.mod with handRuns := false })) ∧
    (∀ page frame e f, walk s.hw (s.hw.part part).xlroot page = some e → flashCopy s.hw part e.va = some f → pteTier e.pte.toNat = true →
      pteRes e.pte.toNat = false → frame ∈ s.hw.freeTier → s.canonical → swf f.bytes = true → (∀ x ∈ f.bytes, x.1 < 65536) →
      frame % 65536 = 0 → frame + 65536 ≤ 549755813888 →
      blocksMeet (frame, 65536) (e.pteAddr - 8 * (e.pteAddr / 8 % 16), 128) = false →
      ∃ u, exec (.tierFetchComplete part page frame) s = .next u ∧ FetchesPage s u e f frame ∧ u.th = s.th ∧
        u.hw.threads = s.hw.threads) ∧
    (∀ slot t k since, s.thread? ⟨part, core, slot⟩ = some t → t.wait.what = some (k, since) → t.park = .none → t.trial = none →
      coreRuns s.hw part core = true →
      let lim := bitsOf (s.hw.part part).wdcfg.toNat 31 0
      (lim ≠ 0 → 1000 * lim < s.time - since →
        exec (.watchdogExpiry part core slot) s = .next (appendRecord (s.setThread { t with park := .watchdog }) part t.launch
          ⟨5, (if k = .emptyCell ∧ waitsOnAwait s t = true then WaitKind.await else k).code, 0, core, t.tid.toNat, t.pc,
            BitVec.ofNat 64 ((s.time - since) / 1000), 0, 0⟩)) ∧
      (lim = 0 ∨ s.time - since ≤ 1000 * lim → exec (.watchdogExpiry part core slot) s = .next s)) ∧
    (∀ g l, s.hw.latent.filter (fun l => l.granule == g) = [l] → s.hw.found = [] → ∃ u, exec (.patrolScrub g) s = .next u ∧
      u.hw.mem = s.hw.mem ∧ u.hw.found = [] ∧ (∀ x ∈ u.hw.latent, x.granule ≠ g) ∧
      (l.double = true → u.hw.poison = ⟨g, 5⟩ :: s.hw.poison ∧ u.mod.ecc[5] = countEcc s.mod.ecc[5] 0 1) ∧
      (l.double = false → u.hw.poison = s.hw.poison ∧ u.mod.ecc[5] = countEcc s.mod.ecc[5] 1 0) ∧
      u.hw.out = s.hw.out ++ [.msix 0 2]) ∧
    (∀ p t, s.hw.pend? p.id = some p → (physKeys p.locs).any keyIsPeer = true → s.owner? p = some t → t.park = .none → t.trial = none →
      let parks (u : State) : State := appendRecord (u.setThread { t with park := .peer p.id }) p.key.part p.launch
        ⟨1, 0, if p.isStore || p.isAtomic then 1 else 0, p.key.core, p.tid.toNat, p.ip, p.ea, 0, 0⟩
      exec (.peerTimeout p.id) s = .next (parks s.tick) ∨
        (p.isStore = true ∧ exec (.peerTimeout p.id) s = .next (parks (s.mapHw fun h => perform h p).tick))) ∧
    (∀ c sp, s.hw.cores.find? (fun c => c.use == .serving core) = some c → sp ∈ s.hw.cores → sp.die = c.die → sp.use = .spare →
      swapSettled s.hw core = true → (∀ x ∈ s.hw.cores, x.die = c.die → ∀ k, x.use ≠ .moving k) →
      exec (.migration core) s = .next (s.mapHw fun h => setUse h c.die c.idx fun x => { x with use := .moving core })) ∧
    (∀ c sp, s.hw.cores.find? (fun c => c.use == .moving core) = some c →
      s.hw.cores.find? (fun x => x.die == c.die && x.use == .spare) = some sp →
      (∀ q ∈ s.hw.pends, q.key.core = core → q.isAccess = true → peerHeld s q = true) →
      (∀ p ∈ s.hw.parts, core ∈ p.cores → ¬ BurstGoesOn s p.idx core) → ∃ u n, exec (.migrationComplete core) s = .next u ∧
        ((∀ l ∈ s.hw.launches, ∀ x ∈ l.ran, x.2.2 < s.hw.nextId) → ∀ l ∈ u.hw.launches, ∀ x ∈ l.ran, x.2.2 < n) ∧
        (∀ x ∈ u.hw.ctxs, x.core = core → x.l1 = Cache.empty ∧ x.con = Cache.empty ∧ x.icache = Cache.empty ∧ x.tlb = [] ∧ x.utlb = [] ∧
          x.filter = [] ∧ x.late = [] ∧ x.ahead = [] ∧ ∀ q ∈ x.selq, q.seen = []) ∧
        u.hw.cores = s.hw.cores.map fun x => if x.die = sp.die ∧ x.idx = sp.idx then { x with use := .serving core }
          else if x.die = c.die ∧ x.idx = c.idx then { x with use := .scanning n } else x) ∧
    (∀ die idx c since, s.hw.cores.find? (fun c => c.die == die && c.idx == idx) = some c → c.use = .scanning since →
      exec (.scanComplete die idx true) s =
        .next (s.mapHw fun h => setUse h die idx fun x => { x with use := .spare, lastPass := since }) ∧
      let store (st : StoreCopy) : List StoreCopy := writeStore s.mod.stores { st with retired := st.retired ++ [(c.die, c.idx)] }
      let out := ((s.mapHw fun h => setUse h die idx fun x => { x with use := .retired }).setMod { s.mod with
        stores := ((newestStore s.mod.stores).map store).getD s.mod.stores, deg := s.mod.deg ||| (1#4 <<< c.die) }).emit (.msix 0 1)
      exec (.scanComplete die idx false) s =
        .next ((s.hw.launches.filter fun l => l.ranOn die idx c.lastPass).foldl requeueForScan out)) ∧
    (let p := s.hw.part part
     p ∈ s.hw.parts → p.idx = part → p.xlinv[0] = true → (∀ q ∈ s.hw.pends, xlinvHeld s p q = false) →
     ∃ u, exec (.xlinvComplete part) s = .next u ∧ (u.hw.part part).xlinv[0] = false ∧
       let stale (e : TlbEntry) : Prop := blocksMeet (e.va, e.size) (xlinvRange p.xlinvRun) = true
       (∀ e ∈ (u.hw.part part).tlb, ¬ stale e) ∧
       ∀ c ∈ u.hw.ctxs, c.part = part → (∀ e ∈ c.tlb, ¬ stale e) ∧ ∀ x ∈ c.utlb, ¬ stale x.2)

/-! ### The host -/

/-- FLTCMD (R365 to R367): RETRY, SKIP and SKIPCLR act on the parked threads that FLTTGT or the all bit names, KILL ends the launch, ACK
clears its mark and count; ERR is clear after a command that was carried out and set after one that was refused: an act that is not in the
table, a launch not in flight, or no parked thread of that TID. A thread retried at a fault attempts its instruction again, one skipped goes
on after it, with SKIPCLR also with TSTATE.T = 0; a write that waited for staging and is skipped asks for its pages no more. That KILL and ACK act whatever FLTTGT.tid holds is DEDUCED (log entry 34). -/
def Obligations.FaultCommandResults : Prop :=
  ∀ (s : State), hostUp s = true →
    let part := s.port.part
    let act := s.port.data.toNat % 8
    let err (u : State) (b : Bool) : State := u.mapHw fun h => h.setPart { h.part part with fltErr := b }
    (∀ (u : State) (b : Bool), u.hw.part part ∈ u.hw.parts → (u.hw.part part).idx = part → ((err u b).hw.part part).fltErr = b) ∧
    (∀ x ∈ [(Instr.retry, 1, retryThread), (.skip, 2, skipThread), (.skipclr, 3, skipClear)], act = x.2.1 →
      (fltLaunch s = none → exec x.1 s = .next (err s true)) ∧
      ∀ l, fltLaunch s = some l →
        (fltThreads s l = [] → s.port.data[3] = false → exec x.1 s = .next (err s true)) ∧
        (fltThreads s l ≠ [] ∨ s.port.data[3] = true → exec x.1 s = .next (err ((fltThreads s l).foldl (fun u k => match u.thread? k with
          | some t => x.2.2 u t
          | none => u) s) false))) ∧
    (act = 4 → (fltLaunch s = none → exec .kill s = .next (err s true)) ∧
      ∀ l, fltLaunch s = some l → ∃ u, exec .kill s = .next u ∧ u.hw.launch? part l.id = none ∧
        (u.hw.part part).fltErr = false ∧ ∀ l', l' ∈ u.hw.launches → ¬ (l'.part = part ∧ l'.id = l.id)) ∧
    (act = 5 → (fltLaunch s = none → exec .ack s = .next (err s true)) ∧
      ∀ l, fltLaunch s = some l → ∃ u, exec .ack s = .next u ∧ u.hw.launch? part l.id = some { l with irq := false, lost := 0 } ∧
        (u.hw.part part).fltErr = false ∧ u.hw.mem = s.hw.mem) ∧
    (act = 0 ∨ act = 6 ∨ act = 7 → exec .fltcmdRefusedAct s = .next (err s true)) ∧
    (∀ (k : Key) (t : Thread) (since : Nat) (l : Launch), s.thread? k = some t → t.park = .watchdog → t.wait = .retry .staging since →
      t.engineDue = false → s.hw.launch? t.key.part t.launch = some l →
      (skipThread s t).hw.launch? t.key.part t.launch = some { l with wants := l.wants.filter fun v => v.2 != some t.key } ∧
      (skipThread s t).thread? k = some (({ t with park := .none } : Thread).past (skipLength s t))) ∧
    ∀ (k : Key) (t : Thread), s.thread? k = some t → t.park = .fault → t.engineDue = false →
      (retryThread s t).thread? k = some { t with park := .none, wait := t.wait.restart s.time } ∧
      (skipThread s t).thread? k = some (({ t with park := .none } : Thread).past (skipLength s t)) ∧
      (skipClear s t).thread? k = some { ({ t with park := .none } : Thread).past (skipLength s t) with tstate := false }

/-- Register writes of a partition that exists (R7, R13, R281, R282, R290, R308, R309, R319, R323, R326, R365, R368, R370, R373, R403, R407): the
fields that a write stores, with reserved bits 0; what is ignored or refused: STKAP with a launch in flight, TIERFL and ECCCNT but through
the PF, an invalidation while GO = 1, a pairing of other cores, a swap with GO = 1 or EN = 0; power limits clamped; the doorbell's record,
or OVF, once the writes that the same function has sent before it over the same link have reached their homes (R305, R401). That a doorbell whose record's page is not resident waits, with the later ones of its queue behind it, and that a swap asked for while a
core of the partition is in a migration stays pending with GO reading 1, is DEDUCED (log entry 34). -/
def Obligations.RegisterWriteResults : Prop :=
  ∀ (s : State), hostUp s = true →
    let v := s.port.data
    let part := s.port.part
    let p := s.hw.part part
    let put (q : Part) : Host.Outcome State Fault Refusal := .next (s.mapHw fun h => h.setPart q)
    (s.port.reg = .xlroot → exec .registerWrite s = put { p with xlroot := v &&& 0x00FFFFFFFFF00001 }) ∧
    (s.port.reg = .balcfg → exec .registerWrite s = put { p with balcfg := v &&& 0x1FFF }) ∧
    (s.port.reg = .wdcfg → exec .registerWrite s = put { p with wdcfg := v &&& 0xFFFFFFFF }) ∧
    (s.port.reg = .stgcfg → exec .registerWrite s = put { p with stgcfg := v &&& 0x0000FFFF0003FFFF }) ∧
    (s.port.reg = .flttgt → exec .registerWrite s = put { p with flttgt := v }) ∧
    (s.port.reg = .tierfl → exec .registerWrite s =
      if s.port.sel = 0 then put { p with tierfl := v &&& 0x0000FFFF00003FFF } else .next s) ∧
    (∀ c, s.port.reg = .ecccnt c → exec .registerWrite s =
      if s.port.sel = 0 then .next (s.setMod { s.mod with ecc := s.mod.ecc.setIfInBounds c.toNat v }) else .next s) ∧
    (∀ off, s.port.reg = .other off → exec .registerWrite s = .next s) ∧
    ((∃ l ∈ s.hw.launches, l.part = part) → exec .stkap s = .next s) ∧
    ((∀ l ∈ s.hw.launches, l.part ≠ part) → exec .stkap s = put { p with stkap := v &&& 0x00FFFFFC00000001 }) ∧
    exec .lqstatClear s = put { p with lqovf := p.lqovf &&& ~~~(v.extractLsb' 0 16) } ∧
    (let high := v.extractLsb' 32 32
     let low := v.extractLsb' 0 32
     exec .tierwm s = .next (s.setMod { s.mod with tierHigh := if high.toNat < low.toNat then low else high, tierLow := low })) ∧
    (∃ u, exec .pwrlim s = .next u ∧ u.mod.pwrlim.toNat = max 1000 (min 2200 (v.toNat % 4096)) ∧ u.mod.tj = s.mod.tj ∧ u.hw.mem = s.hw.mem ∧
      (s.mod.tj.toNat < 95 → u.mod.eff = u.mod.pwrlim) ∧ (105 ≤ s.mod.tj.toNat → u.mod.eff = 0)) ∧
    (let q := v.toNat % 16
     let full := v.toNat / 2 ^ 56 ≠ 0 ∨ v.toNat / 16 % 4 ≠ 0 ∨ 256 ≤ p.queueLoad q
     let ea := BitVec.ofNat 64 (v.toNat / 64 % 2 ^ 50 * 64)
     (full → exec .lqdb s = put { p with lqovf := p.lqovf ||| (1#16 <<< q) }) ∧
     let s1 := finishPosted s s.port.sel s.port.link
     let p1 := s1.hw.part part
     let waits : State := s1.mapHw fun h => h.setPart { p1 with bells := p1.bells ++ [(q, ea.toNat)] }
     (¬ full → (∀ x ∈ p1.bells, x.1 ≠ q) →
       (∀ bs u, systemRead s1 part ea 64 = .ok (bs, u) → exec .lqdb s = .next (u.mapHw fun h => putRecord h part q bs)) ∧
       (∀ f, systemRead s1 part ea 64 = .error (.fault f) →
         exec .lqdb s = .next ((s1.mapHw fun h => h.setPart { p1 with lqovf := p1.lqovf ||| (1#16 <<< q) }).emit (.msix (part + 1) 1))) ∧
       ∀ k, systemRead s1 part ea 64 = .error (.wait k) → exec .lqdb s = .next waits) ∧
     (¬ full → (∃ x ∈ p1.bells, x.1 = q) → exec .lqdb s = .next waits)) ∧
    (let kind := v.toNat / 4 % 4
     let fields := v &&& 0x00FFFFFFFFFFF00C
     (v[0] = true → p.xlinv[0] = false →
       (kind = 0 → exec .xlinvPage s = put { p with xlinv := fields ||| 1, xlinvRun := fields }) ∧
       (kind = 1 → exec .xlinvPartition s = put { p with xlinv := fields ||| 1, xlinvRun := fields }) ∧
       (2 ≤ kind → exec .xlinvRefusedKind s = put { p with xlinv := fields ||| 2 })) ∧
     (v[0] = true → p.xlinv[0] = true →
       exec .xlinvPage s = .next s ∧ exec .xlinvPartition s = .next s ∧ exec .xlinvRefusedKind s = .next s)) ∧
    (let slice := v.toNat / 2 ^ 16 % 2 ^ 16
     let other := s.hw.part (v.toNat / 2 ^ 9 % 8)
     let fields : DWord := (v &&& 0xF00) ||| (BitVec.ofNat 64 (if slice = 0 then 0 else max 20 slice) <<< 16)
     (v[0] = false → v[8] = true → other.cores ≠ p.cores → exec .pswapPair s = put { p with pswap := p.pswap ||| 2 }) ∧
     (v[0] = false → (v[8] = false ∨ other.cores = p.cores) → exec .pswapPair s = put { p with pswap := fields ||| (p.pswap &&& 1) }) ∧
     (v[0] = true → p.pswap[0] = true ∨ p.pswap[8] = false ∨ p.active = false → exec .pswapGo s = .next s) ∧
     (v[0] = true → p.pswap[0] = false → p.pswap[8] = true → p.active = true → (v[8] = false ∨ other.cores = p.cores) →
       let h := s.hw.setPart { p with pswap := fields }
       let p' := h.part p.idx
       paired h p' = true →
       (coresSettled h p' = true → exec .pswapGo s = .next ((s.setHw h).mapHw fun g =>
         g.setPart { p' with swap := .halting, swapDue := false, pswap := p'.pswap ||| 1 })) ∧
       (coresSettled h p' = false → exec .pswapGo s = .next (s.setHw (h.setPart { p' with swapDue := true, pswap := p'.pswap ||| 1 })))))

/-- Resets, temperature and management (R290, R367, R404, R407 to R412): a reset, of whatever origin, boots the module from the newest copy of
its store that verifies: device memory reads 0, the memory of the host and of peers stays, no launch and no thread is left, the registers take
their reset values; with no such copy the module stays in reset. A function-level reset kills the launches of its partition and empties its queues. Management reads and writes what R412
says. What a boot does to TIME and to the module's outgoing messages is the model's choice (log entry 25). -/
def Obligations.ResetAndManagementResults : Prop :=
  ∀ (s : State),
    let booted (u : State) : Prop :=
      (s.canonical → ∀ k, sget u.hw.mem k = if keyIsDevice k then 0 else sget s.hw.mem k) ∧ u.hw.launches = [] ∧ u.hw.threads = [] ∧ u.th.live = false ∧
      (∀ st, newestStore s.mod.stores = some st → u.mod.inReset = false ∧ u.mod.tierHigh = 2048 ∧ u.mod.tierLow = 1024 ∧
        u.mod.modid = st.modid ∧ u.mod.pwrlim = clampLim (st.pwrlim.getD 1900) ∧ (∀ c : Fin 6, u.mod.ecc[c] = 0) ∧
        ∀ p ∈ u.hw.parts, p.xlroot = 0 ∧ p.balcfg = 64 ∧ p.wdcfg = 1000000 ∧ p.stkap = 0 ∧ p.flttgt = 0 ∧ p.ver = 1) ∧
      (newestStore s.mod.stores = none → u.mod.inReset = true ∧ u.hw.parts = [])
    (∃ u, exec .coldBoot s = .next u ∧ booted u ∧ u.time = 0) ∧ (∃ u, exec .mgmtReset s = .next u ∧ booted u) ∧
    (s.mod.inReset = false → (s.port.data = 1 → ∃ u, exec .resetctl s = .next u ∧ booted u) ∧
      (s.port.data ≠ 1 → exec .resetctl s = .next s)) ∧
    (hostUp s = true → ∃ u, exec .functionLevelReset s = .next u ∧ (∀ l ∈ u.hw.launches, l.part ≠ s.port.part) ∧
      (u.hw.part s.port.part).xlroot = 0 ∧ (u.hw.part s.port.part).xlinv = 0 ∧
      ∀ q, q < 16 → (u.hw.part s.port.part).queue q = Queue.empty) ∧
    (let tj := s.port.data.extractLsb' 0 8
     let n := tj.toNat
     (s.mod.inReset = false → n < 110 → ∃ u, exec .temperatureChange s = .next u ∧ u.mod.tj = tj ∧ u.mod.pwrlim = s.mod.pwrlim ∧
       (n < 95 → u.mod.eff = s.mod.pwrlim) ∧ (105 ≤ n → u.mod.eff = 0) ∧
       (95 ≤ n → n < 105 → 20 * u.mod.eff.toNat ≤ s.mod.pwrlim.toNat * (114 - n) + 19 ∧
         s.mod.pwrlim.toNat * (114 - n) ≤ 20 * u.mod.eff.toNat + 19) ∧
       (95 ≤ n → n < 105 → s.mod.tj.toNat < 95 ∨ 105 ≤ s.mod.tj.toNat → u.hw.out = s.hw.out ++ [.msix 0 0])) ∧
     (s.mod.inReset = false → 110 ≤ n → ∃ u, exec .temperatureChange s = .next u ∧ booted u) ∧
     (s.mod.inReset = true → exec .temperatureChange s = .next (s.setMod { s.mod with tj := tj }))) ∧
    (s.port.sel = 0 → exec .mgmtReadStatus s = .next (s.emit (.status (health s)))) ∧
    (∀ c : Fin 6, s.port.sel = 2 + c.val → exec .mgmtReadStatus s = .next (s.emit (.status s.mod.ecc[c]))) ∧
    (s.port.sel = 1 → ∃ u v, exec .mgmtReadStatus s = .next u ∧ u.hw.out = s.hw.out ++ [.status v] ∧
      v.toNat / 2 ^ 32 = s.mod.tj.toNat ∧ v.toNat / 2 ^ 16 % 2 ^ 16 = s.mod.eff.toNat) ∧
    (∃ u, exec .mgmtSetPwrlim s = .next u ∧ u.mod.pwrlim = clampLim (s.port.data.extractLsb' 0 12)) ∧
    exec .mgmtReadStore s = .next (s.emit (.store s.mod.stores)) ∧
    (∃ u, exec .mgmtRewriteStore s = .next u ∧ u.mod.stores = writeStore s.mod.stores s.port.store ∧ u.hw = s.hw)

/-- A posted write of the host, from a function over a link (R305, R401). -/
def PostedBy (x : Outside) (fn link : Nat) : Prop := x.peer = false ∧ x.fn = fn ∧ x.link = link ∧ ∃ a bs, x.access = .write a bs

/-- Posted writes of one function over one link reach their homes in the order in which they were sent (R305, R401): a byte of one waits while an
earlier one is under way; a write made in one step, a doorbell and a register write come after those that are. What is left of a write under way is written, and
nothing else. -/
def PostedInOrder : Prop :=
  (∀ (s : State) (x : Outside) (n : Nat), s.hw.outside.find? (fun y => y.id == x.id) = some x → (∃ a bs, x.access = .write a bs) →
    x.peer = false → (∃ y ∈ s.hw.outside, PostedBy y x.fn x.link ∧ y.id < x.id) → outsideByte s x.id n = s) ∧
  (∀ (s : State) (fn link : Nat), (∀ y ∈ (finishPosted s fn link).hw.outside, ¬ PostedBy y fn link) ∧
    ((∀ y ∈ s.hw.outside, ¬ PostedBy y fn link) → finishPosted s fn link = s) ∧
    ∀ pre x post, s.hw.outside = pre ++ x :: post → (s.hw.outside.map fun y => y.id).Nodup → (∀ y ∈ pre, ¬ PostedBy y fn link) →
      PostedBy x fn link → finishPosted s fn link = finishPosted (outsideMore s x (extSpan x.access).2) fn link) ∧
  (∀ (s : State) (x : Outside) (a : Nat) (bs : List Byte), s.canonical → x.peer = false → x.access = .write a bs →
    let u := outsideMore s x bs.length
    let left (i : Nat) : Prop := i < bs.length ∧ ∀ b, (i, b) ∉ x.got
    (∀ i, left i → sget u.hw.mem (a + i) = bs.getD i 0) ∧ (∀ k, (∀ i, left i → k ≠ a + i) → sget u.hw.mem k = sget s.hw.mem k) ∧
    u.hw.outside = s.hw.outside.filter (fun y => y.id != x.id) ∧ u.hw.out = s.hw.out) ∧
  ∀ (s : State) (fn link off : Nat) (v : DWord) (pass : List (Nat × Nat)), s.mod.inReset = false →
    moveEffect s (.barWrite fn link off v pass) =
      eventStep (finishPosted s fn link) (barWrite fn link off v pass).1 (barWrite fn link off v pass).2

/-- Accesses from outside to device memory (R2, R305, R371, R401, R402, R405, R406): a write puts its bytes, an atomic its new value, a read and an atomic answer
with the bytes as they were; no other byte changes. A peer's write to a page that a launch has staged waits (R374, DEDUCED, log
entry 41). An access that the port says is divided stays under way, and its bytes are accessed one at a time, each once (R291); a write of the host comes
after the earlier ones of its function and link. An address at or above the 512 GiB of device memory, or through BAR2 at or above its size, does not exist: the access is a fault of
the machine (DEDUCED, log entry 42). -/
def Obligations.OutsideAccessResults : Prop :=
  PostedInOrder ∧ ∀ (s : State), s.mod.inReset = false → s.canonical →
    let x := s.port.access
    let a := (extSpan x).1
    let n := (extSpan x).2
    let ks := (List.range n).map fun i => devKey (a + i)
    let effect (s u : State) : Prop :=
      let old := ks.map fun k => sget s.hw.mem k
      (extNew x old = none → u.hw.mem = s.hw.mem) ∧
      (∀ bs, extNew x old = some bs → ks.map (sget u.hw.mem) = bs.take n ∧ SameMemoryBut ks s u) ∧
      (extAnswers x = true → u.hw.out = s.hw.out ++ [.readAnswer old (ks.any (keyPoisoned s.hw))]) ∧
      (extAnswers x = false → u.hw.out = s.hw.out) ∧ u.th = s.th ∧ u.hw.threads = s.hw.threads
    (a + n ≤ 549755813888 →
      let left (u : State) (peer : Bool) : Prop := u = s.mapHw fun h =>
        { h with outside := h.outside ++ [⟨h.nextId, peer, s.port.sel, s.port.link, x, [], false⟩], nextId := h.nextId + 1 }
      let done (u : State) (peer : Bool) : Prop := (s.port.split = true → left u peer) ∧
        (s.port.split = false → ((∃ a bs, x = .write a bs) → peer = false → effect (finishPosted s s.port.sel s.port.link) u) ∧
          ((∀ a bs, x ≠ .write a bs) ∨ peer = true → effect s u))
      (a + n ≤ s.mod.bar2 → ∃ u, exec .hostBar2Access s = .next u ∧ done u false) ∧
      (s.mod.bar2 < a + n → exec .hostBar2Access s = .fault .noSuchAddress) ∧
      ((∃ b m, x = .read b m) ∨ (∀ l ∈ s.hw.launches, ∀ g ∈ l.staged, blocksMeet (g.orig, g.size) (a, n) = false) →
        ∃ u, exec .peerRequest s = .next u ∧ done u true) ∧
      ((∀ b m, x ≠ .read b m) → (∃ l ∈ s.hw.launches, ∃ g ∈ l.staged, blocksMeet (g.orig, g.size) (a, n) = true) →
        exec .peerRequest s = .next s)) ∧
    (549755813888 < a + n → exec .hostBar2Access s = .fault .noSuchAddress ∧ exec .peerRequest s = .fault .noSuchAddress) ∧
    ∀ (o : Outside) (i : Nat), s.hw.outside.find? (fun y => y.id == o.id) = some o → i < (extSpan o.access).2 → (∀ b, (i, b) ∉ o.got) →
      (o.peer = false ∨ ∀ l ∈ s.hw.launches, ∀ g ∈ l.staged, blocksMeet (g.orig, g.size) (extSpan o.access) = false) →
      ((∃ a bs, o.access = .write a bs) → o.peer = false → ∀ y ∈ s.hw.outside, PostedBy y o.fn o.link → o.id ≤ y.id) →
      let k := devKey ((extSpan o.access).1 + i)
      let u := outsideByte s o.id i
      (∀ b bs, o.access = .write b bs → sget u.hw.mem k = bs.getD i 0 ∧ SameMemoryBut [k] s u ∧
        u.hw.outside.find? (fun y => y.id == o.id) = some { o with got := (i, bs.getD i 0) :: o.got } ∧
        ((∀ j, j < 32 → 32 * (k / 32) + j = k ∨ ∃ y ∈ o.got, (extSpan o.access).1 + y.1 = 32 * (k / 32) + j) →
          ∀ q ∈ u.hw.poison, q.granule ≠ k / 32)) ∧
      ∀ b m, o.access = .read b m → SameMemory s u ∧ u.hw.outside.find? (fun y => y.id == o.id) =
        some { o with got := (i, sget s.hw.mem k) :: o.got, poisoned := o.poisoned || keyPoisoned s.hw k }

/-! ### Whole-machine rules -/

/-- The invariant of the module: memory is in its one canonical form, the power limit lies within 1,000 .. 2,200 W (R407), and the low tier
watermark is not above the high one (R290). -/
structure ModuleInv (s : State) : Prop where
  memory : s.canonical
  legal : s.mod.legal

/-- The invariant holds at reset. -/
def Obligations.ResetMeetsModuleInvariant : Prop := ModuleInv State.reset

/-- Every step keeps the invariant, whatever the schedule chooses. -/
def Obligations.StepKeepsModuleInvariant : Prop := ∀ s s' : State, ModuleInv s → step s = .next s' → ModuleInv s'

/-- Every instruction of a thread answers a next state; none changes the module's registers, TIME or the configuration store, which only the
steps of the hardware and of the outside do (R40, R48, R290, R404, R407, R409); each keeps memory canonical. -/
def Obligations.InstructionsKeepModuleAndTime : Prop :=
  ∀ (i : Instr) (s : State), i.form ≠ .step → ∃ s', exec i s = .next s' ∧ s'.mod = s.mod ∧ s'.time = s.time ∧ s'.port = s.port ∧
    s'.agenda = s.agenda ∧ s'.ticks = s.ticks ∧ (s.canonical → s'.canonical)
end

