-- ==== Sys2Proof/Laws/State.lean ====
section
/-!
SUPPORT. Sys2Proof/Laws/State.lean: for each update of the state, of the hardware part and of a thread, one lemma per field: the field
that it changes takes the new value, every other field stays.
-/
namespace Sys2Proof.Machine

/-! ### Updates of State -/

@[simp] theorem State.setTh_th (s : State) (t : Thread) : (s.setTh t).th = t := rfl
@[simp] theorem State.setTh_hw (s : State) (t : Thread) : (s.setTh t).hw = s.hw := rfl
@[simp] theorem State.setTh_mod (s : State) (t : Thread) : (s.setTh t).mod = s.mod := rfl
@[simp] theorem State.setTh_time (s : State) (t : Thread) : (s.setTh t).time = s.time := rfl
@[simp] theorem State.setTh_port (s : State) (t : Thread) : (s.setTh t).port = s.port := rfl
@[simp] theorem State.setTh_agenda (s : State) (t : Thread) : (s.setTh t).agenda = s.agenda := rfl
@[simp] theorem State.setTh_ticks (s : State) (t : Thread) : (s.setTh t).ticks = s.ticks := rfl

@[simp] theorem State.setHw_th (s : State) (h : Hw) : (s.setHw h).th = s.th := rfl
@[simp] theorem State.setHw_hw (s : State) (h : Hw) : (s.setHw h).hw = h := rfl
@[simp] theorem State.setHw_mod (s : State) (h : Hw) : (s.setHw h).mod = s.mod := rfl
@[simp] theorem State.setHw_time (s : State) (h : Hw) : (s.setHw h).time = s.time := rfl
@[simp] theorem State.setHw_port (s : State) (h : Hw) : (s.setHw h).port = s.port := rfl
@[simp] theorem State.setHw_agenda (s : State) (h : Hw) : (s.setHw h).agenda = s.agenda := rfl
@[simp] theorem State.setHw_ticks (s : State) (h : Hw) : (s.setHw h).ticks = s.ticks := rfl

@[simp] theorem State.setMod_th (s : State) (m : Module) : (s.setMod m).th = s.th := rfl
@[simp] theorem State.setMod_hw (s : State) (m : Module) : (s.setMod m).hw = s.hw := rfl
@[simp] theorem State.setMod_mod (s : State) (m : Module) : (s.setMod m).mod = m := rfl
@[simp] theorem State.setMod_time (s : State) (m : Module) : (s.setMod m).time = s.time := rfl
@[simp] theorem State.setMod_port (s : State) (m : Module) : (s.setMod m).port = s.port := rfl
@[simp] theorem State.setMod_agenda (s : State) (m : Module) : (s.setMod m).agenda = s.agenda := rfl
@[simp] theorem State.setMod_ticks (s : State) (m : Module) : (s.setMod m).ticks = s.ticks := rfl

@[simp] theorem State.mapHw_th (s : State) (f : Hw → Hw) : (s.mapHw f).th = s.th := rfl
@[simp] theorem State.mapHw_hw (s : State) (f : Hw → Hw) : (s.mapHw f).hw = f s.hw := rfl
@[simp] theorem State.mapHw_mod (s : State) (f : Hw → Hw) : (s.mapHw f).mod = s.mod := rfl
@[simp] theorem State.mapHw_time (s : State) (f : Hw → Hw) : (s.mapHw f).time = s.time := rfl
@[simp] theorem State.mapHw_port (s : State) (f : Hw → Hw) : (s.mapHw f).port = s.port := rfl
@[simp] theorem State.mapHw_agenda (s : State) (f : Hw → Hw) : (s.mapHw f).agenda = s.agenda := rfl
@[simp] theorem State.mapHw_ticks (s : State) (f : Hw → Hw) : (s.mapHw f).ticks = s.ticks := rfl

@[simp] theorem State.tick_th (s : State) : (s.tick).th = s.th := rfl
@[simp] theorem State.tick_hw (s : State) : (s.tick).hw = { s.hw with fresh := s.hw.fresh + 1 } := rfl
@[simp] theorem State.tick_mod (s : State) : (s.tick).mod = s.mod := rfl
@[simp] theorem State.tick_time (s : State) : (s.tick).time = s.time := rfl
@[simp] theorem State.tick_port (s : State) : (s.tick).port = s.port := rfl
@[simp] theorem State.tick_agenda (s : State) : (s.tick).agenda = s.agenda := rfl
@[simp] theorem State.tick_ticks (s : State) : (s.tick).ticks = s.ticks := rfl

@[simp] theorem State.emit_th (s : State) (m : Msg) : (s.emit m).th = s.th := rfl
@[simp] theorem State.emit_hw (s : State) (m : Msg) : (s.emit m).hw = { s.hw with out := s.hw.out ++ [m] } := rfl
@[simp] theorem State.emit_mod (s : State) (m : Msg) : (s.emit m).mod = s.mod := rfl
@[simp] theorem State.emit_time (s : State) (m : Msg) : (s.emit m).time = s.time := rfl
@[simp] theorem State.emit_port (s : State) (m : Msg) : (s.emit m).port = s.port := rfl
@[simp] theorem State.emit_agenda (s : State) (m : Msg) : (s.emit m).agenda = s.agenda := rfl
@[simp] theorem State.emit_ticks (s : State) (m : Msg) : (s.emit m).ticks = s.ticks := rfl

@[simp] theorem State.advance_th (s : State) (n : Nat) : (s.advance n).th = s.th.past n := rfl
@[simp] theorem State.advance_hw (s : State) (n : Nat) : (s.advance n).hw = s.hw := rfl
@[simp] theorem State.advance_mod (s : State) (n : Nat) : (s.advance n).mod = s.mod := rfl
@[simp] theorem State.advance_time (s : State) (n : Nat) : (s.advance n).time = s.time := rfl
@[simp] theorem State.advance_port (s : State) (n : Nat) : (s.advance n).port = s.port := rfl
@[simp] theorem State.advance_agenda (s : State) (n : Nat) : (s.advance n).agenda = s.agenda := rfl
@[simp] theorem State.advance_ticks (s : State) (n : Nat) : (s.advance n).ticks = s.ticks := rfl

@[simp] theorem State.settled_th (s : State) : (s.settled).th = { s.th with wait := .none, charged := false, latch := none, dmrMiss := false } := rfl
@[simp] theorem State.settled_hw (s : State) : (s.settled).hw = s.hw := rfl
@[simp] theorem State.settled_mod (s : State) : (s.settled).mod = s.mod := rfl
@[simp] theorem State.settled_time (s : State) : (s.settled).time = s.time := rfl
@[simp] theorem State.settled_port (s : State) : (s.settled).port = s.port := rfl
@[simp] theorem State.settled_agenda (s : State) : (s.settled).agenda = s.agenda := rfl
@[simp] theorem State.settled_ticks (s : State) : (s.settled).ticks = s.ticks := rfl

@[simp] theorem State.hold_th (s : State) (k : WaitKind) : (s.hold k).th = { s.th with wait := .held k (s.th.wait.since s.time) } := rfl
@[simp] theorem State.hold_hw (s : State) (k : WaitKind) : (s.hold k).hw = s.hw := rfl
@[simp] theorem State.hold_mod (s : State) (k : WaitKind) : (s.hold k).mod = s.mod := rfl
@[simp] theorem State.hold_time (s : State) (k : WaitKind) : (s.hold k).time = s.time := rfl
@[simp] theorem State.hold_port (s : State) (k : WaitKind) : (s.hold k).port = s.port := rfl
@[simp] theorem State.hold_agenda (s : State) (k : WaitKind) : (s.hold k).agenda = s.agenda := rfl
@[simp] theorem State.hold_ticks (s : State) (k : WaitKind) : (s.hold k).ticks = s.ticks := rfl

@[simp] theorem State.enterThread_th (s : State) (t : Thread) : (s.enterThread t).th = t := rfl
@[simp] theorem State.enterThread_hw (s : State) (t : Thread) : (s.enterThread t).hw = { s.hw with threads := s.hw.threads.filter fun u => !(u.key == t.key) } := rfl
@[simp] theorem State.enterThread_mod (s : State) (t : Thread) : (s.enterThread t).mod = s.mod := rfl
@[simp] theorem State.enterThread_time (s : State) (t : Thread) : (s.enterThread t).time = s.time := rfl
@[simp] theorem State.enterThread_port (s : State) (t : Thread) : (s.enterThread t).port = s.port := rfl
@[simp] theorem State.enterThread_agenda (s : State) (t : Thread) : (s.enterThread t).agenda = s.agenda := rfl
@[simp] theorem State.enterThread_ticks (s : State) (t : Thread) : (s.enterThread t).ticks = s.ticks := rfl

@[simp] theorem newGang_th (s : State) : (newGang s).th = s.th := rfl
@[simp] theorem newGang_hw (s : State) : (newGang s).hw = { s.hw with gang := s.hw.gang + 1 } := rfl
@[simp] theorem newGang_mod (s : State) : (newGang s).mod = s.mod := rfl
@[simp] theorem newGang_time (s : State) : (newGang s).time = s.time := rfl
@[simp] theorem newGang_port (s : State) : (newGang s).port = s.port := rfl
@[simp] theorem newGang_agenda (s : State) : (newGang s).agenda = s.agenda := rfl
@[simp] theorem newGang_ticks (s : State) : (newGang s).ticks = s.ticks := rfl

@[simp] theorem wakeAll_th (s : State) : (wakeAll s).th = s.th := rfl
@[simp] theorem wakeAll_hw (s : State) : (wakeAll s).hw = { s.hw with threads := s.hw.threads.map (wake s) } := rfl
@[simp] theorem wakeAll_mod (s : State) : (wakeAll s).mod = s.mod := rfl
@[simp] theorem wakeAll_time (s : State) : (wakeAll s).time = s.time := rfl
@[simp] theorem wakeAll_port (s : State) : (wakeAll s).port = s.port := rfl
@[simp] theorem wakeAll_agenda (s : State) : (wakeAll s).agenda = s.agenda := rfl
@[simp] theorem wakeAll_ticks (s : State) : (wakeAll s).ticks = s.ticks := rfl

@[simp] theorem refreshPickers_th (s : State) : (refreshPickers s).th = s.th := rfl
@[simp] theorem refreshPickers_hw (s : State) : (refreshPickers s).hw = { s.hw with ctxs := s.hw.ctxs.map (refreshCtx s) } := rfl
@[simp] theorem refreshPickers_mod (s : State) : (refreshPickers s).mod = s.mod := rfl
@[simp] theorem refreshPickers_time (s : State) : (refreshPickers s).time = s.time := rfl
@[simp] theorem refreshPickers_port (s : State) : (refreshPickers s).port = s.port := rfl
@[simp] theorem refreshPickers_agenda (s : State) : (refreshPickers s).agenda = s.agenda := rfl
@[simp] theorem refreshPickers_ticks (s : State) : (refreshPickers s).ticks = s.ticks := rfl

/-! ### Updates of Hw -/

@[simp] theorem Hw.setPart_threads (h : Hw) (p : Part) : (h.setPart p).threads = h.threads := rfl
@[simp] theorem Hw.setPart_ctxs (h : Hw) (p : Part) : (h.setPart p).ctxs = h.ctxs := rfl
@[simp] theorem Hw.setPart_parts (h : Hw) (p : Part) : (h.setPart p).parts = h.parts.map fun q => if q.idx == p.idx then p else q := rfl
@[simp] theorem Hw.setPart_launches (h : Hw) (p : Part) : (h.setPart p).launches = h.launches := rfl
@[simp] theorem Hw.setPart_pends (h : Hw) (p : Part) : (h.setPart p).pends = h.pends := rfl
@[simp] theorem Hw.setPart_mem (h : Hw) (p : Part) : (h.setPart p).mem = h.mem := rfl
@[simp] theorem Hw.setPart_poison (h : Hw) (p : Part) : (h.setPart p).poison = h.poison := rfl
@[simp] theorem Hw.setPart_latent (h : Hw) (p : Part) : (h.setPart p).latent = h.latent := rfl
@[simp] theorem Hw.setPart_found (h : Hw) (p : Part) : (h.setPart p).found = h.found := rfl
@[simp] theorem Hw.setPart_ue (h : Hw) (p : Part) : (h.setPart p).ue = h.ue := rfl
@[simp] theorem Hw.setPart_records (h : Hw) (p : Part) : (h.setPart p).records = h.records := rfl
@[simp] theorem Hw.setPart_apart (h : Hw) (p : Part) : (h.setPart p).apart = h.apart := rfl
@[simp] theorem Hw.setPart_flash (h : Hw) (p : Part) : (h.setPart p).flash = h.flash := rfl
@[simp] theorem Hw.setPart_freeTier (h : Hw) (p : Part) : (h.setPart p).freeTier = h.freeTier := rfl
@[simp] theorem Hw.setPart_budgets (h : Hw) (p : Part) : (h.setPart p).budgets = h.budgets := rfl
@[simp] theorem Hw.setPart_cores (h : Hw) (p : Part) : (h.setPart p).cores = h.cores := rfl
@[simp] theorem Hw.setPart_outside (h : Hw) (p : Part) : (h.setPart p).outside = h.outside := rfl
@[simp] theorem Hw.setPart_out (h : Hw) (p : Part) : (h.setPart p).out = h.out := rfl
@[simp] theorem Hw.setPart_nextId (h : Hw) (p : Part) : (h.setPart p).nextId = h.nextId := rfl
@[simp] theorem Hw.setPart_fresh (h : Hw) (p : Part) : (h.setPart p).fresh = h.fresh := rfl
@[simp] theorem Hw.setPart_gang (h : Hw) (p : Part) : (h.setPart p).gang = h.gang := rfl

@[simp] theorem Hw.setCtx_threads (h : Hw) (c : Ctx) : (h.setCtx c).threads = h.threads := rfl
@[simp] theorem Hw.setCtx_ctxs (h : Hw) (c : Ctx) : (h.setCtx c).ctxs = h.ctxs.map fun d => if d.part == c.part && d.core == c.core then c else d := rfl
@[simp] theorem Hw.setCtx_parts (h : Hw) (c : Ctx) : (h.setCtx c).parts = h.parts := rfl
@[simp] theorem Hw.setCtx_launches (h : Hw) (c : Ctx) : (h.setCtx c).launches = h.launches := rfl
@[simp] theorem Hw.setCtx_pends (h : Hw) (c : Ctx) : (h.setCtx c).pends = h.pends := rfl
@[simp] theorem Hw.setCtx_mem (h : Hw) (c : Ctx) : (h.setCtx c).mem = h.mem := rfl
@[simp] theorem Hw.setCtx_poison (h : Hw) (c : Ctx) : (h.setCtx c).poison = h.poison := rfl
@[simp] theorem Hw.setCtx_latent (h : Hw) (c : Ctx) : (h.setCtx c).latent = h.latent := rfl
@[simp] theorem Hw.setCtx_found (h : Hw) (c : Ctx) : (h.setCtx c).found = h.found := rfl
@[simp] theorem Hw.setCtx_ue (h : Hw) (c : Ctx) : (h.setCtx c).ue = h.ue := rfl
@[simp] theorem Hw.setCtx_records (h : Hw) (c : Ctx) : (h.setCtx c).records = h.records := rfl
@[simp] theorem Hw.setCtx_apart (h : Hw) (c : Ctx) : (h.setCtx c).apart = h.apart := rfl
@[simp] theorem Hw.setCtx_flash (h : Hw) (c : Ctx) : (h.setCtx c).flash = h.flash := rfl
@[simp] theorem Hw.setCtx_freeTier (h : Hw) (c : Ctx) : (h.setCtx c).freeTier = h.freeTier := rfl
@[simp] theorem Hw.setCtx_budgets (h : Hw) (c : Ctx) : (h.setCtx c).budgets = h.budgets := rfl
@[simp] theorem Hw.setCtx_cores (h : Hw) (c : Ctx) : (h.setCtx c).cores = h.cores := rfl
@[simp] theorem Hw.setCtx_outside (h : Hw) (c : Ctx) : (h.setCtx c).outside = h.outside := rfl
@[simp] theorem Hw.setCtx_out (h : Hw) (c : Ctx) : (h.setCtx c).out = h.out := rfl
@[simp] theorem Hw.setCtx_nextId (h : Hw) (c : Ctx) : (h.setCtx c).nextId = h.nextId := rfl
@[simp] theorem Hw.setCtx_fresh (h : Hw) (c : Ctx) : (h.setCtx c).fresh = h.fresh := rfl
@[simp] theorem Hw.setCtx_gang (h : Hw) (c : Ctx) : (h.setCtx c).gang = h.gang := rfl

@[simp] theorem Hw.setLaunch_threads (h : Hw) (l : Launch) : (h.setLaunch l).threads = h.threads := rfl
@[simp] theorem Hw.setLaunch_ctxs (h : Hw) (l : Launch) : (h.setLaunch l).ctxs = h.ctxs := rfl
@[simp] theorem Hw.setLaunch_parts (h : Hw) (l : Launch) : (h.setLaunch l).parts = h.parts := rfl
@[simp] theorem Hw.setLaunch_launches (h : Hw) (l : Launch) : (h.setLaunch l).launches = h.launches.map fun m => if m.part == l.part && m.id == l.id then l else m := rfl
@[simp] theorem Hw.setLaunch_pends (h : Hw) (l : Launch) : (h.setLaunch l).pends = h.pends := rfl
@[simp] theorem Hw.setLaunch_mem (h : Hw) (l : Launch) : (h.setLaunch l).mem = h.mem := rfl
@[simp] theorem Hw.setLaunch_poison (h : Hw) (l : Launch) : (h.setLaunch l).poison = h.poison := rfl
@[simp] theorem Hw.setLaunch_latent (h : Hw) (l : Launch) : (h.setLaunch l).latent = h.latent := rfl
@[simp] theorem Hw.setLaunch_found (h : Hw) (l : Launch) : (h.setLaunch l).found = h.found := rfl
@[simp] theorem Hw.setLaunch_ue (h : Hw) (l : Launch) : (h.setLaunch l).ue = h.ue := rfl
@[simp] theorem Hw.setLaunch_records (h : Hw) (l : Launch) : (h.setLaunch l).records = h.records := rfl
@[simp] theorem Hw.setLaunch_apart (h : Hw) (l : Launch) : (h.setLaunch l).apart = h.apart := rfl
@[simp] theorem Hw.setLaunch_flash (h : Hw) (l : Launch) : (h.setLaunch l).flash = h.flash := rfl
@[simp] theorem Hw.setLaunch_freeTier (h : Hw) (l : Launch) : (h.setLaunch l).freeTier = h.freeTier := rfl
@[simp] theorem Hw.setLaunch_budgets (h : Hw) (l : Launch) : (h.setLaunch l).budgets = h.budgets := rfl
@[simp] theorem Hw.setLaunch_cores (h : Hw) (l : Launch) : (h.setLaunch l).cores = h.cores := rfl
@[simp] theorem Hw.setLaunch_outside (h : Hw) (l : Launch) : (h.setLaunch l).outside = h.outside := rfl
@[simp] theorem Hw.setLaunch_out (h : Hw) (l : Launch) : (h.setLaunch l).out = h.out := rfl
@[simp] theorem Hw.setLaunch_nextId (h : Hw) (l : Launch) : (h.setLaunch l).nextId = h.nextId := rfl
@[simp] theorem Hw.setLaunch_fresh (h : Hw) (l : Launch) : (h.setLaunch l).fresh = h.fresh := rfl
@[simp] theorem Hw.setLaunch_gang (h : Hw) (l : Launch) : (h.setLaunch l).gang = h.gang := rfl

@[simp] theorem Hw.setBudget_threads (h : Hw) (b : Budget) : (h.setBudget b).threads = h.threads := rfl
@[simp] theorem Hw.setBudget_ctxs (h : Hw) (b : Budget) : (h.setBudget b).ctxs = h.ctxs := rfl
@[simp] theorem Hw.setBudget_parts (h : Hw) (b : Budget) : (h.setBudget b).parts = h.parts := rfl
@[simp] theorem Hw.setBudget_launches (h : Hw) (b : Budget) : (h.setBudget b).launches = h.launches := rfl
@[simp] theorem Hw.setBudget_pends (h : Hw) (b : Budget) : (h.setBudget b).pends = h.pends := rfl
@[simp] theorem Hw.setBudget_mem (h : Hw) (b : Budget) : (h.setBudget b).mem = h.mem := rfl
@[simp] theorem Hw.setBudget_poison (h : Hw) (b : Budget) : (h.setBudget b).poison = h.poison := rfl
@[simp] theorem Hw.setBudget_latent (h : Hw) (b : Budget) : (h.setBudget b).latent = h.latent := rfl
@[simp] theorem Hw.setBudget_found (h : Hw) (b : Budget) : (h.setBudget b).found = h.found := rfl
@[simp] theorem Hw.setBudget_ue (h : Hw) (b : Budget) : (h.setBudget b).ue = h.ue := rfl
@[simp] theorem Hw.setBudget_records (h : Hw) (b : Budget) : (h.setBudget b).records = h.records := rfl
@[simp] theorem Hw.setBudget_apart (h : Hw) (b : Budget) : (h.setBudget b).apart = h.apart := rfl
@[simp] theorem Hw.setBudget_flash (h : Hw) (b : Budget) : (h.setBudget b).flash = h.flash := rfl
@[simp] theorem Hw.setBudget_freeTier (h : Hw) (b : Budget) : (h.setBudget b).freeTier = h.freeTier := rfl
@[simp] theorem Hw.setBudget_budgets (h : Hw) (b : Budget) : (h.setBudget b).budgets = h.budgets.map fun c => if c.core == b.core then b else c := rfl
@[simp] theorem Hw.setBudget_cores (h : Hw) (b : Budget) : (h.setBudget b).cores = h.cores := rfl
@[simp] theorem Hw.setBudget_outside (h : Hw) (b : Budget) : (h.setBudget b).outside = h.outside := rfl
@[simp] theorem Hw.setBudget_out (h : Hw) (b : Budget) : (h.setBudget b).out = h.out := rfl
@[simp] theorem Hw.setBudget_nextId (h : Hw) (b : Budget) : (h.setBudget b).nextId = h.nextId := rfl
@[simp] theorem Hw.setBudget_fresh (h : Hw) (b : Budget) : (h.setBudget b).fresh = h.fresh := rfl
@[simp] theorem Hw.setBudget_gang (h : Hw) (b : Budget) : (h.setBudget b).gang = h.gang := rfl

@[simp] theorem writeKey_threads (h : Hw) (own : Option (Nat × Nat)) (k : Nat) (b : Byte) : (writeKey h own k b).threads = h.threads := rfl
@[simp] theorem writeKey_ctxs (h : Hw) (own : Option (Nat × Nat)) (k : Nat) (b : Byte) : (writeKey h own k b).ctxs = h.ctxs.map fun c => c.afterWrite (own == some (c.part, c.core)) h.mem k := rfl
@[simp] theorem writeKey_parts (h : Hw) (own : Option (Nat × Nat)) (k : Nat) (b : Byte) : (writeKey h own k b).parts = h.parts := rfl
@[simp] theorem writeKey_launches (h : Hw) (own : Option (Nat × Nat)) (k : Nat) (b : Byte) : (writeKey h own k b).launches = h.launches := rfl
@[simp] theorem writeKey_pends (h : Hw) (own : Option (Nat × Nat)) (k : Nat) (b : Byte) : (writeKey h own k b).pends = h.pends := rfl
@[simp] theorem writeKey_mem (h : Hw) (own : Option (Nat × Nat)) (k : Nat) (b : Byte) : (writeKey h own k b).mem = sset h.mem k b := rfl
@[simp] theorem writeKey_poison (h : Hw) (own : Option (Nat × Nat)) (k : Nat) (b : Byte) : (writeKey h own k b).poison = h.poison := rfl
@[simp] theorem writeKey_latent (h : Hw) (own : Option (Nat × Nat)) (k : Nat) (b : Byte) : (writeKey h own k b).latent = h.latent := rfl
@[simp] theorem writeKey_found (h : Hw) (own : Option (Nat × Nat)) (k : Nat) (b : Byte) : (writeKey h own k b).found = h.found := rfl
@[simp] theorem writeKey_ue (h : Hw) (own : Option (Nat × Nat)) (k : Nat) (b : Byte) : (writeKey h own k b).ue = h.ue := rfl
@[simp] theorem writeKey_records (h : Hw) (own : Option (Nat × Nat)) (k : Nat) (b : Byte) : (writeKey h own k b).records = h.records := rfl
@[simp] theorem writeKey_apart (h : Hw) (own : Option (Nat × Nat)) (k : Nat) (b : Byte) : (writeKey h own k b).apart = h.apart := rfl
@[simp] theorem writeKey_flash (h : Hw) (own : Option (Nat × Nat)) (k : Nat) (b : Byte) : (writeKey h own k b).flash = h.flash := rfl
@[simp] theorem writeKey_freeTier (h : Hw) (own : Option (Nat × Nat)) (k : Nat) (b : Byte) : (writeKey h own k b).freeTier = h.freeTier := rfl
@[simp] theorem writeKey_budgets (h : Hw) (own : Option (Nat × Nat)) (k : Nat) (b : Byte) : (writeKey h own k b).budgets = h.budgets := rfl
@[simp] theorem writeKey_cores (h : Hw) (own : Option (Nat × Nat)) (k : Nat) (b : Byte) : (writeKey h own k b).cores = h.cores := rfl
@[simp] theorem writeKey_outside (h : Hw) (own : Option (Nat × Nat)) (k : Nat) (b : Byte) : (writeKey h own k b).outside = h.outside := rfl
@[simp] theorem writeKey_out (h : Hw) (own : Option (Nat × Nat)) (k : Nat) (b : Byte) : (writeKey h own k b).out = h.out := rfl
@[simp] theorem writeKey_nextId (h : Hw) (own : Option (Nat × Nat)) (k : Nat) (b : Byte) : (writeKey h own k b).nextId = h.nextId := rfl
@[simp] theorem writeKey_fresh (h : Hw) (own : Option (Nat × Nat)) (k : Nat) (b : Byte) : (writeKey h own k b).fresh = h.fresh := rfl
@[simp] theorem writeKey_gang (h : Hw) (own : Option (Nat × Nat)) (k : Nat) (b : Byte) : (writeKey h own k b).gang = h.gang := rfl

@[simp] theorem dropL1_threads (h : Hw) (part core : Nat) : (dropL1 h part core).threads = h.threads := rfl
@[simp] theorem dropL1_parts (h : Hw) (part core : Nat) : (dropL1 h part core).parts = h.parts := rfl
@[simp] theorem dropL1_launches (h : Hw) (part core : Nat) : (dropL1 h part core).launches = h.launches := rfl
@[simp] theorem dropL1_pends (h : Hw) (part core : Nat) : (dropL1 h part core).pends = h.pends := rfl
@[simp] theorem dropL1_mem (h : Hw) (part core : Nat) : (dropL1 h part core).mem = h.mem := rfl
@[simp] theorem dropL1_poison (h : Hw) (part core : Nat) : (dropL1 h part core).poison = h.poison := rfl
@[simp] theorem dropL1_latent (h : Hw) (part core : Nat) : (dropL1 h part core).latent = h.latent := rfl
@[simp] theorem dropL1_found (h : Hw) (part core : Nat) : (dropL1 h part core).found = h.found := rfl
@[simp] theorem dropL1_ue (h : Hw) (part core : Nat) : (dropL1 h part core).ue = h.ue := rfl
@[simp] theorem dropL1_records (h : Hw) (part core : Nat) : (dropL1 h part core).records = h.records := rfl
@[simp] theorem dropL1_apart (h : Hw) (part core : Nat) : (dropL1 h part core).apart = h.apart := rfl
@[simp] theorem dropL1_flash (h : Hw) (part core : Nat) : (dropL1 h part core).flash = h.flash := rfl
@[simp] theorem dropL1_freeTier (h : Hw) (part core : Nat) : (dropL1 h part core).freeTier = h.freeTier := rfl
@[simp] theorem dropL1_budgets (h : Hw) (part core : Nat) : (dropL1 h part core).budgets = h.budgets := rfl
@[simp] theorem dropL1_cores (h : Hw) (part core : Nat) : (dropL1 h part core).cores = h.cores := rfl
@[simp] theorem dropL1_outside (h : Hw) (part core : Nat) : (dropL1 h part core).outside = h.outside := rfl
@[simp] theorem dropL1_out (h : Hw) (part core : Nat) : (dropL1 h part core).out = h.out := rfl
@[simp] theorem dropL1_nextId (h : Hw) (part core : Nat) : (dropL1 h part core).nextId = h.nextId := rfl
@[simp] theorem dropL1_fresh (h : Hw) (part core : Nat) : (dropL1 h part core).fresh = h.fresh := rfl
@[simp] theorem dropL1_gang (h : Hw) (part core : Nat) : (dropL1 h part core).gang = h.gang := rfl

@[simp] theorem dropCon_threads (h : Hw) (part core : Nat) : (dropCon h part core).threads = h.threads := rfl
@[simp] theorem dropCon_parts (h : Hw) (part core : Nat) : (dropCon h part core).parts = h.parts := rfl
@[simp] theorem dropCon_launches (h : Hw) (part core : Nat) : (dropCon h part core).launches = h.launches := rfl
@[simp] theorem dropCon_pends (h : Hw) (part core : Nat) : (dropCon h part core).pends = h.pends := rfl
@[simp] theorem dropCon_mem (h : Hw) (part core : Nat) : (dropCon h part core).mem = h.mem := rfl
@[simp] theorem dropCon_poison (h : Hw) (part core : Nat) : (dropCon h part core).poison = h.poison := rfl
@[simp] theorem dropCon_latent (h : Hw) (part core : Nat) : (dropCon h part core).latent = h.latent := rfl
@[simp] theorem dropCon_found (h : Hw) (part core : Nat) : (dropCon h part core).found = h.found := rfl
@[simp] theorem dropCon_ue (h : Hw) (part core : Nat) : (dropCon h part core).ue = h.ue := rfl
@[simp] theorem dropCon_records (h : Hw) (part core : Nat) : (dropCon h part core).records = h.records := rfl
@[simp] theorem dropCon_apart (h : Hw) (part core : Nat) : (dropCon h part core).apart = h.apart := rfl
@[simp] theorem dropCon_flash (h : Hw) (part core : Nat) : (dropCon h part core).flash = h.flash := rfl
@[simp] theorem dropCon_freeTier (h : Hw) (part core : Nat) : (dropCon h part core).freeTier = h.freeTier := rfl
@[simp] theorem dropCon_budgets (h : Hw) (part core : Nat) : (dropCon h part core).budgets = h.budgets := rfl
@[simp] theorem dropCon_cores (h : Hw) (part core : Nat) : (dropCon h part core).cores = h.cores := rfl
@[simp] theorem dropCon_outside (h : Hw) (part core : Nat) : (dropCon h part core).outside = h.outside := rfl
@[simp] theorem dropCon_out (h : Hw) (part core : Nat) : (dropCon h part core).out = h.out := rfl
@[simp] theorem dropCon_nextId (h : Hw) (part core : Nat) : (dropCon h part core).nextId = h.nextId := rfl
@[simp] theorem dropCon_fresh (h : Hw) (part core : Nat) : (dropCon h part core).fresh = h.fresh := rfl
@[simp] theorem dropCon_gang (h : Hw) (part core : Nat) : (dropCon h part core).gang = h.gang := rfl

/-! ### Updates of Thread -/

@[simp] theorem Thread.setCell_live (t : Thread) (i : Nat) (c : VCell) : (t.setCell i c).live = t.live := rfl
@[simp] theorem Thread.setCell_key (t : Thread) (i : Nat) (c : VCell) : (t.setCell i c).key = t.key := rfl
@[simp] theorem Thread.setCell_launch (t : Thread) (i : Nat) (c : VCell) : (t.setCell i c).launch = t.launch := rfl
@[simp] theorem Thread.setCell_tid (t : Thread) (i : Nat) (c : VCell) : (t.setCell i c).tid = t.tid := rfl
@[simp] theorem Thread.setCell_pc (t : Thread) (i : Nat) (c : VCell) : (t.setCell i c).pc = t.pc := rfl
@[simp] theorem Thread.setCell_win (t : Thread) (i : Nat) (c : VCell) : (t.setCell i c).win = t.win := rfl
@[simp] theorem Thread.setCell_mode (t : Thread) (i : Nat) (c : VCell) : (t.setCell i c).mode = t.mode := rfl
@[simp] theorem Thread.setCell_picker (t : Thread) (i : Nat) (c : VCell) : (t.setCell i c).picker = t.picker := rfl
@[simp] theorem Thread.setCell_dmr (t : Thread) (i : Nat) (c : VCell) : (t.setCell i c).dmr = t.dmr := rfl
@[simp] theorem Thread.setCell_dmrMiss (t : Thread) (i : Nat) (c : VCell) : (t.setCell i c).dmrMiss = t.dmrMiss := rfl
@[simp] theorem Thread.setCell_slot2 (t : Thread) (i : Nat) (c : VCell) : (t.setCell i c).slot2 = t.slot2 := rfl
@[simp] theorem Thread.setCell_cells (t : Thread) (i : Nat) (c : VCell) : (t.setCell i c).cells = t.cells.set i c := rfl
@[simp] theorem Thread.setCell_sregs (t : Thread) (i : Nat) (c : VCell) : (t.setCell i c).sregs = t.sregs := rfl
@[simp] theorem Thread.setCell_preds (t : Thread) (i : Nat) (c : VCell) : (t.setCell i c).preds = t.preds := rfl
@[simp] theorem Thread.setCell_crew (t : Thread) (i : Nat) (c : VCell) : (t.setCell i c).crew = t.crew := rfl
@[simp] theorem Thread.setCell_rank (t : Thread) (i : Nat) (c : VCell) : (t.setCell i c).rank = t.rank := rfl
@[simp] theorem Thread.setCell_tile (t : Thread) (i : Nat) (c : VCell) : (t.setCell i c).tile = t.tile := rfl
@[simp] theorem Thread.setCell_prec (t : Thread) (i : Nat) (c : VCell) : (t.setCell i c).prec = t.prec := rfl
@[simp] theorem Thread.setCell_xflags (t : Thread) (i : Nat) (c : VCell) : (t.setCell i c).xflags = t.xflags := rfl
@[simp] theorem Thread.setCell_fcsr (t : Thread) (i : Nat) (c : VCell) : (t.setCell i c).fcsr = t.fcsr := rfl
@[simp] theorem Thread.setCell_ltv (t : Thread) (i : Nat) (c : VCell) : (t.setCell i c).ltv = t.ltv := rfl
@[simp] theorem Thread.setCell_ltc (t : Thread) (i : Nat) (c : VCell) : (t.setCell i c).ltc = t.ltc := rfl
@[simp] theorem Thread.setCell_ltip (t : Thread) (i : Nat) (c : VCell) : (t.setCell i c).ltip = t.ltip := rfl
@[simp] theorem Thread.setCell_ltval (t : Thread) (i : Nat) (c : VCell) : (t.setCell i c).ltval = t.ltval := rfl
@[simp] theorem Thread.setCell_tstate (t : Thread) (i : Nat) (c : VCell) : (t.setCell i c).tstate = t.tstate := rfl
@[simp] theorem Thread.setCell_fuel (t : Thread) (i : Nat) (c : VCell) : (t.setCell i c).fuel = t.fuel := rfl
@[simp] theorem Thread.setCell_sig (t : Thread) (i : Nat) (c : VCell) : (t.setCell i c).sig = t.sig := rfl
@[simp] theorem Thread.setCell_sign (t : Thread) (i : Nat) (c : VCell) : (t.setCell i c).sign = t.sign := rfl
@[simp] theorem Thread.setCell_seed (t : Thread) (i : Nat) (c : VCell) : (t.setCell i c).seed = t.seed := rfl
@[simp] theorem Thread.setCell_randN (t : Thread) (i : Nat) (c : VCell) : (t.setCell i c).randN = t.randN := rfl
@[simp] theorem Thread.setCell_cmds (t : Thread) (i : Nat) (c : VCell) : (t.setCell i c).cmds = t.cmds := rfl
@[simp] theorem Thread.setCell_issued (t : Thread) (i : Nat) (c : VCell) : (t.setCell i c).issued = t.issued := rfl
@[simp] theorem Thread.setCell_tickets (t : Thread) (i : Nat) (c : VCell) : (t.setCell i c).tickets = t.tickets := rfl
@[simp] theorem Thread.setCell_park (t : Thread) (i : Nat) (c : VCell) : (t.setCell i c).park = t.park := rfl
@[simp] theorem Thread.setCell_engineDue (t : Thread) (i : Nat) (c : VCell) : (t.setCell i c).engineDue = t.engineDue := rfl
@[simp] theorem Thread.setCell_wait (t : Thread) (i : Nat) (c : VCell) : (t.setCell i c).wait = t.wait := rfl
@[simp] theorem Thread.setCell_charged (t : Thread) (i : Nat) (c : VCell) : (t.setCell i c).charged = t.charged := rfl
@[simp] theorem Thread.setCell_trial (t : Thread) (i : Nat) (c : VCell) : (t.setCell i c).trial = t.trial := rfl
@[simp] theorem Thread.setCell_arrived (t : Thread) (i : Nat) (c : VCell) : (t.setCell i c).arrived = t.arrived := rfl
@[simp] theorem Thread.setCell_exempt (t : Thread) (i : Nat) (c : VCell) : (t.setCell i c).exempt = t.exempt := rfl
@[simp] theorem Thread.setCell_latch (t : Thread) (i : Nat) (c : VCell) : (t.setCell i c).latch = t.latch := rfl
@[simp] theorem Thread.setCell_gangs (t : Thread) (i : Nat) (c : VCell) : (t.setCell i c).gangs = t.gangs := rfl
@[simp] theorem Thread.setCell_sees (t : Thread) (i : Nat) (c : VCell) : (t.setCell i c).sees = t.sees := rfl
@[simp] theorem Thread.setCell_knows (t : Thread) (i : Nat) (c : VCell) : (t.setCell i c).knows = t.knows := rfl
@[simp] theorem Thread.setCell_conRead (t : Thread) (i : Nat) (c : VCell) : (t.setCell i c).conRead = t.conRead := rfl

@[simp] theorem Thread.setSreg_live (t : Thread) (i : Nat) (v : DWord) : (t.setSreg i v).live = t.live := rfl
@[simp] theorem Thread.setSreg_key (t : Thread) (i : Nat) (v : DWord) : (t.setSreg i v).key = t.key := rfl
@[simp] theorem Thread.setSreg_launch (t : Thread) (i : Nat) (v : DWord) : (t.setSreg i v).launch = t.launch := rfl
@[simp] theorem Thread.setSreg_tid (t : Thread) (i : Nat) (v : DWord) : (t.setSreg i v).tid = t.tid := rfl
@[simp] theorem Thread.setSreg_pc (t : Thread) (i : Nat) (v : DWord) : (t.setSreg i v).pc = t.pc := rfl
@[simp] theorem Thread.setSreg_win (t : Thread) (i : Nat) (v : DWord) : (t.setSreg i v).win = t.win := rfl
@[simp] theorem Thread.setSreg_mode (t : Thread) (i : Nat) (v : DWord) : (t.setSreg i v).mode = t.mode := rfl
@[simp] theorem Thread.setSreg_picker (t : Thread) (i : Nat) (v : DWord) : (t.setSreg i v).picker = t.picker := rfl
@[simp] theorem Thread.setSreg_dmr (t : Thread) (i : Nat) (v : DWord) : (t.setSreg i v).dmr = t.dmr := rfl
@[simp] theorem Thread.setSreg_dmrMiss (t : Thread) (i : Nat) (v : DWord) : (t.setSreg i v).dmrMiss = t.dmrMiss := rfl
@[simp] theorem Thread.setSreg_slot2 (t : Thread) (i : Nat) (v : DWord) : (t.setSreg i v).slot2 = t.slot2 := rfl
@[simp] theorem Thread.setSreg_cells (t : Thread) (i : Nat) (v : DWord) : (t.setSreg i v).cells = t.cells := rfl
@[simp] theorem Thread.setSreg_sregs (t : Thread) (i : Nat) (v : DWord) : (t.setSreg i v).sregs = t.sregs.setIfInBounds i v := rfl
@[simp] theorem Thread.setSreg_preds (t : Thread) (i : Nat) (v : DWord) : (t.setSreg i v).preds = t.preds := rfl
@[simp] theorem Thread.setSreg_crew (t : Thread) (i : Nat) (v : DWord) : (t.setSreg i v).crew = t.crew := rfl
@[simp] theorem Thread.setSreg_rank (t : Thread) (i : Nat) (v : DWord) : (t.setSreg i v).rank = t.rank := rfl
@[simp] theorem Thread.setSreg_tile (t : Thread) (i : Nat) (v : DWord) : (t.setSreg i v).tile = t.tile := rfl
@[simp] theorem Thread.setSreg_prec (t : Thread) (i : Nat) (v : DWord) : (t.setSreg i v).prec = t.prec := rfl
@[simp] theorem Thread.setSreg_xflags (t : Thread) (i : Nat) (v : DWord) : (t.setSreg i v).xflags = t.xflags := rfl
@[simp] theorem Thread.setSreg_fcsr (t : Thread) (i : Nat) (v : DWord) : (t.setSreg i v).fcsr = t.fcsr := rfl
@[simp] theorem Thread.setSreg_ltv (t : Thread) (i : Nat) (v : DWord) : (t.setSreg i v).ltv = t.ltv := rfl
@[simp] theorem Thread.setSreg_ltc (t : Thread) (i : Nat) (v : DWord) : (t.setSreg i v).ltc = t.ltc := rfl
@[simp] theorem Thread.setSreg_ltip (t : Thread) (i : Nat) (v : DWord) : (t.setSreg i v).ltip = t.ltip := rfl
@[simp] theorem Thread.setSreg_ltval (t : Thread) (i : Nat) (v : DWord) : (t.setSreg i v).ltval = t.ltval := rfl
@[simp] theorem Thread.setSreg_tstate (t : Thread) (i : Nat) (v : DWord) : (t.setSreg i v).tstate = t.tstate := rfl
@[simp] theorem Thread.setSreg_fuel (t : Thread) (i : Nat) (v : DWord) : (t.setSreg i v).fuel = t.fuel := rfl
@[simp] theorem Thread.setSreg_sig (t : Thread) (i : Nat) (v : DWord) : (t.setSreg i v).sig = t.sig := rfl
@[simp] theorem Thread.setSreg_sign (t : Thread) (i : Nat) (v : DWord) : (t.setSreg i v).sign = t.sign := rfl
@[simp] theorem Thread.setSreg_seed (t : Thread) (i : Nat) (v : DWord) : (t.setSreg i v).seed = t.seed := rfl
@[simp] theorem Thread.setSreg_randN (t : Thread) (i : Nat) (v : DWord) : (t.setSreg i v).randN = t.randN := rfl
@[simp] theorem Thread.setSreg_cmds (t : Thread) (i : Nat) (v : DWord) : (t.setSreg i v).cmds = t.cmds := rfl
@[simp] theorem Thread.setSreg_issued (t : Thread) (i : Nat) (v : DWord) : (t.setSreg i v).issued = t.issued := rfl
@[simp] theorem Thread.setSreg_tickets (t : Thread) (i : Nat) (v : DWord) : (t.setSreg i v).tickets = t.tickets := rfl
@[simp] theorem Thread.setSreg_park (t : Thread) (i : Nat) (v : DWord) : (t.setSreg i v).park = t.park := rfl
@[simp] theorem Thread.setSreg_engineDue (t : Thread) (i : Nat) (v : DWord) : (t.setSreg i v).engineDue = t.engineDue := rfl
@[simp] theorem Thread.setSreg_wait (t : Thread) (i : Nat) (v : DWord) : (t.setSreg i v).wait = t.wait := rfl
@[simp] theorem Thread.setSreg_charged (t : Thread) (i : Nat) (v : DWord) : (t.setSreg i v).charged = t.charged := rfl
@[simp] theorem Thread.setSreg_trial (t : Thread) (i : Nat) (v : DWord) : (t.setSreg i v).trial = t.trial := rfl
@[simp] theorem Thread.setSreg_arrived (t : Thread) (i : Nat) (v : DWord) : (t.setSreg i v).arrived = t.arrived := rfl
@[simp] theorem Thread.setSreg_exempt (t : Thread) (i : Nat) (v : DWord) : (t.setSreg i v).exempt = t.exempt := rfl
@[simp] theorem Thread.setSreg_latch (t : Thread) (i : Nat) (v : DWord) : (t.setSreg i v).latch = t.latch := rfl
@[simp] theorem Thread.setSreg_gangs (t : Thread) (i : Nat) (v : DWord) : (t.setSreg i v).gangs = t.gangs := rfl
@[simp] theorem Thread.setSreg_sees (t : Thread) (i : Nat) (v : DWord) : (t.setSreg i v).sees = t.sees := rfl
@[simp] theorem Thread.setSreg_knows (t : Thread) (i : Nat) (v : DWord) : (t.setSreg i v).knows = t.knows := rfl
@[simp] theorem Thread.setSreg_conRead (t : Thread) (i : Nat) (v : DWord) : (t.setSreg i v).conRead = t.conRead := rfl

@[simp] theorem Thread.setPred_live (t : Thread) (i : Nat) (v : Bool) : (t.setPred i v).live = t.live := rfl
@[simp] theorem Thread.setPred_key (t : Thread) (i : Nat) (v : Bool) : (t.setPred i v).key = t.key := rfl
@[simp] theorem Thread.setPred_launch (t : Thread) (i : Nat) (v : Bool) : (t.setPred i v).launch = t.launch := rfl
@[simp] theorem Thread.setPred_tid (t : Thread) (i : Nat) (v : Bool) : (t.setPred i v).tid = t.tid := rfl
@[simp] theorem Thread.setPred_pc (t : Thread) (i : Nat) (v : Bool) : (t.setPred i v).pc = t.pc := rfl
@[simp] theorem Thread.setPred_win (t : Thread) (i : Nat) (v : Bool) : (t.setPred i v).win = t.win := rfl
@[simp] theorem Thread.setPred_mode (t : Thread) (i : Nat) (v : Bool) : (t.setPred i v).mode = t.mode := rfl
@[simp] theorem Thread.setPred_picker (t : Thread) (i : Nat) (v : Bool) : (t.setPred i v).picker = t.picker := rfl
@[simp] theorem Thread.setPred_dmr (t : Thread) (i : Nat) (v : Bool) : (t.setPred i v).dmr = t.dmr := rfl
@[simp] theorem Thread.setPred_dmrMiss (t : Thread) (i : Nat) (v : Bool) : (t.setPred i v).dmrMiss = t.dmrMiss := rfl
@[simp] theorem Thread.setPred_slot2 (t : Thread) (i : Nat) (v : Bool) : (t.setPred i v).slot2 = t.slot2 := rfl
@[simp] theorem Thread.setPred_cells (t : Thread) (i : Nat) (v : Bool) : (t.setPred i v).cells = t.cells := rfl
@[simp] theorem Thread.setPred_sregs (t : Thread) (i : Nat) (v : Bool) : (t.setPred i v).sregs = t.sregs := rfl
@[simp] theorem Thread.setPred_preds (t : Thread) (i : Nat) (v : Bool) : (t.setPred i v).preds = t.preds.setIfInBounds i v := rfl
@[simp] theorem Thread.setPred_crew (t : Thread) (i : Nat) (v : Bool) : (t.setPred i v).crew = t.crew := rfl
@[simp] theorem Thread.setPred_rank (t : Thread) (i : Nat) (v : Bool) : (t.setPred i v).rank = t.rank := rfl
@[simp] theorem Thread.setPred_tile (t : Thread) (i : Nat) (v : Bool) : (t.setPred i v).tile = t.tile := rfl
@[simp] theorem Thread.setPred_prec (t : Thread) (i : Nat) (v : Bool) : (t.setPred i v).prec = t.prec := rfl
@[simp] theorem Thread.setPred_xflags (t : Thread) (i : Nat) (v : Bool) : (t.setPred i v).xflags = t.xflags := rfl
@[simp] theorem Thread.setPred_fcsr (t : Thread) (i : Nat) (v : Bool) : (t.setPred i v).fcsr = t.fcsr := rfl
@[simp] theorem Thread.setPred_ltv (t : Thread) (i : Nat) (v : Bool) : (t.setPred i v).ltv = t.ltv := rfl
@[simp] theorem Thread.setPred_ltc (t : Thread) (i : Nat) (v : Bool) : (t.setPred i v).ltc = t.ltc := rfl
@[simp] theorem Thread.setPred_ltip (t : Thread) (i : Nat) (v : Bool) : (t.setPred i v).ltip = t.ltip := rfl
@[simp] theorem Thread.setPred_ltval (t : Thread) (i : Nat) (v : Bool) : (t.setPred i v).ltval = t.ltval := rfl
@[simp] theorem Thread.setPred_tstate (t : Thread) (i : Nat) (v : Bool) : (t.setPred i v).tstate = t.tstate := rfl
@[simp] theorem Thread.setPred_fuel (t : Thread) (i : Nat) (v : Bool) : (t.setPred i v).fuel = t.fuel := rfl
@[simp] theorem Thread.setPred_sig (t : Thread) (i : Nat) (v : Bool) : (t.setPred i v).sig = t.sig := rfl
@[simp] theorem Thread.setPred_sign (t : Thread) (i : Nat) (v : Bool) : (t.setPred i v).sign = t.sign := rfl
@[simp] theorem Thread.setPred_seed (t : Thread) (i : Nat) (v : Bool) : (t.setPred i v).seed = t.seed := rfl
@[simp] theorem Thread.setPred_randN (t : Thread) (i : Nat) (v : Bool) : (t.setPred i v).randN = t.randN := rfl
@[simp] theorem Thread.setPred_cmds (t : Thread) (i : Nat) (v : Bool) : (t.setPred i v).cmds = t.cmds := rfl
@[simp] theorem Thread.setPred_issued (t : Thread) (i : Nat) (v : Bool) : (t.setPred i v).issued = t.issued := rfl
@[simp] theorem Thread.setPred_tickets (t : Thread) (i : Nat) (v : Bool) : (t.setPred i v).tickets = t.tickets := rfl
@[simp] theorem Thread.setPred_park (t : Thread) (i : Nat) (v : Bool) : (t.setPred i v).park = t.park := rfl
@[simp] theorem Thread.setPred_engineDue (t : Thread) (i : Nat) (v : Bool) : (t.setPred i v).engineDue = t.engineDue := rfl
@[simp] theorem Thread.setPred_wait (t : Thread) (i : Nat) (v : Bool) : (t.setPred i v).wait = t.wait := rfl
@[simp] theorem Thread.setPred_charged (t : Thread) (i : Nat) (v : Bool) : (t.setPred i v).charged = t.charged := rfl
@[simp] theorem Thread.setPred_trial (t : Thread) (i : Nat) (v : Bool) : (t.setPred i v).trial = t.trial := rfl
@[simp] theorem Thread.setPred_arrived (t : Thread) (i : Nat) (v : Bool) : (t.setPred i v).arrived = t.arrived := rfl
@[simp] theorem Thread.setPred_exempt (t : Thread) (i : Nat) (v : Bool) : (t.setPred i v).exempt = t.exempt := rfl
@[simp] theorem Thread.setPred_latch (t : Thread) (i : Nat) (v : Bool) : (t.setPred i v).latch = t.latch := rfl
@[simp] theorem Thread.setPred_gangs (t : Thread) (i : Nat) (v : Bool) : (t.setPred i v).gangs = t.gangs := rfl
@[simp] theorem Thread.setPred_sees (t : Thread) (i : Nat) (v : Bool) : (t.setPred i v).sees = t.sees := rfl
@[simp] theorem Thread.setPred_knows (t : Thread) (i : Nat) (v : Bool) : (t.setPred i v).knows = t.knows := rfl
@[simp] theorem Thread.setPred_conRead (t : Thread) (i : Nat) (v : Bool) : (t.setPred i v).conRead = t.conRead := rfl

@[simp] theorem Thread.past_live (t : Thread) (n : Nat) : (t.past n).live = t.live := rfl
@[simp] theorem Thread.past_key (t : Thread) (n : Nat) : (t.past n).key = t.key := rfl
@[simp] theorem Thread.past_launch (t : Thread) (n : Nat) : (t.past n).launch = t.launch := rfl
@[simp] theorem Thread.past_tid (t : Thread) (n : Nat) : (t.past n).tid = t.tid := rfl
@[simp] theorem Thread.past_pc (t : Thread) (n : Nat) : (t.past n).pc = t.pc + BitVec.ofNat 64 n := rfl
@[simp] theorem Thread.past_win (t : Thread) (n : Nat) : (t.past n).win = t.win := rfl
@[simp] theorem Thread.past_mode (t : Thread) (n : Nat) : (t.past n).mode = t.mode := rfl
@[simp] theorem Thread.past_picker (t : Thread) (n : Nat) : (t.past n).picker = t.picker := rfl
@[simp] theorem Thread.past_dmr (t : Thread) (n : Nat) : (t.past n).dmr = t.dmr := rfl
@[simp] theorem Thread.past_dmrMiss (t : Thread) (n : Nat) : (t.past n).dmrMiss = false := rfl
@[simp] theorem Thread.past_slot2 (t : Thread) (n : Nat) : (t.past n).slot2 = t.slot2 := rfl
@[simp] theorem Thread.past_cells (t : Thread) (n : Nat) : (t.past n).cells = t.cells := rfl
@[simp] theorem Thread.past_sregs (t : Thread) (n : Nat) : (t.past n).sregs = t.sregs := rfl
@[simp] theorem Thread.past_preds (t : Thread) (n : Nat) : (t.past n).preds = t.preds := rfl
@[simp] theorem Thread.past_crew (t : Thread) (n : Nat) : (t.past n).crew = t.crew := rfl
@[simp] theorem Thread.past_rank (t : Thread) (n : Nat) : (t.past n).rank = t.rank := rfl
@[simp] theorem Thread.past_tile (t : Thread) (n : Nat) : (t.past n).tile = t.tile := rfl
@[simp] theorem Thread.past_prec (t : Thread) (n : Nat) : (t.past n).prec = t.prec := rfl
@[simp] theorem Thread.past_xflags (t : Thread) (n : Nat) : (t.past n).xflags = t.xflags := rfl
@[simp] theorem Thread.past_fcsr (t : Thread) (n : Nat) : (t.past n).fcsr = t.fcsr := rfl
@[simp] theorem Thread.past_ltv (t : Thread) (n : Nat) : (t.past n).ltv = t.ltv := rfl
@[simp] theorem Thread.past_ltc (t : Thread) (n : Nat) : (t.past n).ltc = t.ltc := rfl
@[simp] theorem Thread.past_ltip (t : Thread) (n : Nat) : (t.past n).ltip = t.ltip := rfl
@[simp] theorem Thread.past_ltval (t : Thread) (n : Nat) : (t.past n).ltval = t.ltval := rfl
@[simp] theorem Thread.past_tstate (t : Thread) (n : Nat) : (t.past n).tstate = t.tstate := rfl
@[simp] theorem Thread.past_fuel (t : Thread) (n : Nat) : (t.past n).fuel = t.fuel := rfl
@[simp] theorem Thread.past_sig (t : Thread) (n : Nat) : (t.past n).sig = t.sig := rfl
@[simp] theorem Thread.past_sign (t : Thread) (n : Nat) : (t.past n).sign = t.sign := rfl
@[simp] theorem Thread.past_seed (t : Thread) (n : Nat) : (t.past n).seed = t.seed := rfl
@[simp] theorem Thread.past_randN (t : Thread) (n : Nat) : (t.past n).randN = t.randN := rfl
@[simp] theorem Thread.past_cmds (t : Thread) (n : Nat) : (t.past n).cmds = t.cmds := rfl
@[simp] theorem Thread.past_issued (t : Thread) (n : Nat) : (t.past n).issued = t.issued := rfl
@[simp] theorem Thread.past_tickets (t : Thread) (n : Nat) : (t.past n).tickets = t.tickets := rfl
@[simp] theorem Thread.past_park (t : Thread) (n : Nat) : (t.past n).park = t.park := rfl
@[simp] theorem Thread.past_engineDue (t : Thread) (n : Nat) : (t.past n).engineDue = t.engineDue := rfl
@[simp] theorem Thread.past_wait (t : Thread) (n : Nat) : (t.past n).wait = .none := rfl
@[simp] theorem Thread.past_charged (t : Thread) (n : Nat) : (t.past n).charged = false := rfl
@[simp] theorem Thread.past_trial (t : Thread) (n : Nat) : (t.past n).trial = t.trial := rfl
@[simp] theorem Thread.past_arrived (t : Thread) (n : Nat) : (t.past n).arrived = t.arrived := rfl
@[simp] theorem Thread.past_exempt (t : Thread) (n : Nat) : (t.past n).exempt = t.exempt := rfl
@[simp] theorem Thread.past_latch (t : Thread) (n : Nat) : (t.past n).latch = none := rfl
@[simp] theorem Thread.past_gangs (t : Thread) (n : Nat) : (t.past n).gangs = t.gangs := rfl
@[simp] theorem Thread.past_sees (t : Thread) (n : Nat) : (t.past n).sees = t.sees := rfl
@[simp] theorem Thread.past_knows (t : Thread) (n : Nat) : (t.past n).knows = t.knows := rfl
@[simp] theorem Thread.past_conRead (t : Thread) (n : Nat) : (t.past n).conRead = t.conRead := rfl

@[simp] theorem Thread.returnTo_live (t : Thread) (a : DWord) : (t.returnTo a).live = t.live := rfl
@[simp] theorem Thread.returnTo_key (t : Thread) (a : DWord) : (t.returnTo a).key = t.key := rfl
@[simp] theorem Thread.returnTo_launch (t : Thread) (a : DWord) : (t.returnTo a).launch = t.launch := rfl
@[simp] theorem Thread.returnTo_tid (t : Thread) (a : DWord) : (t.returnTo a).tid = t.tid := rfl
@[simp] theorem Thread.returnTo_pc (t : Thread) (a : DWord) : (t.returnTo a).pc = a := rfl
@[simp] theorem Thread.returnTo_win (t : Thread) (a : DWord) : (t.returnTo a).win = t.win := rfl
@[simp] theorem Thread.returnTo_mode (t : Thread) (a : DWord) : (t.returnTo a).mode = t.mode := rfl
@[simp] theorem Thread.returnTo_picker (t : Thread) (a : DWord) : (t.returnTo a).picker = t.picker := rfl
@[simp] theorem Thread.returnTo_dmr (t : Thread) (a : DWord) : (t.returnTo a).dmr = t.dmr := rfl
@[simp] theorem Thread.returnTo_dmrMiss (t : Thread) (a : DWord) : (t.returnTo a).dmrMiss = false := rfl
@[simp] theorem Thread.returnTo_slot2 (t : Thread) (a : DWord) : (t.returnTo a).slot2 = t.slot2 := rfl
@[simp] theorem Thread.returnTo_cells (t : Thread) (a : DWord) : (t.returnTo a).cells = t.cells := rfl
@[simp] theorem Thread.returnTo_sregs (t : Thread) (a : DWord) : (t.returnTo a).sregs = t.sregs := rfl
@[simp] theorem Thread.returnTo_preds (t : Thread) (a : DWord) : (t.returnTo a).preds = t.preds := rfl
@[simp] theorem Thread.returnTo_crew (t : Thread) (a : DWord) : (t.returnTo a).crew = t.crew := rfl
@[simp] theorem Thread.returnTo_rank (t : Thread) (a : DWord) : (t.returnTo a).rank = t.rank := rfl
@[simp] theorem Thread.returnTo_tile (t : Thread) (a : DWord) : (t.returnTo a).tile = t.tile := rfl
@[simp] theorem Thread.returnTo_prec (t : Thread) (a : DWord) : (t.returnTo a).prec = t.prec := rfl
@[simp] theorem Thread.returnTo_xflags (t : Thread) (a : DWord) : (t.returnTo a).xflags = t.xflags := rfl
@[simp] theorem Thread.returnTo_fcsr (t : Thread) (a : DWord) : (t.returnTo a).fcsr = t.fcsr := rfl
@[simp] theorem Thread.returnTo_ltv (t : Thread) (a : DWord) : (t.returnTo a).ltv = t.ltv := rfl
@[simp] theorem Thread.returnTo_ltc (t : Thread) (a : DWord) : (t.returnTo a).ltc = t.ltc := rfl
@[simp] theorem Thread.returnTo_ltip (t : Thread) (a : DWord) : (t.returnTo a).ltip = t.ltip := rfl
@[simp] theorem Thread.returnTo_ltval (t : Thread) (a : DWord) : (t.returnTo a).ltval = t.ltval := rfl
@[simp] theorem Thread.returnTo_tstate (t : Thread) (a : DWord) : (t.returnTo a).tstate = false := rfl
@[simp] theorem Thread.returnTo_fuel (t : Thread) (a : DWord) : (t.returnTo a).fuel = t.fuel := rfl
@[simp] theorem Thread.returnTo_sig (t : Thread) (a : DWord) : (t.returnTo a).sig = t.sig := rfl
@[simp] theorem Thread.returnTo_sign (t : Thread) (a : DWord) : (t.returnTo a).sign = t.sign := rfl
@[simp] theorem Thread.returnTo_seed (t : Thread) (a : DWord) : (t.returnTo a).seed = t.seed := rfl
@[simp] theorem Thread.returnTo_randN (t : Thread) (a : DWord) : (t.returnTo a).randN = t.randN := rfl
@[simp] theorem Thread.returnTo_cmds (t : Thread) (a : DWord) : (t.returnTo a).cmds = t.cmds := rfl
@[simp] theorem Thread.returnTo_issued (t : Thread) (a : DWord) : (t.returnTo a).issued = t.issued := rfl
@[simp] theorem Thread.returnTo_tickets (t : Thread) (a : DWord) : (t.returnTo a).tickets = t.tickets := rfl
@[simp] theorem Thread.returnTo_park (t : Thread) (a : DWord) : (t.returnTo a).park = t.park := rfl
@[simp] theorem Thread.returnTo_engineDue (t : Thread) (a : DWord) : (t.returnTo a).engineDue = t.engineDue := rfl
@[simp] theorem Thread.returnTo_wait (t : Thread) (a : DWord) : (t.returnTo a).wait = .none := rfl
@[simp] theorem Thread.returnTo_charged (t : Thread) (a : DWord) : (t.returnTo a).charged = false := rfl
@[simp] theorem Thread.returnTo_trial (t : Thread) (a : DWord) : (t.returnTo a).trial = t.trial := rfl
@[simp] theorem Thread.returnTo_arrived (t : Thread) (a : DWord) : (t.returnTo a).arrived = t.arrived := rfl
@[simp] theorem Thread.returnTo_exempt (t : Thread) (a : DWord) : (t.returnTo a).exempt = t.exempt := rfl
@[simp] theorem Thread.returnTo_latch (t : Thread) (a : DWord) : (t.returnTo a).latch = none := rfl
@[simp] theorem Thread.returnTo_gangs (t : Thread) (a : DWord) : (t.returnTo a).gangs = t.gangs := rfl
@[simp] theorem Thread.returnTo_sees (t : Thread) (a : DWord) : (t.returnTo a).sees = t.sees := rfl
@[simp] theorem Thread.returnTo_knows (t : Thread) (a : DWord) : (t.returnTo a).knows = t.knows := rfl
@[simp] theorem Thread.returnTo_conRead (t : Thread) (a : DWord) : (t.returnTo a).conRead = t.conRead := rfl

@[simp] theorem Thread.stickyOr_live (t : Thread) (x : BitVec 6) (f : BitVec 25) : (t.stickyOr x f).live = t.live := rfl
@[simp] theorem Thread.stickyOr_key (t : Thread) (x : BitVec 6) (f : BitVec 25) : (t.stickyOr x f).key = t.key := rfl
@[simp] theorem Thread.stickyOr_launch (t : Thread) (x : BitVec 6) (f : BitVec 25) : (t.stickyOr x f).launch = t.launch := rfl
@[simp] theorem Thread.stickyOr_tid (t : Thread) (x : BitVec 6) (f : BitVec 25) : (t.stickyOr x f).tid = t.tid := rfl
@[simp] theorem Thread.stickyOr_pc (t : Thread) (x : BitVec 6) (f : BitVec 25) : (t.stickyOr x f).pc = t.pc := rfl
@[simp] theorem Thread.stickyOr_win (t : Thread) (x : BitVec 6) (f : BitVec 25) : (t.stickyOr x f).win = t.win := rfl
@[simp] theorem Thread.stickyOr_mode (t : Thread) (x : BitVec 6) (f : BitVec 25) : (t.stickyOr x f).mode = t.mode := rfl
@[simp] theorem Thread.stickyOr_picker (t : Thread) (x : BitVec 6) (f : BitVec 25) : (t.stickyOr x f).picker = t.picker := rfl
@[simp] theorem Thread.stickyOr_dmr (t : Thread) (x : BitVec 6) (f : BitVec 25) : (t.stickyOr x f).dmr = t.dmr := rfl
@[simp] theorem Thread.stickyOr_dmrMiss (t : Thread) (x : BitVec 6) (f : BitVec 25) : (t.stickyOr x f).dmrMiss = t.dmrMiss := rfl
@[simp] theorem Thread.stickyOr_slot2 (t : Thread) (x : BitVec 6) (f : BitVec 25) : (t.stickyOr x f).slot2 = t.slot2 := rfl
@[simp] theorem Thread.stickyOr_cells (t : Thread) (x : BitVec 6) (f : BitVec 25) : (t.stickyOr x f).cells = t.cells := rfl
@[simp] theorem Thread.stickyOr_sregs (t : Thread) (x : BitVec 6) (f : BitVec 25) : (t.stickyOr x f).sregs = t.sregs := rfl
@[simp] theorem Thread.stickyOr_preds (t : Thread) (x : BitVec 6) (f : BitVec 25) : (t.stickyOr x f).preds = t.preds := rfl
@[simp] theorem Thread.stickyOr_crew (t : Thread) (x : BitVec 6) (f : BitVec 25) : (t.stickyOr x f).crew = t.crew := rfl
@[simp] theorem Thread.stickyOr_rank (t : Thread) (x : BitVec 6) (f : BitVec 25) : (t.stickyOr x f).rank = t.rank := rfl
@[simp] theorem Thread.stickyOr_tile (t : Thread) (x : BitVec 6) (f : BitVec 25) : (t.stickyOr x f).tile = t.tile := rfl
@[simp] theorem Thread.stickyOr_prec (t : Thread) (x : BitVec 6) (f : BitVec 25) : (t.stickyOr x f).prec = t.prec := rfl
@[simp] theorem Thread.stickyOr_xflags (t : Thread) (x : BitVec 6) (f : BitVec 25) : (t.stickyOr x f).xflags = t.xflags ||| x := rfl
@[simp] theorem Thread.stickyOr_fcsr (t : Thread) (x : BitVec 6) (f : BitVec 25) : (t.stickyOr x f).fcsr = t.fcsr ||| f := rfl
@[simp] theorem Thread.stickyOr_ltv (t : Thread) (x : BitVec 6) (f : BitVec 25) : (t.stickyOr x f).ltv = t.ltv := rfl
@[simp] theorem Thread.stickyOr_ltc (t : Thread) (x : BitVec 6) (f : BitVec 25) : (t.stickyOr x f).ltc = t.ltc := rfl
@[simp] theorem Thread.stickyOr_ltip (t : Thread) (x : BitVec 6) (f : BitVec 25) : (t.stickyOr x f).ltip = t.ltip := rfl
@[simp] theorem Thread.stickyOr_ltval (t : Thread) (x : BitVec 6) (f : BitVec 25) : (t.stickyOr x f).ltval = t.ltval := rfl
@[simp] theorem Thread.stickyOr_tstate (t : Thread) (x : BitVec 6) (f : BitVec 25) : (t.stickyOr x f).tstate = t.tstate := rfl
@[simp] theorem Thread.stickyOr_fuel (t : Thread) (x : BitVec 6) (f : BitVec 25) : (t.stickyOr x f).fuel = t.fuel := rfl
@[simp] theorem Thread.stickyOr_sig (t : Thread) (x : BitVec 6) (f : BitVec 25) : (t.stickyOr x f).sig = t.sig := rfl
@[simp] theorem Thread.stickyOr_sign (t : Thread) (x : BitVec 6) (f : BitVec 25) : (t.stickyOr x f).sign = t.sign := rfl
@[simp] theorem Thread.stickyOr_seed (t : Thread) (x : BitVec 6) (f : BitVec 25) : (t.stickyOr x f).seed = t.seed := rfl
@[simp] theorem Thread.stickyOr_randN (t : Thread) (x : BitVec 6) (f : BitVec 25) : (t.stickyOr x f).randN = t.randN := rfl
@[simp] theorem Thread.stickyOr_cmds (t : Thread) (x : BitVec 6) (f : BitVec 25) : (t.stickyOr x f).cmds = t.cmds := rfl
@[simp] theorem Thread.stickyOr_issued (t : Thread) (x : BitVec 6) (f : BitVec 25) : (t.stickyOr x f).issued = t.issued := rfl
@[simp] theorem Thread.stickyOr_tickets (t : Thread) (x : BitVec 6) (f : BitVec 25) : (t.stickyOr x f).tickets = t.tickets := rfl
@[simp] theorem Thread.stickyOr_park (t : Thread) (x : BitVec 6) (f : BitVec 25) : (t.stickyOr x f).park = t.park := rfl
@[simp] theorem Thread.stickyOr_engineDue (t : Thread) (x : BitVec 6) (f : BitVec 25) : (t.stickyOr x f).engineDue = t.engineDue := rfl
@[simp] theorem Thread.stickyOr_wait (t : Thread) (x : BitVec 6) (f : BitVec 25) : (t.stickyOr x f).wait = t.wait := rfl
@[simp] theorem Thread.stickyOr_charged (t : Thread) (x : BitVec 6) (f : BitVec 25) : (t.stickyOr x f).charged = t.charged := rfl
@[simp] theorem Thread.stickyOr_trial (t : Thread) (x : BitVec 6) (f : BitVec 25) : (t.stickyOr x f).trial = t.trial := rfl
@[simp] theorem Thread.stickyOr_arrived (t : Thread) (x : BitVec 6) (f : BitVec 25) : (t.stickyOr x f).arrived = t.arrived := rfl
@[simp] theorem Thread.stickyOr_exempt (t : Thread) (x : BitVec 6) (f : BitVec 25) : (t.stickyOr x f).exempt = t.exempt := rfl
@[simp] theorem Thread.stickyOr_latch (t : Thread) (x : BitVec 6) (f : BitVec 25) : (t.stickyOr x f).latch = t.latch := rfl
@[simp] theorem Thread.stickyOr_gangs (t : Thread) (x : BitVec 6) (f : BitVec 25) : (t.stickyOr x f).gangs = t.gangs := rfl
@[simp] theorem Thread.stickyOr_sees (t : Thread) (x : BitVec 6) (f : BitVec 25) : (t.stickyOr x f).sees = t.sees := rfl
@[simp] theorem Thread.stickyOr_knows (t : Thread) (x : BitVec 6) (f : BitVec 25) : (t.stickyOr x f).knows = t.knows := rfl
@[simp] theorem Thread.stickyOr_conRead (t : Thread) (x : BitVec 6) (f : BitVec 25) : (t.stickyOr x f).conRead = t.conRead := rfl

@[simp] theorem Thread.foldSig_live (t : Thread) (x : DWord) : (t.foldSig x).live = t.live := rfl
@[simp] theorem Thread.foldSig_key (t : Thread) (x : DWord) : (t.foldSig x).key = t.key := rfl
@[simp] theorem Thread.foldSig_launch (t : Thread) (x : DWord) : (t.foldSig x).launch = t.launch := rfl
@[simp] theorem Thread.foldSig_tid (t : Thread) (x : DWord) : (t.foldSig x).tid = t.tid := rfl
@[simp] theorem Thread.foldSig_pc (t : Thread) (x : DWord) : (t.foldSig x).pc = t.pc := rfl
@[simp] theorem Thread.foldSig_win (t : Thread) (x : DWord) : (t.foldSig x).win = t.win := rfl
@[simp] theorem Thread.foldSig_mode (t : Thread) (x : DWord) : (t.foldSig x).mode = t.mode := rfl
@[simp] theorem Thread.foldSig_picker (t : Thread) (x : DWord) : (t.foldSig x).picker = t.picker := rfl
@[simp] theorem Thread.foldSig_dmr (t : Thread) (x : DWord) : (t.foldSig x).dmr = t.dmr := rfl
@[simp] theorem Thread.foldSig_dmrMiss (t : Thread) (x : DWord) : (t.foldSig x).dmrMiss = t.dmrMiss := rfl
@[simp] theorem Thread.foldSig_slot2 (t : Thread) (x : DWord) : (t.foldSig x).slot2 = t.slot2 := rfl
@[simp] theorem Thread.foldSig_cells (t : Thread) (x : DWord) : (t.foldSig x).cells = t.cells := rfl
@[simp] theorem Thread.foldSig_sregs (t : Thread) (x : DWord) : (t.foldSig x).sregs = t.sregs := rfl
@[simp] theorem Thread.foldSig_preds (t : Thread) (x : DWord) : (t.foldSig x).preds = t.preds := rfl
@[simp] theorem Thread.foldSig_crew (t : Thread) (x : DWord) : (t.foldSig x).crew = t.crew := rfl
@[simp] theorem Thread.foldSig_rank (t : Thread) (x : DWord) : (t.foldSig x).rank = t.rank := rfl
@[simp] theorem Thread.foldSig_tile (t : Thread) (x : DWord) : (t.foldSig x).tile = t.tile := rfl
@[simp] theorem Thread.foldSig_prec (t : Thread) (x : DWord) : (t.foldSig x).prec = t.prec := rfl
@[simp] theorem Thread.foldSig_xflags (t : Thread) (x : DWord) : (t.foldSig x).xflags = t.xflags := rfl
@[simp] theorem Thread.foldSig_fcsr (t : Thread) (x : DWord) : (t.foldSig x).fcsr = t.fcsr := rfl
@[simp] theorem Thread.foldSig_ltv (t : Thread) (x : DWord) : (t.foldSig x).ltv = t.ltv := rfl
@[simp] theorem Thread.foldSig_ltc (t : Thread) (x : DWord) : (t.foldSig x).ltc = t.ltc := rfl
@[simp] theorem Thread.foldSig_ltip (t : Thread) (x : DWord) : (t.foldSig x).ltip = t.ltip := rfl
@[simp] theorem Thread.foldSig_ltval (t : Thread) (x : DWord) : (t.foldSig x).ltval = t.ltval := rfl
@[simp] theorem Thread.foldSig_tstate (t : Thread) (x : DWord) : (t.foldSig x).tstate = t.tstate := rfl
@[simp] theorem Thread.foldSig_fuel (t : Thread) (x : DWord) : (t.foldSig x).fuel = t.fuel := rfl
@[simp] theorem Thread.foldSig_sig (t : Thread) (x : DWord) : (t.foldSig x).sig = (t.sig.rotateLeft 13) ^^^ x := rfl
@[simp] theorem Thread.foldSig_sign (t : Thread) (x : DWord) : (t.foldSig x).sign = t.sign + 1 := rfl
@[simp] theorem Thread.foldSig_seed (t : Thread) (x : DWord) : (t.foldSig x).seed = t.seed := rfl
@[simp] theorem Thread.foldSig_randN (t : Thread) (x : DWord) : (t.foldSig x).randN = t.randN := rfl
@[simp] theorem Thread.foldSig_cmds (t : Thread) (x : DWord) : (t.foldSig x).cmds = t.cmds := rfl
@[simp] theorem Thread.foldSig_issued (t : Thread) (x : DWord) : (t.foldSig x).issued = t.issued := rfl
@[simp] theorem Thread.foldSig_tickets (t : Thread) (x : DWord) : (t.foldSig x).tickets = t.tickets := rfl
@[simp] theorem Thread.foldSig_park (t : Thread) (x : DWord) : (t.foldSig x).park = t.park := rfl
@[simp] theorem Thread.foldSig_engineDue (t : Thread) (x : DWord) : (t.foldSig x).engineDue = t.engineDue := rfl
@[simp] theorem Thread.foldSig_wait (t : Thread) (x : DWord) : (t.foldSig x).wait = t.wait := rfl
@[simp] theorem Thread.foldSig_charged (t : Thread) (x : DWord) : (t.foldSig x).charged = t.charged := rfl
@[simp] theorem Thread.foldSig_trial (t : Thread) (x : DWord) : (t.foldSig x).trial = t.trial := rfl
@[simp] theorem Thread.foldSig_arrived (t : Thread) (x : DWord) : (t.foldSig x).arrived = t.arrived := rfl
@[simp] theorem Thread.foldSig_exempt (t : Thread) (x : DWord) : (t.foldSig x).exempt = t.exempt := rfl
@[simp] theorem Thread.foldSig_latch (t : Thread) (x : DWord) : (t.foldSig x).latch = t.latch := rfl
@[simp] theorem Thread.foldSig_gangs (t : Thread) (x : DWord) : (t.foldSig x).gangs = t.gangs := rfl
@[simp] theorem Thread.foldSig_sees (t : Thread) (x : DWord) : (t.foldSig x).sees = t.sees := rfl
@[simp] theorem Thread.foldSig_knows (t : Thread) (x : DWord) : (t.foldSig x).knows = t.knows := rfl
@[simp] theorem Thread.foldSig_conRead (t : Thread) (x : DWord) : (t.foldSig x).conRead = t.conRead := rfl

/-! ### Updates of a context -/

@[simp] theorem Ctx.setRegion_part (c : Ctx) (r : Region) : (c.setRegion r).part = c.part := rfl
@[simp] theorem Ctx.setRegion_core (c : Ctx) (r : Region) : (c.setRegion r).core = c.core := rfl
@[simp] theorem Ctx.setRegion_startq (c : Ctx) (r : Region) : (c.setRegion r).startq = c.startq := rfl
@[simp] theorem Ctx.setRegion_resvs (c : Ctx) (r : Region) : (c.setRegion r).resvs = c.resvs := rfl
@[simp] theorem Ctx.setRegion_crews (c : Ctx) (r : Region) : (c.setRegion r).crews = c.crews := rfl
@[simp] theorem Ctx.setRegion_rvs (c : Ctx) (r : Region) : (c.setRegion r).rvs = c.rvs := rfl
@[simp] theorem Ctx.setRegion_bank (c : Ctx) (r : Region) : (c.setRegion r).bank = c.bank := rfl
@[simp] theorem Ctx.setRegion_bankOld (c : Ctx) (r : Region) : (c.setRegion r).bankOld = c.bankOld := rfl
@[simp] theorem Ctx.setRegion_bankShown (c : Ctx) (r : Region) : (c.setRegion r).bankShown = c.bankShown := rfl
@[simp] theorem Ctx.setRegion_mxq (c : Ctx) (r : Region) : (c.setRegion r).mxq = c.mxq := rfl
@[simp] theorem Ctx.setRegion_mxRun (c : Ctx) (r : Region) : (c.setRegion r).mxRun = c.mxRun := rfl
@[simp] theorem Ctx.setRegion_mxSpill (c : Ctx) (r : Region) : (c.setRegion r).mxSpill = c.mxSpill := rfl
@[simp] theorem Ctx.setRegion_cpq (c : Ctx) (r : Region) : (c.setRegion r).cpq = c.cpq := rfl
@[simp] theorem Ctx.setRegion_selq (c : Ctx) (r : Region) : (c.setRegion r).selq = c.selq := rfl
@[simp] theorem Ctx.setRegion_lookups (c : Ctx) (r : Region) : (c.setRegion r).lookups = c.lookups := rfl
@[simp] theorem Ctx.setRegion_filter (c : Ctx) (r : Region) : (c.setRegion r).filter = c.filter := rfl
@[simp] theorem Ctx.setRegion_l1 (c : Ctx) (r : Region) : (c.setRegion r).l1 = c.l1 := rfl
@[simp] theorem Ctx.setRegion_con (c : Ctx) (r : Region) : (c.setRegion r).con = c.con := rfl
@[simp] theorem Ctx.setRegion_icache (c : Ctx) (r : Region) : (c.setRegion r).icache = c.icache := rfl
@[simp] theorem Ctx.setRegion_wc (c : Ctx) (r : Region) : (c.setRegion r).wc = c.wc := rfl
@[simp] theorem Ctx.setRegion_outq (c : Ctx) (r : Region) : (c.setRegion r).outq = c.outq := rfl
@[simp] theorem Ctx.setRegion_late (c : Ctx) (r : Region) : (c.setRegion r).late = c.late := rfl
@[simp] theorem Ctx.setRegion_ahead (c : Ctx) (r : Region) : (c.setRegion r).ahead = c.ahead := rfl
@[simp] theorem Ctx.setRegion_tlb (c : Ctx) (r : Region) : (c.setRegion r).tlb = c.tlb := rfl
@[simp] theorem Ctx.setRegion_utlb (c : Ctx) (r : Region) : (c.setRegion r).utlb = c.utlb := rfl
@[simp] theorem Ctx.setRegion_pickers (c : Ctx) (r : Region) : (c.setRegion r).pickers = c.pickers := rfl
@[simp] theorem Ctx.setRegion_exited (c : Ctx) (r : Region) : (c.setRegion r).exited = c.exited := rfl

@[simp] theorem refreshCtx_part (s : State) (c : Ctx) : (refreshCtx s c).part = c.part := rfl
@[simp] theorem refreshCtx_core (s : State) (c : Ctx) : (refreshCtx s c).core = c.core := rfl
@[simp] theorem refreshCtx_startq (s : State) (c : Ctx) : (refreshCtx s c).startq = c.startq := rfl
@[simp] theorem refreshCtx_regions (s : State) (c : Ctx) : (refreshCtx s c).regions = c.regions := rfl
@[simp] theorem refreshCtx_resvs (s : State) (c : Ctx) : (refreshCtx s c).resvs = c.resvs := rfl
@[simp] theorem refreshCtx_crews (s : State) (c : Ctx) : (refreshCtx s c).crews = c.crews := rfl
@[simp] theorem refreshCtx_rvs (s : State) (c : Ctx) : (refreshCtx s c).rvs = c.rvs := rfl
@[simp] theorem refreshCtx_bank (s : State) (c : Ctx) : (refreshCtx s c).bank = c.bank := rfl
@[simp] theorem refreshCtx_bankOld (s : State) (c : Ctx) : (refreshCtx s c).bankOld = c.bankOld := rfl
@[simp] theorem refreshCtx_bankShown (s : State) (c : Ctx) : (refreshCtx s c).bankShown = c.bankShown := rfl
@[simp] theorem refreshCtx_mxq (s : State) (c : Ctx) : (refreshCtx s c).mxq = c.mxq := rfl
@[simp] theorem refreshCtx_mxRun (s : State) (c : Ctx) : (refreshCtx s c).mxRun = c.mxRun := rfl
@[simp] theorem refreshCtx_mxSpill (s : State) (c : Ctx) : (refreshCtx s c).mxSpill = c.mxSpill := rfl
@[simp] theorem refreshCtx_cpq (s : State) (c : Ctx) : (refreshCtx s c).cpq = c.cpq := rfl
@[simp] theorem refreshCtx_selq (s : State) (c : Ctx) : (refreshCtx s c).selq = c.selq := rfl
@[simp] theorem refreshCtx_lookups (s : State) (c : Ctx) : (refreshCtx s c).lookups = c.lookups := rfl
@[simp] theorem refreshCtx_filter (s : State) (c : Ctx) : (refreshCtx s c).filter = c.filter := rfl
@[simp] theorem refreshCtx_l1 (s : State) (c : Ctx) : (refreshCtx s c).l1 = c.l1 := rfl
@[simp] theorem refreshCtx_con (s : State) (c : Ctx) : (refreshCtx s c).con = c.con := rfl
@[simp] theorem refreshCtx_icache (s : State) (c : Ctx) : (refreshCtx s c).icache = c.icache := rfl
@[simp] theorem refreshCtx_wc (s : State) (c : Ctx) : (refreshCtx s c).wc = c.wc := rfl
@[simp] theorem refreshCtx_outq (s : State) (c : Ctx) : (refreshCtx s c).outq = c.outq := rfl
@[simp] theorem refreshCtx_late (s : State) (c : Ctx) : (refreshCtx s c).late = c.late := rfl
@[simp] theorem refreshCtx_ahead (s : State) (c : Ctx) : (refreshCtx s c).ahead = c.ahead := rfl
@[simp] theorem refreshCtx_tlb (s : State) (c : Ctx) : (refreshCtx s c).tlb = c.tlb := rfl
@[simp] theorem refreshCtx_utlb (s : State) (c : Ctx) : (refreshCtx s c).utlb = c.utlb := rfl
@[simp] theorem refreshCtx_exited (s : State) (c : Ctx) : (refreshCtx s c).exited = c.exited := rfl

@[simp] theorem Ctx.afterWrite_part (c : Ctx) (own : Bool) (m : Memory) (k : Nat) : (c.afterWrite own m k).part = c.part := rfl
@[simp] theorem Ctx.afterWrite_core (c : Ctx) (own : Bool) (m : Memory) (k : Nat) : (c.afterWrite own m k).core = c.core := rfl
@[simp] theorem Ctx.afterWrite_startq (c : Ctx) (own : Bool) (m : Memory) (k : Nat) : (c.afterWrite own m k).startq = c.startq := rfl
@[simp] theorem Ctx.afterWrite_regions (c : Ctx) (own : Bool) (m : Memory) (k : Nat) : (c.afterWrite own m k).regions = c.regions := rfl
@[simp] theorem Ctx.afterWrite_resvs (c : Ctx) (own : Bool) (m : Memory) (k : Nat) : (c.afterWrite own m k).resvs = c.resvs := rfl
@[simp] theorem Ctx.afterWrite_crews (c : Ctx) (own : Bool) (m : Memory) (k : Nat) : (c.afterWrite own m k).crews = c.crews := rfl
@[simp] theorem Ctx.afterWrite_rvs (c : Ctx) (own : Bool) (m : Memory) (k : Nat) : (c.afterWrite own m k).rvs = c.rvs := rfl
@[simp] theorem Ctx.afterWrite_bank (c : Ctx) (own : Bool) (m : Memory) (k : Nat) : (c.afterWrite own m k).bank = c.bank := rfl
@[simp] theorem Ctx.afterWrite_bankOld (c : Ctx) (own : Bool) (m : Memory) (k : Nat) : (c.afterWrite own m k).bankOld = c.bankOld := rfl
@[simp] theorem Ctx.afterWrite_bankShown (c : Ctx) (own : Bool) (m : Memory) (k : Nat) : (c.afterWrite own m k).bankShown = c.bankShown := rfl
@[simp] theorem Ctx.afterWrite_mxq (c : Ctx) (own : Bool) (m : Memory) (k : Nat) : (c.afterWrite own m k).mxq = c.mxq := rfl
@[simp] theorem Ctx.afterWrite_mxRun (c : Ctx) (own : Bool) (m : Memory) (k : Nat) : (c.afterWrite own m k).mxRun = c.mxRun := rfl
@[simp] theorem Ctx.afterWrite_mxSpill (c : Ctx) (own : Bool) (m : Memory) (k : Nat) : (c.afterWrite own m k).mxSpill = c.mxSpill := rfl
@[simp] theorem Ctx.afterWrite_cpq (c : Ctx) (own : Bool) (m : Memory) (k : Nat) : (c.afterWrite own m k).cpq = c.cpq := rfl
@[simp] theorem Ctx.afterWrite_selq (c : Ctx) (own : Bool) (m : Memory) (k : Nat) : (c.afterWrite own m k).selq = c.selq := rfl
@[simp] theorem Ctx.afterWrite_lookups (c : Ctx) (own : Bool) (m : Memory) (k : Nat) : (c.afterWrite own m k).lookups = c.lookups := rfl
@[simp] theorem Ctx.afterWrite_filter (c : Ctx) (own : Bool) (m : Memory) (k : Nat) : (c.afterWrite own m k).filter = c.filter := rfl
@[simp] theorem Ctx.afterWrite_wc (c : Ctx) (own : Bool) (m : Memory) (k : Nat) : (c.afterWrite own m k).wc = c.wc := rfl
@[simp] theorem Ctx.afterWrite_outq (c : Ctx) (own : Bool) (m : Memory) (k : Nat) : (c.afterWrite own m k).outq = c.outq := rfl
@[simp] theorem Ctx.afterWrite_ahead (c : Ctx) (own : Bool) (m : Memory) (k : Nat) : (c.afterWrite own m k).ahead = c.ahead := rfl
@[simp] theorem Ctx.afterWrite_tlb (c : Ctx) (own : Bool) (m : Memory) (k : Nat) : (c.afterWrite own m k).tlb = c.tlb := rfl
@[simp] theorem Ctx.afterWrite_utlb (c : Ctx) (own : Bool) (m : Memory) (k : Nat) : (c.afterWrite own m k).utlb = c.utlb := rfl
@[simp] theorem Ctx.afterWrite_pickers (c : Ctx) (own : Bool) (m : Memory) (k : Nat) : (c.afterWrite own m k).pickers = c.pickers := rfl
@[simp] theorem Ctx.afterWrite_exited (c : Ctx) (own : Bool) (m : Memory) (k : Nat) : (c.afterWrite own m k).exited = c.exited := rfl

end Sys2Proof.Machine
end

