-- ==== Sys2Proof/Laws/Frame.lean ====
section
/-!
SUPPORT. Sys2Proof/Laws/Frame.lean: the frame in which every instruction runs: when it completes, when it does not, and everything
that `enter`, `run`, `runTh`, `runJump` and `runHeld` can answer.
-/
namespace Sys2Proof.Machine

/-! ### The charge (R347) -/

@[simp] theorem Thread.charge_plain (t : Thread) (i : Instr) (h : t.trial = none) : t.charge i = some t := by
  simp [Thread.charge, h]

/-- A charge changes FUEL and its own mark, nothing else. -/
theorem Thread.charge_cases {t t' : Thread} {i : Instr} (h : t.charge i = some t') :
    t' = t ∨ t' = { t with fuel := t.fuel - BitVec.ofNat 64 (fuelCost t i), charged := true } := by
  unfold Thread.charge at h
  split at h
  · exact .inl (by simpa using h.symm)
  · split at h
    · cases h
    · exact .inr (by simpa using h.symm)

theorem Thread.guard_charge {t t' : Thread} {i j : Instr} (h : t.charge i = some t') : t'.guard j = t.guard j := by
  rcases Thread.charge_cases h with rfl | rfl <;> rfl

/-! ### What the frame answers -/

/-- Everything that `enter` answers: ILL for a register beyond the window, a trial out of fuel, a false guard, a step that ends a
trial, or the instruction's own effect. -/
theorem enter_cases {i : Instr} {s s' : State} {k : State → State} (h : enter i s k = .next s') :
    (s.th.regsOk i = false ∧ s' = stopped s (ill i 3)) ∨
    (s.th.regsOk i = true ∧ s.th.charge i = none ∧ s' = s.setTh s.th.starve) ∨
    ∃ t, s.th.regsOk i = true ∧ s.th.charge i = some t ∧
      ((t.guard i = false ∧ s' = (s.setTh t).advance i.length) ∨
       (t.guard i = true ∧ (t.trial.isSome && trialForbidden i) = true ∧ s' = endTrial (s.setTh t) 10) ∨
       (t.guard i = true ∧ (t.trial.isSome && trialForbidden i) = false ∧ s' = k (s.setTh t))) := by
  unfold enter at h
  cases hr : s.th.regsOk i with
  | false => simp [hr] at h; exact .inl ⟨rfl, h.symm⟩
  | true =>
    simp only [hr] at h
    cases hc : s.th.charge i with
    | none => simp [hc] at h; exact .inr (.inl ⟨rfl, rfl, h.symm⟩)
    | some t =>
      refine .inr (.inr ⟨t, rfl, rfl, ?_⟩)
      simp only [hc, State.setTh_th] at h
      cases hg : t.guard i with
      | false => simp [hg] at h; exact .inl ⟨rfl, h.symm⟩
      | true =>
        simp only [hg] at h
        cases hf : (t.trial.isSome && trialForbidden i) with
        | true => simp [hf] at h; exact .inr (.inl ⟨rfl, rfl, h.symm⟩)
        | false => simp [hf] at h; exact .inr (.inr ⟨rfl, rfl, h.symm⟩)

theorem enter_of_entered {i : Instr} {s : State} {t : Thread} (h : Entered i s t) (k : State → State) :
    enter i s k = .next (k (s.setTh t)) := by
  unfold enter
  simp [h.regs, h.paid, h.guarded, h.allowed]

/-- A false guard: the thread goes on after the instruction (R141). -/
theorem enter_of_unguarded {i : Instr} {s : State} {t : Thread} (hr : s.th.regsOk i = true) (hc : s.th.charge i = some t)
    (hg : t.guard i = false) (k : State → State) : enter i s k = .next ((s.setTh t).advance i.length) := by
  unfold enter
  simp [hr, hc, hg]

theorem enter_of_outside {i : Instr} {s : State} (hr : s.th.regsOk i = false) (k : State → State) :
    enter i s k = .next (stopped s (ill i 3)) := by
  unfold enter
  simp [hr]

theorem run_ok {i : Instr} {s s' : State} {t : Thread} {body : State → Except Stop State} (h : Entered i s t)
    (hb : body (s.setTh t) = .ok s') : run i s body = .next (s'.advance i.length) := by
  unfold run; rw [enter_of_entered h, hb]

theorem run_error {i : Instr} {s : State} {t : Thread} {body : State → Except Stop State} {e : Stop} (h : Entered i s t)
    (hb : body (s.setTh t) = .error e) : run i s body = .next (stopped (s.setTh t) e) := by
  unfold run; rw [enter_of_entered h, hb]

theorem runTh_ok {i : Instr} {s : State} {t u : Thread} {body : Thread → Except Stop Thread} (h : Entered i s t)
    (hb : body t = .ok u) : runTh i s body = .next (s.setTh (u.past i.length)) := by
  unfold runTh; rw [enter_of_entered h]; simp only [State.setTh_th, hb]; rfl

theorem runTh_error {i : Instr} {s : State} {t : Thread} {body : Thread → Except Stop Thread} {e : Stop} (h : Entered i s t)
    (hb : body t = .error e) : runTh i s body = .next (stopped (s.setTh t) e) := by
  unfold runTh; rw [enter_of_entered h]; simp only [State.setTh_th, hb]

theorem runJump_ok {i : Instr} {s s' : State} {t : Thread} {body : State → Except Stop State} (h : Entered i s t)
    (hb : body (s.setTh t) = .ok s') : runJump i s body = .next s'.settled := by
  unfold runJump; rw [enter_of_entered h, hb]

theorem runJump_error {i : Instr} {s : State} {t : Thread} {body : State → Except Stop State} {e : Stop} (h : Entered i s t)
    (hb : body (s.setTh t) = .error e) : runJump i s body = .next (stopped (s.setTh t) e) := by
  unfold runJump; rw [enter_of_entered h, hb]

theorem runHeld_ok {i : Instr} {s s' : State} {t : Thread} {body : State → Except Stop State} (h : Entered i s t)
    (hb : body (s.setTh t) = .ok s') : runHeld i s body = .next s' := by
  unfold runHeld; rw [enter_of_entered h, hb]

theorem runHeld_error {i : Instr} {s : State} {t : Thread} {body : State → Except Stop State} {e : Stop} (h : Entered i s t)
    (hb : body (s.setTh t) = .error e) : runHeld i s body = .next (stopped (s.setTh t) e) := by
  unfold runHeld; rw [enter_of_entered h, hb]

/-- Everything that an instruction of the thread alone answers: it completes on its thread alone, or it does not complete. -/
theorem runTh_cases {i : Instr} {s s' : State} {body : Thread → Except Stop Thread} (h : runTh i s body = .next s') :
    (∃ t u, Entered i s t ∧ body t = .ok u ∧ s' = s.setTh (u.past i.length)) ∨
    (∃ t e, Entered i s t ∧ body t = .error e ∧ s' = stopped (s.setTh t) e) ∨
    (s.th.regsOk i = false ∧ s' = stopped s (ill i 3)) ∨
    (s.th.charge i = none ∧ s' = s.setTh s.th.starve) ∨
    (∃ t, s.th.charge i = some t ∧ t.guard i = false ∧ s' = s.setTh (t.past i.length)) ∨
    ∃ t, s.th.charge i = some t ∧ s' = endTrial (s.setTh t) 10 := by
  rcases enter_cases h with ⟨hr, e⟩ | ⟨_, hc, e⟩ | ⟨t, hr, hc, ⟨hg, e⟩ | ⟨hg, hf, e⟩ | ⟨hg, hf, e⟩⟩
  · exact .inr (.inr (.inl ⟨hr, e⟩))
  · exact .inr (.inr (.inr (.inl ⟨hc, e⟩)))
  · exact .inr (.inr (.inr (.inr (.inl ⟨t, hc, hg, e⟩))))
  · exact .inr (.inr (.inr (.inr (.inr ⟨t, hc, e⟩))))
  · simp only [State.setTh_th] at e
    cases hb : body t with
    | ok u => exact .inl ⟨t, u, ⟨hr, hc, hg, hf⟩, hb, by rw [hb] at e; exact e⟩
    | error x => exact .inr (.inl ⟨t, x, ⟨hr, hc, hg, hf⟩, hb, by rw [hb] at e; exact e⟩)

/-! ### Events -/

@[simp] theorem whenEnabled_true (s s' : State) : whenEnabled true s s' = .next s' := rfl

@[simp] theorem whenEnabled_false (s s' : State) : whenEnabled false s s' = .next s := rfl

/-- An event changes nothing, or its conditions hold and it has its effect. -/
theorem whenEnabled_cases {c : Bool} {s s' u : State} (h : whenEnabled c s s' = .next u) :
    (c = false ∧ u = s) ∨ (c = true ∧ u = s') := by
  cases c with
  | false => exact .inl ⟨rfl, by simpa using h.symm⟩
  | true => exact .inr ⟨rfl, by simpa using h.symm⟩

end Sys2Proof.Machine
end

