-- ==== Sys2Proof/Laws/Memory.lean ====
section
/-!
SUPPORT. Sys2Proof/Laws/Memory.lean: sparse stores: a read after a write, and that every operation keeps the canonical form.
-/
namespace Sys2Proof.Machine

/-- Every key of a store lies above a bound. -/
def keysAbove {w : Nat} (n : Nat) (m : List (Nat × BitVec w)) : Prop := ∀ x ∈ m, n < x.1

theorem swf_cons {w : Nat} (a : Nat) (v : BitVec w) (rest : List (Nat × BitVec w)) :
    swf ((a, v) :: rest) = true ↔ v ≠ 0#w ∧ keysAbove a rest ∧ swf rest = true := by
  induction rest generalizing a v with
  | nil => simp [swf, keysAbove]
  | cons x rest ih =>
    obtain ⟨b, u⟩ := x
    have h := ih b u
    constructor
    · intro hw
      simp only [swf, Bool.and_eq_true, decide_eq_true_eq, bne_iff_ne, ne_eq] at hw
      refine ⟨hw.1.1, ?_, hw.2⟩
      intro y hy
      rcases List.mem_cons.1 hy with rfl | hy
      · exact hw.1.2
      · exact Nat.lt_trans hw.1.2 ((h.1 hw.2).2.1 y hy)
    · rintro ⟨hv, hk, hr⟩
      simp only [swf, Bool.and_eq_true, decide_eq_true_eq, bne_iff_ne, ne_eq]
      exact ⟨⟨hv, hk _ (List.mem_cons_self ..)⟩, hr⟩

theorem swf_tail {w : Nat} {x : Nat × BitVec w} {rest : List (Nat × BitVec w)} (h : swf (x :: rest) = true) :
    swf rest = true := ((swf_cons x.1 x.2 rest).1 h).2.2

/-- A key below every listed one reads 0. -/
theorem sget_below {w : Nat} (m : List (Nat × BitVec w)) (k : Nat) (h : keysAbove k m) : sget m k = 0#w := by
  cases m with
  | nil => rfl
  | cons x rest =>
    have := h x (List.mem_cons_self ..)
    simp only [sget]
    rw [if_neg (by omega), if_pos this]

theorem keysAbove_sset {w : Nat} (m : List (Nat × BitVec w)) (n k : Nat) (v : BitVec w) (hk : n < k) (h : keysAbove n m) :
    keysAbove n (sset m k v) := by
  induction m with
  | nil => intro x hx; simp only [sset] at hx; split at hx <;> simp at hx; subst hx; exact hk
  | cons y rest ih =>
    obtain ⟨a, u⟩ := y
    have hy := h (a, u) (List.mem_cons_self ..)
    have hr : keysAbove n rest := fun x hx => h x (List.mem_cons_of_mem _ hx)
    intro x hx
    simp only [sset] at hx
    split at hx
    · split at hx
      · exact h x hx
      · rcases List.mem_cons.1 hx with rfl | hx
        · exact hk
        · exact h x hx
    · split at hx
      · split at hx
        · exact hr x hx
        · rcases List.mem_cons.1 hx with rfl | hx
          · exact hk
          · exact hr x hx
      · rcases List.mem_cons.1 hx with rfl | hx
        · exact hy
        · exact ih hr x hx

/-- A store keeps the canonical form. -/
theorem swf_sset {w : Nat} (m : List (Nat × BitVec w)) (k : Nat) (v : BitVec w) (h : swf m = true) : swf (sset m k v) = true := by
  induction m with
  | nil => simp only [sset]; split <;> simp_all [swf]
  | cons x rest ih =>
    obtain ⟨a, u⟩ := x
    have hx := (swf_cons a u rest).1 h
    simp only [sset]
    split
    · split
      · exact h
      · rename_i hka hv
        exact (swf_cons _ _ _).2 ⟨hv, fun y hy => (List.mem_cons.1 hy).elim (fun e => e ▸ hka) fun hy => by
          have := hx.2.1 y hy; omega, h⟩
    · split
      · split
        · exact hx.2.2
        · rename_i hka hv; subst hka; exact (swf_cons _ _ _).2 ⟨hv, hx.2.1, hx.2.2⟩
      · exact (swf_cons _ _ _).2 ⟨hx.1, keysAbove_sset rest a k v (by omega) hx.2.1, ih hx.2.2⟩

/-- A read of the key just stored gives the value stored. -/
@[simp] theorem sget_sset_same {w : Nat} (m : List (Nat × BitVec w)) (k : Nat) (v : BitVec w) (h : swf m = true) :
    sget (sset m k v) k = v := by
  induction m with
  | nil => simp only [sset]; split <;> simp_all [sget]
  | cons x rest ih =>
    obtain ⟨a, u⟩ := x
    have hx := (swf_cons a u rest).1 h
    simp only [sset]
    split
    · split
      · rename_i hka hv; simp only [sget]; rw [if_neg (by omega), if_pos hka, hv]
      · simp [sget]
    · split
      · rename_i hka; subst hka
        split
        · rename_i hv; rw [sget_below rest k hx.2.1, hv]
        · simp [sget]
      · simp only [sget]; rw [if_neg (by omega), if_neg (by omega)]; exact ih hx.2.2

/-- A store leaves every other key alone. -/
theorem sget_sset_ne {w : Nat} (m : List (Nat × BitVec w)) (k j : Nat) (v : BitVec w) (h : swf m = true) (hj : j ≠ k) :
    sget (sset m k v) j = sget m j := by
  induction m with
  | nil => simp only [sset]; split <;> simp [sget, hj]
  | cons x rest ih =>
    obtain ⟨a, u⟩ := x
    have hx := (swf_cons a u rest).1 h
    simp only [sset]
    split
    · split
      · rfl
      · rename_i hka _
        simp only [sget, if_neg hj]
        split
        · rw [if_neg (by omega), if_pos (by omega)]
        · rfl
    · split
      · rename_i hka; subst hka
        have hb : j < k → sget rest j = 0#w := fun hlt => sget_below rest j fun y hy => by have := hx.2.1 y hy; omega
        split
        · simp only [sget, if_neg hj]
          split
          · rename_i hlt; exact hb hlt
          · rfl
        · simp only [sget, if_neg hj]
      · simp only [sget]
        split
        · rfl
        · split
          · rfl
          · exact ih hx.2.2

/-- Keeping a part of a store keeps the canonical form. -/
theorem swf_filter {w : Nat} (m : List (Nat × BitVec w)) (p : Nat × BitVec w → Bool) (h : swf m = true) :
    swf (m.filter p) = true := by
  induction m with
  | nil => rfl
  | cons x rest ih =>
    have hx := (swf_cons x.1 x.2 rest).1 h
    simp only [List.filter_cons]
    split
    · exact (swf_cons _ _ _).2 ⟨hx.1, fun y hy => hx.2.1 y (List.mem_of_mem_filter hy), ih hx.2.2⟩
    · exact ih hx.2.2

theorem swf_zeroBytes (m : Memory) (k n : Nat) (h : swf m = true) : swf (zeroBytes m k n) = true := swf_filter m _ h

theorem swf_writeBytes (m : Memory) (k : Nat) (bs : List Byte) (h : swf m = true) : swf (writeBytes m k bs) = true := by
  induction bs generalizing m k with
  | nil => exact h
  | cons b bs ih => exact ih _ _ (swf_sset m k b h)

/-- Storing several values one after another keeps the canonical form. -/
theorem swf_foldl_sset {w : Nat} {α : Type} (f : α → Nat) (g : α → BitVec w) (xs : List α) (m : List (Nat × BitVec w))
    (h : swf m = true) : swf (xs.foldl (fun m x => sset m (f x) (g x)) m) = true := by
  induction xs generalizing m with
  | nil => exact h
  | cons x xs ih => exact ih _ (swf_sset m (f x) (g x) h)

/-- A read below the bytes written gives what it gave before. -/
theorem sget_writeBytes_below (m : Memory) (k j : Nat) (bs : List Byte) (h : swf m = true) (hj : j < k) :
    sget (writeBytes m k bs) j = sget m j := by
  induction bs generalizing m k with
  | nil => rfl
  | cons b bs ih =>
    simp only [writeBytes]
    rw [ih _ _ (swf_sset m k b h) (by omega), sget_sset_ne m k j b h (by omega)]

/-- A read above the bytes written gives what it gave before. -/
theorem sget_writeBytes_above (m : Memory) (k j : Nat) (bs : List Byte) (h : swf m = true) (hj : k + bs.length ≤ j) :
    sget (writeBytes m k bs) j = sget m j := by
  induction bs generalizing m k with
  | nil => rfl
  | cons b bs ih =>
    simp only [List.length_cons] at hj
    simp only [writeBytes]
    rw [ih _ _ (swf_sset m k b h) (by omega), sget_sset_ne m k j b h (by omega)]

@[simp] theorem readBytes_length (m : Memory) (k n : Nat) : (readBytes m k n).length = n := by simp [readBytes]

@[simp] theorem leBytes_length (n v : Nat) : (leBytes n v).length = n := by
  induction n generalizing v with
  | zero => rfl
  | succ n ih => simp [leBytes, ih]

/-- The number that the lowest `n` bytes of a number hold. -/
theorem leNat_leBytes (n v : Nat) : leNat (leBytes n v) = v % 256 ^ n := by
  induction n generalizing v with
  | zero => simp [leBytes, leNat, Nat.mod_one]
  | succ n ih =>
    simp only [leBytes, leNat, ih, BitVec.toNat_ofNat]
    have h : 256 ^ (n + 1) = 256 * 256 ^ n := by rw [Nat.pow_succ, Nat.mul_comm]
    rw [h, Nat.mod_mul]

end Sys2Proof.Machine
end

