-- ==== Sys2Proof/Laws/Keeps.lean ====
section
/-!
SUPPORT. Sys2Proof/Laws/Keeps.lean: what the shared operations keep: the canonical form of memory, and everything of the state but
threads and hardware: the module's registers, TIME, the port, the agenda and the step count.
-/
namespace Sys2Proof.Machine

/-! ### Memory under the operations on the hardware -/

@[simp] theorem setRefD_swf {m : Memory} (acc : Acc) (a : Nat) (h : swf m = true) : swf (setRefD m acc a) = true := swf_sset _ _ _ h

theorem foldl_setRefD_swf (acc : Acc) (as_ : List Nat) (m : Memory) (h : swf m = true) :
    swf (as_.foldl (fun m a => setRefD m acc a) m) = true := by
  induction as_ generalizing m with
  | nil => exact h
  | cons a as_ ih => exact ih _ (setRefD_swf acc a h)

theorem foldl_hw_swf {α : Type} (f : Hw → α → Hw) (hf : ∀ h x, swf h.mem = true → swf (f h x).mem = true) (xs : List α) (h : Hw)
    (hm : swf h.mem = true) : swf (xs.foldl f h).mem = true := by
  induction xs generalizing h with
  | nil => exact hm
  | cons x xs ih => exact ih _ (hf h x hm)

theorem writeKey_swf {h : Hw} (own : Option (Nat × Nat)) (k : Nat) (b : Byte) (hm : swf h.mem = true) :
    swf (writeKey h own k b).mem = true := swf_sset _ _ _ hm

@[simp] theorem clearPoison_mem (h : Hw) (ks : List Nat) : (clearPoison h ks).mem = h.mem := rfl

theorem writeKeys_swf {h : Hw} (own : Option (Nat × Nat)) (xs : List (Nat × Byte)) (hm : swf h.mem = true) :
    swf (writeKeys h own xs).mem = true :=
  foldl_hw_swf _ (fun _ x hm => writeKey_swf own x.1 x.2 hm) xs h hm

@[simp] theorem noteGranules_mem (h : Hw) (p : Nat → Bool) : (noteGranules h p).mem = h.mem := by
  unfold noteGranules; dsimp only; split <;> rfl

@[simp] theorem noteReads_mem (h : Hw) (ks : List Nat) : (noteReads h ks).mem = h.mem := noteGranules_mem ..

@[simp] theorem noteUe_mem (h : Hw) (p : Pend) (ks : List Nat) : (h.noteUe p ks).mem = h.mem := by
  unfold Hw.noteUe; split <;> rfl

@[simp] theorem mark_mem (h : Hw) (id : Nat) (is : List Nat) (bs : List Byte) (sees : List Nat) : (h.mark id is bs sees).mem = h.mem := rfl

@[simp] theorem fillRoute_mem (h : Hw) (k : Key) (r : Route) (ks : List Nat) : (fillRoute h k r ks).mem = h.mem := by
  unfold fillRoute; cases r <;> simp

@[simp] theorem dropL1Lines_mem (h : Hw) (part core : Nat) (ks : List Nat) : (dropL1Lines h part core ks).mem = h.mem := rfl

@[simp] theorem cacheXlat_mem (h : Hw) (w : Who) (es : List TlbEntry) : (cacheXlat h w es).mem = h.mem := by
  unfold cacheXlat
  repeat' (first | rfl | (dsimp only; split))

theorem touch_swf {h : Hw} (w : Who) (acc : Acc) (xs : Xlated) (hm : swf h.mem = true) : swf (touch h w acc xs).mem = true := by
  unfold touch
  exact foldl_setRefD_swf acc _ _ hm

theorem drainOut_swf {h : Hw} (part core : Nat) (ids : List Nat) (hm : swf h.mem = true) : swf (drainOut h part core ids).mem = true := by
  unfold drainOut
  dsimp only
  split
  · exact hm
  · simp only [Hw.setCtx_mem]
    exact foldl_hw_swf _ (fun _ o hm => writeKeys_swf _ o.bytes hm) _ h hm

theorem drainOutAll_swf {h : Hw} (part core : Nat) (hm : swf h.mem = true) : swf (drainOutAll h part core).mem = true := drainOut_swf _ _ _ hm

theorem drainOutKeys_swf {h : Hw} (part core : Nat) (ks : List Nat) (hm : swf h.mem = true) : swf (drainOutKeys h part core ks).mem = true :=
  drainOut_swf _ _ _ hm

theorem wcDrain_swf {h : Hw} (part core : Nat) (p : WcLine → Bool) (hm : swf h.mem = true) : swf (wcDrain h part core p).mem = true := by
  unfold wcDrain
  simp only [Hw.setCtx_mem]
  exact writeKeys_swf _ _ hm

theorem wcDrainSeen_swf {h : Hw} (part core : Nat) (ids : List Nat) (hm : swf h.mem = true) : swf (wcDrainSeen h part core ids).mem = true := by
  unfold wcDrainSeen; split
  · exact hm
  · exact wcDrain_swf _ _ _ hm

theorem drainSeen_swf {h : Hw} (part core : Nat) (ids : List Nat) (hm : swf h.mem = true) : swf (drainSeen h part core ids).mem = true :=
  wcDrainSeen_swf _ _ _ (drainOut_swf _ _ _ hm)

theorem wcDrainFull_swf {h : Hw} (part core : Nat) (hm : swf h.mem = true) : swf (wcDrainFull h part core).mem = true := wcDrain_swf _ _ _ hm

@[simp] theorem accessAhead_mem (h : Hw) (k : Key) (r : Route) (ls : List Loc) : (accessAhead h k r ls).mem = h.mem := rfl

@[simp] theorem forgetAhead_mem (h : Hw) (k : Key) (p : Nat → Bool) : (forgetAhead h k p).mem = h.mem := rfl

theorem storeHome_swf {h : Hw} (k : Key) (sees : List Nat) (xs : List (Nat × Byte)) (hm : swf h.mem = true) :
    swf (storeHome h k sees xs).mem = true := by
  unfold storeHome
  exact writeKeys_swf _ _ (drainOutKeys_swf _ _ _ (drainSeen_swf _ _ _ hm))

theorem landStore_swf {h : Hw} (k : Key) (gang id : Nat) (sees : List Nat) (pages : List (Nat × Nat)) (home : Bool)
    (xs : List (Nat × Byte × Nat)) (hm : swf h.mem = true) : swf (landStore h k gang id sees pages home xs).mem = true := by
  unfold landStore
  dsimp only
  have h1 : ∀ (c d : Bool) (g : Hw) (ys : List (Nat × Byte)) (x : Ctx), swf g.mem = true →
      swf (if c = true then g else if d = true then storeHome g k sees ys else (wcDrainSeen g k.part k.core sees).setCtx x).mem = true := by
    intro c d g ys x hg; split
    · exact hg
    · split
      · exact storeHome_swf _ _ _ hg
      · exact wcDrainSeen_swf _ _ _ hg
  have h2 : ∀ (c : Bool) (g : Hw), swf g.mem = true → swf (if c = true then g else drainSeen g k.part k.core sees).mem = true := by
    intro c g hg; split
    · exact hg
    · exact drainSeen_swf _ _ _ hg
  have h3 : ∀ (c : Bool) (g : Hw) (x : Ctx), swf g.mem = true → swf (if c = true then g else g.setCtx x).mem = true := by
    intro c g x hg; split <;> exact hg
  split
  · exact h3 _ _ _ (h2 _ _ (h1 _ _ _ _ _ hm))
  · exact writeKeys_swf _ _ (drainOutKeys_swf _ _ _ (h3 _ _ _ (h2 _ _ (h1 _ _ _ _ _ hm))))

/-- An atomic keeps memory canonical. -/
theorem performAtomic_swf {h : Hw} (p : Pend) (op : AmoOp) (n : Nat) (b c : BitVec 128) (discard : Bool) (hm : swf h.mem = true) :
    swf (performAtomic h p op n b c discard).mem = true := by
  unfold performAtomic
  dsimp only
  have hd : swf (drainOutKeys (drainSeen h p.key.part p.key.core p.sees) p.key.part p.key.core (physKeys p.locs)).mem = true :=
    drainOutKeys_swf _ _ _ (drainSeen_swf _ _ _ hm)
  generalize drainOutKeys (drainSeen h p.key.part p.key.core p.sees) p.key.part p.key.core (physKeys p.locs) = g at hd ⊢
  have hn : swf (noteReads ((accessAhead g p.key p.route p.locs).noteUe p (physKeys p.locs)) (physKeys p.locs)).mem = true := by
    simpa using hd
  generalize noteReads ((accessAhead g p.key p.route p.locs).noteUe p (physKeys p.locs)) (physKeys p.locs) = u at hn ⊢
  rw [mark_mem]
  have h1 : ∀ (c : Bool) (v : Hw), swf v.mem = true → swf (if c = true then dropL1 v p.key.part p.key.core else v).mem = true := by
    intro c v hv; split <;> exact hv
  have h2 : ∀ (c : Bool) (v : Hw), swf v.mem = true →
      swf (if c = true then v else dropL1Lines v p.key.part p.key.core (physKeys p.locs)).mem = true := by
    intro c v hv; split <;> exact hv
  refine h1 _ _ (h2 _ _ ?_)
  split
  · exact hn
  · split
    · exact hn
    · refine writeKeys_swf _ _ ?_
      show swf (if (op == .cas) = true then p.ptes.foldl (fun m a => setRefD m .atomic a) u.mem else u.mem) = true
      split
      · exact foldl_setRefD_swf _ _ _ hn
      · exact hn

theorem beforeRead_swf {h : Hw} (k : Key) (r : Route) (ks : List Nat) (hm : swf h.mem = true) : swf (beforeRead h k r ks).mem = true := by
  unfold beforeRead; split
  · exact drainOutKeys_swf _ _ _ hm
  · exact drainOutKeys_swf _ _ _ hm
  · exact hm

/-- A load keeps memory canonical. -/
theorem performRead_swf {h : Hw} (p : Pend) (is : List Nat) (ls : List Loc) (hm : swf h.mem = true) : swf (performRead h p is ls).mem = true := by
  unfold performRead
  dsimp only
  have hr := beforeRead_swf (h := accessAhead h p.key p.route ls) p.key p.route (physKeys ls) hm
  split
  · exact hm
  · rw [mark_mem]
    split
    · exact hr
    · simpa using hr

theorem healStore_swf {h : Hw} (p : Pend) (hm : swf h.mem = true) : swf (healStore h p).mem = true := by
  unfold healStore
  dsimp only
  split
  · exact hm
  · rw [clearPoison_mem]
    split
    · exact wcDrain_swf _ _ _ (drainOutKeys_swf _ _ _ hm)
    · exact drainOutKeys_swf _ _ _ hm

theorem performBytes_swf {h : Hw} (id : Nat) (ls : List Loc) (home : Bool) (hm : swf h.mem = true) :
    swf (performBytes h id ls home).mem = true := by
  unfold performBytes
  split
  · exact hm
  · rename_i p _
    dsimp only
    have heal : ∀ (c : Bool) (g : Hw), swf g.mem = true → swf (if c = true then healStore g p else g).mem = true := by
      intro c g hg; split
      · exact healStore_swf _ hg
      · exact hg
    split
    · exact performRead_swf _ _ _ hm
    · exact performRead_swf _ _ _ hm
    · exact performRead_swf _ _ _ hm
    · refine heal _ _ ?_
      rw [mark_mem]
      split
      · exact drainSeen_swf _ _ _ hm
      · exact landStore_swf _ _ _ _ _ _ _ hm
    · exact performAtomic_swf _ _ _ _ _ _ hm
    · exact hm
    · exact hm

theorem performUnit_swf {first : Hw → Nat → List Nat → Hw} (hf : ∀ h id us, swf h.mem = true → swf (first h id us).mem = true) (home : Bool)
    {h : Hw} (id u : Nat) (hm : swf h.mem = true) : swf (performUnit first home h id u).mem = true := by
  unfold performUnit
  split
  · exact hm
  · rename_i p _
    dsimp only
    split
    · exact hm
    · generalize (if p.isStore = true then gangLocs h p.gang h.pends.length (p.locsOf [u]) else p.locsOf [u]) = ls
      generalize (if p.isStore = true then gangStores h p.gang ls else [p]) = mates
      split
      · exact foldl_hw_swf _ (fun _ _ hm => hf _ _ _ hm) _ _ hm
      · have hx : ∀ (c : Bool) (g : Hw), swf g.mem = true → swf (if c = true then wcDrainFull g p.key.part p.key.core else g).mem = true := by
          intro c g hg; split
          · exact wcDrainFull_swf _ _ hg
          · exact hg
        refine hx _ _ (foldl_hw_swf _ (fun _ _ hm => performBytes_swf _ _ _ hm) _ _ ?_)
        split
        · exact foldl_hw_swf _ (fun _ _ hm => hf _ _ _ hm) _ _ hm
        · exact foldl_hw_swf _ (fun _ _ hm => hf _ _ _ hm) _ _ hm

theorem performAt_swf (home : Bool) (f : Nat) {h : Hw} (id : Nat) (us : List Nat) (hm : swf h.mem = true) :
    swf (performAt home f h id us).mem = true := by
  induction f generalizing h id us with
  | zero => exact hm
  | succ f ih =>
    unfold performAt
    split
    · exact hm
    · dsimp only
      exact foldl_hw_swf _ (fun _ _ hm => performUnit_swf (fun _ _ _ hm => ih _ _ hm) _ _ _ hm) _ _ hm

/-- Performing an outstanding access keeps memory canonical. -/
theorem perform_swf {h : Hw} (p : Pend) (hm : swf h.mem = true) : swf (perform h p).mem = true := performAt_swf _ _ _ _ hm

theorem performAll_swf {h : Hw} (k : Key) (tid : BitVec 32) (launch : Nat) (hm : swf h.mem = true) :
    swf (performAll h k tid launch).mem = true :=
  foldl_hw_swf perform (fun _ q hm => perform_swf q hm) _ h hm

/-! ### The relation -/

/-- `s'` keeps of `s` what lies outside threads and hardware, and the canonical form of memory. -/
structure Keeps (s s' : State) : Prop where
  mod : s'.mod = s.mod
  time : s'.time = s.time
  port : s'.port = s.port
  agenda : s'.agenda = s.agenda
  ticks : s'.ticks = s.ticks
  mem : swf s.hw.mem = true → swf s'.hw.mem = true

theorem Keeps.refl (s : State) : Keeps s s := ⟨rfl, rfl, rfl, rfl, rfl, id⟩

theorem Keeps.trans {s t u : State} (a : Keeps s t) (b : Keeps t u) : Keeps s u :=
  ⟨b.mod.trans a.mod, b.time.trans a.time, b.port.trans a.port, b.agenda.trans a.agenda, b.ticks.trans a.ticks, b.mem ∘ a.mem⟩

theorem Keeps.setTh (s : State) (t : Thread) : Keeps s (s.setTh t) := ⟨rfl, rfl, rfl, rfl, rfl, id⟩

theorem Keeps.mapHw (s : State) (f : Hw → Hw) (hf : swf s.hw.mem = true → swf (f s.hw).mem = true) : Keeps s (s.mapHw f) :=
  ⟨rfl, rfl, rfl, rfl, rfl, hf⟩

theorem Keeps.advance (s : State) (n : Nat) : Keeps s (s.advance n) := Keeps.setTh ..
theorem Keeps.settled (s : State) : Keeps s s.settled := Keeps.setTh ..
theorem Keeps.hold (s : State) (k : WaitKind) : Keeps s (s.hold k) := Keeps.setTh ..
theorem Keeps.tick (s : State) : Keeps s s.tick := ⟨rfl, rfl, rfl, rfl, rfl, id⟩
theorem Keeps.emit (s : State) (m : Msg) : Keeps s (s.emit m) := ⟨rfl, rfl, rfl, rfl, rfl, id⟩

theorem Keeps.setThread (s : State) (t : Thread) : Keeps s (s.setThread t) := by
  unfold State.setThread; split
  · exact Keeps.setTh ..
  · exact Keeps.mapHw _ _ id

theorem Keeps.dropThread (s : State) (k : Key) : Keeps s (s.dropThread k) := by
  unfold State.dropThread; split
  · exact Keeps.setTh ..
  · exact Keeps.mapHw _ _ id

theorem Keeps.mapThreads (s : State) (f : Thread → Thread) : Keeps s (s.mapThreads f) := ⟨rfl, rfl, rfl, rfl, rfl, id⟩

/-- A fold of steps that each keep it. -/
theorem Keeps.foldl {α : Type} (f : State → α → State) (hf : ∀ s x, Keeps s (f s x)) (xs : List α) (s : State) :
    Keeps s (xs.foldl f s) := by
  induction xs generalizing s with
  | nil => exact Keeps.refl s
  | cons x xs ih => exact (hf s x).trans (ih _)

/-! ### Crews -/

theorem Keeps.completeRendezvous (s : State) (part core : Nat) (r : Rendezvous) : Keeps s (completeRendezvous s part core r) := by
  unfold Machine.completeRendezvous
  exact (Keeps.mapHw s _ id).trans (Keeps.mapThreads ..)

theorem Keeps.settleRendezvous (s : State) (part core handle : Nat) : Keeps s (settleRendezvous s part core handle) := by
  unfold Machine.settleRendezvous
  exact Keeps.foldl _ (fun s r => by
    split
    · exact Keeps.completeRendezvous s part core r
    · exact Keeps.refl s) _ s

theorem Keeps.completePhase (s : State) (part core : Nat) (c : Crew) (ph : Phase) : Keeps s (completePhase s part core c ph) := by
  unfold Machine.completePhase
  exact (Keeps.mapHw s _ id).trans (Keeps.mapThreads ..)

theorem Keeps.settlePhase (s : State) (part core handle : Nat) : Keeps s (settlePhase s part core handle) := by
  unfold Machine.settlePhase
  split
  · exact Keeps.refl s
  · split
    · exact Keeps.refl s
    · split
      · exact Keeps.completePhase ..
      · exact Keeps.refl s

theorem Keeps.dissolveCrew (s : State) (part core handle : Nat) : Keeps s (dissolveCrew s part core handle) := by
  unfold Machine.dissolveCrew
  split
  · exact Keeps.refl s
  · split
    · exact Keeps.mapHw _ _ id
    · exact Keeps.refl s

theorem Keeps.settleCrew (s : State) (part core handle : Nat) : Keeps s (settleCrew s part core handle) := by
  unfold Machine.settleCrew
  split
  · exact Keeps.refl s
  · exact (Keeps.settleRendezvous ..).trans ((Keeps.settlePhase ..).trans ((Keeps.settlePhase ..).trans (Keeps.dissolveCrew ..)))

theorem Keeps.leaveCrew (s : State) (k : Key) : Keeps s (leaveCrew s k) := by
  unfold Machine.leaveCrew
  split
  · exact Keeps.refl s
  · split
    · exact Keeps.refl s
    · exact (Keeps.mapHw s _ id).trans ((Keeps.setThread ..).trans (Keeps.settleCrew ..))

/-! ### Records, killing and re-queuing -/

theorem Keeps.setGone (s : State) (part launch : Nat) (g : Option (Bool × Bool)) : Keeps s (setGone s part launch g) := Keeps.mapHw _ _ id

theorem Keeps.recordWritten (s : State) (part launch : Nat) (g : Option (Bool × Bool)) : Keeps s (recordWritten s part launch g) := by
  unfold Machine.recordWritten
  split
  · split
    · exact Keeps.refl s
    · exact (Keeps.mapHw s (fun h => h.setLaunch _) id).trans (Keeps.emit ..)
  · split
    · exact Keeps.refl s
    · exact (Keeps.setGone ..).trans (Keeps.emit ..)
  · exact Keeps.emit ..

theorem Keeps.recordLost (s : State) (part launch : Nat) (g : Option (Bool × Bool)) : Keeps s (recordLost s part launch g) := by
  unfold Machine.recordLost
  split
  · exact (Keeps.mapHw s (fun h => h.setLaunch _) id).trans (Keeps.recordWritten ..)
  · exact (Keeps.setGone ..).trans (Keeps.recordWritten ..)
  · exact Keeps.emit ..

theorem Keeps.beginRecord (s : State) (r : RecWait) : Keeps s (beginRecord s r).1 := by
  unfold Machine.beginRecord
  split
  · exact Keeps.mapHw s (fun h => h.setLaunch _) id
  · exact Keeps.setGone ..
  · exact Keeps.refl s

theorem Keeps.systemWrite (s : State) (part : Nat) (xs : Xlated) (bs : List Byte) : Keeps s (systemWrite s part xs bs) :=
  Keeps.mapHw _ _ fun hm => writeKeys_swf _ _ (touch_swf _ _ _ hm)

theorem Keeps.writeRecord (s : State) (xs : Xlated) (r : RecWait) : Keeps s (writeRecord s xs r) := by
  unfold Machine.writeRecord
  exact ((Keeps.beginRecord s r).trans (Keeps.systemWrite ..)).trans (Keeps.recordWritten ..)

theorem Keeps.placeRecord (s : State) (r : RecWait) : Keeps s (placeRecord s r) := by
  unfold Machine.placeRecord
  dsimp only
  split
  · exact Keeps.mapHw _ _ id
  · split
    · split
      · exact Keeps.mapHw _ _ id
      · exact Keeps.writeRecord ..
    · exact Keeps.recordLost ..
    · exact Keeps.mapHw _ _ id

theorem Keeps.recordPart (s : State) (part launch n : Nat) : Keeps s (recordPart s part launch n) := by
  unfold Machine.recordPart
  split
  · exact Keeps.refl s
  · rename_i r _
    dsimp only
    split
    · exact Keeps.refl s
    · split
      · have hb : ∀ (c : Bool), Keeps s (if c = true then Machine.beginRecord s r else (s, r)).1 := by
          intro c; split
          · exact Keeps.beginRecord s r
          · exact Keeps.refl s
        split
        · exact (((hb _).trans (Keeps.systemWrite ..)).trans (Keeps.mapHw _ _ id)).trans
            ((Keeps.mapHw _ _ id).trans (Keeps.recordWritten ..))
        · exact ((hb _).trans (Keeps.systemWrite ..)).trans (Keeps.mapHw _ _ id)
      · exact (Keeps.mapHw _ _ id).trans (Keeps.recordLost ..)
      · exact Keeps.refl s

theorem Keeps.appendRecord (s : State) (part launch : Nat) (r : Rec) : Keeps s (appendRecord s part launch r) := by
  unfold Machine.appendRecord
  split
  · exact Keeps.refl s
  · dsimp only
    split
    · exact (Keeps.mapHw s (fun h => h.setLaunch _) id).trans (Keeps.placeRecord ..)
    · exact (Keeps.mapHw s (fun h => h.setLaunch _) id).trans (Keeps.recordLost ..)

theorem foldl_hw_mem {α : Type} (f : Hw → α → Hw) (hf : ∀ h x, (f h x).mem = h.mem) (xs : List α) (h : Hw) :
    (xs.foldl f h).mem = h.mem := by
  induction xs generalizing h with
  | nil => rfl
  | cons x xs ih => exact (ih _).trans (hf h x)

theorem placeLaunch_mem (h : Hw) (l : Launch) : (placeLaunch h l).mem = h.mem := by
  unfold placeLaunch
  split
  · exact foldl_hw_mem _ (fun h t => by split <;> rfl) _ h
  · exact foldl_hw_mem (fun h w => waitCrew h l.part w) (fun _ _ => rfl) _ h

theorem Keeps.stopThreads (s : State) (part launch : Nat) : Keeps s (stopThreads s part launch) := by
  unfold Machine.stopThreads
  refine (Keeps.mapHw s _ fun hm => ?_).trans (Keeps.foldl _ (fun s k => (Keeps.leaveCrew s k).trans (Keeps.dropThread ..)) _ _)
  exact foldl_hw_swf (fun (h : Hw) (c : Ctx) => drainOutAll (wcDrain h c.part c.core _) c.part c.core)
    (fun _ c hm => drainOutAll_swf _ _ (wcDrain_swf c.part c.core _ hm)) _ _
    (foldl_hw_swf perform (fun _ q hm => perform_swf q hm) _ _ hm)

theorem Keeps.dropReserved (s : State) (part launch : Nat) : Keeps s (dropReserved s part launch) := by
  unfold Machine.dropReserved
  exact Keeps.foldl _ (fun s c => Keeps.foldl _ (fun s x => (Keeps.mapHw s _ id).trans (Keeps.settleCrew ..)) _ s) _ s

theorem Keeps.clearLaunch (s : State) (part launch : Nat) : Keeps s (clearLaunch s part launch) := by
  unfold Machine.clearLaunch
  exact ((Keeps.stopThreads s part launch).trans (Keeps.dropReserved ..)).trans (Keeps.mapHw _ _ id)

theorem Keeps.dropLaunch (s : State) (part launch : Nat) : Keeps s (dropLaunch s part launch) := by
  unfold Machine.dropLaunch
  dsimp only
  split
  · exact (Keeps.setGone ..).trans (Keeps.mapHw _ _ id)
  · exact Keeps.mapHw _ _ id

theorem Keeps.killLaunch (s : State) (part launch : Nat) : Keeps s (killLaunch s part launch) :=
  (Keeps.clearLaunch s part launch).trans (Keeps.dropLaunch ..)

theorem Keeps.discardLaunch (s : State) (part launch : Nat) : Keeps s (discardLaunch s part launch) := by
  unfold Machine.discardLaunch
  refine (Keeps.clearLaunch s part launch).trans (Keeps.mapHw _ _ fun hm => ?_)
  split <;> exact hm

theorem Keeps.requeueLaunch (s : State) (part launch : Nat) (r : Rec) : Keeps s (requeueLaunch s part launch r) := by
  unfold Machine.requeueLaunch
  refine ((Keeps.discardLaunch s part launch).trans (Keeps.appendRecord ..)).trans (Keeps.mapHw _ _ fun hm => ?_)
  split
  · exact hm
  · rw [placeLaunch_mem]; exact hm

theorem Keeps.consume (s : State) (part launch core tid : Nat) (ip : DWord) (detail flags : Nat) (val : DWord) :
    Keeps s (consume s part launch core tid ip detail flags val) := by
  unfold Machine.consume
  split
  · exact Keeps.refl s
  · split
    · exact Keeps.requeueLaunch ..
    · exact (Keeps.appendRecord ..).trans (Keeps.killLaunch ..)

theorem Keeps.consumeUe (s : State) (u : Ue) : Keeps s (consumeUe s u) :=
  (Keeps.mapHw s _ fun hm => by simpa using hm).trans (Keeps.consume ..)

theorem Keeps.consumeFound (s : State) : Keeps s (consumeFound s) :=
  (Keeps.mapHw s (fun h => { h with ue := [] }) id).trans (Keeps.foldl _ Keeps.consumeUe _ _)

theorem Keeps.retryRecords (s : State) : Keeps s (retryRecords s) :=
  (Keeps.mapHw s (fun h => { h with records := [] }) id).trans (Keeps.foldl _ Keeps.placeRecord _ _)

theorem Keeps.wantPages (s : State) (part launch : Nat) (k : Option Key) (ps : List Nat) : Keeps s (wantPages s part launch k ps) := by
  unfold Machine.wantPages
  split
  · exact Keeps.mapHw _ _ id
  · exact Keeps.refl s

/-! ### Faults, traps, and instructions that do not complete -/

theorem Keeps.endTrial (s : State) (v : Nat) : Keeps s (endTrial s v) := by
  unfold Machine.endTrial
  split
  · exact Keeps.refl s
  · exact (Keeps.mapHw s _ fun hm => performAll_swf _ _ _ hm).trans (Keeps.dropThread ..)

theorem Keeps.takeFault (s : State) (f : SupFault) : Keeps s (takeFault s f) := by
  unfold Machine.takeFault
  split
  · exact Keeps.endTrial ..
  · exact (Keeps.setTh ..).trans (Keeps.appendRecord ..)

theorem Keeps.takeTrap (s : State) (c d : BitVec 8) (v : DWord) (xf : BitVec 6) (fc : BitVec 25) : Keeps s (takeTrap s c d v xf fc) := by
  unfold Machine.takeTrap
  dsimp only
  split
  · exact (Keeps.setTh ..).trans (Keeps.endTrial ..)
  · split
    · exact (Keeps.setTh ..).trans (Keeps.takeFault ..)
    · exact (Keeps.setTh ..).trans (Keeps.setTh ..)

/-- An instruction that does not complete keeps what lies outside threads and hardware. -/
theorem Keeps.stopped (s : State) (e : Stop) : Keeps s (stopped s e) := by
  cases e with
  | wait k => exact Keeps.setTh ..
  | trap c d v xf fc => exact Keeps.takeTrap ..
  | fault f => exact Keeps.takeFault ..
  | consumed u => exact Keeps.consumeUe ..
  | stage ps => exact (Keeps.wantPages ..).trans (Keeps.setTh ..)
  | lostStore f xs => exact (Keeps.mapHw _ _ fun hm => writeKeys_swf _ _ hm).trans (Keeps.takeFault ..)

/-! ### The frame -/

/-- What an instruction's own effect keeps, the instruction keeps. -/
theorem Keeps.enter {i : Instr} {s s' : State} {k : State → State} (hk : ∀ s, Keeps s (k s)) (h : enter i s k = .next s') :
    Keeps s s' := by
  rcases enter_cases h with ⟨_, rfl⟩ | ⟨_, _, rfl⟩ | ⟨t, _, _, ⟨_, rfl⟩ | ⟨_, _, rfl⟩ | ⟨_, _, rfl⟩⟩
  · exact Keeps.stopped ..
  · exact Keeps.setTh ..
  · exact (Keeps.setTh ..).trans (Keeps.advance ..)
  · exact (Keeps.setTh ..).trans (Keeps.endTrial ..)
  · exact (Keeps.setTh ..).trans (hk _)

/-- A computation that may stop keeps it where it goes on. -/
def KeepsOk (f : State → Except Stop State) : Prop := ∀ s s', f s = .ok s' → Keeps s s'

theorem Keeps.run {i : Instr} {s s' : State} {body : State → Except Stop State} (hb : KeepsOk body) (h : run i s body = .next s') :
    Keeps s s' :=
  Keeps.enter (fun s => by
    cases e : body s with
    | ok u => exact (hb s u e).trans (Keeps.advance ..)
    | error x => exact Keeps.stopped ..) h

theorem Keeps.runTh {i : Instr} {s s' : State} {body : Thread → Except Stop Thread} (h : runTh i s body = .next s') : Keeps s s' :=
  Keeps.enter (fun s => by
    cases body s.th with
    | ok u => exact (Keeps.setTh ..).trans (Keeps.advance ..)
    | error x => exact Keeps.stopped ..) h

theorem Keeps.runJump {i : Instr} {s s' : State} {body : State → Except Stop State} (hb : KeepsOk body)
    (h : runJump i s body = .next s') : Keeps s s' :=
  Keeps.enter (fun s => by
    cases e : body s with
    | ok u => exact (hb s u e).trans (Keeps.settled ..)
    | error x => exact Keeps.stopped ..) h

theorem Keeps.runHeld {i : Instr} {s s' : State} {body : State → Except Stop State} (hb : KeepsOk body)
    (h : runHeld i s body = .next s') : Keeps s s' :=
  Keeps.enter (fun s => by
    cases e : body s with
    | ok u => exact hb s u e
    | error x => exact Keeps.stopped ..) h

/-- A computation that goes on unless it has met an error that is consumed. -/
theorem Keeps.unlessConsumed {s s' u : State} {left : Pend → Bool} (hk : Keeps s u) (h : unlessConsumed u left = .ok s') : Keeps s s' := by
  unfold Machine.unlessConsumed at h
  split at h
  · split at h
    · cases h
    · cases h; exact hk
  · cases h

theorem Keeps.flush {s s' : State} (h : flush s = .ok s') : Keeps s s' :=
  Keeps.unlessConsumed (Keeps.mapHw _ _ fun hm => performAll_swf _ _ _ hm) h

theorem Keeps.whenEnabled {c : Bool} {s s' u : State} (hk : Keeps s s') (h : whenEnabled c s s' = .next u) : Keeps s u := by
  rcases whenEnabled_cases h with ⟨_, rfl⟩ | ⟨_, rfl⟩
  · exact Keeps.refl _
  · exact hk

end Sys2Proof.Machine
end

