-- ==== Sys2Proof/Laws/Access.lean ====
section
/-!
SUPPORT. Sys2Proof/Laws/Access.lean: the shared operations that access memory and that issue commands: each keeps what lies outside
threads and hardware, and the canonical form of memory.
-/
namespace Sys2Proof.Machine

theorem Keeps.map {f : State → State} {r : Except Stop State} {s s' : State} (hf : ∀ u, Keeps u (f u)) (hr : ∀ u, r = .ok u → Keeps s u)
    (h : r.map f = .ok s') : Keeps s s' := by
  cases e : r with
  | error x => rw [e] at h; cases h
  | ok u => rw [e] at h; cases h; exact (hr u e).trans (hf u)

/-- A sequence that goes on took each of its steps. -/
theorem Except.bind_ok {α β : Type} {x : Except Stop α} {f : α → Except Stop β} {b : β} (h : (x >>= f) = .ok b) :
    ∃ a, x = .ok a ∧ f a = .ok b := by
  cases x with
  | error e => cases h
  | ok a => exact ⟨a, rfl, h⟩

/-- The addresses of an access by their place. -/
theorem eaBytes_eq (ea : DWord) (n : Nat) : eaBytes ea n = (List.range n).map fun i => ea + BitVec.ofNat 64 i := by
  induction n generalizing ea with
  | zero => rfl
  | succ n ih =>
    rw [List.range_succ_eq_map, List.map_cons, List.map_map, eaBytes, ih]
    have h : ∀ i : Nat, ea + 1 + BitVec.ofNat 64 i = ea + BitVec.ofNat 64 (i + 1) := fun i => by
      rw [BitVec.add_assoc, BitVec.ofNat_add, BitVec.add_comm (BitVec.ofNat 64 i)]
      rfl
    simpa [Function.comp_def] using fun i _ => h i

theorem Keeps.touched (s : State) (acc : Acc) (r : Reach) : Keeps s (touched s acc r) := by
  unfold Machine.touched
  split
  · exact Keeps.refl s
  · exact Keeps.mapHw _ _ fun hm => touch_swf _ _ _ hm

theorem Keeps.drainOwn (s : State) : Keeps s (drainOwn s) := Keeps.mapHw _ _ fun hm => wcDrain_swf _ _ _ hm

theorem Keeps.onCore (s : State) (f : Ctx → Ctx) : Keeps s (s.onCore f) := Keeps.mapHw _ _ id

theorem Keeps.drainCore (s : State) : Keeps s (drainCore s) :=
  (Keeps.mapHw s _ fun hm => drainOutAll_swf _ _ hm).trans (Keeps.onCore ..)

theorem Keeps.showOwn (s : State) : Keeps s (showOwn s) := Keeps.onCore ..
theorem Keeps.showCrew (s : State) : Keeps s (showCrew s) := by unfold Machine.showCrew; exact Keeps.onCore ..
theorem Keeps.forget (s : State) (p : Nat → Bool) : Keeps s (forget s p) := Keeps.mapHw _ _ id

theorem Keeps.orderCore {s s' : State} (h : orderCore s = .ok s') : Keeps s s' :=
  Keeps.map (fun u => (Keeps.drainOwn u).trans (Keeps.showOwn ..)) (fun _ h => Keeps.flush h) h

theorem Keeps.orderCrew {s s' : State} (h : orderCrew s = .ok s') : Keeps s s' :=
  Keeps.map (fun u => (Keeps.drainOwn u).trans (Keeps.showCrew ..)) (fun _ h => Keeps.flush h) h

theorem Keeps.orderAll {s s' : State} (h : orderAll s = .ok s') : Keeps s s' :=
  Keeps.map Keeps.drainCore (fun _ h => Keeps.orderCore h) h

theorem Keeps.orderFirst {s s' : State} {r : Reach} (h : orderFirst s r = .ok s') : Keeps s s' := by
  unfold Machine.orderFirst at h
  split at h
  · exact Keeps.orderAll h
  · cases h; exact Keeps.refl s

theorem Keeps.afterStrong (s : State) (r : Reach) : Keeps s (afterStrong s r) := by
  unfold Machine.afterStrong
  split
  · exact (Keeps.mapHw s _ id).trans (Keeps.forget ..)
  · exact Keeps.refl s

theorem Keeps.issuePend (s : State) (p : Pend) : Keeps s (s.issuePend p) := (Keeps.setTh ..).trans (Keeps.mapHw _ _ id)

theorem Keeps.dropPend (s : State) (id : Nat) : Keeps s (dropPend s id) := Keeps.mapHw _ _ fun hm => hm

theorem Keeps.performNow {s s' : State} {id : Nat} (h : performNow s id = .ok s') : Keeps s s' :=
  Keeps.unlessConsumed (Keeps.mapHw s (fun h => match h.pends.find? fun p => p.id == id with
      | some p => perform h p
      | none => h) fun hm => by
    split
    · exact perform_swf _ hm
    · exact hm) h

theorem Keeps.readNow {s s' : State} {r : Reach} {atom : Nat} {p : Pend} (h : readNow s r atom = .ok (p, s')) : Keeps s s' := by
  unfold Machine.readNow at h
  obtain ⟨u, hu, h⟩ := Except.bind_ok h
  cases h
  exact ((Keeps.issuePend ..).trans (Keeps.performNow hu)).trans (Keeps.dropPend ..)

theorem Keeps.loadNow {s s' : State} {space n : Nat} {ea : DWord} {bs : List Byte} (h : loadNow s space ea n = .ok (bs, s')) :
    Keeps s s' := by
  unfold Machine.loadNow at h
  obtain ⟨r, -, h⟩ := Except.bind_ok h
  obtain ⟨u, hu, h⟩ := Except.bind_ok h
  split at h
  · cases h
  · obtain ⟨⟨p, v⟩, hv, h⟩ := Except.bind_ok h
    cases h
    exact ((Keeps.orderFirst hu).trans (Keeps.touched ..)).trans ((Keeps.readNow hv).trans ((Keeps.setTh ..).trans (Keeps.afterStrong ..)))

theorem Keeps.issueStore {s s' : State} {space atom : Nat} {ea : DWord} {bs : List Byte} (h : issueStore s space ea atom bs = .ok s') :
    Keeps s s' := by
  unfold Machine.issueStore at h
  obtain ⟨r, -, h⟩ := Except.bind_ok h
  obtain ⟨u, hu, h⟩ := Except.bind_ok h
  split at h
  · cases h
  · have hk := fun p => (Keeps.orderFirst hu).trans ((Keeps.touched u .store r).trans (Keeps.issuePend _ p))
    dsimp only at h
    split at h
    · exact Keeps.map (fun u => Keeps.afterStrong u r) (fun _ h => (hk _).trans (Keeps.performNow h)) h
    · cases h; exact hk _

theorem Keeps.storeNow {s s' : State} {space : Nat} {ea : DWord} {bs : List Byte} (h : storeNow s space ea bs = .ok s') :
    Keeps s s' := Keeps.issueStore h

theorem Keeps.completePend (s : State) (p : Pend) (bs : List Byte) : Keeps s (completePend s p bs) := by
  unfold Machine.completePend
  dsimp only
  split
  · exact (Keeps.dropPend ..).trans (Keeps.setThread ..)
  · exact Keeps.dropPend ..

/-- Issuing an access keeps it, whatever its kind (R172, R180). -/
theorem Keeps.issueAccess {s s' : State} {acc : Acc} {r : Reach} {kind : PendKind} {cell n atom : Nat}
    (h : issueAccess s acc r kind cell n atom = .ok s') : Keeps s s' := by
  unfold Machine.issueAccess at h
  obtain ⟨u, hu, h⟩ := Except.bind_ok h
  have hk : ∀ p, Keeps s (noteGang ((Machine.touched u (kind.marks acc) r).issuePend p)) := fun p =>
    (Keeps.orderFirst hu).trans ((Keeps.touched ..).trans ((Keeps.issuePend ..).trans (Keeps.setTh ..)))
  dsimp only at h
  split at h
  · cases h; exact hk _
  · split at h
    · cases h
    · obtain ⟨v, hv, h⟩ := Except.bind_ok h
      split at h
      · cases h; exact ((hk _).trans (Keeps.performNow hv)).trans ((Keeps.completePend ..).trans (Keeps.afterStrong ..))
      · cases h; exact (hk _).trans (Keeps.performNow hv)

theorem Keeps.issueLoad {s s' : State} {r : Reach} {kind : PendKind} {cell n : Nat} (h : issueLoad s r kind cell n = .ok s') :
    Keeps s s' := Keeps.issueAccess h

theorem Keeps.countCommand {s s' : State} {cls : EngineClass} {b : Issuer} (h : countCommand s cls = .ok (b, s')) : Keeps s s' := by
  unfold Machine.countCommand at h
  split at h
  · cases h
  · obtain ⟨u, hu, h⟩ := Except.bind_ok h
    cases h
    exact (Keeps.orderAll hu).trans (Keeps.setTh ..)

theorem Keeps.plainCommand {s s' : State} {b : Issuer} (h : plainCommand s = .ok (b, s')) : Keeps s s' := by
  unfold Machine.plainCommand at h
  obtain ⟨u, hu, h⟩ := Except.bind_ok h
  cases h
  exact Keeps.orderAll hu

theorem Keeps.readBlock {i : Instr} {s s' : State} {a : DWord} {n align : Nat} {bs : List Byte}
    (h : readBlock i s a n align = .ok (bs, s')) : Keeps s s' := by
  unfold Machine.readBlock at h
  split at h
  · dsimp only at h
    split at h
    · cases h
    · exact Keeps.loadNow h
  · split at h
    · cases h
    · exact Keeps.loadNow h

theorem Keeps.push {s s' : State} {v : DWord} (h : push s v = .ok s') : Keeps s s' := by
  unfold Machine.push at h
  dsimp only at h
  split at h
  · cases h
  · obtain ⟨u, hu, h⟩ := Except.bind_ok h
    cases h
    exact (Keeps.storeNow hu).trans (Keeps.setTh ..)

theorem Keeps.mapCtx (s : State) (part core : Nat) (f : Ctx → Ctx) : Keeps s (s.mapCtx part core f) := Keeps.mapHw _ _ id

theorem Keeps.mapRegion (s : State) (part core launch : Nat) (f : Region → Region) : Keeps s (s.mapRegion part core launch f) :=
  Keeps.mapCtx ..

theorem Keeps.uncount (s : State) (b : Issuer) (cls : EngineClass) : Keeps s (uncount s b cls) := by
  unfold Machine.uncount
  split
  · exact Keeps.setThread ..
  · exact Keeps.refl s

theorem Keeps.settleRegions (s : State) (part core launch : Nat) : Keeps s (settleRegions s part core launch) := by
  unfold Machine.settleRegions
  split
  · exact Keeps.refl s
  · exact Keeps.mapHw _ _ id

theorem noteRan_mem (h : Hw) (part core launch : Nat) : (noteRan h part core launch).mem = h.mem := by
  unfold noteRan; split <;> rfl

theorem Keeps.settleExited (s : State) (part core launch : Nat) (tid : BitVec 32) : Keeps s (settleExited s part core launch tid) := by
  unfold Machine.settleExited
  split
  · exact Keeps.refl s
  · refine Keeps.mapHw _ _ fun hm => ?_
    dsimp only
    split <;> exact hm

theorem Keeps.commandOver (s : State) (b : Issuer) : Keeps s (commandOver s b) :=
  (Keeps.mapHw _ _ fun hm => by rw [noteRan_mem]; exact hm).trans ((Keeps.settleExited ..).trans (Keeps.settleRegions ..))

theorem Keeps.engineFault (s : State) (b : Issuer) (cls : EngineClass) (counted : Bool) (f : SupFault) :
    Keeps s (engineFault s b cls counted f) := by
  unfold Machine.engineFault
  refine Keeps.trans ?_ (Keeps.commandOver ..)
  cases counted with
  | false =>
    simp only [Bool.false_eq_true, if_false]
    split
    · exact (Keeps.appendRecord ..).trans (Keeps.setThread ..)
    · exact Keeps.appendRecord ..
  | true =>
    simp only [if_true]
    split
    · exact (Keeps.appendRecord ..).trans ((Keeps.uncount ..).trans (Keeps.setThread ..))
    · exact (Keeps.appendRecord ..).trans (Keeps.uncount ..)

theorem Keeps.commandWaits (s : State) (b : Issuer) (e : Stop) : Keeps s (commandWaits s b e) := by
  cases e with
  | stage ps => exact Keeps.wantPages ..
  | consumed u => exact Keeps.consumeUe ..
  | _ => exact Keeps.refl s

theorem Keeps.engPut (s : State) (b : Issuer) (xs : Xlated) (bs : List Byte) : Keeps s (engPut s b xs bs) :=
  Keeps.mapHw _ _ fun hm => writeKeys_swf _ _ (touch_swf _ _ _ hm)

theorem Keeps.engRead {s s' : State} {b : Issuer} {ea : DWord} {n : Nat} {bs : List Byte} (h : engRead s b ea n = .ok (bs, s')) :
    Keeps s s' := by
  unfold Machine.engRead at h
  split at h
  · cases h
  · split at h
    · cases h
    · cases h; exact Keeps.mapHw _ _ fun hm => by simpa using touch_swf _ _ _ hm

theorem Keeps.engWrite {s s' : State} {b : Issuer} {wrote wrote' : List Nat} {ea : DWord} {bs : List Byte}
    (h : engWrite s b wrote ea bs = .ok (s', wrote')) : Keeps s s' := by
  unfold Machine.engWrite at h
  split at h
  · cases h
  · cases h; exact Keeps.engPut ..

theorem Keeps.engWritePart (s : State) (b : Issuer) (wrote : List Nat) (ea : DWord) (bs : List Byte) :
    Keeps s (engWritePart s b wrote ea bs).1 := by
  unfold Machine.engWritePart
  split
  · rename_i h; exact Keeps.engWrite h
  · split
    · rename_i h; exact Keeps.engWrite h
    · exact Keeps.refl s
  · exact Keeps.refl s

theorem Keeps.spendIssuerTicket (s : State) (b : Issuer) (cls : EngineClass) : Keeps s (spendIssuerTicket s b cls) := by
  unfold Machine.spendIssuerTicket
  split
  · exact Keeps.setThread ..
  · exact Keeps.mapCtx ..

theorem Keeps.takePermit (s : State) (b : Issuer) (cls : EngineClass) (what : PermitFor) (cost : Nat) :
    Keeps s (takePermit s b cls what cost).1 := by
  unfold Machine.takePermit
  dsimp only
  split
  · dsimp only; exact (Keeps.spendIssuerTicket ..).trans (Keeps.mapHw _ _ id)
  · split
    · exact Keeps.refl s
    · split
      · dsimp only; exact Keeps.mapHw _ _ id
      · dsimp only; exact Keeps.mapHw _ _ id

/-- A fetch keeps what lies outside threads and hardware. -/
theorem Keeps.fetchWord {s s' : State} {ea : DWord} {w : Word} (h : fetchWord s ea = .ok (w, s')) : Keeps s s' := by
  unfold Machine.fetchWord at h
  dsimp only at h
  split at h
  · split at h
    · cases h; exact Keeps.refl _
    · cases h
  · unfold fetchBytes at h
    split at h
    · rename_i bs u hf
      split at hf
      · cases hf
      · dsimp only at hf
        split at hf
        · cases hf
        · cases hf
        · cases hf; cases h; exact Keeps.mapHw _ _ fun hm => by simpa using touch_swf _ _ _ hm
    · cases h

theorem Keeps.fetch {s s' : State} {i : Instr} (h : fetch s = .ok (i, s')) : Keeps s s' := by
  unfold Machine.fetch at h
  split at h
  · cases h
  · rename_i w0 u hu
    split at h
    · cases h
    · rename_i w1 v hv
      have huv : Keeps u v := by
        split at hv
        · exact Keeps.fetchWord hv
        · cases hv; exact Keeps.refl _
      split at h
      · cases h; exact (Keeps.fetchWord hu).trans huv
      · cases h

end Sys2Proof.Machine
end

