-- ==== Sys2Proof/Laws/Cells.lean ====
section
/-!
SUPPORT. Sys2Proof/Laws/Cells.lean: the registers of a thread: a read after a write, and what a write leaves alone.
-/
namespace Sys2Proof.Machine

@[simp] theorem Thread.sreg_setSreg_same (t : Thread) (i : Nat) (v : DWord) (h : i < 32) : (t.setSreg i v).sreg i = v := by
  simp [Thread.sreg, Thread.setSreg, h]

theorem Thread.sreg_setSreg_ne (t : Thread) (i j : Nat) (v : DWord) (h : j ≠ i) : (t.setSreg i v).sreg j = t.sreg j := by
  simp only [Thread.sreg, Thread.setSreg]
  split
  · rw [Vector.getElem_setIfInBounds_ne]; exact fun e => h e.symm
  · rfl

@[simp] theorem Thread.pred_setPred_same (t : Thread) (i : Nat) (v : Bool) (h : i < 7) : (t.setPred i v).pred i = v := by
  simp [Thread.pred, Thread.setPred, h]

theorem Thread.pred_setPred_ne (t : Thread) (i j : Nat) (v : Bool) (h : j ≠ i) : (t.setPred i v).pred j = t.pred j := by
  simp only [Thread.pred, Thread.setPred]
  split
  · rw [Vector.getElem_setIfInBounds_ne]; exact fun e => h e.symm
  · rfl

/-- p7 reads true (R30). -/
@[simp] theorem Thread.pred_seven (t : Thread) : t.pred 7 = true := by simp [Thread.pred]

/-- A write to p7 is discarded (R33). -/
@[simp] theorem Thread.setPred_seven (t : Thread) (v : Bool) : t.setPred 7 v = t := by
  have h : t.preds.setIfInBounds 7 v = t.preds := by
    apply Vector.ext; intro i hi; rw [Vector.getElem_setIfInBounds_ne]; omega
  simp [Thread.setPred, h]

@[simp] theorem Thread.cell_setCell_same (t : Thread) (i : Nat) (c : VCell) (h : i < t.cells.length) : (t.setCell i c).cell i = c := by
  simp [Thread.cell, Thread.setCell, List.getD_eq_getElem?_getD, h]

theorem Thread.cell_setCell_ne (t : Thread) (i j : Nat) (c : VCell) (h : j ≠ i) : (t.setCell i c).cell j = t.cell j := by
  simp only [Thread.cell, Thread.setCell, List.getD_eq_getElem?_getD]
  rw [List.getElem?_set_ne]; exact fun e => h e.symm

@[simp] theorem Thread.length_setCell (t : Thread) (i : Nat) (c : VCell) : (t.setCell i c).cells.length = t.cells.length := by
  simp [Thread.setCell]

@[simp] theorem Thread.length_plainRange (t : Thread) (i n : Nat) : (t.plainRange i n).cells.length = t.cells.length := by
  induction n generalizing t i with
  | zero => rfl
  | succ n ih => simp [Thread.plainRange, ih]

@[simp] theorem Thread.length_dissolve (t : Thread) (i : Nat) : (t.dissolve i).cells.length = t.cells.length := by
  unfold Thread.dissolve; split <;> simp

@[simp] theorem Thread.length_writePlain (t : Thread) (i : Nat) (v : Word) : (t.writePlain i v).cells.length = t.cells.length := by
  simp [Thread.writePlain]

@[simp] theorem Thread.length_writePlains (t : Thread) (i : Nat) (vs : List Word) :
    (t.writePlains i vs).cells.length = t.cells.length := by
  induction vs generalizing t i with
  | nil => rfl
  | cons v vs ih => simp [Thread.writePlains, ih]

/-- A plain write makes its cell full and PLAIN with the data written (R35). -/
@[simp] theorem Thread.cell_writePlain_same (t : Thread) (i : Nat) (v : Word) (h : i < t.cells.length) :
    (t.writePlain i v).cell i = ⟨v, true, .plain⟩ := by
  unfold Thread.writePlain; exact Thread.cell_setCell_same _ _ _ (by simpa using h)

/-- Turning cells PLAIN keeps data and F. -/
theorem Thread.cell_plainRange (t : Thread) (i n j : Nat) :
    ((t.plainRange i n).cell j).data = (t.cell j).data ∧ ((t.plainRange i n).cell j).full = (t.cell j).full := by
  induction n generalizing t i with
  | zero => exact ⟨rfl, rfl⟩
  | succ n ih =>
    have h := ih (t.setCell i { t.cell i with tag := .plain }) (i + 1)
    simp only [Thread.plainRange]
    rw [h.1, h.2]
    by_cases hj : j = i
    · subst hj
      by_cases hl : j < t.cells.length
      · simp [hl]
      · have e : t.setCell j { t.cell j with tag := .plain } = t := by
          simp [Thread.setCell, List.set_eq_of_length_le (Nat.le_of_not_lt hl)]
        rw [e]; exact ⟨rfl, rfl⟩
    · rw [Thread.cell_setCell_ne _ _ _ _ hj]; exact ⟨rfl, rfl⟩

/-- Dissolving a group keeps data and F of every cell (R35). -/
theorem Thread.cell_dissolve (t : Thread) (i j : Nat) :
    ((t.dissolve i).cell j).data = (t.cell j).data ∧ ((t.dissolve i).cell j).full = (t.cell j).full := by
  unfold Thread.dissolve
  split
  · exact ⟨rfl, rfl⟩
  · exact Thread.cell_plainRange _ _ _ _

/-- A plain write changes data and F of no other cell (R35). -/
theorem Thread.cell_writePlain_ne (t : Thread) (i j : Nat) (v : Word) (h : j ≠ i) :
    ((t.writePlain i v).cell j).data = (t.cell j).data ∧ ((t.writePlain i v).cell j).full = (t.cell j).full := by
  unfold Thread.writePlain
  rw [Thread.cell_setCell_ne _ _ _ _ h]
  exact Thread.cell_dissolve t i j

theorem Thread.firstEmpty_none (t : Thread) (i n : Nat) :
    t.firstEmpty i n = none ↔ ∀ j, i ≤ j → j < i + n → (t.cell j).full = true := by
  induction n generalizing i with
  | zero => simp [Thread.firstEmpty]; omega
  | succ n ih =>
    simp only [Thread.firstEmpty]
    split
    · rename_i hf
      rw [ih]
      constructor
      · intro h j h1 h2
        by_cases e : j = i
        · exact e ▸ hf
        · exact h j (by omega) (by omega)
      · intro h j h1 h2; exact h j (by omega) (by omega)
    · rename_i hf
      simp only [reduceCtorEq, false_iff]
      exact fun h => hf (h i (Nat.le_refl i) (by omega))

/-- A write does not wait when its destination cells are full (R38). -/
theorem Thread.needFree_ok (t : Thread) (i n : Nat) (h : ∀ j, i ≤ j → j < i + n → (t.cell j).full = true) :
    t.needFree i n = .ok () := by
  simp [Thread.needFree, (t.firstEmpty_none i n).2 h]

end Sys2Proof.Machine
end

