-- ==== Sys2Proof/Laws/PerInstr.lean ====
section
/-!
SUPPORT. Sys2Proof/Laws/PerInstr.lean: statements about every instruction as syntax, one lemma for each constructor.
-/
namespace Sys2Proof.Laws

/-- The words of a lane instruction: one, and the extension word where there is one. -/
theorem packLane_length (third : Bool) (major minor : Nat) (o : LaneOps) :
    4 * (packLane third major minor o).length = if o.x then 8 else 4 := by
  cases hx : o.x <;> simp [packLane, hx]

/-- The words of a scalar instruction. -/
theorem packScalar_length (major minor : Nat) (o : ScalarOps) :
    4 * (packScalar major minor o).length = if o.x then 8 else 4 := by
  cases hx : o.x <;> simp [packScalar, hx]

/-- A lane instruction that the encoding admits has a listed MOD and extras. -/
theorem wfLane_modOk {sig : LaneSig} {o : LaneOps} (h : wfLane sig o = true) : sig.modOk = true := by
  simp only [wfLane, Bool.and_eq_true] at h
  tauto

/-- A scalar instruction that the encoding admits obeys the limits of its literals. -/
theorem wfScalar_extra {sig : ScalarSig} {o : ScalarOps} (h : wfScalar sig o = true) : sig.extra = true := by
  simp only [wfScalar, Bool.and_eq_true] at h
  tauto

/-- The signature of a lane instruction whose check 4 succeeds. -/
theorem wf_lane {i : Instr} {major minor : Nat} {sig : LaneSig} {o : LaneOps} (hf : i.form = .lane major minor sig o)
    (h : i.WellFormed) : wfLane sig o = true := by
  unfold Instr.WellFormed Instr.wfError at h
  rw [hf] at h
  simpa using h

/-- The signature of a scalar instruction whose check 4 succeeds. -/
theorem wf_scalar {i : Instr} {major minor : Nat} {sig : ScalarSig} {o : ScalarOps} (hf : i.form = .scalar major minor sig o)
    (h : i.WellFormed) : wfScalar sig o = true := by
  unfold Instr.WellFormed Instr.wfError at h
  rw [hf] at h
  by_contra hn
  simp [hn] at h

namespace EncodedForm

/-- What an instruction is as syntax (R83, R92, R104, R107): its place in the opcode map is an assigned major and minor that the decoder
reads back as this instruction, its shape is the one the decoder takes for that place, and its words are as many as its length says. -/
def Statement (i : Instr) : Prop :=
  i.WellFormed → 4 * (encode i).length = i.length ∧
  match i.form with
  | .lane major minor sig o => major < 18 ∧ minor < 16 ∧ ofLane major minor o = some i ∧ laneThird major minor = (sig.third != .none)
  | .scalar major minor _ o => major < 19 ∧ major ≠ 6 ∧ minor < 16 ∧ ofScalar major minor o = some i
  | .branch o => i = .br o
  | .step => encode i = []

theorem iadd (o : LaneOps) : Statement (.iadd o) := fun _ => ⟨packLane_length _ _ _ o, by decide, by decide, rfl, rfl⟩
theorem isub (o : LaneOps) : Statement (.isub o) := fun _ => ⟨packLane_length _ _ _ o, by decide, by decide, rfl, rfl⟩
theorem imin (o : LaneOps) : Statement (.imin o) := fun _ => ⟨packLane_length _ _ _ o, by decide, by decide, rfl, rfl⟩
theorem imax (o : LaneOps) : Statement (.imax o) := fun _ => ⟨packLane_length _ _ _ o, by decide, by decide, rfl, rfl⟩
theorem iabs (o : LaneOps) : Statement (.iabs o) := fun _ => ⟨packLane_length _ _ _ o, by decide, by decide, rfl, rfl⟩
theorem iand (o : LaneOps) : Statement (.iand o) := fun _ => ⟨packLane_length _ _ _ o, by decide, by decide, rfl, rfl⟩
theorem ior (o : LaneOps) : Statement (.ior o) := fun _ => ⟨packLane_length _ _ _ o, by decide, by decide, rfl, rfl⟩
theorem ixor (o : LaneOps) : Statement (.ixor o) := fun _ => ⟨packLane_length _ _ _ o, by decide, by decide, rfl, rfl⟩
theorem iandn (o : LaneOps) : Statement (.iandn o) := fun _ => ⟨packLane_length _ _ _ o, by decide, by decide, rfl, rfl⟩
theorem ishl (o : LaneOps) : Statement (.ishl o) := fun _ => ⟨packLane_length _ _ _ o, by decide, by decide, rfl, rfl⟩
theorem ishr (o : LaneOps) : Statement (.ishr o) := fun _ => ⟨packLane_length _ _ _ o, by decide, by decide, rfl, rfl⟩
theorem isar (o : LaneOps) : Statement (.isar o) := fun _ => ⟨packLane_length _ _ _ o, by decide, by decide, rfl, rfl⟩
theorem irotl (o : LaneOps) : Statement (.irotl o) := fun _ => ⟨packLane_length _ _ _ o, by decide, by decide, rfl, rfl⟩
theorem imul (o : LaneOps) : Statement (.imul o) := fun _ => ⟨packLane_length _ _ _ o, by decide, by decide, rfl, rfl⟩
theorem imulh (o : LaneOps) : Statement (.imulh o) := fun _ => ⟨packLane_length _ _ _ o, by decide, by decide, rfl, rfl⟩
theorem imad (o : LaneOps) : Statement (.imad o) := fun _ => ⟨packLane_length _ _ _ o, by decide, by decide, rfl, rfl⟩
theorem idiv (o : LaneOps) : Statement (.idiv o) := fun _ => ⟨packLane_length _ _ _ o, by decide, by decide, rfl, rfl⟩
theorem irem (o : LaneOps) : Statement (.irem o) := fun _ => ⟨packLane_length _ _ _ o, by decide, by decide, rfl, rfl⟩
theorem iclz (o : LaneOps) : Statement (.iclz o) := fun _ => ⟨packLane_length _ _ _ o, by decide, by decide, rfl, rfl⟩
theorem ictz (o : LaneOps) : Statement (.ictz o) := fun _ => ⟨packLane_length _ _ _ o, by decide, by decide, rfl, rfl⟩
theorem iffs (o : LaneOps) : Statement (.iffs o) := fun _ => ⟨packLane_length _ _ _ o, by decide, by decide, rfl, rfl⟩
theorem ipopc (o : LaneOps) : Statement (.ipopc o) := fun _ => ⟨packLane_length _ _ _ o, by decide, by decide, rfl, rfl⟩
theorem ibrev (o : LaneOps) : Statement (.ibrev o) := fun _ => ⟨packLane_length _ _ _ o, by decide, by decide, rfl, rfl⟩
theorem ibfx (o : LaneOps) : Statement (.ibfx o) := fun _ => ⟨packLane_length _ _ _ o, by decide, by decide, rfl, rfl⟩
theorem ibfi (o : LaneOps) : Statement (.ibfi o) := fun _ => ⟨packLane_length _ _ _ o, by decide, by decide, rfl, rfl⟩
theorem icmpEq (o : LaneOps) : Statement (.icmpEq o) := fun _ => ⟨packLane_length _ _ _ o, by decide, by decide, rfl, rfl⟩
theorem icmpNe (o : LaneOps) : Statement (.icmpNe o) := fun _ => ⟨packLane_length _ _ _ o, by decide, by decide, rfl, rfl⟩
theorem icmpLt (o : LaneOps) : Statement (.icmpLt o) := fun _ => ⟨packLane_length _ _ _ o, by decide, by decide, rfl, rfl⟩
theorem icmpLe (o : LaneOps) : Statement (.icmpLe o) := fun _ => ⟨packLane_length _ _ _ o, by decide, by decide, rfl, rfl⟩
theorem icmpGt (o : LaneOps) : Statement (.icmpGt o) := fun _ => ⟨packLane_length _ _ _ o, by decide, by decide, rfl, rfl⟩
theorem icmpGe (o : LaneOps) : Statement (.icmpGe o) := fun _ => ⟨packLane_length _ _ _ o, by decide, by decide, rfl, rfl⟩
theorem isel (o : LaneOps) : Statement (.isel o) := fun _ => ⟨packLane_length _ _ _ o, by decide, by decide, rfl, rfl⟩
theorem iord (o : LaneOps) : Statement (.iord o) := fun _ => ⟨packLane_length _ _ _ o, by decide, by decide, rfl, rfl⟩
theorem fadd (o : LaneOps) : Statement (.fadd o) := fun _ => ⟨packLane_length _ _ _ o, by decide, by decide, rfl, rfl⟩
theorem fsub (o : LaneOps) : Statement (.fsub o) := fun _ => ⟨packLane_length _ _ _ o, by decide, by decide, rfl, rfl⟩
theorem fmul (o : LaneOps) : Statement (.fmul o) := fun _ => ⟨packLane_length _ _ _ o, by decide, by decide, rfl, rfl⟩
theorem ffma (o : LaneOps) : Statement (.ffma o) := fun _ => ⟨packLane_length _ _ _ o, by decide, by decide, rfl, rfl⟩
theorem fmin (o : LaneOps) : Statement (.fmin o) := fun _ => ⟨packLane_length _ _ _ o, by decide, by decide, rfl, rfl⟩
theorem fmax (o : LaneOps) : Statement (.fmax o) := fun _ => ⟨packLane_length _ _ _ o, by decide, by decide, rfl, rfl⟩
theorem fdiv (o : LaneOps) : Statement (.fdiv o) := fun _ => ⟨packLane_length _ _ _ o, by decide, by decide, rfl, rfl⟩
theorem fsqrt (o : LaneOps) : Statement (.fsqrt o) := fun _ => ⟨packLane_length _ _ _ o, by decide, by decide, rfl, rfl⟩
theorem frcp (o : LaneOps) : Statement (.frcp o) := fun _ => ⟨packLane_length _ _ _ o, by decide, by decide, rfl, rfl⟩
theorem frsq (o : LaneOps) : Statement (.frsq o) := fun _ => ⟨packLane_length _ _ _ o, by decide, by decide, rfl, rfl⟩
theorem fexp2 (o : LaneOps) : Statement (.fexp2 o) := fun _ => ⟨packLane_length _ _ _ o, by decide, by decide, rfl, rfl⟩
theorem flog2 (o : LaneOps) : Statement (.flog2 o) := fun _ => ⟨packLane_length _ _ _ o, by decide, by decide, rfl, rfl⟩
theorem fcmpEq (o : LaneOps) : Statement (.fcmpEq o) := fun _ => ⟨packLane_length _ _ _ o, by decide, by decide, rfl, rfl⟩
theorem fcmpNe (o : LaneOps) : Statement (.fcmpNe o) := fun _ => ⟨packLane_length _ _ _ o, by decide, by decide, rfl, rfl⟩
theorem fcmpLt (o : LaneOps) : Statement (.fcmpLt o) := fun _ => ⟨packLane_length _ _ _ o, by decide, by decide, rfl, rfl⟩
theorem fcmpLe (o : LaneOps) : Statement (.fcmpLe o) := fun _ => ⟨packLane_length _ _ _ o, by decide, by decide, rfl, rfl⟩
theorem fcmpGt (o : LaneOps) : Statement (.fcmpGt o) := fun _ => ⟨packLane_length _ _ _ o, by decide, by decide, rfl, rfl⟩
theorem fcmpGe (o : LaneOps) : Statement (.fcmpGe o) := fun _ => ⟨packLane_length _ _ _ o, by decide, by decide, rfl, rfl⟩
theorem fcmpUn (o : LaneOps) : Statement (.fcmpUn o) := fun _ => ⟨packLane_length _ _ _ o, by decide, by decide, rfl, rfl⟩
theorem fclass (o : LaneOps) : Statement (.fclass o) := fun _ => ⟨packLane_length _ _ _ o, by decide, by decide, rfl, rfl⟩
theorem xadd (o : LaneOps) : Statement (.xadd o) := fun _ => ⟨packLane_length _ _ _ o, by decide, by decide, rfl, rfl⟩
theorem xsub (o : LaneOps) : Statement (.xsub o) := fun _ => ⟨packLane_length _ _ _ o, by decide, by decide, rfl, rfl⟩
theorem xmul (o : LaneOps) : Statement (.xmul o) := fun _ => ⟨packLane_length _ _ _ o, by decide, by decide, rfl, rfl⟩
theorem xfma (o : LaneOps) : Statement (.xfma o) := fun _ => ⟨packLane_length _ _ _ o, by decide, by decide, rfl, rfl⟩
theorem xdiv (o : LaneOps) : Statement (.xdiv o) := fun _ => ⟨packLane_length _ _ _ o, by decide, by decide, rfl, rfl⟩
theorem xsqrt (o : LaneOps) : Statement (.xsqrt o) := fun _ => ⟨packLane_length _ _ _ o, by decide, by decide, rfl, rfl⟩
theorem xmin (o : LaneOps) : Statement (.xmin o) := fun _ => ⟨packLane_length _ _ _ o, by decide, by decide, rfl, rfl⟩
theorem xmax (o : LaneOps) : Statement (.xmax o) := fun _ => ⟨packLane_length _ _ _ o, by decide, by decide, rfl, rfl⟩
theorem xcmp (o : LaneOps) : Statement (.xcmp o) := fun _ => ⟨packLane_length _ _ _ o, by decide, by decide, rfl, rfl⟩
theorem xrndP (o : LaneOps) : Statement (.xrndP o) := fun _ => ⟨packLane_length _ _ _ o, by decide, by decide, rfl, rfl⟩
theorem xrndInt (o : LaneOps) : Statement (.xrndInt o) := fun _ => ⟨packLane_length _ _ _ o, by decide, by decide, rfl, rfl⟩
theorem xcvt (o : LaneOps) : Statement (.xcvt o) := fun _ => ⟨packLane_length _ _ _ o, by decide, by decide, rfl, rfl⟩
theorem xscale (o : LaneOps) : Statement (.xscale o) := fun _ => ⟨packLane_length _ _ _ o, by decide, by decide, rfl, rfl⟩
theorem xsigGet (o : LaneOps) : Statement (.xsigGet o) := fun _ => ⟨packLane_length _ _ _ o, by decide, by decide, rfl, rfl⟩
theorem xsigSet (o : LaneOps) : Statement (.xsigSet o) := fun _ => ⟨packLane_length _ _ _ o, by decide, by decide, rfl, rfl⟩
theorem xtag (o : LaneOps) : Statement (.xtag o) := fun _ => ⟨packLane_length _ _ _ o, by decide, by decide, rfl, rfl⟩
theorem amoAddB32 (o : LaneOps) : Statement (.amoAddB32 o) := fun _ => ⟨packLane_length _ _ _ o, by decide, by decide, rfl, rfl⟩
theorem amoAddB64 (o : LaneOps) : Statement (.amoAddB64 o) := fun _ => ⟨packLane_length _ _ _ o, by decide, by decide, rfl, rfl⟩
theorem amoMinI32 (o : LaneOps) : Statement (.amoMinI32 o) := fun _ => ⟨packLane_length _ _ _ o, by decide, by decide, rfl, rfl⟩
theorem amoMinN32 (o : LaneOps) : Statement (.amoMinN32 o) := fun _ => ⟨packLane_length _ _ _ o, by decide, by decide, rfl, rfl⟩
theorem amoMaxI32 (o : LaneOps) : Statement (.amoMaxI32 o) := fun _ => ⟨packLane_length _ _ _ o, by decide, by decide, rfl, rfl⟩
theorem amoMaxN32 (o : LaneOps) : Statement (.amoMaxN32 o) := fun _ => ⟨packLane_length _ _ _ o, by decide, by decide, rfl, rfl⟩
theorem amoAndB32 (o : LaneOps) : Statement (.amoAndB32 o) := fun _ => ⟨packLane_length _ _ _ o, by decide, by decide, rfl, rfl⟩
theorem amoOrB32 (o : LaneOps) : Statement (.amoOrB32 o) := fun _ => ⟨packLane_length _ _ _ o, by decide, by decide, rfl, rfl⟩
theorem amoXorB32 (o : LaneOps) : Statement (.amoXorB32 o) := fun _ => ⟨packLane_length _ _ _ o, by decide, by decide, rfl, rfl⟩
theorem amoSwapB32 (o : LaneOps) : Statement (.amoSwapB32 o) := fun _ => ⟨packLane_length _ _ _ o, by decide, by decide, rfl, rfl⟩
theorem amoSwapB64 (o : LaneOps) : Statement (.amoSwapB64 o) := fun _ => ⟨packLane_length _ _ _ o, by decide, by decide, rfl, rfl⟩
theorem amoCasB32 (o : LaneOps) : Statement (.amoCasB32 o) := fun _ => ⟨packLane_length _ _ _ o, by decide, by decide, rfl, rfl⟩
theorem amoCasB64 (o : LaneOps) : Statement (.amoCasB64 o) := fun _ => ⟨packLane_length _ _ _ o, by decide, by decide, rfl, rfl⟩
theorem amoCasB128 (o : LaneOps) : Statement (.amoCasB128 o) := fun _ => ⟨packLane_length _ _ _ o, by decide, by decide, rfl, rfl⟩
theorem amoFaddF32 (o : LaneOps) : Statement (.amoFaddF32 o) := fun _ => ⟨packLane_length _ _ _ o, by decide, by decide, rfl, rfl⟩
theorem shflIdx (o : LaneOps) : Statement (.shflIdx o) := fun _ => ⟨packLane_length _ _ _ o, by decide, by decide, rfl, rfl⟩
theorem shflUp (o : LaneOps) : Statement (.shflUp o) := fun _ => ⟨packLane_length _ _ _ o, by decide, by decide, rfl, rfl⟩
theorem shflDown (o : LaneOps) : Statement (.shflDown o) := fun _ => ⟨packLane_length _ _ _ o, by decide, by decide, rfl, rfl⟩
theorem shflXor (o : LaneOps) : Statement (.shflXor o) := fun _ => ⟨packLane_length _ _ _ o, by decide, by decide, rfl, rfl⟩
theorem voteAny (o : LaneOps) : Statement (.voteAny o) := fun _ => ⟨packLane_length _ _ _ o, by decide, by decide, rfl, rfl⟩
theorem voteAll (o : LaneOps) : Statement (.voteAll o) := fun _ => ⟨packLane_length _ _ _ o, by decide, by decide, rfl, rfl⟩
theorem voteBallot (o : LaneOps) : Statement (.voteBallot o) := fun _ => ⟨packLane_length _ _ _ o, by decide, by decide, rfl, rfl⟩
theorem voteUniform (o : LaneOps) : Statement (.voteUniform o) := fun _ => ⟨packLane_length _ _ _ o, by decide, by decide, rfl, rfl⟩
theorem red (o : LaneOps) : Statement (.red o) := fun _ => ⟨packLane_length _ _ _ o, by decide, by decide, rfl, rfl⟩
theorem scanIncl (o : LaneOps) : Statement (.scanIncl o) := fun _ => ⟨packLane_length _ _ _ o, by decide, by decide, rfl, rfl⟩
theorem scanExcl (o : LaneOps) : Statement (.scanExcl o) := fun _ => ⟨packLane_length _ _ _ o, by decide, by decide, rfl, rfl⟩
theorem permbNib (o : LaneOps) : Statement (.permbNib o) := fun _ => ⟨packLane_length _ _ _ o, by decide, by decide, rfl, rfl⟩
theorem permbByte (o : LaneOps) : Statement (.permbByte o) := fun _ => ⟨packLane_length _ _ _ o, by decide, by decide, rfl, rfl⟩
theorem vmov (o : LaneOps) : Statement (.vmov o) := fun _ => ⟨packLane_length _ _ _ o, by decide, by decide, rfl, rfl⟩
theorem smovTov (o : LaneOps) : Statement (.smovTov o) := fun _ => ⟨packLane_length _ _ _ o, by decide, by decide, rfl, rfl⟩
theorem smovTos (o : LaneOps) : Statement (.smovTos o) := fun _ => ⟨packLane_length _ _ _ o, by decide, by decide, rfl, rfl⟩
theorem movpTov (o : LaneOps) : Statement (.movpTov o) := fun _ => ⟨packLane_length _ _ _ o, by decide, by decide, rfl, rfl⟩
theorem movpTop (o : LaneOps) : Statement (.movpTop o) := fun _ => ⟨packLane_length _ _ _ o, by decide, by decide, rfl, rfl⟩
theorem sigfB32 (o : LaneOps) : Statement (.sigfB32 o) := fun _ => ⟨packLane_length _ _ _ o, by decide, by decide, rfl, rfl⟩
theorem sigfB64 (o : LaneOps) : Statement (.sigfB64 o) := fun _ => ⟨packLane_length _ _ _ o, by decide, by decide, rfl, rfl⟩
theorem add (o : ScalarOps) : Statement (.add o) := fun _ => ⟨packScalar_length _ _ o, by decide, by decide, by decide, rfl⟩
theorem sub (o : ScalarOps) : Statement (.sub o) := fun _ => ⟨packScalar_length _ _ o, by decide, by decide, by decide, rfl⟩
theorem minI (o : ScalarOps) : Statement (.minI o) := fun _ => ⟨packScalar_length _ _ o, by decide, by decide, by decide, rfl⟩
theorem maxI (o : ScalarOps) : Statement (.maxI o) := fun _ => ⟨packScalar_length _ _ o, by decide, by decide, by decide, rfl⟩
theorem minN (o : ScalarOps) : Statement (.minN o) := fun _ => ⟨packScalar_length _ _ o, by decide, by decide, by decide, rfl⟩
theorem maxN (o : ScalarOps) : Statement (.maxN o) := fun _ => ⟨packScalar_length _ _ o, by decide, by decide, by decide, rfl⟩
theorem and (o : ScalarOps) : Statement (.and o) := fun _ => ⟨packScalar_length _ _ o, by decide, by decide, by decide, rfl⟩
theorem or (o : ScalarOps) : Statement (.or o) := fun _ => ⟨packScalar_length _ _ o, by decide, by decide, by decide, rfl⟩
theorem xor (o : ScalarOps) : Statement (.xor o) := fun _ => ⟨packScalar_length _ _ o, by decide, by decide, by decide, rfl⟩
theorem andn (o : ScalarOps) : Statement (.andn o) := fun _ => ⟨packScalar_length _ _ o, by decide, by decide, by decide, rfl⟩
theorem shl (o : ScalarOps) : Statement (.shl o) := fun _ => ⟨packScalar_length _ _ o, by decide, by decide, by decide, rfl⟩
theorem shr (o : ScalarOps) : Statement (.shr o) := fun _ => ⟨packScalar_length _ _ o, by decide, by decide, by decide, rfl⟩
theorem sar (o : ScalarOps) : Statement (.sar o) := fun _ => ⟨packScalar_length _ _ o, by decide, by decide, by decide, rfl⟩
theorem rotl (o : ScalarOps) : Statement (.rotl o) := fun _ => ⟨packScalar_length _ _ o, by decide, by decide, by decide, rfl⟩
theorem mul (o : ScalarOps) : Statement (.mul o) := fun _ => ⟨packScalar_length _ _ o, by decide, by decide, by decide, rfl⟩
theorem mulhI (o : ScalarOps) : Statement (.mulhI o) := fun _ => ⟨packScalar_length _ _ o, by decide, by decide, by decide, rfl⟩
theorem mulhN (o : ScalarOps) : Statement (.mulhN o) := fun _ => ⟨packScalar_length _ _ o, by decide, by decide, by decide, rfl⟩
theorem divI (o : ScalarOps) : Statement (.divI o) := fun _ => ⟨packScalar_length _ _ o, by decide, by decide, by decide, rfl⟩
theorem divN (o : ScalarOps) : Statement (.divN o) := fun _ => ⟨packScalar_length _ _ o, by decide, by decide, by decide, rfl⟩
theorem remI (o : ScalarOps) : Statement (.remI o) := fun _ => ⟨packScalar_length _ _ o, by decide, by decide, by decide, rfl⟩
theorem remN (o : ScalarOps) : Statement (.remN o) := fun _ => ⟨packScalar_length _ _ o, by decide, by decide, by decide, rfl⟩
theorem clz (o : ScalarOps) : Statement (.clz o) := fun _ => ⟨packScalar_length _ _ o, by decide, by decide, by decide, rfl⟩
theorem ctz (o : ScalarOps) : Statement (.ctz o) := fun _ => ⟨packScalar_length _ _ o, by decide, by decide, by decide, rfl⟩
theorem ffs (o : ScalarOps) : Statement (.ffs o) := fun _ => ⟨packScalar_length _ _ o, by decide, by decide, by decide, rfl⟩
theorem popc (o : ScalarOps) : Statement (.popc o) := fun _ => ⟨packScalar_length _ _ o, by decide, by decide, by decide, rfl⟩
theorem brev (o : ScalarOps) : Statement (.brev o) := fun _ => ⟨packScalar_length _ _ o, by decide, by decide, by decide, rfl⟩
theorem bfx (o : ScalarOps) : Statement (.bfx o) := fun _ => ⟨packScalar_length _ _ o, by decide, by decide, by decide, rfl⟩
theorem bfi (o : ScalarOps) : Statement (.bfi o) := fun _ => ⟨packScalar_length _ _ o, by decide, by decide, by decide, rfl⟩
theorem cmpEq (o : ScalarOps) : Statement (.cmpEq o) := fun _ => ⟨packScalar_length _ _ o, by decide, by decide, by decide, rfl⟩
theorem cmpNe (o : ScalarOps) : Statement (.cmpNe o) := fun _ => ⟨packScalar_length _ _ o, by decide, by decide, by decide, rfl⟩
theorem cmpLtI (o : ScalarOps) : Statement (.cmpLtI o) := fun _ => ⟨packScalar_length _ _ o, by decide, by decide, by decide, rfl⟩
theorem cmpLeI (o : ScalarOps) : Statement (.cmpLeI o) := fun _ => ⟨packScalar_length _ _ o, by decide, by decide, by decide, rfl⟩
theorem cmpLtN (o : ScalarOps) : Statement (.cmpLtN o) := fun _ => ⟨packScalar_length _ _ o, by decide, by decide, by decide, rfl⟩
theorem cmpLeN (o : ScalarOps) : Statement (.cmpLeN o) := fun _ => ⟨packScalar_length _ _ o, by decide, by decide, by decide, rfl⟩
theorem sel (o : ScalarOps) : Statement (.sel o) := fun _ => ⟨packScalar_length _ _ o, by decide, by decide, by decide, rfl⟩
theorem plop (o : ScalarOps) : Statement (.plop o) := fun _ => ⟨packScalar_length _ _ o, by decide, by decide, by decide, rfl⟩
theorem movi (o : ScalarOps) : Statement (.movi o) := fun _ => ⟨packScalar_length _ _ o, by decide, by decide, by decide, rfl⟩
theorem movhi (o : ScalarOps) : Statement (.movhi o) := fun _ => ⟨packScalar_length _ _ o, by decide, by decide, by decide, rfl⟩
theorem br (o : BranchOps) : Statement (.br o) := fun _ => ⟨rfl, rfl⟩
theorem jmp (o : ScalarOps) : Statement (.jmp o) := fun _ => ⟨packScalar_length _ _ o, by decide, by decide, by decide, rfl⟩
theorem call (o : ScalarOps) : Statement (.call o) := fun _ => ⟨packScalar_length _ _ o, by decide, by decide, by decide, rfl⟩
theorem calli (o : ScalarOps) : Statement (.calli o) := fun _ => ⟨packScalar_length _ _ o, by decide, by decide, by decide, rfl⟩
theorem ret (o : ScalarOps) : Statement (.ret o) := fun _ => ⟨packScalar_length _ _ o, by decide, by decide, by decide, rfl⟩
theorem csw (o : ScalarOps) : Statement (.csw o) := fun _ => ⟨packScalar_length _ _ o, by decide, by decide, by decide, rfl⟩
theorem nop (o : ScalarOps) : Statement (.nop o) := fun _ => ⟨packScalar_length _ _ o, by decide, by decide, by decide, rfl⟩
theorem yield (o : ScalarOps) : Statement (.yield o) := fun _ => ⟨packScalar_length _ _ o, by decide, by decide, by decide, rfl⟩
theorem spawn (o : ScalarOps) : Statement (.spawn o) := fun _ => ⟨packScalar_length _ _ o, by decide, by decide, by decide, rfl⟩
theorem await (o : ScalarOps) : Statement (.await o) := fun _ => ⟨packScalar_length _ _ o, by decide, by decide, by decide, rfl⟩
theorem exit (o : ScalarOps) : Statement (.exit o) := fun _ => ⟨packScalar_length _ _ o, by decide, by decide, by decide, rfl⟩
theorem cjoin (o : ScalarOps) : Statement (.cjoin o) := fun _ => ⟨packScalar_length _ _ o, by decide, by decide, by decide, rfl⟩
theorem cpart (o : ScalarOps) : Statement (.cpart o) := fun _ => ⟨packScalar_length _ _ o, by decide, by decide, by decide, rfl⟩
theorem ccompact (o : ScalarOps) : Statement (.ccompact o) := fun _ => ⟨packScalar_length _ _ o, by decide, by decide, by decide, rfl⟩
theorem cbar (o : ScalarOps) : Statement (.cbar o) := fun _ => ⟨packScalar_length _ _ o, by decide, by decide, by decide, rfl⟩
theorem carrive (o : ScalarOps) : Statement (.carrive o) := fun _ => ⟨packScalar_length _ _ o, by decide, by decide, by decide, rfl⟩
theorem cwait (o : ScalarOps) : Statement (.cwait o) := fun _ => ⟨packScalar_length _ _ o, by decide, by decide, by decide, rfl⟩
theorem fence (o : ScalarOps) : Statement (.fence o) := fun _ => ⟨packScalar_length _ _ o, by decide, by decide, by decide, rfl⟩
theorem pfence (o : ScalarOps) : Statement (.pfence o) := fun _ => ⟨packScalar_length _ _ o, by decide, by decide, by decide, rfl⟩
theorem waitcCopy (o : ScalarOps) : Statement (.waitcCopy o) := fun _ => ⟨packScalar_length _ _ o, by decide, by decide, by decide, rfl⟩
theorem waitcMatrix (o : ScalarOps) : Statement (.waitcMatrix o) := fun _ => ⟨packScalar_length _ _ o, by decide, by decide, by decide, rfl⟩
theorem waitcSelect (o : ScalarOps) : Statement (.waitcSelect o) := fun _ => ⟨packScalar_length _ _ o, by decide, by decide, by decide, rfl⟩
theorem waitcTrial (o : ScalarOps) : Statement (.waitcTrial o) := fun _ => ⟨packScalar_length _ _ o, by decide, by decide, by decide, rfl⟩
theorem csrr (o : ScalarOps) : Statement (.csrr o) := fun _ => ⟨packScalar_length _ _ o, by decide, by decide, by decide, rfl⟩
theorem csrw (o : ScalarOps) : Statement (.csrw o) := fun _ => ⟨packScalar_length _ _ o, by decide, by decide, by decide, rfl⟩
theorem csrs (o : ScalarOps) : Statement (.csrs o) := fun _ => ⟨packScalar_length _ _ o, by decide, by decide, by decide, rfl⟩
theorem csrc (o : ScalarOps) : Statement (.csrc o) := fun _ => ⟨packScalar_length _ _ o, by decide, by decide, by decide, rfl⟩
theorem trap (o : ScalarOps) : Statement (.trap o) := fun _ => ⟨packScalar_length _ _ o, by decide, by decide, by decide, rfl⟩
theorem tretRetry (o : ScalarOps) : Statement (.tretRetry o) := fun _ => ⟨packScalar_length _ _ o, by decide, by decide, by decide, rfl⟩
theorem tretSkip (o : ScalarOps) : Statement (.tretSkip o) := fun _ => ⟨packScalar_length _ _ o, by decide, by decide, by decide, rfl⟩
theorem tclr (o : ScalarOps) : Statement (.tclr o) := fun _ => ⟨packScalar_length _ _ o, by decide, by decide, by decide, rfl⟩
theorem obres (o : ScalarOps) : Statement (.obres o) := fun _ => ⟨packScalar_length _ _ o, by decide, by decide, by decide, rfl⟩
theorem obrel (o : ScalarOps) : Statement (.obrel o) := fun _ => ⟨packScalar_length _ _ o, by decide, by decide, by decide, rfl⟩
theorem mxgo (o : ScalarOps) : Statement (.mxgo o) := fun _ => ⟨packScalar_length _ _ o, by decide, by decide, by decide, rfl⟩
theorem mxclr (o : ScalarOps) : Statement (.mxclr o) := fun _ => ⟨packScalar_length _ _ o, by decide, by decide, by decide, rfl⟩
theorem accrd (o : ScalarOps) : Statement (.accrd o) := fun _ => ⟨packScalar_length _ _ o, by decide, by decide, by decide, rfl⟩
theorem accwr (o : ScalarOps) : Statement (.accwr o) := fun _ => ⟨packScalar_length _ _ o, by decide, by decide, by decide, rfl⟩
theorem cpyCopy (o : ScalarOps) : Statement (.cpyCopy o) := fun _ => ⟨packScalar_length _ _ o, by decide, by decide, by decide, rfl⟩
theorem cpyFill (o : ScalarOps) : Statement (.cpyFill o) := fun _ => ⟨packScalar_length _ _ o, by decide, by decide, by decide, rfl⟩
theorem cpyLook (o : ScalarOps) : Statement (.cpyLook o) := fun _ => ⟨packScalar_length _ _ o, by decide, by decide, by decide, rfl⟩
theorem selRun (o : ScalarOps) : Statement (.selRun o) := fun _ => ⟨packScalar_length _ _ o, by decide, by decide, by decide, rfl⟩
theorem trial (o : ScalarOps) : Statement (.trial o) := fun _ => ⟨packScalar_length _ _ o, by decide, by decide, by decide, rfl⟩
theorem cbwr (o : ScalarOps) : Statement (.cbwr o) := fun _ => ⟨packScalar_length _ _ o, by decide, by decide, by decide, rfl⟩
theorem lqput (o : ScalarOps) : Statement (.lqput o) := fun _ => ⟨packScalar_length _ _ o, by decide, by decide, by decide, rfl⟩
theorem permit (o : ScalarOps) : Statement (.permit o) := fun _ => ⟨packScalar_length _ _ o, by decide, by decide, by decide, rfl⟩
theorem rand (o : ScalarOps) : Statement (.rand o) := fun _ => ⟨packScalar_length _ _ o, by decide, by decide, by decide, rfl⟩
theorem loadComplete (id : Nat) : Statement (.loadComplete id) := fun _ => ⟨rfl, rfl⟩
theorem xldComplete (id : Nat) : Statement (.xldComplete id) := fun _ => ⟨rfl, rfl⟩
theorem sldData (part core slot : Nat) : Statement (.sldData part core slot) := fun _ => ⟨rfl, rfl⟩
theorem atomicComplete (id : Nat) : Statement (.atomicComplete id) := fun _ => ⟨rfl, rfl⟩
theorem spawnComplete (id : Nat) : Statement (.spawnComplete id) := fun _ => ⟨rfl, rfl⟩
theorem awaitComplete (id : Nat) : Statement (.awaitComplete id) := fun _ => ⟨rfl, rfl⟩
theorem stagePage (part launch page : Nat) : Statement (.stagePage part launch page) := fun _ => ⟨rfl, rfl⟩
theorem wcDrain (part core line : Nat) : Statement (.wcDrain part core line) := fun _ => ⟨rfl, rfl⟩
theorem reservationRelease (part core handle : Nat) : Statement (.reservationRelease part core handle) := fun _ => ⟨rfl, rfl⟩
theorem matrixCommandStart (part core : Nat) : Statement (.matrixCommandStart part core) := fun _ => ⟨rfl, rfl⟩
theorem matrixBoundary (part core : Nat) : Statement (.matrixBoundary part core) := fun _ => ⟨rfl, rfl⟩
theorem matrixSpillComplete (part core : Nat) : Statement (.matrixSpillComplete part core) := fun _ => ⟨rfl, rfl⟩
theorem matrixResume (part core : Nat) : Statement (.matrixResume part core) := fun _ => ⟨rfl, rfl⟩
theorem matrixCommandComplete (part core : Nat) : Statement (.matrixCommandComplete part core) := fun _ => ⟨rfl, rfl⟩
theorem copyBurst (part core : Nat) : Statement (.copyBurst part core) := fun _ => ⟨rfl, rfl⟩
theorem copyComplete (part core id : Nat) : Statement (.copyComplete part core id) := fun _ => ⟨rfl, rfl⟩
theorem codeBankWriteStart (part core id : Nat) : Statement (.codeBankWriteStart part core id) := fun _ => ⟨rfl, rfl⟩
theorem lookaheadComplete (part core id : Nat) : Statement (.lookaheadComplete part core id) := fun _ => ⟨rfl, rfl⟩
theorem selectPass (part core : Nat) : Statement (.selectPass part core) := fun _ => ⟨rfl, rfl⟩
theorem selectComplete (part core : Nat) : Statement (.selectComplete part core) := fun _ => ⟨rfl, rfl⟩
theorem trialStart (part core tid : Nat) : Statement (.trialStart part core tid) := fun _ => ⟨rfl, rfl⟩
theorem exampleFold (part core slot : Nat) : Statement (.exampleFold part core slot) := fun _ => ⟨rfl, rfl⟩
theorem fuelExhausted (part core slot : Nat) : Statement (.fuelExhausted part core slot) := fun _ => ⟨rfl, rfl⟩
theorem dedupLookup (part core id : Nat) : Statement (.dedupLookup part core id) := fun _ => ⟨rfl, rfl⟩
theorem dispatch (part : Nat) : Statement (.dispatch part) := fun _ => ⟨rfl, rfl⟩
theorem waitWordPoll (part q : Nat) : Statement (.waitWordPoll part q) := fun _ => ⟨rfl, rfl⟩
theorem patchApply (part q : Nat) : Statement (.patchApply part q) := fun _ => ⟨rfl, rfl⟩
theorem crewAssign (part : Nat) : Statement (.crewAssign part) := fun _ => ⟨rfl, rfl⟩
theorem threadStart (part core : Nat) : Statement (.threadStart part core) := fun _ => ⟨rfl, rfl⟩
theorem balanceTick (part : Nat) : Statement (.balanceTick part) := fun _ => ⟨rfl, rfl⟩
theorem signalIncrement (part launch : Nat) : Statement (.signalIncrement part launch) := fun _ => ⟨rfl, rfl⟩
theorem launchCommit (part launch : Nat) : Statement (.launchCommit part launch) := fun _ => ⟨rfl, rfl⟩
theorem grantRefresh (grants : List Nat) : Statement (.grantRefresh grants) := fun _ => ⟨rfl, rfl⟩
theorem tierHandStep (free : Nat) : Statement (.tierHandStep free) := fun _ => ⟨rfl, rfl⟩
theorem tierFetchComplete (part page frame : Nat) : Statement (.tierFetchComplete part page frame) := fun _ => ⟨rfl, rfl⟩
theorem watchdogExpiry (part core slot : Nat) : Statement (.watchdogExpiry part core slot) := fun _ => ⟨rfl, rfl⟩
theorem patrolScrub (granule : Nat) : Statement (.patrolScrub granule) := fun _ => ⟨rfl, rfl⟩
theorem peerTimeout (id : Nat) : Statement (.peerTimeout id) := fun _ => ⟨rfl, rfl⟩
theorem sliceExpiry (part : Nat) : Statement (.sliceExpiry part) := fun _ => ⟨rfl, rfl⟩
theorem swapHaltComplete (part : Nat) : Statement (.swapHaltComplete part) := fun _ => ⟨rfl, rfl⟩
theorem swapExchangeComplete (part : Nat) : Statement (.swapExchangeComplete part) := fun _ => ⟨rfl, rfl⟩
theorem migration (core : Nat) : Statement (.migration core) := fun _ => ⟨rfl, rfl⟩
theorem migrationComplete (core : Nat) : Statement (.migrationComplete core) := fun _ => ⟨rfl, rfl⟩
theorem scanComplete (die core : Nat) (pass : Bool) : Statement (.scanComplete die core pass) := fun _ => ⟨rfl, rfl⟩
theorem xlinvComplete (part : Nat) : Statement (.xlinvComplete part) := fun _ => ⟨rfl, rfl⟩
theorem unassignedMajorOrMinor (why : Unassigned) : Statement (.unassignedMajorOrMinor why) := fun _ => ⟨rfl, rfl⟩
theorem filterCacheDrop (part core idx : Nat) : Statement (.filterCacheDrop part core idx) := fun _ => ⟨rfl, rfl⟩
theorem peerRequest : Statement .peerRequest := fun _ => ⟨rfl, rfl⟩
theorem hostBar2Access : Statement .hostBar2Access := fun _ => ⟨rfl, rfl⟩
theorem lqdb : Statement .lqdb := fun _ => ⟨rfl, rfl⟩
theorem lqstatClear : Statement .lqstatClear := fun _ => ⟨rfl, rfl⟩
theorem xlinvPage : Statement .xlinvPage := fun _ => ⟨rfl, rfl⟩
theorem xlinvPartition : Statement .xlinvPartition := fun _ => ⟨rfl, rfl⟩
theorem pswapGo : Statement .pswapGo := fun _ => ⟨rfl, rfl⟩
theorem pswapPair : Statement .pswapPair := fun _ => ⟨rfl, rfl⟩
theorem stkap : Statement .stkap := fun _ => ⟨rfl, rfl⟩
theorem retry : Statement .retry := fun _ => ⟨rfl, rfl⟩
theorem skip : Statement .skip := fun _ => ⟨rfl, rfl⟩
theorem skipclr : Statement .skipclr := fun _ => ⟨rfl, rfl⟩
theorem kill : Statement .kill := fun _ => ⟨rfl, rfl⟩
theorem ack : Statement .ack := fun _ => ⟨rfl, rfl⟩
theorem pwrlim : Statement .pwrlim := fun _ => ⟨rfl, rfl⟩
theorem tierwm : Statement .tierwm := fun _ => ⟨rfl, rfl⟩
theorem resetctl : Statement .resetctl := fun _ => ⟨rfl, rfl⟩
theorem registerWrite : Statement .registerWrite := fun _ => ⟨rfl, rfl⟩
theorem functionLevelReset : Statement .functionLevelReset := fun _ => ⟨rfl, rfl⟩
theorem coldBoot : Statement .coldBoot := fun _ => ⟨rfl, rfl⟩
theorem temperatureChange : Statement .temperatureChange := fun _ => ⟨rfl, rfl⟩
theorem mgmtReadStatus : Statement .mgmtReadStatus := fun _ => ⟨rfl, rfl⟩
theorem mgmtSetPwrlim : Statement .mgmtSetPwrlim := fun _ => ⟨rfl, rfl⟩
theorem mgmtReadStore : Statement .mgmtReadStore := fun _ => ⟨rfl, rfl⟩
theorem mgmtRewriteStore : Statement .mgmtRewriteStore := fun _ => ⟨rfl, rfl⟩
theorem mgmtReset : Statement .mgmtReset := fun _ => ⟨rfl, rfl⟩
theorem fltcmdRefusedAct : Statement .fltcmdRefusedAct := fun _ => ⟨rfl, rfl⟩
theorem xlinvRefusedKind : Statement .xlinvRefusedKind := fun _ => ⟨rfl, rfl⟩

/-- The values of a field of two bits. -/
theorem two_bits (k : BitVec 2) : k = 0#2 ∨ k = 1#2 ∨ k = 2#2 ∨ k = 3#2 := by
  revert k
  decide

theorem fcvt (f : BitVec 4) (o : LaneOps) : Statement (.fcvt f o) := fun _ => by
  have e : ∀ f : BitVec 4, f = 0#4 ∨ f = 1#4 ∨ f = 2#4 ∨ f = 3#4 ∨ f = 4#4 ∨ f = 5#4 ∨ f = 6#4 ∨ f = 7#4 ∨ f = 8#4 ∨ f = 9#4 ∨
      f = 10#4 ∨ f = 11#4 ∨ f = 12#4 ∨ f = 13#4 ∨ f = 14#4 ∨ f = 15#4 := by decide
  refine ⟨packLane_length _ _ _ o, by decide, f.isLt, ?_⟩
  rcases e f with rfl | rfl | rfl | rfl | rfl | rfl | rfl | rfl | rfl | rfl | rfl | rfl | rfl | rfl | rfl | rfl <;> exact ⟨rfl, rfl⟩

theorem ld (k : BitVec 2) (o : LaneOps) : Statement (.ld k o) := fun _ => by
  refine ⟨packLane_length _ _ _ o, by decide, by have := k.isLt; omega, ?_⟩
  rcases two_bits k with rfl | rfl | rfl | rfl <;> exact ⟨rfl, rfl⟩

/-- A store to the constant space is not admitted. -/
theorem st (k : BitVec 2) (o : LaneOps) : Statement (.st k o) := fun h => by
  have hm : (storeMod o.mod && k != 2#2) = true := wfLane_modOk (wf_lane rfl h)
  refine ⟨packLane_length _ _ _ o, by decide, by have := k.isLt; omega, ?_⟩
  rcases two_bits k with rfl | rfl | rfl | rfl
  · exact ⟨rfl, rfl⟩
  · exact ⟨rfl, rfl⟩
  · simp at hm
  · exact ⟨rfl, rfl⟩

theorem xld (k : BitVec 2) (o : LaneOps) : Statement (.xld k o) := fun _ => by
  refine ⟨packLane_length _ _ _ o, by decide, by have := k.isLt; omega, ?_⟩
  rcases two_bits k with rfl | rfl | rfl | rfl <;> exact ⟨rfl, rfl⟩

/-- A store to the constant space is not admitted. -/
theorem xst (k : BitVec 2) (o : LaneOps) : Statement (.xst k o) := fun h => by
  have hm : (o.mod == 0#5 && k != 2#2) = true := wfLane_modOk (wf_lane rfl h)
  refine ⟨packLane_length _ _ _ o, by decide, by have := k.isLt; omega, ?_⟩
  rcases two_bits k with rfl | rfl | rfl | rfl
  · exact ⟨rfl, rfl⟩
  · exact ⟨rfl, rfl⟩
  · simp at hm
  · exact ⟨rfl, rfl⟩

/-- Width 7 is not admitted. -/
theorem sld (k : BitVec 3) (o : ScalarOps) : Statement (.sld k o) := fun h => by
  have hm : (k != 7#3) = true := wfScalar_extra (wf_scalar rfl h)
  have e : ∀ k : BitVec 3, (k != 7#3) = true → k = 0#3 ∨ k = 1#3 ∨ k = 2#3 ∨ k = 3#3 ∨ k = 4#3 ∨ k = 5#3 ∨ k = 6#3 := by decide
  refine ⟨packScalar_length _ _ o, by decide, by decide, by have := k.isLt; omega, ?_⟩
  rcases e k hm with rfl | rfl | rfl | rfl | rfl | rfl | rfl <;> rfl

theorem sst (k : BitVec 2) (o : ScalarOps) : Statement (.sst k o) := fun _ => by
  refine ⟨packScalar_length _ _ o, by decide, by decide, by have := k.isLt; omega, ?_⟩
  rcases two_bits k with rfl | rfl | rfl | rfl <;> rfl

end EncodedForm

end Sys2Proof.Laws
end

