-- ==== Sys2Proof/Tests/Slice0.lean ====
section
/-!
SUPPORT. Sys2Proof/Tests/Slice0.lean: our own tests. Expected values come from the spec: words are put together from the fields of R86, R88,
R89, R91, R92 and R99, results are worked out from the rules. A theorem named test_witness_<Statement> shows that the hypotheses of the
clauses of Obligations.<Statement> can be met.
-/
namespace Sys2Proof.Tests
open Sys2Proof Sys2Proof.Machine

set_option Elab.async false

/-! ### Decoding -/

/-- A lane instruction without an extension word. -/
def lane (d a b : BitVec 7) : LaneOps :=
  { x := false, pg := 7, pn := false, ep := false, d := d, a := a, b := .cell b, na := .full, nb := .full, nd := .full, c := 0, ro := 0,
    falt := false, mod := 0 }

/-- A lane instruction with an extension word of guard p7, third operand and MOD. -/
def laneX (d a b c : BitVec 7) (mod : BitVec 5) : LaneOps := { lane d a b with x := true, c := c, mod := mod }

/-- A scalar instruction with guard p7 and no extension word. -/
def scalar (d a b : BitVec 6) : ScalarOps := { x := false, pred := 7, pn := false, ep := false, d := d, a := a, b := .code b, mod := 0 }

/-- The same with an extension word that holds MOD. -/
def scalarX (d a b : BitVec 6) (mod : BitVec 5) : ScalarOps := { scalar d a b with x := true, mod := mod }

/-- The same with an immediate. -/
def scalarImm (d a : BitVec 6) (v : BitVec 27) (mod : BitVec 5) : ScalarOps := { scalar d a 0 with x := true, b := .imm v, mod := mod }

/-- The words decode to the instruction, which is encoded as these words. -/
def reads (xs : List (List Word × Instr)) : Bool :=
  xs.all fun x => encode x.2 == x.1 && (match decodeWords .z3 x.1 with
    | .ok i => i == x.2
    | .error _ => false)


/-! ### Small states for the witnesses -/

/-- A thread of launch 1 about to execute at address 0: cell i and scalar register i hold i, p0 is true. -/
def thread0 : Thread :=
  { placedThread with
    cells := (List.range 128).map fun i => ⟨BitVec.ofNat 32 i, true, .plain⟩
    sregs := Vector.ofFn fun i => BitVec.ofNat 64 i.val
    preds := Vector.ofFn fun i => i.val == 0 }

/-- The entry of page `p`, 2 MiB of device memory from 0x40000000 up: page 0 holds code (readable, executable), pages 1 to 4 are readable
and writable, of memory types 0, 1, 2 and 3 (R276 to R278, R283). -/
def pte (p : Nat) : Nat := 2 ^ 56 + 0x40000000 + p * 0x200000 + if p = 0 then 11 else 7 + 1024 * (p - 1)

/-- Zero bytes. -/
def zs (n : Nat) : List Byte := List.replicate n 0

/-- One partition of cores 0 and 1 with its launch 1, these five pages from virtual address 0 up, and at 0xA00000 a page of 64 KiB of the
second tier that is not resident (R286). -/
def hw0 : Hw :=
  { Hw.booted with
    parts := [{ Part.fresh 0 [0, 1] 0 true with xlroot := 0x100001, nextLaunch := 2 }]
    ctxs := [{ Ctx.empty 0 0 with regions := [⟨1, [], [], [], []⟩] }, Ctx.empty 0 1]
    launches := [placedLaunch]
    budgets := [Budget.fresh 0, Budget.fresh 1]
    cores := [⟨0, 0, .serving 0, 0⟩, ⟨0, 1, .serving 1, 0⟩, ⟨0, 12, .spare, 0⟩]
    mem := (List.range 5).foldl (fun m p => writeBytes m (0x102000 + 8 * p) (leBytes 8 (pte p)))
      ((List.range 16).foldl (fun m i => writeBytes m (0x103000 + 8 * i) (leBytes 8 (2 ^ 57 + 2 ^ 56 + 0x107)))
        (writeBytes (writeBytes (writeBytes [] 0x100000 (leBytes 8 0x101001)) 0x101000 (leBytes 8 0x102001)) 0x102028 (leBytes 8 0x103001))) }

/-- That thread in that module, executing. -/
def state0 : State := { State.reset with hw := hw0, th := thread0 }

/-- The same with another thread record. -/
def withTh (t : Thread) : State := state0.setTh t

/-- An instruction reaches its own effect with its thread unchanged. -/
def entersNow (s : State) (i : Instr) : Bool :=
  s.th.regsOk i && s.th.charge i == some s.th && s.th.guard i && !(s.th.trial.isSome && trialForbidden i)

theorem entered {s : State} {i : Instr} (h : entersNow s i = true) : Entered i s s.th := by
  simp only [entersNow, Bool.and_eq_true, beq_iff_eq, Bool.not_eq_true'] at h
  exact ⟨h.1.1.1, h.1.1.2, h.1.2, h.2⟩

/-- Cells are full. -/
def fullNow (t : Thread) (i n : Nat) : Bool := (List.range n).all fun j => (t.cell (i + j)).full

theorem fullAt_of {t : Thread} {i n : Nat} (h : fullNow t i n = true) : t.fullAt i n := by
  intro j h1 h2
  have := List.all_eq_true.1 h (j - i) (List.mem_range.2 (by omega))
  rwa [show i + (j - i) = j by omega] at this

theorem sourcesFull_of {t : Thread} {xs : List Source} (h : xs.all (fun x => fullNow t x.2.1 x.2.2) = true) : t.sourcesFull xs :=
  fun x hx => fullAt_of (List.all_eq_true.1 h x hx)

/-- A computation succeeds with a value that a test accepts. -/
def gives {ε α : Type} (x : Except ε α) (p : α → Bool) : Bool := match x with
  | .ok a => p a
  | .error _ => false

theorem ok_of_gives {ε α : Type} {x : Except ε α} {p : α → Bool} (h : gives x p = true) : ∃ a, x = .ok a ∧ p a = true := by
  cases x with
  | ok a => exact ⟨a, rfl, h⟩
  | error e => simp [gives] at h

theorem some_of {α : Type} {x : Option α} {p : α → Bool} (h : x.any p = true) : ∃ a, x = some a ∧ p a = true := by
  cases x with
  | none => cases h
  | some a => exact ⟨a, rfl, h⟩

/-- A computation stops at a fault that a test accepts. -/
def faults {α : Type} (x : Except Stop α) (p : SupFault → Bool) : Bool := match x with
  | .error (.fault g) => p g
  | _ => false

theorem fault_of {α : Type} {x : Except Stop α} {p : SupFault → Bool} (h : faults x p = true) : ∃ g, x = .error (.fault g) ∧ p g = true := by
  unfold faults at h
  split at h
  · exact ⟨_, rfl, h⟩
  · cases h

/-- A computation stops without a fault. -/
def waits {α : Type} (x : Except Stop α) : Bool := match x with
  | .ok _ => false
  | .error (.fault _) => false
  | .error _ => true

theorem error_of {α : Type} {x : Except Stop α} (h : waits x = true) : ∃ e, x = .error e ∧ ∀ g, e ≠ .fault g := by
  unfold waits at h
  split at h
  · cases h
  · cases h
  · rename_i e hn
    exact ⟨e, rfl, fun g hg => hn g hg⟩

/-- A computation stops. -/
def stops {ε α : Type} (x : Except ε α) : Bool := match x with
  | .ok _ => false
  | .error _ => true

theorem entersAll {s : State} {xs : List Instr} (h : xs.all (entersNow s) = true) : ∀ i ∈ xs, Entered i s s.th :=
  fun i hi => entered (List.all_eq_true.1 h i hi)

/-! ### Witnesses: fetching and decoding, the frame, traps and faults -/

/-- IADD v5, v1, v2 and IADD.n v5, v2, v3 with its extension word, placed for the next step. -/
theorem test_witness_StepRunsDecodedInstruction :
    (∃ s1, fetchWord ((State.reset.withFetchWord 32 0x00014082).enterThread placedThread) 0 = .ok (0x00014082, s1) ∧
      decode s1.th.mode 0x00014082 0 = .ok (.iadd (lane 5 1 2))) ∧
    (∃ s1 s2, fetchWord ((State.reset.withFetchWord 64 0xE000000140014103).enterThread placedThread) 0 = .ok (0x40014103, s1) ∧
      fetchWord s1 (s1.th.pc + 4) = .ok (0xE0000001, s2) ∧ decode s2.th.mode 0x40014103 0xE0000001 = .ok (.iadd (laneX 5 2 3 0 1))) ∧
    ∀ n w, (State.reset.withFetchWord n w).agenda = [.issue ⟨0, 0, 0⟩] ∧
      ({ State.reset.withFetchWord n w with agenda := [] } : State).thread? ⟨0, 0, 0⟩ = some placedThread ∧
      mayIssue { State.reset.withFetchWord n w with agenda := [] } placedThread = true := by
  refine ⟨?_, ?_, fun n w => ⟨rfl, rfl, rfl⟩⟩
  · obtain ⟨⟨w, s1⟩, h, hp⟩ := ok_of_gives (x := fetchWord ((State.reset.withFetchWord 32 0x00014082).enterThread placedThread) 0)
      (p := fun x => x.1 == 0x00014082 && x.2.th.mode == .z3) (by decide)
    simp only [Bool.and_eq_true, beq_iff_eq] at hp
    exact ⟨s1, by rw [h, hp.1], by rw [hp.2]; rfl⟩
  · obtain ⟨⟨w, s1⟩, h, hp⟩ := ok_of_gives (x := fetchWord ((State.reset.withFetchWord 64 0xE000000140014103).enterThread placedThread) 0)
      (p := fun x => x.1 == 0x40014103 && gives (fetchWord x.2 (x.2.th.pc + 4)) fun y => y.1 == 0xE0000001 && y.2.th.mode == .z3) (by decide)
    simp only [Bool.and_eq_true, beq_iff_eq] at hp
    obtain ⟨⟨w', s2⟩, h', hp'⟩ := ok_of_gives hp.2
    simp only [Bool.and_eq_true, beq_iff_eq] at hp'
    exact ⟨s1, s2, by rw [h, hp.1], by rw [h', hp'.1], by rw [hp'.2]; rfl⟩

theorem test_witness_DecodeInvertsEncode : (Instr.iadd (laneX 5 2 3 0 1)).WellFormed ∧ (Instr.iadd (laneX 5 2 3 0 1)).form ≠ .step ∧
    (Instr.sst 3 (scalarX 4 6 7 1)).WellFormed ∧ (Instr.sst 3 (scalarX 4 6 7 1)).form ≠ .step := by decide

theorem test_witness_DecodedIsWellFormed : decode .z1 0x00014082 0 = .ok (.iadd (lane 5 1 2)) ∧
    decode .z2 0x12000000 0 = .ok (.unassignedMajorOrMinor .removed) := ⟨rfl, rfl⟩

/-- The first unassigned majors of both sets, and a placed word of one. -/
theorem test_witness_UnassignedMajorRaisesIll :
    (if (0x24000000 : Word)[31] then 0x13 else 0x12) ≤ ((0x24000000 : Word).extractLsb' 25 5).toNat ∧
    (if (0xA6000000 : Word)[31] then 0x13 else 0x12) ≤ ((0xA6000000 : Word).extractLsb' 25 5).toNat ∧
    ∃ w s1, fetchWord state0 state0.th.pc = .ok (w, s1) :=
  ⟨by decide, by decide, by
    obtain ⟨⟨w, s1⟩, h, _⟩ := ok_of_gives (x := fetchWord state0 state0.th.pc) (p := fun _ => true) (by decide +kernel)
    exact ⟨w, s1, h⟩⟩

/-- A trial thread with one unit of fuel. -/
def trialThread : Thread :=
  { thread0 with
    trial := some ⟨⟨0, 0, 1, 0, 16, 1, 1, 1, 64, 0, 8, 100, 0x200000, 0x210000, 0x220000, ⟨0, 0, 1⟩, 0, 0, 0, []⟩, 0, 0, false, false, false, [], [], []⟩
    fuel := 1, charged := false }

/-- A false guard outside and in a trial, and a cell beyond a window of 4. -/
theorem test_witness_GuardAndWindowChecks :
    (∃ t, Guardable (.add { scalar 4 6 7 with pred := 1 }) ∧ state0.th.regsOk (.add { scalar 4 6 7 with pred := 1 }) = true ∧
      state0.th.charge (.add { scalar 4 6 7 with pred := 1 }) = some t ∧ t.guard (.add { scalar 4 6 7 with pred := 1 }) = false) ∧
    (∃ t, Guardable (.nop { scalar 0 0 0 with pred := 1 }) ∧ (withTh trialThread).th.regsOk (.nop { scalar 0 0 0 with pred := 1 }) = true ∧
      (withTh trialThread).th.charge (.nop { scalar 0 0 0 with pred := 1 }) = some t ∧ t.guard (.nop { scalar 0 0 0 with pred := 1 }) = false ∧
      (withTh trialThread).th.trial.isSome = true ∧ (withTh trialThread).th.charged = false) ∧
    (Guardable (.iadd (lane 5 1 2)) ∧ (withTh { thread0 with win := 5 }).th.regsOk (.iadd (lane 5 1 2)) = false) ∧
    ((∃ minor sig o, (Instr.shflIdx (lane 5 1 2)).form = .lane 15 minor sig o) ∧
      (withTh { thread0 with win := 5 }).th.regsOk (.shflIdx (lane 5 1 2)) = false) :=
  ⟨⟨thread0, trivial, by decide, by decide, by decide⟩,
    ⟨{ trialThread with fuel := 0, charged := true }, trivial, by decide, by decide, by decide, by decide, by decide⟩,
    ⟨by simp [Guardable, Instr.form], by decide⟩, ⟨_, _, _, rfl⟩, by decide⟩

theorem test_witness_LocalTrapIsDelivered :
    ((withTh { thread0 with ltv := 4 }).th.trial = none ∧ (withTh { thread0 with ltv := 4 }).th.tstate = false ∧
      (withTh { thread0 with ltv := 4 }).th.ltv ≠ 0) ∧
    ((withTh { thread0 with tstate := true }).th.trial = none ∧ (withTh { thread0 with tstate := true }).th.tstate = true) ∧
    (state0.th.trial = none ∧ state0.th.ltv = 0) := by decide

/-- The state with a fault area of `n` bytes at an address. -/
def withArea (a : DWord) (n seq : Nat) : State :=
  state0.mapHw fun h => { h with launches := [{ placedLaunch with faddr := a, fsize := n, seq := seq }] }

theorem launch_area (a : DWord) (n seq : Nat) :
    (withArea a n seq).hw.launch? 0 1 = some { placedLaunch with faddr := a, fsize := n, seq := seq } := by
  simp [withArea, State.mapHw, Hw.launch?, placedLaunch]

/-- A record of launch 1 that is written in parts, and one whose launch has ended. -/
def waitingRecord (put : List Nat) : RecWait := ⟨0, 1, 0x200020, zs 32, put, none⟩
def goneRecord : RecWait := ⟨0, 9, 0x200020, zs 32, [], some (true, false)⟩

/-- Before its first part and before its last one, in memory; a launch that ends with its record still to be written; one that has ended. -/
theorem test_witness_SupervisorFaultParksAndRecords_parts :
    let s (put : List Nat) : State := (withArea 0x200020 64 1).mapHw fun h => { h with records := [waitingRecord put] }
    (∀ put ∈ [[], [0, 1, 2]], (s put).canonical ∧ (s put).hw.records.find? (fun x => x.part == 0 && x.launch == 1) = some (waitingRecord put) ∧
      (s put).hw.launch? 0 1 = some { placedLaunch with faddr := 0x200020, fsize := 64, seq := 1 } ∧ (waitingRecord put).bytes.length = 32) ∧
    (∀ n ∈ [0, 3], gives (checkGen (s []) (systemWho 0) .store ((waitingRecord []).addr + BitVec.ofNat 64 (8 * n)) 8)
      (fun xs => decide (xkeys xs).Nodup) = true) ∧
    ((dropLaunch (s []) 0 1).hw.records.any fun r => r.part == 0 && r.launch == 1) = true ∧
    ((s []).hw.launch? goneRecord.part goneRecord.launch = none ∧ goneRecord.bytes.length = 32 ∧
      gives (checkGen (s []) (systemWho 0) .store goneRecord.addr 32) (fun xs => xs.length == 32 && decide (xkeys xs).Nodup) = true) := by
  refine ⟨fun put hp => ?_, by decide +kernel, by decide +kernel, by decide +kernel⟩
  simp only [List.mem_cons, List.not_mem_nil, or_false] at hp
  rcases hp with rfl | rfl <;> exact ⟨by unfold State.canonical; decide +kernel, by decide +kernel, by decide +kernel, rfl⟩

/-- The state with a fault area of 64 bytes in page 1, which another launch has staged. -/
def stagedArea : State := (withArea 0x200020 64 1).mapHw fun h => { h with
  launches := h.launches ++ [{ placedLaunch with id := 2, restartable := true, staged := [⟨0x200000, 4096, 0x40200000, 0x50000000, true⟩] }] }

/-- No launch; an area without room for the next record, and one at no multiple of 32; one with room for exactly this one, in memory, at no
page, and on a staged page; an earlier record that waits. -/
theorem test_witness_SupervisorFaultParksAndRecords :
    (state0.th.trial = none ∧ state0.canonical ∧
      (state0.mapHw fun h => { h with launches := [] }).hw.launch? state0.th.key.part state0.th.launch = none) ∧
    (∃ l, (withArea 0x200020 63 1).hw.launch? 0 1 = some l ∧ l.fsize < 32 * (l.seq + 1)) ∧
    (∃ l, (withArea 0x200021 64 1).hw.launch? 0 1 = some l ∧ l.faddr.toNat % 32 ≠ 0) ∧
    ((0x200020#64).toNat % 32 = 0 ∧ (0xC00000#64).toNat % 32 = 0) ∧
    (∀ a, (withArea a 64 1).th.trial = none ∧ (withArea a 64 1).canonical ∧ (withArea a 64 1).hw.records = [] ∧
      ∃ l, (withArea a 64 1).hw.launch? 0 1 = some l ∧ l.faddr = a ∧ 32 * (l.seq + 1) ≤ l.fsize) ∧
    (∃ xs, checkGen (withArea 0x200020 64 1) (systemWho 0) .store (0x200020 + 32) 32 = .ok xs ∧ (xkeys xs).Nodup) ∧
    (∃ g, checkGen (withArea 0xC00000 64 1) (systemWho 0) .store (0xC00000 + 32) 32 = .error (.fault g)) ∧
    (∃ e, checkGen stagedArea (systemWho 0) .store (0x200020 + 32) 32 = .error e ∧ ∀ g, e ≠ .fault g) ∧
    ((withArea 0x200020 64 1).mapHw fun h => { h with records := [⟨0, 1, 0x200020, [], [], none⟩] }).hw.records.any
      (fun x => x.part == 0 && x.launch == 1) = true ∧ (withArea 0x200020 64 1).hw.apart = false := by
  refine ⟨⟨by decide +kernel, by unfold State.canonical; decide +kernel, by decide +kernel⟩, ⟨_, launch_area _ _ _, by decide⟩,
    ⟨_, launch_area _ _ _, show (0x200021#64).toNat % 32 ≠ 0 by decide⟩, by decide, fun a => ⟨rfl, ?_, rfl, _, launch_area a 64 1, rfl, show 32 * (1 + 1) ≤ 64 by decide⟩, ?_, ?_, ?_, by decide +kernel, rfl⟩
  · simp only [State.canonical, withArea, State.mapHw]
    decide +kernel
  · obtain ⟨xs, h, hp⟩ := ok_of_gives (x := checkGen (withArea 0x200020 64 1) (systemWho 0) .store (0x200020 + 32) 32)
      (p := fun xs => decide (xkeys xs).Nodup) (by decide +kernel)
    exact ⟨xs, h, by simpa using hp⟩
  · obtain ⟨g, h, _⟩ := fault_of (x := checkGen (withArea 0xC00000 64 1) (systemWho 0) .store (0xC00000 + 32) 32) (p := fun _ => true)
      (by decide +kernel)
    exact ⟨g, h⟩
  · exact error_of (x := checkGen stagedArea (systemWho 0) .store (0x200020 + 32) 32) (by decide +kernel)

/-! ### Witnesses: the scalar set -/

/-- The scalar instructions of the majors SALU and SSHIFT. -/
def scalarAlu (o : ScalarOps) : List Instr :=
  [.add o, .sub o, .minI o, .maxI o, .minN o, .maxN o, .and o, .or o, .xor o, .andn o, .shl o, .shr o, .sar o, .rotl o]

theorem test_witness_ScalarAluAndShiftResults :
    ∀ i ∈ scalarAlu (scalar 4 6 7) ++ scalarAlu (scalarImm 4 63 0x7FFFFFF 0), Entered i state0 thread0 := entersAll (by decide)

/-- A nonzero divisor, a zero divisor (s0), and a zero divisor with IDZE. -/
theorem test_witness_ScalarMultiplyDivideResults :
    (∀ i ∈ [Instr.mul (scalar 4 6 7), .mulhI (scalar 4 6 7), .mulhN (scalar 4 6 7)], Entered i state0 thread0) ∧
    (thread0.scalarB (.code 7) ≠ 0 ∧
      ∀ i ∈ [Instr.divI (scalar 4 6 7), .divN (scalar 4 6 7), .remI (scalar 4 6 7), .remN (scalar 4 6 7)], Entered i state0 thread0) ∧
    (thread0.scalarB (.code 0) = 0 ∧ thread0.fcsr[24] = false ∧
      ∀ i ∈ [Instr.divI (scalar 4 6 0), .divN (scalar 4 6 0), .remI (scalar 4 6 0), .remN (scalar 4 6 0)], Entered i state0 thread0) ∧
    let t : Thread := { thread0 with fcsr := 0x1000000 }
    (t.scalarB (.code 0) = 0 ∧ t.fcsr[24] = true ∧
      ∀ i ∈ [Instr.divI (scalar 4 6 0), .divN (scalar 4 6 0), .remI (scalar 4 6 0), .remN (scalar 4 6 0)], Entered i (withTh t) t) :=
  ⟨entersAll (by decide), ⟨by decide, entersAll (by decide)⟩, ⟨by decide, by decide, entersAll (by decide)⟩, by decide, by decide,
    entersAll (s := withTh { thread0 with fcsr := 0x1000000 }) (by decide)⟩

theorem test_witness_ScalarBitResults :
    ∀ i ∈ [Instr.clz (scalar 4 6 0), .ctz (scalar 4 6 0), .ffs (scalar 4 6 0), .popc (scalar 4 6 0), .brev (scalar 4 6 0),
      .bfx (scalar 4 6 7), .bfi (scalar 4 6 7)], Entered i state0 thread0 := entersAll (by decide)

theorem test_witness_ScalarPredicateAndMoveResults :
    (∀ i ∈ [Instr.cmpEq (scalar 3 6 7), .cmpNe (scalar 7 6 7), .cmpLtI (scalar 3 6 7), .cmpLeI (scalar 3 6 7), .cmpLtN (scalar 3 6 7),
      .cmpLeN (scalar 3 6 7), .sel (scalarX 4 6 7 1), .plop (scalarX 3 2 1 6)], Entered i state0 thread0) ∧
    (∀ i ∈ [Instr.movi (scalarImm 4 0 0x7FFFFFF 0), .movhi (scalarImm 4 0 1 0)], Entered i state0 thread0) ∧
    (scalarX 3 2 1 6).b = .code 1 ∧ (scalarImm 4 0 1 0).b = .imm 1 := ⟨entersAll (by decide), entersAll (by decide), rfl, rfl⟩

theorem test_witness_ScalarArithmeticFrame :
    (∃ major minor sig, (Instr.movi (scalarImm 4 0 1 0)).form = .scalar major minor sig (scalarImm 4 0 1 0) ∧ major ≤ 5) ∧
    Entered (.movi (scalarImm 4 0 1 0)) state0 thread0 := ⟨⟨5, 0, _, rfl, by decide⟩, entered (s := state0) (by decide)⟩

/-! ### Witnesses: the lane set -/

/-- The cells that a lane instruction of full operands needs are full. -/
theorem ready0 (m : BitVec 5) :
    TwoReady thread0 (laneX 8 1 2 3 m) ∧ OneReady thread0 (laneX 8 1 2 3 m) ∧ ThreeReady thread0 (laneX 8 1 2 3 m) := by
  have h : ∀ m : BitVec 5, (srcA (laneX 8 1 2 3 m) (cellsOf (laneX 8 1 2 3 m)) ++ srcB (laneX 8 1 2 3 m) (cellsOf (laneX 8 1 2 3 m)) ++
      srcC (laneX 8 1 2 3 m) (cellsOf (laneX 8 1 2 3 m)) ++ srcOld (laneX 8 1 2 3 m)).all (fun x => fullNow thread0 x.2.1 x.2.2) = true ∧
      fullNow thread0 8 (cellsOf (laneX 8 1 2 3 m)) = true := by decide
  obtain ⟨h1, h2⟩ := h m
  have hs := sourcesFull_of h1
  have hd : thread0.fullAt 8 (cellsOf (laneX 8 1 2 3 m)) := fullAt_of h2
  refine ⟨⟨fun x hx => hs x ?_, hd⟩, ⟨fun x hx => hs x ?_, hd⟩, ⟨fun x hx => hs x ?_, hd⟩⟩ <;>
    simp only [List.mem_append] at hx ⊢ <;> tauto

/-- The integer instructions of two operands. -/
def laneTwo (o : LaneOps) : List Instr :=
  [.iadd o, .isub o, .imin o, .imax o, .iand o, .ior o, .ixor o, .iandn o, .ishl o, .ishr o, .isar o, .irotl o, .imul o, .imulh o, .idiv o,
   .irem o, .ibfx o]

theorem test_witness_LaneIntegerArithmeticResults :
    TwoReady thread0 (laneX 8 1 2 3 0x1D) ∧ OneReady thread0 (laneX 8 1 2 3 4) ∧ ThreeReady thread0 (laneX 8 1 2 3 0x12) ∧
    (∀ i ∈ laneTwo (laneX 8 1 2 3 0x1D), Entered i state0 thread0) ∧ Entered (.iabs (laneX 8 1 2 3 4)) state0 thread0 ∧
    Entered (.imad (laneX 8 1 2 3 0x12)) state0 thread0 :=
  ⟨(ready0 _).1, (ready0 _).2.1, (ready0 _).2.2, entersAll (by decide), entered (s := state0) (by decide), entered (s := state0) (by decide)⟩

/-- A divisor that is not zero, one that is (cell 0), and one with IDZE. -/
theorem test_witness_LaneDivideResults :
    let t : Thread := { thread0 with fcsr := 0x1000000 }
    (TwoReady thread0 (laneX 8 1 2 3 0) ∧ thread0.fcsr[24] = false ∧ (∀ i ∈ laneTwo (laneX 8 1 2 3 0), Entered i state0 thread0)) ∧
    (TwoReady t (laneX 8 1 2 3 0) ∧ ¬ t.intB (laneX 8 1 2 3 0) % 2 ^ (intWidth (laneX 8 1 2 3 0).mod).1 = 0) ∧
    (t.sourcesFull (srcA (laneX 8 1 0 3 0) 1 ++ srcB (laneX 8 1 0 3 0) 1 ++ srcOld (laneX 8 1 0 3 0)) ∧ t.fcsr[24] = true ∧
      t.intB (laneX 8 1 0 3 0) % 2 ^ (intWidth (laneX 8 1 0 3 0).mod).1 = 0 ∧
      ∀ i ∈ [Instr.idiv (laneX 8 1 0 3 0), .irem (laneX 8 1 0 3 0)], Entered i (withTh t) t) :=
  ⟨⟨(ready0 _).1, by decide, entersAll (by decide)⟩, ⟨(ready0 0).1, by decide⟩, sourcesFull_of (by decide), by decide, by decide,
    entersAll (s := withTh { thread0 with fcsr := 0x1000000 }) (by decide)⟩

theorem test_witness_LaneBitResults :
    OneReady thread0 (laneX 8 1 2 3 0) ∧ TwoReady thread0 (laneX 8 1 2 3 0) ∧ ThreeReady thread0 (laneX 8 1 2 3 12) ∧
    (∀ i ∈ [Instr.iclz (laneX 8 1 2 3 0), .ictz (laneX 8 1 2 3 0), .iffs (laneX 8 1 2 3 0), .ipopc (laneX 8 1 2 3 0),
      .ibrev (laneX 8 1 2 3 0), .ibfx (laneX 8 1 2 3 0), .ibfi (laneX 8 1 2 3 12)], Entered i state0 thread0) ∧ (31 : Nat) < 32 :=
  ⟨(ready0 _).2.1, (ready0 _).1, (ready0 _).2.2, entersAll (by decide), by decide⟩

theorem test_witness_LaneCompareSelectResults :
    thread0.sourcesFull (srcA (laneX 3 1 2 0 0) 1 ++ srcB (laneX 3 1 2 0 0) 1 ++ srcOld (laneX 3 1 2 0 0)) ∧
    (∀ i ∈ [Instr.icmpEq (laneX 3 1 2 0 0), .icmpNe (laneX 3 1 2 0 0), .icmpLt (laneX 3 1 2 0 0), .icmpLe (laneX 3 1 2 0 0),
      .icmpGt (laneX 3 1 2 0 0), .icmpGe (laneX 7 1 2 0 0), .isel (laneX 8 1 2 3 0), .iord (laneX 8 1 0 0 3)], Entered i state0 thread0) ∧
    TwoReady thread0 (laneX 8 1 2 3 0) ∧
    (thread0.sourcesFull (srcA (laneX 8 1 0 0 3) 2 ++ srcOld (laneX 8 1 0 0 3)) ∧ thread0.fullAt 8 2) ∧
    let o : LaneOps := { laneX 8 1 0 0 4 with na := .elem .w8 2, nd := .elem .w8 3 }
    thread0.sourcesFull (srcA o 1 ++ srcOld o) ∧ thread0.fullAt 8 1 ∧ Entered (.iord o) state0 thread0 :=
  ⟨sourcesFull_of (by decide), entersAll (by decide), (ready0 _).1, ⟨sourcesFull_of (by decide), fullAt_of (by decide)⟩,
    sourcesFull_of (by decide), fullAt_of (by decide), entered (s := state0) (by decide)⟩

theorem test_witness_MoveResults :
    thread0.sourcesFull (srcB (laneX 8 0 2 0 12) 2 ++ srcOld (laneX 8 0 2 0 12)) ∧ thread0.fullAt 8 2 ∧ thread0.fullAt 1 2 ∧
    thread0.sourcesFull (srcOld (laneX 8 6 0 0 12)) ∧
    (∀ i ∈ [Instr.vmov (laneX 8 0 2 0 12), .smovTov (laneX 8 6 0 0 12), .smovTos (laneX 4 1 0 0 12), .movpTov (laneX 8 0 0 0 0),
      .movpTop (laneX 0 1 0 0 0)], Entered i state0 thread0) :=
  ⟨sourcesFull_of (by decide), fullAt_of (by decide), fullAt_of (by decide), sourcesFull_of (by decide), entersAll (by decide)⟩

/-- The last of four packed bytes, the one element of 64 bits and the second of two floats; an immediate; full cells and a narrow element. -/
theorem test_witness_OperandAndResultElements :
    3 < (intWidth 0x18).2 ∧ 0 < (intWidth 0x0D).2 ∧ (1 : BitVec 5).toNat < 4 ∧ 1 < (floatMode 1).2 ∧
    (laneX 8 1 2 3 1).b = .cell 2 ∧ ({ laneX 8 1 2 3 0 with b := .imm 0x7FFFF } : LaneOps).b = .imm 0x7FFFF ∧ (laneX 8 1 2 3 1).nd = .full ∧
    ({ laneX 8 1 2 3 0 with nd := .elem .w6 4 } : LaneOps).nd = .elem .w6 4 := by decide

/-- Cell 2 empty, with policy 0 and with policy 1, for an integer and a float instruction. -/
theorem test_witness_EmptySourcePolicy :
    let t := thread0.markEmpty 2 1
    let o : LaneOps := { laneX 8 2 2 2 0 with ep := true }
    (∀ i ∈ [Instr.iadd (laneX 8 2 2 0 0), .isel o, .fadd (laneX 8 2 2 0 0), .fcmpEq o, .imad o, .ffma o, .fsqrt o], Entered i (withTh t) t) ∧
    ¬ t.sourcesFull (srcA (laneX 8 2 2 0 0) 1 ++ srcB (laneX 8 2 2 0 0) 1 ++ srcOld (laneX 8 2 2 0 0)) ∧
    ¬ t.sourcesFull (srcA o 1 ++ srcOld o) ∧ ¬ t.sourcesFull (srcA o 1 ++ srcB o 1 ++ srcC o 1 ++ srcOld o) := by
  refine ⟨entersAll (s := withTh (thread0.markEmpty 2 1)) (by decide), fun h => ?_, fun h => ?_, fun h => ?_⟩ <;>
  · have := h (0, 2, 1) (by decide) 2 (by decide) (by decide)
    revert this
    decide

theorem test_witness_LaneIntegerFrame :
    (∃ major minor sig, (Instr.iadd (laneX 8 1 2 0 0)).form = .lane major minor sig (laneX 8 1 2 0 0) ∧ (major ≤ 4 ∨ major = 16)) ∧
    (∃ major minor sig, (Instr.vmov (laneX 8 0 2 0 0)).form = .lane major minor sig (laneX 8 0 2 0 0) ∧ (major ≤ 4 ∨ major = 16)) ∧
    Entered (.iadd (laneX 8 1 2 0 0)) state0 thread0 ∧ Entered (.vmov (laneX 8 0 2 0 0)) state0 thread0 :=
  ⟨⟨0, 0, _, rfl, by decide⟩, ⟨16, 0, _, rfl, by decide⟩, entered (s := state0) (by decide), entered (s := state0) (by decide)⟩

/-- The values 3, 0 and −3, of which the first two and the last two are in order. -/
theorem valueIs_three : ValueIs (.fin false 3 0 false) 3 ∧ ValueIs (.fin false 0 0 false) 0 ∧ ValueIs (.fin true 3 0 false) (-3) :=
  ⟨⟨false, 3, 0, rfl, by norm_num⟩, ⟨false, 0, 0, rfl, by norm_num⟩, true, 3, 0, rfl, by norm_num⟩

/-- A value that stands for a nonzero number, exactly and with more bits to follow, and the greatest value, 6, of a float format. -/
theorem test_witness_PlacesByR64 : StandsFor (.fin false 3 0 false) 3 ∧ StandsFor (.fin false (2 ^ 256) 0 true) (2 ^ 256 + 1 / 2) ∧
    fmtE2m1 ∈ floatFormats ∧ MaxFinite fmtE2m1 6 := by
  refine ⟨⟨false, 3, 0, false, rfl, by norm_num⟩, ⟨false, 2 ^ 256, 0, true, rfl, ?_⟩, by decide, ⟨false, 3, 1, by decide, by norm_num⟩⟩
  norm_num

/-- Exact operands: a zero sum, a divisor that is not 0, a root of a positive and of a negative number. -/
theorem test_witness_ExactArithmetic : (3 : ℝ) + -3 = 0 ∧ (-3 : ℝ) ≠ 0 ∧ (0 : ℝ) < 3 ∧ (-3 : ℝ) < 0 ∧ ValueIs (.fin false 3 0 false) 3 ∧
    ValueIs (.fin true 3 0 false) (-3) := by
  refine ⟨by norm_num, by norm_num, by norm_num, by norm_num, valueIs_three.1, valueIs_three.2.2⟩

/-- Operands of the special functions: 3, and powers beyond the range of every format. -/
theorem test_witness_SpecialTrueValues : ValueIs (.fin false 3 0 false) 3 ∧ |(3 : ℝ)| < 2 ^ 21 ∧
    ValueIs (.fin false 1 21 false) (2 ^ 21) ∧ ValueIs (.fin true 1 21 false) (-2 ^ 21) := by
  refine ⟨valueIs_three.1, by norm_num, ⟨false, 1, 21, rfl, by norm_num⟩, true, 1, 21, rfl, by norm_num⟩

/-- A signalling NaN in each place, with no NaN before it, also beside an infinity times a zero; a product that is an infinity, one that is
invalid, and one that is finite; a NaN beside a number and beside a NaN; zeros of both signs. -/
theorem test_witness_SpecialOperands :
    let sn : FVal := .nan true false 5 23
    let one : FVal := .fin false 1 0 false
    ([sn, one] = [] ++ sn :: [one] ∧ [one, sn] = [one] ++ sn :: [] ∧ one.isNan = false ∧ sn.isNan = true ∧ sn.isSnan = true ∧
      FVal.dflt.isSnan = false) ∧
    (fltMul (.inf true) one = (.inf true, .none) ∧ fltMul (.inf true) (.fin false 0 0 false) = (FVal.dflt, .invalid) ∧
      fltMul one one = (.fin false 1 0 false, .none)) ∧
    ((FVal.fin true 0 0 false).isZero = true ∧ (FVal.fin true 0 0 false).neg = true ∧ (FVal.fin false 0 0 false).neg = false) ∧
    (5 : Nat) < 2 ^ 23 := by decide +kernel

/-- A power of two and an integer that is one, of a finite operand. -/
theorem test_witness_SpecialFunctionCases : ValueIs (.fin false 1 3 false) ((8 : Int) : ℝ) ∧ (8 : Int) ≠ 0 ∧ |(8 : Int)| < 2 ^ 20 ∧
    (-2000 : Int) ≤ 3 ∧ (3 : Nat) ≠ 0 := ⟨⟨false, 1, 3, rfl, by norm_num⟩, by norm_num, by norm_num, by norm_num, by norm_num⟩

/-- The least and the greatest precision, and the default NaN. -/
theorem test_witness_ZxfSpecials : 2 ≤ 2 ∧ 241 ≤ 241 ∧ FVal.dflt = .nan false true 1 1 ∧ 2 ^ (1 - 1) ≤ 1 ∧ 1 < 2 ^ 1 := by decide

/-- Two operands in order, one below and one above 0. -/
theorem test_witness_RankFollowsValue : fmtE2m1 ∈ floatFormats ∧ ValueIs (.fin true 3 0 false) (-3) ∧ ValueIs (.fin false 0 0 false) 0 ∧
    (-3 : ℝ) ≤ 0 := ⟨by decide, valueIs_three.2.2, valueIs_three.2.1, by norm_num⟩

/-- Codes of binary16: a signalling and a quiet NaN, an infinity, a zero and the number 1; formats with infinities, with NaNs alone, and
with neither; an integer format. -/
theorem test_witness_ConvertsFromFloat :
    fmtF16 ∈ floatFormats ∧ fmtBf16 ≠ fmtF16 ∧ fmtBf16 ∈ floatFormats ∧ fmtBf16.specials = .ieee ∧ fmtE4m3 ∈ floatFormats ∧
    fmtE4m3.specials = .nanOnly ∧ fmtE2m1 ∈ floatFormats ∧ fmtE2m1.specials = .none ∧ (8, false) ∈ integerFormats ∧
    fmtF16.decode 0x7D01 = .nan false false 0x101 10 ∧ fmtF16.decode 0xFE01 = .nan true true 0x201 10 ∧ fmtF16.decode 0xFC00 = .inf true ∧
    fmtF16.decode 0x8000 = .fin true 0 (-24) false ∧ (fmtF16.decode 0x3C00).isSnan = false ∧ ValueIs (fmtF16.decode 0x3C00) 1 := by
  refine ⟨by decide, by decide, by decide, rfl, by decide, rfl, by decide, rfl, by decide, by decide, by decide, by decide, by decide,
    by decide, false, 1024, -10, by decide, ?_⟩
  norm_num

/-- −1 as a byte, into a float and an integer format. -/
theorem test_witness_ConvertsFromInteger : (8, true) ∈ integerFormats ∧ intOf 8 true 0xFF = -1 ∧ intOf 8 true 0 = 0 ∧ fmtE5m2 ∈ floatFormats ∧
    (16, false) ∈ integerFormats := by decide

/-- Two binary16 sums and a binary64 product and sum. -/
theorem test_witness_FloatArithmeticResults :
    FloatReady thread0 (laneX 8 1 2 3 1) (srcA (laneX 8 1 2 3 1) 1 ++ srcB (laneX 8 1 2 3 1) 1) ∧
    FloatReady thread0 (laneX 8 1 2 3 3) (srcA (laneX 8 1 2 3 3) 2 ++ srcB (laneX 8 1 2 3 3) 2 ++ srcC (laneX 8 1 2 3 3) 2) ∧
    (∀ i ∈ [Instr.fadd (laneX 8 1 2 3 1), .fsub (laneX 8 1 2 3 1), .fmul (laneX 8 1 2 3 1), .fdiv (laneX 8 1 2 3 1),
      .fmin (laneX 8 1 2 3 1), .fmax (laneX 8 1 2 3 1), .ffma (laneX 8 1 2 3 3)], Entered i state0 thread0) :=
  ⟨⟨sourcesFull_of (by decide), fullAt_of (by decide)⟩, ⟨sourcesFull_of (by decide), fullAt_of (by decide)⟩, entersAll (by decide)⟩

theorem test_witness_FloatSpecialFunctionResults :
    FloatReady thread0 (laneX 8 1 0 0 3) (srcA (laneX 8 1 0 0 3) 2) ∧
    (∀ i ∈ [Instr.fsqrt (laneX 8 1 0 0 3), .frcp (laneX 8 1 0 0 3), .frsq (laneX 8 1 0 0 3), .fexp2 (laneX 8 1 0 0 3),
      .flog2 (laneX 8 1 0 0 3)], Entered i state0 thread0) :=
  ⟨⟨sourcesFull_of (by decide), fullAt_of (by decide)⟩, entersAll (by decide)⟩

theorem test_witness_FloatCompareClassResults :
    thread0.sourcesFull (srcA (laneX 3 1 2 0 0) 1 ++ srcB (laneX 3 1 2 0 0) 1 ++ srcOld (laneX 3 1 2 0 0)) ∧
    (∀ i ∈ [Instr.fcmpEq (laneX 3 1 2 0 0), .fcmpNe (laneX 3 1 2 0 0), .fcmpLt (laneX 3 1 2 0 0), .fcmpLe (laneX 3 1 2 0 0),
      .fcmpGt (laneX 3 1 2 0 0), .fcmpGe (laneX 3 1 2 0 0), .fcmpUn (laneX 7 1 2 0 0)], Entered i state0 thread0) ∧
    thread0.sourcesFull (srcA (laneX 8 1 0 0 1) 1) ∧ thread0.fullAt 8 1 ∧ Entered (.fclass (laneX 8 1 0 0 1)) state0 thread0 :=
  ⟨sourcesFull_of (by decide), entersAll (by decide), sourcesFull_of (by decide), fullAt_of (by decide), entered (s := state0) (by decide)⟩

/-- From binary64 to binary16 and from E2M1 to binary64; with every trap enabled an inexact conversion traps. -/
theorem test_witness_FloatConvertResults :
    (Entered (.fcvt 1 (laneX 8 2 0 0 3)) state0 thread0 ∧ thread0.fullAt 2 2 ∧ thread0.fullAt 8 1) ∧
    (Entered (.fcvt 3 (laneX 8 2 0 0 8)) state0 thread0 ∧ thread0.fullAt 2 1 ∧ thread0.fullAt 8 2) ∧
    floatTrap (0x1F0000 : BitVec 25) (convertElem (AnyFmt.ofCode 3) (AnyFmt.ofCode 1) .rne 0x3FF0000000000001).2 ≠ none :=
  ⟨⟨entered (s := state0) (by decide), fullAt_of (by decide), fullAt_of (by decide)⟩,
    ⟨entered (s := state0) (by decide), fullAt_of (by decide), fullAt_of (by decide)⟩, by decide⟩

/-! ### Witnesses: variable precision -/

/-- A thread with 64-bit groups at cells 10, 12 and 14. -/
def zxfThread : Thread :=
  ((thread0.writeZxf 10 64 (zxfEncode 64 (FVal.zero false)) 30).writeZxf 12 64 (zxfEncode 64 (FVal.zero true)) 49).writeZxf 14 64
    (zxfEncode 64 (FVal.zero false)) 255

/-- The value that a group holds. -/
def zAt (t : Thread) (i : Nat) : ZVal := match (t.cell i).tag with
  | .head lc sg => ⟨zxfDecode (32 * (lc.toNat + 1)) (t.cellsNat i (lc.toNat + 1)), sg.toNat, 32 * (lc.toNat + 1), t.cellsNat i (lc.toNat + 1)⟩
  | _ => default

theorem zxfAt_of {t : Thread} {i : Nat} {lc : BitVec 3} {sg : BitVec 8} (h : (t.cell i).tag = .head lc sg)
    (hf : fullNow t i (lc.toNat + 1) = true) : ZxfAt t i (zAt t i) :=
  ⟨lc, sg, h, fullAt_of hf, by simp [zAt, h]⟩

theorem zxf10 : ZxfAt zxfThread 10 (zAt zxfThread 10) := zxfAt_of (lc := 1) (sg := 30) (by decide) (by decide)
theorem zxf12 : ZxfAt zxfThread 12 (zAt zxfThread 12) := zxfAt_of (lc := 1) (sg := 49) (by decide) (by decide)
theorem zxf14 : ZxfAt zxfThread 14 (zAt zxfThread 14) := zxfAt_of (lc := 1) (sg := 255) (by decide) (by decide)

theorem test_witness_ZxfArithmeticResults :
    zxfThread.fullAt 8 (zxfLength zxfThread.p / 32) ∧ ZxfAt zxfThread 10 (zAt zxfThread 10) ∧ ZxfAt zxfThread 12 (zAt zxfThread 12) ∧
    ZxfAt zxfThread 14 (zAt zxfThread 14) ∧
    (∀ i ∈ [Instr.xsqrt (laneX 8 10 0 0 0), .xadd (laneX 8 10 12 0 0), .xsub (laneX 8 10 12 0 0), .xmul (laneX 8 10 12 0 0),
      .xdiv (laneX 8 10 12 0 0), .xmin (laneX 8 10 12 0 0), .xmax (laneX 8 10 12 0 0), .xfma (laneX 8 10 12 14 0)],
      Entered i (withTh zxfThread) zxfThread) :=
  ⟨fullAt_of (by decide), zxf10, zxf12, zxf14, entersAll (s := withTh zxfThread) (by decide)⟩

theorem test_witness_ZxfMiscResults :
    ZxfAt zxfThread 10 (zAt zxfThread 10) ∧ ZxfAt zxfThread 12 (zAt zxfThread 12) ∧ zxfThread.prec[21] = false ∧
    zxfThread.fullAt 8 (zxfLength zxfThread.p / 32) ∧ zxfThread.fullAt 2 1 ∧ zxfThread.fullAt 8 1 ∧ zxfThread.latch = none ∧
    zxfThread.fullAt 2 (cvtPlain 0) ∧ zxfThread.fullAt 8 (cvtPlain 1) ∧
    (∀ i ∈ [Instr.xcmp (laneX 3 10 12 0 0), .xcmp (laneX 7 10 12 0 4), .xrndP (laneX 8 10 0 0 0), .xrndInt (laneX 8 10 0 0 0),
      .xcmp (laneX 3 10 12 0 1), .xcmp (laneX 3 10 12 0 2), .xcmp (laneX 3 10 12 0 3), .xscale (laneX 8 10 2 0 0), .xsigSet (laneX 8 10 2 0 0), .xsigGet (laneX 8 10 0 0 0), .xcvt (laneX 8 2 0 0 0), .xcvt (laneX 8 10 0 0 1),
      .xtag (laneX 8 10 0 0 0)], Entered i (withTh zxfThread) zxfThread) :=
  ⟨zxf10, zxf12, by decide, fullAt_of (by decide), fullAt_of (by decide), fullAt_of (by decide), by decide, fullAt_of (by decide),
    fullAt_of (by decide), entersAll (s := withTh zxfThread) (by decide)⟩

/-- A NaN operand of XCMP with NV enabled. -/
def nanThread : Thread := { zxfThread.writeZxf 10 64 (zxfEncode 64 FVal.dflt) 30 with prec := 0x200031 }

theorem test_witness_ZxfMiscResults_trap : ZxfAt nanThread 10 (zAt nanThread 10) ∧ ZxfAt nanThread 12 (zAt nanThread 12) ∧
    ((zAt nanThread 10).v.isNan && nanThread.prec[21]) = true ∧ Entered (.xcmp (laneX 3 10 12 0 2)) (withTh nanThread) nanThread :=
  ⟨zxfAt_of (lc := 1) (sg := 30) (by decide) (by decide), zxfAt_of (lc := 1) (sg := 49) (by decide) (by decide), by decide,
    entered (s := withTh nanThread) (by decide)⟩

/-- Two plain cells at the top of the window, and a group of eight cells there with the greatest image. -/
theorem test_witness_CellWritesReadBack :
    126 + [1#32, 2#32].length ≤ thread0.cells.length ∧ 120 + 8 ≤ thread0.cells.length ∧ 255 < 256 ∧ 2 ^ 256 - 1 < 2 ^ (32 * 8) :=
  ⟨by simp [thread0], by simp [thread0], by decide, Nat.sub_lt (Nat.two_pow_pos _) Nat.one_pos⟩

/-! ### Witnesses: memory -/

/-- A thread with addresses in pages 1 to 4 in s6, s8, s9 and s11, a misaligned one in s10, and a stack pointer in page 1. -/
def memThread : Thread :=
  (((((thread0.setSreg 6 0x200010).setSreg 8 0x400010).setSreg 9 0x600010).setSreg 10 0x200011).setSreg 11 0x800010).setSreg 31 0x200108

def memState : State := withTh memThread

theorem swf_mem : swf memState.hw.mem = true := by decide +kernel

theorem canonical_mem : memState.canonical := swf_mem

theorem pends_mem : memState.hw.pends = [] := by decide +kernel

/-- No producer is outstanding in the small states. -/
theorem none_outstanding {s : State} (h : s.hw.pends = []) (ls : List Loc) : NoneOutstanding s ls := fun q hq => by simp [h] at hq

/-- Who that thread is to the access checks. -/
def who0 : Who := ⟨0, 1, some ⟨0, 0, 0⟩, some 0⟩

/-- The translation of byte `i` of an access. -/
def trOf (s : State) (ea : DWord) (i : Nat) : TlbEntry := (Machine.translate s.hw who0 (ea + BitVec.ofNat 64 i).toNat).getD default

theorem translated {s : State} {ea : DWord}
    (h : ((List.range 4).all fun i => (Machine.translate s.hw who0 (ea + BitVec.ofNat 64 i).toNat).isSome) = true) :
    ∀ i, i < 4 → Machine.translate s.hw who0 (ea + BitVec.ofNat 64 i).toNat = some (trOf s ea i) := by
  intro i hi
  obtain ⟨e, he⟩ := Option.isSome_iff_exists.1 (List.all_eq_true.1 h i (List.mem_range.2 hi))
  rw [trOf, he]
  rfl

/-- Its launch is RESTARTABLE, with page 1 staged or not, or another launch has staged that page. -/
def stagingState (mine : Bool) (staged : List Staged) : State := memState.mapHw fun h => { h with
  launches := if mine then [{ placedLaunch with restartable := true, staged := staged }]
    else [placedLaunch, { placedLaunch with id := 2, restartable := true, staged := staged }] }

/-- The same tables with a leaf of 1 GiB, one of 4 KiB, and a group of 64 KiB whose entries differ (R276 to R278). -/
def walked : Hw := { hw0 with
  mem := [(0x101008, 2 ^ 56 + 0x40000003), (0x102030, 0x104001), (0x104000, 2 ^ 56 + 0x40001003), (0x104080, 2 ^ 57 + 2 ^ 56 + 0x40010003),
    (0x104088, 2 ^ 57 + 2 ^ 56 + 0x40020003)].foldl (fun m x => writeBytes m x.1 (leBytes 8 x.2)) hw0.mem }

/-- The bits of an entry that the walk looks at. -/
def pointsNow (e : Nat) : Bool := decide (field e 0 0 = 1 ∧ field e 56 56 = 0 ∧ 4096 * field e 55 12 < 549755813888)

/-- No table at all, none at each level, and a leaf of each size: 1 GiB, 2 MiB, 4 KiB, and 64 KiB of entries that agree and that differ. -/
theorem test_witness_WalksByR278 :
    let e (a : Nat) : Nat := pteAt walked a
    let agrees (a b : Nat) : Bool := decide (field (e a) 59 7 = field (e b) 59 7 ∧ field (e a) 3 0 = field (e b) 3 0)
    (2 ^ 56 ≤ 2 ^ 63 ∧ (0x100001#64)[0] = true ∧ 2 ^ 20 * field (0x100001#64).toNat 55 20 = 0x100000 ∧ pointsNow (e 0x100008) = false) ∧
    pointsNow (e 0x100000) = true ∧
    (field (e 0x101008) 56 56 = 1 ∧ (walk walked 0x100001 0x40000000).any fun x => x.size == 2 ^ 30) ∧
    (field (e 0x101010) 56 56 = 0 ∧ pointsNow (e 0x101010) = false) ∧ pointsNow (e 0x101000) = true ∧
    (field (e 0x102008) 56 56 = 1 ∧ (walk walked 0x100001 0x200010).any fun x => x.size == 2 ^ 21) ∧
    (field (e 0x102038) 56 56 = 0 ∧ pointsNow (e 0x102038) = false) ∧ pointsNow (e 0x102028) = true ∧ pointsNow (e 0x102030) = true ∧
    (field (e 0x104000) 57 57 = 0 ∧ (walk walked 0x100001 0xC00000).any fun x => x.size == 4096) ∧
    (field (e 0x103000) 57 57 = 1 ∧ ((List.range 16).all fun j => agrees (0x103000 + 8 * j) 0x103000) = true ∧
      (walk walked 0x100001 0xA00000).any fun x => x.size == 65536) ∧
    (field (e 0x104080) 57 57 = 1 ∧ agrees 0x104088 0x104080 = false) := by decide +kernel

/-- An address that only the tables translate, one whose cached translation has been replaced, with another frame, and one outside the private
stack of the thread and inside it. -/
theorem test_witness_TranslatesByR280 :
    let old : TlbEntry := ⟨0x200000, 0x200000, BitVec.ofNat 64 (pte 3), 0x102008⟩
    let h : Hw := { hw0 with parts := hw0.parts.map fun p => { p with tlb := [old] } }
    let now (a : Nat) : Option TlbEntry := walk h (h.part 0).xlroot a
    (h.part 0).tlb = [old] ∧ (∀ c ∈ (h.part 0).tlb, ¬ (c.va ≤ 0x400010 ∧ 0x400010 < c.va + c.size)) ∧ (now 0x400010).isSome = true ∧
    (old.va ≤ 0x200010 ∧ 0x200010 < old.va + old.size ∧ (now 0x200010).any fun x => x.pte != old.pte) ∧
    who0.key = some ⟨0, 0, 0⟩ ∧ (systemWho 0).key = none ∧ apertureOk 1 who0 0x10000 = false ∧ apertureOk 1 who0 0xFFFF = true := by
  decide +kernel

/-- Bytes 2 and 3 of an access at 0xA0FFFE lie beyond the last page; a page that is not resident; a store whose first two bytes lie in the
code page; an access outside the thread's stack region; an access that passes. -/
theorem test_witness_GenericAccessChecksInOrder :
    let tr (s : State) (ea : DWord) (i : Nat) : Option TlbEntry := Machine.translate s.hw who0 (ea + BitVec.ofNat 64 i).toNat
    let all (s : State) (ea : DWord) : Prop := ∀ i, i < 4 → tr s ea i = some (trOf s ea i)
    let fenced : State := memState.mapHw fun h => { h with parts := h.parts.map fun p => { p with stkap := 1 } }
    (2 < 4 ∧ tr memState 0xA0FFFE 2 = none ∧ ∀ j, j < 2 → (tr memState 0xA0FFFE j).isSome = true) ∧
    (all memState 0xA00000 ∧ pteTier (trOf memState 0xA00000 3).pte.toNat = true ∧ pteRes (trOf memState 0xA00000 3).pte.toNat = false) ∧
    (all memState 0x1FFFFE ∧ (∀ i, i < 4 → pteTier (trOf memState 0x1FFFFE i).pte.toNat = false) ∧
      pagePerm .store (trOf memState 0x1FFFFE 0).pte.toNat = false) ∧
    (all fenced 0x200010 ∧ (∀ i, i < 4 → pteTier (trOf fenced 0x200010 i).pte.toNat = false ∧
        pagePerm .store (trOf fenced 0x200010 i).pte.toNat = true ∧ unstageable fenced.hw who0 .store (trOf fenced 0x200010 i).pte.toNat = false) ∧
      apertureOk (fenced.hw.part 0).stkap who0 0x200010 = false) ∧
    (all memState 0x200010 ∧ ∀ i, i < 4 → pteTier (trOf memState 0x200010 i).pte.toNat = false ∧
      pagePerm .store (trOf memState 0x200010 i).pte.toNat = true ∧ unstageable memState.hw who0 .store (trOf memState 0x200010 i).pte.toNat = false ∧
      apertureOk (memState.hw.part 0).stkap who0 (0x200010 + i) = true) := by
  refine ⟨⟨by decide, by decide +kernel, by decide +kernel⟩, ⟨?_, by decide +kernel, by decide +kernel⟩,
    ⟨?_, by decide +kernel, by decide +kernel⟩, ⟨?_, by decide +kernel, by decide +kernel⟩, ?_, by decide +kernel⟩ <;>
    exact translated (by decide +kernel)

/-- The keys of the bytes of page 1 that the access touches, and what the last clauses ask of them: a page of no staging, one that another
launch has staged, one that the RESTARTABLE launch has yet to stage, and one that it has staged. -/
theorem test_witness_GenericAccessChecksInOrder_staging :
    let xs (s : State) : Xlated := (List.range 4).map fun i =>
      (0x200010 + BitVec.ofNat 64 i, accessKey s.hw s.mod.modid.toNat who0 (trOf s 0x200010 i) (0x200010 + i), trOf s 0x200010 i)
    let other (s : State) : Bool := (xs s).any fun x => stagedByOther s.hw who0 x.2.1
    let piece : Staged := ⟨0x200000, 4096, 0x40200000, 0x50000000, true⟩
    (other memState = false ∧ unstaged memState.hw who0 (xs memState) = []) ∧ other (stagingState false [piece]) = true ∧
    (other (stagingState true []) = false ∧ unstaged (stagingState true []).hw who0 (xs (stagingState true [])) ≠ []) ∧
    (other (stagingState true [piece]) = false ∧
      unstaged (stagingState true [piece]).hw who0 (xs (stagingState true [piece])) = []) := by decide +kernel

/-- What the statements about accesses ask of what an access reaches: pages of one memory type, no peer, no byte twice. -/
def plainReach (mt : Nat) (r : Reach) : Bool := r.mt == mt && !(physKeys r.locs).any keyIsPeer && decide (xkeys r.xs).Nodup

/-- A state in which the instruction has nothing to wait for, and its accesses numbers not in use. -/
def ordered (s : State) : Bool := gives (orderAll s) fun s1 => s1.hw.pends.all fun q => decide (q.id < s1.hw.nextId)

/-- An outstanding load of two bytes of page 1 that are poisoned: whatever waits for it consumes the error. -/
def poisonedState : State := memState.mapHw fun h => { h with
  pends := [⟨7, ⟨0, 0, 0⟩, 0, 1, 0, 0x200010, 3, [], .load 1, 20, 1, [.phys (devKey 0x40200010), .phys (devKey 0x40200011)], [0, 0], 2, .l1,
    [none, none], [], [], [], false⟩]
  poison := [⟨granuleOf (devKey 0x40200010), 5⟩]
  nextId := 8 }

/-- Loads from pages of types 0, 2 and 3, and from the scratchpad; scalar loads from types 0 and 3. -/
theorem test_witness_LoadsBecomeOutstanding :
    (Entered (.ld 0 (laneX 8 6 0 0 6)) memState memThread ∧ memThread.sourcesFull (srcB (laneX 8 6 0 0 6) 1) ∧
      memThread.fullAt 8 (widthCells 6) ∧ gives (reach memState .load 0 (memThread.laneEa (laneX 8 6 0 0 6)) (widthBytes 6)) (plainReach 0)) ∧
    gives (reach memState .load 0 (memThread.laneEa (laneX 8 9 0 0 6)) (widthBytes 6)) (plainReach 2) ∧
    gives (reach memState .load 1 (memThread.laneEa (laneX 8 1 0 0 4)) (widthBytes 4)) (plainReach 0) ∧
    (Entered (.ld 0 (laneX 8 11 0 0 6)) memState memThread ∧ memThread.sourcesFull (srcB (laneX 8 11 0 0 6) 1) ∧
      gives (reach memState .load 0 (memThread.laneEa (laneX 8 11 0 0 6)) (widthBytes 6)) (plainReach 3)) ∧
    (Entered (.sld 6 (scalar 4 6 0)) memState memThread ∧
      gives (reach memState .load (scalarSpace (scalar 4 6 0)) (memThread.scalarEa (scalar 4 6 0)) (sldSize 6).1) (plainReach 0)) ∧
    (Entered (.sld 6 (scalar 4 11 0)) memState memThread ∧
      gives (reach memState .load (scalarSpace (scalar 4 11 0)) (memThread.scalarEa (scalar 4 11 0)) (sldSize 6).1) (plainReach 3)) ∧
    (ordered memState = true ∧ stops (orderAll poisonedState) = true ∧ stops (orderCore poisonedState) = true) ∧
    memThread.live = true ∧ memState.canonical :=
  ⟨⟨entered (s := memState) (by decide +kernel), sourcesFull_of (by decide +kernel), fullAt_of (by decide +kernel), by decide +kernel⟩,
    by decide +kernel, by decide +kernel, ⟨entered (s := memState) (by decide +kernel), sourcesFull_of (by decide +kernel), by decide +kernel⟩,
    ⟨entered (s := memState) (by decide +kernel), by decide +kernel⟩, ⟨entered (s := memState) (by decide +kernel), by decide +kernel⟩,
    ⟨by decide +kernel, by decide +kernel, by decide +kernel⟩, rfl, canonical_mem⟩

/-- A ZXF element of zeros (32 bits) on a page of type 0: its first unit is read at issue, and the rest remains. -/
theorem test_witness_LoadsBecomeOutstanding_xld :
    Entered (.xld 0 (laneX 8 6 0 0 0)) memState memThread ∧ memThread.sourcesFull (srcB (laneX 8 6 0 0 0) 1) ∧
    memThread.fullAt 8 (zxfLength memThread.p / 32) ∧ memState.hw.pends = [] ∧ outKeys memState memThread.key = [] ∧
    gives (reach memState .load 0 (memThread.laneEa (laneX 8 6 0 0 0)) 1) (fun r1 => decide (r1.mt < 3) && !r1.lost memState.hw &&
      gives (readNow memState (r1.extend (8 - r1.ea.toNat % 8)) 8) fun x =>
        gives (reach x.2 .load 0 (memThread.laneEa (laneX 8 6 0 0 0)) (zxfBytes ((x.1.bytes.getD []).getD 0 0))) (plainReach 0)) = true :=
  ⟨entered (s := memState) (by decide +kernel), sourcesFull_of (by decide +kernel), fullAt_of (by decide +kernel), pends_mem,
    by decide +kernel, by decide +kernel⟩

/-- The same on a page of type 3. -/
theorem test_witness_LoadsBecomeOutstanding_xld_strong :
    Entered (.xld 0 (laneX 8 11 0 0 0)) memState memThread ∧ memThread.sourcesFull (srcB (laneX 8 11 0 0 0) 1) ∧ memThread.live = true ∧
    memThread.fullAt 8 (zxfLength memThread.p / 32) ∧
    gives (reach memState .load 0 (memThread.laneEa (laneX 8 11 0 0 0)) 1) (fun r1 => r1.mt == 3 && gives (orderAll memState) fun s1 =>
      !r1.lost s1.hw && gives (readNow s1 (r1.extend (8 - r1.ea.toNat % 8)) 8) fun x => (x.2.hw.pends.all fun q => decide (q.id < x.2.hw.nextId)) &&
        gives (reach x.2 .load 0 (memThread.laneEa (laneX 8 11 0 0 0)) (zxfBytes ((x.1.bytes.getD []).getD 0 0)))
          fun r => r.mt == 3 && !r.lost x.2.hw) = true :=
  ⟨entered (s := memState) (by decide +kernel), sourcesFull_of (by decide +kernel), rfl, fullAt_of (by decide +kernel), by decide +kernel⟩

/-- Stores of 16 and of 8 bytes to a page of type 0, of 1 byte to a write-combining page, of 16 bytes to a page of type 3, and of a ZXF value. -/
theorem test_witness_StoresWriteTheirBytes :
    let zs : State := withTh (zxfThread.setSreg 6 0x200010)
    (Entered (.st 0 (laneX 8 6 0 0 6)) memState memThread ∧
      memThread.sourcesFull (srcB (laneX 8 6 0 0 6) 1 ++ [(3, 8, widthCells 6)]) ∧
      gives (reach memState .store 0 (memThread.laneEa (laneX 8 6 0 0 6)) 16) (plainReach 0) = true) ∧
    (Entered (.sst 3 (scalar 4 6 0)) memState memThread ∧
      gives (reach memState .store 0 (memThread.scalarEa (scalar 4 6 0)) 8) (plainReach 0) = true) ∧
    gives (reach memState .store 0 (memThread.laneEa (laneX 8 8 0 0 0)) 1) (plainReach 1) = true ∧
    (gives (reach memState .store 0 (memThread.laneEa (laneX 8 11 0 0 6)) 16) (fun r => plainReach 3 r && r.mts.all fun m => decide (2 ≤ m)) = true ∧
      ordered memState = true ∧ memThread.live = true ∧ memState.canonical ∧ ∀ ls, NoneOutstanding memState ls) ∧
    (Entered (.xst 0 (laneX 10 6 0 0 0)) zs zs.th ∧ zs.th.sourcesFull (srcB (laneX 10 6 0 0 0) 1) ∧ ZxfAt zs.th 10 (zAt zs.th 10) ∧
      gives (reach zs .store 0 (zs.th.laneEa (laneX 10 6 0 0 0)) (2 + (zAt zs.th 10).l / 8)) (plainReach 0) = true ∧
      (zxfImage zs.th.p (zAt zs.th 10)).length = 2 + (zAt zs.th 10).l / 8) :=
  ⟨⟨entered (s := memState) (by decide +kernel), sourcesFull_of (by decide +kernel), by decide +kernel⟩,
    ⟨entered (s := memState) (by decide +kernel), by decide +kernel⟩, by decide +kernel,
    ⟨by decide +kernel, by decide +kernel, rfl, canonical_mem, none_outstanding pends_mem⟩,
    ⟨entered (s := withTh (zxfThread.setSreg 6 0x200010)) (by decide +kernel), sourcesFull_of (by decide +kernel),
      zxfAt_of (lc := 1) (sg := 30) (by decide +kernel) (by decide +kernel), by decide +kernel, by decide +kernel⟩⟩

/-- A store of two bytes of thread 0 outstanding on a route, with the memory types of its pages. -/
def twoBytes (locs : List Loc) (mts : List Nat) (route : Route) : Pend :=
  ⟨7, ⟨0, 0, 0⟩, 0, 1, 0, 0x200010, 3, [], .store [0xAA, 0xBB], 0, 0, locs, mts, 2, route, [none, none], [], [], [], false⟩

/-- A store on each route with nothing before it that no thread is held for, and a core whose one line of stores, of another gang, has no
byte twice. -/
theorem test_witness_StoresLand :
    let phys (mt : Nat) (route : Route) : Pend := twoBytes [.phys 0x40200010, .phys 0x40200011] [mt, mt] route
    let line : OutWrite := ⟨1, 4, [(0x40200010, 1), (0x40200011, 2)], [], [], 0⟩
    let one (p : Pend) : Hw := ({ hw0 with pends := [p] } : Hw).setCtx { hw0.ctx 0 0 with outq := [line] }
    (∀ p ∈ [phys 0 .l1, phys 1 .uncached, phys 2 .uncached, twoBytes [.scr 0, .scr 1] [] .scratch], p ∈ (one p).pends ∧
      ((one p).pends.all fun q => q == p) = true ∧ p.isStore = true ∧ p.got = List.replicate p.locs.length none ∧
      (∀ t ∈ (one p).threads, t.park ≠ .peer p.id) ∧ ((one p).ctx 0 0).outq = [line] ∧ line.gang ≠ p.gang ∧ ((one p).ctx 0 0).wc = []) ∧
    swf hw0.mem = true ∧ (hw0.ctxs.any fun x => x.part == 0 && x.core == 0) = true ∧ (hw0.poison = [] ∧ hw0.latent = []) ∧
    (∀ h ∈ [hw0, one (phys 0 .l1), one (twoBytes [.scr 0, .scr 1] [] .scratch)],
      ((h.ctx 0 0).regions.any fun x => x.launch == 1) = true ∧ swf ((h.ctx 0 0).region 1).scr = true) ∧
    (line.bytes.map Prod.fst).Nodup := by decide +kernel

/-- Every atomic on an aligned address, with order .rlx and with .acq at device scope; one at a misaligned address; one on a page of
type 3; and operands at the ends of their range. -/
theorem test_witness_AtomicsBecomeOutstanding :
    (∀ x ∈ amoTable (laneX 8 6 2 3 0), Entered x.1 memState memThread ∧
      memThread.sourcesFull (srcB (laneX 8 6 2 3 0) (x.2.2 / 4) ++ if x.2.1 = .cas then srcC (laneX 8 6 2 3 0) (x.2.2 / 4) else []) ∧
      memThread.fullAt 8 (x.2.2 / 4) ∧ ¬ (memThread.sreg 10).toNat % x.2.2 = 0 ∧
      gives (reachAmo memState false x.2.2 (memThread.sreg 6)) (fun r => decide (r.mt < 3)) = true ∧
      gives (reachAmo memState false x.2.2 (memThread.sreg 11)) (fun r => r.mt == 3) = true) ∧
    (∀ scope ∈ [0, 1, 2, 3, 4], ∀ mod ∈ [(0 : BitVec 5), 8, 16, 24], gives (releaseFirst memState scope mod) ordered = true) ∧
    (∀ mod ∈ [(0 : BitVec 5), 8], (amoScope memThread.mode mod).1 ≠ 1) ∧ ((8 : BitVec 5)[3] = true ∧ (0 : BitVec 5)[3] = false) ∧
    2 ^ 32 - 1 < 2 ^ (8 * 4) := by
  refine ⟨?_, by decide +kernel, by decide +kernel, by decide +kernel, by decide +kernel⟩
  have h : (amoTable (laneX 8 6 2 3 0)).all (fun x => entersNow memState x.1 &&
      ((srcB (laneX 8 6 2 3 0) (x.2.2 / 4) ++ if x.2.1 = .cas then srcC (laneX 8 6 2 3 0) (x.2.2 / 4) else []).all
        fun y => fullNow memThread y.2.1 y.2.2) && fullNow memThread 8 (x.2.2 / 4) && (memThread.sreg 10).toNat % x.2.2 != 0 &&
      gives (reachAmo memState false x.2.2 (memThread.sreg 6)) (fun r => decide (r.mt < 3)) &&
      gives (reachAmo memState false x.2.2 (memThread.sreg 11)) (fun r => r.mt == 3)) = true := by decide +kernel
  intro x hx
  have hx := List.all_eq_true.1 h x hx
  simp only [Bool.and_eq_true, bne_iff_ne] at hx
  exact ⟨entered hx.1.1.1.1.1, sourcesFull_of hx.1.1.1.1.2, fullAt_of hx.1.1.1.2, hx.1.1.2, hx.1.2, hx.2⟩

/-! ### Witnesses: crews and cross-lane instructions -/

/-- A member of rank 0 of a crew of handle 7 and two members, the other of rank 1; `ph` is its open phase. -/
def crewThread : Thread := { thread0 with crew := 7, rank := 0 }

/-- That crew, with its open phase and its next one. -/
def theCrew (ph next : Option Phase) : Crew := ⟨7, 0x55, 2, [], ph, next, []⟩

def crewState (t : Thread) (ph next : Option Phase) (rvs : List Rendezvous) : State :=
  (withTh t).mapHw fun h => { h with
    threads := [{ thread0 with key := ⟨0, 0, 1⟩, tid := 1, crew := 7, rank := 1 }]
    ctxs := [{ Ctx.empty 0 0 with regions := [⟨1, [], [], [], []⟩], crews := [theCrew ph next], rvs := rvs }, Ctx.empty 0 1] }

/-- Alone with both guards; an arrival that opens a rendezvous; an arrival at another PC than an open one. -/
theorem test_witness_CrossLaneInstructionsRendezvous :
    (∀ i ∈ laneTable (laneX 3 2 2 0 0), state0.th.regsOk i = true ∧ state0.th.charge i = some thread0 ∧ thread0.crew = 0 ∧
      ∃ me, arrivalOf thread0 i (laneX 3 2 2 0 0) = .ok me ∧ me.guard = true) ∧
    (∀ i ∈ laneTable { laneX 3 2 2 0 0 with pn := true }, state0.th.regsOk i = true ∧ state0.th.charge i = some thread0 ∧
      ∃ me, arrivalOf thread0 i { laneX 3 2 2 0 0 with pn := true } = .ok me ∧ me.guard = false) ∧
    (∃ me c, arrivalOf crewThread (.red (laneX 3 2 0 0 0)) (laneX 3 2 0 0 0) = .ok me ∧ crewThread.crew ≠ 0 ∧
      joinRendezvous ((crewState crewThread none none []).hw.ctx 0 0) crewThread (.red (laneX 3 2 0 0 0)) me = .ok c) ∧
    ∃ me pc, arrivalOf crewThread (.red (laneX 3 2 0 0 0)) (laneX 3 2 0 0 0) = .ok me ∧
      joinRendezvous ((crewState crewThread none none [⟨7, 0, 5, 0x40, .red (laneX 3 2 0 0 0), [⟨1, true, 0, 0, false⟩]⟩]).hw.ctx 0 0) crewThread
        (.red (laneX 3 2 0 0 0)) me = .error pc := by
  have h : ∀ b, (laneTable { laneX 3 2 2 0 0 with pn := b }).all (fun i => state0.th.regsOk i && state0.th.charge i == some thread0 &&
      gives (arrivalOf thread0 i { laneX 3 2 2 0 0 with pn := b }) fun me => me.guard == !b) = true := by decide +kernel
  refine ⟨fun i hi => ?_, fun i hi => ?_, ⟨_, _, rfl, by decide +kernel, rfl⟩, ⟨_, _, rfl, rfl⟩⟩
  · have hx := List.all_eq_true.1 (h false) i hi
    simp only [Bool.and_eq_true, beq_iff_eq] at hx
    obtain ⟨me, hm, hg⟩ := ok_of_gives hx.2
    exact ⟨hx.1.1, hx.1.2, rfl, me, hm, by simpa using hg⟩
  · have hx := List.all_eq_true.1 (h true) i hi
    simp only [Bool.and_eq_true, beq_iff_eq] at hx
    obtain ⟨me, hm, hg⟩ := ok_of_gives hx.2
    exact ⟨hx.1.1, hx.1.2, me, hm, by simpa using hg⟩

/-- The greatest tile with its last lane; a reduction of each type; the values of binary32 elements: 1 and 2, a NaN with a number, NaNs
only, infinities of both signs and of one, and no element. -/
theorem test_witness_CrossLaneResults :
    let at_ (xs : List Nat) : List FVal := xs.map fun x => fmtF32.decode x
    (32 ≤ 32 ∧ 0 ≤ (⟨31, true, 0, 0, false⟩ : Arrival).rank ∧ (⟨31, true, 0, 0, false⟩ : Arrival).rank < 0 + 32) ∧
    ((laneX 3 2 0 0 1).mod.extractLsb' 3 2).toNat < 2 ∧ ((laneX 3 2 0 0 9).mod.extractLsb' 3 2).toNat < 2 ∧
    ((laneX 3 2 0 0 9).mod.extractLsb' 3 2).toNat ≠ 0 ∧
    (∀ op ∈ [(0 : BitVec 5), 1, 2], ((laneX 3 2 0 0 (16 + op)).mod.extractLsb' 3 2).toNat = 2 ∧
      ((laneX 3 2 0 0 (16 + op)).mod.extractLsb' 0 3).toNat = op.toNat) ∧
    (((at_ [0x3F800000, 0x7FC00001]).find? FVal.isNan).isSome = true ∧ (∀ v ∈ at_ [0x7F800001, 0xFFC00000], v.isNan = true) ∧
      (∃ v ∈ at_ [0x7F800001, 0xFFC00000], v.isSnan = true) ∧ (∀ v ∈ at_ [0x3F800000, 0x40000000], v.isNan = false) ∧ at_ [] = []) ∧
    (FVal.inf false ∈ at_ [0x7F800000, 0xFF800000] ∧ FVal.inf true ∈ at_ [0x7F800000, 0xFF800000] ∧
      FVal.inf false ∈ at_ [0x7F800000, 0x3F800000] ∧ FVal.inf true ∉ at_ [0x7F800000, 0x3F800000]) := by decide +kernel

theorem test_witness_CrossLaneResults_sum :
    List.Forall₂ ValueIs [fmtF32.decode 0x3F800000, fmtF32.decode 0x40000000] [(1 : ℝ), 2] := by
  have h1 : fmtF32.decode 0x3F800000 = .fin false 8388608 (-23) false := by decide +kernel
  have h2 : fmtF32.decode 0x40000000 = .fin false 8388608 (-22) false := by decide +kernel
  rw [h1, h2]
  refine .cons ⟨_, _, _, rfl, ?_⟩ (.cons ⟨_, _, _, rfl, ?_⟩ .nil) <;> norm_num

/-- A key of 0 fails and another one succeeds, with a crew of that key and without; outside a crew; in a crew before and after arriving, with
an open phase of each kind; exempt from an open phase, with a next phase of each kind and with none; and an access that consumes an error. -/
theorem test_witness_CrewInstructionResults :
    let cs := crewState { thread0 with crew := 0 } none none []
    let mem (a e : Bool) (ph next : Option Phase) : State := crewState { crewThread with arrived := a, exempt := e } ph next []
    let five (s : State) : Prop := ∀ i ∈ [Instr.cbar (scalar 0 0 0), .ccompact (scalar 0 0 0), .carrive (scalar 0 0 0), .cwait (scalar 0 0 0),
      .cpart (scalar 0 0 0)], Entered i s s.th
    let has (s : State) (ph next : Option Phase) : Prop := s.myCrew = some (theCrew ph next) ∧ gives (orderCore s) (fun _ => true) = true
    (Entered (.cjoin (scalar 3 0 0)) state0 thread0 ∧ joinFails thread0 state0.hw (thread0.code 0) = true) ∧
    (Entered (.cjoin (scalar 3 6 0)) state0 thread0 ∧ joinFails thread0 state0.hw (thread0.code 6) = false) ∧
    (Entered (.cjoin (scalar 3 6 0)) (cs.setTh (cs.th.setSreg 6 0x55)) (cs.th.setSreg 6 0x55) ∧
      joinFails (cs.th.setSreg 6 0x55) cs.hw ((cs.th.setSreg 6 0x55).code 6) = false) ∧
    (five state0 ∧ thread0.live = true ∧ thread0.crew = 0 ∧ state0.myCrew = none) ∧
    (five (mem false false none none) ∧ has (mem false false none none) none none) ∧
    (∀ c ∈ [false, true], five (mem true false (some ⟨c, 4⟩) none) ∧ has (mem true false (some ⟨c, 4⟩) none) (some ⟨c, 4⟩) none) ∧
    (∀ c ∈ [false, true], five (mem false false (some ⟨c, 4⟩) none) ∧ has (mem false false (some ⟨c, 4⟩) none) (some ⟨c, 4⟩) none) ∧
    (five (mem false true (some ⟨true, 4⟩) none) ∧ has (mem false true (some ⟨true, 4⟩) none) (some ⟨true, 4⟩) none) ∧
    (∀ c ∈ [false, true], five (mem false true (some ⟨true, 4⟩) (some ⟨c, 8⟩)) ∧
      has (mem false true (some ⟨true, 4⟩) (some ⟨c, 8⟩)) (some ⟨true, 4⟩) (some ⟨c, 8⟩)) ∧
    stops (orderCore poisonedState) = true := by
  refine ⟨⟨entered (s := state0) (by decide +kernel), by decide +kernel⟩, ⟨entered (s := state0) (by decide +kernel), by decide +kernel⟩,
    ⟨entered (s := (crewState { thread0 with crew := 0 } none none []).setTh ({ thread0 with crew := 0 }.setSreg 6 0x55)) (by decide +kernel),
      by decide +kernel⟩, ⟨entersAll (by decide +kernel), rfl, rfl, by decide +kernel⟩, ⟨entersAll (by decide +kernel), by decide +kernel⟩, ?_, ?_,
    ⟨entersAll (by decide +kernel), by decide +kernel⟩, ?_, by decide +kernel⟩ <;>
  · intro c hc
    simp only [List.mem_cons, List.not_mem_nil, or_false] at hc
    rcases hc with rfl | rfl <;> exact ⟨entersAll (by decide +kernel), by decide +kernel⟩

/-- A thread with one copy command outstanding. -/
def busyThread : Thread := { thread0 with cmds := [⟨.copy, 0⟩], issued := (Vector.replicate 4 0).set 0 1 }

/-- The scopes of FENCE, also crew scope outside a crew; path masks with and without the code bank, and WAITC with and without an outstanding command; an outstanding store; an error consumed. -/
theorem test_witness_OrderingInstructionResults :
    let one : State := state0.mapHw fun h => { h with pends := [twoBytes [.phys 0x40200010, .phys 0x40200011] [0, 0] .l1] }
    (Entered (.fence (scalarX 0 0 0 1)) state0 thread0 ∧ Entered (.fence (scalarX 0 0 0 4)) state0 thread0 ∧
      ((scalarX 0 0 0 1).mod.extractLsb' 0 3).toNat = 1 ∧ ((scalarX 0 0 0 4).mod.extractLsb' 0 3).toNat ≠ 1 ∧
      (Entered (.fence (scalarX 0 0 0 2)) state0 thread0 ∧ ((scalarX 0 0 0 2).mod.extractLsb' 0 3).toNat = 2 ∧ thread0.crew = 0) ∧
      gives (flushThose one fun q => q.route.path != 1) (fun _ => true) = true ∧
      gives (flushThose one fun q => q.route.path == 2 || q.mts.contains 1) (fun _ => true) = true) ∧
    (Entered (.pfence (scalar 0 0 15)) state0 thread0 ∧ pathMask (scalar 0 0 15) / 8 % 2 = 1 ∧ pathMask (scalar 0 0 7) / 8 % 2 = 0 ∧ gives (flushPaths one (onPath (pathMask (scalar 0 0 15)))) fun _ => true) ∧
    (∀ i ∈ [Instr.waitcCopy (scalar 0 0 0), .waitcMatrix (scalar 0 0 0), .waitcSelect (scalar 0 0 0), .waitcTrial (scalar 0 0 0)],
      Entered i state0 thread0 ∧ Entered i (withTh busyThread) busyThread) ∧
    (∀ cls, (thread0.cmds.filter fun c => c.cls == cls).length ≤ 0) ∧ ¬ (busyThread.cmds.filter fun c => c.cls == .copy).length ≤ 0 ∧
    (one.hw.pends.all fun p => p.got.length == p.locs.length && p.route != .scratch) = true ∧
    stops (flushThose poisonedState fun q => q.route.path != 1) = true ∧ stops (flushPaths poisonedState fun p => p != 1) = true := by
  refine ⟨⟨entered (s := state0) (by decide +kernel), entered (s := state0) (by decide +kernel), by decide +kernel, by decide +kernel,
      ⟨entered (s := state0) (by decide +kernel), by decide, rfl⟩, by decide +kernel⟩,
    ⟨entered (s := state0) (by decide +kernel), by decide, by decide, by decide +kernel⟩, fun i hi => ⟨entersAll (s := state0) (by decide +kernel) i hi, entersAll
      (s := withTh busyThread) (by decide +kernel) i hi⟩, fun cls => by simp [thread0, placedThread, Thread.idle], by decide +kernel,
      by decide +kernel, by decide +kernel⟩

/-! ### Witnesses: what the crews keep -/

/-- A member that belongs to no open rendezvous, and one of rank 0 that belongs to one of its tile, at its PC and at another one. -/
theorem test_witness_ArrivesByR27 :
    let t : Thread := { crewThread with tile := 1 }
    let r : Rendezvous := ⟨7, 0, 1, 0, .red (laneX 3 2 0 0 0), [⟨1, true, 0, 0, false⟩]⟩
    let belongs (r : Rendezvous) : Bool := r.crew == t.crew && (List.range 2).any fun k => decide (r.base ≤ k ∧ k < r.base + 2 ^ r.tile)
    t.rank / 2 ^ t.tile.toNat * 2 ^ t.tile.toNat = 0 ∧ belongs { r with base := 2 } = false ∧ belongs r = true ∧ r.pc = t.pc ∧
      r.tile = t.tile.toNat ∧ ({ r with pc := 0x40 } : Rendezvous).pc ≠ t.pc := by decide +kernel

/-- A tile of two of which both have arrived, and one of which rank 0 is still to come. -/
theorem test_witness_CompletesByR26 :
    let both : Rendezvous := ⟨7, 0, 1, 0, .red (laneX 3 2 0 0 0), [⟨0, true, 1, 0, false⟩, ⟨1, true, 2, 0, false⟩]⟩
    let s (r : Rendezvous) : State := crewState crewThread none none [r]
    let part : Rendezvous := { both with arrivals := [⟨1, true, 0, 0, false⟩] }
    let came (r : Rendezvous) : Bool := ((s r).members 0 0 7).all fun t => r.arrivals.any fun a => a.rank == t.rank
    (∀ r ∈ [both, part], ((s r).hw.ctxs.any fun c => c.part == 0 && c.core == 0) = true ∧ ((s r).hw.ctx 0 0).rvs = [r] ∧
      ((s r).hw.ctx 0 0).crew? 7 = some (theCrew none none) ∧ ((s r).thread? ⟨0, 0, 1⟩).any (fun t => t.crew == 7 && t.rank == 1) = true) ∧
    came both = true ∧ came part = false ∧ (both.arrivals.find? fun a => a.rank == 1) = some ⟨1, true, 2, 0, false⟩ ∧
    (state0.thread? ⟨0, 0, 0⟩).any (fun t => t.crew == 0) = true := by decide +kernel

/-- A key that no crew of the partition has, and one of one crew of its core, which is full. -/
theorem test_witness_JoinFailsByR20 :
    let h (n : Nat) : Hw := { (crewState crewThread none none []).hw with
      ctxs := [{ Ctx.empty 0 0 with crews := [{ theCrew none none with crewn := n }] }, Ctx.empty 0 1] }
    (∀ c ∈ (h 2).ctxs, c.part = 0 → ∀ x ∈ c.crews, x.key ≠ 0x66) ∧
    (∀ n ∈ [2, 1024], (h n).ctxs.any (fun c => c.crews.any fun x => x.key == 0x55) = true ∧
      ∀ c ∈ (h n).ctxs, ∀ x ∈ c.crews, x.key = 0x55 → c.core = 0 ∧ x = { theCrew none none with crewn := n }) := by decide +kernel

/-- A thread of no crew and a member; a crew without a member and without a reservation, and one with members. -/
theorem test_witness_LeavesByR21 :
    let s : State := crewState crewThread none none []
    let lone : State := s.mapHw fun h => { h with threads := [] }
    let alone : State := lone.setTh { lone.th with crew := 0 }
    ((state0.thread? ⟨0, 0, 0⟩).any fun t => t.crew == 0) = true ∧ ((s.thread? ⟨0, 0, 0⟩).any fun t => t.crew == 7) = true ∧
    (s.hw.ctxs.any fun c => c.part == 0 && c.core == 0) = true ∧ (s.hw.ctx 0 0).crew? 7 = some (theCrew none none) ∧
    (s.members 0 0 7).length = 2 ∧ alone.members 0 0 7 = [] ∧ (alone.hw.ctx 0 0).crew? 7 = some (theCrew none none) := by decide +kernel

/-- An open phase of each kind that both members wait in, one by a barrier; one that a member takes no part in; one that a member has yet to
come to. -/
theorem test_witness_PhasesByR190 :
    let s (ph : Option Phase) (a e : Bool) : State :=
      (crewState { crewThread with arrived := a, exempt := e, wait := .held .barrier 0 } ph none []).mapHw fun h => { h with
        threads := h.threads.map fun t => { t with arrived := true } }
    let ready (s : State) : Bool := (s.members 0 0 7).all fun t => t.arrived || t.exempt
    (∀ c ∈ [false, true], ∀ x ∈ [(true, false), (false, true)], ready (s (some ⟨c, 4⟩) x.1 x.2) = true ∧
      ((s (some ⟨c, 4⟩) x.1 x.2).hw.ctx 0 0).crew? 7 = some (theCrew (some ⟨c, 4⟩) none) ∧
      (((s (some ⟨c, 4⟩) x.1 x.2).thread? ⟨0, 0, 0⟩).any fun t => t.wait == .held .barrier 0) = true ∧
      (((s (some ⟨c, 4⟩) x.1 x.2).thread? ⟨0, 0, 1⟩).any fun t => t.arrived && t.wait == .none) = true) ∧
    ready (s (some ⟨false, 4⟩) false false) = false ∧
    (0 ∈ [3, 0, 5] ∧ 5 ∈ [3, 0, 5] ∧ 0 < 5 ∧ ([3, 0, 5] : List Nat).toFinset.card = 3) := by decide +kernel
/-! ### Witnesses: control, threads, traps, CSRs -/

/-- Jumps, a stack pointer that is aligned and one that is not, a return address in memory, and slots that cannot be stored to or loaded. -/
theorem test_witness_ControlTransferResults :
    let low : State := withTh (memThread.setSreg 31 0x100008)
    let far : State := withTh (memThread.setSreg 31 0xC00000)
    (∀ o : BranchOps, Entered (.br o) state0 thread0) ∧
    Entered (.jmp (scalar 0 6 7)) state0 thread0 ∧
    (Entered (.csw (scalar 4 6 0)) state0 thread0 ∧ (scalar 4 6 0).d ≠ (scalar 4 6 0).a ∧ (scalar 4 6 0).d.toNat ≠ 30) ∧
    (∀ i ∈ [Instr.call (scalarImm 0 0 1 0), .calli (scalar 0 6 0), .ret (scalar 0 0 0)], Entered i state0 thread0 ∧ Entered i memState memThread) ∧
    ¬ (thread0.sreg 31).toNat % 8 = 0 ∧ (memThread.sreg 31).toNat % 8 = 0 ∧
    gives (storeNow memState 0 (memThread.sreg 31 - 8) (leBytes 8 4)) (fun _ => true) = true ∧
    gives (reach memState .store 0 (memThread.sreg 31 - 8) 8) (plainReach 0) = true ∧
    gives (reach memState .load 0 (memThread.sreg 31) 8) (plainReach 0) = true ∧ outKeys memState memThread.key = [] ∧ memState.hw.pends = [] ∧
    memState.canonical ∧ faults (storeNow low 0 (low.th.sreg 31 - 8) (leBytes 8 4)) (fun _ => true) = true ∧
    faults (loadNow far 0 (far.th.sreg 31) 8) (fun _ => true) = true ∧
    gives (loadNow memState 0 (memThread.sreg 31) 8) (fun _ => true) = true :=
  ⟨fun _ => ⟨rfl, rfl, rfl, rfl⟩, entered (s := state0) (by decide +kernel),
    ⟨entered (s := state0) (by decide +kernel), by decide, by decide⟩,
    fun i hi => ⟨entersAll (s := state0) (by decide +kernel) i hi, entersAll (s := memState) (by decide +kernel) i hi⟩,
    by decide +kernel, by decide +kernel, by decide +kernel, by decide +kernel, by decide +kernel, by decide +kernel, pends_mem, canonical_mem,
    by decide +kernel, by decide +kernel, by decide +kernel⟩

/-- A picker with one class that has issued, one class chosen and one pending, which have waited for some rotations. -/
def pickOf (waited held : Nat) : Picker :=
  ⟨[⟨0, 1, false, 0, 0, 0, 0⟩, ⟨8, 1, false, 2, 1, 0, waited⟩], [⟨16, 1, false, 0, 2, held, 0⟩], some 0, 3, false, some 4, [0]⟩

def pick0 : Picker := pickOf 0 15

/-- Threads at the PCs of that picker. -/
def at0 (slot : Nat) (pc : DWord) : Thread := { thread0 with key := ⟨0, 0, slot⟩, tid := BitVec.ofNat 32 slot, pc := pc }

/-- Pickers in order after the turn of class 0. A ready pending class that can still wait for its sixteenth rotation, and one that cannot;
another active class than the oldest ready one, at its eighth rotation and before; and two pending classes, of which the younger cannot wait. -/
theorem test_witness_RotationRules :
    let rdy := [at0 5 8, at0 6 16]
    let both := [at0 4 0, at0 5 8]
    let old (w : Nat) : Picker := { pickOf w 0 with active := [⟨0, 1, false, 5, 0, 0, 0⟩, ⟨8, 1, false, 2, 1, 0, w⟩] }
    let two (h : Nat) : Picker := { pickOf 0 0 with pending := [⟨16, 1, false, 0, 2, 0, 0⟩, ⟨8, 1, false, 0, 3, h, 0⟩], next := 4 }
    let m (p : Picker) : Picker := (p.tick both).letIn both (some 0)
    let others (p : Picker) : List PcClass := (m p).active.filter fun x => x.hasAny both && x.born != 0
    (∀ p ∈ [pickOf 0 0, pickOf 7 15, old 0, old 7, two 0, two 15], p.active.length ≤ 8 ∧ ((p.active ++ p.pending).map fun c => c.born).Nodup ∧
      (∀ c ∈ p.active ++ p.pending, c.born < p.next) ∧ p.active.any (fun c => p.chosen == some c.born) = true) ∧
    InTime 16 PcClass.held (((pickOf 0 0).tick rdy).pending.filter fun c => c.hasAny rdy) ∧
    ¬ InTime 16 PcClass.held (((pickOf 7 15).tick rdy).pending.filter fun c => c.hasAny rdy) ∧
    ((pickOf 7 15).tick rdy).active.any (fun c => some 0 == some c.born) = true ∧
    (InTime 8 PcClass.waited (others (old 0)) ∧ ((old 0).rotate both (some 0)).chosen = some 0) ∧
    (¬ InTime 8 PcClass.waited (others (old 7)) ∧ ((old 7).rotate both (some 0)).chosen = some 1) ∧
    (∀ h ∈ [0, 15], ((two h).pending.filter fun c => c.hasAny rdy).map (fun c => c.born) = [2, 3]) ∧
    InTime 15 PcClass.held ((two 0).pending.drop 1) ∧ ¬ InTime 15 PcClass.held ((two 15).pending.drop 1) := by
  unfold InTime
  decide +kernel

/-- A picker in order that keeps its bounds; its class with a thread left to issue and without, with a place to go on at and without; its other
class ready, and waiting as a whole; and an issue by a thread of the chosen class. -/
theorem test_witness_PickerRules :
    PickerWf pick0 ∧ PickerWf Picker.empty ∧ pick0.current = some ⟨0, 1, false, 0, 0, 0, 0⟩ ∧
    (PickerDue pick0 ∧ (pick0.refresh [at0 0 4, at0 6 16] [at0 6 16]).pending.length ≤ 15) ∧
    (∃ t ∈ [at0 1 0], (⟨0, 1, false, 0, 0, 0, 0⟩ : PcClass).has t = true ∧ t.key.slot ∉ pick0.issued) ∧
    ((∀ t ∈ [at0 0 4], (⟨0, 1, false, 0, 0, 0, 0⟩ : PcClass).has t = true → t.key.slot ∈ pick0.issued) ∧ pick0.switch = false ∧
      pick0.lead = some 4 ∧ ∃ t ∈ [at0 0 4], t.pc = 4 ∧ t.launch = 1 ∧ t.trial.isSome = false) ∧
    (({ pick0 with switch := true }).endTurn [at0 0 0]).chosen = none ∧
    ((pick0.endTurn [at0 5 8]).chosen = none ∧ ∃ c ∈ (pick0.refresh [at0 5 8] [at0 5 8]).active, c.hasAny [at0 5 8] = true) ∧
    (∃ c ∈ (pick0.refresh [at0 1 0, at0 5 8] [at0 1 0]).active,
      (pick0.refresh [at0 1 0, at0 5 8] [at0 1 0]).chosen ≠ some c.born ∧ c.hasAny [at0 1 0] = false) ∧
    ((pick0.refresh [at0 0 4, at0 6 16] [at0 6 16]).pending = [] ∧
      ((List.range 9).foldl (fun (p : Picker) i => p.refresh ((List.range (i + 1)).map fun j => at0 j (BitVec.ofNat 64 (8 * j)))
        [at0 0 0]) Picker.empty).pending.length = 1) := by
  refine ⟨⟨by decide +kernel, by decide +kernel, by decide +kernel⟩, ⟨by decide +kernel, by decide +kernel, by decide +kernel⟩,
    by decide +kernel, ⟨⟨by unfold InTime; decide +kernel, by unfold InTime; decide +kernel, fun h => by cases h⟩, by decide +kernel⟩, ?_⟩
  decide +kernel

/-- SPAWN, AWAIT of the thread itself and of another thread, EXIT outside and in a trial; AWAIT with an empty result cell under both policies. -/
theorem test_witness_ThreadInstructionResults :
    let two : State := state0.mapHw fun h => { h with launches := [{ placedLaunch with nextTid := 8 }] }
    let hollow : Thread := thread0.markEmpty 9 1
    (∀ i ∈ [Instr.nop (scalar 0 0 0), .yield (scalar 0 0 0), .spawn (scalar 8 6 7), .await (scalar 8 0 0), .await (scalar 8 6 0),
      .exit (scalar 0 6 0)], Entered i two thread0) ∧
    (thread0.fullAt 8 2 ∧ gives (orderAll two) (fun _ => true) = true) ∧
    (fullNow hollow 8 2 = false ∧ Entered (.await (scalar 8 0 0)) (withTh hollow) hollow ∧
        Entered (.await { scalar 8 0 0 with ep := true }) (withTh hollow) hollow) ∧
    (thread0.code 0).extractLsb' 0 32 = thread0.tid ∧
    (thread0.trial.isSome = false ∧ (thread0.code 6).extractLsb' 0 32 ≠ thread0.tid ∧ ((thread0.code 6).extractLsb' 0 32).toNat < two.nextTid) ∧
    (thread0.live = true ∧ thread0.trial = none ∧ two.hw.launch? 0 1 = some { placedLaunch with nextTid := 8 }) ∧
    ∃ t, Entered (.exit (scalar 0 6 0)) (withTh trialThread) t ∧ t.trial = trialThread.trial :=
  ⟨entersAll (s := state0.mapHw fun h => { h with launches := [{ placedLaunch with nextTid := 8 }] }) (by decide +kernel),
    ⟨fullAt_of (by decide +kernel), by decide +kernel⟩, ⟨by decide +kernel, entered (s := withTh (thread0.markEmpty 9 1)) (by decide +kernel),
      entered (s := withTh (thread0.markEmpty 9 1)) (by decide +kernel)⟩, by decide +kernel, by decide +kernel, by decide +kernel,
    { trialThread with fuel := 0, charged := true }, ⟨by decide +kernel, by decide +kernel, by decide +kernel, by decide +kernel⟩, rfl⟩

/-- A trap with a handler; TRET.skip over a word that can be fetched and over one that cannot. -/
theorem test_witness_TrapInstructionResults :
    let t : Thread := { thread0 with ltv := 4 }
    let u : Thread := { thread0 with ltip := 0xC00000 }
    (Entered (.trap (scalarImm 0 0 127 0)) (withTh t) t ∧ t.trial = none ∧ t.tstate = false ∧ t.ltv ≠ 0) ∧
    (∀ i ∈ [Instr.tretRetry (scalar 0 0 0), .tretSkip (scalar 0 0 0), .tclr (scalar 0 0 0)], Entered i state0 thread0) ∧
    gives (fetchWord state0 thread0.ltip) (fun _ => true) = true ∧
    (Entered (.tretSkip (scalar 0 0 0)) (withTh u) u ∧ stops (fetchWord (withTh u) u.ltip) = true) :=
  ⟨⟨entered (s := withTh { thread0 with ltv := 4 }) (by decide +kernel), by decide +kernel⟩, entersAll (by decide +kernel), by decide +kernel,
    entered (s := withTh { thread0 with ltip := 0xC00000 }) (by decide +kernel), by decide +kernel⟩

/-- PREC (0x010) read and written, with a mode that is accepted and one that is refused; TID (0x000) cannot be written; 0xFFF does not
exist; Z2 decode has no PREC; the ends of the ranges of TILE, PREC.p and the modes. -/
theorem test_witness_CsrInstructionResults :
    let o := scalarImm 4 6 0x010 0
    let bad : Thread := thread0.setSreg 6 0x60000
    (∀ i ∈ [Instr.csrr o, .csrw o, .csrs o, .csrc o, .csrw (scalarImm 4 6 0 0), .csrr (scalarImm 4 0 0xFFF 0)], Entered i state0 thread0) ∧
    (thread0.mode = .z3 ∧ csrValue state0 (csrAddr o) = some 49 ∧ csrWritable (csrAddr o) = true ∧ thread0.trial = none) ∧
    (stops (csrStore thread0 (csrAddr o) (thread0.code 6)) = false ∧ stops (csrStore bad (csrAddr o) (bad.code 6)) = true) ∧
    (csrWritable (csrAddr (scalarImm 4 6 0 0)) = false ∧ csrValue state0 0xFFF = none ∧ csrLegacy 0x010 = true) ∧
    ((1 : DWord).toNat ≤ 5 ∧ 5 < (6 : DWord).toNat ∧ (0x500F2 : DWord).toNat / 2 ^ 16 % 8 < 6 ∧ 241 < (0x500F2 : DWord).toNat % 256 ∧
      6 ≤ (0x60002 : DWord).toNat / 2 ^ 16 % 8 ∧ (5 : DWord).toNat % 8 < 6 ∧ 6 ≤ (6 : DWord).toNat % 8) :=
  ⟨entersAll (by decide +kernel), by decide +kernel, by decide +kernel, by decide +kernel, by decide +kernel⟩

/-! ### Witnesses: engine, trial and queue instructions -/

/-- The parameter blocks of the engine instructions, in scratchpad memory: a reservation of 128 bytes at 0x100, an MXGO of one element on
binary16 at 0x200, CPY.copy, CPY.fill and CPY.look at 0x240, 0x280 and 0x2C0, a SEL.run over two elements at 0x300, a TRIAL at 0x340. -/
def blocks : Memory :=
  let m := writeBytes [] 0x100 (leBytes 4 0 ++ leBytes 4 128)
  let src := leBytes 1 1 ++ zs 3 ++ leBytes 4 0x1000
  let m := writeBytes m 0x200 ([7, 7, 1, 0] ++ leBytes 2 1 ++ leBytes 2 1 ++ leBytes 2 16 ++ zs 6 ++ src ++ zs 8 ++ src)
  let m := writeBytes m 0x240 ([1, 1, 0, 0] ++ leBytes 4 1 ++ leBytes 4 4 ++ zs 4 ++ leBytes 8 0x1000 ++ leBytes 8 0x2000)
  let m := writeBytes m 0x280 ([0, 1, 0, 0] ++ leBytes 4 1 ++ leBytes 4 4 ++ zs 4 ++ leBytes 8 0 ++ leBytes 8 0x2000)
  let m := writeBytes m 0x2C0 ([0, 0, 0, 0] ++ leBytes 4 1 ++ leBytes 4 0 ++ zs 4 ++ leBytes 8 0x200000)
  let m := writeBytes m 0x300 (leBytes 8 0x1000 ++ [1, 0, 0, 0, 0, 0, 1, 0] ++ leBytes 4 2 ++ leBytes 4 4 ++ leBytes 8 1 ++ zs 16 ++ leBytes 8 0x2000)
  writeBytes m 0x340 (leBytes 2 0 ++ leBytes 2 1 ++ leBytes 4 0 ++ [8, 1, 0, 1] ++ zs 12 ++ leBytes 8 100 ++ leBytes 8 0x200000 ++ zs 8 ++
    leBytes 8 0x200100)

/-- A thread whose s8 upwards hold the addresses of the blocks, block addresses first: 0x100, 0x240, 0x280, 0x2C0, 0x300, 0x340, and an
address without a block; s15 the plain address of the MXGO block; s16 a CBWR operand of one slot and s17 its source; s18 and s19 ACCRD
descriptors of cell and scratchpad mode; s20 a PERMIT operand of one matrix permit. -/
def engThread : Thread :=
  ([(8, 0x8000000000000100), (9, 0x8000000000000240), (10, 0x8000000000000280), (11, 0x80000000000002C0), (12, 0x8000000000000300),
    (13, 0x8000000000000340), (14, 0x8000000000004000), (15, 0x200), (16, 0x10000), (17, 0x8000000000001000), (18, 0x4000000),
    (19, 0xA04000000), (20, 0x100)] : List (Nat × DWord)).foldl (fun t x => t.setSreg x.1 x.2) thread0

/-- That thread, with its core's context and launch changed. -/
def engState (f : Ctx → Ctx) (l : Launch) : State :=
  (withTh engThread).mapHw fun h => { h with
    ctxs := [f { Ctx.empty 0 0 with regions := [⟨1, blocks, [], [], []⟩] }, Ctx.empty 0 1]
    launches := [l] }

def eng0 : State := engState id placedLaunch

/-- A record within its limits, free and overlapping an earlier reservation; one beyond its limits; a released handle, free and in use. -/
theorem test_witness_ReservationResults :
    let r : Reservation := ⟨5, .thread 1 0, 1, 0, 256, 0, 0, 0, 0, 0, true⟩
    let taken := engState (fun c => { c with resvs := [r] }) placedLaunch
    let busy := engState (fun c => { c with resvs := [r], cpq := [{ (default : CopyCmd) with handles := [5] }] }) placedLaunch
    (∀ i ∈ [Instr.obres (scalar 4 8 0), .obres (scalar 4 14 0), .obrel (scalar 0 6 0)], Entered i eng0 engThread ∧ Entered i taken engThread) ∧
    gives (readBlock (.obres (scalar 4 8 0)) eng0 (engThread.code 8) 32 16) (fun x => resvOk x.1 x.2.obufSize &&
      x.2.myCtx.resvs.isEmpty) = true ∧
    gives (readBlock (.obres (scalar 4 8 0)) taken (engThread.code 8) 32 16) (fun x => resvOk x.1 x.2.obufSize && x.2.myCtx.resvs.any fun r =>
      r.launch == 1 && decide (fld x.1 0 4 < r.base + r.length) && decide (r.base < fld x.1 0 4 + fld x.1 4 4)) = true ∧
    gives (readBlock (.obres (scalar 4 14 0)) eng0 (engThread.code 14) 32 16) (fun x => !resvOk x.1 x.2.obufSize) = true ∧
    ((taken.hw.ctx 0 0).handleBusy 5 = false ∧ (taken.hw.ctx 0 0).resvs = [r]) ∧ (busy.hw.ctx 0 0).handleBusy 5 = true := by
  refine ⟨fun i hi => ⟨entersAll (s := eng0) (by decide +kernel) i hi, entersAll (s := engState (fun c => { c with resvs := [_] }) placedLaunch)
    (by decide +kernel) i hi⟩, by decide +kernel, by decide +kernel, by decide +kernel, by decide +kernel, by decide +kernel⟩

/-- Every command of the matrix, copy and selection classes within its limits, with room; one beyond its limits; 63 outstanding. -/
theorem test_witness_EngineCommandsIssue :
    let full : State := eng0.setTh { engThread with cmds := List.replicate 63 ⟨.copy, 0⟩ }
    (∀ i ∈ [Instr.mxgo (scalar 0 15 0), .mxclr (scalar 0 0 6), .accrd (scalar 8 18 0), .accrd (scalar 8 19 0), .accwr (scalar 0 1 6),
      .cpyCopy (scalar 0 9 0), .cpyFill (scalar 0 10 0), .cpyLook (scalar 0 11 0), .cbwr (scalar 0 16 17), .selRun (scalar 0 12 0),
      .selRun (scalar 0 14 0), .mxgo (scalar 0 16 0)], Entered i eng0 engThread) ∧
    63 ≤ full.th.count .copy ∧
    (∀ cls, gives (countCommand eng0 cls) (fun _ => true) = true) ∧
    ((engThread.code 15).toNat % 16 = 0 ∧ gives (loadNow eng0 1 (engThread.code 15) 64) (fun x =>
      (mxGo? x.2.myCtx 1 x.2.scrSize x.2.accCols x.1).isSome && decide (x.2.myCtx.mxq.length < 32) && gives (countCommand x.2 .matrix) fun _ => true)
      = true) ∧
    (1 ≤ (engThread.scalarB (.code 6)).toNat ∧ (engThread.scalarB (.code 6)).toNat ≤ 1024 ∧
      (engThread.code 0).toNat + (engThread.scalarB (.code 6)).toNat ≤ eng0.accCols ∧ eng0.myCtx.mxq.length < 32) ∧
    (((accRd? eng0 (engThread.code 18).toNat 0 8).map fun d => d.dst.isSome) = some false ∧ engThread.fullAt 8 1 ∧
      ((accRd? eng0 (engThread.code 19).toNat 0 8).map fun d => d.dst.isSome) = some true ∧ gives (plainCommand eng0) (fun _ => true) = true) ∧
    (engThread.fullAt 1 1 ∧ (engThread.scalarB (.code 6)).toNat < 2 ^ 18 ∧ (engThread.scalarB (.code 6)).toNat / 256 < eng0.accCols) := by
  refine ⟨entersAll (s := eng0) (by decide +kernel), by decide +kernel, fun cls => by cases cls <;> decide +kernel, by decide +kernel,
    by decide +kernel, ⟨by decide +kernel, fullAt_of (by decide +kernel), by decide +kernel, by decide +kernel⟩,
    fullAt_of (by decide +kernel), by decide +kernel⟩

theorem test_witness_EngineCommandsIssue_copy :
    (∀ x ∈ [((9 : BitVec 6), CopyKind.copy), (10, .fill), (11, .look)], gives (readBlock (.cpyCopy (scalar 0 x.1 0)) eng0 (engThread.code x.1) 64 16)
      (fun y => match copyCmd? y.2 x.2 y.1 with
        | some q => gives (issueCopy y.2 q) fun _ => true
        | none => false) = true) ∧
    (match bankCmd? eng0 (engThread.code 16) (engThread.scalarB (.code 17)) with
      | some q => gives (issueCopy eng0 q) fun _ => true
      | none => false) = true ∧ eng0.myCtx.cpq.length < 64 := by decide +kernel

/-- A core whose queues are full, and a thread with 63 trials outstanding. -/
def fullState : State := engState (fun c => { c with
  mxq := List.replicate 32 default, cpq := List.replicate 64 default, selq := List.replicate 16 default }) placedLaunch
def manyTrials : State := eng0.setTh { engThread with cmds := List.replicate 63 ⟨.trial, 0⟩ }

theorem test_witness_EngineCommandsIssue_full :
    (64 ≤ fullState.myCtx.cpq.length ∧ 32 ≤ fullState.myCtx.mxq.length ∧ 16 ≤ fullState.myCtx.selq.length) ∧
    (∀ i ∈ [Instr.mxgo (scalar 0 15 0), .mxclr (scalar 0 0 6), .accrd (scalar 8 19 0), .accrd (scalar 8 18 0), .accwr (scalar 0 1 6),
      .cpyCopy (scalar 0 9 0), .cpyFill (scalar 0 10 0), .cpyLook (scalar 0 11 0), .cbwr (scalar 0 16 17), .selRun (scalar 0 12 0)],
      Entered i fullState engThread) ∧ engThread.fullAt 1 1 ∧ engThread.fullAt 8 1 ∧
    (∀ x ∈ [((18 : BitVec 6), false), (19, true)],
      (accRd? fullState (engThread.code x.1).toNat 0 8).map (fun d => d.dst.isSome) = some x.2) ∧
    (bankCmd? fullState (engThread.code 16) (engThread.scalarB (.code 17))).isSome = true :=
  ⟨by decide +kernel, entersAll (s := fullState) (by decide +kernel), fullAt_of (by decide +kernel), fullAt_of (by decide +kernel),
    by decide +kernel, by decide +kernel⟩

/-- The blocks that these commands read there. -/
theorem test_witness_EngineCommandsIssue_full_matrix :
    gives (loadNow fullState 1 (engThread.code 15) 64) (fun x => (mxGo? x.2.myCtx 1 x.2.scrSize x.2.accCols x.1).isSome) = true := by
  decide +kernel

theorem test_witness_EngineCommandsIssue_full_copy :
    gives (readBlock (.cpyCopy (scalar 0 9 0)) fullState (engThread.code 9) 64 16) (fun y => (copyCmd? y.2 .copy y.1).isSome) = true := by
  decide +kernel

theorem test_witness_EngineCommandsIssue_full_select :
    gives (readBlock (.selRun (scalar 0 12 0)) fullState (engThread.code 12) 64 16) (fun x => (selBlock x.1).ok x.1 x.2.scrSize) = true := by
  decide +kernel

/-- Commands beyond their limits: a block at no multiple of 16, a number of columns of 0, a column beyond the accumulators, a descriptor with
reserved bits set, a block of zeros, and a number of slots of 0. -/
theorem test_witness_EngineCommandsIssue_limits :
    (∀ i ∈ [Instr.mxgo (scalar 0 1 0), .mxclr (scalar 0 0 0), .accwr (scalar 0 1 14), .accrd (scalar 8 14 0), .cpyCopy (scalar 0 14 0),
      .cbwr (scalar 0 0 17)], Entered i eng0 engThread) ∧
    (engThread.code 1).toNat % 16 ≠ 0 ∧ (engThread.scalarB (.code 0)).toNat = 0 ∧ 2 ^ 18 ≤ (engThread.scalarB (.code 14)).toNat ∧
    accRd? eng0 (engThread.code 14).toNat 0 8 = none ∧
    gives (readBlock (.cpyCopy (scalar 0 14 0)) eng0 (engThread.code 14) 64 16) (fun y => (copyCmd? y.2 .copy y.1).isNone) = true ∧
    bankCmd? eng0 (engThread.code 0) (engThread.scalarB (.code 17)) = none :=
  ⟨entersAll (s := eng0) (by decide +kernel), by decide +kernel⟩

theorem test_witness_EngineCommandsIssue_select :
    gives (readBlock (.selRun (scalar 0 12 0)) eng0 (engThread.code 12) 64 16) (fun x => (selBlock x.1).ok x.1 x.2.scrSize &&
      decide (x.2.myCtx.selq.length < 16) && gives (countCommand x.2 .select) fun _ => true) = true ∧
    gives (readBlock (.selRun (scalar 0 14 0)) eng0 (engThread.code 14) 64 16) (fun x => !(selBlock x.1).ok x.1 x.2.scrSize) = true ∧
    ((engThread.code 16).toNat % 16 = 0 ∧ gives (loadNow eng0 1 (engThread.code 16) 64) (fun x =>
      (mxGo? x.2.myCtx 1 x.2.scrSize x.2.accCols x.1).isNone) = true) := by
  refine ⟨by decide +kernel, by decide +kernel, by decide +kernel, by decide +kernel⟩

/-- A signature of one cell and of two, RAND, LQPUT of a launch that is not RESTARTABLE with room and without, and of one that is; PERMIT
without an operand of its form, granted at once, waiting, and served; TRIAL in a kernel with TRIALHOST and in one without. -/
theorem test_witness_TrialAndQueueInstructionResults :
    let rest := engState id { placedLaunch with restartable := true }
    let plain := engState id { placedLaunch with trialhost := false }
    let full : State := eng0.mapHw fun h => h.setPart ((h.part 0).setQueue 6 ⟨List.replicate 256 [], false, none⟩)
    let me : PermitFor := .ticket engThread.key engThread.tid .matrix 1
    let owing : State := eng0.mapHw fun h => h.setBudget { h.budget 0 with balance := -1 }
    let served : State := eng0.mapHw fun h => h.setBudget { h.budget 0 with served := [⟨0, me, 0⟩] }
    (∀ i ∈ [Instr.sigfB32 (lane 0 1 0), .sigfB64 (lane 0 1 0), .rand (scalar 4 0 0), .lqput (scalar 0 12 6), .permit (scalar 0 20 0),
      .permit (scalar 0 6 0), .trial (scalar 4 13 0), .trial (scalar 4 14 0)], Entered i eng0 engThread ∧ Entered i rest engThread ∧ Entered i plain engThread) ∧
    (engThread.fullAt 1 1 ∧ engThread.fullAt 1 2) ∧
    ((engThread.scalarB (.code 6)).toNat < 16 ∧ gives (readBlock (.lqput (scalar 0 12 6)) eng0 (engThread.code 12) 64 64) (fun x =>
      (x.2.hw.launch? 0 1).map (fun l => l.restartable) == some false && decide (((x.2.hw.part 0).queue 6).recs.length < 256) &&
      gives (orderAll x.2) fun _ => true) = true) ∧
    gives (readBlock (.lqput (scalar 0 12 6)) full (engThread.code 12) 64 64) (fun x => decide (256 ≤ ((x.2.hw.part 0).queue 6).recs.length)) = true ∧
    gives (readBlock (.lqput (scalar 0 12 6)) rest (engThread.code 12) 64 64) (fun x =>
      (x.2.hw.launch? 0 1).map (fun l => l.restartable) == some true && gives (orderAll x.2) fun s2 => (s2.hw.launch? 0 1).isSome) = true ∧
    ((engThread.code 6).toNat / 256 % 256 = 0 ∧ (engThread.code 20).toNat % 4 ≠ 3 ∧ (engThread.code 20).toNat / 4 % 64 = 0 ∧
      (engThread.code 20).toNat < 2 ^ 16 ∧ (engThread.code 20).toNat / 256 % 256 ≠ 0) ∧
    ((eng0.hw.budget 0).served = [] ∧ (eng0.hw.budget 0).waiting = [] ∧ (eng0.hw.budget 0).grant ≠ 0 ∧ 0 ≤ (eng0.hw.budget 0).balance) ∧
    ((owing.hw.budget 0).balance < 0 ∧ (owing.hw.budget 0).waiting = [] ∧ ∃ q ∈ (served.hw.budget 0).served, q.what = me) ∧
    ((plain.hw.launch? 0 1).map (fun l => l.trialhost) = some false ∧ (eng0.hw.launch? 0 1).map (fun l => l.trialhost) = some true ∧
      gives (readBlock (.trial (scalar 4 13 0)) eng0 (engThread.code 13) 64 16) (fun x => trialOk x.1 x.2.scrSize &&
        decide (x.2.nextTid < 2 ^ 32) && gives (countCommand x.2 .trial) fun _ => true) = true) := by
  refine ⟨fun i hi => ⟨entersAll (s := eng0) (by decide +kernel) i hi,
    entersAll (s := engState id { placedLaunch with restartable := true }) (by decide +kernel) i hi,
    entersAll (s := engState id { placedLaunch with trialhost := false }) (by decide +kernel) i hi⟩,
    ⟨fullAt_of (by decide +kernel), fullAt_of (by decide +kernel)⟩, by decide +kernel, by decide +kernel, by decide +kernel, by decide +kernel,
    by decide +kernel, ⟨by decide +kernel, by decide +kernel,
      ⟨⟨0, .ticket engThread.key engThread.tid .matrix 1, 0⟩, by decide +kernel, rfl⟩⟩, by decide +kernel⟩

/-- A launch with TRIALHOST that has no TID left, and a block of zeros. -/
theorem test_witness_TrialAndQueueInstructionResults_refused :
    gives (readBlock (.trial (scalar 4 13 0)) (engState id { placedLaunch with nextTid := 4294967296 }) (engThread.code 13) 64 16)
      (fun x => trialOk x.1 x.2.scrSize && decide (4294967296 ≤ x.2.nextTid)) = true ∧
    Entered (.trial (scalar 4 13 0)) (engState id { placedLaunch with nextTid := 4294967296 }) engThread ∧
    gives (readBlock (.trial (scalar 4 14 0)) eng0 (engThread.code 14) 64 16) (fun x => !trialOk x.1 x.2.scrSize) = true :=
  ⟨by decide +kernel, entered (s := engState id { placedLaunch with nextTid := 4294967296 }) (by decide +kernel), by decide +kernel⟩


/-- A thread with 63 trials outstanding. -/
theorem test_witness_TrialAndQueueInstructionResults_full : 63 ≤ manyTrials.th.count .trial ∧
    Entered (.trial (scalar 4 13 0)) manyTrials manyTrials.th ∧
    gives (readBlock (.trial (scalar 4 13 0)) manyTrials (engThread.code 13) 64 16) (fun x => trialOk x.1 x.2.scrSize) = true :=
  ⟨by decide +kernel, entered (s := manyTrials) (by decide +kernel), by decide +kernel⟩
/-! ### Witnesses: what completes later -/

/-- The module between steps: that thread is resident, and the producers `ps` are outstanding. -/
def idleState (t : Thread) (ps : List Pend) : State :=
  { state0 with th := Thread.idle, hw := { hw0 with threads := [t], pends := ps } }

/-- Bytes 0x200010 and up: page 1, which lies at 0x40200000 (R276). -/
def pageLocs (n : Nat) : List Loc := (List.range n).map fun i => .phys (0x40200010 + i)

/-- A producer of thread 0 that fills cell 8, with `n` bytes at 0x200010, atomic in units of `atom` bytes, of which `got` has been performed. -/
def pendGot (kind : PendKind) (ncells n atom : Nat) (route : Route) (got : List (Option Byte)) : Pend :=
  ⟨5, ⟨0, 0, 0⟩, 0, 1, 0, 0x200010, 3, [], kind, 8, ncells, if route = .scratch then (List.range n).map Loc.scr else pageLocs n,
    if route = .scratch then [] else List.replicate n 0, atom, route, got, [], [], [], false⟩

/-- Such a producer of which nothing has been performed. -/
def pendOf (kind : PendKind) (ncells n : Nat) : Pend := pendGot kind ncells n n .l1 (List.replicate n none)

theorem swf_hw0 : swf hw0.mem = true := by decide +kernel

theorem canonical_idle (t : Thread) (ps : List Pend) : (idleState t ps).canonical  := by
  have h : (idleState t ps).hw.mem = hw0.mem := by simp only [idleState]
  unfold State.canonical
  rw [h]
  exact swf_hw0

theorem canonical_of {s : State} (h : swf s.hw.mem = true) : s.canonical := h

theorem only {p : Pend} {t : Thread} {P : Pend → Prop} (h : P p) : ∀ q ∈ (idleState t [p]).hw.pends, P q := by
  intro q hq
  have : q = p := by simpa [idleState] using hq
  exact this ▸ h

/-- What `Outstanding` asks of the only producer, and that performing it gives its bytes. -/
def outstandingNow (s : State) (p : Pend) : Bool :=
  s.hw.pend? p.id == some p && !peerHeld s p && p.got.length == p.locs.length &&
  p.locs.all (fun l => (p.route == .scratch) == (match l with
    | .scr _ => true
    | .phys _ => false)) && (((perform s.hw p).pend? p.id).bind Pend.bytes).isSome

theorem outstanding_of {t : Thread} {p : Pend} (h : outstandingNow (idleState t [p]) p = true) :
    Outstanding (idleState t [p]) p ∧ ∃ q bs, (perform (idleState t [p]).hw p).pend? p.id = some q ∧ q.bytes = some bs := by
  simp only [outstandingNow, Bool.and_eq_true, beq_iff_eq, Bool.not_eq_true', List.all_eq_true] at h
  obtain ⟨⟨⟨⟨h1, h2⟩, h3⟩, h4⟩, h5⟩ := h
  refine ⟨⟨h1, h2, only fun _ => rfl, h3, fun l hl => ?_⟩, ?_⟩
  · have := h4 l hl
    cases l <;> simp at this ⊢ <;> simpa [beq_iff_eq] using this
  · obtain ⟨bs, hb⟩ := Option.isSome_iff_exists.1 h5
    obtain ⟨q, hq, hb⟩ := Option.bind_eq_some_iff.1 hb
    exact ⟨q, bs, hq, hb⟩

/-- A lane load, a ZXF load, a scalar load whose thread waits for it, an atomic and a compare and swap that have not been performed, in memory
and in the scratchpad, and an atomic that has. -/
theorem test_witness_AccessesComplete :
    let ld := pendOf (.load 4) 1 4
    let xl := pendGot (.xload 49 0 0) 1 6 8 .l1 [some 1, some 0, some 0, some 0, none, none]
    let sl := pendOf (.sload 4 8 false) 0 8
    let w : Thread := { thread0 with wait := .held .scalarLoad 0, latch := some 4 }
    let ok (t : Thread) (p : Pend) : Prop := Outstanding (idleState t [p]) p ∧
      ∃ q bs, (perform (idleState t [p]).hw p).pend? p.id = some q ∧ q.bytes = some bs
    ok thread0 ld ∧ (ld.units.length ≤ 1 ∧ FirstInOrder (idleState thread0 [ld]) ld) ∧ ok thread0 xl ∧
    (ok w sl ∧ (idleState w [sl]).owner? sl = some w ∧ w.latch = some 4 ∧
      ∀ q ∈ (idleState w [sl]).hw.pends, q.key = sl.key → (∃ d n sg, q.kind = .sload d n sg) → q = sl) ∧
    (∀ r ∈ [Route.l1, .scratch], ∀ op ∈ [AmoOp.add, .cas], let p := pendGot (.atomic op 4 1 0 0 false) 1 4 4 r (List.replicate 4 none)
      ok thread0 p ∧ (idleState thread0 [p]).canonical ∧ p.units ≠ [] ∧ FirstInOrder (idleState thread0 [p]) p) ∧
    ok thread0 (pendGot (.atomic .add 4 1 0 0 false) 1 4 4 .l1 (List.replicate 4 (some 7))) := by
  refine ⟨outstanding_of (by decide +kernel), ⟨by decide +kernel, rfl, only fun h => absurd rfl h⟩, outstanding_of (by decide +kernel),
    ⟨outstanding_of (by decide +kernel), by decide +kernel, rfl, only fun _ _ => rfl⟩, fun r hr op ho => ?_, outstanding_of (by decide +kernel)⟩
  refine ⟨outstanding_of ?_, canonical_idle _ _, ?_, ?_, only fun h => absurd rfl h⟩ <;>
    · revert r op
      decide +kernel

/-- The bytes of the atomics in memory and in the scratchpad, with no byte twice. -/
theorem test_witness_PerformEffects :
    (physKeys (pageLocs 4)).Nodup ∧ (physKeys (pageLocs 4)).length = 4 ∧ (scrOffs ((List.range 4).map Loc.scr)).Nodup ∧
    (scrOffs ((List.range 4).map Loc.scr)).length = 4 ∧ (hw0.ctxs.any fun x => x.part == 0 && x.core == 0) = true ∧
    ((hw0.ctx 0 0).regions.any fun x => x.launch == 1) = true ∧ swf ((hw0.ctx 0 0).region 1).scr = true ∧ swf hw0.mem = true := by
  decide +kernel

/-- A launch with a thread 3 that has exited, one with no TID left, one that is RESTARTABLE; with them the module between steps. -/
def moreTids : Launch := { placedLaunch with nextTid := 8, exits := [(3, 9)] }
def noTids : Launch := { placedLaunch with nextTid := 2 ^ 32 }
def restLaunch : Launch := { placedLaunch with restartable := true, wants := [(0x200000, some ⟨0, 0, 0⟩)] }
def ofLaunch (s : State) (l : Launch) : State := s.mapHw fun h => { h with launches := [l] }

def spawnPend : Pend := pendOf (.spawn 0x40 7) 1 0
def awaitPend : Pend := pendOf (.await 3 false) 2 0

/-- The core is halted, moving to a spare (R378). -/
def haltedState (ps : List Pend) : State := (idleState thread0 ps).mapHw fun h => { h with
  cores := [⟨0, 0, .moving 0, 0⟩, ⟨0, 1, .serving 1, 0⟩, ⟨0, 12, .spare, 0⟩] }

/-- A write-combining buffer of two bytes. -/
def wcState : State := (idleState thread0 []).mapCtx 0 0 fun c => { c with wc := [⟨4, [⟨0x200, 1, ⟨0, 0, 0⟩, 0⟩, ⟨0x201, 2, ⟨0, 0, 1⟩, 0⟩], [], 0⟩] }

/-- A thread that waits for staging, in a partition with a staging area of 2 MiB at 0x60000000. -/
def stageState : State := (ofLaunch (idleState { thread0 with wait := .retry .staging 0 } []) restLaunch).mapHw fun h => { h with
  parts := h.parts.map fun p => { p with stgcfg := 0x0000000100000300 } }

/-- A spawn with TIDs left and with none left, an AWAIT of a thread that has exited and of one that has not, a write-combining line, a
page to stage, one that no write waits for, one that cannot be staged, and a core that is halted. -/
theorem test_witness_SpawnsAndStagingComplete :
    let at_ (p : Pend) (l : Launch) : State := ofLaunch (idleState thread0 [p]) l
    (∀ l ∈ [moreTids, noTids], (at_ spawnPend l).hw.pend? spawnPend.id = some spawnPend ∧
      (at_ spawnPend l).hw.launch? spawnPend.key.part spawnPend.launch = some l ∧
      ∀ q ∈ (at_ spawnPend l).hw.pends, q.gang = spawnPend.gang → (∃ e a, q.kind = .spawn e a) → spawnPend.id ≤ q.id) ∧
    (moreTids.nextTid < 2 ^ 32 ∧ 2 ^ 32 ≤ noTids.nextTid) ∧
    ((at_ awaitPend moreTids).hw.pend? awaitPend.id = some awaitPend ∧
      (at_ awaitPend moreTids).hw.launch? awaitPend.key.part awaitPend.launch = some moreTids ∧
      moreTids.exits.find? (fun x => x.1 == (3 : BitVec 32).toNat) = some (3, 9) ∧
      (at_ awaitPend noTids).hw.launch? awaitPend.key.part awaitPend.launch = some noTids ∧
      noTids.exits.find? (fun x => x.1 == (3 : BitVec 32).toNat) = none) ∧
    (wcState.canonical ∧ (wcState.hw.ctx 0 0).wc.filter (fun x => x.line == 4) = [⟨4, [⟨0x200, 1, ⟨0, 0, 0⟩, 0⟩, ⟨0x201, 2, ⟨0, 0, 1⟩, 0⟩], [], 0⟩]) ∧
    (stageState.hw.launch? 0 1 = some restLaunch ∧ restLaunch.restartable = true ∧ 
      stageState.canonical ∧
      stageState.hw.pends = [] ∧ (stageState.hw.ctxs.all fun c => c.wc.isEmpty && c.outq.isEmpty) = true ∧
      (∃ g, stagedPiece stageState restLaunch 0x200000 = some g ∧ restLaunch.wants.any (fun v => v.1 == g.va) = true ∧ blocksMeet (g.frame, g.size) (g.orig, g.size) = false) ∧
      (∃ g, stagedPiece stageState restLaunch 0x201000 = some g ∧ ∀ v ∈ restLaunch.wants, v.1 ≠ g.va) ∧ stagedPiece stageState restLaunch 0 = none) ∧
    (coreRuns (at_ spawnPend moreTids).hw 0 0 = true ∧ coreRuns (haltedState [spawnPend]).hw 0 0 = false) := by
  refine ⟨fun l hl => ⟨rfl, ?_, only (t := thread0) (p := spawnPend) fun _ _ => le_refl _⟩, by decide +kernel, by decide +kernel,
    ⟨canonical_of (by decide +kernel), by decide +kernel⟩, ⟨by decide +kernel, by decide +kernel,
    canonical_of (by decide +kernel), by decide +kernel, by decide +kernel, ?_, ?_, by decide +kernel⟩, by decide +kernel⟩
  · rcases List.mem_cons.1 hl with rfl | hl
    · decide +kernel
    · rw [List.mem_singleton.1 hl]; decide +kernel
  · obtain ⟨g, hg, h⟩ := some_of (x := stagedPiece stageState restLaunch 0x200000)
      (p := fun g => restLaunch.wants.any (fun v => v.1 == g.va) && !blocksMeet (g.frame, g.size) (g.orig, g.size)) (by decide +kernel)
    simp only [Bool.and_eq_true, Bool.not_eq_true'] at h
    exact ⟨g, hg, h⟩
  · obtain ⟨g, hg, h⟩ := some_of (x := stagedPiece stageState restLaunch 0x201000)
      (p := fun g => restLaunch.wants.all fun v => v.1 != g.va) (by decide +kernel)
    exact ⟨g, hg, by simpa using h⟩
/-! ### Witnesses: the engines -/

/-- A part of a pair. -/
theorem pair_of {α β : Type} {x : α × β} {b : β} (h : x.2 = b) : ∃ a, x = (a, b) := ⟨x.1, Prod.ext rfl h⟩

/-- The issuer of the commands: thread 0 of the launch. -/
def issuer0 : Issuer := ⟨⟨0, 0, 0⟩, 0, 1, 0, 0⟩

/-- The module between steps with its core 0 changed. -/
def coreState (f : Ctx → Ctx) : State := (idleState thread0 []).mapCtx 0 0 f

/-- The translation of page 1. -/
def page1 : TlbEntry := ⟨0x200000, 0x200000, BitVec.ofNat 64 (pte 1), 0x102008⟩

/-- Nothing in a state bears on the checks of a command's accesses but the tables of the small module. -/
def plainTables (s : State) : Prop :=
  s.hw.parts = hw0.parts ∧ s.hw.mem = hw0.mem ∧ s.hw.launches = hw0.launches ∧ s.hw.fresh = hw0.fresh ∧ (s.hw.ctx 0 0).tlb = []

/-- A change of core 0 leaves the rest of the hardware alone. -/
theorem coreState_hw (f : Ctx → Ctx) (h : ((coreState f).hw.ctx 0 0).tlb = []) : plainTables (coreState f) :=
  ⟨by simp [coreState, idleState, State.mapCtx, State.mapHw, Hw.setCtx], by simp [coreState, idleState, State.mapCtx, State.mapHw, Hw.setCtx],
    by simp [coreState, idleState, State.mapCtx, State.mapHw, Hw.setCtx], by simp [coreState, idleState, State.mapCtx, State.mapHw, Hw.setCtx], h⟩

/-- What the walk reads on the way to page 1. -/
theorem tables_page1 :
    (hw0.part 0).xlroot[0] = true ∧ ¬ deviceSize ≤ bitsOf (hw0.part 0).xlroot.toNat 55 20 * 2 ^ 20 ∧
    nextTable (pteAt hw0 (bitsOf (hw0.part 0).xlroot.toNat 55 20 * 2 ^ 20 + 8 * 0)) = some 0x101000 ∧
    pteLeaf (pteAt hw0 (0x101000 + 8 * 0)) = false ∧ nextTable (pteAt hw0 (0x101000 + 8 * 0)) = some 0x102000 ∧
    pteAt hw0 (0x102000 + 8 * 1) = pte 1 ∧ pteLeaf (pte 1) = true ∧ leafOk (pte 1) (2 ^ 21) = true ∧
    (hw0.part 0).stkap[0] = false ∧ (hw0.part 0).tlb = [] := by decide +kernel

theorem walk_page1 (ea : Nat) (h1 : 0x200000 ≤ ea) (h2 : ea < 0x400000) : walk hw0 (hw0.part 0).xlroot ea = some page1 := by
  have e0 : bitsOf ea 55 39 = 0 := by unfold bitsOf; omega
  have e1 : bitsOf ea 38 30 = 0 := by unfold bitsOf; omega
  have e2 : bitsOf ea 29 21 = 1 := by unfold bitsOf; omega
  have e3 : ea / 2 ^ 21 * 2 ^ 21 = 0x200000 := by omega
  obtain ⟨b0, b1, a0, a1, a2, a3, a4, a5, -⟩ := tables_page1
  unfold walk leafEntry
  rw [e0, e1, e2, e3]
  simp only [show ¬ (2 ^ 56 ≤ ea) by omega, a0, a1, a2, a3, a4, a5, b0, b1, decide_false, Bool.not_true, Bool.or_self, Bool.false_eq_true,
    if_false, if_true]
  rfl

/-- A command's address in page 1 is translated by the walk. -/
theorem translate_page1 {s : State} (h : plainTables s) (ea : Nat) (h1 : 0x200000 ≤ ea) (h2 : ea < 0x400000) :
    Machine.translate s.hw issuer0.who ea = some page1 := by
  obtain ⟨hs, hm, -, hf, hc⟩ := h
  have hp : s.hw.part 0 = hw0.part 0 := by unfold Hw.part; rw [hs]
  have hw : walk s.hw (s.hw.part 0).xlroot ea = some page1 := by
    rw [← walk_page1 ea h1 h2, hp]
    unfold walk groupEntry pteAt
    rw [hm, hf]
  have ht : tlbsOf s.hw issuer0.who = [] := by
    obtain ⟨-, -, -, -, -, -, -, -, -, h⟩ := tables_page1
    simp [tlbsOf, issuer0, Issuer.who, hc, hp, h]
  unfold Machine.translate
  dsimp only
  rw [show issuer0.who.part = 0 from rfl, ht, hw]
  rfl

/-- An access of a command inside page 1 passes every check. -/
theorem check_page1 {s : State} (h : plainTables s) (acc : Machine.Acc) (ea n : Nat) (h1 : 0x200000 ≤ ea) (h2 : ea + n ≤ 0x400000)
    (hp : pagePerm acc page1.pte.toNat = true) : checkGen s issuer0.who acc (BitVec.ofNat 64 ea) n =
      .ok ((eaBytes (BitVec.ofNat 64 ea) n).map fun a => (a, page1.key s.mod.modid.toNat a.toNat, page1)) := by
  have ht : ∀ a ∈ eaBytes (BitVec.ofNat 64 ea) n, Machine.translate s.hw issuer0.who a.toNat = some page1 := by
    intro a ha
    rw [eaBytes_eq] at ha
    obtain ⟨i, hi, rfl⟩ := List.mem_map.1 ha
    have hi := List.mem_range.1 hi
    exact translate_page1 h _ (by simp; omega) (by simp; omega)
  obtain ⟨hs, -, hl, -, -⟩ := h
  have hn : ((eaBytes (BitVec.ofNat 64 ea) n).map fun a => (a, Machine.translate s.hw issuer0.who a.toNat)) =
      (eaBytes (BitVec.ofNat 64 ea) n).map fun a => (a, some page1) := List.map_congr_left fun a ha => by rw [ht a ha]
  have hl1 : s.hw.launch? 0 1 = some placedLaunch := by unfold Hw.launch?; rw [hl]; decide +kernel
  have hk : (s.hw.part 0).stkap[0] = false := by
    obtain ⟨-, -, -, -, -, -, -, -, h, -⟩ := tables_page1
    unfold Hw.part at h ⊢
    rw [hs]
    exact h
  have ho : ∀ k, stagedByOther s.hw issuer0.who k = false := by intro k; unfold stagedByOther; rw [hl]; rfl
  have ha : ∀ a, apertureOk (s.hw.part 0).stkap issuer0.who a = true := by intro a; simp [apertureOk, issuer0, Issuer.who, hk]
  have hu : ∀ e, unstageable s.hw issuer0.who acc e = false := by
    intro e; simp [unstageable, issuer0, Issuer.who, hl1, placedLaunch]
  have hx : ∀ xs, unstaged s.hw issuer0.who xs = [] := by intro xs; simp [unstaged, issuer0, Issuer.who, hl1, placedLaunch]
  have hc : ∀ e a, accessKey s.hw s.mod.modid.toNat issuer0.who e a = e.key s.mod.modid.toNat a := by
    intro e a; simp [accessKey, issuer0, Issuer.who, hl1, Launch.stagedAt, placedLaunch]
  have ht : pteTier page1.pte.toNat = false := by decide +kernel
  unfold checkGen
  dsimp only
  rw [hn, show issuer0.who.part = 0 from rfl]
  simp [List.find?_map, List.filterMap_map, Function.comp_def, show ∀ xs : List DWord, xs.find? (fun _ => false) = none from fun xs => by simp, ht, hp, ha, hu, hx, hc, ho]

/-- The bytes of a spill area. -/
theorem spillBytes_length (p : MxGo) (tile : AccStore) : (spillBytes p tile).length = spillSize := by
  have h4 : ∀ v, (leBytes 4 v).length = 4 := fun v => by simp [leBytes]
  have hc : ∀ {α : Type} (l : List α) (f : α → List Byte) (c : Nat), (∀ x, (f x).length = c) → (l.flatMap f).length = l.length * c := by
    intro α l f c h
    induction l with
    | nil => simp
    | cons a l ih => simp [h a, ih]; ring
  unfold spillBytes
  rw [hc _ _ (384 * 4) fun i => ?_, List.length_range]
  · rfl
  · rw [hc _ _ 4 fun j => ?_, List.length_range]
    split <;> exact h4 _

/-- An MXGO of one element over `k` k-steps of binary16, its operands in the scratchpad, its spill area in page 1. -/
def go0 (k : Nat) : MxGo :=
  let src : MxSrc := ⟨false, 0, 0, 0, 0x1000, 0, 0, 0, 0⟩
  ⟨7, 7, false, 1, 1, k, 0, src, src, 0x200000⟩

/-- The same with its spill area at no page. -/
def goFar : MxGo := { go0 512 with spill := 0xC00000 }

def cmd0 (op : MxOp) : MxCmd := ⟨9, issuer0, false, op, false⟩

theorem go0_spill : (go0 512).spill = BitVec.ofNat 64 0x200000 := rfl

/-- No page of that area stops a tile. -/
theorem spill_ok {s : State} (h : plainTables s) {acc : Machine.Acc} (ha : acc = .store ∨ acc = .load) :
    spillStop s issuer0 acc (go0 512).spill = none := by
  unfold spillStop
  rw [List.findSome?_eq_none_iff]
  intro j hj
  have hj : j < 96 := List.mem_range.1 hj
  have hc : checkGen s issuer0.who acc ((go0 512).spill + BitVec.ofNat 64 (4096 * j)) 4096 =
      .ok ((eaBytes (BitVec.ofNat 64 (0x200000 + 4096 * j)) 4096).map fun a => (a, page1.key s.mod.modid.toNat a.toNat, page1)) := by
    rw [go0_spill, show BitVec.ofNat 64 0x200000 + BitVec.ofNat 64 (4096 * j) = BitVec.ofNat 64 (0x200000 + 4096 * j) by
      rw [BitVec.ofNat_add]]
    exact check_page1 h acc _ 4096 (by omega) (by omega) (by rcases ha with rfl | rfl <;> decide +kernel)
  dsimp only
  rw [hc]
  have hm : pteMt page1.pte.toNat = 0 ∧ pagePerm .store page1.pte.toNat = true := by decide +kernel
  simp [hm.1, hm.2]

/-- A write whose checks pass is complete. -/
theorem writePart_of {s : State} {b : Issuer} {wrote : List Nat} {ea : DWord} {bs : List Byte} {xs : Xlated}
    (h : checkGen s b.who .store ea bs.length = .ok xs) : ∃ u w, engWritePart s b wrote ea bs = (u, w, none) :=
  ⟨engPut s b xs bs, addLines wrote (xkeys xs), by simp only [engWritePart, engWrite, h]⟩

/-- What is left to write of bytes of which none has been written is all of them. -/
theorem putRest_all (s : State) (b : Issuer) (ea : DWord) (bs : List Byte) :
    putRest b (some ea) (fun u w i xs => engWritePart u b w (ea + BitVec.ofNat 64 i) xs) s [] [] 0 bs = engWritePart s b [] ea bs := by
  simp [putRest]

/-- Nothing written, and the second of two bytes. -/
theorem test_witness_WritesTheRest : (∀ i, i < [5#8, 6#8].length → 0 + i ∉ ([] : List Nat)) ∧ ∃ i, i < [5#8, 6#8].length ∧ 0 + i ∈ [1] :=
  ⟨by simp, 1, by decide, by decide⟩

theorem spill_write {s : State} (h : plainTables s) (wrote : List Nat) :
    ∃ u w, engWritePart s issuer0 wrote (go0 512).spill (spillBytes (go0 512) []) = (u, w, none) := by
  have hc := check_page1 h .store 0x200000 spillSize (by decide) (by decide) (by decide +kernel)
  rw [← go0_spill, ← spillBytes_length (go0 512) []] at hc
  exact writePart_of hc

/-- A read of bytes without poison whose checks pass. -/
theorem spill_read {s : State} (h : plainTables s) (hp : s.hw.poison = []) (hl : s.hw.latent = []) :
    ∃ bs u, engRead s issuer0 (go0 512).spill spillSize = .ok (bs, u) := by
  have hc := check_page1 h .load 0x200000 spillSize (by decide) (by decide) (by decide +kernel)
  rw [← go0_spill] at hc
  have hk : ∀ ks, poisonOf s.hw ks = none := by intro ks; simp [poisonOf, keyPoisoned, hp, hl]
  simp only [engRead, hc, hk]
  exact ⟨_, _, rfl⟩

/-- Commands to start that need no permit and one, with credits and without; a running command at a boundary, at its end, spilling, and
spilled; elements and words at the ends of their ranges. -/
theorem test_witness_MatrixEngineEvents :
    let start (op : MxOp) : State := coreState fun c => { c with mxq := [cmd0 op] }
    let broke : State := (start (.go (go0 16))).mapHw fun h => h.setBudget { h.budget 0 with balance := -1 }
    let begins (s : State) (op : MxOp) : Prop := enginesRun s 0 0 = true ∧ (s.hw.ctx 0 0).mxRun = none ∧
      ((s.hw.ctx 0 0).nextHigh.orElse fun _ => (s.hw.ctx 0 0).nextLow) = some (cmd0 op) ∧
      (s.hw.ctx 0 0).linesHeld (cmd0 op).issuer.launch (cmd0 op).id ((cmd0 op).op.reads ++ (cmd0 op).op.lines) = false
    let runs (x : MxRun) : State := coreState fun c => { c with mxRun := some x }
    let x (k d : Nat) (sp : Bool) : MxRun := ⟨cmd0 (.go (go0 k)), d, [], [], sp, [], [], []⟩
    let far : MxRun := ⟨cmd0 (.go goFar), 256, [], [], true, [], [], []⟩
    let spilled : State := coreState fun c => { c with mxSpill := some (x 512 256 false) }
    (begins (start (.clr 0 1)) (.clr 0 1) ∧ (MxOp.clr 0 1).cost = none) ∧
    (begins (start (.go (go0 16))) (.go (go0 16)) ∧
      ∃ u, takePermit (start (.go (go0 16))) issuer0 .matrix (.matrix false 9) 2 = (u, true)) ∧
    (begins broke (.go (go0 16)) ∧ (MxOp.go (go0 16)).cost = some 2 ∧ ∃ u, takePermit broke issuer0 .matrix (.matrix false 9) 2 = (u, false)) ∧
    (enginesRun (runs (x 512 0 false)) 0 0 = true ∧ (x 512 0 false).done + 256 < (go0 512).k) ∧
    (enginesRun (runs (x 512 256 false)) 0 0 = true ∧ (x 512 256 false).last = true) ∧
    (enginesRun (runs (x 512 256 true)) 0 0 = true ∧ spillStop (runs (x 512 256 true)) issuer0 .store (go0 512).spill = none ∧
      ∃ u w, putRest issuer0 (some (go0 512).spill) (fun u w i bs => engWritePart u issuer0 w ((go0 512).spill + BitVec.ofNat 64 i) bs) (runs (x 512 256 true)) [] [] 0
        (spillBytes (go0 512) []) = (u, w, none)) ∧
    (∃ f, spillStop (runs far) issuer0 .store goFar.spill = some (0, .fault f) ∧
      ∃ u w, putRest issuer0 (some goFar.spill) (fun u w i bs => engWritePart u issuer0 w (goFar.spill + BitVec.ofNat 64 i) bs) (runs far) [] [] 0
        ((spillBytes goFar []).take 0) = (u, w, none)) ∧
    (enginesRun spilled 0 0 = true ∧ (spilled.hw.ctx 0 0).mxSpill = some (x 512 256 false) ∧ (spilled.hw.ctx 0 0).mxRun = none ∧
      (spilled.hw.ctx 0 0).nextHigh = none ∧ spillStop spilled issuer0 .load (go0 512).spill = none ∧
      ∃ bs u, engRead spilled issuer0 (go0 512).spill spillSize = .ok (bs, u)) ∧
    ((0 : Nat) < (go0 16).m ∧ (0 : Nat) < (go0 16).n ∧ (go0 16).m ≤ 256 ∧ (go0 16).n ≤ 384 ∧ (go0 16).cb + (go0 16).n ≤ 1024) ∧
    (swf ([(0, 1)] : AccStore) = true ∧ mxInt { go0 16 with fa := 5, fb := 6 }.fa = true ∧ 2 ^ 32 - 1 < 2 ^ 32) := by
  have h1 := coreState_hw (fun c => { c with mxRun := some ⟨cmd0 (.go (go0 512)), 256, [], [], true, [], [], []⟩ }) (by decide +kernel)
  have h2 := coreState_hw (fun c => { c with mxSpill := some ⟨cmd0 (.go (go0 512)), 256, [], [], false, [], [], []⟩ }) (by decide +kernel)
  refine ⟨by decide +kernel, ⟨by decide +kernel, pair_of (by decide +kernel)⟩, ⟨by decide +kernel, by decide +kernel, pair_of (by decide +kernel)⟩,
    by decide +kernel, by decide +kernel, ⟨by decide +kernel, spill_ok h1 (.inl rfl), by rw [putRest_all]; exact spill_write h1 _⟩, ?_,
    ⟨by decide +kernel, by decide +kernel, by decide +kernel, by decide +kernel, spill_ok h2 (.inr rfl), spill_read h2 rfl rfl⟩, by decide, by decide⟩
  obtain ⟨⟨n, e⟩, hx, he⟩ := some_of (x := spillStop (coreState fun c => { c with mxRun := some ⟨cmd0 (.go goFar), 256, [], [], true, [], [], []⟩ })
    issuer0 .store goFar.spill) (p := fun y => y.1 == 0 && faults (Except.error y.2 : Except Stop Unit) fun _ => true) (by decide +kernel)
  simp only [Bool.and_eq_true, beq_iff_eq] at he
  obtain ⟨f, hf, -⟩ := fault_of he.2
  refine ⟨f, by rw [hx, he.1, Except.error.inj hf], ?_⟩
  exact ⟨_, _, by rw [List.take_zero, putRest_all]; rfl⟩

/-- Bytes that a command has read, with no byte twice. -/
theorem test_witness_OperandsReadOnce :
    (([(0x1000, 5), (2 ^ 32 + 0x1000, 6)] : List (Nat × Byte)).map Prod.fst).Nodup ∧ swf ((hw0.ctx 0 0).region 1).obuf = true ∧ swf ((hw0.ctx 0 0).region 1).scr = true := by decide +kernel

/-- An infinity in the first element of a binary16 operand, whose other elements are zeros. -/
def infRegion : Region := ⟨1, writeBytes [] 0x1000 [0x00, 0x7C], [], [], []⟩

/-- Zeros with the scale 1 and an accumulator of 1; a NaN accumulator; a term that is infinite. -/
theorem test_witness_FloatTileElement :
    let p := go0 16
    let r : Region := ⟨1, [], [], [], []⟩
    mxInt p.fa = false ∧
    (∀ e < 16, ValueIs (p.srcA.value r p.fa [] 0 (0 + e)) 0 ∧ ValueIs (p.srcB.value r p.fb [] 0 (0 + e)) 0 ∧
      ValueIs (p.srcA.scaleOf r 0 (0 + e) p.k) 1 ∧ ValueIs (p.srcB.scaleOf r 0 (0 + e) p.k) 1) ∧
    ValueIs (fmtF32.decode 0x3F800000) 1 ∧ (fmtF32.decode 0x7FC00000).isNan = true ∧
    (p.term infRegion [] 0 0 (0 + 0) = .inf false ∧ (∀ e < 16, (p.term infRegion [] 0 0 (0 + e)).isNan = false ∧
      p.term infRegion [] 0 0 (0 + e) ≠ .inf !false) ∧ (fmtF32.decode 0).isNan = false ∧ fmtF32.decode 0 ≠ .inf !false) := by
  have z : ∀ e < 16, (go0 16).srcA.value ⟨1, [], [], [], []⟩ (go0 16).fa [] 0 (0 + e) = .fin false 0 (-24) false ∧
      (go0 16).srcA.scaleOf ⟨1, [], [], [], []⟩ 0 (0 + e) (go0 16).k = .fin false 1 0 false := by decide +kernel
  have one : fmtF32.decode 0x3F800000 = .fin false 8388608 (-23) false := by decide +kernel
  have v0 : ValueIs (.fin false 0 (-24) false) 0 := ⟨_, _, _, rfl, by norm_num⟩
  have v1 : ValueIs (.fin false 1 0 false) 1 := ⟨_, _, _, rfl, by norm_num⟩
  refine ⟨by decide, fun e he => ?_, ?_, by decide +kernel, by decide +kernel, by decide +kernel, by decide +kernel, by decide +kernel⟩
  · obtain ⟨h1, h2⟩ := z e he
    have h1' : (go0 16).srcB.value ⟨1, [], [], [], []⟩ (go0 16).fb [] 0 (0 + e) = .fin false 0 (-24) false := h1
    have h2' : (go0 16).srcB.scaleOf ⟨1, [], [], [], []⟩ 0 (0 + e) (go0 16).k = .fin false 1 0 false := h2
    exact ⟨h1 ▸ v0, h1' ▸ v0, h2 ▸ v1, h2' ▸ v1⟩
  · rw [one]
    exact ⟨_, _, _, rfl, by norm_num⟩

/-! ### Witnesses: what ACCRD delivers -/

/-- The number 1 as binary32 and as int32, into a float and an integer format; 0; an infinity and a NaN. -/
theorem test_witness_ConvertsByR248 :
    let d (int : Bool) (fmt : Nat) : AccRd := ⟨0, 0, 1, int, 0, 0, fmt, none, 8⟩
    (d true 0).int = true ∧ (d false 0).int = false ∧ ValueIs (fmtF32.decode (0x3F800000 : Word).toNat) 1 ∧ (1 : Word).toInt = 1 ∧
    (∃ f, AnyFmt.ofCode (d true 0).fmt = .flt f ∧ ∃ big, MaxFinite f big) ∧ (∃ n sg, AnyFmt.ofCode (d true 9).fmt = .int n sg) ∧
    ValueIs (fmtF32.decode (0 : Word).toNat) 0 ∧ fmtF32.decode (0x7F800000 : Word).toNat = .inf false ∧
    (fmtF32.decode (0x7FC00000 : Word).toNat).isNan = true := by
  have h1 : fmtF32.decode (0x3F800000 : Word).toNat = .fin false 8388608 (-23) false := by decide +kernel
  have h0 : fmtF32.decode (0 : Word).toNat = .fin false 0 (-149) false := by decide +kernel
  have h2 : MaxFinite fmtF32 ((16777215 : ℝ) * 2 ^ (104 : Int)) := ⟨false, 16777215, 104, by decide +kernel, by norm_num⟩
  refine ⟨rfl, rfl, ?_, by decide, ⟨fmtF32, rfl, _, h2⟩, ⟨_, _, rfl⟩, ?_, by decide +kernel, by decide +kernel⟩
  · rw [h1]; exact ⟨_, _, _, rfl, by norm_num⟩
  · rw [h0]; exact ⟨_, _, _, rfl, by norm_num⟩

/-- A read into a cell of a thread that is resident, and one into the scratchpad, of which the first byte has been written. -/
theorem test_witness_AccReadDelivers :
    let d (dst : Option Nat) : AccRd := ⟨0, 0, 4, true, 0, 0, 9, dst, 8⟩
    let x (dst : Option Nat) : MxRun := ⟨cmd0 (.rd (d dst)), 0, [], [], false, [], [0], []⟩
    let s : State := coreState fun c => { c with mxRun := some (x (some 0x1000)) }
    (x none).cmd.op = .rd (d none) ∧ s.issuer? issuer0 = some thread0 ∧ (s.hw.ctxs.any fun y => y.part == 0 && y.core == 0) = true ∧
    ((s.hw.ctx 0 0).regions.any fun r => r.launch == 1) = true ∧ swf ((s.hw.ctx 0 0).region 1).scr = true ∧
    ({ s with hw := { s.hw with threads := [] } } : State).issuer? issuer0 = none := by decide +kernel

/-- The last byte of a granule of memory whose others have been written. -/
theorem test_witness_WritesTheRest_granule :
    let a : DWord := 0x200000
    (a + BitVec.ofNat 64 (31 - 0)).toNat % 32 = 31 ∧ (∀ i, i < 32 → 31 - 31 + i ∈ List.range 32) ∧ 31 ∉ List.range 31 ∧
    gives (checkGen (coreState id) issuer0.who .store (a + BitVec.ofNat 64 (31 - 0)) 1) (fun _ => true) = true := by decide +kernel
/-- A computation of two parts succeeds. -/
theorem both_of {ε α β : Type} {x : Except ε (α × β)} (h : gives x (fun _ => true) = true) : ∃ a b, x = .ok (a, b) := by
  obtain ⟨⟨a, b⟩, h, -⟩ := ok_of_gives h
  exact ⟨a, b, h⟩

/-- A copy of one row of 4 bytes from 0x1000 to 0x2000 of the scratchpad. -/
def copy0 : CopyCmd :=
  { id := 9, issuer := issuer0, kind := .copy, ssp := 1, dsp := 1, rows := 1, rb := 4, src := 0x1000, dst := 0x2000, ss := 0, ds := 0, pat := 0,
    row := 0, piece := 0, permit := false, started := false, pages := [], handles := [], seen := [], put := [], wrote := [] }

/-- A burst that goes on, and one that faults. -/
def burstOk (b : State × Option Stop × CopyCmd) : Bool := b.2.1.isNone
def burstFaults (b : State × Option Stop × CopyCmd) : Bool := match b.2.1 with
  | some (.fault _) => true
  | _ => false

theorem burst_ok {b : State × Option Stop × CopyCmd} (h : burstOk b = true) : ∃ v c, b = (v, none, c) := by
  obtain ⟨v, e, c⟩ := b
  cases e with
  | none => exact ⟨v, c, rfl⟩
  | some e => cases h

theorem burst_faults {b : State × Option Stop × CopyCmd} (h : burstFaults b = true) : ∃ v f c, b = (v, some (.fault f), c) := by
  obtain ⟨v, e, c⟩ := b
  unfold burstFaults at h
  split at h
  · rename_i f hf
    exact ⟨v, f, c, by simp only at hf; rw [hf]⟩
  · cases h

/-- A copy in the scratchpad, from a page and from an address that is not mapped, with credits and with its permit taken; a copy whose row
is done; a bank write with its slots free and held by a trial; a lookahead before and after its list is read; a fill. -/
theorem test_witness_CopyEngineEvents :
    let one (c : CopyCmd) : State := coreState fun x => { x with cpq := [c] }
    let far : CopyCmd := { copy0 with ssp := 0, src := 0xC00000, permit := true }
    let near : CopyCmd := { copy0 with ssp := 0, src := 0x200000 }
    let done : CopyCmd := { copy0 with row := 1 }
    let bank : CopyCmd := { copy0 with dsp := 3, dst := 0 }
    let look : CopyCmd := { copy0 with kind := .look, ssp := 0, dsp := 0, rb := 0, src := 0x200000, dst := 0 }
    let trial : State := (idleState trialThread []).mapCtx 0 0 fun x => { x with cpq := [bank] }
    let free (s : State) (c : CopyCmd) : Prop := enginesRun s 0 0 = true ∧ currentCopy s 0 0 = some c ∧ c.row < c.rows ∧
      (s.hw.ctx 0 0).linesHeld c.issuer.launch c.id (c.reads ++ c.lines) = false
    (free (one copy0) copy0 ∧ ∃ u, takePermit (one copy0) issuer0 .copy (.copy 9) 1 = (u, true) ∧ ∃ v c, burst u copy0 = (v, none, c)) ∧
    (free (one near) near ∧ ∃ u, takePermit (one near) issuer0 .copy (.copy 9) 1 = (u, true) ∧ ∃ v c, burst u near = (v, none, c)) ∧
    (free (one far) far ∧ far.permit = true ∧ ∃ v f c, burst (one far) far = (v, some (.fault f), c)) ∧
    currentCopy (one done) 0 0 = some done ∧
    ((bank.slots = [0] ∧ slotsInUse (one bank) 0 0 bank.slots = false ∧ slotsInUse trial 0 0 bank.slots = true) ∧
      ((trial.hw.ctx 0 0).cpq.find? fun c => c.id == 9 && c.dsp == 3 && c.kind != .look && !c.started) = some bank) ∧
    (((one { look with started := true, pages := [0x200000] }).hw.ctx 0 0).cpq = [{ look with started := true, pages := [0x200000] }] ∧
      absentPage (one look) 0 0x200000 = none) ∧
    (look.started = false ∧ ∃ bs u, lookBytes (one look) look = .ok (bs, u)) ∧
    (let going : CopyCmd := { copy0 with seen := [(0, 1)] }
     let halting : State := (one going).mapHw fun h => { h with parts := h.parts.map fun p => { p with swap := .halting } }
     (halting.hw.part 0).active = true ∧ 0 ∈ (halting.hw.part 0).cores ∧ (halting.hw.part 0).swap = .halting ∧ going.seen ≠ [] ∧
       currentCopy halting 0 0 = some going ∧ ∃ u, takePermit halting issuer0 .copy (.copy 9) 1 = (u, true)) ∧
    ({ copy0 with kind := .fill } : CopyCmd).kind = .fill := by
  refine ⟨⟨by decide +kernel, _, Prod.ext rfl (by decide +kernel), burst_ok (by decide +kernel)⟩,
    ⟨by decide +kernel, _, Prod.ext rfl (by decide +kernel), burst_ok (by decide +kernel)⟩, ⟨by decide +kernel, rfl, burst_faults (by decide +kernel)⟩,
    by decide +kernel, by decide +kernel, by decide +kernel, ⟨rfl, both_of (by decide +kernel)⟩,
    ⟨by decide +kernel, by decide +kernel, by decide +kernel, by decide +kernel, by decide +kernel, _, Prod.ext rfl (by decide +kernel)⟩, rfl⟩

/-- A short row and a long one, a piece of which moves; copies from each space and to each; a fill. -/
theorem test_witness_CopyMoves :
    let s : State := coreState id
    let src (c : CopyCmd) : Bool := gives (copySource s c 0 0 4) fun _ => true
    let dst (c : CopyCmd) : Bool := (copyDest s c 0 0 [1, 2, 3, 4]).2.2.isNone
    let long : CopyCmd := { copy0 with rb := 65540, dst := 0x3000 }
    src { copy0 with kind := .fill } = true ∧ src copy0 = true ∧ src { copy0 with ssp := 2 } = true ∧
    src { copy0 with ssp := 0, src := 0x200000 } = true ∧ dst copy0 = true ∧ dst { copy0 with dsp := 2 } = true ∧
    dst { copy0 with dsp := 3 } = true ∧ dst { copy0 with dsp := 0, dst := 0x200000 } = true ∧
    (s.hw.ctxs.any fun x => x.part == 0 && x.core == 0) = true ∧ swf ((s.hw.ctx 0 0).region 1).scr = true ∧
    swf ((s.hw.ctx 0 0).region 1).obuf = true ∧ swf (s.hw.ctx 0 0).bank = true ∧ swf s.hw.mem = true ∧
    burstOk (burst s copy0) = true ∧ burstOk (burst s { long with piece := 0 }) = true ∧ 65536 < long.rb := by
  decide +kernel

/-- A row of which no byte, some bytes and every byte have been read and written: what is read and moved, and the bytes by themselves. -/
theorem test_witness_CopyMoves_parts :
    let s : State := coreState id
    let half : CopyCmd := { copy0 with seen := [(0, 1), (1, 2)] }
    let full : CopyCmd := { copy0 with seen := [(0, 1), (1, 2), (2, 3), (3, 4)], put := [0] }
    let was (c : CopyCmd) (i : Nat) : Option Byte := (c.seen.find? fun x => x.1 == 0 + i).map Prod.snd
    (gives (copyBytes s half 0 0 0 4) (fun _ => true) = true ∧ was half 0 = some 1 ∧ was half 2 = none ∧ ∀ i, i < 4 → (was full i).isSome = true) ∧
    ((∀ i, i < 4 → 0 + i ∈ [0, 1, 2, 3]) ∧ 0 + 1 ∉ full.put ∧ gives (copyBytes s full 0 0 0 4) (fun _ => true) = true) ∧
    (half.stretch.1 ≤ 2 ∧ 2 < half.stretch.1 + half.stretch.2.2.2 ∧
      gives (copySource s half half.stretch.2.1 (half.stretch.2.2.1 + (2 - half.stretch.1)) 1) (fun _ => true) = true) ∧
    (full.stretch.1 ≤ 1 ∧ 1 < full.stretch.1 + full.stretch.2.2.2 ∧ 1 ∉ full.put ∧ was full 1 = some 2 ∧
      (∀ i, i < full.stretch.2.2.2 → (was full (full.stretch.1 + i)).isSome = true) ∧
      (copyDest s full full.stretch.2.1 (full.stretch.2.2.1 + (1 - full.stretch.1)) [2]).2.2.isNone = true) := by
  decide +kernel

/-- A list of which no byte, some bytes and every byte have been read. -/
theorem test_witness_LookaheadReads :
    let look : CopyCmd := { copy0 with kind := .look, ssp := 0, dsp := 0, rb := 0, src := 0x200000, dst := 0 }
    let half : CopyCmd := { look with seen := [(0, 1)] }
    let full : CopyCmd := { look with seen := (List.range 8).map fun i => (i, 1) }
    let was (c : CopyCmd) (i : Nat) : Option Byte := (c.seen.find? fun x => x.1 == i).map Prod.snd
    (∀ c ∈ [look, half, full], gives (lookBytes (coreState id) c) (fun _ => true) = true) ∧ 8 * half.rows = 8 ∧ was half 0 = some 1 ∧
      was half 1 = none ∧ ∀ i, i < 8 → (was full i).isSome = true := by decide +kernel

/-- A line that a copy, a selection and a read of the accumulators of earlier and later numbers write. -/
theorem test_witness_LinesReturn :
    let rd : AccRd := ⟨0, 0, 4, false, 0, 0, 9, some 0x2000, 0⟩
    let run : MxRun := ⟨cmd0 (.rd rd), 0, [], [], false, [], [], []⟩
    let c : Ctx := { Ctx.empty 0 0 with regions := [⟨1, [], [64], [], []⟩], cpq := [copy0], mxq := [cmd0 (.rd rd)], mxRun := some run }
    (c.regions.any fun r => r.launch == 1) = true ∧ 64 ∈ copy0.lines ∧ 64 ∈ (MxOp.rd rd).lines ∧ 64 ∈ (c.region 1).absent ∧
    c.linesHeld 1 10 [64] = true ∧ c.linesHeld 1 9 [64] = false := by
  decide +kernel
/-- A selection of the greatest of two binary32 elements of the scratchpad. -/
def selBlk : SelBlock :=
  { col := 0x1000, csp := 1, fmt := 0, mode := 0, nanp := 0, wfmt := 0, out := 1, osp := 1, n := 2, stride := 64, kw := 1, wcol := 0,
    wstride := 0, recAddr := 0x2000, outa := 0x2040 }

def sel0 : SelCmd :=
  { id := 9, issuer := issuer0, blk := selBlk, permit := false, pass := 0, chosen := 0, cand := [], sel := [], need := 0, tgt := 0,
    clamped := false, result := none, seen := [], put := [], wrote := [] }

/-- A column that can be read, with its weights. -/
theorem column_of {s : State} {b : Issuer} {k : SelBlock}
    (h : gives (readColumn s b k []) (fun y => gives (readWeights y.2 b k []) fun _ => true) = true) :
    ∃ els w u, readColumn s b k [] = .ok ((els, w), u) ∧ ∃ ws v, readWeights u b k [] = .ok (ws, v) := by
  obtain ⟨⟨⟨els, w⟩, u⟩, h, hs⟩ := ok_of_gives h
  obtain ⟨⟨ws, v⟩, hw, -⟩ := ok_of_gives hs
  exact ⟨els, w, u, h, ws, v, hw⟩

/-- What is left of a stretch of which nothing has been written is all of it. -/
theorem selRest_all (s : State) (wrote : List Nat) (a : DWord) (base : Nat) (bs : List Byte) :
    putRest issuer0 none (fun u w i xs => selWrite u issuer0 w 1 (a + BitVec.ofNat 64 i) xs) s wrote [] base bs = selWrite s issuer0 wrote 1 a bs := by
  simp [putRest]

/-- A pass over a column of a fixed format, with its weights, and over one of ZXF-M elements of two lengths; a result to write. -/
theorem test_witness_SelectEngineEvents :
    let one (c : SelCmd) : State := coreState fun x => { x with selq := [c], regions := [⟨1, [(0x1040, 0x20)], [], [], []⟩] }
    let mixed : SelCmd := { sel0 with permit := true, blk := { selBlk with fmt := 16 } }
    let done : SelCmd := { sel0 with result := some ⟨[0], List.replicate 32 0, false⟩ }
    let rest (u : State) (w : List Nat) (a : DWord) (base : Nat) (bs : List Byte) :=
      putRest issuer0 none (fun u w i bs => selWrite u issuer0 w 1 (a + BitVec.ofNat 64 i) bs) u w [] base bs
    ((one sel0).hw.ctx 0 0).selq = sel0 :: [] ∧ enginesRun (one sel0) 0 0 = true ∧ sel0.result = none ∧
    ((one sel0).hw.ctx 0 0).linesHeld issuer0.launch 9 selBlk.reads = false ∧
    (∃ u, takePermit (one sel0) issuer0 .select (.select 9) 1 = (u, true) ∧ ∃ els w u1, readColumn u issuer0 selBlk [] = .ok ((els, w), u1) ∧
      ∃ ws u2, readWeights u1 issuer0 selBlk [] = .ok (ws, u2)) ∧
    (((one mixed).hw.ctx 0 0).selq = mixed :: [] ∧ mixed.permit = true ∧ ∃ els w u1, readColumn (one mixed) issuer0 mixed.blk [] = .ok ((els, w), u1) ∧
      ∃ ws u2, readWeights u1 issuer0 mixed.blk [] = .ok (ws, u2)) ∧
    ∃ r, done.result = some r ∧ ((one done).hw.ctx 0 0).linesHeld issuer0.launch 9 (selBlk.lines (outBytes selBlk r).length) = false ∧
      ∃ u, rest (one done) [] selBlk.outa 0 (outBytes selBlk r) = (u, [], none) ∧
      ∃ v, rest u [] selBlk.recAddr (outBytes selBlk r).length r.record = (v, [], none) := by
  refine ⟨by decide +kernel, by decide +kernel, rfl, by decide +kernel, ⟨_, Prod.ext rfl (by decide +kernel),
    column_of (by decide +kernel)⟩, ⟨by decide +kernel, rfl, column_of (by decide +kernel)⟩, ⟨_, rfl, by decide +kernel, _,
    (selRest_all _ _ _ _ _).trans rfl, _, (selRest_all _ _ _ _ _).trans rfl⟩⟩

/-- An output of two words and the record behind it, in units that can be written, to memory and to the scratchpad. -/
theorem test_witness_WritesUnits :
    let k : SelBlock := { selBlk with out := 2 }
    let r : SelResult := ⟨[0, 1], List.replicate 32 7, false⟩
    let s : State := coreState fun x => { x with regions := [⟨1, [], [], [], []⟩] }
    let unit (osp : Nat) (a : DWord) (bs : List Byte) (n base : Nat) : Bool :=
      (selWrite s issuer0 [] osp (a + BitVec.ofNat 64 (4 * ((n - base) / 4))) ((bs.drop (4 * ((n - base) / 4))).take 4)).2.2.isNone
    (outBytes k r).length = 8 ∧ unit 1 k.outa (outBytes k r) 5 0 = true ∧ unit 1 k.recAddr r.record 13 8 = true ∧
    unit 0 0x200000 r.record 13 8 = true ∧ (s.hw.ctxs.any fun x => x.part == 0 && x.core == 0) = true ∧
    ((s.hw.ctx 0 0).regions.any fun x => x.launch == 1) = true ∧ swf ((s.hw.ctx 0 0).region 1).scr = true := by decide +kernel

/-- Three elements, two of them equal, with the weights 1, 2 and 4. -/
def col3 : SelData := ⟨[⟨7, 3, false⟩, ⟨8, 9, false⟩, ⟨9, 9, false⟩], [(1, false), (2, false), (4, true)], some 4⟩

/-- That column in its order, downwards and upwards; the least target with its sums; no eligible element; no weight; no one length. -/
theorem test_witness_SelectsByR256 :
    let blk (mode wfmt : Nat) (kw : DWord) : SelBlock := { selBlk with n := 3, mode := mode, wfmt := wfmt, kw := kw }
    let el (k : SelBlock) (x : SelData) : List Nat := (List.range k.n).filter fun i => decide (k.nanp = 1 ∨ (x.el i).nan = false)
    (sel0.pass = 0 ∧ sel0.chosen = 0 ∧ sel0.sel = [] ∧ sel0.clamped = false ∧ sel0.result = none) ∧
    ([1, 2, 0].Perm (el (blk 0 0 1) col3) ∧ [1, 2, 0].Pairwise (SelBefore (blk 0 0 1) col3)) ∧
    ([0, 1, 2].Perm (el (blk 1 0 9) col3) ∧ [0, 1, 2].Pairwise (SelBefore (blk 1 0 9) col3) ∧ (el (blk 1 0 9) col3).length < (9 : DWord).toNat) ∧
    (∀ i, 16 ^ ((col3.width.getD 4 + 3) / 4) > (col3.el i).image) ∧ (∀ w, col3.width = some w → 1 ≤ w) ∧
    (targetOf (blk 2 2 5) = 5 ∧ ((([1, 2, 0].take 1).map col3.w).sum : Int) ≤ 5 ∧ (5 : Int) < (([1, 2, 0].take (1 + 1)).map col3.w).sum ∧
      ((el (blk 2 2 7) col3).map col3.w).sum = 7 ∧ targetOf (blk 2 2 7) = 7) ∧
    (el (blk 2 2 0) { col3 with els := [⟨0, 0, true⟩, ⟨0, 0, true⟩, ⟨0, 0, true⟩] } = [] ∧ el (blk 2 2 0) { col3 with ws := [] } ≠ [] ∧
      ((el (blk 2 2 0) { col3 with ws := [] }).map ({ col3 with ws := [] } : SelData).w).sum = 0 ∧
      ({ col3 with width := none } : SelData).width = none) := by
  refine ⟨by decide +kernel, ⟨by decide +kernel, ?_⟩, ⟨by decide +kernel, ?_, by decide +kernel⟩, fun i => ?_, fun w h => ?_, by decide +kernel,
    by decide +kernel⟩
  · simp [SelBefore, col3, SelData.el, selBlk]
  · simp [SelBefore, col3, SelData.el, selBlk]
  · rcases Nat.lt_or_ge i 3 with h | h
    · revert i
      decide +kernel
    · have : col3.el i = ⟨0, 0, false⟩ := by simp [col3, SelData.el, List.getElem?_eq_none_iff.2 (show [_, _, _].length ≤ i from h)]
      rw [this]
      decide +kernel
  · cases h
    decide

/-- The weights of 1.0, −1.0, a NaN and +∞, and a target of 2.0. -/
theorem test_witness_WeightsByR256 :
    ValueIs (fmtF32.decode 0x3F800000) 1 ∧ (∃ y < 0, ValueIs (fmtF32.decode 0xBF800000) y) ∧ (fmtF32.decode 0x7FC00000).isNan = true ∧
    fmtF32.decode 0x7F800000 = .inf false ∧ (∃ big, MaxFinite fmtF32 big) ∧
    ValueIs (fmtF64.decode ({ selBlk with wfmt := 1, kw := 0x4000000000000000 } : SelBlock).kw.toNat) 2 := by
  have h1 : fmtF32.decode 0x3F800000 = .fin false 8388608 (-23) false := by decide +kernel
  have h2 : fmtF32.decode 0xBF800000 = .fin true 8388608 (-23) false := by decide +kernel
  have h3 : fmtF32.decode fmtF32.maxCode = .fin false 16777215 104 false := by decide +kernel
  have h4 : fmtF64.decode ({ selBlk with wfmt := 1, kw := 0x4000000000000000 } : SelBlock).kw.toNat = .fin false 4503599627370496 (-51) false := by
    decide +kernel
  refine ⟨?_, ⟨-1, by norm_num, ?_⟩, by decide +kernel, by decide +kernel, ⟨(16777215 : ℝ) * 2 ^ (104 : Int), ?_⟩, ?_⟩
  · rw [h1]; exact ⟨_, _, _, rfl, by norm_num⟩
  · rw [h2]; exact ⟨_, _, _, rfl, by norm_num⟩
  · unfold MaxFinite; rw [h3]; exact ⟨_, _, _, rfl, by norm_num⟩
  · rw [h4]; exact ⟨_, _, _, rfl, by norm_num⟩

/-- A result with indices of the column, as a mask and as a list. -/
theorem test_witness_OutputsByR256 : ∀ i ∈ (⟨[0, 1], [], false⟩ : SelResult).sel, i < selBlk.n := by decide

/-- A request of a trial of `nex` examples of one word at 0x200000, with or without a session table at 0x210000. -/
def req0 (nex tlog : Nat) : TrialReq :=
  ⟨9, 0, 1, 0, 16, nex, 1, 1, 64, 0, tlog, 100, 0x200000, 0x210000, 0x220000, ⟨0, 0, 0⟩, 0, 0, 0, []⟩

theorem ok_some {ε α : Type} {x : Except ε α} (h : gives x (fun _ => true) = true) : ∃ a, x = .ok a :=
  (ok_of_gives h).imp fun _ h => h.1

/-- A lookup that goes through, with a record that can be written. -/
theorem dedup_of {s : State} {x : Lookup}
    (h : gives (dedup s x) (fun y => gives (engWrite y.1 x.by_ y.2.1 (x.req.recAddr + BitVec.ofNat 64 (8 * x.put))
      ((x.record y.2.2.1 y.2.2.2).drop (8 * x.put))) fun _ => true) = true) :
    ∃ u w dup full, dedup s x = .ok (u, w, dup, full) ∧ ∃ v w', engWrite u x.by_ w (x.req.recAddr + BitVec.ofNat 64 (8 * x.put))
      ((x.record dup full).drop (8 * x.put)) = .ok (v, w') := by
  obtain ⟨⟨u, w, dup, full⟩, h, hw⟩ := ok_of_gives h
  obtain ⟨⟨v, w'⟩, hv, -⟩ := ok_of_gives hw
  exact ⟨u, w, dup, full, h, v, w', hv⟩

/-- The example of a trial that waits for its inputs. -/
def inputWaits (x : Except Stop State) : Bool := match x with
  | .error (.wait _) => true
  | _ => false

theorem input_waits {x : Except Stop State} (h : inputWaits x = true) : ∃ k, x = .error (.wait k) := by
  unfold inputWaits at h
  split at h
  · exact ⟨_, rfl⟩
  · cases h

/-- The example of a trial that consumes an error. -/
def inputConsumes (x : Except Stop State) : Bool := match x with
  | .error (.consumed _) => true
  | _ => false

theorem input_consumes {x : Except Stop State} (h : inputConsumes x = true) : ∃ u, x = .error (.consumed u) := by
  unfold inputConsumes at h
  split at h
  · exact ⟨_, rfl⟩
  · cases h

/-- A trial of one example, whose request is `r`. -/
def run0 (r : TrialReq) : TrialRun := ⟨r, 0, 0, false, false, false, [], [], []⟩

/-- A trial that has read its four input bytes and zeroed the first byte of its sandbox. -/
def readRun : TrialRun := { run0 (req0 1 0) with seen := [(0, 1), (1, 2), (2, 3), (3, 4)], zeroed := [0] }

/-- The state of a trial thread. -/
def trialState (f : Region → Region) : State := (withTh trialThread).mapHw fun h => { h with
  ctxs := [{ Ctx.empty 0 0 with regions := [f ⟨1, [(3, 7)], [], [], []⟩] }, Ctx.empty 0 1] }

/-- An absent line of the sandbox; inputs that have been read; inputs that are not resident, at no page, poisoned, and read now. -/
theorem test_witness_ExampleBegins :
    let s := trialState id
    let hot : State := s.mapHw fun h => { h with poison := [⟨granuleOf (devKey 0x40200000), 5⟩] }
    ((trialState fun g => { g with absent := [0] }).region.absent = [0] ∧ ((run0 (req0 1 0)).req.sbase + 3) / 128 = 0) ∧
    s.region.absent = [] ∧
    ((∀ i, i < 4 → ((readRun.seen.find? fun x => x.1 == i).map Prod.snd).isSome = true) ∧ 0 ∈ readRun.zeroed) ∧
    (inputWaits (match checkGen s s.who .load 0xA00000 4 with
      | .ok _ => .ok s
      | .error e => .error e) = true ∧
      faults (checkGen s s.who .load 0xC00000 4) (fun _ => true) = true) ∧
    gives (checkGen s s.who .load 0x200000 4) (fun xs => (xkeys xs).all fun k => !keyPoisoned s.hw k) = true ∧
    gives (checkGen hot hot.who .load 0x200000 4) (fun xs => (xkeys xs).any fun k => keyPoisoned hot.hw k) = true ∧
    ((s.hw.ctxs.any fun x => x.part == 0 && x.core == 0) = true ∧ ((s.hw.ctx 0 0).regions.any fun x => x.launch == 1) = true ∧
      swf ((s.hw.ctx 0 0).region 1).scr = true) := by
  decide +kernel

/-- A byte of which the trial sees no earlier contents. Whether a trial sees any is a free value of the model (log entry 47), which nothing here
can evaluate. -/
theorem test_witness_TrialCode : ∀ b, (5, b) ∉ ({ run0 (req0 1 0) with old := [(4, 9)] } : TrialRun).old := by
  intro b h
  simp at h

/-- A start, set up at once and byte by byte, with its inputs at once, not yet and poisoned; a fold at the last example and before it; inputs
that have come; a trial out of fuel and one that is not. -/
theorem test_witness_TrialEvents :
    let e (r : TrialReq) : StartEntry := ⟨1, 5, .trial r⟩
    let far : TrialReq := { req0 1 0 with inp := 0xA00000 }
    let s (r : TrialReq) : State := coreState fun x => { x with startq := [e r] }
    let apart : State := { s (req0 1 0) with port := { Port.idle with split := true } }
    let hot : State := (s (req0 1 0)).mapHw fun h => { h with poison := [⟨granuleOf (devKey 0x40200000), 5⟩] }
    let s1 (u : State) (r : TrialReq) : State := ((beginStart u 0 0 (e r)).mapHw fun h => { h with fresh := h.fresh + 256 * r.nslot }).setTh
      { Thread.idle with live := true, key := ⟨0, 0, (u.freeSlots 0 0 false).1⟩, launch := 1, tid := 5, win := 16, fuel := 100,
                         picker := leastPicker (u.threadsOn 0 0) }
    let run (u : State) (r : TrialReq) : TrialRun := ⟨r, 0, 0, false, false, false, [], [], bankView u.hw (u.hw.ctx 0 0) r⟩
    let f (nex : Nat) (starved loading : Bool) : Thread :=
      { thread0 with trial := some ⟨req0 nex 0, 0, 0, !starved && !loading, starved, loading, [], [], []⟩ }
    let t' (nex : Nat) : Thread := (List.range 1).foldl (fun t i => t.foldSig ((t.cell i).data.zeroExtend 64)) (f nex false false)
    (contextRuns (s (req0 1 0)) 0 0 = true ∧ nextStart (s (req0 1 0)) 0 0 = some (e (req0 1 0)) ∧ (s (req0 1 0)).port.split = false ∧
      ∃ u, beginExample (s1 (s (req0 1 0)) (req0 1 0)) (run (s (req0 1 0)) (req0 1 0)) 0 = .ok u) ∧
    (contextRuns apart 0 0 = true ∧ nextStart apart 0 0 = some (e (req0 1 0)) ∧ apart.port.split = true) ∧
    (contextRuns (s far) 0 0 = true ∧ nextStart (s far) 0 0 = some (e far) ∧
      ∃ k, beginExample (s1 (s far) far) (run (s far) far) 0 = .error (.wait k)) ∧
    (contextRuns hot 0 0 = true ∧ nextStart hot 0 0 = some (e (req0 1 0)) ∧
      ∃ u, beginExample (s1 hot (req0 1 0)) (run hot (req0 1 0)) 0 = .error (.consumed u)) ∧
    (∀ nex ∈ [1, 2], contextRuns (idleState (f nex false false) []) 0 0 = true ∧ (f nex false false).fullAt 0 1 ∧
      gives (flush (((idleState (f nex false false) []).enterThread (f nex false false)).setTh (t' nex))) (fun s1 =>
        gives (beginExample (s1.mapHw fun h => { h with pends := h.pends.filter fun p =>
            !(p.key == s1.th.key && p.tid == s1.th.tid && p.launch == s1.th.launch) })
          ⟨req0 nex 0, 0, 1, false, false, false, [], [], []⟩ 1) fun _ => true) = true) ∧
    ((0 : Nat) + 1 = (req0 1 0).nex ∧ 0 + 1 ≠ (req0 2 0).nex) ∧
    gives (beginExample ((idleState (f 1 false true) []).enterThread (f 1 false true)) ⟨req0 1 0, 0, 0, false, false, true, [], [], []⟩ 0)
      (fun _ => true) = true ∧
    ((idleState (f 1 true false) []).thread? ⟨0, 0, 0⟩ = some (f 1 true false) ∧
      (idleState (f 1 false false) []).thread? ⟨0, 0, 0⟩ = some (f 1 false false)) ∧ (req0 1 0).win ≤ 128 := by
  refine ⟨⟨by decide +kernel, by decide +kernel, by decide +kernel, ok_some (by decide +kernel)⟩, by decide +kernel,
    ⟨by decide +kernel, by decide +kernel, input_waits (by decide +kernel)⟩, ⟨by decide +kernel, by decide +kernel, input_consumes (by decide +kernel)⟩,
    fun nex hn => ?_, by decide, by decide +kernel, by decide +kernel, by decide⟩
  · rcases List.mem_cons.1 hn with rfl | hn
    · exact ⟨by decide +kernel, fullAt_of (by decide +kernel), by decide +kernel⟩
    · rw [List.mem_singleton.1 hn]; exact ⟨by decide +kernel, fullAt_of (by decide +kernel), by decide +kernel⟩

/-- A lookup with a table, without, with its answer known, behind one of a lower TID, and while 32 others have begun. -/
theorem test_witness_TrialEvents_lookup :
    let x (tlog : Nat) : Lookup := ⟨9, 3, req0 1 tlog, 5, 1, 0, 1, 7, 0x1234, 0, 0, 3, 0, none, 0, []⟩
    let ls (xs : List Lookup) : State := coreState fun c => { c with lookups := xs }
    let known : Lookup := { x 8 with answer := some (true, false), put := 1 }
    (∀ tlog ∈ [0, 8], contextRuns (ls [x tlog]) 0 0 = true ∧ ((ls [x tlog]).hw.ctx 0 0).lookups.find? (fun y => y.id == 9) = some (x tlog) ∧
      (∀ y ∈ ((ls [x tlog]).hw.ctx 0 0).lookups, ¬ y.tid.toNat < (x tlog).tid.toNat) ∧
      ∃ u w dup full, dedup (ls [x tlog]) (x tlog) = .ok (u, w, dup, full) ∧
        ∃ v w', engWrite u (x tlog).by_ w ((x tlog).req.recAddr + BitVec.ofNat 64 (8 * (x tlog).put))
          (((x tlog).record dup full).drop (8 * (x tlog).put)) = .ok (v, w')) ∧
    gives (engWrite (ls [known]) known.by_ known.wrote (known.req.recAddr + BitVec.ofNat 64 (8 * known.put))
      ((known.record true false).drop (8 * known.put))) (fun _ => true) = true ∧
    ∃ y ∈ ((ls [x 8, { x 8 with id := 10, tid := 4 }]).hw.ctx 0 0).lookups,
      y.clk = (x 8).clk ∧ y.req.table = (x 8).req.table ∧ y.answer = none ∧ y.tid.toNat < (x 8).tid.toNat ∧
    32 ≤ ((List.replicate 32 { x 8 with probed := 1 }).filter fun y => y.probed != 0 || y.answer.isSome || y.put != 0).length := by
  refine ⟨fun tlog ht => ?_, by decide +kernel, by decide +kernel⟩
  rcases List.mem_cons.1 ht with rfl | ht
  · exact ⟨by decide +kernel, by decide +kernel, by decide +kernel, dedup_of (by decide +kernel)⟩
  · rw [List.mem_singleton.1 ht]; exact ⟨by decide +kernel, by decide +kernel, by decide +kernel, dedup_of (by decide +kernel)⟩

/-- A table of which the key's first entry is free, holds the key, and holds another one; a tuple that the filter cache holds; an entry at no
page. -/
theorem test_witness_DedupByR352 :
    let x (tlog : Nat) : Lookup := ⟨9, 3, req0 1 tlog, 5, 1, 0, 1, 7, 0x1234, 0, 0, 3, 0, none, 0, []⟩
    let s : State := coreState id
    let z0 : DWord := 0x1234
    let z1 := (z0 ^^^ (z0 >>> 30)) * 0xBF58476D1CE4E5B9
    let z2 := (z1 ^^^ (z1 >>> 27)) * 0x94D049BB133111EB
    let key := z2 ^^^ (z2 >>> 31)
    let a := (x 8).req.table + BitVec.ofNat 64 (16 * ((key.toNat % 2 ^ 8 + 0) % 2 ^ 8))
    let entry (k : DWord) : State := s.mapHw fun h => { h with mem := writeBytes h.mem (devKey 0x40000000 + a.toNat) (leBytes 8 k.toNat ++ zs 7 ++ [1]) }
    let old (u : State) (p : List Byte → Bool) : Bool := gives (checkGen u (x 8).by_.who .atomic a 16) fun xs =>
      decide (xkeys xs).Nodup && ((xkeys xs).all fun k => !keyPoisoned u.hw k && !(pteKeys xs).contains k) &&
      p ((xkeys xs).map (sget u.hw.mem))
    (x 8).sig ^^^ ((x 8).sign.zeroExtend 64 <<< 48) ^^^ (BitVec.ofNat 64 (x 8).verdict <<< 60) = z0 ∧
    old s (fun bs => !(bs.getD 15 0).getLsbD 0) = true ∧
    old (entry key) (fun bs => (bs.getD 15 0).getLsbD 0 && leNat (bs.take 8) == key.toNat) = true ∧
    old (entry (key + 1)) (fun bs => (bs.getD 15 0).getLsbD 0 && leNat (bs.take 8) != key.toNat) = true ∧
    faults (checkGen s (x 8).by_.who .atomic (0xC00000 : DWord) 16) (fun _ => true) = true ∧
    (∀ c ∈ s.hw.ctxs, c.filter = []) ∧ gives (dedup s (x 8)) (fun _ => true) = true := by decide +kernel

/-- That entry lies in a canonical memory. -/
theorem test_witness_DedupByR352_canonical : (coreState id).canonical := canonical_of (by decide +kernel)
/-! ### Witnesses: the scheduler -/

/-- A kernel header of 96 bytes with flags (R393): decode mode Z3, entry 96, window 8. -/
def header (flags : Byte) : List Byte :=
  leBytes 4 0x5A4B4844 ++ leBytes 2 1 ++ [3, flags] ++ leBytes 4 96 ++ [8, 0] ++ zs 2 ++ zs 4 ++ zs 4 ++ zs 4 ++ leBytes 4 0x1000 ++ zs 8 ++ zs 4 ++
    zs 52

/-- A queue record (R263): header or target, count, kind, argument or source, wait word, signal word. -/
def record (hdr count kind arg waddr wval sig : Nat) : List Byte :=
  leBytes 8 hdr ++ leBytes 4 count ++ [0, 0, BitVec.ofNat 8 kind, 0] ++ leBytes 8 arg ++ leBytes 8 waddr ++ leBytes 8 wval ++ leBytes 8 sig ++
    zs 8 ++ zs 8

/-- A memory with the tables of pages 0 and 1 only. -/
def lightMem : Memory :=
  (List.range 2).foldl (fun m p => writeBytes m (0x102000 + 8 * p) (leBytes 8 (pte p)))
    (writeBytes (writeBytes [] 0x100000 (leBytes 8 0x101001)) 0x101000 (leBytes 8 0x102001))

/-- The module between steps with that record at the head of queue 0 and that header at 0x100. -/
def queueState (r h : List Byte) : State :=
  (idleState thread0 []).mapHw fun hw =>
    { hw.setPart ((hw.part 0).setQueue 0 ⟨[r], false, none⟩) with mem := writeBytes lightMem 0x40000100 h }

/-- A record can be dispatched as far as its header. -/
def fetches (r h : List Byte) (p : Hw → Nat → List Byte → Bool) : Bool :=
  let s := queueState r h
  chooseQueue s 0 == some 0 && recKind r == 0 && recOk 0 r && (recHdr r).toNat % 256 == 0 && decide (1 ≤ fld r 8 4) &&
    !waitFaults s 0 r && gives (codeBytes s 0 (s.hw.part 0).ver (recHdr r) 96) fun y => y.2.1.isNone && p y.2.2.hw (s.hw.part 0).ver y.1

/-- A wait word at its value, below it, and at no page; records refused for their count, for a header that is none, for SCANGATED alone, for want of a
staging area; one dispatched; a patch refused for its wait word and its target, applied, and applied with a signal; a crew, a thread, balancing on and off. -/
theorem test_witness_LaunchEvents :
    let p1 := record 0 1 1 0x1000 0 0 0
    let ps := record 0 1 1 0x1000 0 0 0x200010
    let crews : State := (idleState thread0 []).mapHw fun h => h.setPart { h.part 0 with crewWait := [⟨1, 0, 0, 4, 0⟩] }
    let starts : State := coreState fun x => { x with startq := [⟨1, 5, .plain⟩] }
    let still : State := (idleState thread0 []).mapHw fun h => h.setPart { h.part 0 with balcfg := 0x1000 }
    let launch (h : Hw) (r b : List Byte) : Launch := makeLaunch h 0 r b
    let r1 := record 0x100 1 0 0 0 0 0
    (∀ v ∈ [0, 5], let r := record 0x100 1 0 0 0x200010 v 0
      ((queueState r []).hw.part 0).head 0 = some r ∧ recWaddr r ≠ 0 ∧ recWval r = v ∧
      gives (systemRead (queueState r []) 0 (recWaddr r) 8) (fun x => leNat x.1 == 0) = true) ∧
    (let r := record 0x100 0 0 0 0 0 0
     chooseQueue (queueState r []) 0 = some 0 ∧ ((queueState r []).hw.part 0).head 0 = some r ∧ recKind r = 0 ∧ fld r 8 4 = 0) ∧
    (∀ kind ∈ [0, 1], let r := record (if kind = 0 then 0x100 else 0) 1 kind 0x1000 0xC00000 5 0
     chooseQueue (queueState r []) 0 = some 0 ∧ recKind r = kind ∧ recOk 0 r = true ∧ waitFaults (queueState r []) 0 r = true) ∧
    fetches r1 [] (fun _ v b => !headerOk b v) = true ∧
    fetches r1 (header 2) (fun _ v b => headerOk b v && fld b 7 1 / 2 % 2 == 1 && fld b 7 1 % 2 == 0) = true ∧
    fetches r1 (header 1) (fun h v b => headerOk b v && fld b 7 1 / 2 % 2 == 0 && lacksResources h 0 (launch h r1 b)) = true ∧
    fetches r1 (header 0) (fun h v b => headerOk b v && fld b 7 1 / 2 % 2 == 0 && !lacksResources h 0 (launch h r1 b)) = true ∧
    (∀ r ∈ [p1, ps, record 0 0 1 0x1000 0 0 0], chooseQueue (queueState r []) 0 = some 0 ∧ ((queueState r []).hw.part 0).head 0 = some r ∧
      recKind r = 1 ∧ recOk 0 r = true ∧ waitFaults (queueState r []) 0 r = false) ∧
    (patchOk (queueState (record 0 0 1 0x1000 0 0 0) []) 0 (record 0 0 1 0x1000 0 0 0) = false ∧
      (patchOk (queueState p1 []) 0 p1 = true ∧ recSig p1 = 0) ∧ patchOk (queueState ps []) 0 ps = true ∧ recSig ps ≠ 0 ∧
      gives (signalAdd (applyPatch (queueState ps []) 0 0 ps) 0 (recSig ps)) (fun _ => true) = true) ∧
    (crewOrder crews.hw 0 = [] ++ ⟨1, 0, 0, 4, 0⟩ :: [] ∧ crews.hw.launch? 0 1 = some placedLaunch ∧ (crewCore crews placedLaunch 4).isSome = true) ∧
    (contextRuns starts 0 0 = true ∧ nextStart starts 0 0 = some ⟨1, 5, .plain⟩) ∧
    (((idleState thread0 []).hw.part 0).active = true ∧ ((idleState thread0 []).hw.part 0).balcfg[12] = false) ∧
    (still.hw.part 0).balcfg[12] = true := by
  refine ⟨?_, ?_, ?_, ?_, ?_, ?_, ?_, ?_, ?_, ?_, ?_, ?_, ?_⟩ <;> decide +kernel

/-- A patch at the head of its queue, with room for its version, and with none, where 16 launches of other versions are in flight. -/
theorem test_witness_HeadRules :
    let r := record 0 1 1 0x1000 0 0 0
    let few : State := queueState r []
    let many : State := few.mapHw fun h => { h with
      launches := [1, 3, 4, 5, 6, 7, 8, 9, 10, 11, 12, 13, 14, 15, 16, 17].map fun v => { placedLaunch with id := v, ver := v } }
    (∀ s ∈ [few, many], (s.hw.part 0).head 0 = some r ∧ recWaddr r = 0 ∧ recKind r = 1 ∧ waitFaults s 0 r = false ∧ recOk 0 r = true ∧
      patchOk s 0 r = true ∧ s.hw.part 0 ∈ s.hw.parts ∧ (s.hw.part 0).idx = 0 ∧ ((s.hw.part 0).queue 0).hold = none) ∧
    (liveVersions few.hw 0 ((few.hw.part 0).ver + 1)).length ≤ 16 ∧ 16 < (liveVersions many.hw 0 ((many.hw.part 0).ver + 1)).length ∧
    1 ∈ liveVersions many.hw 0 (many.hw.part 0).ver := by
  decide +kernel

/-- A queue whose head is ready, a partition in order, and a RESTARTABLE launch without a staging area. -/
theorem test_witness_DispatchRules :
    let r := record 0x100 1 0 0 0 0 0
    chooseQueue (queueState r []) 0 = some 0 ∧ headReady (queueState r []) 0 0 = true ∧ 1 ≤ ((queueState r []).hw.part 0).nextLaunch ∧
    (queueState r []).hw.launches.length + 1 < 2 ^ 31 ∧ gives (checkGen (queueState r []) (systemWho 0) .load 0x200010 8) (fun _ => true) = true := by
  decide +kernel

/-- A launch of plain threads and one of crews, in a partition whose cores have start queues of two lengths, and the patch of a partition. -/
theorem test_witness_PlacesByR313 :
    let s : State := coreState fun x => { x with startq := [⟨1, 5, .plain⟩] }
    let len (c : Nat) : Nat := (s.hw.ctx 0 c).startq.length
    (s.hw.part 0 ∈ s.hw.parts ∧ (s.hw.part 0).idx = placedLaunch.part ∧ (s.hw.ctxs.any fun c => c.part == 0 && c.core == 0) = true) ∧
    placedLaunch.crewSize = 0 ∧ ({ placedLaunch with crewSize := 4 } : Launch).crewSize ≠ 0 ∧ (s.hw.part 0).cores.Pairwise (· < ·) ∧
    1 ∈ (s.hw.part 0).cores ∧ (∀ d ∈ (s.hw.part 0).cores, len 1 < len d ∨ (len 1 = len d ∧ 1 ≤ d)) ∧
    (let r := record 0 1 1 0x1000 0 0 0
     patchOk (queueState r []) 0 r = true ∧ (queueState r []).hw.part 0 ∈ (queueState r []).hw.parts ∧ ((queueState r []).hw.part 0).idx = 0) := by
  decide +kernel

/-- A crew that a core can take, one that none can, and two of launches of two priorities. -/
theorem test_witness_CrewsByR316 :
    let s : State := (idleState thread0 []).mapHw fun h => h.setPart { h.part 0 with crewWait := [⟨1, 0, 0, 4, 0⟩, ⟨1, 1, 4, 4, 0⟩] }
    (∀ l ∈ s.hw.launches, l.prio ≤ 3) ∧ s.hw.launch? 0 1 = some placedLaunch ∧ crewCore s placedLaunch 4 = some 0 ∧
    crewCore s placedLaunch 131073 = none ∧ (s.hw.part 0).cores.Pairwise (· < ·) ∧ s.hw.part 0 ∈ s.hw.parts ∧ (s.hw.part 0).idx = 0 ∧
    (s.hw.ctxs.any fun c => c.part == 0 && c.core == 0) = true := by decide +kernel

/-- Entries of a thread, a spawned one, a redundant pair and a member of an auto-crew, on a core with room. -/
theorem test_witness_StartsByR11 :
    let crew : Crew := ⟨7, BitVec.ofNat 64 (2 ^ 63 + 1 * 2 ^ 32 + 0), 4, [0, 1, 2, 3], none, none, [(1, 3)]⟩
    let s (e : StartEntry) : State := coreState fun x => { x with startq := [e, ⟨1, 9, .plain⟩], crews := [crew] }
    (∀ e ∈ [(⟨1, 5, .plain⟩ : StartEntry), ⟨1, 5, .spawn 0x40 7⟩, ⟨1, 2, .crew 0⟩], nextStart (s e) 0 0 = some e ∧ canStart (s e) 0 0 e = true) ∧
    (let e : StartEntry := ⟨1, 5, .plain⟩
     ((s e).hw.ctxs.any fun c => c.part == 0 && c.core == 0) = true ∧ ((s e).slotsOn 0 0).length + 2 ≤ 4096 ∧
     ((s e).hw.ctx 0 0).crews.find? (fun x => x.key == BitVec.ofNat 64 (2 ^ 63 + placedLaunch.id * 2 ^ 32 + 0)) = some crew) ∧
    nextStart (coreState id) 0 0 = none ∧ ({ placedLaunch with dmr := true } : Launch).dmr = true ∧ placedLaunch.dmr = false := by decide +kernel

/-- Two cores of different depths, with an entry and a crew that may move. -/
theorem test_witness_BalancesByR319 :
    let s : State := (coreState fun x => { x with startq := [⟨1, 5, .plain⟩, ⟨1, 6, .plain⟩] }).mapHw fun h =>
      h.setPart { h.part 0 with crewWait := [⟨1, 0, 0, 4, 0⟩] }
    (s.hw.ctx 0 1).startq.length < (s.hw.ctx 0 0).startq.length ∧ (s.hw.ctxs.any fun c => c.part == 0 && c.core == 0) = true ∧
    (s.hw.ctxs.any fun c => c.part == 0 && c.core == 1) = true ∧ s.hw.part 0 ∈ s.hw.parts ∧ (s.hw.part 0).idx = 0 ∧
    (s.hw.part 0).crewWait ≠ [] ∧ (0 : Nat) ≠ 1 := by decide +kernel
/-- The module between steps without threads, with that launch. -/
def emptyState (l : Launch) : State := ofLaunch ((idleState thread0 []).mapHw fun h => { h with threads := [], mem := lightMem }) l

/-- Two partitions that share cores 0 and 1 and name each other, with time slices of 20 µs; the first is active. -/
def pairState (swap : SwapPhase) (now : Nat) : State :=
  { (idleState thread0 []).mapHw fun h => { h with
      parts := h.parts.map (fun p => { p with pswap := 0x140300, swap := swap }) ++ [{ Part.fresh 1 [0, 1] 0 false with pswap := 0x140100 }] } with
    time := now }

/-- A launch with no signal word, with one, and with one that is not mapped; a launch with a resident thread; a RESTARTABLE one that is
done; the word of a signal; a slice at its end and before it; a swap with nothing in flight, with a load in flight, and halted. -/
theorem test_witness_LaunchEndAndSwapEvents :
    let plain := emptyState placedLaunch
    let sig : Launch := { placedLaunch with sigaddr := 0x200010 }
    let far : Launch := { placedLaunch with sigaddr := 0xC00000 }
    let rest := emptyState restLaunch
    let ld := pendOf (.load 4) 1 4
    let busy : State := (pairState .halting 0).mapHw fun h => { h with pends := [ld] }
    let p := (pairState .none 20000).hw.part 0
    let x := (pairState .exchanging 0).hw.part 0
    let held : Launch := { placedLaunch with heldPuts := [(3, [])] }
    let full : Hw := (emptyState held).hw.setPart (((emptyState held).hw.part 0).setQueue 3 ⟨List.replicate 256 [], false, none⟩)
    (plain.hw.launch? 0 1 = some placedLaunch ∧ launchDone plain placedLaunch = true ∧ placedLaunch.sigaddr = 0) ∧
    (launchDone (emptyState sig) sig = true ∧ sig.sigaddr ≠ 0 ∧ gives (signalAdd (emptyState sig) 0 sig.sigaddr) (fun _ => true) = true) ∧
    (launchDone (emptyState far) far = true ∧ (match signalAdd (emptyState far) 0 far.sigaddr with
      | .error (.fault _) => true
      | _ => false) = true) ∧
    (gives (checkGen plain (systemWho 0) .atomic 0x200010 8) (fun xs => decide (xkeys xs).Nodup && (xkeys xs).all fun k => !(pteKeys xs).contains k)
      = true ∧ swf plain.hw.mem = true) ∧
    launchDone (idleState thread0 []) placedLaunch = false ∧
    (rest.hw.launch? 0 1 = some restLaunch ∧ launchDone rest restLaunch = true ∧ scanGate rest.hw restLaunch = true) ∧
    (held.restartable = false ∧ held.heldPuts ≠ [] ∧ (queueHeld 0 held.heldPuts (emptyState held).hw).1 = [] ∧
      (queueHeld 0 held.heldPuts full).1 = [(3, [])]) ∧
    (p.active = true ∧ p.swap = .none ∧ p.swapDue = false ∧ bitsOf p.pswap.toNat 31 16 = 20 ∧ paired (pairState .none 20000).hw p = true ∧
      coresSettled (pairState .none 20000).hw p = true ∧ p.activeSince + 1000 * 20 ≤ (pairState .none 20000).time ∧
      (pairState .none 0).time < p.activeSince + 1000 * 20) ∧
    (((pairState .halting 0).hw.part 0).swap = .halting ∧ (pairState .halting 0).hw.pends = []) ∧
    (ld ∈ busy.hw.pends ∧ ld.key.part = 0 ∧ ld.isAccess = true ∧ peerHeld busy ld = false) ∧
    (x ∈ (pairState .exchanging 0).hw.parts ∧ (pairState .exchanging 0).hw.part x.peer ∈ (pairState .exchanging 0).hw.parts ∧ x.idx = 0 ∧
      x.swap = .exchanging ∧ ((pairState .exchanging 0).hw.part x.peer).idx = x.peer ∧ x.peer ≠ 0 ∧
      ((pairState .exchanging 0).hw.part x.peer).cores = x.cores) := by
  decide +kernel

/-- That module with its tiered page resident at the frame 0x50000000. -/
def tierState : State := (idleState thread0 []).mapHw fun h =>
  { h with mem := (List.range 16).foldl (fun m i => writeBytes m (0x103000 + 8 * i) (leBytes 8 (2 ^ 57 + 2 ^ 56 + 0x187 + 0x50000000))) h.mem }

/-- A piece of a large page; the tiered page of 64 KiB, which the entries still map to its old frame, and do no longer; one at no page. -/
theorem test_witness_CommitsByR375 :
    let h : Hw := tierState.hw
    let e : TlbEntry := ⟨0xA00000, 65536, BitVec.ofNat 64 (2 ^ 57 + 2 ^ 56 + 0x187 + 0x50000000), 0x103000⟩
    let g : Staged := ⟨0xA00000, 65536, 0x50000000, 0x60000000, false⟩
    let big : Staged := ⟨0x200000, 0x200000, 0x40200000, 0x60000000, true⟩
    swf h.mem = true ∧ (h.ctxs.all fun c => c.wc.isEmpty && c.outq.isEmpty) = true ∧ h.pends = [] ∧ big.copyBack = true ∧
    walk h (h.part 0).xlroot 0xA00000 = some e ∧ walk h (h.part 0).xlroot 0xC00000 = none ∧ 4096 * field e.pte.toNat 55 12 = g.orig ∧
    e.size = g.size ∧ g.frame % 4096 = 0 ∧ g.frame < 2 ^ 56 ∧ 4096 * field e.pte.toNat 55 12 ≠ ({ g with orig := 0x70000000 } : Staged).orig ∧
    h.part 0 ∈ h.parts ∧ (h.part 0).idx = 0 := by decide +kernel

/-- A core with requests of each kind, of a partition that runs there, one of them beyond the balance. -/
theorem test_witness_RefreshesByR320 :
    let me : PermitFor := .ticket ⟨0, 0, 0⟩ 0 .matrix 1
    let h : Hw := hw0.setBudget { hw0.budget 0 with waiting := [⟨0, .copy 9, 1⟩, ⟨0, me, 0⟩, ⟨0, .matrix true 8, 2000⟩], balance := -3 }
    (h.budgets.any fun b => b.core == 0) = true ∧ coreRuns h 0 0 = true ∧ (h.budget 0).waiting.length = 3 := by decide +kernel

/-- A copy that has begun its burst, as its partition halts, and one that has not. -/
theorem test_witness_BurstGoesOn :
    let s (c : CopyCmd) : State := (coreState fun x => { x with cpq := [c] }).mapHw fun h => { h with
      parts := h.parts.map fun p => { p with swap := .halting } }
    let on : CopyCmd := { copy0 with seen := [(0, 1)] }
    currentCopy (s on) 0 0 = some on ∧ (match (burst (s on) on).2.1 with
      | some (.wait _) | some (.stage _) => false
      | _ => true) = true ∧ currentCopy (s copy0) 0 0 = some copy0 ∧ copy0.seen = [] ∧ copy0.put = [] ∧
    ((s on).hw.part 0).swap = .halting ∧ 0 ∈ ((s on).hw.part 0).cores := by decide +kernel

/-! ### Witnesses: service -/

/-- Cores 0 and 1 with core 0 on the move, and a core in its scan. -/
def scanState (use0 : CoreUse) : State :=
  (idleState thread0 []).mapHw fun h => { h with cores := [⟨0, 0, use0, 0⟩, ⟨0, 1, .serving 1, 0⟩, ⟨0, 12, .spare, 0⟩, ⟨0, 2, .scanning 7, 0⟩] }

theorem test_witness_ServiceEvents :
    let low := tierState
    let flash : State := (idleState thread0 []).mapHw fun h => { h with flash := [⟨0, 0xA00000, [(7, 5)], [], none⟩], freeTier := [0x50010000] }
    let rich : State := (idleState thread0 []).setMod { Module.booted with tierHigh := 0, tierLow := 0 }
    let t : Thread := { thread0 with wait := .retry .waitc 0 }
    let late : State := { idleState t [] with time := 1000000001 }
    let lat : State := (idleState thread0 []).mapHw fun h => { h with latent := [⟨5, true⟩, ⟨6, false⟩] }
    let pp (kind : PendKind) : Pend := { pendOf kind 1 1 with locs := [.phys (peerKey 3 0x40)] }
    let gated : Launch := { restLaunch with scangated := true, ran := [(0, 2, 9)] }
    let gone : Launch := { gated with attempt := 3 }
    let inv : State := (idleState thread0 []).mapHw fun h => h.setPart { h.part 0 with xlinv := 5, xlinvRun := 4 }
    1 ≠ freeMiB low.hw ∧
    (freeMiB low.hw < low.mod.tierLow.toNat ∧ (minBy (fun x : Part × TlbEntry => (pteFrame x.2.pte.toNat + 2 ^ 40 - low.mod.hand - 1) % 2 ^ 40)
      (low.hw.parts.flatMap fun p => (tierPages low.hw p).map fun e => (p, e))).isSome = true) ∧
    (rich.mod.tierHigh.toNat ≤ freeMiB rich.hw ∧ rich.mod.tierLow.toNat ≤ freeMiB rich.hw) ∧
    ((match walk flash.hw (flash.hw.part 0).xlroot 0xA00000 with
      | some e => (flashCopy flash.hw 0 e.va).isSome && pteTier e.pte.toNat && !pteRes e.pte.toNat &&
          !blocksMeet (0x50010000, 65536) (e.pteAddr - 8 * (e.pteAddr / 8 % 16), 128)
      | none => false) = true ∧ 0x50010000 ∈ flash.hw.freeTier ∧ swf flash.hw.mem = true ∧ swf ([(7, 5)] : Memory) = true ∧ 0x50010000 % 65536 = 0 ∧
      0x50010000 + 65536 ≤ 549755813888) ∧
    (late.thread? ⟨0, 0, 0⟩ = some t ∧ t.wait.what = some (.waitc, 0) ∧ t.park = .none ∧ t.trial = none ∧ coreRuns late.hw 0 0 = true ∧
      bitsOf (late.hw.part 0).wdcfg.toNat 31 0 ≠ 0 ∧ 1000 * bitsOf (late.hw.part 0).wdcfg.toNat 31 0 < late.time - 0 ∧
      (idleState t []).time - 0 ≤ 1000 * bitsOf (late.hw.part 0).wdcfg.toNat 31 0) ∧
    (lat.hw.latent.filter (fun l => l.granule == 5) = [⟨5, true⟩] ∧ lat.hw.latent.filter (fun l => l.granule == 6) = [⟨6, false⟩] ∧ lat.hw.found = []) ∧
    (∀ k ∈ [PendKind.load 0, .store [7]], (idleState thread0 [pp k]).hw.pend? 5 = some (pp k) ∧ (physKeys (pp k).locs).any keyIsPeer = true ∧
      (idleState thread0 [pp k]).owner? (pp k) = some thread0 ∧ thread0.park = .none ∧ thread0.trial = none) ∧
    ((scanState (.serving 0)).hw.cores.find? (fun c => c.use == .serving 0) = some ⟨0, 0, .serving 0, 0⟩ ∧
      (⟨0, 12, .spare, 0⟩ : PhysCore) ∈ (scanState (.serving 0)).hw.cores ∧ swapSettled (scanState (.serving 0)).hw 0 = true ∧
      ((scanState (.serving 0)).hw.cores.all fun x => match x.use with
        | .moving _ => false
        | _ => true) = true) ∧
    ((scanState (.moving 0)).hw.cores.find? (fun c => c.use == .moving 0) = some ⟨0, 0, .moving 0, 0⟩ ∧
      (scanState (.moving 0)).hw.cores.find? (fun x => x.die == 0 && x.use == .spare) = some ⟨0, 12, .spare, 0⟩ ∧
      (scanState (.moving 0)).hw.pends = []) ∧
    ((scanState (.serving 0)).hw.cores.find? (fun c => c.die == 0 && c.idx == 2) = some ⟨0, 2, .scanning 7, 0⟩) ∧
    (inv.hw.part 0 ∈ inv.hw.parts ∧ (inv.hw.part 0).idx = 0 ∧ (inv.hw.part 0).xlinv[0] = true ∧ inv.hw.pends = []) ∧
    ((ofLaunch (scanState (.serving 0)) gated).hw.launch? 0 1 = some gated ∧ gated.ranOn 0 2 0 = true ∧ gated.attempt < 3 ∧
      (ofLaunch (scanState (.serving 0)) gone).hw.launch? 0 1 = some gone ∧ 3 ≤ gone.attempt) := by
  decide +kernel

/-- The hand below the low watermark, running up to the high one, and stopped between them. -/
theorem test_witness_ServiceEvents_hand :
    let marks (low high : Word) (runs : Bool) : State := tierState.setMod { tierState.mod with tierLow := low, tierHigh := high, handRuns := runs }
    let next (s : State) : Bool := (minBy (fun x : Part × TlbEntry => (pteFrame x.2.pte.toNat + 2 ^ 40 - s.mod.hand - 1) % 2 ^ 40)
      (s.hw.parts.flatMap fun p => (tierPages s.hw p).map fun e => (p, e))).isSome
    let a := marks 1 2 false
    let b := marks 0 1 true
    let c := marks 0 1 false
    (freeMiB a.hw < a.mod.tierLow.toNat ∧ next a = true) ∧ (freeMiB b.hw < b.mod.tierHigh.toNat ∧ b.mod.handRuns = true ∧ next b = true) ∧
    (c.mod.tierLow.toNat ≤ freeMiB c.hw ∧ freeMiB c.hw < c.mod.tierHigh.toNat ∧ c.mod.handRuns = false) := by
  decide +kernel

/-- A page in use by an outstanding load, one that has been touched, one that may go to flash and one that may not. -/
theorem test_witness_HandVisits :
    let hw (bits : Nat) : Hw := { tierState.hw with
      mem := (List.range 16).foldl (fun m i => writeBytes m (0x103000 + 8 * i) (leBytes 8 (2 ^ 57 + 2 ^ 56 + 0x187 + bits + 0x50000000))) lightMem }
    let e : TlbEntry := ⟨0xA00000, 65536, BitVec.ofNat 64 (2 ^ 57 + 2 ^ 56 + 0x187 + 0x50000000), 0x103000⟩
    let p (area : DWord) : Part := { (hw 0).part 0 with tierfl := area <<< 32 }
    let ld : Pend := { pendOf (.load 4) 1 4 with locs := [.phys 0x50000000] }
    (∀ bits ∈ [0, 64, 32], swf (hw bits).mem = true ∧ ((hw bits).ctxs.all fun c => c.wc.isEmpty && c.outq.isEmpty) = true ∧
      frameInUse (hw bits) 0 e = false) ∧ e.pteAddr % 128 = 0 ∧
    frameInUse { hw 0 with pends := [ld] } 0 e = true ∧ pteAt (hw 64) (e.pteAddr + 8 * 0) / 64 % 2 = 1 ∧
    (∀ i, i < 16 → ¬ pteAt (hw 0) (e.pteAddr + 8 * i) / 64 % 2 = 1) ∧
    (bitsOf (p 1).tierfl.toNat 47 32 ≠ 0 ∧ flashRoom (hw 0) (p 1) = true) ∧ ¬ bitsOf (p 0).tierfl.toNat 47 32 ≠ 0 := by
  decide +kernel
/-! ### Witnesses: the host -/

/-- That module with a port on partition 0. -/
def portState (s : State) (reg : HostReg) (data : DWord) : State := { s with port := { Port.idle with reg := reg, data := data } }

/-- A thread parked at a fault, with FLTTGT naming it, or TID 9, or a launch that is not in flight. -/
def parkedState (tgt data : DWord) : State :=
  portState ((idleState { thread0 with park := .fault } []).mapHw fun h => h.setPart { h.part 0 with flttgt := tgt }) .flttgt data

/-- Every command with a launch that is in flight and one that is not; with a parked thread, with none of the TID, with the all bit; acts
that are in no table. -/
theorem test_witness_FaultCommandResults :
    (∀ d ∈ [0, 1, 2, 3, 4, 5, 6, 7, 9], hostUp (parkedState 0x100000000 (BitVec.ofNat 64 d)) = true) ∧
    (∀ act ∈ [1, 2, 3], (parkedState 0x100000000 (BitVec.ofNat 64 act)).port.data.toNat % 8 = act ∧
      fltLaunch (parkedState 0x500000000 (BitVec.ofNat 64 act)) = none ∧ fltLaunch (parkedState 0x100000000 (BitVec.ofNat 64 act)) = some placedLaunch ∧
      fltThreads (parkedState 0x100000009 (BitVec.ofNat 64 act)) placedLaunch = [] ∧ (parkedState 0x100000009 (BitVec.ofNat 64 act)).port.data[3] = false ∧
      fltThreads (parkedState 0x100000000 (BitVec.ofNat 64 act)) placedLaunch ≠ [] ∧ (parkedState 0x100000009 (BitVec.ofNat 64 (act + 8))).port.data[3] = true) ∧
    (∀ act ∈ [4, 5], fltLaunch (parkedState 0x500000000 (BitVec.ofNat 64 act)) = none ∧
      fltLaunch (parkedState 0x100000000 (BitVec.ofNat 64 act)) = some placedLaunch) ∧
    ((parkedState 0x100000000 1).thread? ⟨0, 0, 0⟩).any (fun t => t.park == .fault && !t.engineDue) = true := by
  decide +kernel

/-- What the walk reads on the way to the tiered page. -/
theorem tables_tier :
    pteLeaf (pteAt hw0 (0x102000 + 8 * 5)) = false ∧ nextTable (pteAt hw0 (0x102000 + 8 * 5)) = some 0x103000 ∧
    groupEntry hw0 0x103000 0 = (2 ^ 57 + 2 ^ 56 + 0x107, 0x103000) ∧ leafOk (2 ^ 57 + 2 ^ 56 + 0x107) 65536 = true ∧
    pteS64 (2 ^ 57 + 2 ^ 56 + 0x107) = true := by decide +kernel

theorem walk_tier (ea : Nat) (h1 : 0xA00000 ≤ ea) (h2 : ea < 0xA01000) :
    walk hw0 (hw0.part 0).xlroot ea = some ⟨0xA00000, 65536, BitVec.ofNat 64 (2 ^ 57 + 2 ^ 56 + 0x107), 0x103000⟩ := by
  have e0 : bitsOf ea 55 39 = 0 := by unfold bitsOf; omega
  have e1 : bitsOf ea 38 30 = 0 := by unfold bitsOf; omega
  have e2 : bitsOf ea 29 21 = 5 := by unfold bitsOf; omega
  have e3 : bitsOf ea 20 12 = 0 := by unfold bitsOf; omega
  have e4 : ea / 65536 * 65536 = 0xA00000 := by omega
  obtain ⟨b0, b1, a0, a1, a2, -⟩ := tables_page1
  obtain ⟨c0, c1, c2, c3, c4⟩ := tables_tier
  unfold walk leafEntry
  rw [e0, e1, e2, e3]
  simp only [show ¬ (2 ^ 56 ≤ ea) by omega, a0, a1, a2, b0, b1, c0, c1, c2, c3, c4, e4, decide_false, Bool.not_true, Bool.or_self,
    Bool.false_eq_true, if_false, if_true]

theorem tier_page : pteTier (BitVec.ofNat 64 (2 ^ 57 + 2 ^ 56 + 0x107)).toNat = true ∧
    pteRes (BitVec.ofNat 64 (2 ^ 57 + 2 ^ 56 + 0x107)).toNat = false := by decide +kernel

/-- A read of that page waits for it. -/
theorem read_tier {s : State} (hs : s.hw.parts = hw0.parts) (hm : s.hw.mem = hw0.mem) (hf : s.hw.fresh = hw0.fresh) :
    systemRead s 0 0xA00000 64 = .error (.wait .tierPage) := by
  have hp : s.hw.part 0 = hw0.part 0 := by unfold Hw.part; rw [hs]
  have ht : ∀ a ∈ eaBytes 0xA00000 64, ∃ e, Machine.translate s.hw (systemWho 0) a.toNat = some e ∧ pteTier e.pte.toNat = true ∧
      pteRes e.pte.toNat = false := by
    intro a ha
    rw [eaBytes_eq] at ha
    obtain ⟨i, hi, rfl⟩ := List.mem_map.1 ha
    have hi := List.mem_range.1 hi
    have hx := walk_tier (0xA00000 + BitVec.ofNat 64 i : DWord).toNat (by simp; omega) (by simp; omega)
    refine ⟨⟨0xA00000, 65536, BitVec.ofNat 64 (2 ^ 57 + 2 ^ 56 + 0x107), 0x103000⟩, ?_, tier_page.1, tier_page.2⟩
    have hw : walk s.hw (s.hw.part 0).xlroot (0xA00000 + BitVec.ofNat 64 i : DWord).toNat =
        some ⟨0xA00000, 65536, BitVec.ofNat 64 (2 ^ 57 + 2 ^ 56 + 0x107), 0x103000⟩ := by
      refine Eq.trans ?_ hx
      rw [hp]
      unfold walk groupEntry pteAt
      rw [hm, hf]
    have hl : tlbsOf s.hw (systemWho 0) = [] := by
      obtain ⟨-, -, -, -, -, -, -, -, -, h⟩ := tables_page1
      simp [tlbsOf, systemWho, hp, h]
    unfold Machine.translate
    dsimp only
    rw [show (systemWho 0).part = 0 from rfl, hl, hw]
    rfl
  have hn : ((eaBytes 0xA00000 64).map fun a => (a, Machine.translate s.hw (systemWho 0) a.toNat)).find? (fun x => x.2.isNone) = none := by
    rw [List.find?_eq_none]
    intro x hx
    obtain ⟨a, ha, rfl⟩ := List.mem_map.1 hx
    obtain ⟨e, he, -⟩ := ht a ha
    simp [he]
  have h0 : (0xA00000 : DWord) ∈ eaBytes 0xA00000 64 := by simp [eaBytes]
  obtain ⟨e, he, h1, h2⟩ := ht _ h0
  have hc : checkGen s (systemWho 0) .load 0xA00000 64 = .error (.wait .tierPage) := by
    unfold checkGen
    dsimp only
    rw [hn]
    simp only
    rw [if_pos]
    rw [List.any_eq_true]
    exact ⟨(0xA00000, e), List.mem_filterMap.2 ⟨(0xA00000, some e), List.mem_map.2 ⟨_, h0, by rw [he]⟩, rfl⟩, by simp [h1, h2]⟩
  simp only [systemRead, hc]

/-- A doorbell whose record's page is not resident. -/
theorem test_witness_RegisterWriteResults_waits :
    systemRead (portState (idleState thread0 []) .xlroot (3 + 0xA00000)) 0 0xA00000 64 = .error (.wait .tierPage) :=
  read_tier (by simp only [portState, idleState]) (by simp only [portState, idleState]) (by simp only [portState, idleState])

/-- Each register; STKAP without a launch; a doorbell with a record that can be read, and a full queue; an invalidation of each kind with
GO = 0 and with GO = 1; a pairing with a partition of the same cores and of others; a swap that begins and one that is ignored. -/
theorem test_witness_RegisterWriteResults :
    let at_ (reg : HostReg) (data : DWord) : State := portState (idleState thread0 []) reg data
    let none_ : State := portState ((idleState thread0 []).mapHw fun h => { h with launches := [] }) .xlroot 1
    let full : State := portState ((idleState thread0 []).mapHw fun h => h.setPart ((h.part 0).setQueue 3 ⟨List.replicate 256 [], false, none⟩)) .xlroot
      (3 + 0x200000)
    let inv : State := portState ((idleState thread0 []).mapHw fun h => h.setPart { h.part 0 with xlinv := 5, xlinvRun := 4 }) .xlroot 1
    let pair (data : DWord) : State := portState (pairState .none 0) .xlroot data
    (∀ r ∈ [HostReg.xlroot, .balcfg, .wdcfg, .stgcfg, .flttgt, .tierfl, .ecccnt 5, .other 0x100], hostUp (at_ r 7) = true ∧ (at_ r 7).port.reg = r ∧
      (at_ r 7).port.sel = 0) ∧
    ((∃ l ∈ (at_ .xlroot 1).hw.launches, l.part = 0) ∧ none_.hw.launches = [] ∧ hostUp none_ = true) ∧
    ((at_ .xlroot 5).mod.tj.toNat < 95 ∧ 105 ≤ ((at_ .xlroot 5).setMod { Module.booted with tj := 106 }).mod.tj.toNat) ∧
    (hostUp full = true ∧ 256 ≤ (full.hw.part 0).queueLoad 3 ∧ (∀ x ∈ (full.hw.part 0).bells, x.1 ≠ 3) ∧ ∃ x ∈ ((at_ .xlroot 3).hw.setPart
      { (at_ .xlroot 3).hw.part 0 with bells := [(3, 0xA00000)] } |>.part 0).bells, x.1 = 3) ∧
    (((at_ .xlroot (3 + 0x200000)).port.data.toNat / 2 ^ 56 = 0 ∧ (at_ .xlroot (3 + 0x200000)).port.data.toNat / 16 % 4 = 0 ∧
      ((at_ .xlroot (3 + 0x200000)).hw.part 0).queueLoad 3 < 256) ∧
      (at_ .xlroot (3 + 0x200000)).hw.outside = [] ∧ gives (systemRead (finishPosted (at_ .xlroot (3 + 0x200000)) 0 0) 0 (BitVec.ofNat 64 ((3 + 0x200000) / 64 % 2 ^ 50 * 64)) 64) (fun _ => true) = true ∧
      faults (systemRead (finishPosted (at_ .xlroot (3 + 0xC00000)) 0 0) 0 0xC00000 64) (fun _ => true) = true) ∧
    ((1 : DWord)[0] = true ∧ (5 : DWord)[0] = true ∧ (9 : DWord)[0] = true ∧ ((at_ .xlroot 1).hw.part 0).xlinv[0] = false) ∧
    ((1 : DWord).toNat / 4 % 4 = 0 ∧ (5 : DWord).toNat / 4 % 4 = 1 ∧ 2 ≤ (9 : DWord).toNat / 4 % 4) ∧
    (inv.port.data[0] = true ∧ (inv.hw.part 0).xlinv[0] = true) ∧
    ((pair 0x140300).port.data[0] = false ∧ (pair 0x140300).port.data[8] = true ∧ ((pair 0x140300).hw.part 1).cores = ((pair 0x140300).hw.part 0).cores ∧
      ((pair 0x140500).hw.part 2).cores ≠ ((pair 0x140500).hw.part 0).cores) ∧
    (let p := (pair 0x140301).hw.part 0
     let q : Part := { p with pswap := 0x140300 }
     let h := (pair 0x140301).hw.setPart q
     (pair 0x140301).port.data[0] = true ∧ p.pswap[0] = false ∧ p.pswap[8] = true ∧ p.active = true ∧
      ((0x140301 &&& 0xF00) ||| (BitVec.ofNat 64 (max 20 20) <<< 16) : DWord) = q.pswap ∧ paired h (h.part p.idx) = true ∧
      coresSettled h (h.part p.idx) = true ∧ coresSettled { h with cores := [⟨0, 0, .moving 0, 0⟩] } (h.part p.idx) = false) ∧
    (((at_ .xlroot 1).hw.part 0).pswap[8] = false ∧ (at_ .xlroot 1).port.data[0] = true) := by
  decide +kernel

/-- A store copy that verifies and none; a reset command and another word; temperatures below 95, from 95 up, from 105 up, from 110 up; the
registers that management reads. -/
theorem test_witness_ResetAndManagementResults :
    let at_ (data : DWord) (sel : Nat) : State := { State.reset with port := { Port.idle with data := data, sel := sel } }
    let none_ : State := State.reset.setMod { Module.booted with stores := [] }
    ((newestStore State.reset.mod.stores).isSome = true ∧ newestStore none_.mod.stores = none) ∧
    (hostUp (at_ 1 0) = true ∧ (at_ 1 0).mod.inReset = false ∧ (at_ 1 0).port.data = 1 ∧ (at_ 2 0).port.data ≠ 1) ∧
    (((at_ 94 0).port.data.extractLsb' 0 8).toNat < 95 ∧ 95 ≤ ((at_ 104 0).port.data.extractLsb' 0 8).toNat ∧
      ((at_ 104 0).port.data.extractLsb' 0 8).toNat < 105 ∧ State.reset.mod.tj.toNat < 95 ∧ 105 ≤ ((at_ 109 0).port.data.extractLsb' 0 8).toNat ∧
      ((at_ 109 0).port.data.extractLsb' 0 8).toNat < 110 ∧ 110 ≤ ((at_ 110 0).port.data.extractLsb' 0 8).toNat) ∧
    (State.reset.setMod { Module.booted with inReset := true }).mod.inReset = true ∧
    ((at_ 0 0).port.sel = 0 ∧ (at_ 0 1).port.sel = 1 ∧ (at_ 0 7).port.sel = 2 + (5 : Fin 6).val) := by
  decide +kernel

/-- A write, a read and an atomic at the last bytes of device memory, a write one byte beyond, and a peer's write to a staged page; the same
accesses divided; a write and a read under way with their last byte still to come. -/
theorem test_witness_OutsideAccessResults :
    let at_ (x : ExtAccess) : State := { idleState thread0 [] with port := { Port.idle with access := x } }
    let staged : State := ofLaunch (at_ (.write 0x40200000 [1])) { restLaunch with staged := [⟨0x200000, 4096, 0x40200000, 0x60000000, true⟩] }
    (∀ x ∈ [ExtAccess.write 549755813880 (zs 8), .read 549755813880 8, .atomicAdd 549755813880 8 1], (at_ x).mod.inReset = false ∧
      swf (at_ x).hw.mem = true ∧ (extSpan (at_ x).port.access).1 + (extSpan (at_ x).port.access).2 ≤ 549755813888 ∧
      (extSpan x).1 + (extSpan x).2 ≤ (at_ x).mod.bar2 ∧
      ∀ l ∈ (at_ x).hw.launches, ∀ g ∈ l.staged, blocksMeet (g.orig, g.size) (extSpan x) = false) ∧
    (extNew (.read 549755813880 8) (zs 8) = none ∧ (extNew (.atomicAdd 549755813880 8 1) (zs 8)).isSome = true ∧ extAnswers (.read 0 8) = true ∧
      extAnswers (.write 0 []) = false) ∧
    (∃ l ∈ staged.hw.launches, ∃ g ∈ l.staged, blocksMeet (g.orig, g.size) (extSpan staged.port.access) = true) ∧
    ((at_ (.read 0x10000000 1)).setMod { Module.booted with bar2 := 2 ^ 28 }).mod.bar2 < 0x10000000 + 1 ∧
    549755813888 < (extSpan (.write 549755813881 (zs 8))).1 + (extSpan (.write 549755813881 (zs 8))).2 ∧
    (∀ x ∈ [ExtAccess.write 549755813880 (zs 8), .read 549755813880 8], (at_ x).port.sel = 0 ∧
      ({ at_ x with port := { (at_ x).port with split := true } } : State).port.split = true ∧ (at_ x).port.split = false ∧
      let o : Outside := ⟨7, false, 0, 0, x, [(0, 0)], false⟩
      ((at_ x).mapHw fun h => { h with outside := [o] }).hw.outside.find? (fun y => y.id == 7) = some o ∧ 7 < (extSpan o.access).2 ∧
      o.got.all (fun y => y.1 != 7) = true ∧ o.peer = false) := by
  decide +kernel

/-- A write with an earlier one of its function and link under way, and with one of another link. -/
theorem test_witness_PostedInOrder :
    let w (id link : Nat) : Outside := ⟨id, false, 1, link, .write 0x1000 (zs 4), [(0, 0)], false⟩
    let s (xs : List Outside) : State := (idleState thread0 []).mapHw fun h => { h with outside := xs }
    ((s [w 6 0, w 7 0]).hw.outside.find? fun y => y.id == 7) = some (w 7 0) ∧ (w 7 0).peer = false ∧ (w 6 0).link = (w 7 0).link ∧
    (w 6 1).link ≠ (w 7 0).link ∧ ((s [w 6 1, w 7 0]).hw.outside.map fun y => y.id).Nodup ∧
    (∀ b : Byte, (1, b) ∉ (w 7 0).got) ∧ (s []).mod.inReset = false := by decide +kernel

/-- A thread parked while its write waits for staging, with its launch. -/
theorem test_witness_FaultCommandResults_staging :
    let t : Thread := { thread0 with park := .watchdog, wait := .retry .staging 3 }
    let s : State := ofLaunch (idleState t []) restLaunch
    s.thread? ⟨0, 0, 0⟩ = some t ∧ t.engineDue = false ∧ s.hw.launch? 0 1 = some restLaunch := by decide +kernel

/-- A state that meets the invariant and takes a step. -/
theorem test_witness_StepKeepsModuleInvariant : ModuleInv State.reset ∧ step { State.reset with agenda := [.pass 1] } =
    .next { State.reset with time := 1 } := by
  refine ⟨⟨rfl, ?_⟩, rfl⟩
  unfold Module.legal
  decide

/-- An instruction of a thread. -/
theorem test_witness_InstructionsKeepModuleAndTime : (Instr.nop (scalar 0 0 0)).form ≠ .step ∧ state0.canonical :=
  ⟨by decide, canonical_of (by decide +kernel)⟩
theorem test_decode_ialu_0 : reads [
  ([0x00014082#32], .iadd (lane 5 1 2)),
  ([0x00214082#32], .isub (lane 5 1 2)),
  ([0x00414082#32], .imin (lane 5 1 2)),
  ([0x00614082#32], .imax (lane 5 1 2)),
  ([0x00814080#32], .iabs (lane 5 1 0)),
  ([0x00A14082#32], .iand (lane 5 1 2)),
  ([0x00C14082#32], .ior (lane 5 1 2)),
  ([0x00E14082#32], .ixor (lane 5 1 2))] = true := by decide

theorem test_decode_ialu_1 : reads [
  ([0x01014082#32], .iandn (lane 5 1 2))] = true := by decide

theorem test_decode_ishift : reads [
  ([0x02014082#32], .ishl (lane 5 1 2)),
  ([0x02214082#32], .ishr (lane 5 1 2)),
  ([0x02414082#32], .isar (lane 5 1 2)),
  ([0x02614082#32], .irotl (lane 5 1 2))] = true := by decide

theorem test_decode_imul : reads [
  ([0x04014082#32], .imul (lane 5 1 2)),
  ([0x04214082#32], .imulh (lane 5 1 2)),
  ([0x44414082#32, 0xE0000060#32], .imad (laneX 5 1 2 3 0)),
  ([0x04614082#32], .idiv (lane 5 1 2)),
  ([0x04814082#32], .irem (lane 5 1 2))] = true := by decide

theorem test_decode_ibit : reads [
  ([0x06014080#32], .iclz (lane 5 1 0)),
  ([0x06214080#32], .ictz (lane 5 1 0)),
  ([0x06414080#32], .iffs (lane 5 1 0)),
  ([0x06614080#32], .ipopc (lane 5 1 0)),
  ([0x06814080#32], .ibrev (lane 5 1 0)),
  ([0x06A14082#32], .ibfx (lane 5 1 2)),
  ([0x46C14082#32, 0xE0000060#32], .ibfi (laneX 5 1 2 3 0))] = true := by decide

theorem test_decode_icmp : reads [
  ([0x0800C082#32], .icmpEq (lane 3 1 2)),
  ([0x0820C082#32], .icmpNe (lane 3 1 2)),
  ([0x0840C082#32], .icmpLt (lane 3 1 2)),
  ([0x0860C082#32], .icmpLe (lane 3 1 2)),
  ([0x0880C082#32], .icmpGt (lane 3 1 2)),
  ([0x08A0C082#32], .icmpGe (lane 3 1 2)),
  ([0x48C14082#32, 0xE0000060#32], .isel (laneX 5 1 2 3 0)),
  ([0x48E14080#32, 0xE0000001#32], .iord (laneX 5 1 0 0 1))] = true := by decide

theorem test_decode_farith : reads [
  ([0x0A014082#32], .fadd (lane 5 1 2)),
  ([0x0A214082#32], .fsub (lane 5 1 2)),
  ([0x0A414082#32], .fmul (lane 5 1 2)),
  ([0x4A614082#32, 0xE0000060#32], .ffma (laneX 5 1 2 3 0)),
  ([0x0A814082#32], .fmin (lane 5 1 2)),
  ([0x0AA14082#32], .fmax (lane 5 1 2)),
  ([0x0AC14082#32], .fdiv (lane 5 1 2))] = true := by decide

theorem test_decode_fspec : reads [
  ([0x4C014080#32, 0xE0000003#32], .fsqrt (laneX 5 1 0 0 3)),
  ([0x4C214080#32, 0xE0000003#32], .frcp (laneX 5 1 0 0 3)),
  ([0x4C414080#32, 0xE0000003#32], .frsq (laneX 5 1 0 0 3)),
  ([0x4C614080#32, 0xE0000003#32], .fexp2 (laneX 5 1 0 0 3)),
  ([0x4C814080#32, 0xE0000003#32], .flog2 (laneX 5 1 0 0 3))] = true := by decide

theorem test_decode_fcmp : reads [
  ([0x0E00C082#32], .fcmpEq (lane 3 1 2)),
  ([0x0E20C082#32], .fcmpNe (lane 3 1 2)),
  ([0x0E40C082#32], .fcmpLt (lane 3 1 2)),
  ([0x0E60C082#32], .fcmpLe (lane 3 1 2)),
  ([0x0E80C082#32], .fcmpGt (lane 3 1 2)),
  ([0x0EA0C082#32], .fcmpGe (lane 3 1 2)),
  ([0x0EC0C082#32], .fcmpUn (lane 3 1 2)),
  ([0x0EE14080#32], .fclass (lane 5 1 0))] = true := by decide

theorem test_decode_fcvt : reads [
  ([0x50014080#32, 0xE0000004#32], .fcvt 0 (laneX 5 1 0 0 4)),
  ([0x51E14080#32, 0xE0000001#32], .fcvt 15 (laneX 5 1 0 0 1))] = true := by decide

theorem test_decode_xarith : reads [
  ([0x12014082#32], .xadd (lane 5 1 2)),
  ([0x12214082#32], .xsub (lane 5 1 2)),
  ([0x12414082#32], .xmul (lane 5 1 2)),
  ([0x52614082#32, 0xE0000060#32], .xfma (laneX 5 1 2 3 0)),
  ([0x12814082#32], .xdiv (lane 5 1 2)),
  ([0x12A14080#32], .xsqrt (lane 5 1 0)),
  ([0x12C14082#32], .xmin (lane 5 1 2)),
  ([0x12E14082#32], .xmax (lane 5 1 2))] = true := by decide

theorem test_decode_xmisc : reads [
  ([0x1400C082#32], .xcmp (lane 3 1 2)),
  ([0x14214080#32], .xrndP (lane 5 1 0)),
  ([0x14414080#32], .xrndInt (lane 5 1 0)),
  ([0x14614080#32], .xcvt (lane 5 1 0)),
  ([0x14814082#32], .xscale (lane 5 1 2)),
  ([0x14A14080#32], .xsigGet (lane 5 1 0)),
  ([0x14C14082#32], .xsigSet (lane 5 1 2)),
  ([0x14E14080#32], .xtag (lane 5 1 0))] = true := by decide

theorem test_decode_ld : reads [
  ([0x56014302#32, 0xE0000005#32], .ld 0 (laneX 5 6 2 0 5)),
  ([0x56214302#32, 0xE0000005#32], .ld 1 (laneX 5 6 2 0 5)),
  ([0x56414302#32, 0xE0000005#32], .ld 2 (laneX 5 6 2 0 5)),
  ([0x56614302#32, 0xE0000005#32], .ld 3 (laneX 5 6 2 0 5))] = true := by decide

theorem test_decode_st : reads [
  ([0x58014302#32, 0xE0000004#32], .st 0 (laneX 5 6 2 0 4)),
  ([0x58214302#32, 0xE0000004#32], .st 1 (laneX 5 6 2 0 4)),
  ([0x58614302#32, 0xE0000004#32], .st 3 (laneX 5 6 2 0 4))] = true := by decide

theorem test_decode_xmem : reads [
  ([0x1A014302#32], .xld 0 (lane 5 6 2)),
  ([0x1A214302#32], .xld 1 (lane 5 6 2)),
  ([0x1A414302#32], .xld 2 (lane 5 6 2)),
  ([0x1A614302#32], .xld 3 (lane 5 6 2)),
  ([0x1A814302#32], .xst 0 (lane 5 6 2)),
  ([0x1AA14302#32], .xst 1 (lane 5 6 2)),
  ([0x1AE14302#32], .xst 3 (lane 5 6 2))] = true := by decide

theorem test_decode_amo_0 : reads [
  ([0x1C014302#32], .amoAddB32 (lane 5 6 2)),
  ([0x1C214302#32], .amoAddB64 (lane 5 6 2)),
  ([0x1C414302#32], .amoMinI32 (lane 5 6 2)),
  ([0x1C614302#32], .amoMinN32 (lane 5 6 2)),
  ([0x1C814302#32], .amoMaxI32 (lane 5 6 2)),
  ([0x1CA14302#32], .amoMaxN32 (lane 5 6 2)),
  ([0x1CC14302#32], .amoAndB32 (lane 5 6 2)),
  ([0x1CE14302#32], .amoOrB32 (lane 5 6 2))] = true := by decide

theorem test_decode_amo_1 : reads [
  ([0x1D014302#32], .amoXorB32 (lane 5 6 2)),
  ([0x1D214302#32], .amoSwapB32 (lane 5 6 2)),
  ([0x1D414302#32], .amoSwapB64 (lane 5 6 2)),
  ([0x5D614302#32, 0xE0000060#32], .amoCasB32 (laneX 5 6 2 3 0)),
  ([0x5D814302#32, 0xE0000060#32], .amoCasB64 (laneX 5 6 2 3 0)),
  ([0x5DA14302#32, 0xE0000060#32], .amoCasB128 (laneX 5 6 2 3 0)),
  ([0x1DC14302#32], .amoFaddF32 (lane 5 6 2))] = true := by decide

theorem test_decode_xlane_0 : reads [
  ([0x1E014082#32], .shflIdx (lane 5 1 2)),
  ([0x1E214082#32], .shflUp (lane 5 1 2)),
  ([0x1E414082#32], .shflDown (lane 5 1 2)),
  ([0x1E614082#32], .shflXor (lane 5 1 2)),
  ([0x1E80C100#32], .voteAny (lane 3 2 0)),
  ([0x1EA0C100#32], .voteAll (lane 3 2 0)),
  ([0x1EC14100#32], .voteBallot (lane 5 2 0)),
  ([0x1EE0C100#32], .voteUniform (lane 3 2 0))] = true := by decide

theorem test_decode_xlane_1 : reads [
  ([0x1F014080#32], .red (lane 5 1 0)),
  ([0x1F214080#32], .scanIncl (lane 5 1 0)),
  ([0x1F414080#32], .scanExcl (lane 5 1 0)),
  ([0x1F614082#32], .permbNib (lane 5 1 2)),
  ([0x1F814082#32], .permbByte (lane 5 1 2))] = true := by decide

theorem test_decode_move : reads [
  ([0x20014002#32], .vmov (lane 5 0 2)),
  ([0x20214300#32], .smovTov (lane 5 6 0)),
  ([0x20410080#32], .smovTos (lane 4 1 0)),
  ([0x20614000#32], .movpTov (lane 5 0 0)),
  ([0x20800080#32], .movpTop (lane 0 1 0))] = true := by decide

theorem test_decode_sigf : reads [
  ([0x22000080#32], .sigfB32 (lane 0 1 0)),
  ([0x22200080#32], .sigfB64 (lane 0 1 0))] = true := by decide

theorem test_decode_salu_0 : reads [
  ([0x801C4187#32], .add (scalar 4 6 7)),
  ([0x803C4187#32], .sub (scalar 4 6 7)),
  ([0x805C4187#32], .minI (scalar 4 6 7)),
  ([0x807C4187#32], .maxI (scalar 4 6 7)),
  ([0x809C4187#32], .minN (scalar 4 6 7)),
  ([0x80BC4187#32], .maxN (scalar 4 6 7)),
  ([0x80DC4187#32], .and (scalar 4 6 7)),
  ([0x80FC4187#32], .or (scalar 4 6 7))] = true := by decide

theorem test_decode_salu_1 : reads [
  ([0x811C4187#32], .xor (scalar 4 6 7)),
  ([0x813C4187#32], .andn (scalar 4 6 7))] = true := by decide

theorem test_decode_sshift : reads [
  ([0x821C4187#32], .shl (scalar 4 6 7)),
  ([0x823C4187#32], .shr (scalar 4 6 7)),
  ([0x825C4187#32], .sar (scalar 4 6 7)),
  ([0x827C4187#32], .rotl (scalar 4 6 7))] = true := by decide

theorem test_decode_smul : reads [
  ([0x841C4187#32], .mul (scalar 4 6 7)),
  ([0x843C4187#32], .mulhI (scalar 4 6 7)),
  ([0x845C4187#32], .mulhN (scalar 4 6 7)),
  ([0x847C4187#32], .divI (scalar 4 6 7)),
  ([0x849C4187#32], .divN (scalar 4 6 7)),
  ([0x84BC4187#32], .remI (scalar 4 6 7)),
  ([0x84DC4187#32], .remN (scalar 4 6 7))] = true := by decide

theorem test_decode_sbit : reads [
  ([0x861C4180#32], .clz (scalar 4 6 0)),
  ([0x863C4180#32], .ctz (scalar 4 6 0)),
  ([0x865C4180#32], .ffs (scalar 4 6 0)),
  ([0x867C4180#32], .popc (scalar 4 6 0)),
  ([0x869C4180#32], .brev (scalar 4 6 0)),
  ([0x86BC4187#32], .bfx (scalar 4 6 7)),
  ([0x86DC4187#32], .bfi (scalar 4 6 7))] = true := by decide

theorem test_decode_scmp : reads [
  ([0x881C3187#32], .cmpEq (scalar 3 6 7)),
  ([0x883C3187#32], .cmpNe (scalar 3 6 7)),
  ([0x885C3187#32], .cmpLtI (scalar 3 6 7)),
  ([0x887C3187#32], .cmpLeI (scalar 3 6 7)),
  ([0x889C3187#32], .cmpLtN (scalar 3 6 7)),
  ([0x88BC3187#32], .cmpLeN (scalar 3 6 7)),
  ([0xC8DC4187#32, 0x00000001#32], .sel (scalarX 4 6 7 1)),
  ([0xC8FC3081#32, 0x00000004#32], .plop (scalarX 3 2 1 4))] = true := by decide

theorem test_decode_smovi : reads [
  ([0xCA1C4001#32, 0x06800020#32], .movi (scalarImm 4 0 83886145 0)),
  ([0xCA3C4001#32, 0x06800020#32], .movhi (scalarImm 4 0 83886145 0))] = true := by decide

theorem test_decode_jump : reads [
  ([0x8E1C0187#32], .jmp (scalar 0 6 7)),
  ([0xCE3C0001#32, 0x04000020#32], .call (scalarImm 0 0 65 0)),
  ([0x8E5C0180#32], .calli (scalar 0 6 0)),
  ([0x8E7C0000#32], .ret (scalar 0 0 0)),
  ([0x8E9C4180#32], .csw (scalar 4 6 0))] = true := by decide

theorem test_decode_thread : reads [
  ([0x901C0000#32], .nop (scalar 0 0 0)),
  ([0x903C0000#32], .yield (scalar 0 0 0)),
  ([0x905C5187#32], .spawn (scalar 5 6 7)),
  ([0x907C5180#32], .await (scalar 5 6 0)),
  ([0x909C0180#32], .exit (scalar 0 6 0))] = true := by decide

theorem test_decode_crew : reads [
  ([0x921C3180#32], .cjoin (scalar 3 6 0)),
  ([0x923C0000#32], .cpart (scalar 0 0 0)),
  ([0x925C0000#32], .ccompact (scalar 0 0 0)),
  ([0x927C0000#32], .cbar (scalar 0 0 0)),
  ([0x929C0000#32], .carrive (scalar 0 0 0)),
  ([0x92BC0000#32], .cwait (scalar 0 0 0))] = true := by decide

theorem test_decode_order : reads [
  ([0xD41C0000#32, 0x00000004#32], .fence (scalarX 0 0 0 4)),
  ([0x943C0003#32], .pfence (scalar 0 0 3)),
  ([0x945C0007#32], .waitcCopy (scalar 0 0 7)),
  ([0x947C0007#32], .waitcMatrix (scalar 0 0 7)),
  ([0x949C0007#32], .waitcSelect (scalar 0 0 7)),
  ([0x94BC0007#32], .waitcTrial (scalar 0 0 7))] = true := by decide

theorem test_decode_csr : reads [
  ([0xD61C4010#32, 0x04000000#32], .csrr (scalarImm 4 0 16 0)),
  ([0xD63C41BF#32, 0x040007E0#32], .csrw (scalarImm 4 6 4095 0)),
  ([0xD65C41BF#32, 0x040007E0#32], .csrs (scalarImm 4 6 4095 0)),
  ([0xD67C41BF#32, 0x040007E0#32], .csrc (scalarImm 4 6 4095 0))] = true := by decide

theorem test_decode_traps : reads [
  ([0xD81C003F#32, 0x04000020#32], .trap (scalarImm 0 0 127 0)),
  ([0x983C0000#32], .tretRetry (scalar 0 0 0)),
  ([0x985C0000#32], .tretSkip (scalar 0 0 0)),
  ([0x987C0000#32], .tclr (scalar 0 0 0))] = true := by decide

theorem test_decode_matrix : reads [
  ([0x9A1C4180#32], .obres (scalar 4 6 0)),
  ([0x9A3C0180#32], .obrel (scalar 0 6 0)),
  ([0x9A5C0180#32], .mxgo (scalar 0 6 0)),
  ([0x9A7C0187#32], .mxclr (scalar 0 6 7)),
  ([0x9A9C5187#32], .accrd (scalar 5 6 7)),
  ([0x9ABC0047#32], .accwr (scalar 0 1 7))] = true := by decide

theorem test_decode_copy : reads [
  ([0x9C1C0180#32], .cpyCopy (scalar 0 6 0)),
  ([0x9C3C0180#32], .cpyFill (scalar 0 6 0)),
  ([0x9C5C0180#32], .cpyLook (scalar 0 6 0))] = true := by decide

theorem test_decode_select : reads [
  ([0x9E1C0180#32], .selRun (scalar 0 6 0))] = true := by decide

theorem test_decode_search : reads [
  ([0xA01C4180#32], .trial (scalar 4 6 0)),
  ([0xA03C0187#32], .cbwr (scalar 0 6 7))] = true := by decide

theorem test_decode_launch : reads [
  ([0xA21C0187#32], .lqput (scalar 0 6 7)),
  ([0xA23C0180#32], .permit (scalar 0 6 0)),
  ([0xA25C4000#32], .rand (scalar 4 0 0))] = true := by decide

theorem test_decode_smem_0 : reads [
  ([0xE41C4187#32, 0x00000001#32], .sld 0 (scalarX 4 6 7 1)),
  ([0xE43C4187#32, 0x00000001#32], .sld 1 (scalarX 4 6 7 1)),
  ([0xE45C4187#32, 0x00000001#32], .sld 2 (scalarX 4 6 7 1)),
  ([0xE47C4187#32, 0x00000001#32], .sld 3 (scalarX 4 6 7 1)),
  ([0xE49C4187#32, 0x00000001#32], .sld 4 (scalarX 4 6 7 1)),
  ([0xE4BC4187#32, 0x00000001#32], .sld 5 (scalarX 4 6 7 1)),
  ([0xE4DC4187#32, 0x00000001#32], .sld 6 (scalarX 4 6 7 1)),
  ([0xE51C4187#32, 0x00000003#32], .sst 0 (scalarX 4 6 7 3))] = true := by decide

theorem test_decode_smem_1 : reads [
  ([0xE53C4187#32, 0x00000003#32], .sst 1 (scalarX 4 6 7 3)),
  ([0xE55C4187#32, 0x00000003#32], .sst 2 (scalarX 4 6 7 3)),
  ([0xE57C4187#32, 0x00000003#32], .sst 3 (scalarX 4 6 7 3))] = true := by decide

/-- The B form of R89. -/
theorem test_decode_br : reads [
  ([0x8CA80001#32], .br ⟨1, 2, true, 1⟩), ([0x8C77FFFF#32], .br ⟨0, 7, false, 0x7FFFF⟩)] = true := by decide

/-! ### Ill-formed instructions: one for each check of the encoding, which the check refuses -/

/-- The encoding does not accept the instruction, and the decoder refuses its words, where it has words of its own. -/
def refuses (e : DecodeError) (xs : List Instr) : Bool := xs.all fun i => i.wfError == some e

/-- An operand that only an extension word could hold, without one (R87, R99). -/
theorem test_illformed_no_extension : refuses .reserved [
  .iadd { lane 5 1 2 with mod := 1 }, .ffma { lane 4 1 2 with c := 3 }, .fadd { lane 5 1 2 with nb := .elem .w8 0 },
  .iadd { lane 5 1 2 with b := .imm 1 }, .add { scalar 4 6 7 with b := .imm 1 }, .sel { scalar 4 6 7 with mod := 1 }] = true := by decide

/-- A MOD that R105 or R107 does not list. -/
theorem test_illformed_mod : refuses .reserved [
  .iadd (laneX 5 1 2 0 3), .fadd (laneX 5 1 2 0 4), .ld 0 (laneX 5 6 2 0 7), .st 0 (laneX 5 6 2 0 1), .xadd (laneX 5 1 2 0 1),
  .fcvt 0 (laneX 5 1 0 0 16), .plop (scalarX 3 2 1 7), .fence (scalarX 0 0 0 5), .add (scalarX 4 6 7 1), .sst 0 (scalarX 4 6 7 2),
  .st 2 (laneX 5 6 2 0 4), .xst 2 (laneX 5 6 2 0 0), .sld 7 (scalarX 4 6 7 1)] = true := by decide

/-- RO = 7, and a nonzero RO where none is admitted (R97). -/
theorem test_illformed_rounding : refuses .reserved [
  .fadd { laneX 5 1 2 0 0 with ro := 7 }, .ld 0 { laneX 5 6 2 0 4 with ro := 1 }] = true := by decide

/-- An immediate in a field without one, in the third-operand shape, or beside a narrow operand (R92, R93, R99). -/
theorem test_illformed_immediate : refuses .reserved [
  .fadd { laneX 5 1 2 0 0 with b := .imm 1 }, .imad { laneX 5 1 2 3 0 with b := .imm 1 },
  .iadd { laneX 5 1 2 0 0 with b := .imm 1, na := .elem .w8 0 }, .clz (scalarImm 4 6 1 0), .movi (scalarX 4 0 0 0)] = true := by decide

/-- A field that breaks its letter (R103). -/
theorem test_illformed_letter : refuses .reserved [
  .iabs (lane 5 1 2), .ld 0 (laneX 5 32 2 0 4), .icmpEq (lane 8 1 2), .cmpEq (scalar 8 6 7), .calli (scalar 1 6 0), .clz (scalar 4 6 1),
  .isel (laneX 5 1 2 8 0), .iadd (laneX 5 1 2 1 0)] = true := by decide

/-- A selector in the third-operand shape, on a packed width, on a field that names no cell, beyond its positions, 4 bits wide with FALT,
or of another width than IORD's format (R94 to R98, R153). -/
theorem test_illformed_narrow : refuses .reserved [
  .ffma { laneX 5 1 2 3 0 with na := .elem .w8 0 }, .iadd { laneX 5 1 2 0 4 with na := .elem .w8 0 },
  .smovTov { laneX 5 6 0 0 0 with na := .elem .w8 0 }, .fadd { laneX 5 1 2 0 0 with na := .elem .w8 4 },
  .fadd { laneX 5 1 2 0 0 with nb := .elem .w6 5 }, .fadd { laneX 5 1 2 0 0 with nd := .elem .w16 2 },
  .fadd { laneX 5 1 2 0 0 with na := .elem .w4 0, falt := true }, .iord { laneX 5 1 0 0 4 with na := .elem .w16 0 }] = true := by decide

/-- FALT without a narrow operand, or on an integer instruction (R95). -/
theorem test_illformed_falt : refuses .reserved [
  .fadd { laneX 5 1 2 0 0 with falt := true }, .iadd { laneX 5 1 2 0 0 with falt := true, na := .elem .w8 0 }] = true := by decide

/-- A literal beyond its limits: a CSR address, a TRAP code, a path mask of one path (R107). -/
theorem test_illformed_literal : refuses .reserved [
  .csrr (scalarImm 4 0 4096 0), .trap (scalarImm 0 0 128 0), .pfence (scalar 0 0 4), .pfence (scalar 0 0 0x13)] = true := by decide

/-- The constant code in field d (check 5 of R101). -/
theorem test_illformed_register : refuses .register [.add (scalar 32 6 7), .sel (scalarX 63 6 7 1), .smovTos (lane 4 1 0)] = false ∧
    refuses .register [.add (scalar 32 6 7), .sel (scalarX 63 6 7 1), .sld 4 (scalarX 40 6 7 0)] = true := by decide

/-- What the decoder answers where it refuses, and the steps that stand for codes without an instruction. -/
def refusal (m : DecodeMode) (w0 w1 : Word) : Option DecodeError × Option Instr :=
  match decode m w0 w1 with
  | .error e => (some e, none)
  | .ok i => (none, if i.form = .step then some i else none)

/-- The decoder refuses what the checks refuse; codes without an instruction, and removed majors, name themselves. -/
theorem test_decode_refusals :
    refusal .z3 0x40014082 0xE0000003 = (some .reserved, none) ∧ refusal .z3 0x80020187 0 = (some .register, none) ∧
    refusal .z3 0xCC000000 0 = (some .reserved, none) ∧ refusal .z3 0x01214082 0 = (none, some (.unassignedMajorOrMinor .minor)) ∧
    refusal .z2 0x12014082 0 = (none, some (.unassignedMajorOrMinor .removed)) ∧
    refusal .z1 0x80004807 0 = (some .register, none) := by decide

/-- Bytes that end inside an instruction hold none. -/
theorem test_decode_short : [[0, 0, 0], [0, 0, 0, 0x40, 0, 0]].all (fun bs => match decodeBytes .z3 bs with
    | .error .short => true
    | _ => false) = true := by decide
end Sys2Proof.Tests
end

/-!
The CSR instructions (R40 to R49, R54, R165 to R167): their outcomes, the map of the registers, and the field rules of writes.
-/
namespace Sys2Proof.Proofs
open Sys2Proof.Machine

/-! ### CSR instructions (R40, R41, R165 to R167) -/

/-- The model's test for a register that the decode mode lacks, as the statements have it (R40). -/
theorem legacyRefused_eq_false_iff {m : DecodeMode} {a : Nat} :
    (m != .z3 && csrLegacy a) = false ↔ m = .z3 ∨ csrLegacy a = false := by
  cases m <;> simp

/-- The model's test for a write without a right to it, as the statements have it (R41, R54). -/
theorem writeRefused_eq_false_iff {t : Thread} {a : Nat} : (!csrWritable a || t.trial.isSome && !csrTrial a) = false ↔
    csrWritable a = true ∧ (t.trial = none ∨ csrTrial a = true) := by
  cases t.trial <;> simp

section
variable {i : Instr} {s : State} {a : Nat}

/-- A read of a CSR that the decode mode knows and that does not wait gives its value. -/
theorem csrOld_eq_ok {old : DWord} (hknown : s.th.mode = .z3 ∨ csrLegacy a = false) (hwaits : ¬ (a = 0x011 ∧ xldInFlight s = true))
    (hvalue : csrValue s a = some old) : csrOld i s a = .ok old := by
  have h1 := legacyRefused_eq_false_iff.2 hknown
  have h2 : (a == 0x011 && xldInFlight s) = false := by simpa using hwaits
  simp [csrOld, h1, h2, hvalue]

theorem csrOld_eq_wait (hknown : s.th.mode = .z3 ∨ csrLegacy a = false) (hwaits : a = 0x011 ∧ xldInFlight s = true) :
    csrOld i s a = .error (.wait .emptyCell) := by
  have h1 := legacyRefused_eq_false_iff.2 hknown
  have h2 : (a == 0x011 && xldInFlight s) = true := by simpa using hwaits
  simp [csrOld, h1, h2]

/-- An address that the decode mode lacks is refused before anything waits, one that has no register after it. -/
theorem csrOld_eq_ill (hnone : ¬ (s.th.mode = .z3 ∨ csrLegacy a = false) ∨ csrValue s a = none)
    (hwaits : ¬ ((s.th.mode = .z3 ∨ csrLegacy a = false) ∧ a = 0x011 ∧ xldInFlight s = true)) : csrOld i s a = .error (ill i 5) := by
  by_cases hknown : s.th.mode = .z3 ∨ csrLegacy a = false
  · have h1 := legacyRefused_eq_false_iff.2 hknown
    have h2 : (a == 0x011 && xldInFlight s) = false := by simpa using fun h => hwaits ⟨hknown, h⟩
    simp [csrOld, h1, h2, hnone.resolve_left (not_not_intro hknown)]
  · have h1 := Bool.eq_true_of_not_eq_false (mt legacyRefused_eq_false_iff.1 hknown)
    simp [csrOld, h1]

end

theorem exec_csrr (o : ScalarOps) (s : State) : exec (.csrr o) s = execCsrr o s := rfl
theorem exec_csrw (o : ScalarOps) (s : State) : exec (.csrw o) s = csrChange (.csrw o) o (fun _ a => a) s := rfl
theorem exec_csrs (o : ScalarOps) (s : State) : exec (.csrs o) s = csrChange (.csrs o) o (fun old a => old ||| a) s := rfl
theorem exec_csrc (o : ScalarOps) (s : State) : exec (.csrc o) s = csrChange (.csrc o) o (fun old a => old &&& ~~~a) s := rfl

section
variable {i : Instr} {s : State} {t : Thread} {o : ScalarOps} {f : DWord → DWord → DWord} {old : DWord}

theorem csrChange_of_stop {e : Stop} (h : Entered i s t) (hold : csrOld i (s.setTh t) (csrAddr o) = .error e) :
    csrChange i o f s = .next (stopped (s.setTh t) e) := run_error h (by simp [hold, bind, Except.bind])

theorem csrChange_of_store {u : Thread} (h : Entered i s t) (hold : csrOld i (s.setTh t) (csrAddr o) = .ok old)
    (hmay : csrWritable (csrAddr o) = true ∧ (t.trial = none ∨ csrTrial (csrAddr o) = true))
    (hstore : csrStore t (csrAddr o) (f old (t.code o.a)) = .ok u) :
    csrChange i o f s = .next (s.setTh ((u.setSreg o.d.toNat old).past i.length)) := by
  have hright := writeRefused_eq_false_iff.2 hmay
  exact run_ok h (s' := s.setTh (u.setSreg o.d.toNat old)) (by simp [hold, bind, Except.bind, hright, hstore]; rfl)

theorem csrChange_of_badValue {e : BitVec 8} (h : Entered i s t) (hold : csrOld i (s.setTh t) (csrAddr o) = .ok old)
    (hmay : csrWritable (csrAddr o) = true ∧ (t.trial = none ∨ csrTrial (csrAddr o) = true))
    (hstore : csrStore t (csrAddr o) (f old (t.code o.a)) = .error e) :
    csrChange i o f s = .next (stopped (s.setTh t) (ill i e)) := by
  have hright := writeRefused_eq_false_iff.2 hmay
  exact run_error h (by simp [hold, bind, Except.bind, hright, hstore])

theorem csrChange_of_noRight (h : Entered i s t) (hold : csrOld i (s.setTh t) (csrAddr o) = .ok old)
    (hmay : ¬ (csrWritable (csrAddr o) = true ∧ (t.trial = none ∨ csrTrial (csrAddr o) = true))) :
    csrChange i o f s = .next (stopped (s.setTh t) (ill i 5)) := by
  have hright := Bool.eq_true_of_not_eq_false (mt writeRefused_eq_false_iff.1 hmay)
  exact run_error h (by simp [hold, bind, Except.bind, hright])

theorem csrr_of_value (h : Entered (.csrr o) s t) (hold : csrOld (.csrr o) (s.setTh t) (csrAddr o) = .ok old) :
    Completes (.csrr o) s (t.setSreg o.d.toNat old) := by
  rw [Completes, exec_csrr, execCsrr]
  exact run_ok h (s' := s.setTh (t.setSreg o.d.toNat old)) (by simp [hold, bind, Except.bind]; rfl)

/-- A CSR instruction whose register cannot be read stops as the read does. -/
theorem csr_of_stop {e : Stop} (hi : i ∈ [Instr.csrr o, .csrw o, .csrs o, .csrc o]) (h : Entered i s t)
    (hold : csrOld i (s.setTh t) (csrAddr o) = .error e) : StopsWith i s t e := by
  simp only [List.mem_cons, List.not_mem_nil, or_false] at hi
  rcases hi with rfl | rfl | rfl | rfl
  · rw [StopsWith, exec_csrr, execCsrr]
    exact run_error h (by simp [hold, bind, Except.bind])
  · rw [StopsWith, exec_csrw]
    exact csrChange_of_stop h hold
  · rw [StopsWith, exec_csrs]
    exact csrChange_of_stop h hold
  · rw [StopsWith, exec_csrc]
    exact csrChange_of_stop h hold

/-- What a CSR instruction that writes does, once its old value is read: `v` is the value that it stores. -/
def WritesCsr (i : Instr) (o : ScalarOps) (s : State) (t : Thread) (old v : DWord) : Prop :=
  let a := csrAddr o
  let may := csrWritable a = true ∧ (t.trial = none ∨ csrTrial a = true)
  (∀ u, may → csrStore t a v = .ok u → Completes i s (u.setSreg o.d.toNat old)) ∧
  (∀ e, may → csrStore t a v = .error e → StopsWith i s t (ill i e)) ∧ (¬ may → StopsWith i s t (ill i 5))

theorem writesCsr_of_csrChange (hexec : exec i s = csrChange i o f s) (h : Entered i s t)
    (hold : csrOld i (s.setTh t) (csrAddr o) = .ok old) : WritesCsr i o s t old (f old (t.code o.a)) := by
  simp only [WritesCsr, Completes, StopsWith, hexec]
  exact ⟨fun _ => csrChange_of_store h hold, fun _ => csrChange_of_badValue h hold, csrChange_of_noRight h hold⟩

theorem writesCsr_of_mem (hold : ∀ i, csrOld i (s.setTh t) (csrAddr o) = .ok old) {y : Instr × DWord}
    (hy : y ∈ [(Instr.csrw o, t.code o.a), (.csrs o, old ||| t.code o.a), (.csrc o, old &&& ~~~(t.code o.a))])
    (h : Entered y.1 s t) : WritesCsr y.1 o s t old y.2 := by
  simp only [List.mem_cons, List.not_mem_nil, or_false] at hy
  rcases hy with rfl | rfl | rfl
  · exact writesCsr_of_csrChange (exec_csrw o s) h (hold _)
  · exact writesCsr_of_csrChange (exec_csrs o s) h (hold _)
  · exact writesCsr_of_csrChange (exec_csrc o s) h (hold _)

end

/-! ### The map of the CSRs (R41, R45, R53) -/

theorem csrValue_crewn (s : State) : csrValue s 0x005 = some (BitVec.ofNat 64 (if s.th.crew = 0 then 0 else match s.myCrew with
    | some c => c.crewn
    | none => 0)) := by
  simp only [csrValue, State.crewn, State.myCrew]
  cases (s.hw.ctx s.th.key.part s.th.key.core).crew? s.th.crew <;> by_cases h : s.th.crew = 0 <;> simp [h]

theorem csrValue_trialst_plain {s : State} (h : s.th.trial = none) : csrValue s 0x033 = some 0 := by
  simp [csrValue, Thread.trialst, h]

theorem csrValue_trialst_trial {s : State} {r : TrialRun} (h : s.th.trial = some r) :
    csrValue s 0x033 = some (BitVec.ofNat 64 (1 + 2 ^ 8 * r.ex + 2 ^ 16 * r.req.nex)) := by
  simp [csrValue, Thread.trialst, h]

/-- Four counts below 256 stand in CTRS one byte each. -/
theorem ctrs_fields (t : Thread) (h : ∀ c, t.count c < 256) :
    t.ctrs.toNat / 2 ^ 32 = 0 ∧ t.ctrs.toNat % 256 = t.count .copy ∧ t.ctrs.toNat / 2 ^ 8 % 256 = t.count .matrix ∧
      t.ctrs.toNat / 2 ^ 16 % 256 = t.count .select ∧ t.ctrs.toNat / 2 ^ 24 % 256 = t.count .trial := by
  have h1 := h .copy
  have h2 := h .matrix
  have h3 := h .select
  have h4 := h .trial
  simp only [Thread.ctrs, BitVec.toNat_ofNat]
  omega

/-- The CSRs whose value is a number or a word of the executing thread, or TIME, with that value (R41). -/
def csrMap (s : State) : List (Nat × Option DWord) :=
  let t := s.th
  let n (x : Nat) : Option DWord := some (BitVec.ofNat 64 x)
  [(0x000, n t.tid.toNat), (0x001, n t.key.core), (0x002, n t.launch), (0x003, n t.crew), (0x004, n t.rank), (0x006, n t.tile.toNat),
   (0x007, n t.win), (0x008, n (DecodeMode.number t.mode)), (0x010, n t.prec.toNat), (0x011, n t.xflags.toNat),
   (0x012, n t.fcsr.toNat), (0x020, some t.ltv),
   (0x021, n t.ltc.toNat), (0x022, some t.ltip), (0x023, some t.ltval), (0x024, n (if t.tstate then 1 else 0)), (0x030, some t.fuel),
   (0x031, some t.sig), (0x032, n t.sign.toNat), (0x050, n s.time), (0x051, some t.seed)]

theorem csrValue_of_mem_csrMap (s : State) : ∀ x ∈ csrMap s, csrValue s x.1 = x.2 := by
  have hstate : BitVec.ofNat 64 (if s.th.tstate then 1 else 0) = if s.th.tstate then 1 else 0 := by cases s.th.tstate <;> rfl
  simp [csrMap, csrValue, hstate]

theorem csrValue_outside {s : State} {a : Nat} (h : a ∉ (csrMap s).map Prod.fst ++ [0x005, 0x033, 0x040]) : csrValue s a = none := by
  simp only [csrMap, List.map_cons, List.map_nil, List.mem_append, List.mem_cons, List.not_mem_nil, or_false, not_or] at h
  unfold csrValue
  split
  case h_25 => rfl
  all_goals omega

/-! ### The field rules of writes (R7, R25, R42 to R46, R49) -/

/-- The value that PREC.p takes: its nearest neighbour within 2 .. 241 (R42). -/
def clampPrec (p : Nat) : Nat := if p < 2 then 2 else if 241 < p then 241 else p

/-- Two numbers agree on the bits of a field where they agree on each of them. -/
theorem field_eq_of_bits {w u : Nat} {x : BitVec w} {y : BitVec u} (lo n : Nat) (h : ∀ i < n, x.getLsbD (lo + i) = y.getLsbD (lo + i)) :
    x.toNat / 2 ^ lo % 2 ^ n = y.toNat / 2 ^ lo % 2 ^ n := by
  refine Nat.eq_of_testBit_eq fun i => ?_
  by_cases hi : i < n
  · simpa [Nat.testBit_mod_two_pow, Nat.testBit_div_two_pow, hi, BitVec.testBit_toNat, Nat.add_comm] using h i hi
  · simp [Nat.testBit_mod_two_pow, hi]

/-- The reserved bits of PREC lie above p. -/
theorem precMask_p (v : DWord) : ((v.extractLsb' 0 32 &&& 0x01F7FFFF#32).extractLsb' 0 8).toNat = v.toNat % 256 := by
  rw [BitVec.extractLsb'_and]
  simpa [BitVec.extractLsb'_toNat] using Nat.and_two_pow_sub_one_eq_mod (v.toNat % 256) 8

theorem precOf_clamped (v : DWord) : (precOf v).2 = decide (v.toNat % 256 < 2 ∨ 241 < v.toNat % 256) := by
  simp only [precOf, precMask_p]
  split
  · simp [*]
  · split <;> simp [*]

theorem precOf_low (v : DWord) : ((precOf v).1.extractLsb' 0 8).toNat = clampPrec (v.toNat % 256) := by
  simp only [precOf, precMask_p, clampPrec]
  split
  · simp [BitVec.extractLsb'_or, BitVec.extractLsb'_and]
  · split
    · simp [BitVec.extractLsb'_or, BitVec.extractLsb'_and]
    · exact precMask_p v

/-- Above p, PREC holds the bits written, its reserved ones 0. -/
theorem precOf_high (v : DWord) {i : Nat} (h : 8 ≤ i) (hi : i < 32) :
    (precOf v).1.getLsbD i = (v.getLsbD i && (0x01F7FFFF#32).getLsbD i) := by
  have hmask : ∀ i < 32, 8 ≤ i → (0xFFFFFF00#32).getLsbD i = true ∧ (2#32).getLsbD i = false ∧ (241#32).getLsbD i = false := by decide
  obtain ⟨hkeep, h2, h241⟩ := hmask i hi h
  simp only [precOf]
  split
  · simp only [BitVec.getLsbD_or, BitVec.getLsbD_and, BitVec.getLsbD_extractLsb', hkeep, h2]
    simp [hi]
  · split
    · simp only [BitVec.getLsbD_or, BitVec.getLsbD_and, BitVec.getLsbD_extractLsb', hkeep, h241]
      simp [hi]
    · simp only [BitVec.getLsbD_and, BitVec.getLsbD_extractLsb']
      simp [hi]

/-- A field of PREC above p that holds no reserved bit is stored as written. -/
theorem precOf_field (v : DWord) (lo n : Nat) (h : 8 ≤ lo) (hn : lo + n ≤ 32)
    (hmask : ∀ i < n, (0x01F7FFFF#32).getLsbD (lo + i) = true) :
    (precOf v).1.toNat / 2 ^ lo % 2 ^ n = v.toNat / 2 ^ lo % 2 ^ n :=
  field_eq_of_bits lo n fun i hi => by rw [precOf_high v (by omega) (by omega), hmask i hi, Bool.and_true]

/-- The reserved bits of PREC read 0. -/
theorem precOf_reserved (v : DWord) : (precOf v).1.toNat / 2 ^ 25 = 0 ∧ (precOf v).1[19] = false := by
  constructor
  · have hzero : (precOf v).1.toNat / 2 ^ 25 % 2 ^ 7 = (0#32).toNat / 2 ^ 25 % 2 ^ 7 := field_eq_of_bits 25 7 fun i hi => by
      have hmask : ∀ i < 7, (0x01F7FFFF#32).getLsbD (25 + i) = false := by decide
      rw [precOf_high v (by omega) (by omega), hmask i hi, Bool.and_false, BitVec.getLsbD_zero]
    have := (precOf v).1.isLt
    simp only [BitVec.toNat_ofNat] at hzero
    omega
  · have hbit := precOf_high v (i := 19) (by decide) (by decide)
    rw [show (0x01F7FFFF#32).getLsbD 19 = false by decide, Bool.and_false] at hbit
    exact hbit

section
variable (t : Thread) (v : DWord)

/-- The rounding modes that a write names to PREC and to FCSR. -/
theorem precMode_toNat : (v.extractLsb' 16 3).toNat = v.toNat / 2 ^ 16 % 8 := by
  simp [BitVec.extractLsb'_toNat, Nat.shiftRight_eq_div_pow]

theorem fcsrMode_toNat : (v.extractLsb' 0 3).toNat = v.toNat % 8 := by simp [BitVec.extractLsb'_toNat]

theorem csrStore_tile (h : 1 ≤ v.toNat ∧ v.toNat ≤ if t.mode = .z3 then 5 else 4) :
    csrStore t 0x006 v = .ok { t with tile := v.extractLsb' 0 3 } := by
  simp only [csrStore, beq_iff_eq]
  rw [if_pos h]

theorem csrStore_tile_refused (h : v.toNat = 0 ∨ (if t.mode = .z3 then 5 else 4) < v.toNat) : csrStore t 0x006 v = .error 6 := by
  simp only [csrStore, beq_iff_eq]
  rw [if_neg (by omega)]

theorem csrStore_prec (h : v.toNat / 2 ^ 16 % 8 < 6) :
    csrStore t 0x010 v = .ok { t with prec := (precOf v).1, xflags := if (precOf v).2 then t.xflags ||| xPc else t.xflags } := by
  simp only [csrStore, precMode_toNat]
  rw [if_neg (by omega)]

theorem csrStore_prec_refused (h : 6 ≤ v.toNat / 2 ^ 16 % 8) : csrStore t 0x010 v = .error 5 := by
  simp only [csrStore, precMode_toNat]
  rw [if_pos h]

theorem csrStore_fcsr (h : v.toNat % 8 < 6) :
    csrStore t 0x012 v = .ok { t with fcsr := v.extractLsb' 0 25 &&& 0x11F1F07#25 } := by
  simp only [csrStore, fcsrMode_toNat]
  rw [if_neg (by omega)]

theorem csrStore_fcsr_refused (h : 6 ≤ v.toNat % 8) : csrStore t 0x012 v = .error 5 := by
  simp only [csrStore, fcsrMode_toNat]
  rw [if_pos h]

end

/-- The bits of FCSR that hold fields (R47). -/
theorem fcsr_bit (v : DWord) {i : Nat} (hi : i < 25) : (v.extractLsb' 0 25 &&& 0x11F1F07#25).getLsbD i =
    (v.getLsbD i && decide (i < 3 ∨ (8 ≤ i ∧ i < 13) ∨ (16 ≤ i ∧ i < 21) ∨ i = 24)) := by
  have hmask : ∀ i < 25, (0x11F1F07#25).getLsbD i = decide (i < 3 ∨ (8 ≤ i ∧ i < 13) ∨ (16 ≤ i ∧ i < 21) ∨ i = 24) := by decide
  rw [BitVec.getLsbD_and, hmask i hi, BitVec.getLsbD_extractLsb']
  simp [hi]

theorem csrWritable_iff (a : Nat) :
    csrWritable a = true ↔ a ∈ [0x006, 0x010, 0x011, 0x012, 0x020, 0x021, 0x022, 0x023, 0x031, 0x032, 0x051] := by
  simp only [csrWritable, List.contains_iff_mem]

/-- What a write of PREC whose rounding mode is allowed stores (R42). -/
theorem csrStore_prec_fields (t : Thread) (v : DWord) (h : v.toNat / 2 ^ 16 % 8 < 6) :
    let p := v.toNat % 256
    ∃ u, csrStore t 0x010 v = .ok u ∧ u.p = clampPrec p ∧ u.smin = v.toNat / 2 ^ 8 % 256 ∧
      u.prec.toNat / 2 ^ 16 % 8 = v.toNat / 2 ^ 16 % 8 ∧ u.prec.toNat / 2 ^ 25 = 0 ∧ u.prec.toNat / 2 ^ 20 % 32 = v.toNat / 2 ^ 20 % 32 ∧
      u.prec[19] = false ∧ u.xflags = (if p < 2 ∨ 241 < p then t.xflags ||| xPc else t.xflags) ∧
      u = { t with prec := u.prec, xflags := u.xflags } := by
  obtain ⟨htop, h19⟩ := precOf_reserved v
  have hsmin : ((precOf v).1.extractLsb' 8 8).toNat = v.toNat / 2 ^ 8 % 256 := by
    rw [BitVec.extractLsb'_toNat, Nat.shiftRight_eq_div_pow]
    exact precOf_field v 8 8 (by decide) (by decide) (by decide)
  exact ⟨_, csrStore_prec t v h, precOf_low v, hsmin, precOf_field v 16 3 (by decide) (by decide) (by decide), htop,
    precOf_field v 20 5 (by decide) (by decide) (by decide), h19, by simp [precOf_clamped], rfl⟩

/-- Settles O41: the read of the old value (`csrOld_eq_ok`, `csrOld_eq_wait`, `csrOld_eq_ill`) decides between the outcomes of the four
instructions; the map is `csrValue`, the field rules are `csrStore`. -/
theorem csrInstructionResults : Obligations.CsrInstructionResults := by
  unfold Obligations.CsrInstructionResults
  refine ⟨fun o s t => ⟨?_, ?_, ?_⟩, fun s => ?_, fun t v => ?_⟩
  · exact fun hknown hwaits i hi h => csr_of_stop hi h (csrOld_eq_wait hknown hwaits)
  · intro old hknown hwaits hvalue
    have hold : ∀ i, csrOld i (s.setTh t) (csrAddr o) = .ok old := fun i => csrOld_eq_ok hknown hwaits hvalue
    exact ⟨fun h => csrr_of_value h (hold _), fun y hy h => writesCsr_of_mem hold hy h⟩
  · exact fun hnone hwaits i hi h => csr_of_stop hi h (csrOld_eq_ill hnone hwaits)
  · exact ⟨csrValue_of_mem_csrMap s, csrValue_crewn s, csrValue_trialst_plain, fun r => csrValue_trialst_trial,
      fun h => ⟨_, rfl, ctrs_fields s.th h⟩, fun a h => csrValue_outside h⟩
  · exact ⟨fun h1 h2 => csrStore_tile t v ⟨h1, h2⟩, csrStore_tile_refused t v, csrStore_prec_fields t v, csrStore_prec_refused t v,
      fun h => ⟨_, csrStore_fcsr t v h, rfl, fun i hi => fcsr_bit v hi⟩, csrStore_fcsr_refused t v,
      rfl, rfl, rfl, rfl, rfl, rfl, rfl, rfl, csrWritable_iff⟩

end Sys2Proof.Proofs

/-!
Accesses from outside to device memory (R291, R305, R374, R402, R405, R406): their effect in one step and byte by byte, and the order
of posted writes.
-/
namespace Sys2Proof.Proofs
open Sys2Proof.Machine

/-! ### Memory after several stores -/

section
variable {w : Nat} {α : Type} (f : α → Nat) (g : α → BitVec w)

/-- Stores leave a key alone that none of them is at. -/
theorem sget_foldl_sset_of_ne (xs : List α) {m : List (Nat × BitVec w)} (h : swf m = true) {k : Nat} (hk : ∀ x ∈ xs, f x ≠ k) :
    sget (xs.foldl (fun m x => sset m (f x) (g x)) m) k = sget m k := by
  induction xs generalizing m with
  | nil => rfl
  | cons x xs ih =>
    rw [List.foldl_cons, ih (swf_sset m _ _ h) fun y hy => hk y (List.mem_cons_of_mem _ hy),
      sget_sset_ne m _ _ _ h (hk x (List.mem_cons_self ..)).symm]

/-- Of stores at different keys each one is read back. -/
theorem sget_foldl_sset_of_mem (xs : List α) {m : List (Nat × BitVec w)} (h : swf m = true) (hd : (xs.map f).Nodup) {x : α}
    (hx : x ∈ xs) : sget (xs.foldl (fun m x => sset m (f x) (g x)) m) (f x) = g x := by
  induction xs generalizing m with
  | nil => cases hx
  | cons y ys ih =>
    obtain ⟨hy, hys⟩ := List.nodup_cons.1 hd
    rw [List.foldl_cons]
    rcases List.mem_cons.1 hx with rfl | hx
    · rw [sget_foldl_sset_of_ne f g ys (swf_sset m _ _ h) fun z hz e => hy (List.mem_map.2 ⟨z, hz, e⟩), sget_sset_same m _ _ h]
    · exact ih (swf_sset m _ _ h) hys hx

end

theorem writeKeys_mem (h : Hw) (own : Option (Nat × Nat)) (xs : List (Nat × Byte)) :
    (writeKeys h own xs).mem = xs.foldl (fun m x => sset m x.1 x.2) h.mem := by
  unfold writeKeys
  rw [clearPoison_mem]
  induction xs generalizing h with
  | nil => rfl
  | cons x xs ih => exact ih _

/-- Writes at home change memory, poison, latent errors and caches only. -/
theorem writeKeys_frame (h : Hw) (own : Option (Nat × Nat)) (xs : List (Nat × Byte)) :
    (writeKeys h own xs).out = h.out ∧ (writeKeys h own xs).outside = h.outside ∧ (writeKeys h own xs).threads = h.threads := by
  have hfold : ∀ (ys : List (Nat × Byte)) (h : Hw), let u := ys.foldl (fun h x => writeKey h own x.1 x.2) h
      u.out = h.out ∧ u.outside = h.outside ∧ u.threads = h.threads := by
    intro ys
    induction ys with
    | nil => exact fun h => ⟨rfl, rfl, rfl⟩
    | cons y ys ih => exact fun h => ih _
  exact hfold xs h

/-- Reads change latent errors, those found, and poison only. -/
theorem noteReads_frame (h : Hw) (ks : List Nat) :
    (noteReads h ks).out = h.out ∧ (noteReads h ks).outside = h.outside ∧ (noteReads h ks).threads = h.threads := by
  unfold noteReads noteGranules
  dsimp only
  split <;> exact ⟨rfl, rfl, rfl⟩

/-! ### An access from outside in one step (R402, R405, R406) -/

/-- The keys of an access from outside. -/
def extKeys (x : ExtAccess) : List Nat := (List.range (extSpan x).2).map fun i => devKey ((extSpan x).1 + i)

theorem extKeys_nodup (x : ExtAccess) : (extKeys x).Nodup :=
  List.nodup_range.map fun i j h => by simpa [devKey] using h

theorem extKeys_length (x : ExtAccess) : (extKeys x).length = (extSpan x).2 := by simp [extKeys]

/-- An access writes as many bytes as it covers. -/
theorem extNew_length {x : ExtAccess} {old bs : List Byte} (h : extNew x old = some bs) : bs.length = (extSpan x).2 := by
  cases x with
  | read a n => cases h
  | write a ys => cases h; rfl
  | atomicAdd a n v => cases h; exact leBytes_length ..
  | atomicSwap a n v => cases h; exact leBytes_length ..
  | atomicCas a n b c =>
    simp only [extNew] at h
    split at h
    · cases h; exact leBytes_length ..
    · cases h

/-- The state in which an access has found the latent errors of what it reads. -/
def extNoted (s : State) (x : ExtAccess) : State := if extAnswers x then s.mapHw fun h => noteReads h (extKeys x) else s

theorem extNoted_frame (s : State) (x : ExtAccess) : (extNoted s x).hw.mem = s.hw.mem ∧ (extNoted s x).hw.out = s.hw.out ∧
    (extNoted s x).hw.threads = s.hw.threads ∧ (extNoted s x).th = s.th := by
  obtain ⟨hout, -, hthreads⟩ := noteReads_frame s.hw (extKeys x)
  unfold extNoted
  split
  · exact ⟨noteReads_mem .., hout, hthreads, rfl⟩
  · exact ⟨rfl, rfl, rfl, rfl⟩

/-- The state in which an access has written. -/
def extWritten (s : State) (x : ExtAccess) : State :=
  match extNew x ((extKeys x).map fun k => sget s.hw.mem k) with
  | none => extNoted s x
  | some bs => (extNoted s x).mapHw fun h => writeKeys h none ((extKeys x).zip bs)

/-- An access from outside in one step: reads, then writes, then answers. -/
theorem extPerform_eq (s : State) (x : ExtAccess) : extPerform s x = if extAnswers x then (extWritten s x).emit
    (.readAnswer ((extKeys x).map fun k => sget s.hw.mem k) ((extKeys x).any (keyPoisoned s.hw))) else extWritten s x := rfl

theorem extWritten_frame (s : State) (x : ExtAccess) : (extWritten s x).hw.out = s.hw.out ∧
    (extWritten s x).hw.threads = s.hw.threads ∧ (extWritten s x).th = s.th := by
  obtain ⟨-, hout, hthreads, hth⟩ := extNoted_frame s x
  unfold extWritten
  split
  · exact ⟨hout, hthreads, hth⟩
  · rename_i bs _
    obtain ⟨ho, -, ht⟩ := writeKeys_frame (extNoted s x).hw none ((extKeys x).zip bs)
    exact ⟨ho.trans hout, ht.trans hthreads, hth⟩

theorem extPerform_mem (s : State) (x : ExtAccess) : (extPerform s x).hw.mem = (extWritten s x).hw.mem := by
  rw [extPerform_eq]
  split <;> rfl

/-- What an access from outside does to a state: its new bytes, its answer, and nothing to any other byte or any thread. -/
def ExtEffect (x : ExtAccess) (s u : State) : Prop :=
  let ks := extKeys x
  let old := ks.map fun k => sget s.hw.mem k
  (extNew x old = none → u.hw.mem = s.hw.mem) ∧
  (∀ bs, extNew x old = some bs → ks.map (sget u.hw.mem) = bs.take (extSpan x).2 ∧ SameMemoryBut ks s u) ∧
  (extAnswers x = true → u.hw.out = s.hw.out ++ [.readAnswer old (ks.any (keyPoisoned s.hw))]) ∧
  (extAnswers x = false → u.hw.out = s.hw.out) ∧ u.th = s.th ∧ u.hw.threads = s.hw.threads

/-- Bytes written over the keys of an access are read back, and no others change. -/
theorem sget_extWritten {s : State} {x : ExtAccess} (h : s.canonical) {bs : List Byte}
    (hnew : extNew x ((extKeys x).map fun k => sget s.hw.mem k) = some bs) :
    (extKeys x).map (sget (extWritten s x).hw.mem) = bs ∧ SameMemoryBut (extKeys x) s (extWritten s x) := by
  have hlen : bs.length = (extKeys x).length := (extNew_length hnew).trans (extKeys_length x).symm
  have hfst : ((extKeys x).zip bs).map Prod.fst = extKeys x := List.map_fst_zip hlen.ge
  have hmem : (extWritten s x).hw.mem = ((extKeys x).zip bs).foldl (fun m x => sset m x.1 x.2) s.hw.mem := by
    rw [← (extNoted_frame s x).1, ← writeKeys_mem _ none]
    simp only [extWritten, hnew]
    rfl
  rw [SameMemoryBut, hmem]
  constructor
  · refine List.ext_getElem (by simpa using hlen.symm) fun i h1 h2 => ?_
    rw [List.getElem_map]
    have hi : i < ((extKeys x).zip bs).length := by simpa [hlen] using h2
    have hx := sget_foldl_sset_of_mem Prod.fst Prod.snd ((extKeys x).zip bs) h (by rw [hfst]; exact extKeys_nodup x) (List.getElem_mem hi)
    simpa using hx
  · intro k hk
    refine sget_foldl_sset_of_ne Prod.fst Prod.snd _ h fun y hy e => hk ?_
    rw [← hfst, ← e]
    exact List.mem_map_of_mem hy

theorem extPerform_effect {s : State} (x : ExtAccess) (h : s.canonical) : ExtEffect x s (extPerform s x) := by
  obtain ⟨hout, hthreads, hth⟩ := extWritten_frame s x
  refine ⟨fun hnew => ?_, fun bs hnew => ?_, fun ha => ?_, fun ha => ?_, ?_, ?_⟩
  · rw [extPerform_mem, ← (extNoted_frame s x).1]
    simp only [extWritten, hnew]
  · obtain ⟨hbytes, hsame⟩ := sget_extWritten h hnew
    rw [SameMemoryBut, extPerform_mem, hbytes, List.take_of_length_le (extNew_length hnew).le]
    exact ⟨rfl, hsame⟩
  · rw [extPerform_eq, if_pos ha, State.emit_hw, hout]
  · rw [extPerform_eq, ha, if_neg (by decide), hout]
  · rw [extPerform_eq]
    split <;> exact hth
  · rw [extPerform_eq]
    split <;> exact hthreads

/-! ### An access from outside that is under way (R291) -/

/-- The places of an access that it has not accessed. -/
def leftPlaces (x : Outside) : List Nat := (List.range (extSpan x.access).2).filter fun i => !x.got.any fun y => y.1 == i

theorem mem_leftPlaces {x : Outside} {i : Nat} : i ∈ leftPlaces x ↔ i < (extSpan x.access).2 ∧ ∀ b, (i, b) ∉ x.got := by
  simp only [leftPlaces, List.mem_filter, List.mem_range, Bool.not_eq_true', List.any_eq_false, beq_iff_eq]
  refine and_congr_right fun _ => ⟨fun h b hb => h _ hb rfl, fun h y hy e => h y.2 ?_⟩
  rw [← e]
  exact hy

theorem leftPlaces_nodup (x : Outside) : (leftPlaces x).Nodup := List.nodup_range.filter _

/-- An access without its record. -/
def endOutside (s : State) (x : Outside) : State := s.mapHw fun h => { h with outside := h.outside.filter fun y => y.id != x.id }

/-- An access with a new record. -/
def keepOutside (s : State) (x : Outside) : State :=
  s.mapHw fun h => { h with outside := h.outside.map fun y => if y.id == x.id then x else y }

/-- The places of a list are accessed one after another. -/
def accessPlaces (s : State) (x : Outside) (is : List Nat) : State × Outside := is.foldl (fun a i => outsideOne a.1 a.2 i) (s, x)

theorem outsideOne_write {s : State} {x : Outside} {a : Nat} {bs : List Byte} (hx : x.access = .write a bs) (i : Nat) :
    outsideOne s x i = (s.mapHw fun h => clearCovered (writeKeys h none [(devKey (a + i), bs.getD i 0)])
      (((i, bs.getD i 0) :: x.got).map fun y => devKey (a + y.1)) (devKey (a + i)), { x with got := (i, bs.getD i 0) :: x.got }) := by
  simp only [outsideOne, hx, extSpan]

theorem outsideOne_read {s : State} {x : Outside} (hx : extAnswers x.access = true) (i : Nat) :
    let k := devKey ((extSpan x.access).1 + i)
    outsideOne s x i = (s.mapHw fun h => noteReads h [k],
      { x with got := (i, sget s.hw.mem k) :: x.got, poisoned := x.poisoned || keyPoisoned s.hw k }) := by
  unfold outsideOne
  dsimp only
  split
  · rename_i h
    rw [h] at hx
    cases hx
  · rfl

/-- An access that gives no answer is a write. -/
theorem write_of_not_extAnswers {x : ExtAccess} (h : extAnswers x = false) : ∃ a bs, x = .write a bs := by
  cases x with
  | write a bs => exact ⟨a, bs, rfl⟩
  | _ => cases h

/-- A byte of an access under way: the record stays but for its bytes, and so do the other accesses and the messages. -/
theorem outsideOne_frame (s : State) (x : Outside) (i : Nat) : (outsideOne s x i).1.hw.outside = s.hw.outside ∧
    (outsideOne s x i).1.hw.out = s.hw.out ∧ (outsideOne s x i).2.access = x.access ∧ (outsideOne s x i).2.id = x.id := by
  cases hx : extAnswers x.access with
  | true =>
    obtain ⟨hout, houtside, -⟩ := noteReads_frame s.hw [devKey ((extSpan x.access).1 + i)]
    rw [outsideOne_read hx]
    exact ⟨houtside, hout, rfl, rfl⟩
  | false =>
    obtain ⟨a, bs, hx⟩ := write_of_not_extAnswers hx
    obtain ⟨hout, houtside, -⟩ := writeKeys_frame s.hw none [(devKey (a + i), bs.getD i 0)]
    rw [outsideOne_write hx]
    exact ⟨houtside, hout, rfl, rfl⟩

theorem outsideOne_keeps (s : State) (x : Outside) (i : Nat) : Keeps s (outsideOne s x i).1 := by
  cases hx : extAnswers x.access with
  | true =>
    rw [outsideOne_read hx]
    exact Keeps.mapHw s (fun h => noteReads h _) fun hm => by rwa [noteReads_mem]
  | false =>
    obtain ⟨a, bs, hx⟩ := write_of_not_extAnswers hx
    rw [outsideOne_write hx]
    exact Keeps.mapHw s (fun h => clearCovered (writeKeys h none _) _ _) fun hm => writeKeys_swf none _ hm

theorem accessPlaces_frame (s : State) (x : Outside) (is : List Nat) : (accessPlaces s x is).1.hw.outside = s.hw.outside ∧
    (accessPlaces s x is).1.hw.out = s.hw.out ∧ (accessPlaces s x is).2.access = x.access := by
  induction is generalizing s x with
  | nil => exact ⟨rfl, rfl, rfl⟩
  | cons i is ih =>
    obtain ⟨h1, h2, h3, -⟩ := outsideOne_frame s x i
    obtain ⟨k1, k2, k3⟩ := ih (outsideOne s x i).1 (outsideOne s x i).2
    exact ⟨k1.trans h1, k2.trans h2, k3.trans h3⟩

theorem accessPlaces_keeps (s : State) (x : Outside) (is : List Nat) : Keeps s (accessPlaces s x is).1 := by
  induction is generalizing s x with
  | nil => exact Keeps.refl s
  | cons i is ih => exact (outsideOne_keeps s x i).trans (ih _ _)

theorem accessPlaces_write_mem {s : State} {x : Outside} {a : Nat} {bs : List Byte} (hx : x.access = .write a bs) (is : List Nat) :
    (accessPlaces s x is).1.hw.mem = is.foldl (fun m i => sset m (devKey (a + i)) (bs.getD i 0)) s.hw.mem := by
  induction is generalizing s x with
  | nil => rfl
  | cons i is ih =>
    have hmem : (outsideOne s x i).1.hw.mem = sset s.hw.mem (devKey (a + i)) (bs.getD i 0) := by rw [outsideOne_write hx]; rfl
    rw [List.foldl_cons, ← hmem]
    exact ih ((outsideOne_frame s x i).2.2.1.trans hx)

/-- A posted write that goes on to its end: what is left of it is written, and it is no longer under way. -/
theorem outsideMore_write_rest {s : State} {x : Outside} {a n : Nat} {bs : List Byte} (hp : x.peer = false) (hx : x.access = .write a bs)
    (hn : bs.length ≤ n) : outsideMore s x n = endOutside (accessPlaces s x (leftPlaces x)).1 x := by
  have hans : extAnswers (accessPlaces s x (leftPlaces x)).2.access = false := by rw [(accessPlaces_frame s x _).2.2, hx]; rfl
  have hspan : (extSpan x.access).2 = bs.length := by rw [hx]; rfl
  obtain ⟨id, peer, fn, link, access, got, bad⟩ := x
  dsimp only at hp hx
  subst hp hx
  unfold outsideMore
  simp only [Bool.false_and, Bool.false_eq_true, if_false]
  rw [if_neg (by simpa [extSpan] using hn)]
  exact if_neg (by rw [← Bool.not_eq_false]; exact not_not_intro hans)

/-! ### Posted writes reach their homes in order (R305, R401) -/

theorem posted_iff {x : Outside} {fn link : Nat} : x.posted fn link = true ↔ PostedBy x fn link := by
  unfold Outside.posted PostedBy
  cases h : x.access with
  | write a bs => simp [and_assoc]
  | _ => simp

/-- The posted writes of a function over a link that are under way. -/
def postedOf (s : State) (fn link : Nat) : List Outside := s.hw.outside.filter fun x => x.posted fn link

theorem mem_postedOf {s : State} {fn link : Nat} {x : Outside} : x ∈ postedOf s fn link ↔ x ∈ s.hw.outside ∧ PostedBy x fn link := by
  rw [postedOf, List.mem_filter, posted_iff]

/-- Writes under way go on to their ends, one after another. -/
def finishAll (s : State) (xs : List Outside) : State := xs.foldl (fun s x => outsideMore s x (extSpan x.access).2) s

theorem finishPosted_eq (s : State) (fn link : Nat) : finishPosted s fn link = finishAll s (postedOf s fn link) := rfl

/-- A posted write that ends leaves the other accesses under way. -/
theorem outsideMore_posted {s : State} {x : Outside} {fn link : Nat} (hx : PostedBy x fn link) :
    Keeps s (outsideMore s x (extSpan x.access).2) ∧
    (outsideMore s x (extSpan x.access).2).hw.outside = s.hw.outside.filter fun y => y.id != x.id := by
  obtain ⟨hp, -, -, a, bs, hacc⟩ := hx
  have hn : bs.length ≤ (extSpan x.access).2 := by rw [hacc]; exact le_rfl
  rw [outsideMore_write_rest hp hacc hn]
  exact ⟨(accessPlaces_keeps s x _).trans (Keeps.mapHw _ _ id), by
    rw [endOutside, State.mapHw_hw, (accessPlaces_frame s x _).1]⟩

theorem finishAll_posted {fn link : Nat} (xs : List Outside) (s : State) (hx : ∀ x ∈ xs, PostedBy x fn link) :
    Keeps s (finishAll s xs) ∧ ∀ y ∈ (finishAll s xs).hw.outside, y ∈ s.hw.outside ∧ ∀ x ∈ xs, y.id ≠ x.id := by
  induction xs generalizing s with
  | nil => exact ⟨Keeps.refl s, fun y hy => ⟨hy, fun x h => nomatch h⟩⟩
  | cons x xs ih =>
    obtain ⟨hk, hout⟩ := outsideMore_posted (s := s) (hx x (List.mem_cons_self ..))
    obtain ⟨hks, hall⟩ := ih (outsideMore s x (extSpan x.access).2) fun z hz => hx z (List.mem_cons_of_mem _ hz)
    refine ⟨hk.trans hks, fun y hy => ?_⟩
    obtain ⟨hy, hne⟩ := hall y hy
    rw [hout, List.mem_filter, bne_iff_ne] at hy
    exact ⟨hy.1, List.forall_mem_cons.2 ⟨hy.2, hne⟩⟩

theorem finishPosted_keeps (s : State) (fn link : Nat) : Keeps s (finishPosted s fn link) :=
  (finishAll_posted (postedOf s fn link) s fun _ hx => (mem_postedOf.1 hx).2).1

/-- None of the posted writes of the function and link is under way any more. -/
theorem finishPosted_none (s : State) (fn link : Nat) : ∀ y ∈ (finishPosted s fn link).hw.outside, ¬ PostedBy y fn link := by
  intro y hy hposted
  obtain ⟨hmem, hne⟩ := (finishAll_posted (postedOf s fn link) s fun _ hx => (mem_postedOf.1 hx).2).2 y hy
  exact hne y (mem_postedOf.2 ⟨hmem, hposted⟩) rfl

theorem postedOf_eq_nil {s : State} {fn link : Nat} (h : ∀ y ∈ s.hw.outside, ¬ PostedBy y fn link) : postedOf s fn link = [] :=
  List.filter_eq_nil_iff.2 fun y hy hp => h y hy (posted_iff.1 hp)

theorem finishPosted_of_none {s : State} {fn link : Nat} (h : ∀ y ∈ s.hw.outside, ¬ PostedBy y fn link) : finishPosted s fn link = s := by
  rw [finishPosted_eq, postedOf_eq_nil h]
  rfl

/-- The first posted write ends first. -/
theorem finishPosted_first {s : State} {fn link : Nat} {pre post : List Outside} {x : Outside} (hs : s.hw.outside = pre ++ x :: post)
    (hids : (s.hw.outside.map fun y => y.id).Nodup) (hpre : ∀ y ∈ pre, ¬ PostedBy y fn link) (hx : PostedBy x fn link) :
    finishPosted s fn link = finishPosted (outsideMore s x (extSpan x.access).2) fn link := by
  have hskip : pre.filter (fun y => y.posted fn link) = [] := List.filter_eq_nil_iff.2 fun y hy hp => hpre y hy (posted_iff.1 hp)
  have hrest : (outsideMore s x (extSpan x.access).2).hw.outside = pre ++ post := by
    rw [hs, List.map_append, List.map_cons, List.nodup_middle, List.nodup_cons, ← List.map_append] at hids
    have hne : ∀ y ∈ pre ++ post, (y.id != x.id) = true := fun y hy => bne_iff_ne.2 fun e => hids.1 (e ▸ List.mem_map_of_mem hy)
    rw [(outsideMore_posted hx).2, hs, List.filter_append, List.filter_cons_of_neg (by simp), ← List.filter_append,
      List.filter_eq_self.2 hne]
  rw [finishPosted_eq, finishPosted_eq, postedOf, postedOf, hrest, hs, List.filter_append, List.filter_append, hskip,
    List.filter_cons_of_pos (p := fun y : Outside => y.posted fn link) (posted_iff.2 hx)]
  rfl

/-- A byte of a posted write waits for the earlier ones of its function and link. -/
theorem outsideByte_waits {s : State} {x : Outside} {n : Nat} (hfind : s.hw.outside.find? (fun y => y.id == x.id) = some x)
    (hwrite : ∃ a bs, x.access = .write a bs) (hpeer : x.peer = false)
    (hearlier : ∃ y ∈ s.hw.outside, PostedBy y x.fn x.link ∧ y.id < x.id) : outsideByte s x.id n = s := by
  obtain ⟨y, hy, hposted, hlt⟩ := hearlier
  have hx : x.posted x.fn x.link = true := posted_iff.2 ⟨hpeer, rfl, rfl, hwrite⟩
  have hany : (s.hw.outside.any fun y => y.posted x.fn x.link && decide (y.id < x.id)) = true :=
    List.any_eq_true.2 ⟨y, hy, by simp [posted_iff.2 hposted, hlt]⟩
  simp only [outsideByte, hfind, hx, hany]
  rfl

/-- What is left of a write under way is written at its end, and nothing else. -/
theorem outsideMore_write_effect {s : State} {x : Outside} {a : Nat} {bs : List Byte} (h : s.canonical) (hp : x.peer = false)
    (hx : x.access = .write a bs) :
    let u := outsideMore s x bs.length
    let left (i : Nat) : Prop := i < bs.length ∧ ∀ b, (i, b) ∉ x.got
    (∀ i, left i → sget u.hw.mem (a + i) = bs.getD i 0) ∧ (∀ k, (∀ i, left i → k ≠ a + i) → sget u.hw.mem k = sget s.hw.mem k) ∧
    u.hw.outside = s.hw.outside.filter (fun y => y.id != x.id) ∧ u.hw.out = s.hw.out := by
  have hleft : ∀ i, i ∈ leftPlaces x ↔ i < bs.length ∧ ∀ b, (i, b) ∉ x.got := fun i => by rw [mem_leftPlaces, hx]; rfl
  obtain ⟨houtside, hout, -⟩ := accessPlaces_frame s x (leftPlaces x)
  have hmem := accessPlaces_write_mem (s := s) hx (leftPlaces x)
  simp only [outsideMore_write_rest hp hx le_rfl, endOutside, State.mapHw_hw, hmem, houtside, hout, and_true, ← hleft]
  exact ⟨fun i hi => sget_foldl_sset_of_mem (fun i => devKey (a + i)) (fun i => bs.getD i 0) _ h
      ((leftPlaces_nodup x).map fun i j e => by simpa [devKey] using e) hi,
    fun k hk => sget_foldl_sset_of_ne (fun i => devKey (a + i)) (fun i => bs.getD i 0) _ h fun i hi e => hk i hi e.symm⟩

theorem postedInOrder : PostedInOrder :=
  ⟨fun _ _ _ => outsideByte_waits,
    fun s fn link => ⟨finishPosted_none s fn link, finishPosted_of_none, fun _ _ _ hs hids hpre hx => finishPosted_first hs hids hpre hx⟩,
    fun _ _ _ _ h hp hx => outsideMore_write_effect h hp hx,
    fun s fn link off v pass h => by simp only [moveEffect, h, Bool.false_eq_true, if_false]⟩

/-! ### One byte of an access under way (R291) -/

/-- A record is found again where it has taken the place of the one with its number. -/
theorem find_replaced {xs : List Outside} {o x : Outside} (hid : x.id = o.id) (h : xs.find? (fun y => y.id == o.id) = some o) :
    (xs.map fun y => if y.id == x.id then x else y).find? (fun y => y.id == o.id) = some x := by
  rw [hid]
  induction xs with
  | nil => cases h
  | cons y ys ih =>
    rw [List.find?_cons] at h
    rw [List.map_cons, List.find?_cons]
    cases hy : y.id == o.id with
    | true => simp [hid]
    | false =>
      rw [hy] at h
      simp only [Bool.false_eq_true, if_false, hy]
      exact ih h

/-- One byte of a read or write that is not accessed yet, unless a peer writes to a page that a launch has staged (R374). -/
theorem outsideMore_place {s : State} {o : Outside} {i : Nat} (hkind : (∃ a bs, o.access = .write a bs) ∨ ∃ a m, o.access = .read a m)
    (hi : i < (extSpan o.access).2 ∧ ∀ b, (i, b) ∉ o.got)
    (hfree : (o.peer && extWrites o.access && stagedRange s.hw (extSpan o.access).1 (extSpan o.access).2) = false) :
    outsideMore s o i = keepOutside (outsideOne s o i).1 (outsideOne s o i).2 := by
  have hleft : (leftPlaces o).contains i = true := List.contains_iff_mem.2 (mem_leftPlaces.2 hi)
  unfold outsideMore
  simp only [hfree, Bool.false_eq_true, if_false, hi.1, if_true]
  split
  · exact if_pos hleft
  · exact if_pos hleft
  · rename_i h1 h2
    rcases hkind with ⟨a, bs, h⟩ | ⟨a, m, h⟩
    · exact absurd h (h2 a bs)
    · exact absurd h (h1 a m)

theorem stagedRange_eq_false {h : Hw} {x : Nat × Nat} (hx : ∀ l ∈ h.launches, ∀ g ∈ l.staged, blocksMeet (g.orig, g.size) x = false) :
    stagedRange h x.1 x.2 = false := by
  simp only [stagedRange, List.any_eq_false, Bool.not_eq_true]
  exact hx

section
variable {s : State} {o : Outside} {i : Nat}

/-- A byte of an access that need not wait: neither for earlier posted writes nor for a launch that has staged the page. -/
theorem outsideByte_place (hfind : s.hw.outside.find? (fun y => y.id == o.id) = some o)
    (hkind : (∃ a bs, o.access = .write a bs) ∨ ∃ a m, o.access = .read a m)
    (hi : i < (extSpan o.access).2 ∧ ∀ b, (i, b) ∉ o.got)
    (hfree : o.peer = false ∨ ∀ l ∈ s.hw.launches, ∀ g ∈ l.staged, blocksMeet (g.orig, g.size) (extSpan o.access) = false)
    (hfirst : (∃ a bs, o.access = .write a bs) → o.peer = false → ∀ y ∈ s.hw.outside, PostedBy y o.fn o.link → o.id ≤ y.id) :
    outsideByte s o.id i = keepOutside (outsideOne s o i).1 (outsideOne s o i).2 := by
  have hnone : ¬ ((o.posted o.fn o.link && s.hw.outside.any fun y => y.posted o.fn o.link && decide (y.id < o.id)) = true) := by
    rw [Bool.and_eq_true, List.any_eq_true]
    rintro ⟨ho, y, hy, hlt⟩
    rw [Bool.and_eq_true, decide_eq_true_eq] at hlt
    obtain ⟨hp, -, -, hw⟩ := posted_iff.1 ho
    exact absurd hlt.2 (Nat.not_lt.2 (hfirst hw hp y hy (posted_iff.1 hlt.1)))
  have hstaged : (o.peer && extWrites o.access && stagedRange s.hw (extSpan o.access).1 (extSpan o.access).2) = false := by
    rcases hfree with h | h
    · simp [h]
    · simp [stagedRange_eq_false h]
  simp only [outsideByte, hfind]
  rw [if_neg hnone]
  exact outsideMore_place hkind hi hstaged

/-- The record of an access is found with its new byte. -/
theorem find_keepOutside (hfind : s.hw.outside.find? (fun y => y.id == o.id) = some o) :
    (keepOutside (outsideOne s o i).1 (outsideOne s o i).2).hw.outside.find? (fun y => y.id == o.id) = some (outsideOne s o i).2 := by
  obtain ⟨houtside, -, -, hid⟩ := outsideOne_frame s o i
  rw [keepOutside, State.mapHw_hw, houtside]
  exact find_replaced hid hfind

/-- Where the bytes written cover the granule of a byte, nothing of it stays poisoned (R371). -/
theorem clearCovered_poison {h : Hw} {ks : List Nat} {k : Nat} (hall : ∀ j < 32, 32 * (k / 32) + j ∈ ks) :
    ∀ q ∈ (clearCovered h ks k).poison, q.granule ≠ k / 32 := by
  intro q hq e
  have hwhole : wholeGranule (ks.filter fun x => granuleOf x == granuleOf k) q.granule = true := by
    rw [wholeGranule, List.all_eq_true]
    intro j hj
    have hj := List.mem_range.1 hj
    rw [List.contains_iff_mem, List.mem_filter, e, beq_iff_eq, granuleOf, granuleOf]
    exact ⟨hall j hj, by omega⟩
  have hkept := (List.mem_filter.1 hq).2
  rw [hwhole] at hkept
  cases hkept

end

theorem outsideByte_write {s : State} {o : Outside} {i a : Nat} {bs : List Byte} (h : s.canonical) (hx : o.access = .write a bs)
    (hfind : s.hw.outside.find? (fun y => y.id == o.id) = some o)
    (hplace : outsideByte s o.id i = keepOutside (outsideOne s o i).1 (outsideOne s o i).2) :
    let k := devKey ((extSpan o.access).1 + i)
    let u := outsideByte s o.id i
    sget u.hw.mem k = bs.getD i 0 ∧ SameMemoryBut [k] s u ∧
    u.hw.outside.find? (fun y => y.id == o.id) = some { o with got := (i, bs.getD i 0) :: o.got } ∧
    ((∀ j, j < 32 → 32 * (k / 32) + j = k ∨ ∃ y ∈ o.got, (extSpan o.access).1 + y.1 = 32 * (k / 32) + j) →
      ∀ q ∈ u.hw.poison, q.granule ≠ k / 32) := by
  have hspan : (extSpan o.access).1 = a := by rw [hx]; rfl
  have hfound := find_keepOutside (i := i) hfind
  rw [outsideOne_write hx] at hplace hfound
  have hmem : (outsideByte s o.id i).hw.mem = sset s.hw.mem (devKey (a + i)) (bs.getD i 0) := by rw [hplace]; rfl
  rw [← hplace] at hfound
  simp only [SameMemoryBut, hspan, hmem, List.mem_singleton]
  refine ⟨sget_sset_same _ _ _ h, fun k hk => sget_sset_ne _ _ _ _ h hk, hfound, fun hcover => ?_⟩
  rw [hplace]
  refine clearCovered_poison fun j hj => ?_
  rcases hcover j hj with e | ⟨y, hy, e⟩
  · exact List.mem_map.2 ⟨_, List.mem_cons_self .., e.symm⟩
  · exact List.mem_map.2 ⟨y, List.mem_cons_of_mem _ hy, e⟩

theorem outsideByte_read {s : State} {o : Outside} {i : Nat} (hx : extAnswers o.access = true)
    (hfind : s.hw.outside.find? (fun y => y.id == o.id) = some o)
    (hplace : outsideByte s o.id i = keepOutside (outsideOne s o i).1 (outsideOne s o i).2) :
    let k := devKey ((extSpan o.access).1 + i)
    let u := outsideByte s o.id i
    SameMemory s u ∧ u.hw.outside.find? (fun y => y.id == o.id) =
      some { o with got := (i, sget s.hw.mem k) :: o.got, poisoned := o.poisoned || keyPoisoned s.hw k } := by
  have hfound := find_keepOutside (i := i) hfind
  rw [outsideOne_read hx] at hplace hfound
  have hmem : (outsideByte s o.id i).hw.mem = s.hw.mem := by rw [hplace]; exact noteReads_mem ..
  rw [← hplace] at hfound
  exact ⟨fun k => by rw [hmem], hfound⟩

/-! ### Accesses through BAR2 and of peers (R374, R402, R406) -/

/-- What an access from outside leaves as it begins: a record, where the port divides it, or else all of its effect. -/
def ExtBegun (s u : State) (peer : Bool) : Prop :=
  let x := s.port.access
  (s.port.split = true → u = s.mapHw fun h =>
    { h with outside := h.outside ++ [⟨h.nextId, peer, s.port.sel, s.port.link, x, [], false⟩], nextId := h.nextId + 1 }) ∧
  (s.port.split = false → ((∃ a bs, x = .write a bs) → peer = false → ExtEffect x (finishPosted s s.port.sel s.port.link) u) ∧
    ((∀ a bs, x ≠ .write a bs) ∨ peer = true → ExtEffect x s u))

theorem extBegin_begun {s : State} (h : s.canonical) (peer : Bool) : ExtBegun s (extBegin s peer) peer := by
  refine ⟨fun hsplit => by simp only [extBegin, hsplit, if_true], fun hsplit => ⟨?_, ?_⟩⟩
  · rintro ⟨a, bs, hx⟩ rfl
    have hbegin : extBegin s false = extPerform (finishPosted s s.port.sel s.port.link) s.port.access := by
      simp only [extBegin, hsplit, hx, Bool.false_eq_true, if_false]
    rw [hbegin]
    exact extPerform_effect _ ((finishPosted_keeps s _ _).mem h)
  · intro hkind
    have hbegin : extBegin s peer = extPerform s s.port.access := by
      simp only [extBegin, hsplit, Bool.false_eq_true, if_false]
      split
      · rename_i a bs hx
        rcases hkind with hk | hk
        · exact absurd hx (hk a bs)
        · rw [hk, if_pos rfl]
      · rfl
    rw [hbegin]
    exact extPerform_effect _ h

theorem extInside_iff (x : ExtAccess) : extInside x = true ↔ (extSpan x).1 + (extSpan x).2 ≤ 549755813888 := by
  rw [extInside, decide_eq_true_eq]
  exact Iff.rfl

section
variable {s : State} (hup : s.mod.inReset = false)
include hup

theorem exec_hostBar2Access_inside (h : (extSpan s.port.access).1 + (extSpan s.port.access).2 ≤ 549755813888)
    (hbar : (extSpan s.port.access).1 + (extSpan s.port.access).2 ≤ s.mod.bar2) : exec .hostBar2Access s = .next (extBegin s false) := by
  have hexec : exec .hostBar2Access s = execHostBar2Access s := rfl
  simp [hexec, execHostBar2Access, hup, (extInside_iff _).2 h, hbar]

theorem exec_hostBar2Access_outside (h : 549755813888 < (extSpan s.port.access).1 + (extSpan s.port.access).2 ∨
    s.mod.bar2 < (extSpan s.port.access).1 + (extSpan s.port.access).2) : exec .hostBar2Access s = .fault .noSuchAddress := by
  have hexec : exec .hostBar2Access s = execHostBar2Access s := rfl
  have hout : ¬ (extInside s.port.access = true ∧ (extSpan s.port.access).1 + (extSpan s.port.access).2 ≤ s.mod.bar2) := by
    rw [extInside_iff]
    omega
  simp [hexec, execHostBar2Access, hup, hout]

theorem exec_peerRequest_outside (h : 549755813888 < (extSpan s.port.access).1 + (extSpan s.port.access).2) :
    exec .peerRequest s = .fault .noSuchAddress := by
  have hexec : exec .peerRequest s = execPeerRequest s := rfl
  have hout : ¬ (extInside s.port.access = true) := by
    rw [extInside_iff]
    omega
  simp [hexec, execPeerRequest, hup, hout]

theorem exec_peerRequest_inside (h : (extSpan s.port.access).1 + (extSpan s.port.access).2 ≤ 549755813888) :
    exec .peerRequest s = whenEnabled (!(extWrites s.port.access &&
      stagedRange s.hw (extSpan s.port.access).1 (extSpan s.port.access).2)) s (extBegin s true) := by
  have hexec : exec .peerRequest s = execPeerRequest s := rfl
  simp [hexec, execPeerRequest, hup, (extInside_iff _).2 h]

end

theorem extWrites_eq_false {x : ExtAccess} (h : ∃ b m, x = .read b m) : extWrites x = false := by
  obtain ⟨b, m, rfl⟩ := h
  rfl

theorem extWrites_eq_true {x : ExtAccess} (h : ∀ b m, x ≠ .read b m) : extWrites x = true := by
  cases x with
  | read b m => exact absurd rfl (h b m)
  | _ => rfl

/-- Settles O57: one access is `extPerform_effect`, one byte of it `outsideByte_place`, and the order of posted writes `postedInOrder`. -/
theorem outsideAccessResults : Obligations.OutsideAccessResults := by
  unfold Obligations.OutsideAccessResults
  refine ⟨postedInOrder, fun s hup hcanon => ⟨fun hinside => ⟨fun hbar => ?_, fun hbar => ?_, ?_, ?_⟩, fun hout => ?_, ?_⟩⟩
  · exact ⟨_, exec_hostBar2Access_inside hup hinside hbar, extBegin_begun hcanon false⟩
  · exact exec_hostBar2Access_outside hup (.inr hbar)
  · intro hfree
    refine ⟨extBegin s true, ?_, extBegin_begun hcanon true⟩
    rw [exec_peerRequest_inside hup hinside]
    rcases hfree with hread | hfree
    · simp [extWrites_eq_false hread]
    · simp [stagedRange_eq_false (x := extSpan s.port.access) hfree]
  · rintro hwrites ⟨l, hl, g, hg, hmeet⟩
    have hstaged : stagedRange s.hw (extSpan s.port.access).1 (extSpan s.port.access).2 = true :=
      List.any_eq_true.2 ⟨l, hl, List.any_eq_true.2 ⟨g, hg, hmeet⟩⟩
    simp [exec_peerRequest_inside hup hinside, extWrites_eq_true hwrites, hstaged]
  · exact ⟨exec_hostBar2Access_outside hup (.inl hout), exec_peerRequest_outside hup hout⟩
  · intro o i hfind hi hleft hfree hfirst
    refine ⟨fun b bs hx => ?_, fun b m hx => ?_⟩
    · exact outsideByte_write hcanon hx hfind (outsideByte_place hfind (.inl ⟨b, bs, hx⟩) ⟨hi, hleft⟩ hfree hfirst)
    · exact outsideByte_read (by rw [hx]; rfl) hfind (outsideByte_place hfind (.inr ⟨b, m, hx⟩) ⟨hi, hleft⟩ hfree hfirst)

end Sys2Proof.Proofs

/-!
Register writes of the host (R7, R402, R403): what each one stores, and when it is ignored or refused.
-/
namespace Sys2Proof.Proofs
open Sys2Proof.Machine

/-! ### Writes of host registers (R7, R402, R403) -/

/-- The addressed partition takes a new value. -/
def putPart (s : State) (p : Part) : State := s.mapHw fun h => h.setPart p

theorem mod_inReset_of_hostUp {s : State} (h : hostUp s = true) : s.mod.inReset = false := by
  simpa using (Bool.and_eq_true_iff.1 h).1

theorem onPart_of_hostUp {s : State} (h : hostUp s = true) (f : Part → Part) :
    onPart s f = .next (putPart s (f (s.hw.part s.port.part))) := by
  rw [onPart, h]
  rfl

theorem exec_registerWrite (s : State) : exec .registerWrite s = execRegisterWrite s := rfl
theorem exec_stkap (s : State) : exec .stkap s = execStkap s := rfl
theorem exec_lqstatClear (s : State) : exec .lqstatClear s = execLqstatClear s := rfl
theorem exec_tierwm (s : State) : exec .tierwm s = execTierwm s := rfl
theorem exec_pwrlim (s : State) : exec .pwrlim s = execPwrlim s := rfl
theorem exec_lqdb (s : State) : exec .lqdb s = execLqdb s := rfl
theorem exec_xlinvPage (s : State) : exec .xlinvPage s = execXlinvPage s := rfl
theorem exec_xlinvPartition (s : State) : exec .xlinvPartition s = execXlinvPartition s := rfl
theorem exec_xlinvRefusedKind (s : State) : exec .xlinvRefusedKind s = execXlinvRefusedKind s := rfl
theorem exec_pswapPair (s : State) : exec .pswapPair s = execPswapPair s := rfl
theorem exec_pswapGo (s : State) : exec .pswapGo s = execPswapGo s := rfl

/-- What a plain register write does where it may. -/
theorem registerWrite_results {s : State} (h : hostUp s = true) :
    let v := s.port.data
    let p := s.hw.part s.port.part
    (s.port.reg = .xlroot → exec .registerWrite s = .next (putPart s { p with xlroot := v &&& 0x00FFFFFFFFF00001 })) ∧
    (s.port.reg = .balcfg → exec .registerWrite s = .next (putPart s { p with balcfg := v &&& 0x1FFF })) ∧
    (s.port.reg = .wdcfg → exec .registerWrite s = .next (putPart s { p with wdcfg := v &&& 0xFFFFFFFF })) ∧
    (s.port.reg = .stgcfg → exec .registerWrite s = .next (putPart s { p with stgcfg := v &&& 0x0000FFFF0003FFFF })) ∧
    (s.port.reg = .flttgt → exec .registerWrite s = .next (putPart s { p with flttgt := v })) ∧
    (s.port.reg = .tierfl → exec .registerWrite s =
      if s.port.sel = 0 then .next (putPart s { p with tierfl := v &&& 0x0000FFFF00003FFF }) else .next s) ∧
    (∀ c, s.port.reg = .ecccnt c → exec .registerWrite s =
      if s.port.sel = 0 then .next (s.setMod { s.mod with ecc := s.mod.ecc.setIfInBounds c.toNat v }) else .next s) ∧
    (∀ off, s.port.reg = .other off → exec .registerWrite s = .next s) := by
  simp only [exec_registerWrite]
  refine ⟨fun hr => ?_, fun hr => ?_, fun hr => ?_, fun hr => ?_, fun hr => ?_, fun hr => ?_, fun c hr => ?_, fun off hr => ?_⟩
  case refine_7 =>
    have henabled : (!s.mod.inReset && s.port.sel == 0) = decide (s.port.sel = 0) := by
      rw [mod_inReset_of_hostUp h]
      rfl
    simp only [execRegisterWrite, hr, henabled]
    by_cases hsel : s.port.sel = 0
    · rw [decide_eq_true hsel, if_pos hsel, whenEnabled_true]
    · rw [decide_eq_false hsel, if_neg hsel, whenEnabled_false]
  all_goals simp only [execRegisterWrite, hr, onPart_of_hostUp h, beq_iff_eq]

theorem stkap_in_flight {s : State} (hin : ∃ l ∈ s.hw.launches, l.part = s.port.part) : exec .stkap s = .next s := by
  have hany : (s.hw.launches.any fun l => l.part == s.port.part) = true := by simpa using hin
  rw [exec_stkap, execStkap, hany]
  rfl

theorem stkap_idle {s : State} (h : hostUp s = true) (hin : ∀ l ∈ s.hw.launches, l.part ≠ s.port.part) :
    exec .stkap s = .next (putPart s { s.hw.part s.port.part with stkap := s.port.data &&& 0x00FFFFFC00000001 }) := by
  have hany : (s.hw.launches.any fun l => l.part == s.port.part) = false := by simpa using hin
  rw [exec_stkap, execStkap, hany, if_neg (by decide)]
  exact onPart_of_hostUp h _

theorem tierwm_result {s : State} (h : hostUp s = true) :
    let high := s.port.data.extractLsb' 32 32
    let low := s.port.data.extractLsb' 0 32
    exec .tierwm s = .next (s.setMod { s.mod with tierHigh := if high.toNat < low.toNat then low else high, tierLow := low }) := by
  simp [exec_tierwm, execTierwm, mod_inReset_of_hostUp h, BitVec.ult]

/-! ### Power limits (R407, R408) -/

/-- A power limit is clamped to 1,000 .. 2,200 W. -/
theorem clampLim_toNat (v : BitVec 12) : (clampLim v).toNat = max 1000 (min 2200 v.toNat) := by
  have hlow : (1000#12).toNat = 1000 := rfl
  have hhigh : (2200#12).toNat = 2200 := rfl
  simp only [clampLim, BitVec.ult, decide_eq_true_eq, BitVec.ofNat_eq_ofNat]
  split
  · omega
  · split <;> omega

theorem effOf_cool {lim : BitVec 12} {tj : Nat} {up : Bool} (h : tj < 95) : effOf lim tj up = lim := by rw [effOf, if_pos h]

theorem effOf_hot {lim : BitVec 12} {tj : Nat} {up : Bool} (h : 105 ≤ tj) : effOf lim tj up = 0 := by
  rw [effOf, if_neg (by omega), if_neg (by omega)]

theorem pwrlim_result {s : State} (h : hostUp s = true) : ∃ u, exec .pwrlim s = .next u ∧
    u.mod.pwrlim.toNat = max 1000 (min 2200 (s.port.data.toNat % 4096)) ∧ u.mod.tj = s.mod.tj ∧ u.hw.mem = s.hw.mem ∧
    (s.mod.tj.toNat < 95 → u.mod.eff = u.mod.pwrlim) ∧ (105 ≤ s.mod.tj.toNat → u.mod.eff = 0) := by
  refine ⟨setPower s (clampLim (s.port.data.extractLsb' 0 12)) s.mod.tj, ?_, ?_, rfl, rfl, effOf_cool, effOf_hot⟩
  · rw [exec_pwrlim, execPwrlim, mod_inReset_of_hostUp h]
    rfl
  · have hlow : (s.port.data.extractLsb' 0 12).toNat = s.port.data.toNat % 4096 := by simp [BitVec.extractLsb'_toNat]
    rw [← hlow, ← clampLim_toNat]
    rfl

/-! ### The doorbell (R305, R308) -/

theorem bitsOf_zero (v hi : Nat) : bitsOf v hi 0 = v % 2 ^ (hi + 1) := by simp [bitsOf]

/-- The highest bits of a word are all that its division leaves. -/
theorem bitsOf_top (v : DWord) : bitsOf v.toNat 63 56 = v.toNat / 2 ^ 56 := by
  have := v.isLt
  simp only [bitsOf]
  omega

section
variable {s : State} {part q a : Nat}

theorem ringBell_behind (h : ∃ x ∈ (s.hw.part part).bells, x.1 = q) : ringBell s part (q, a) =
    putPart s { s.hw.part part with bells := (s.hw.part part).bells ++ [(q, a)] } := by
  have hany : ((s.hw.part part).bells.any fun x => x.1 == q) = true := by simpa using h
  simp only [ringBell, hany, if_true]
  rfl

variable (hfree : ∀ x ∈ (s.hw.part part).bells, x.1 ≠ q)
include hfree

theorem bells_any_eq_false : ((s.hw.part part).bells.any fun x => x.1 == q) = false := by simpa using hfree

theorem ringBell_read {bs : List Byte} {u : State} (h : systemRead s part (BitVec.ofNat 64 a) 64 = .ok (bs, u)) :
    ringBell s part (q, a) = u.mapHw fun h => putRecord h part q bs := by
  simp only [ringBell, bells_any_eq_false hfree, h]
  rfl

theorem ringBell_fault {f : SupFault} (h : systemRead s part (BitVec.ofNat 64 a) 64 = .error (.fault f)) :
    ringBell s part (q, a) = (putPart s { s.hw.part part with lqovf := (s.hw.part part).lqovf ||| (1#16 <<< q) }).emit (.msix (part + 1) 1) := by
  simp only [ringBell, bells_any_eq_false hfree, h]
  rfl

theorem ringBell_wait {k : WaitKind} (h : systemRead s part (BitVec.ofNat 64 a) 64 = .error (.wait k)) : ringBell s part (q, a) =
    putPart s { s.hw.part part with bells := (s.hw.part part).bells ++ [(q, a)] } := by
  simp only [ringBell, bells_any_eq_false hfree, h]
  rfl

end

/-- A doorbell whose queue is full or that sets a reserved bit. -/
def BellRefused (s : State) : Prop :=
  let v := s.port.data.toNat
  v / 2 ^ 56 ≠ 0 ∨ v / 16 % 4 ≠ 0 ∨ 256 ≤ (s.hw.part s.port.part).queueLoad (v % 16)

theorem bellRefused_iff (s : State) : (bitsOf s.port.data.toNat 63 56 != 0 || bitsOf s.port.data.toNat 5 4 != 0 ||
    decide (256 ≤ s.hostPart.queueLoad (bitsOf s.port.data.toNat 3 0))) = true ↔ BellRefused s := by
  simp only [Bool.or_eq_true, bne_iff_ne, decide_eq_true_eq, bitsOf_top, bitsOf_zero, or_assoc]
  exact Iff.rfl

theorem lqdb_refused {s : State} (h : hostUp s = true) (hfull : BellRefused s) :
    let p := s.hw.part s.port.part
    exec .lqdb s = .next (putPart s { p with lqovf := p.lqovf ||| (1#16 <<< (s.port.data.toNat % 16)) }) := by
  simp only [exec_lqdb, execLqdb, h, Bool.not_true, Bool.false_eq_true, if_false]
  rw [if_pos ((bellRefused_iff s).2 hfull), bitsOf_zero]
  rfl

/-- An accepted doorbell rings after the earlier posted writes of its function and link. -/
theorem lqdb_rings {s : State} (h : hostUp s = true) (hfull : ¬ BellRefused s) : exec .lqdb s =
    .next (ringBell (finishPosted s s.port.sel s.port.link) s.port.part
      (s.port.data.toNat % 16, s.port.data.toNat / 64 % 2 ^ 50 * 64)) := by
  simp only [exec_lqdb, execLqdb, h, Bool.not_true, Bool.false_eq_true, if_false]
  rw [if_neg (mt (bellRefused_iff s).1 hfull), bitsOf_zero]
  rfl

theorem bellAddress_toNat (v : Nat) : (BitVec.ofNat 64 (v / 64 % 2 ^ 50 * 64)).toNat = v / 64 % 2 ^ 50 * 64 := by
  simp only [BitVec.toNat_ofNat]
  omega

/-! ### Invalidation (R282) -/

section
variable {s : State} {ok : Nat → Bool} {f : Part → DWord → Part}

theorem writeXlinv_starts (h : hostUp s = true) (hok : ok (s.port.data.toNat / 4 % 4) = true) (hgo : s.port.data[0] = true)
    (hidle : (s.hw.part s.port.part).xlinv[0] = false) :
    writeXlinv s ok f = .next (putPart s (f (s.hw.part s.port.part) (s.port.data &&& 0x00FFFFFFFFFFF00C))) := by
  have hkind : ok (bitsOf s.port.data.toNat 3 2) = true := hok
  simp only [writeXlinv, State.hostPart, hkind, hidle, Bool.not_true, Bool.and_false, Bool.or_self, Bool.false_eq_true, if_false,
    onPart_of_hostUp h, hgo, if_true]

theorem writeXlinv_busy (hgo : s.port.data[0] = true) (hbusy : (s.hw.part s.port.part).xlinv[0] = true) :
    writeXlinv s ok f = .next s := by
  simp only [writeXlinv, State.hostPart, hgo, hbusy, Bool.and_self, Bool.or_true, if_true]

end

/-! ### Swaps (R323, R326) -/

/-- The fields of PSWAP that a word holds, with its slice raised to 20. -/
theorem pswapFields_eq (v : DWord) : pswapFields v = (v &&& 0xF00) ||| (BitVec.ofNat 64
    (if v.toNat / 2 ^ 16 % 2 ^ 16 = 0 then 0 else max 20 (v.toNat / 2 ^ 16 % 2 ^ 16)) <<< 16) := by
  simp only [pswapFields, bitsOf, beq_iff_eq]

section
variable {h : Hw} {p : Part} {v : DWord}

theorem storePair_refused (hen : v[8] = true) (hcores : (h.part (v.toNat / 2 ^ 9 % 8)).cores ≠ p.cores) :
    storePair h p v = { p with pswap := p.pswap ||| 2 } := by
  have hbad : pairRefused h p v = true := by
    rw [pairRefused, hen, Bool.true_and, bne_iff_ne]
    exact hcores
  rw [storePair, if_pos hbad]

theorem pairRefused_eq_false (hok : v[8] = false ∨ (h.part (v.toNat / 2 ^ 9 % 8)).cores = p.cores) : pairRefused h p v = false := by
  rw [pairRefused, Bool.and_eq_false_iff]
  exact hok.imp id fun e => bne_eq_false_iff_eq.2 e

theorem storePair_stored (hok : v[8] = false ∨ (h.part (v.toNat / 2 ^ 9 % 8)).cores = p.cores) :
    storePair h p v = { p with pswap := pswapFields v ||| (p.pswap &&& 1) } := by
  rw [storePair, pairRefused_eq_false hok]
  rfl

/-- With GO = 0 before it, a write of PSWAP leaves its own fields alone. -/
theorem storePair_idle (hok : v[8] = false ∨ (h.part (v.toNat / 2 ^ 9 % 8)).cores = p.cores) (hgo : p.pswap[0] = false) :
    storePair h p v = { p with pswap := pswapFields v } := by
  have hzero : p.pswap &&& 1 = 0#64 := by
    ext i hi
    rcases Nat.eq_zero_or_pos i with rfl | hpos
    · simp [hgo]
    · simp [BitVec.getElem_one, Nat.pos_iff_ne_zero.1 hpos]
  rw [storePair_stored hok, hzero, BitVec.or_zero]

end

section
variable {s : State}

theorem pswapPair_writes (h : hostUp s = true) (hgo : s.port.data[0] = false) :
    exec .pswapPair s = .next (putPart s (storePair s.hw (s.hw.part s.port.part) s.port.data)) := by
  rw [exec_pswapPair, execPswapPair, hgo, if_neg (by decide)]
  exact onPart_of_hostUp h _

theorem pswapGo_ignored (h : (s.hw.part s.port.part).pswap[0] = true ∨ (s.hw.part s.port.part).pswap[8] = false ∨
    (s.hw.part s.port.part).active = false) : exec .pswapGo s = .next s := by
  rw [exec_pswapGo, execPswapGo]
  simp only [State.hostPart]
  rcases h with h | h | h <;> simp [h]

/-- A swap that is asked for begins once the cores are settled, and is due until then (R326, R378). -/
theorem pswapGo_pairs (h : hostUp s = true) (hgo : s.port.data[0] = true) (hidle : (s.hw.part s.port.part).pswap[0] = false)
    (hen : (s.hw.part s.port.part).pswap[8] = true) (hactive : (s.hw.part s.port.part).active = true)
    (hok : s.port.data[8] = false ∨ (s.hw.part (s.port.data.toNat / 2 ^ 9 % 8)).cores = (s.hw.part s.port.part).cores) :
    let p := s.hw.part s.port.part
    let h := s.hw.setPart { p with pswap := pswapFields s.port.data }
    let p' := h.part p.idx
    paired h p' = true → exec .pswapGo s = if coresSettled h p' then .next (beginSwap (s.setHw h) p')
      else .next (s.setHw (h.setPart { p' with swapDue := true, pswap := p'.pswap ||| 1 })) := by
  have hgoes : ¬ ((!hostUp s || !s.port.data[0] || (s.hw.part s.port.part).pswap[0] || !(s.hw.part s.port.part).pswap[8] ||
      !(s.hw.part s.port.part).active) = true) := by
    simp [h, hgo, hidle, hen, hactive]
  intro p g p' hpaired
  have hpair : ¬ ((!paired g p') = true) := by simp [hpaired]
  rw [exec_pswapGo, execPswapGo]
  refine (if_neg hgoes).trans ((if_neg (Bool.eq_false_iff.1 (pairRefused_eq_false hok))).trans ?_)
  simp only [State.hostPart, storePair_idle hok hidle]
  exact if_neg hpair

end

/-- Settles O55, register by register. -/
theorem registerWriteResults : Obligations.RegisterWriteResults := by
  unfold Obligations.RegisterWriteResults
  intro s h
  obtain ⟨h1, h2, h3, h4, h5, h6, h7, h8⟩ := registerWrite_results h
  refine ⟨h1, h2, h3, h4, h5, h6, h7, h8, stkap_in_flight, stkap_idle h, ?_, tierwm_result h, pwrlim_result h, ?_, ?_, ?_⟩
  · rw [exec_lqstatClear, execLqstatClear]
    exact onPart_of_hostUp h _
  · refine ⟨lqdb_refused h, fun hfull hfree => ⟨fun bs u hread => ?_, fun f hread => ?_, fun k hread => ?_⟩, fun hfull hbehind => ?_⟩
    · exact (lqdb_rings h hfull).trans (congrArg _ (ringBell_read hfree hread))
    · exact (lqdb_rings h hfull).trans (congrArg _ (ringBell_fault hfree hread))
    · rw [bellAddress_toNat]
      exact (lqdb_rings h hfull).trans (congrArg _ (ringBell_wait hfree hread))
    · rw [bellAddress_toNat]
      exact (lqdb_rings h hfull).trans (congrArg _ (ringBell_behind hbehind))
  · refine ⟨fun hgo hidle => ⟨fun hk => ?_, fun hk => ?_, fun hk => ?_⟩, fun hgo hbusy => ⟨?_, ?_, ?_⟩⟩
    · exact (exec_xlinvPage s).trans (writeXlinv_starts h (beq_iff_eq.2 hk) hgo hidle)
    · exact (exec_xlinvPartition s).trans (writeXlinv_starts h (beq_iff_eq.2 hk) hgo hidle)
    · exact (exec_xlinvRefusedKind s).trans (writeXlinv_starts h (decide_eq_true hk) hgo hidle)
    · exact (exec_xlinvPage s).trans (writeXlinv_busy hgo hbusy)
    · exact (exec_xlinvPartition s).trans (writeXlinv_busy hgo hbusy)
    · exact (exec_xlinvRefusedKind s).trans (writeXlinv_busy hgo hbusy)
  · refine ⟨fun hgo hen hcores => ?_, fun hgo hok => ?_, fun _ hno => pswapGo_ignored hno, fun hgo hidle hen hactive hok => ?_⟩
    · rw [pswapPair_writes h hgo, storePair_refused hen hcores]
      rfl
    · rw [pswapPair_writes h hgo, storePair_stored hok, pswapFields_eq]
      rfl
    · have hswap := pswapGo_pairs h hgo hidle hen hactive hok
      rw [pswapFields_eq] at hswap
      exact fun hpaired => ⟨fun hset => (hswap hpaired).trans (if_pos hset), fun hset => (hswap hpaired).trans (by rw [hset]; rfl)⟩

end Sys2Proof.Proofs

/-!
Local traps (R50, R52, R163, R164): delivery to the handler, escalation, and the instructions that take and leave traps.
-/
namespace Sys2Proof.Proofs
open Sys2Proof.Machine

/-! ### Taking a local trap (R50) -/

section
variable {s : State} (cause det : BitVec 8) (val : DWord) (xf : BitVec 6) (fc : BitVec 25)

/-- Outside trials, with a handler and no trap being handled, a local trap goes to the handler. -/
theorem takeTrap_delivered (htrial : s.th.trial = none) (hfree : s.th.tstate = false) (hltv : s.th.ltv ≠ 0) :
    takeTrap s cause det val xf fc = s.setTh { s.th with
      xflags := s.th.xflags ||| xf, fcsr := s.th.fcsr ||| fc, ltip := s.th.pc, ltc := det ++ cause, ltval := val, tstate := true,
      pc := s.th.ltv, wait := .none, charged := false, latch := none, dmrMiss := false } := by
  have hhandler : (s.th.ltv == 0#64) = false := beq_eq_false_iff_ne.2 hltv
  simp only [takeTrap, Thread.stickyOr, State.setTh_th, htrial, hfree, hhandler]
  rfl

/-- Outside trials, while a trap is being handled or without a handler, a local trap escalates. -/
theorem takeTrap_escalated (htrial : s.th.trial = none) (hbusy : s.th.tstate = true ∨ s.th.ltv = 0) :
    takeTrap s cause det val xf fc = takeFault (s.setTh (s.th.stickyOr xf fc))
      ⟨6, if s.th.tstate then 0 else 1, false, false, val, cause⟩ := by
  have hescalates : (s.th.tstate || s.th.ltv == 0#64) = true := by simpa using hbusy
  have htrial' : (s.th.stickyOr xf fc).trial = none := htrial
  simp only [takeTrap, State.setTh_th, htrial', Option.isSome_none, Bool.false_eq_true, ↓reduceIte]
  exact if_pos hescalates

end

/-- Settles O8: `takeTrap_delivered` and `takeTrap_escalated`. -/
theorem localTrapIsDelivered : Obligations.LocalTrapIsDelivered := by
  unfold Obligations.LocalTrapIsDelivered
  exact fun s cause det val xf fc htrial =>
    ⟨takeTrap_delivered cause det val xf fc htrial, takeTrap_escalated cause det val xf fc htrial⟩

/-! ### TRAP, TRET and TCLR (R52, R163, R164) -/

theorem exec_trap (o : ScalarOps) (s : State) : exec (.trap o) s = execTrap o s := rfl
theorem exec_tretRetry (o : ScalarOps) (s : State) : exec (.tretRetry o) s = execTretRetry o s := rfl
theorem exec_tretSkip (o : ScalarOps) (s : State) : exec (.tretSkip o) s = execTretSkip o s := rfl
theorem exec_tclr (o : ScalarOps) (s : State) : exec (.tclr o) s = execTclr o s := rfl

section
variable {o : ScalarOps} {s : State} {t : Thread}

theorem trap_stops (h : Entered (.trap o) s t) :
    StopsWith (.trap o) s t (.trap ((immBits o).extractLsb' 0 8) 0 (immBits o) 0 0) := by
  rw [StopsWith, exec_trap]
  exact runJump_error h rfl

/-- TRET.skip goes on after the instruction at LTIP, whose length its first word tells. -/
theorem tretSkip_skips {w : Word} {s1 : State} (h : Entered (.tretSkip o) s t) (hf : fetchWord (s.setTh t) t.ltip = .ok (w, s1)) :
    exec (.tretSkip o) s = .next (s1.setTh (s1.th.returnTo (s1.th.ltip + if hasExtension w then 8 else 4))).settled := by
  rw [exec_tretSkip]
  exact runJump_ok h (by simp only [State.setTh_th, hf]; rfl)

theorem tretSkip_stops {e : Stop} (h : Entered (.tretSkip o) s t) (hf : fetchWord (s.setTh t) t.ltip = .error e) :
    StopsWith (.tretSkip o) s t e := by
  rw [StopsWith, exec_tretSkip]
  exact runJump_error h (by simp only [State.setTh_th, hf]; rfl)

end

/-- A fetch leaves the executing thread as it is. -/
theorem fetchWord_th {s s1 : State} {ea : DWord} {w : Word} (h : fetchWord s ea = .ok (w, s1)) : s1.th = s.th := by
  unfold fetchWord at h
  dsimp only at h
  split at h
  · split at h
    · cases h; rfl
    · cases h
  · split at h
    · next bs u hbytes =>
      unfold fetchBytes at hbytes
      split at hbytes
      · cases hbytes
      · dsimp only at hbytes
        split at hbytes <;> cases hbytes
        cases h; rfl
    · cases h

/-- Settles O40: `trap_stops` with the delivery of `takeTrap_delivered`, and the effect of each return. -/
theorem trapInstructionResults : Obligations.TrapInstructionResults := by
  unfold Obligations.TrapInstructionResults
  intro o s t
  refine ⟨fun h => ⟨trap_stops h, fun htrial hfree hltv => ?_⟩, fun h => ?_, fun w s1 h hf => ?_, fun e h hf => tretSkip_stops h hf,
    fun h => ?_⟩
  · have htaken := takeTrap_delivered (s := s.setTh t) ((immBits o).extractLsb' 0 8) 0 (immBits o) 0 0 htrial hfree hltv
    simp only [State.setTh_th, BitVec.ofNat_eq_ofNat, BitVec.or_zero] at htaken
    exact (trap_stops h).trans (congrArg _ htaken)
  · rw [exec_tretRetry, execTretRetry]
    exact runJump_ok h (s' := s.setTh (t.returnTo t.ltip)) rfl
  · rw [tretSkip_skips h hf, fetchWord_th hf]
    rfl
  · rw [Completes, exec_tclr, execTclr]
    exact runTh_ok h rfl

end Sys2Proof.Proofs

/-!
Every instruction of a thread answers a next state, and keeps the module's registers, TIME, the port, the agenda, the step count and the
canonical form of memory (R40, R48, R290, R404, R407, R409).
-/
namespace Sys2Proof.Proofs
open Sys2Proof.Machine

/-! ### The frames answer -/

/-- A step answers a next state that keeps what lies outside threads and hardware. -/
def AnswersKeeping (s : State) (r : Host.Outcome State Fault Refusal) : Prop := ∃ s', r = .next s' ∧ Keeps s s'

section
variable {i : Instr} {s : State}

theorem enter_answers (k : State → State) : ∃ s', enter i s k = .next s' := by
  unfold enter
  split
  · exact ⟨_, rfl⟩
  · split
    · exact ⟨_, rfl⟩
    · dsimp only
      split
      · exact ⟨_, rfl⟩
      · split <;> exact ⟨_, rfl⟩

theorem enter_keeping {k : State → State} (hk : ∀ s, Keeps s (k s)) : AnswersKeeping s (enter i s k) := by
  obtain ⟨s', h⟩ := enter_answers (i := i) (s := s) k
  exact ⟨s', h, Keeps.enter hk h⟩

theorem run_keeping {body : State → Except Stop State} (hb : KeepsOk body) : AnswersKeeping s (run i s body) := by
  obtain ⟨s', h⟩ : ∃ s', run i s body = .next s' := enter_answers _
  exact ⟨s', h, Keeps.run hb h⟩

theorem runTh_keeping (body : Thread → Except Stop Thread) : AnswersKeeping s (runTh i s body) := by
  obtain ⟨s', h⟩ : ∃ s', runTh i s body = .next s' := enter_answers _
  exact ⟨s', h, Keeps.runTh h⟩

theorem runJump_keeping {body : State → Except Stop State} (hb : KeepsOk body) : AnswersKeeping s (runJump i s body) := by
  obtain ⟨s', h⟩ : ∃ s', runJump i s body = .next s' := enter_answers _
  exact ⟨s', h, Keeps.runJump hb h⟩

theorem runHeld_keeping {body : State → Except Stop State} (hb : KeepsOk body) : AnswersKeeping s (runHeld i s body) := by
  obtain ⟨s', h⟩ : ∃ s', runHeld i s body = .next s' := enter_answers _
  exact ⟨s', h, Keeps.runHeld hb h⟩

end

/-! ### The effects of the instructions that act on more than their thread -/

/-- A computation that goes on with the thread changed keeps the rest. -/
theorem keepsOk_setTh (f : State → Thread) : KeepsOk fun s => .ok (s.setTh (f s)) := fun s s' h => by cases h; exact Keeps.setTh ..

theorem keepsOk_self : KeepsOk fun s => .ok s := fun s s' h => by cases h; exact Keeps.refl s

theorem Keeps.noteGang (s : State) : Keeps s (noteGang s) := Keeps.setTh ..
theorem Keeps.showBank (s : State) : Keeps s (showBank s) := by
  unfold Machine.showBank
  split
  · exact Keeps.refl s
  · exact Keeps.mapHw _ _ id

theorem Keeps.readZxf {s s' : State} {space : Nat} {ea : DWord} {r1 r : Reach} {p : Pend} (h : readZxf s space ea r1 = .ok (p, r, s')) :
    Keeps s s' := by
  unfold Machine.readZxf at h
  obtain ⟨⟨q, u⟩, hu, h⟩ := Except.bind_ok h
  obtain ⟨r', -, h⟩ := Except.bind_ok h
  cases h
  exact Keeps.readNow hu

/-- What a ZXF load does once its first unit `p` has been read and its element is known to reach `r` (R225, R226): the destination is tested, and
the rest of the element becomes outstanding. -/
def placeZxf (s : State) (d : Nat) (rm : BitVec 3) (ea : DWord) (p : Pend) (r : Reach) : Except Stop State := do
  s.th.needFree d (zxfLength s.th.p / 32)
  if r.mt == 3 && r.lost s.hw then .error (xlateFault .load ea)
  else
    let u := touched s .load r
    let q := u.newPend (.xload u.th.p rm u.th.smin) d (zxfLength u.th.p / 32) 8 r
    let got := (List.range r.locs.length).map fun i => p.got.getD i none
    let v := noteGang (u.issuePend { q with got := got, sees := p.sees })
    if r.mt != 3 then .ok v
    else do
      let w ← performNow v q.id
      match w.hw.pends.find? fun x => x.id == q.id with
      | some x => .ok (afterStrong (completePend w x ((x.bytes).getD [])) r)
      | none => .ok w

/-- A ZXF load reads its first unit, once more where its element goes over onto a page of type 3, and places the rest. -/
theorem issueZxf_eq (s : State) (space : Nat) (ea : DWord) (d : Nat) (rm : BitVec 3) : issueZxf s space ea d rm = (do
    let r1 ← reach s .load space ea 1
    let u ← orderFirst s r1
    if r1.lost u.hw then .error (xlateFault .load ea)
    else do
      let (p, r, v) ← readZxf u space ea r1
      if r.mt == 3 && r1.mt != 3 then do
        let w ← orderAll u
        let (p, r, x) ← readZxf w space ea r1
        placeZxf x d rm ea p r
      else placeZxf v d rm ea p r) := rfl

theorem Keeps.placeZxf {s s' : State} {d : Nat} {rm : BitVec 3} {ea : DWord} {p : Pend} {r : Reach}
    (h : placeZxf s d rm ea p r = .ok s') : Keeps s s' := by
  unfold Proofs.placeZxf at h
  obtain ⟨-, -, h⟩ := Except.bind_ok h
  split at h
  · cases h
  · have hissued : ∀ q, Keeps s (Machine.noteGang ((Machine.touched s .load r).issuePend q)) := fun q =>
      (Keeps.touched ..).trans ((Keeps.issuePend ..).trans (Keeps.noteGang _))
    dsimp only at h
    split at h
    · cases h; exact hissued _
    · obtain ⟨x, hx, h⟩ := Except.bind_ok h
      split at h
      · cases h; exact ((hissued _).trans (Keeps.performNow hx)).trans ((Keeps.completePend ..).trans (Keeps.afterStrong ..))
      · cases h; exact (hissued _).trans (Keeps.performNow hx)

theorem Keeps.issueZxf {s s' : State} {space d : Nat} {ea : DWord} {rm : BitVec 3} (h : issueZxf s space ea d rm = .ok s') :
    Keeps s s' := by
  rw [issueZxf_eq] at h
  obtain ⟨r1, -, h⟩ := Except.bind_ok h
  obtain ⟨u, hu, h⟩ := Except.bind_ok h
  split at h
  · cases h
  · obtain ⟨⟨p, r, v⟩, hv, h⟩ := Except.bind_ok h
    dsimp only at h
    split at h
    · obtain ⟨w, hw, h⟩ := Except.bind_ok h
      obtain ⟨⟨p', r', x⟩, hx, h⟩ := Except.bind_ok h
      exact (Keeps.orderFirst hu).trans ((Keeps.orderAll hw).trans ((Keeps.readZxf hx).trans (Keeps.placeZxf h)))
    · exact (Keeps.orderFirst hu).trans ((Keeps.readZxf hv).trans (Keeps.placeZxf h))

theorem execLd_keeping (k : BitVec 2) (o : LaneOps) (s : State) : AnswersKeeping s (execLd k o s) :=
  run_keeping fun s s' h => by
    obtain ⟨-, -, h⟩ := Except.bind_ok h
    obtain ⟨r, -, h⟩ := Except.bind_ok h
    obtain ⟨-, -, h⟩ := Except.bind_ok h
    exact Keeps.issueLoad h

theorem execSt_keeping (k : BitVec 2) (o : LaneOps) (s : State) : AnswersKeeping s (execSt k o s) :=
  run_keeping fun s s' h => by
    obtain ⟨-, -, h⟩ := Except.bind_ok h
    exact Keeps.storeNow h

theorem execXld_keeping (k : BitVec 2) (o : LaneOps) (s : State) : AnswersKeeping s (execXld k o s) :=
  run_keeping fun s s' h => by
    obtain ⟨-, -, h⟩ := Except.bind_ok h
    exact Keeps.issueZxf h

theorem execXst_keeping (k : BitVec 2) (o : LaneOps) (s : State) : AnswersKeeping s (execXst k o s) :=
  run_keeping fun s s' h => by
    obtain ⟨-, -, h⟩ := Except.bind_ok h
    obtain ⟨-, -, h⟩ := Except.bind_ok h
    obtain ⟨z, -, h⟩ := Except.bind_ok h
    exact Keeps.issueStore h

theorem execSld_keeping (k : BitVec 3) (o : ScalarOps) (s : State) : AnswersKeeping s (execSld k o s) :=
  runHeld_keeping fun s s' h => by
    obtain ⟨r, -, h⟩ := Except.bind_ok h
    obtain ⟨u, hu, h⟩ := Except.bind_ok h
    split at h
    · cases h; exact (Keeps.issueLoad hu).trans (Keeps.advance ..)
    · cases h; exact (Keeps.issueLoad hu).trans ((Keeps.setTh ..).trans (Keeps.hold ..))

theorem execSst_keeping (k : BitVec 2) (o : ScalarOps) (s : State) : AnswersKeeping s (execSst k o s) :=
  run_keeping fun _ _ h => Keeps.storeNow h

theorem Keeps.releaseFirst {s s' : State} {scope : Nat} {mod : BitVec 5} (h : releaseFirst s scope mod = .ok s') : Keeps s s' := by
  unfold Machine.releaseFirst at h
  split at h
  · cases h; exact Keeps.refl s
  · split at h
    · exact Keeps.orderAll h
    · split at h
      · exact Keeps.orderCrew h
      · exact Keeps.orderCore h

theorem amo_keeping (i : Instr) (o : LaneOps) (op : AmoOp) (n : Nat) (s : State) : AnswersKeeping s (amo i o op n s) :=
  run_keeping fun s s' h => by
    obtain ⟨-, -, h⟩ := Except.bind_ok h
    obtain ⟨r, -, h⟩ := Except.bind_ok h
    obtain ⟨-, -, h⟩ := Except.bind_ok h
    obtain ⟨u, hu, h⟩ := Except.bind_ok h
    obtain ⟨v, hv, h⟩ := Except.bind_ok h
    have hk := (Keeps.releaseFirst hu).trans (Keeps.issueAccess hv)
    have hrest : ∀ (acquire : Bool) (p : Nat → Bool), (if acquire = true then (performNow v u.hw.nextId).map fun w => forget w p
        else .ok v) = .ok s' → Keeps s s' := by
      intro acquire p h
      split at h
      · exact Keeps.map (fun w => Keeps.forget w p) (fun _ h => hk.trans (Keeps.performNow h)) h
      · cases h; exact hk
    exact hrest _ _ h

/-- A cross-lane instruction, which has a frame of its own (R206). -/
theorem lanes_keeping (i : Instr) (o : LaneOps) (s : State) : AnswersKeeping s (lanes i o s) := by
  unfold lanes
  split
  · exact ⟨_, rfl, Keeps.stopped ..⟩
  · split
    · exact ⟨_, rfl, Keeps.setTh ..⟩
    · dsimp only
      split
      · exact ⟨_, rfl, (Keeps.setTh ..).trans (Keeps.stopped ..)⟩
      · split
        · split
          · exact ⟨_, rfl, (Keeps.setTh ..).trans ((Keeps.setTh ..).trans (Keeps.advance ..))⟩
          · exact ⟨_, rfl, (Keeps.setTh ..).trans (Keeps.advance ..)⟩
        · split
          · exact ⟨_, rfl, (Keeps.setTh ..).trans (Keeps.stopped ..)⟩
          · exact ⟨_, rfl, (Keeps.setTh ..).trans ((Keeps.mapHw _ _ id).trans ((Keeps.hold ..).trans (Keeps.settleRendezvous ..)))⟩

theorem execXtag_keeping (o : LaneOps) (s : State) : AnswersKeeping s (execXtag o s) :=
  enter_keeping fun s => by
    dsimp only
    split
    · exact (Keeps.setTh ..).trans (Keeps.advance ..)
    · exact (Keeps.setTh ..).trans (Keeps.stopped ..)

/-! ### Control -/

theorem execCall_keeping (o : ScalarOps) (s : State) : AnswersKeeping s (execCall o s) :=
  runJump_keeping fun s s' h => by
    obtain ⟨u, hu, h⟩ := Except.bind_ok h
    cases h
    exact (Keeps.push hu).trans (Keeps.setTh ..)

theorem execCalli_keeping (o : ScalarOps) (s : State) : AnswersKeeping s (execCalli o s) :=
  runJump_keeping fun s s' h => by
    obtain ⟨u, hu, h⟩ := Except.bind_ok h
    cases h
    exact (Keeps.push hu).trans (Keeps.setTh ..)

theorem execRet_keeping (o : ScalarOps) (s : State) : AnswersKeeping s (execRet o s) :=
  runJump_keeping fun s s' h => by
    dsimp only at h
    split at h
    · cases h
    · obtain ⟨⟨bs, u⟩, hu, h⟩ := Except.bind_ok h
      cases h
      exact (Keeps.loadNow hu).trans (Keeps.setTh ..)

theorem execSpawn_keeping (o : ScalarOps) (s : State) : AnswersKeeping s (execSpawn o s) :=
  run_keeping fun s s' h => by
    obtain ⟨-, -, h⟩ := Except.bind_ok h
    obtain ⟨u, hu, h⟩ := Except.bind_ok h
    cases h
    exact (Keeps.orderAll hu).trans (Keeps.issuePend ..)

theorem execAwait_keeping (o : ScalarOps) (s : State) : AnswersKeeping s (execAwait o s) :=
  run_keeping fun s s' h => by
    obtain ⟨-, -, h⟩ := Except.bind_ok h
    dsimp only at h
    split at h
    · cases h; exact Keeps.setTh ..
    · cases h; exact Keeps.issuePend ..

theorem Keeps.exitThread (s : State) (v : DWord) : Keeps s (exitThread s v) := by
  unfold Machine.exitThread
  refine (Keeps.leaveCrew s _).trans ((Keeps.mapHw _ _ fun hm => ?_).trans
    ((Keeps.dropThread ..).trans ((Keeps.settleExited ..).trans (Keeps.settleRegions ..))))
  rw [noteRan_mem]
  split <;> exact hm

theorem execExit_keeping (o : ScalarOps) (s : State) : AnswersKeeping s (execExit o s) :=
  runHeld_keeping fun s s' h => by
    split at h
    · cases h; exact (Keeps.settled s).trans (Keeps.setTh ..)
    · obtain ⟨u, hu, h⟩ := Except.bind_ok h
      cases h
      exact (Keeps.orderAll hu).trans (Keeps.exitThread ..)

theorem execTretSkip_keeping (o : ScalarOps) (s : State) : AnswersKeeping s (execTretSkip o s) :=
  runJump_keeping fun s s' h => by
    obtain ⟨⟨w, u⟩, hu, h⟩ := Except.bind_ok h
    cases h
    exact (Keeps.fetchWord hu).trans (Keeps.setTh ..)

theorem execCsrr_keeping (o : ScalarOps) (s : State) : AnswersKeeping s (execCsrr o s) :=
  run_keeping fun s s' h => by
    obtain ⟨old, -, h⟩ := Except.bind_ok h
    cases h
    exact Keeps.setTh ..

theorem csrChange_keeping (i : Instr) (o : ScalarOps) (f : DWord → DWord → DWord) (s : State) : AnswersKeeping s (csrChange i o f s) :=
  run_keeping fun s s' h => by
    obtain ⟨old, -, h⟩ := Except.bind_ok h
    split at h
    · cases h
    · split at h
      · cases h; exact Keeps.setTh ..
      · cases h

/-! ### Crews and ordering -/

theorem Keeps.joinCrew (s : State) (key : DWord) : Keeps s (joinCrew s key) := by
  unfold Machine.joinCrew
  dsimp only
  split
  · exact (Keeps.mapHw s (fun h => h.setCtx _) id).trans (Keeps.setTh ..)
  · exact (Keeps.mapHw s (fun h => h.setCtx _) id).trans ((Keeps.tick ..).trans (Keeps.setTh ..))

theorem execCjoin_keeping (o : ScalarOps) (s : State) : AnswersKeeping s (execCjoin o s) :=
  run_keeping fun s s' h => by
    dsimp only at h
    split at h
    · cases h; exact Keeps.setTh ..
    · cases h; exact (Keeps.joinCrew ..).trans (Keeps.setTh ..)

theorem execCpart_keeping (o : ScalarOps) (s : State) : AnswersKeeping s (execCpart o s) :=
  run_keeping fun s s' h => by cases h; exact Keeps.leaveCrew ..

theorem Keeps.arrive {s s' : State} {x : Crew} {compact : Bool} (h : arrive s x compact = .ok s') : Keeps s s' := by
  unfold Machine.arrive at h
  split at h
  · cases h; exact (Keeps.mapHw s (fun h => h.setCtx _) id).trans (Keeps.setTh ..)
  · split at h
    · cases h; exact Keeps.setTh ..
    · cases h

theorem Keeps.settleArrival (s : State) : Keeps s (settleArrival s) := Keeps.settlePhase ..

theorem execCarrive_keeping (o : ScalarOps) (s : State) : AnswersKeeping s (execCarrive o s) :=
  runHeld_keeping fun s s' h => by
    split at h
    · cases h; exact Keeps.advance ..
    · split at h
      · cases h
      · obtain ⟨u, hu, h⟩ := Except.bind_ok h
        obtain ⟨v, hv, h⟩ := Except.bind_ok h
        cases h
        exact (Keeps.orderCore hu).trans ((Keeps.showBank u).trans ((Keeps.arrive hv).trans ((Keeps.advance ..).trans (Keeps.settleArrival _))))

theorem barrier_keeping (i : Instr) (compact : Bool) (s : State) : AnswersKeeping s (barrier i compact s) :=
  runHeld_keeping fun s s' h => by
    split at h
    · cases h; exact Keeps.advance ..
    · split at h
      · cases h
      · obtain ⟨u, hu, h⟩ := Except.bind_ok h
        obtain ⟨v, hv, h⟩ := Except.bind_ok h
        cases h
        exact (Keeps.orderCore hu).trans ((Keeps.showBank u).trans ((Keeps.arrive hv).trans
          ((Keeps.setTh ..).trans ((Keeps.hold ..).trans (Keeps.settleArrival _)))))

theorem execCwait_keeping (o : ScalarOps) (s : State) : AnswersKeeping s (execCwait o s) :=
  run_keeping fun s s' h => by
    split at h
    · cases h
    · cases h; exact Keeps.refl s

theorem Keeps.flushThose {s s' : State} {p : Pend → Bool} (h : flushThose s p = .ok s') : Keeps s s' :=
  Keeps.unlessConsumed (Keeps.mapHw _ _ fun hm => foldl_hw_swf perform (fun _ q hm => perform_swf q hm) _ _ hm) h

theorem Keeps.dropL1 (s : State) (part core : Nat) : Keeps s (s.mapHw fun h => dropL1 h part core) := Keeps.mapHw _ _ id
theorem Keeps.dropCon (s : State) (part core : Nat) : Keeps s (s.mapHw fun h => dropCon h part core) := Keeps.mapHw _ _ id
theorem Keeps.knowBank (s : State) : Keeps s (knowBank s) := Keeps.setTh ..
theorem Keeps.renewConRead (s : State) : Keeps s (renewConRead s) := (Keeps.onCore ..).trans (Keeps.setTh ..)

/-- Of two steps that keep it, whichever is taken keeps it. -/
theorem Keeps.ite {s u v : State} (c : Bool) (hu : Keeps s u) (hv : Keeps s v) : Keeps s (if c = true then u else v) := by
  cases c
  · exact hv
  · exact hu

/-- A step that is taken or not. -/
theorem Keeps.whenTrue {f : State → State} (c : Bool) (s : State) (hf : ∀ s, Keeps s (f s)) : Keeps s (if c = true then f s else s) :=
  Keeps.ite c (hf s) (Keeps.refl s)

theorem execFence_keeping (o : ScalarOps) (s : State) : AnswersKeeping s (execFence o s) :=
  run_keeping fun s s' h => by
    dsimp only at h
    generalize (if (s.th.mode == .z1) = true then 0 else (o.mod.extractLsb' 0 3).toNat) = scope at h
    split at h
    · cases h; exact Keeps.refl s
    · obtain ⟨u, hu, h⟩ := Except.bind_ok h
      cases h
      have hforgot : ∀ p, Keeps s (forget (Machine.showBank (Machine.drainOwn u)) p) := fun p =>
        (Keeps.flushThose hu).trans ((Keeps.drainOwn u).trans ((Keeps.showBank _).trans (Keeps.forget ..)))
      exact Keeps.ite _ ((hforgot _).trans ((Keeps.drainCore _).trans (Keeps.dropL1 ..)))
        (Keeps.ite _ (hforgot _) (Keeps.ite _ ((hforgot _).trans (Keeps.showCrew _)) ((hforgot _).trans (Keeps.showOwn _))))

theorem execPfence_keeping (o : ScalarOps) (s : State) : AnswersKeeping s (execPfence o s) :=
  run_keeping fun s s' h => by
    obtain ⟨u, hu, h⟩ := Except.bind_ok h
    cases h
    refine Keeps.trans ?_ (Keeps.whenTrue (f := fun s => s.mapHw fun h => dropCon h s.th.key.part s.th.key.core) _ _ fun s => Keeps.dropCon ..)
    refine Keeps.trans ?_ (Keeps.whenTrue (f := knowBank) _ _ Keeps.knowBank)
    refine Keeps.trans ?_ (Keeps.whenTrue (f := renewConRead) _ _ Keeps.renewConRead)
    refine Keeps.trans ?_ (Keeps.whenTrue (f := drainCore) _ _ Keeps.drainCore)
    refine Keeps.trans ?_ (Keeps.whenTrue (f := drainOwn) _ _ Keeps.drainOwn)
    exact (Keeps.flushThose hu).trans (Keeps.forget ..)

theorem waitc_keeping (i : Instr) (o : ScalarOps) (c : EngineClass) (s : State) : AnswersKeeping s (waitc i o c s) :=
  run_keeping fun s s' h => by
    split at h
    · cases h; exact (Keeps.dropCon ..).trans ((Keeps.onCore ..).trans (Keeps.forget ..))
    · cases h

/-! ### Engines, trials and queues -/

theorem Keeps.newId (s : State) : Keeps s s.newId.2 := Keeps.mapHw s (fun h => { h with nextId := h.nextId + 1 }) id

theorem Keeps.queueMx (s : State) (b : Issuer) (high : Bool) (op : MxOp) : Keeps s (queueMx s b high op) :=
  (Keeps.newId s).trans (Keeps.mapCtx s.newId.2 s.newId.2.th.key.part s.newId.2.th.key.core fun c =>
    ({ c with mxq := c.mxq ++ [⟨s.newId.1, b, high, op, false⟩] } : Ctx).clearLines s.newId.2.th.launch op.lines)

theorem execObres_keeping (o : ScalarOps) (s : State) : AnswersKeeping s (execObres o s) :=
  run_keeping fun s s' h => by
    obtain ⟨⟨bs, u⟩, hu, h⟩ := Except.bind_ok h
    obtain ⟨-, -, h⟩ := Except.bind_ok h
    dsimp only at h
    split at h
    · cases h; exact (Keeps.readBlock hu).trans (Keeps.setTh ..)
    · cases h; exact (Keeps.readBlock hu).trans ((Keeps.mapCtx ..).trans ((Keeps.tick ..).trans (Keeps.setTh ..)))

theorem execObrel_keeping (o : ScalarOps) (s : State) : AnswersKeeping s (execObrel o s) :=
  run_keeping fun s s' h => by cases h; exact Keeps.mapCtx ..

theorem execMxgo_keeping (o : ScalarOps) (s : State) : AnswersKeeping s (execMxgo o s) :=
  run_keeping fun s s' h => by
    obtain ⟨-, -, h⟩ := Except.bind_ok h
    obtain ⟨⟨bs, u⟩, hu, h⟩ := Except.bind_ok h
    dsimp only at h
    split at h
    · cases h
    · obtain ⟨-, -, h⟩ := Except.bind_ok h
      obtain ⟨⟨b, v⟩, hv, h⟩ := Except.bind_ok h
      cases h
      exact (Keeps.loadNow hu).trans ((Keeps.countCommand hv).trans (Keeps.queueMx ..))

theorem execMxclr_keeping (o : ScalarOps) (s : State) : AnswersKeeping s (execMxclr o s) :=
  run_keeping fun s s' h => by
    obtain ⟨-, -, h⟩ := Except.bind_ok h
    obtain ⟨-, -, h⟩ := Except.bind_ok h
    obtain ⟨⟨b, u⟩, hu, h⟩ := Except.bind_ok h
    cases h
    exact (Keeps.countCommand hu).trans (Keeps.queueMx ..)

theorem execAccwr_keeping (o : ScalarOps) (s : State) : AnswersKeeping s (execAccwr o s) :=
  run_keeping fun s s' h => by
    obtain ⟨-, -, h⟩ := Except.bind_ok h
    obtain ⟨-, -, h⟩ := Except.bind_ok h
    obtain ⟨-, -, h⟩ := Except.bind_ok h
    obtain ⟨⟨b, u⟩, hu, h⟩ := Except.bind_ok h
    cases h
    exact (Keeps.countCommand hu).trans (Keeps.queueMx ..)

theorem execAccrd_keeping (o : ScalarOps) (s : State) : AnswersKeeping s (execAccrd o s) :=
  run_keeping fun s s' h => by
    split at h
    · cases h
    · split at h
      · obtain ⟨-, -, h⟩ := Except.bind_ok h
        obtain ⟨⟨b, u⟩, hu, h⟩ := Except.bind_ok h
        cases h
        exact (Keeps.countCommand hu).trans (Keeps.queueMx ..)
      · obtain ⟨-, -, h⟩ := Except.bind_ok h
        obtain ⟨-, -, h⟩ := Except.bind_ok h
        obtain ⟨⟨b, u⟩, hu, h⟩ := Except.bind_ok h
        cases h
        exact (Keeps.plainCommand hu).trans ((Keeps.queueMx ..).trans (Keeps.setTh ..))

theorem Keeps.issueCopy {s s' : State} {c : CopyCmd} (h : issueCopy s c = .ok s') : Keeps s s' := by
  unfold Machine.issueCopy at h
  split at h
  · cases h
  · obtain ⟨⟨b, u⟩, hu, h⟩ := Except.bind_ok h
    cases h
    exact (Keeps.countCommand hu).trans ((Keeps.newId u).trans (Keeps.mapCtx ..))

theorem cpy_keeping (i : Instr) (o : ScalarOps) (kind : CopyKind) (s : State) : AnswersKeeping s (cpy i o kind s) :=
  run_keeping fun s s' h => by
    obtain ⟨⟨bs, u⟩, hu, h⟩ := Except.bind_ok h
    dsimp only at h
    split at h
    · cases h
    · exact (Keeps.readBlock hu).trans (Keeps.issueCopy h)

theorem execCbwr_keeping (o : ScalarOps) (s : State) : AnswersKeeping s (execCbwr o s) :=
  run_keeping fun s s' h => by
    split at h
    · cases h
    · exact Keeps.issueCopy h

theorem execSelRun_keeping (o : ScalarOps) (s : State) : AnswersKeeping s (execSelRun o s) :=
  run_keeping fun s s' h => by
    obtain ⟨⟨bs, u⟩, hu, h⟩ := Except.bind_ok h
    obtain ⟨-, -, h⟩ := Except.bind_ok h
    split at h
    · cases h
    · obtain ⟨⟨b, v⟩, hv, h⟩ := Except.bind_ok h
      cases h
      exact (Keeps.readBlock hu).trans ((Keeps.countCommand hv).trans ((Keeps.newId v).trans (Keeps.mapCtx ..)))

theorem Keeps.takeTid (s : State) : Keeps s (takeTid s) := by
  unfold Machine.takeTid
  split
  · exact Keeps.mapHw _ _ id
  · exact Keeps.refl s

theorem execTrial_keeping (o : ScalarOps) (s : State) : AnswersKeeping s (execTrial o s) :=
  run_keeping fun s s' h => by
    obtain ⟨-, -, h⟩ := Except.bind_ok h
    obtain ⟨⟨bs, u⟩, hu, h⟩ := Except.bind_ok h
    obtain ⟨-, -, h⟩ := Except.bind_ok h
    dsimp only at h
    split at h
    · cases h; exact (Keeps.readBlock hu).trans (Keeps.setTh ..)
    · obtain ⟨⟨b, v⟩, hv, h⟩ := Except.bind_ok h
      cases h
      exact (Keeps.readBlock hu).trans ((Keeps.countCommand hv).trans ((Keeps.newId v).trans ((Keeps.takeTid _).trans
        ((Keeps.mapHw _ _ id).trans (Keeps.setTh ..)))))

theorem execLqput_keeping (o : ScalarOps) (s : State) : AnswersKeeping s (execLqput o s) :=
  run_keeping fun s s' h => by
    obtain ⟨-, -, h⟩ := Except.bind_ok h
    obtain ⟨⟨bs, u⟩, hu, h⟩ := Except.bind_ok h
    dsimp only at h
    split at h
    · split at h
      · obtain ⟨v, hv, h⟩ := Except.bind_ok h
        cases h
        exact (Keeps.readBlock hu).trans ((Keeps.orderAll hv).trans (Keeps.mapHw _ _ fun hm => by split <;> exact hm))
      · split at h
        · cases h
        · obtain ⟨v, hv, h⟩ := Except.bind_ok h
          cases h
          exact (Keeps.readBlock hu).trans ((Keeps.orderAll hv).trans (Keeps.mapHw _ _ id))
    · cases h

theorem Keeps.setBudget (s : State) (b : Budget) : Keeps s (s.mapHw fun h => h.setBudget b) := Keeps.mapHw _ _ id

theorem execPermit_keeping (o : ScalarOps) (s : State) : AnswersKeeping s (execPermit o s) :=
  runHeld_keeping fun s s' h => by
    obtain ⟨-, -, h⟩ := Except.bind_ok h
    dsimp only at h
    split at h
    · cases h; exact (Keeps.setBudget ..).trans (Keeps.advance ..)
    · split at h
      · cases h; exact (Keeps.setTh ..).trans ((Keeps.setBudget ..).trans (Keeps.advance ..))
      · cases h; exact (Keeps.setBudget ..).trans (Keeps.stopped ..)

/-! ### The shared operations -/

theorem intOp_keeping (i o third f s) : AnswersKeeping s (intOp i o third f s) := runTh_keeping _
theorem intBin_keeping (i o f s) : AnswersKeeping s (intBin i o f s) := intOp_keeping ..
theorem intUn_keeping (i o f s) : AnswersKeeping s (intUn i o f s) := runTh_keeping _
theorem intDivide_keeping (i o f s) : AnswersKeeping s (intDivide i o f s) := runTh_keeping _
theorem intCmp_keeping (i o f s) : AnswersKeeping s (intCmp i o f s) := runTh_keeping _
theorem floatBin_keeping (i o f s) : AnswersKeeping s (floatBin i o f s) := runTh_keeping _
theorem floatUn_keeping (i o f s) : AnswersKeeping s (floatUn i o f s) := runTh_keeping _
theorem floatCmp_keeping (i o f un sig s) : AnswersKeeping s (floatCmp i o f un sig s) := runTh_keeping _
theorem zxfSum_keeping (i o f s) : AnswersKeeping s (zxfSum i o f s) := runTh_keeping _
theorem zxfMinMax_keeping (i o big s) : AnswersKeeping s (zxfMinMax i o big s) := runTh_keeping _
theorem scalarBin_keeping (i o f s) : AnswersKeeping s (scalarBin i o f s) := runTh_keeping _
theorem scalarUn_keeping (i o f s) : AnswersKeeping s (scalarUn i o f s) := runTh_keeping _
theorem scalarCmp_keeping (i o f s) : AnswersKeeping s (scalarCmp i o f s) := runTh_keeping _
theorem scalarDivide_keeping (i o f s) : AnswersKeeping s (scalarDivide i o f s) := runTh_keeping _

/-! ### Every instruction -/


/-- Every instruction of a thread answers a next state and keeps what lies outside threads and hardware, by the frame that it runs in. -/
theorem exec_keeping (i : Instr) (s : State) (hi : i.form ≠ .step) : AnswersKeeping s (exec i s) := by
  unfold exec
  cases i with
  | iadd o | isub o | imin o | imax o | iand o | ior o | ixor o | iandn o | ishl o | ishr o | isar o | irotl o | imul o | imulh o
  | ibfx o => dsimp only; exact intBin_keeping ..
  | imad o | ibfi o => dsimp only; exact intOp_keeping ..
  | iabs o | iclz o | ictz o | iffs o | ipopc o | ibrev o => dsimp only; exact intUn_keeping ..
  | idiv o | irem o => dsimp only; exact intDivide_keeping ..
  | icmpEq o | icmpNe o | icmpLt o | icmpLe o | icmpGt o | icmpGe o => dsimp only; exact intCmp_keeping ..
  | fadd o | fsub o | fmul o | fmin o | fmax o | fdiv o => dsimp only; exact floatBin_keeping ..
  | fsqrt o | frcp o | frsq o | fexp2 o | flog2 o => dsimp only; exact floatUn_keeping ..
  | fcmpEq o | fcmpNe o | fcmpLt o | fcmpLe o | fcmpGt o | fcmpGe o | fcmpUn o => dsimp only; exact floatCmp_keeping ..
  | xadd o | xsub o => dsimp only; exact zxfSum_keeping ..
  | xmin o | xmax o => dsimp only; exact zxfMinMax_keeping ..
  | add o | sub o | minI o | maxI o | minN o | maxN o | and o | or o | xor o | andn o | shl o | shr o | sar o | rotl o | mul o | mulhI o
  | mulhN o | bfx o => dsimp only; exact scalarBin_keeping ..
  | divI o | divN o | remI o | remN o => dsimp only; exact scalarDivide_keeping ..
  | clz o | ctz o | ffs o | popc o | brev o => dsimp only; exact scalarUn_keeping ..
  | cmpEq o | cmpNe o | cmpLtI o | cmpLeI o | cmpLtN o | cmpLeN o => dsimp only; exact scalarCmp_keeping ..
  | isel o | iord o | vmov o | smovTov o | smovTos o | movpTov o | movpTop o | ffma o | fclass o | fcvt f o | xmul o | xfma o | xdiv o
  | xsqrt o | xcmp o | xrndP o | xrndInt o | xcvt o | xscale o | xsigGet o | xsigSet o | sigfB32 o | sigfB64 o | sel o | plop o | movi o
  | movhi o | bfi o | tclr o | rand o => dsimp only; exact runTh_keeping _
  | amoAddB32 o | amoAddB64 o | amoMinI32 o | amoMinN32 o | amoMaxI32 o | amoMaxN32 o | amoAndB32 o | amoOrB32 o | amoXorB32 o
  | amoSwapB32 o | amoSwapB64 o | amoCasB32 o | amoCasB64 o | amoCasB128 o | amoFaddF32 o => dsimp only; exact amo_keeping ..
  | shflIdx o | shflUp o | shflDown o | shflXor o | voteAny o | voteAll o | voteBallot o | voteUniform o | red o | scanIncl o
  | scanExcl o | permbNib o | permbByte o => dsimp only; exact lanes_keeping ..
  | br o | jmp o | csw o | tretRetry o => dsimp only; exact runJump_keeping (keepsOk_setTh _)
  | nop o | yield o => dsimp only; exact run_keeping keepsOk_self
  | trap o => dsimp only; exact runJump_keeping fun _ _ h => nomatch h
  | ccompact o | cbar o => dsimp only; exact barrier_keeping ..
  | waitcCopy o | waitcMatrix o | waitcSelect o | waitcTrial o => dsimp only; exact waitc_keeping ..
  | csrw o | csrs o | csrc o => dsimp only; exact csrChange_keeping ..
  | cpyCopy o | cpyFill o | cpyLook o => dsimp only; exact cpy_keeping ..
  | xtag o => dsimp only; exact execXtag_keeping o s
  | ld k o => dsimp only; exact execLd_keeping k o s
  | st k o => dsimp only; exact execSt_keeping k o s
  | xld k o => dsimp only; exact execXld_keeping k o s
  | xst k o => dsimp only; exact execXst_keeping k o s
  | call o => dsimp only; exact execCall_keeping o s
  | calli o => dsimp only; exact execCalli_keeping o s
  | ret o => dsimp only; exact execRet_keeping o s
  | spawn o => dsimp only; exact execSpawn_keeping o s
  | await o => dsimp only; exact execAwait_keeping o s
  | exit o => dsimp only; exact execExit_keeping o s
  | cjoin o => dsimp only; exact execCjoin_keeping o s
  | cpart o => dsimp only; exact execCpart_keeping o s
  | carrive o => dsimp only; exact execCarrive_keeping o s
  | cwait o => dsimp only; exact execCwait_keeping o s
  | fence o => dsimp only; exact execFence_keeping o s
  | pfence o => dsimp only; exact execPfence_keeping o s
  | csrr o => dsimp only; exact execCsrr_keeping o s
  | tretSkip o => dsimp only; exact execTretSkip_keeping o s
  | obres o => dsimp only; exact execObres_keeping o s
  | obrel o => dsimp only; exact execObrel_keeping o s
  | mxgo o => dsimp only; exact execMxgo_keeping o s
  | mxclr o => dsimp only; exact execMxclr_keeping o s
  | accrd o => dsimp only; exact execAccrd_keeping o s
  | accwr o => dsimp only; exact execAccwr_keeping o s
  | selRun o => dsimp only; exact execSelRun_keeping o s
  | trial o => dsimp only; exact execTrial_keeping o s
  | cbwr o => dsimp only; exact execCbwr_keeping o s
  | lqput o => dsimp only; exact execLqput_keeping o s
  | permit o => dsimp only; exact execPermit_keeping o s
  | sld k o => dsimp only; exact execSld_keeping k o s
  | sst k o => dsimp only; exact execSst_keeping k o s
  | _ => exact absurd rfl hi

/-- Settles O60 by `exec_keeping`. -/
theorem instructionsKeepModuleAndTime : Obligations.InstructionsKeepModuleAndTime := by
  unfold Obligations.InstructionsKeepModuleAndTime
  intro i s hi
  obtain ⟨s', hs, hmod, htime, hport, hagenda, hticks, hmem⟩ := exec_keeping i s hi
  exact ⟨s', hs, hmod, htime, hport, hagenda, hticks, hmem⟩

end Sys2Proof.Proofs

/-!
Empty sources (R37, R46, R47): the empty check that an instruction makes first names the lowest empty cell of its sources.
-/
namespace Sys2Proof.Proofs
open Sys2Proof.Machine

/-! ### The least element of a list -/

theorem minBy_eq_none {α : Type} {f : α → Nat} {xs : List α} : minBy f xs = none ↔ xs = [] := by
  cases xs with
  | nil => simp [minBy]
  | cons x xs => cases h : minBy f xs <;> simp [minBy, h]; split <;> simp

/-- What `minBy` answers is of the list, and no element of it is less. -/
theorem minBy_eq_some {α : Type} {f : α → Nat} {xs : List α} {x : α} (h : minBy f xs = some x) : x ∈ xs ∧ ∀ y ∈ xs, f x ≤ f y := by
  induction xs generalizing x with
  | nil => cases h
  | cons z zs ih =>
    cases hm : minBy f zs with
    | none =>
      simp only [minBy, hm, Option.some.injEq] at h
      simp [h, minBy_eq_none.1 hm]
    | some y =>
      obtain ⟨hy, hle⟩ := ih hm
      simp only [minBy, hm] at h
      split at h
      · next hlt =>
        cases h
        exact ⟨List.mem_cons_of_mem _ hy, List.forall_mem_cons.2 ⟨Nat.le_of_lt hlt, hle⟩⟩
      · next hge =>
        cases h
        exact ⟨List.mem_cons_self, List.forall_mem_cons.2 ⟨Nat.le_refl _, fun w hw => Nat.le_trans (Nat.le_of_not_lt hge) (hle w hw)⟩⟩

/-! ### The empty check -/

/-- The cell that the search for an empty one finds is empty, and the cells before it are full. -/
theorem firstEmpty_some {t : Thread} {i n c : Nat} (h : t.firstEmpty i n = some c) :
    i ≤ c ∧ c < i + n ∧ (t.cell c).full = false ∧ ∀ j, i ≤ j → j < c → (t.cell j).full = true := by
  induction n generalizing i with
  | zero => cases h
  | succ n ih =>
    simp only [Thread.firstEmpty] at h
    split at h
    · next hf =>
      obtain ⟨h1, h2, h3, h4⟩ := ih h
      refine ⟨by omega, by omega, h3, fun j hi hj => ?_⟩
      rcases Nat.eq_or_lt_of_le hi with rfl | hlt
      · exact hf
      · exact h4 j hlt hj
    · next hf =>
      cases h
      exact ⟨Nat.le_refl _, by omega, by simpa using hf, by omega⟩

theorem mem_empties {t : Thread} {xs : List Source} {e : Nat × Nat} :
    e ∈ t.empties xs ↔ ∃ x ∈ xs, t.firstEmpty x.2.1 x.2.2 = some e.1 ∧ x.1 = e.2 := by
  obtain ⟨c, f⟩ := e
  simp [Thread.empties]

theorem sourcesFull_of_empties_nil {t : Thread} {xs : List Source} (h : t.empties xs = []) : t.sourcesFull xs := by
  intro x hx
  refine (t.firstEmpty_none _ _).1 (Option.eq_none_iff_forall_not_mem.2 fun c hc => ?_)
  have he : (c, x.1) ∈ t.empties xs := mem_empties.2 ⟨x, hx, hc, rfl⟩
  simp [h] at he

/-- A cell is the lowest empty one of some sources, and the field names a source that holds it (R46). -/
def LowestEmpty (t : Thread) (xs : List Source) (c field : Nat) : Prop :=
  (t.cell c).full = false ∧ (∃ x ∈ xs, x.1 = field ∧ x.2.1 ≤ c ∧ c < x.2.1 + x.2.2) ∧
    ∀ x ∈ xs, ∀ j, x.2.1 ≤ j → j < x.2.1 + x.2.2 → j < c → (t.cell j).full = true

theorem lowestEmpty_of_minBy {t : Thread} {xs : List Source} {e : Nat × Nat} (h : minBy Prod.fst (t.empties xs) = some e) :
    LowestEmpty t xs e.1 e.2 := by
  obtain ⟨hmem, hle⟩ := minBy_eq_some h
  obtain ⟨x, hx, hfirst, hfield⟩ := mem_empties.1 hmem
  obtain ⟨hlo, hhi, hempty, -⟩ := firstEmpty_some hfirst
  refine ⟨hempty, ⟨x, hx, hfield, hlo, hhi⟩, fun y hy j hj1 hj2 hj => ?_⟩
  cases hf : t.firstEmpty y.2.1 y.2.2 with
  | none => exact (t.firstEmpty_none _ _).1 hf j hj1 hj2
  | some c =>
    have hc : e.1 ≤ c := hle (c, y.1) (mem_empties.2 ⟨y, hy, hf, rfl⟩)
    exact (firstEmpty_some hf).2.2.2 j hj1 (by omega)

/-- With an empty source, the empty check waits or raises EMPTY with the lowest empty cell (R37, R46, R47). -/
theorem needAll_empty {t : Thread} {xs : List Source} (h : ¬ t.sourcesFull xs) (ep : Bool) :
    ∃ c field, LowestEmpty t xs c field ∧ t.needAll ep xs =
      .error (if ep = true then .trap 0x90 (BitVec.ofNat 8 field) (BitVec.ofNat 64 c) 0 0 else .wait .emptyCell) := by
  cases hm : minBy Prod.fst (t.empties xs) with
  | none => exact absurd (sourcesFull_of_empties_nil (minBy_eq_none.1 hm)) h
  | some e =>
    refine ⟨e.1, e.2, lowestEmpty_of_minBy hm, ?_⟩
    cases ep <;> simp [Thread.needAll, hm]

/-! ### The instructions -/

section
variable {i : Instr} {o : LaneOps} {s : State} {t : Thread} {xs : List Source}

/-- An instruction that checks its sources first stops at an empty one. -/
theorem emptyStops_of_runTh {body : Thread → Except Stop Thread} (hexec : exec i s = runTh i s body)
    (hbody : ∀ e, t.needAll o.ep xs = .error e → body t = .error e) : EmptyStops i o s t xs := by
  intro h hempty
  obtain ⟨c, field, hlow, hneed⟩ := needAll_empty hempty o.ep
  have hstop := hexec.trans (runTh_error h (hbody _ hneed))
  refine ⟨fun hep => ?_, fun hep => ⟨c, field, ?_, hlow⟩⟩
  · rwa [hep, if_neg Bool.false_ne_true] at hstop
  · rwa [hep, if_pos rfl] at hstop

theorem intOp_emptyStops {third : Bool} {f : Nat → Nat → Nat → Nat → Int} (h : exec i s = intOp i o third f s) :
    EmptyStops i o s t (srcA o (cellsOf o) ++ srcB o (cellsOf o) ++ (if third then srcC o (cellsOf o) else []) ++ srcOld o) :=
  emptyStops_of_runTh h fun e he => by rw [Thread.needSrcs, he]; rfl

theorem intBin_emptyStops {f : Nat → Nat → Nat → Int} (h : exec i s = intBin i o f s) :
    EmptyStops i o s t (srcA o (cellsOf o) ++ srcB o (cellsOf o) ++ srcOld o) := by
  simpa using intOp_emptyStops (t := t) h

theorem needSrcs_two (n : Nat) : t.needSrcs o n false = t.needAll o.ep (srcA o n ++ srcB o n ++ srcOld o) := by simp [Thread.needSrcs]

theorem intDivide_emptyStops {f : Bool → Nat → Nat → Nat → Int} (h : exec i s = intDivide i o f s) :
    EmptyStops i o s t (srcA o (cellsOf o) ++ srcB o (cellsOf o) ++ srcOld o) :=
  emptyStops_of_runTh h fun e he => by rw [needSrcs_two, he]; rfl

theorem intCmp_emptyStops {f : Int → Int → Bool} (h : exec i s = intCmp i o f s) :
    EmptyStops i o s t (srcA o (cellsOf o) ++ srcB o (cellsOf o) ++ srcOld o) :=
  emptyStops_of_runTh h fun e he => by rw [needSrcs_two, he]; rfl

theorem isel_emptyStops : EmptyStops (.isel o) o s t (srcA o (cellsOf o) ++ srcB o (cellsOf o) ++ srcOld o) :=
  emptyStops_of_runTh (show exec (.isel o) s = execIsel o s from rfl) fun e he => by rw [needSrcs_two, he]; rfl

theorem floatBin_emptyStops {f : RMode → FVal → FVal → FVal × Flags} (h : exec i s = floatBin i o f s) :
    EmptyStops i o s t (srcA o (floatCells o.mod) ++ srcB o (floatCells o.mod) ++ srcOld o) :=
  emptyStops_of_runTh h fun e he => by rw [needSrcs_two, he]; rfl

theorem floatCmp_emptyStops {f : FVal → FVal → Bool} {onNan strict : Bool} (h : exec i s = floatCmp i o f onNan strict s) :
    EmptyStops i o s t (srcA o (floatCells o.mod) ++ srcB o (floatCells o.mod) ++ srcOld o) :=
  emptyStops_of_runTh h fun e he => by rw [needSrcs_two, he]; rfl

theorem floatUn_emptyStops {elem : Thread → FVal → Nat × Flags} (h : exec i s = floatUn i o elem s) :
    EmptyStops i o s t (srcA o (floatCells o.mod) ++ srcOld o) :=
  emptyStops_of_runTh h fun e he => by rw [he]; rfl

theorem imad_emptyStops : EmptyStops (.imad o) o s t (srcA o (cellsOf o) ++ srcB o (cellsOf o) ++ srcC o (cellsOf o) ++ srcOld o) :=
  intOp_emptyStops (third := true) (show exec (.imad o) s = execImad o s from rfl)

theorem ffma_emptyStops :
    EmptyStops (.ffma o) o s t (srcA o (floatCells o.mod) ++ srcB o (floatCells o.mod) ++ srcC o (floatCells o.mod) ++ srcOld o) :=
  emptyStops_of_runTh (show exec (.ffma o) s = execFfma o s from rfl) fun e he => by
    rw [Thread.needSrcs, if_pos rfl, he]; rfl

end

/-- The integer instructions and compares of two operands. -/
theorem integer_emptyStops {i : Instr} {o : LaneOps} {s : State} {t : Thread}
    (hi : i ∈ [.iadd o, .isub o, .imin o, .imax o, .iand o, .ior o, .ixor o, .iandn o, .ishl o, .ishr o, .isar o, .irotl o, .imul o,
      .imulh o, .idiv o, .irem o, .icmpEq o, .icmpNe o, .icmpLt o, .icmpLe o, .icmpGt o, .icmpGe o, .isel o]) :
    EmptyStops i o s t (srcA o (cellsOf o) ++ srcB o (cellsOf o) ++ srcOld o) := by
  simp only [List.mem_cons, List.not_mem_nil, or_false] at hi
  rcases hi with rfl | rfl | rfl | rfl | rfl | rfl | rfl | rfl | rfl | rfl | rfl | rfl | rfl | rfl | rfl | rfl | rfl | rfl | rfl | rfl |
    rfl | rfl | rfl
  · exact intBin_emptyStops (show exec (.iadd o) s = execIadd o s from rfl)
  · exact intBin_emptyStops (show exec (.isub o) s = execIsub o s from rfl)
  · exact intBin_emptyStops (show exec (.imin o) s = execImin o s from rfl)
  · exact intBin_emptyStops (show exec (.imax o) s = execImax o s from rfl)
  · exact intBin_emptyStops (show exec (.iand o) s = execIand o s from rfl)
  · exact intBin_emptyStops (show exec (.ior o) s = execIor o s from rfl)
  · exact intBin_emptyStops (show exec (.ixor o) s = execIxor o s from rfl)
  · exact intBin_emptyStops (show exec (.iandn o) s = execIandn o s from rfl)
  · exact intBin_emptyStops (show exec (.ishl o) s = execIshl o s from rfl)
  · exact intBin_emptyStops (show exec (.ishr o) s = execIshr o s from rfl)
  · exact intBin_emptyStops (show exec (.isar o) s = execIsar o s from rfl)
  · exact intBin_emptyStops (show exec (.irotl o) s = execIrotl o s from rfl)
  · exact intBin_emptyStops (show exec (.imul o) s = execImul o s from rfl)
  · exact intBin_emptyStops (show exec (.imulh o) s = execImulh o s from rfl)
  · exact intDivide_emptyStops (show exec (.idiv o) s = execIdiv o s from rfl)
  · exact intDivide_emptyStops (show exec (.irem o) s = execIrem o s from rfl)
  · exact intCmp_emptyStops (show exec (.icmpEq o) s = execIcmpEq o s from rfl)
  · exact intCmp_emptyStops (show exec (.icmpNe o) s = execIcmpNe o s from rfl)
  · exact intCmp_emptyStops (show exec (.icmpLt o) s = execIcmpLt o s from rfl)
  · exact intCmp_emptyStops (show exec (.icmpLe o) s = execIcmpLe o s from rfl)
  · exact intCmp_emptyStops (show exec (.icmpGt o) s = execIcmpGt o s from rfl)
  · exact intCmp_emptyStops (show exec (.icmpGe o) s = execIcmpGe o s from rfl)
  · exact isel_emptyStops

/-- The float instructions and compares of two operands. -/
theorem float_emptyStops {i : Instr} {o : LaneOps} {s : State} {t : Thread}
    (hi : i ∈ [.fadd o, .fsub o, .fmul o, .fdiv o, .fmin o, .fmax o, .fcmpEq o, .fcmpNe o, .fcmpLt o, .fcmpLe o, .fcmpGt o, .fcmpGe o,
      .fcmpUn o]) :
    EmptyStops i o s t (srcA o (floatCells o.mod) ++ srcB o (floatCells o.mod) ++ srcOld o) := by
  simp only [List.mem_cons, List.not_mem_nil, or_false] at hi
  rcases hi with rfl | rfl | rfl | rfl | rfl | rfl | rfl | rfl | rfl | rfl | rfl | rfl | rfl
  · exact floatBin_emptyStops (show exec (.fadd o) s = execFadd o s from rfl)
  · exact floatBin_emptyStops (show exec (.fsub o) s = execFsub o s from rfl)
  · exact floatBin_emptyStops (show exec (.fmul o) s = execFmul o s from rfl)
  · exact floatBin_emptyStops (show exec (.fdiv o) s = execFdiv o s from rfl)
  · exact floatBin_emptyStops (show exec (.fmin o) s = execFmin o s from rfl)
  · exact floatBin_emptyStops (show exec (.fmax o) s = execFmax o s from rfl)
  · exact floatCmp_emptyStops (show exec (.fcmpEq o) s = execFcmpEq o s from rfl)
  · exact floatCmp_emptyStops (show exec (.fcmpNe o) s = execFcmpNe o s from rfl)
  · exact floatCmp_emptyStops (show exec (.fcmpLt o) s = execFcmpLt o s from rfl)
  · exact floatCmp_emptyStops (show exec (.fcmpLe o) s = execFcmpLe o s from rfl)
  · exact floatCmp_emptyStops (show exec (.fcmpGt o) s = execFcmpGt o s from rfl)
  · exact floatCmp_emptyStops (show exec (.fcmpGe o) s = execFcmpGe o s from rfl)
  · exact floatCmp_emptyStops (show exec (.fcmpUn o) s = execFcmpUn o s from rfl)

/-- The float instructions of one operand. -/
theorem floatUnary_emptyStops {i : Instr} {o : LaneOps} {s : State} {t : Thread}
    (hi : i ∈ [.fsqrt o, .frcp o, .frsq o, .fexp2 o, .flog2 o]) : EmptyStops i o s t (srcA o (floatCells o.mod) ++ srcOld o) := by
  simp only [List.mem_cons, List.not_mem_nil, or_false] at hi
  rcases hi with rfl | rfl | rfl | rfl | rfl
  · exact floatUn_emptyStops (show exec (.fsqrt o) s = execFsqrt o s from rfl)
  · exact floatUn_emptyStops (show exec (.frcp o) s = execFrcp o s from rfl)
  · exact floatUn_emptyStops (show exec (.frsq o) s = execFrsq o s from rfl)
  · exact floatUn_emptyStops (show exec (.fexp2 o) s = execFexp2 o s from rfl)
  · exact floatUn_emptyStops (show exec (.flog2 o) s = execFlog2 o s from rfl)

/-- Settles O21: each of these instructions checks its sources before anything else. -/
theorem emptySourcePolicy : Obligations.EmptySourcePolicy := by
  unfold Obligations.EmptySourcePolicy
  intro i o s t
  exact ⟨integer_emptyStops, float_emptyStops, imad_emptyStops, ffma_emptyStops, floatUnary_emptyStops⟩

end Sys2Proof.Proofs

/-!
The cells of a thread after a write (R34, R35, R74): what a plain write and a write of a ZXF group leave in each cell.
-/
namespace Sys2Proof.Proofs
open Sys2Proof.Machine

/-! ### What a write of cells leaves alone -/

/-- Two threads differ in their cells at most, which are as many. -/
def CellsOnly (t u : Thread) : Prop := ∃ cs : List VCell, u = { t with cells := cs } ∧ cs.length = t.cells.length

theorem CellsOnly.refl (t : Thread) : CellsOnly t t := ⟨t.cells, rfl, rfl⟩

theorem CellsOnly.trans {t u v : Thread} (h : CellsOnly t u) (g : CellsOnly u v) : CellsOnly t v := by
  obtain ⟨cs, rfl, hcs⟩ := h
  obtain ⟨ds, rfl, hds⟩ := g
  exact ⟨ds, rfl, hds.trans hcs⟩

theorem CellsOnly.setCell (t : Thread) (i : Nat) (c : VCell) : CellsOnly t (t.setCell i c) := ⟨_, rfl, by simp⟩

theorem CellsOnly.plainRange (t : Thread) (i n : Nat) : CellsOnly t (t.plainRange i n) := by
  induction n generalizing t i with
  | zero => exact .refl t
  | succ n ih => exact (CellsOnly.setCell ..).trans (ih ..)

theorem CellsOnly.dissolve (t : Thread) (i : Nat) : CellsOnly t (t.dissolve i) := by
  unfold Thread.dissolve
  split
  · exact .refl t
  · exact .plainRange ..

theorem CellsOnly.writePlain (t : Thread) (i : Nat) (v : Word) : CellsOnly t (t.writePlain i v) :=
  (CellsOnly.dissolve t i).trans (.setCell ..)

theorem CellsOnly.writePlains (t : Thread) (i : Nat) (vs : List Word) : CellsOnly t (t.writePlains i vs) := by
  induction vs generalizing t i with
  | nil => exact .refl t
  | cons v vs ih => exact (CellsOnly.writePlain ..).trans (ih ..)

theorem CellsOnly.dissolveRange (t : Thread) (i n : Nat) : CellsOnly t (t.dissolveRange i n) := by
  induction n generalizing t i with
  | zero => exact .refl t
  | succ n ih => exact (CellsOnly.dissolve ..).trans (ih ..)

theorem CellsOnly.writeTails (t : Thread) (i : Nat) (vs : List Word) : CellsOnly t (t.writeTails i vs) := by
  induction vs generalizing t i with
  | nil => exact .refl t
  | cons v vs ih => exact (CellsOnly.setCell ..).trans (ih ..)

theorem CellsOnly.writeZxf (t : Thread) (i l image s : Nat) : CellsOnly t (t.writeZxf i l image s) := by
  refine (CellsOnly.dissolveRange t i (l / 32)).trans ?_
  unfold Thread.writeZxf
  dsimp only
  split
  · exact .refl _
  · exact (CellsOnly.setCell ..).trans (.writeTails ..)

theorem CellsOnly.registers {t u : Thread} (h : CellsOnly t u) : u.sregs = t.sregs ∧ u.preds = t.preds ∧ t.sameSystem u := by
  obtain ⟨cs, rfl, -⟩ := h
  simp [Thread.sameSystem]

theorem CellsOnly.length {t u : Thread} (h : CellsOnly t u) : u.cells.length = t.cells.length := by
  obtain ⟨cs, rfl, hcs⟩ := h
  exact hcs

/-! ### Reads after writes -/

/-- Two threads hold the same data and the same F in a cell. -/
def SameCell (t u : Thread) (j : Nat) : Prop := (u.cell j).data = (t.cell j).data ∧ (u.cell j).full = (t.cell j).full

theorem SameCell.trans {t u v : Thread} {j : Nat} (h : SameCell t u j) (g : SameCell u v j) : SameCell t v j :=
  ⟨g.1.trans h.1, g.2.trans h.2⟩

theorem sameCell_setCell_ne (t : Thread) (i j : Nat) (c : VCell) (h : j ≠ i) : SameCell t (t.setCell i c) j := by
  unfold SameCell
  rw [Thread.cell_setCell_ne _ _ _ _ h]
  exact ⟨rfl, rfl⟩

theorem sameCell_dissolveRange (t : Thread) (i n j : Nat) : SameCell t (t.dissolveRange i n) j := by
  induction n generalizing t i with
  | zero => exact ⟨rfl, rfl⟩
  | succ n ih => exact SameCell.trans (Thread.cell_dissolve t i j) (ih ..)

/-- Turning cells PLAIN changes no cell that is PLAIN. -/
theorem cell_plainRange_of_plain (t : Thread) (i n j : Nat) (h : (t.cell j).tag = .plain) : (t.plainRange i n).cell j = t.cell j := by
  induction n generalizing t i with
  | zero => rfl
  | succ n ih =>
    have hset : (t.setCell i { t.cell i with tag := .plain }).cell j = t.cell j := by
      by_cases hj : j = i
      · subst hj
        by_cases hl : j < t.cells.length
        · rw [Thread.cell_setCell_same _ _ _ hl, ← h]
        · simp [Thread.setCell, List.set_eq_of_length_le (Nat.le_of_not_lt hl)]
      · exact Thread.cell_setCell_ne _ _ _ _ hj
    exact (ih _ (i + 1) (by rw [hset, h])).trans hset

theorem cell_dissolve_of_plain (t : Thread) (i j : Nat) (h : (t.cell j).tag = .plain) : (t.dissolve i).cell j = t.cell j := by
  unfold Thread.dissolve
  split
  · rfl
  · exact cell_plainRange_of_plain _ _ _ _ h

theorem cell_writePlain_of_plain (t : Thread) (i j : Nat) (v : Word) (hj : j ≠ i) (h : (t.cell j).tag = .plain) :
    (t.writePlain i v).cell j = t.cell j :=
  (Thread.cell_setCell_ne _ _ _ _ hj).trans (cell_dissolve_of_plain t i j h)

/-- Plain writes from `i` up change no PLAIN cell below. -/
theorem cell_writePlains_of_plain (t : Thread) (i j : Nat) (vs : List Word) (hj : j < i) (h : (t.cell j).tag = .plain) :
    (t.writePlains i vs).cell j = t.cell j := by
  induction vs generalizing t i with
  | nil => rfl
  | cons v vs ih =>
    have hw := cell_writePlain_of_plain t i j v (Nat.ne_of_lt hj) h
    exact (ih (t.writePlain i v) (i + 1) (Nat.lt_succ_of_lt hj) (by rw [hw, h])).trans hw

theorem cell_writePlains (t : Thread) (i : Nat) (vs : List Word) (hi : i + vs.length ≤ t.cells.length) (j : Nat) (hj : j < vs.length) :
    (t.writePlains i vs).cell (i + j) = ⟨vs[j], true, .plain⟩ := by
  induction vs generalizing t i j with
  | nil => exact absurd hj (Nat.not_lt_zero j)
  | cons v vs ih =>
    rw [List.length_cons] at hi
    cases j with
    | zero =>
      have hw := Thread.cell_writePlain_same t i v (by omega)
      exact (cell_writePlains_of_plain _ _ _ _ (Nat.lt_succ_self i) (by rw [hw])).trans hw
    | succ j =>
      have hrest := ih (t.writePlain i v) (i + 1) (by simpa using by omega) j (Nat.lt_of_succ_lt_succ hj)
      rwa [Nat.add_right_comm] at hrest

theorem sameCell_writePlains (t : Thread) (i : Nat) (vs : List Word) (j : Nat) (hj : j < i ∨ i + vs.length ≤ j) :
    SameCell t (t.writePlains i vs) j := by
  induction vs generalizing t i with
  | nil => exact ⟨rfl, rfl⟩
  | cons v vs ih =>
    rw [List.length_cons] at hj
    exact SameCell.trans (Thread.cell_writePlain_ne t i j v (by omega)) (ih _ (i + 1) (by omega))

theorem cell_writeTails_of_out (t : Thread) (i : Nat) (vs : List Word) (j : Nat) (hj : j < i ∨ i + vs.length ≤ j) :
    (t.writeTails i vs).cell j = t.cell j := by
  induction vs generalizing t i with
  | nil => rfl
  | cons v vs ih =>
    rw [List.length_cons] at hj
    exact (ih _ (i + 1) (by omega)).trans (Thread.cell_setCell_ne _ _ _ _ (by omega))

theorem cell_writeTails (t : Thread) (i : Nat) (vs : List Word) (hi : i + vs.length ≤ t.cells.length) (j : Nat) (hj : j < vs.length) :
    (t.writeTails i vs).cell (i + j) = ⟨vs[j], true, .tail⟩ := by
  induction vs generalizing t i j with
  | nil => exact absurd hj (Nat.not_lt_zero j)
  | cons v vs ih =>
    rw [List.length_cons] at hi
    cases j with
    | zero => exact (cell_writeTails_of_out _ _ _ _ (.inl (Nat.lt_succ_self i))).trans (Thread.cell_setCell_same _ _ _ (by omega))
    | succ j =>
      have hrest := ih (t.setCell i ⟨v, true, .tail⟩) (i + 1) (by simpa using by omega) j (Nat.lt_of_succ_lt_succ hj)
      rwa [Nat.add_right_comm] at hrest

/-! ### The words of a number -/

@[simp] theorem length_wordsOf (n v : Nat) : (wordsOf n v).length = n := by
  induction n generalizing v with
  | zero => rfl
  | succ n ih => rw [wordsOf, List.length_cons, ih]

/-- Cells that hold the words of a number hold that number (R74). -/
theorem cellsNat_of_words {t : Thread} {i n v : Nat} (hv : v < 2 ^ (32 * n))
    (h : ∀ j, (hj : j < (wordsOf n v).length) → (t.cell (i + j)).data = (wordsOf n v)[j]) : t.cellsNat i n = v := by
  induction n generalizing i v with
  | zero => simp at hv; simp [Thread.cellsNat, hv]
  | succ n ih =>
    have hlow : (t.cell i).data = BitVec.ofNat 32 v := h 0 (by simp)
    have hhigh : t.cellsNat (i + 1) n = v / 2 ^ 32 :=
      ih (Nat.div_lt_of_lt_mul (by rw [← Nat.pow_add, Nat.add_comm]; exact hv)) fun j hj => by
        rw [Nat.add_right_comm]
        exact h (j + 1) (by simpa using hj)
    rw [Thread.cellsNat, hlow, hhigh, BitVec.toNat_ofNat]
    exact Nat.mod_add_div v _

/-! ### A ZXF group -/

/-- A write of a ZXF group of `n + 1` cells: the groups that it touches dissolve, then the head and the tails are set. -/
theorem writeZxf_eq (t : Thread) (i n image s : Nat) : t.writeZxf i (32 * (n + 1)) image s =
    ((t.dissolveRange i (n + 1)).setCell i ⟨BitVec.ofNat 32 image, true, .head (BitVec.ofNat 3 n) (BitVec.ofNat 8 s)⟩).writeTails (i + 1)
      (wordsOf n (image / 2 ^ 32)) := by
  unfold Thread.writeZxf
  rw [Nat.mul_div_cancel_left _ (by decide : 0 < 32)]
  rfl

section
variable (t : Thread) (i n image s : Nat)

theorem cell_writeZxf_head (hi : i + (n + 1) ≤ t.cells.length) : (t.writeZxf i (32 * (n + 1)) image s).cell i =
    ⟨BitVec.ofNat 32 image, true, .head (BitVec.ofNat 3 n) (BitVec.ofNat 8 s)⟩ := by
  rw [writeZxf_eq, cell_writeTails_of_out _ _ _ _ (.inl (Nat.lt_succ_self i))]
  exact Thread.cell_setCell_same _ _ _ (by rw [(CellsOnly.dissolveRange t i (n + 1)).length]; omega)

theorem cell_writeZxf_tail (hi : i + (n + 1) ≤ t.cells.length) (j : Nat) (hj : j < (wordsOf n (image / 2 ^ 32)).length) :
    (t.writeZxf i (32 * (n + 1)) image s).cell (i + 1 + j) = ⟨(wordsOf n (image / 2 ^ 32))[j], true, .tail⟩ := by
  rw [writeZxf_eq]
  exact cell_writeTails _ _ _ (by
    rw [Thread.length_setCell, (CellsOnly.dissolveRange t i (n + 1)).length, length_wordsOf]; omega) j hj

theorem sameCell_writeZxf (j : Nat) (hj : j < i ∨ i + (n + 1) ≤ j) : SameCell t (t.writeZxf i (32 * (n + 1)) image s) j := by
  rw [writeZxf_eq]
  have hset := SameCell.trans (sameCell_dissolveRange t i (n + 1) j) (sameCell_setCell_ne (t.dissolveRange i (n + 1)) i j
    ⟨BitVec.ofNat 32 image, true, .head (BitVec.ofNat 3 n) (BitVec.ofNat 8 s)⟩ (by omega))
  unfold SameCell
  rw [cell_writeTails_of_out _ _ _ _ (by rw [length_wordsOf]; omega)]
  exact hset

theorem writeZxf_tails (hi : i + (n + 1) ≤ t.cells.length) (j : Nat) (hlo : i < j) (hhi : j < i + (n + 1)) :
    ((t.writeZxf i (32 * (n + 1)) image s).cell j).tag = .tail ∧ ((t.writeZxf i (32 * (n + 1)) image s).cell j).full = true := by
  obtain ⟨k, rfl⟩ : ∃ k, j = i + 1 + k := ⟨j - (i + 1), by omega⟩
  rw [cell_writeZxf_tail t i n image s hi k (by rw [length_wordsOf]; omega)]
  exact ⟨rfl, rfl⟩

theorem writeZxf_fullAt (hi : i + (n + 1) ≤ t.cells.length) : (t.writeZxf i (32 * (n + 1)) image s).fullAt i (n + 1) := by
  intro j hlo hhi
  rcases Nat.eq_or_lt_of_le hlo with rfl | hlt
  · rw [cell_writeZxf_head t _ n image s hi]
  · exact (writeZxf_tails t i n image s hi j hlt hhi).2

theorem cellsNat_writeZxf (hi : i + (n + 1) ≤ t.cells.length) (him : image < 2 ^ (32 * (n + 1))) :
    (t.writeZxf i (32 * (n + 1)) image s).cellsNat i (n + 1) = image := by
  refine cellsNat_of_words him fun j hj => ?_
  cases j with
  | zero => exact congrArg VCell.data (cell_writeZxf_head t i n image s hi)
  | succ j =>
    have htail := cell_writeZxf_tail t i n image s hi j (by simpa [wordsOf] using hj)
    rw [Nat.add_right_comm] at htail
    exact congrArg VCell.data htail

/-- A group read back gives its length, its significance and its image (R34, R214). -/
theorem zRead_writeZxf (hi : i + (n + 1) ≤ t.cells.length) (hn : n < 8) (hs : s < 256) (him : image < 2 ^ (32 * (n + 1))) :
    (t.writeZxf i (32 * (n + 1)) image s).zRead 0 i = .ok ⟨zxfDecode (32 * (n + 1)) image, s, 32 * (n + 1), image⟩ := by
  have hlc : (BitVec.ofNat 3 n).toNat = n := by rw [BitVec.toNat_ofNat]; exact Nat.mod_eq_of_lt hn
  have hsig : (BitVec.ofNat 8 s).toNat = s := by rw [BitVec.toNat_ofNat]; exact Nat.mod_eq_of_lt hs
  simp only [Thread.zRead, cell_writeZxf_head t i n image s hi, hlc, hsig, cellsNat_writeZxf t i n image s hi him]

end

/-- Settles O29: reads after writes, cell by cell. -/
theorem cellWritesReadBack : Obligations.CellWritesReadBack := by
  unfold Obligations.CellWritesReadBack
  intro t i
  refine ⟨fun vs hvs => ⟨cell_writePlains t i vs hvs, sameCell_writePlains t i vs, (CellsOnly.writePlains t i vs).length,
    (CellsOnly.writePlains t i vs).registers⟩, fun n image sig hn1 hn8 hi hs him => ?_⟩
  obtain ⟨n, rfl⟩ := Nat.exists_eq_add_of_le' hn1
  have hhead := cell_writeZxf_head t i n image sig hi
  exact ⟨cellsNat_writeZxf t i n image sig hi him, congrArg VCell.tag hhead, writeZxf_fullAt t i n image sig hi,
    fun j hlo hhi => (writeZxf_tails t i n image sig hi j hlo hhi).1, zRead_writeZxf t i n image sig hi (by omega) hs him,
    sameCell_writeZxf t i n image sig, (CellsOnly.writeZxf t i _ image sig).registers⟩

end Sys2Proof.Proofs

/-!
Reservations (R232, R240, R241): OBRES, OBREL and the release.
-/
namespace Sys2Proof.Proofs
open Sys2Proof.Machine

/-! ### What an instruction that runs in a frame answers -/

theorem ok_bind {ε α β : Type} (a : α) (f : α → Except ε β) : (Except.ok a >>= f) = f a := rfl

theorem error_bind {ε α β : Type} (e : ε) (f : α → Except ε β) : (Except.error e >>= f) = .error e := rfl

section
variable {i : Instr} {s s' : State} {t : Thread} {e : Stop} {body : State → Except Stop State}

theorem completesAs_of_run (hexec : exec i s = run i s body) (h : Entered i s t) (hb : body (s.setTh t) = .ok s') : CompletesAs i s s' :=
  hexec.trans (run_ok h hb)

theorem stopsWith_of_run (hexec : exec i s = run i s body) (h : Entered i s t) (hb : body (s.setTh t) = .error e) : StopsWith i s t e :=
  hexec.trans (run_error h hb)

end

/-! ### The thread under accesses made at once -/

theorem unlessConsumed_ok {s s' : State} {left : Pend → Bool} (h : unlessConsumed s left = .ok s') : s' = s := by
  unfold unlessConsumed at h
  split at h
  · split at h
    · cases h
    · cases h; rfl
  · cases h

theorem performNow_th {s s' : State} {id : Nat} (h : performNow s id = .ok s') : s'.th = s.th := by rw [unlessConsumed_ok h]; rfl

theorem flush_th {s s' : State} (h : flush s = .ok s') : s'.th = s.th := by rw [unlessConsumed_ok h]; rfl

theorem orderCore_th {s s' : State} (h : orderCore s = .ok s') : s'.th = s.th := by
  unfold orderCore at h
  cases hf : flush s with
  | error e => rw [hf] at h; cases h
  | ok u => rw [hf] at h; cases h; exact (flush_th hf :)

theorem orderAll_th {s s' : State} (h : orderAll s = .ok s') : s'.th = s.th := by
  unfold orderAll at h
  cases hf : orderCore s with
  | error e => rw [hf] at h; cases h
  | ok u => rw [hf] at h; cases h; exact (orderCore_th hf :)

theorem orderFirst_th {s s' : State} {r : Reach} (h : orderFirst s r = .ok s') : s'.th = s.th := by
  unfold orderFirst at h
  split at h
  · exact orderAll_th h
  · cases h; rfl

@[simp] theorem touched_th (s : State) (acc : Acc) (r : Reach) : (touched s acc r).th = s.th := by unfold touched; split <;> rfl

@[simp] theorem afterStrong_th (s : State) (r : Reach) : (afterStrong s r).th = s.th := by unfold afterStrong; split <;> rfl

theorem readNow_th {s s' : State} {r : Reach} {atom : Nat} {p : Pend} (h : readNow s r atom = .ok (p, s')) : s'.th = s.th := by
  obtain ⟨u, hu, h⟩ := Except.bind_ok h
  cases h
  exact (performNow_th hu :)

/-- A load made at once leaves in its thread the stores and the constant bytes that it has read, and nothing else. -/
theorem loadNow_th {s s' : State} {space n : Nat} {ea : DWord} {bs : List Byte} (h : loadNow s space ea n = .ok (bs, s')) :
    ∃ p, s'.th = s.th.saw p := by
  obtain ⟨r, -, h⟩ := Except.bind_ok h
  obtain ⟨u, hu, h⟩ := Except.bind_ok h
  split at h
  · cases h
  · obtain ⟨⟨p, v⟩, hv, h⟩ := Except.bind_ok h
    cases h
    exact ⟨p, by rw [afterStrong_th, State.setTh_th, readNow_th hv, touched_th, orderFirst_th hu]⟩

theorem readBlock_th {i : Instr} {s s' : State} {a : DWord} {n align : Nat} {bs : List Byte} (h : readBlock i s a n align = .ok (bs, s')) :
    ∃ p, s'.th = s.th.saw p := by
  unfold readBlock at h
  split at h
  · dsimp only at h
    split at h
    · cases h
    · exact loadNow_th h
  · split at h
    · cases h
    · exact loadNow_th h

/-- What a thread has read changes none of its registers. -/
theorem saw_eq (t : Thread) (p : Pend) : ∃ sees conRead, t.saw p = { t with sees := sees, conRead := conRead } := by
  unfold Thread.saw
  split <;> split <;> exact ⟨_, _, rfl⟩

theorem saw_sameSystem (t : Thread) (p : Pend) : t.sameSystem (t.saw p) := by
  obtain ⟨sees, conRead, h⟩ := saw_eq t p
  rw [h]
  simp [Thread.sameSystem]

@[simp] theorem saw_key (t : Thread) (p : Pend) : (t.saw p).key = t.key := (saw_sameSystem t p).1
@[simp] theorem saw_launch (t : Thread) (p : Pend) : (t.saw p).launch = t.launch := (saw_sameSystem t p).2.1
@[simp] theorem saw_tid (t : Thread) (p : Pend) : (t.saw p).tid = t.tid := (saw_sameSystem t p).2.2.1

@[simp] theorem saw_owner (t : Thread) (p : Pend) : (t.saw p).owner = t.owner := by
  obtain ⟨sees, conRead, h⟩ := saw_eq t p
  rw [h]
  rfl

/-! ### The limits of a record -/

theorem resvOk_iff (bs : List Byte) (size : Nat) : resvOk bs size = true ↔ ReservationLimits bs size := by
  unfold resvOk ReservationLimits mxBlockOk zeroFld
  by_cases h9 : fld bs 8 1 = 9
  · simp [h9, imp_iff_or_not, or_comm, and_assoc]
  · by_cases h5 : fld bs 8 1 < 5 <;> simp [h9, h5, imp_iff_or_not, or_comm, and_assoc]

/-! ### A handle that is not in use (R41, R240) -/

/-- Among as many nonzero numbers as there are handles in use, and one more, some number is not in use. -/
theorem exists_free_handle (used : List Nat) : ∃ h < used.length + 2, h ≠ 0 ∧ h ∉ used := by
  by_contra hno
  push Not at hno
  have hsub : (List.range (used.length + 2)).filter (fun h => h != 0) ⊆ used := fun h hh => by
    rw [List.mem_filter, List.mem_range] at hh
    exact hno h hh.1 (by simpa using hh.2)
  have hlen := (List.nodup_range.filter (fun h => h != 0)).subperm hsub |>.length_le
  rw [List.range_succ_eq_map, List.filter_cons] at hlen
  simp [List.filter_map, Function.comp_def] at hlen

theorem pickHandle_fresh (used : List Nat) (free : Nat) : pickHandle used free ≠ 0 ∧ pickHandle used free ∉ used ∧
    (pickHandle used free < 2 ^ 32 ∨ pickHandle used free < used.length + 2) := by
  unfold pickHandle
  dsimp only
  split
  · next hok =>
    simp only [Bool.and_eq_true, bne_iff_ne, ne_eq, Bool.not_eq_true', List.contains_eq_mem, decide_eq_false_iff_not] at hok
    exact ⟨hok.1, hok.2, .inl (Nat.mod_lt _ (by decide))⟩
  · cases hf : (List.range (used.length + 2)).find? (fun h => h != 0 && !used.contains h) with
    | none =>
      obtain ⟨h, hlt, h0, hfree⟩ := exists_free_handle used
      exact absurd (List.find?_eq_none.1 hf h (List.mem_range.2 hlt)) (by simp [h0, hfree])
    | some h =>
      have hok := List.find?_some hf
      have hlt := List.mem_range.1 (List.mem_of_find?_eq_some hf)
      simp only [Bool.and_eq_true, bne_iff_ne, ne_eq, Bool.not_eq_true', List.contains_eq_mem, decide_eq_false_iff_not] at hok
      exact ⟨hok.1, hok.2, .inr hlt⟩

theorem pickHandle_free {used : List Nat} (free : Nat) (hlen : used.length < 2 ^ 32 - 1) :
    pickHandle used free ≠ 0 ∧ pickHandle used free < 2 ^ 32 ∧ pickHandle used free ∉ used := by
  obtain ⟨h0, hfree, hlt⟩ := pickHandle_fresh used free
  exact ⟨h0, by omega, hfree⟩

/-! ### The instructions -/

section
variable {o : ScalarOps} {s s1 : State} {t : Thread} {bs : List Byte}

theorem exec_obres (o : ScalarOps) (s : State) : exec (.obres o) s = execObres o s := rfl
theorem exec_obrel (o : ScalarOps) (s : State) : exec (.obrel o) s = execObrel o s := rfl
theorem exec_reservationRelease (part core hd : Nat) (s : State) :
    exec (.reservationRelease part core hd) s = execReservationRelease part core hd s := rfl

/-- A record overlaps a reservation of the launch. -/
def ResvClash (rs : List Reservation) (launch base len : Nat) : Prop :=
  ∃ r ∈ rs, r.launch = launch ∧ base < r.base + r.length ∧ r.base < base + len

theorem any_clash_iff (rs : List Reservation) (launch base len : Nat) :
    (rs.any fun r => r.launch == launch && decide (base < r.base + r.length) && decide (r.base < base + len)) = true ↔
      ResvClash rs launch base len := by
  simp [ResvClash, and_assoc]

theorem obres_illegal (h : Entered (.obres o) s t) (hread : readBlock (.obres o) (s.setTh t) (t.code o.a) 32 16 = .ok (bs, s1))
    (hok : resvOk bs s1.obufSize = false) : StopsWith (.obres o) s t (ill (.obres o) 2) :=
  stopsWith_of_run (exec_obres o s) h (by
    simp only [State.setTh_th, hread, ok_bind, Machine.check, hok, Bool.false_eq_true, if_false, error_bind])

theorem obres_none (h : Entered (.obres o) s t) (hread : readBlock (.obres o) (s.setTh t) (t.code o.a) 32 16 = .ok (bs, s1))
    (hok : resvOk bs s1.obufSize = true)
    (hno : ResvClash s1.myCtx.resvs t.launch (fld bs 0 4) (fld bs 4 4) ∨ 64 ≤ s1.myCtx.resvs.length) :
    CompletesAs (.obres o) s (s1.setTh (s1.th.setSreg o.d.toNat 0)) := by
  obtain ⟨p, hp⟩ := readBlock_th hread
  have hlaunch : s1.th.launch = t.launch := by rw [hp, saw_launch]; rfl
  refine completesAs_of_run (exec_obres o s) h ?_
  have hc : ((s1.myCtx.resvs.any fun r => r.launch == s1.th.launch && decide (fld bs 0 4 < r.base + r.length) &&
      decide (r.base < fld bs 0 4 + fld bs 4 4)) || decide (64 ≤ s1.myCtx.resvs.length)) = true := by
    rw [Bool.or_eq_true, any_clash_iff, hlaunch, decide_eq_true_iff]
    exact hno
  simp only [State.setTh_th, hread, ok_bind, Machine.check, hok, if_true]
  exact if_pos hc

theorem obres_makes (h : Entered (.obres o) s t) (hread : readBlock (.obres o) (s.setTh t) (t.code o.a) 32 16 = .ok (bs, s1))
    (hok : resvOk bs s1.obufSize = true) (hno : ¬ ResvClash s1.myCtx.resvs t.launch (fld bs 0 4) (fld bs 4 4))
    (hroom : s1.myCtx.resvs.length < 64) :
    ∃ hd, hd ≠ 0 ∧ hd < 2 ^ 32 ∧ (∀ r ∈ s1.myCtx.resvs, r.handle ≠ hd) ∧
      CompletesAs (.obres o) s (((s1.mapCtx t.key.part t.key.core fun c => { c with resvs := c.resvs ++
        [⟨hd, t.owner, t.launch, fld bs 0 4, fld bs 4 4, fld bs 8 1, fld bs 9 1, fld bs 12 4, fld bs 16 4, fld bs 20 4, false⟩] }).tick).setTh
        (s1.th.setSreg o.d.toNat (BitVec.ofNat 64 hd))) := by
  obtain ⟨p, hp⟩ := readBlock_th hread
  have hlaunch : s1.th.launch = t.launch := by rw [hp, saw_launch]; rfl
  have hkey : s1.th.key = t.key := by rw [hp, saw_key]; rfl
  have howner : s1.th.owner = t.owner := by rw [hp, saw_owner]; rfl
  obtain ⟨h0, h32, hfree⟩ := pickHandle_free (used := s1.myCtx.resvs.map fun r => r.handle) (Config.freeNat s1.hw.fresh)
    (by rw [List.length_map]; omega)
  refine ⟨_, h0, h32, fun r hr heq => hfree (heq ▸ List.mem_map_of_mem hr), completesAs_of_run (exec_obres o s) h ?_⟩
  have hc : ((s1.myCtx.resvs.any fun r => r.launch == s1.th.launch && decide (fld bs 0 4 < r.base + r.length) &&
      decide (r.base < fld bs 0 4 + fld bs 4 4)) || decide (64 ≤ s1.myCtx.resvs.length)) ≠ true := by
    rw [ne_eq, Bool.or_eq_true, any_clash_iff, hlaunch, decide_eq_true_iff]
    exact fun hor => hor.elim hno (by omega)
  simp only [State.setTh_th, hread, ok_bind, Machine.check, hok, if_true]
  refine (if_neg hc).trans ?_
  rw [hlaunch, hkey, howner]
  rfl

end

theorem obrel_marks {o : ScalarOps} {s : State} {t : Thread} (h : Entered (.obrel o) s t) :
    CompletesAs (.obrel o) s ((s.setTh t).mapCtx t.key.part t.key.core fun c =>
      { c with resvs := c.resvs.map fun r =>
          if r.handle = (t.code o.a).toNat % 2 ^ 32 ∧ r.launch = t.launch ∧ (r.owner = t.owner ∨ r.owner = .thread t.launch t.tid)
          then { r with released := true } else r }) := by
  refine completesAs_of_run (exec_obrel o s) h (congrArg Except.ok ?_)
  simp only [State.setTh_th, Bool.and_eq_true, Bool.or_eq_true, beq_iff_eq, and_assoc]

theorem release_ends {s : State} {part core hd : Nat} (hfree : (s.hw.ctx part core).handleBusy hd = false)
    (hdue : ∃ r ∈ (s.hw.ctx part core).resvs, r.handle = hd ∧ r.released = true) : exec (.reservationRelease part core hd) s =
      .next (s.mapCtx part core fun c => { c with resvs := c.resvs.filter fun r => !(r.handle == hd && r.released) }) := by
  have hany : ((s.hw.ctx part core).resvs.any fun r => r.handle == hd && r.released) = true := by simpa using hdue
  rw [exec_reservationRelease, execReservationRelease, hfree, hany]
  rfl

theorem release_waits {s : State} {part core hd : Nat} (hbusy : (s.hw.ctx part core).handleBusy hd = true) :
    exec (.reservationRelease part core hd) s = .next s := by
  rw [exec_reservationRelease, execReservationRelease, hbusy]
  rfl

/-- Settles O42. -/
theorem reservationResults : Obligations.ReservationResults := by
  unfold Obligations.ReservationResults
  refine ⟨resvOk_iff, fun s t => ⟨fun o bs s1 h hread => ⟨obres_illegal h hread, obres_none h hread, obres_makes h hread⟩,
    fun o h => obrel_marks h, fun part core hd => ⟨release_ends, release_waits⟩⟩⟩

end Sys2Proof.Proofs

/-!
The contexts of the cores, and what it leaves there that stores come home: lookups after updates, the stores of a core on their way
(R283, R294, R297, R299), and the thread's accesses performed for every observer (R234).
-/
namespace Sys2Proof.Proofs
open Sys2Proof.Machine

/-! ### Contexts -/

/-- A partition has a context on a core. -/
def HasCtx (h : Hw) (part core : Nat) : Prop := ∃ c ∈ h.ctxs, c.part = part ∧ c.core = core

theorem ctx_of_not_hasCtx {h : Hw} {part core : Nat} (hno : ¬ HasCtx h part core) : h.ctx part core = Ctx.empty part core := by
  have hfind : (h.ctxs.find? fun c => c.part == part && c.core == core) = none := List.find?_eq_none.2 fun c hc he => by
    simp only [Bool.and_eq_true, beq_iff_eq] at he
    exact hno ⟨c, hc, he⟩
  rw [Hw.ctx, hfind]
  rfl

theorem ctx_part_core (h : Hw) (part core : Nat) : (h.ctx part core).part = part ∧ (h.ctx part core).core = core := by
  unfold Hw.ctx
  cases hfind : h.ctxs.find? fun c => c.part == part && c.core == core with
  | none => exact ⟨rfl, rfl⟩
  | some c => simpa using List.find?_some hfind

@[simp] theorem ctx_part (h : Hw) (part core : Nat) : (h.ctx part core).part = part := (ctx_part_core h part core).1
@[simp] theorem ctx_core (h : Hw) (part core : Nat) : (h.ctx part core).core = core := (ctx_part_core h part core).2

/-- A change of every context that leaves its partition and core: the context of a core is changed likewise, where there is one. -/
theorem ctx_of_map {h h' : Hw} {g : Ctx → Ctx} (hctxs : h'.ctxs = h.ctxs.map g) (hg : ∀ c, (g c).part = c.part ∧ (g c).core = c.core)
    (part core : Nat) : h'.ctx part core = ((h.ctxs.find? fun c => c.part == part && c.core == core).map g).getD (Ctx.empty part core) := by
  have hcomp : ((fun c : Ctx => c.part == part && c.core == core) ∘ g) = fun c => c.part == part && c.core == core :=
    funext fun c => by rw [Function.comp_apply, (hg c).1, (hg c).2]
  rw [Hw.ctx, hctxs, List.find?_map, hcomp]

theorem ctx_of_map_hasCtx {h h' : Hw} {g : Ctx → Ctx} (hctxs : h'.ctxs = h.ctxs.map g) (hg : ∀ c, (g c).part = c.part ∧ (g c).core = c.core)
    {part core : Nat} (hhas : HasCtx h part core) : h'.ctx part core = g (h.ctx part core) := by
  obtain ⟨c, hc, hpart, hcore⟩ := hhas
  have hsome : (h.ctxs.find? fun c => c.part == part && c.core == core).isSome := List.find?_isSome.2 ⟨c, hc, by simp [hpart, hcore]⟩
  obtain ⟨d, hd⟩ := Option.isSome_iff_exists.1 hsome
  rw [ctx_of_map hctxs hg, Hw.ctx, hd]
  rfl

theorem ctx_of_map_not_hasCtx {h h' : Hw} {g : Ctx → Ctx} (hctxs : h'.ctxs = h.ctxs.map g)
    (hg : ∀ c, (g c).part = c.part ∧ (g c).core = c.core) {part core : Nat} (hno : ¬ HasCtx h part core) :
    h'.ctx part core = Ctx.empty part core := by
  refine ctx_of_not_hasCtx fun ⟨c, hc, hpart, hcore⟩ => ?_
  rw [hctxs, List.mem_map] at hc
  obtain ⟨d, hd, rfl⟩ := hc
  exact hno ⟨d, hd, (hg d).1 ▸ hpart, (hg d).2 ▸ hcore⟩

theorem hasCtx_of_map {h h' : Hw} {g : Ctx → Ctx} (hctxs : h'.ctxs = h.ctxs.map g) (hg : ∀ c, (g c).part = c.part ∧ (g c).core = c.core)
    {part core : Nat} : HasCtx h' part core ↔ HasCtx h part core := by
  simp only [HasCtx, hctxs, List.mem_map]
  constructor
  · rintro ⟨_, ⟨d, hd, rfl⟩, hkey⟩
    exact ⟨d, hd, by rwa [(hg d).1, (hg d).2] at hkey⟩
  · rintro ⟨d, hd, hkey⟩
    exact ⟨g d, ⟨d, hd, rfl⟩, by rwa [(hg d).1, (hg d).2]⟩

/-- What setting a context does to each context. -/
def putCtx (c d : Ctx) : Ctx := if d.part == c.part && d.core == c.core then c else d

theorem setCtx_ctxs_eq (h : Hw) (c : Ctx) : (h.setCtx c).ctxs = h.ctxs.map (putCtx c) := rfl

theorem putCtx_key (c d : Ctx) : (putCtx c d).part = d.part ∧ (putCtx c d).core = d.core := by
  unfold putCtx
  split
  · next he =>
    simp only [Bool.and_eq_true, beq_iff_eq] at he
    exact ⟨he.1.symm, he.2.symm⟩
  · exact ⟨rfl, rfl⟩

@[simp] theorem hasCtx_setCtx (h : Hw) (c : Ctx) (part core : Nat) : HasCtx (h.setCtx c) part core ↔ HasCtx h part core :=
  hasCtx_of_map (setCtx_ctxs_eq h c) (putCtx_key c)

theorem ctx_setCtx_same {h : Hw} {c : Ctx} {part core : Nat} (hhas : HasCtx h part core) (hpart : c.part = part) (hcore : c.core = core) :
    (h.setCtx c).ctx part core = c := by
  rw [ctx_of_map_hasCtx (setCtx_ctxs_eq h c) (putCtx_key c) hhas, putCtx, ctx_part, ctx_core, hpart, hcore]
  simp

theorem ctx_setCtx_ne (h : Hw) {c : Ctx} {part core : Nat} (hne : ¬ (c.part = part ∧ c.core = core)) :
    (h.setCtx c).ctx part core = h.ctx part core := by
  by_cases hhas : HasCtx h part core
  · rw [ctx_of_map_hasCtx (setCtx_ctxs_eq h c) (putCtx_key c) hhas, putCtx, ctx_part, ctx_core, if_neg]
    intro he
    simp only [Bool.and_eq_true, beq_iff_eq] at he
    exact hne ⟨he.1.symm, he.2.symm⟩
  · rw [ctx_of_map_not_hasCtx (setCtx_ctxs_eq h c) (putCtx_key c) hhas, ctx_of_not_hasCtx hhas]

/-- The context of a core after another one has been set in its place, if there is one there. -/
theorem ctx_setCtx_cases (h : Hw) (c : Ctx) (part core : Nat) : (h.setCtx c).ctx part core = c ∨
    (h.setCtx c).ctx part core = h.ctx part core := by
  by_cases hkey : c.part = part ∧ c.core = core
  · by_cases hhas : HasCtx h part core
    · exact .inl (ctx_setCtx_same hhas hkey.1 hkey.2)
    · exact .inr (by rw [ctx_of_map_not_hasCtx (setCtx_ctxs_eq h c) (putCtx_key c) hhas, ctx_of_not_hasCtx hhas])
  · exact .inr (ctx_setCtx_ne h hkey)

/-- Where nothing of a context that is not there can break a property, it holds after a context with it has been set. -/
theorem ctx_setCtx_of (P : Ctx → Prop) {h : Hw} {c : Ctx} {part core : Nat} (hpart : c.part = part) (hcore : c.core = core)
    (hempty : P (Ctx.empty part core)) (hc : P c) : P ((h.setCtx c).ctx part core) := by
  by_cases hhas : HasCtx h part core
  · rwa [ctx_setCtx_same hhas hpart hcore]
  · rwa [ctx_of_map_not_hasCtx (setCtx_ctxs_eq h c) (putCtx_key c) hhas]

theorem hasCtx_of_outq {h : Hw} {part core : Nat} (hq : (h.ctx part core).outq ≠ []) : HasCtx h part core :=
  Classical.byContradiction fun hno => hq (by rw [ctx_of_not_hasCtx hno]; rfl)

/-! ### Writes at home -/

/-- A context has changed in its caches at most, and in which of its stores at home a thread may still miss. -/
def CachesOnly (c d : Ctx) : Prop := d = { c with late := d.late, l1 := d.l1, con := d.con, icache := d.icache }

theorem CachesOnly.refl (c : Ctx) : CachesOnly c c := rfl

theorem CachesOnly.trans {c d e : Ctx} (h : CachesOnly c d) (g : CachesOnly d e) : CachesOnly c e := by
  unfold CachesOnly at h g ⊢
  rw [h] at g
  exact g

theorem CachesOnly.afterWrite (c : Ctx) (own : Bool) (m : Memory) (k : Nat) : CachesOnly c (c.afterWrite own m k) := rfl

theorem CachesOnly.outq {c d : Ctx} (h : CachesOnly c d) : d.outq = c.outq := by rw [h]
theorem CachesOnly.wc {c d : Ctx} (h : CachesOnly c d) : d.wc = c.wc := by rw [h]

/-- Writes at home change memory, poison, latent errors, and the caches of contexts. -/
structure WritesHome (h h' : Hw) : Prop where
  rest : h' = { h with mem := h'.mem, poison := h'.poison, latent := h'.latent, ctxs := h'.ctxs }
  has : ∀ part core, HasCtx h' part core ↔ HasCtx h part core
  ctx : ∀ part core, CachesOnly (h.ctx part core) (h'.ctx part core)

theorem WritesHome.refl (h : Hw) : WritesHome h h := ⟨rfl, fun _ _ => Iff.rfl, fun _ _ => .refl _⟩

theorem WritesHome.trans {h h' h'' : Hw} (g : WritesHome h h') (g' : WritesHome h' h'') : WritesHome h h'' :=
  ⟨by have hr := g'.rest; rw [g.rest] at hr; exact hr, fun p c => (g'.has p c).trans (g.has p c), fun p c => (g.ctx p c).trans (g'.ctx p c)⟩

theorem WritesHome.writeKey (h : Hw) (own : Option (Nat × Nat)) (k : Nat) (b : Byte) : WritesHome h (writeKey h own k b) where
  rest := rfl
  has part core := hasCtx_of_map (h' := Machine.writeKey h own k b) rfl fun _ => ⟨rfl, rfl⟩
  ctx part core := by
    by_cases hhas : HasCtx h part core
    · rw [ctx_of_map_hasCtx (h' := Machine.writeKey h own k b) rfl (fun _ => ⟨rfl, rfl⟩) hhas]
      exact .afterWrite ..
    · rw [ctx_of_map_not_hasCtx (h' := Machine.writeKey h own k b) rfl (fun _ => ⟨rfl, rfl⟩) hhas, ctx_of_not_hasCtx hhas]
      exact .refl _

theorem WritesHome.writeKeys (h : Hw) (own : Option (Nat × Nat)) (xs : List (Nat × Byte)) : WritesHome h (writeKeys h own xs) := by
  have hclear : ∀ (h : Hw) (ks : List Nat), WritesHome h (clearPoison h ks) := fun h ks => ⟨rfl, fun _ _ => Iff.rfl, fun _ _ => .refl _⟩
  refine WritesHome.trans ?_ (hclear _ _)
  induction xs generalizing h with
  | nil => exact .refl h
  | cons x xs ih => exact (WritesHome.writeKey ..).trans (ih _)

theorem WritesHome.foldWrites {α : Type} (own : Option (Nat × Nat)) (f : α → List (Nat × Byte)) (xs : List α) (h : Hw) :
    WritesHome h (xs.foldl (fun h x => Machine.writeKeys h own (f x)) h) := by
  induction xs generalizing h with
  | nil => exact .refl h
  | cons x xs ih => exact (WritesHome.writeKeys ..).trans (ih _)

@[simp] theorem WritesHome.pends {h h' : Hw} (g : WritesHome h h') : h'.pends = h.pends := by rw [g.rest]

/-! ### Stores come home -/

theorem mem_outClosure_of_id {ids : List Nat} {q : List OutWrite} {o : OutWrite} (ho : o ∈ q) (hid : o.id ∈ ids) : o ∈ outClosure ids q := by
  induction q with
  | nil => cases ho
  | cons p ps ih =>
    have htail : ∀ x, x ∈ outClosure ids ps → x ∈ outClosure ids (p :: ps) := fun x hx => by
      change x ∈ (if _ then p :: outClosure ids ps else outClosure ids ps)
      split
      · exact List.mem_cons_of_mem _ hx
      · exact hx
    rcases List.mem_cons.1 ho with rfl | ho
    · change o ∈ (if _ then o :: outClosure ids ps else outClosure ids ps)
      rw [if_pos (by simp [hid])]
      exact List.mem_cons_self
    · exact htail o (ih ho)

/-- Stores come home: the context is what it was, but for its caches and for the stores that are home. -/
theorem drainOut_eq (h : Hw) (part core : Nat) (ids : List Nat) : ∃ h', WritesHome h h' ∧
    ((drainOut h part core ids = h' ∧ (h.ctx part core).outq = []) ∨
      drainOut h part core ids = h'.setCtx { h'.ctx part core with
        outq := (h.ctx part core).outq.filter fun o => !(outClosure ids (h.ctx part core).outq).contains o }) := by
  unfold drainOut
  dsimp only
  split
  · next he => exact ⟨h, .refl h, .inl ⟨rfl, by simpa using he⟩⟩
  · exact ⟨_, WritesHome.foldWrites (some (part, core)) OutWrite.bytes _ h, .inr rfl⟩

@[simp] theorem drainOut_pends (h : Hw) (part core : Nat) (ids : List Nat) : (drainOut h part core ids).pends = h.pends := by
  obtain ⟨h', hw, ⟨he, -⟩ | he⟩ := drainOut_eq h part core ids <;> rw [he]
  · exact hw.pends
  · exact hw.pends

theorem drainOut_wc (h : Hw) (part core : Nat) (ids : List Nat) : ((drainOut h part core ids).ctx part core).wc = (h.ctx part core).wc := by
  obtain ⟨h', hw, ⟨he, -⟩ | he⟩ := drainOut_eq h part core ids <;> rw [he]
  · exact (hw.ctx part core).wc
  · rcases ctx_setCtx_cases h' _ part core with hc | hc <;> rw [hc] <;> exact (hw.ctx part core).wc

theorem drainOutAll_outq (h : Hw) (part core : Nat) : ((drainOutAll h part core).ctx part core).outq = [] := by
  unfold drainOutAll
  obtain ⟨h', hw, ⟨he, hnil⟩ | he⟩ := drainOut_eq h part core ((h.ctx part core).outq.map fun o => o.id) <;> rw [he]
  · rw [(hw.ctx part core).outq, hnil]
  · refine ctx_setCtx_of (fun c => c.outq = []) (by simp) (by simp) rfl ?_
    simp only [List.filter_eq_nil_iff, Bool.not_eq_true', List.contains_eq_mem, decide_eq_false_iff_not, Decidable.not_not]
    exact fun o ho => mem_outClosure_of_id ho (List.mem_map_of_mem ho)

/-- Buffers drain: the context is what it was, but for its caches and for the buffers that have drained. -/
theorem wcDrain_eq (h : Hw) (part core : Nat) (p : WcLine → Bool) : ∃ h', WritesHome h h' ∧
    wcDrain h part core p = h'.setCtx { h'.ctx part core with wc := ((h.ctx part core).wc.partition p).2 } :=
  ⟨_, WritesHome.writeKeys h _ _, rfl⟩

@[simp] theorem wcDrain_pends (h : Hw) (part core : Nat) (p : WcLine → Bool) : (wcDrain h part core p).pends = h.pends := by
  obtain ⟨h', hw, he⟩ := wcDrain_eq h part core p
  rw [he]
  exact hw.pends

theorem wcDrain_wc (h : Hw) (part core : Nat) (p : WcLine → Bool) : ∀ l ∈ ((wcDrain h part core p).ctx part core).wc, p l = false := by
  obtain ⟨h', hw, he⟩ := wcDrain_eq h part core p
  rw [he]
  refine ctx_setCtx_of (fun c => ∀ l ∈ c.wc, p l = false) (by simp) (by simp) (by simp [Ctx.empty]) fun l hl => ?_
  simp only [List.partition_eq_filter_filter, List.mem_filter, Function.comp_apply, Bool.not_eq_true'] at hl
  exact hl.2

/-! ### The thread's accesses performed for every observer (R234) -/

theorem unlessConsumed_todo {s s' : State} {left : Pend → Bool} (h : unlessConsumed s left = .ok s') :
    ∀ q ∈ s'.hw.pends, left q = true → q.todo = [] := by
  rw [unlessConsumed_ok h]
  unfold unlessConsumed at h
  split at h
  · split at h
    · cases h
    · next hno =>
      intro q hq hleft
      simp only [Bool.not_eq_true, List.any_eq_false, Bool.and_eq_true, Bool.not_eq_true', not_and, Bool.not_eq_false,
        List.isEmpty_iff] at hno
      exact hno q hq hleft
  · cases h

theorem flush_todo {s s' : State} (h : flush s = .ok s') : ∀ q ∈ s'.hw.pends, q.ofThread s.th = true → q.todo = [] := unlessConsumed_todo h

theorem orderCore_eq {s s' : State} (h : orderCore s = .ok s') : ∃ u, flush s = .ok u ∧ s' = showOwn (drainOwn u) := by
  unfold orderCore at h
  cases hf : flush s with
  | error e => rw [hf] at h; cases h
  | ok u => rw [hf] at h; cases h; exact ⟨u, rfl, rfl⟩

theorem orderAll_eq {s s' : State} (h : orderAll s = .ok s') : ∃ u, flush s = .ok u ∧ s' = drainCore (showOwn (drainOwn u)) := by
  unfold orderAll at h
  cases hf : orderCore s with
  | error e => rw [hf] at h; cases h
  | ok u =>
    rw [hf] at h
    cases h
    obtain ⟨v, hv, rfl⟩ := orderCore_eq hf
    exact ⟨v, hv, rfl⟩

theorem showOwn_wc (s : State) : ((showOwn s).hw.ctx s.th.key.part s.th.key.core).wc = (s.hw.ctx s.th.key.part s.th.key.core).wc := by
  rcases ctx_setCtx_cases s.hw ((s.hw.ctx s.th.key.part s.th.key.core).endLate fun w => w.key == s.th.key) s.th.key.part s.th.key.core
    with hc | hc
  · exact (congrArg Ctx.wc hc :)
  · exact (congrArg Ctx.wc hc :)

theorem drainCore_hw (s : State) : (drainCore s).hw = (drainOutAll s.hw s.th.key.part s.th.key.core).setCtx
    (((drainOutAll s.hw s.th.key.part s.th.key.core).ctx s.th.key.part s.th.key.core).endLate fun _ => true) := rfl

theorem drainCore_nothingLate (s : State) : NothingLate ((drainCore s).hw.ctx s.th.key.part s.th.key.core) := by
  rw [drainCore_hw]
  refine ctx_setCtx_of NothingLate (ctx_part ..) (ctx_core ..) ⟨rfl, rfl⟩ ⟨drainOutAll_outq .., ?_⟩
  simp [Ctx.endLate]

theorem drainCore_wc (s : State) : ((drainCore s).hw.ctx s.th.key.part s.th.key.core).wc = (s.hw.ctx s.th.key.part s.th.key.core).wc := by
  rw [drainCore_hw]
  rcases ctx_setCtx_cases (drainOutAll s.hw s.th.key.part s.th.key.core)
    (((drainOutAll s.hw s.th.key.part s.th.key.core).ctx s.th.key.part s.th.key.core).endLate fun _ => true) s.th.key.part s.th.key.core
    with hc | hc <;> rw [hc] <;> exact drainOut_wc ..

theorem drainOwn_wc (s : State) : ∀ l ∈ ((drainOwn s).hw.ctx s.th.key.part s.th.key.core).wc, l.holds s.th.key = false :=
  wcDrain_wc s.hw _ _ _

theorem drainCore_pends (s : State) : (drainCore s).hw.pends = s.hw.pends := by
  rw [drainCore_hw, Hw.setCtx_pends, drainOutAll, drainOut_pends]

theorem drainOwn_pends (s : State) : (drainOwn s).hw.pends = s.hw.pends := wcDrain_pends ..

/-- After a thread has been ordered for every observer, its accesses are performed (R160, R162, R182, R234, R262). -/
theorem orderAll_performed {s s' : State} (h : orderAll s = .ok s') : AccessesPerformed s s' := by
  obtain ⟨u, hu, rfl⟩ := orderAll_eq h
  have hth := flush_th hu
  have hwc : ∀ l ∈ ((drainCore (showOwn (drainOwn u))).hw.ctx u.th.key.part u.th.key.core).wc, l.holds u.th.key = false := by
    have hsame : ((drainCore (showOwn (drainOwn u))).hw.ctx u.th.key.part u.th.key.core).wc =
        ((drainOwn u).hw.ctx u.th.key.part u.th.key.core).wc := (drainCore_wc (showOwn (drainOwn u))).trans (showOwn_wc (drainOwn u))
    rw [hsame]
    exact drainOwn_wc u
  rw [hth] at hwc
  have hlate := drainCore_nothingLate (showOwn (drainOwn u))
  rw [show (showOwn (drainOwn u)).th = s.th from hth] at hlate
  refine ⟨fun q hq hown => flush_todo hu q ?_ hown, hlate, hwc⟩
  rw [drainCore_pends] at hq
  rw [← drainOwn_pends u]
  exact hq

end Sys2Proof.Proofs

/-!
Engine commands (R45, R231 to R234, R242 to R255): what issuing one does, and which instructions issue them.
-/
namespace Sys2Proof.Proofs
open Sys2Proof.Machine

/-! ### A command is counted -/

section
variable {u u' : State} {cls : EngineClass} {c : Issuer}

theorem countCommand_full (h : 63 ≤ u.th.count cls) : countCommand u cls = .error (.wait .engine) := if_pos h

theorem countCommand_ok (h : countCommand u cls = .ok (c, u')) : u.th.count cls < 63 ∧ ∃ v, orderAll u = .ok v ∧
    c = ⟨u.th.key, u.th.tid, u.th.launch, u.th.pc, u.th.issued[cls.index]⟩ ∧
    u' = v.setTh { u.th with cmds := u.th.cmds ++ [⟨cls, c.seq⟩], issued := u.th.issued.set cls.index (u.th.issued[cls.index] + 1) } := by
  unfold countCommand at h
  split at h
  · cases h
  · next hlt =>
    obtain ⟨v, hv, h⟩ := Except.bind_ok h
    cases h
    exact ⟨Nat.lt_of_not_le hlt, v, hv, by rw [orderAll_th hv], by rw [orderAll_th hv]⟩

theorem plainCommand_ok (h : plainCommand u = .ok (c, u')) : orderAll u = .ok u' ∧ c = ⟨u.th.key, u.th.tid, u.th.launch, u.th.pc, 0⟩ := by
  obtain ⟨v, hv, h⟩ := Except.bind_ok h
  cases h
  exact ⟨hv, by rw [orderAll_th hv]⟩

theorem countCommand_counts (h : countCommand u cls = .ok (c, u')) :
    c = ⟨u.th.key, u.th.tid, u.th.launch, u.th.pc, u.th.issued[cls.index]⟩ ∧ u'.th.cmds = u.th.cmds ++ [⟨cls, c.seq⟩] ∧
      u'.th.count cls = u.th.count cls + 1 ∧ u'.th.issued[cls.index] = u.th.issued[cls.index] + 1 ∧ u'.th.cells = u.th.cells ∧
      u'.th.sregs = u.th.sregs ∧ u'.th.pc = u.th.pc ∧ AccessesPerformed u u' := by
  obtain ⟨-, v, hv, hc, rfl⟩ := countCommand_ok h
  exact ⟨hc, rfl, by simp [Thread.count, Thread.outstanding], by simp, rfl, rfl, rfl, (orderAll_performed hv :)⟩

theorem plainCommand_performs (h : plainCommand u = .ok (c, u')) :
    c = ⟨u.th.key, u.th.tid, u.th.launch, u.th.pc, 0⟩ ∧ u'.th = u.th ∧ AccessesPerformed u u' := by
  obtain ⟨hv, hc⟩ := plainCommand_ok h
  exact ⟨hc, orderAll_th hv, orderAll_performed hv⟩

end

theorem saw_count (t : Thread) (p : Pend) (cls : EngineClass) : (t.saw p).count cls = t.count cls := by
  obtain ⟨sees, conRead, h⟩ := saw_eq t p
  rw [h]
  rfl

/-! ### The matrix queue -/

theorem mxFull_room {s : State} (h : s.myCtx.mxq.length < 32) : mxFull s = .ok () := if_neg (Nat.not_le.2 h)

theorem mxFull_full {s : State} (h : 32 ≤ s.myCtx.mxq.length) : mxFull s = .error (.wait .engine) := if_pos h

/-- A command that finds its queue full, or 63 of its class outstanding, waits. -/
theorem mxFull_then_count {α : Type} {s : State} (h : 32 ≤ s.myCtx.mxq.length ∨ 63 ≤ s.th.count .matrix) (k : Issuer × State → Except Stop α) :
    (mxFull s >>= fun _ => countCommand s .matrix >>= k) = .error (.wait .engine) := by
  by_cases hfull : 32 ≤ s.myCtx.mxq.length
  · rw [mxFull_full hfull, error_bind]
  · rw [mxFull_room (Nat.lt_of_not_le hfull), ok_bind, countCommand_full (h.resolve_left hfull), error_bind]

section
variable {o : ScalarOps} {s s1 s2 : State} {t : Thread} {bs : List Byte} {c : Issuer}

theorem exec_mxgo (o : ScalarOps) (s : State) : exec (.mxgo o) s = execMxgo o s := rfl
theorem exec_mxclr (o : ScalarOps) (s : State) : exec (.mxclr o) s = execMxclr o s := rfl
theorem exec_accrd (o : ScalarOps) (s : State) : exec (.accrd o) s = execAccrd o s := rfl
theorem exec_accwr (o : ScalarOps) (s : State) : exec (.accwr o) s = execAccwr o s := rfl
theorem exec_cbwr (o : ScalarOps) (s : State) : exec (.cbwr o) s = execCbwr o s := rfl
theorem exec_selRun (o : ScalarOps) (s : State) : exec (.selRun o) s = execSelRun o s := rfl

theorem check_of_false {i : Instr} {b : Bool} (h : b = false) : Machine.check i b = .error (ill i 2) := by rw [h]; rfl
theorem check_of_true {i : Instr} {b : Bool} (h : b = true) : Machine.check i b = .ok () := by rw [h]; rfl

theorem loadNow_launch {s s' : State} {space n : Nat} {ea : DWord} {bs : List Byte} (h : loadNow s space ea n = .ok (bs, s')) :
    s'.th.launch = s.th.launch := by
  obtain ⟨p, hp⟩ := loadNow_th h
  rw [hp, saw_launch]

theorem loadNow_count {s s' : State} {space n : Nat} {ea : DWord} {bs : List Byte} (h : loadNow s space ea n = .ok (bs, s'))
    (cls : EngineClass) : s'.th.count cls = s.th.count cls := by
  obtain ⟨p, hp⟩ := loadNow_th h
  rw [hp, saw_count]

theorem readBlock_count {i : Instr} {s s' : State} {a : DWord} {n align : Nat} {bs : List Byte}
    (h : readBlock i s a n align = .ok (bs, s')) (cls : EngineClass) : s'.th.count cls = s.th.count cls := by
  obtain ⟨p, hp⟩ := readBlock_th h
  rw [hp, saw_count]

/-! ### Commands of the matrix engine -/

theorem mxgo_issues {p : MxGo} {high : Bool} (h : Entered (.mxgo o) s t) (halign : (t.code o.a).toNat % 16 = 0)
    (hread : loadNow (s.setTh t) 1 (t.code o.a) 64 = .ok (bs, s1))
    (hgo : mxGo? s1.myCtx t.launch s1.scrSize s1.accCols bs = some (p, high)) (hroom : s1.myCtx.mxq.length < 32)
    (hcount : countCommand s1 .matrix = .ok (c, s2)) : CompletesAs (.mxgo o) s (queueMx s2 c high (.go p)) :=
  completesAs_of_run (exec_mxgo o s) h (by
    simp only [State.setTh_th, check_of_true (beq_iff_eq.2 halign), ok_bind, hread, loadNow_launch hread, hgo, mxFull_room hroom, hcount])

theorem mxgo_misaligned (h : Entered (.mxgo o) s t) (halign : (t.code o.a).toNat % 16 ≠ 0) : StopsWith (.mxgo o) s t (ill (.mxgo o) 2) :=
  stopsWith_of_run (exec_mxgo o s) h (by
    simp only [State.setTh_th, check_of_false (beq_eq_false_iff_ne.2 halign), error_bind])

theorem mxgo_refused (h : Entered (.mxgo o) s t) (halign : (t.code o.a).toNat % 16 = 0)
    (hread : loadNow (s.setTh t) 1 (t.code o.a) 64 = .ok (bs, s1))
    (hgo : mxGo? s1.myCtx t.launch s1.scrSize s1.accCols bs = none) : StopsWith (.mxgo o) s t (ill (.mxgo o) 2) :=
  stopsWith_of_run (exec_mxgo o s) h (by
    simp only [State.setTh_th, check_of_true (beq_iff_eq.2 halign), ok_bind, hread, loadNow_launch hread, hgo])

theorem mxgo_waits {p : MxGo} {high : Bool} (h : Entered (.mxgo o) s t) (halign : (t.code o.a).toNat % 16 = 0)
    (hread : loadNow (s.setTh t) 1 (t.code o.a) 64 = .ok (bs, s1))
    (hgo : mxGo? s1.myCtx t.launch s1.scrSize s1.accCols bs = some (p, high))
    (hfull : 32 ≤ s1.myCtx.mxq.length ∨ 63 ≤ t.count .matrix) : StopsWith (.mxgo o) s t (.wait .engine) := by
  refine stopsWith_of_run (exec_mxgo o s) h ?_
  simp only [State.setTh_th, check_of_true (beq_iff_eq.2 halign), ok_bind, hread, loadNow_launch hread, hgo]
  exact mxFull_then_count (by rwa [loadNow_count hread]) _

theorem mxclr_issues (h : Entered (.mxclr o) s t) (hlo : 1 ≤ (t.scalarB o.b).toNat) (hhi : (t.scalarB o.b).toNat ≤ 1024)
    (hin : (t.code o.a).toNat + (t.scalarB o.b).toNat ≤ (s.setTh t).accCols) (hroom : (s.setTh t).myCtx.mxq.length < 32)
    (hcount : countCommand (s.setTh t) .matrix = .ok (c, s2)) :
    CompletesAs (.mxclr o) s (queueMx s2 c false (.clr (t.code o.a).toNat (t.scalarB o.b).toNat)) :=
  completesAs_of_run (exec_mxclr o s) h (by
    have hok : (decide (1 ≤ (t.scalarB o.b).toNat) && decide ((t.scalarB o.b).toNat ≤ 1024) &&
        decide ((t.code o.a).toNat + (t.scalarB o.b).toNat ≤ (s.setTh t).accCols)) = true := by simp [hlo, hhi, hin]
    dsimp only [State.setTh_th]
    simp only [check_of_true hok, ok_bind, mxFull_room hroom, hcount])

theorem mxclr_waits (h : Entered (.mxclr o) s t) (hlo : 1 ≤ (t.scalarB o.b).toNat) (hhi : (t.scalarB o.b).toNat ≤ 1024)
    (hin : (t.code o.a).toNat + (t.scalarB o.b).toNat ≤ (s.setTh t).accCols)
    (hfull : 32 ≤ (s.setTh t).myCtx.mxq.length ∨ 63 ≤ t.count .matrix) : StopsWith (.mxclr o) s t (.wait .engine) :=
  stopsWith_of_run (exec_mxclr o s) h (by
    have hok : (decide (1 ≤ (t.scalarB o.b).toNat) && decide ((t.scalarB o.b).toNat ≤ 1024) &&
        decide ((t.code o.a).toNat + (t.scalarB o.b).toNat ≤ (s.setTh t).accCols)) = true := by simp [hlo, hhi, hin]
    dsimp only [State.setTh_th]
    simp only [check_of_true hok, ok_bind]
    exact mxFull_then_count (s := s.setTh t) hfull _)

theorem mxclr_refused (h : Entered (.mxclr o) s t) (hout : (t.scalarB o.b).toNat = 0 ∨ 1024 < (t.scalarB o.b).toNat ∨
    (s.setTh t).accCols < (t.code o.a).toNat + (t.scalarB o.b).toNat) : StopsWith (.mxclr o) s t (ill (.mxclr o) 2) :=
  stopsWith_of_run (exec_mxclr o s) h (by
    have hno : (decide (1 ≤ (t.scalarB o.b).toNat) && decide ((t.scalarB o.b).toNat ≤ 1024) &&
        decide ((t.code o.a).toNat + (t.scalarB o.b).toNat ≤ (s.setTh t).accCols)) = false := by
      simp only [Bool.and_eq_false_iff, decide_eq_false_iff_not]
      omega
    dsimp only [State.setTh_th]
    rw [check_of_false hno, error_bind])

theorem accwr_inside {b cols : Nat} (hb : b < 2 ^ 18) (hin : b / 256 < cols) : (decide (b < 2 ^ 18) && decide (b / 256 < cols)) = true := by
  rw [decide_eq_true hb, decide_eq_true hin]
  rfl

/-- A source of consecutive cells that are full is ready (R37). -/
theorem need_full {t : Thread} {i n : Nat} (ep : Bool) (field : Nat) (h : t.fullAt i n) : t.need ep field i n = .ok () := by
  simp [Thread.need, Thread.needAll, Thread.empties, (t.firstEmpty_none i n).2 h, minBy]

theorem accwr_issues (h : Entered (.accwr o) s t) (hb : (t.scalarB o.b).toNat < 2 ^ 18)
    (hin : (t.scalarB o.b).toNat / 256 < (s.setTh t).accCols) (hfull : t.fullAt o.a.toNat 1) (hroom : (s.setTh t).myCtx.mxq.length < 32)
    (hcount : countCommand (s.setTh t) .matrix = .ok (c, s2)) : CompletesAs (.accwr o) s
      (queueMx s2 c false (.wr ((t.scalarB o.b).toNat % 256) ((t.scalarB o.b).toNat / 256) (t.cell o.a.toNat).data)) := by
  have hcells : s2.th.cell o.a.toNat = t.cell o.a.toNat := by
    obtain ⟨-, -, -, -, hc, -⟩ := countCommand_counts hcount
    exact congrArg (fun cs => cs.getD o.a.toNat ⟨0, true, .plain⟩) hc
  refine completesAs_of_run (exec_accwr o s) h ?_
  dsimp only
  rw [check_of_true (accwr_inside (b := ((s.setTh t).th.scalarB o.b).toNat) hb hin)]
  simp only [State.setTh_th, ok_bind, need_full _ _ hfull, mxFull_room hroom, hcount, hcells]

theorem accwr_waits (h : Entered (.accwr o) s t) (hb : (t.scalarB o.b).toNat < 2 ^ 18)
    (hin : (t.scalarB o.b).toNat / 256 < (s.setTh t).accCols) (hfull : t.fullAt o.a.toNat 1)
    (hbusy : 32 ≤ (s.setTh t).myCtx.mxq.length ∨ 63 ≤ t.count .matrix) : StopsWith (.accwr o) s t (.wait .engine) := by
  refine stopsWith_of_run (exec_accwr o s) h ?_
  dsimp only
  rw [check_of_true (accwr_inside (b := ((s.setTh t).th.scalarB o.b).toNat) hb hin)]
  simp only [State.setTh_th, ok_bind, need_full _ _ hfull]
  exact mxFull_then_count (s := s.setTh t) hbusy _

theorem accwr_refused (h : Entered (.accwr o) s t)
    (hout : 2 ^ 18 ≤ (t.scalarB o.b).toNat ∨ (s.setTh t).accCols ≤ (t.scalarB o.b).toNat / 256) :
    StopsWith (.accwr o) s t (ill (.accwr o) 2) :=
  stopsWith_of_run (exec_accwr o s) h (by
    have hno : (decide ((t.scalarB o.b).toNat < 2 ^ 18) && decide ((t.scalarB o.b).toNat / 256 < (s.setTh t).accCols)) = false := by
      simp only [Bool.and_eq_false_iff, decide_eq_false_iff_not, Nat.not_lt]
      exact hout
    dsimp only [State.setTh_th]
    rw [check_of_false hno, error_bind])

/-- The descriptor of ACCRD names the cell that it was asked for. -/
theorem accRd?_cell {a b cell : Nat} {d : AccRd} (h : accRd? s a b cell = some d) : d.cell = cell := by
  unfold accRd? at h
  rw [Option.ite_none_right_eq_some] at h
  rw [← (Option.some.inj h.2)]

theorem accrd_issues {d : AccRd} (h : Entered (.accrd o) s t)
    (hd : accRd? (s.setTh t) (t.code o.a).toNat (t.scalarB o.b).toNat o.d.toNat = some d) (hroom : (s.setTh t).myCtx.mxq.length < 32)
    (hdst : d.dst.isSome = true) (hcount : countCommand (s.setTh t) .matrix = .ok (c, s2)) :
    CompletesAs (.accrd o) s (queueMx s2 c false (.rd d)) := by
  obtain ⟨off, hoff⟩ := Option.isSome_iff_exists.1 hdst
  refine completesAs_of_run (exec_accrd o s) h ?_
  simp only [State.setTh_th, hd, hoff, mxFull_room hroom, ok_bind, hcount]

theorem accrd_issues_cell {d : AccRd} (h : Entered (.accrd o) s t)
    (hd : accRd? (s.setTh t) (t.code o.a).toNat (t.scalarB o.b).toNat o.d.toNat = some d) (hroom : (s.setTh t).myCtx.mxq.length < 32)
    (hdst : d.dst = none) (hfull : t.fullAt o.d.toNat 1) (hplain : plainCommand (s.setTh t) = .ok (c, s2)) :
    CompletesAs (.accrd o) s ((queueMx s2 c false (.rd d)).setTh (t.markEmpty o.d.toNat 1)) := by
  have hth : (queueMx s2 c false (.rd d)).th = t := (plainCommand_performs hplain).2.1
  refine completesAs_of_run (exec_accrd o s) h ?_
  simp only [State.setTh_th, hd, hdst, accRd?_cell hd, Thread.needFree_ok t _ _ hfull, mxFull_room hroom, ok_bind, hplain, hth]

theorem accrd_waits {d : AccRd} (h : Entered (.accrd o) s t)
    (hd : accRd? (s.setTh t) (t.code o.a).toNat (t.scalarB o.b).toNat o.d.toNat = some d) (hdst : d.dst.isSome = true)
    (hbusy : 32 ≤ (s.setTh t).myCtx.mxq.length ∨ 63 ≤ t.count .matrix) : StopsWith (.accrd o) s t (.wait .engine) := by
  obtain ⟨off, hoff⟩ := Option.isSome_iff_exists.1 hdst
  refine stopsWith_of_run (exec_accrd o s) h ?_
  simp only [State.setTh_th, hd, hoff]
  exact mxFull_then_count (s := s.setTh t) hbusy _

theorem accrd_waits_cell {d : AccRd} (h : Entered (.accrd o) s t)
    (hd : accRd? (s.setTh t) (t.code o.a).toNat (t.scalarB o.b).toNat o.d.toNat = some d) (hdst : d.dst = none)
    (hfull : t.fullAt o.d.toNat 1) (hbusy : 32 ≤ (s.setTh t).myCtx.mxq.length) : StopsWith (.accrd o) s t (.wait .engine) := by
  refine stopsWith_of_run (exec_accrd o s) h ?_
  simp only [State.setTh_th, hd, hdst, accRd?_cell hd, Thread.needFree_ok t _ _ hfull, mxFull_full hbusy, ok_bind, error_bind]

theorem accrd_refused (h : Entered (.accrd o) s t)
    (hd : accRd? (s.setTh t) (t.code o.a).toNat (t.scalarB o.b).toNat o.d.toNat = none) : StopsWith (.accrd o) s t (ill (.accrd o) 2) :=
  stopsWith_of_run (exec_accrd o s) h (by simp only [State.setTh_th, hd])

/-! ### Commands of the copy engine -/

theorem issueCopy_full {u : State} (q : CopyCmd) (h : 64 ≤ u.myCtx.cpq.length) : issueCopy u q = .error (.wait .engine) := if_pos h

theorem issueCopy_room {u u1 : State} (q : CopyCmd) (hroom : u.myCtx.cpq.length < 64) (hcount : countCommand u .copy = .ok (c, u1)) :
    issueCopy u q = .ok ((u1.mapHw fun h => { h with nextId := h.nextId + 1 }).mapCtx c.key.part c.key.core fun x =>
        ({ x with cpq := x.cpq ++ [{ q with id := u1.hw.nextId, issuer := c }] } : Ctx).clearLines c.launch
          ({ q with id := u1.hw.nextId, issuer := c } : CopyCmd).lines) := by
  rw [issueCopy, if_neg (Nat.not_le.2 hroom), hcount, ok_bind]
  rfl

theorem issueCopy_busy {u : State} (q : CopyCmd) (h : 64 ≤ u.myCtx.cpq.length ∨ 63 ≤ u.th.count .copy) :
    issueCopy u q = .error (.wait .engine) := by
  by_cases hfull : 64 ≤ u.myCtx.cpq.length
  · exact issueCopy_full q hfull
  · rw [issueCopy, if_neg hfull, countCommand_full (h.resolve_left hfull), error_bind]

section
variable {i : Instr} {kind : CopyKind} {q : CopyCmd} {u : State}

theorem cpy_issues (hexec : exec i s = cpy i o kind s) (h : Entered i s t) (hread : readBlock i (s.setTh t) (t.code o.a) 64 16 = .ok (bs, s1))
    (hq : copyCmd? s1 kind bs = some q) (hu : issueCopy s1 q = .ok u) : CompletesAs i s u :=
  completesAs_of_run hexec h (by simp only [State.setTh_th, hread, ok_bind, hq, hu])

theorem cpy_refused (hexec : exec i s = cpy i o kind s) (h : Entered i s t) (hread : readBlock i (s.setTh t) (t.code o.a) 64 16 = .ok (bs, s1))
    (hq : copyCmd? s1 kind bs = none) : StopsWith i s t (ill i 2) :=
  stopsWith_of_run hexec h (by simp only [State.setTh_th, hread, ok_bind, hq])

theorem cpy_waits (hexec : exec i s = cpy i o kind s) (h : Entered i s t) (hread : readBlock i (s.setTh t) (t.code o.a) 64 16 = .ok (bs, s1))
    (hq : copyCmd? s1 kind bs = some q) (hbusy : 64 ≤ s1.myCtx.cpq.length ∨ 63 ≤ t.count .copy) : StopsWith i s t (.wait .engine) :=
  stopsWith_of_run hexec h (by
    simp only [State.setTh_th, hread, ok_bind, hq]
    exact issueCopy_busy q (by rwa [readBlock_count hread]))

end

/-- The three instructions of COPY, each with its kind. -/
theorem exec_cpy_of_mem {x : Instr × CopyKind} (hx : x ∈ [(Instr.cpyCopy o, CopyKind.copy), (.cpyFill o, .fill), (.cpyLook o, .look)])
    (s : State) : exec x.1 s = cpy x.1 o x.2 s := by
  simp only [List.mem_cons, List.not_mem_nil, or_false] at hx
  rcases hx with rfl | rfl | rfl
  · exact (rfl : exec (.cpyCopy o) s = execCpyCopy o s)
  · exact (rfl : exec (.cpyFill o) s = execCpyFill o s)
  · exact (rfl : exec (.cpyLook o) s = execCpyLook o s)

theorem cbwr_issues {q : CopyCmd} {u : State} (h : Entered (.cbwr o) s t) (hq : bankCmd? (s.setTh t) (t.code o.a) (t.scalarB o.b) = some q)
    (hu : issueCopy (s.setTh t) q = .ok u) : CompletesAs (.cbwr o) s u :=
  completesAs_of_run (exec_cbwr o s) h (by simp only [State.setTh_th, hq, hu])

theorem cbwr_refused (h : Entered (.cbwr o) s t) (hq : bankCmd? (s.setTh t) (t.code o.a) (t.scalarB o.b) = none) :
    StopsWith (.cbwr o) s t (ill (.cbwr o) 2) :=
  stopsWith_of_run (exec_cbwr o s) h (by simp only [State.setTh_th, hq])

theorem cbwr_waits {q : CopyCmd} (h : Entered (.cbwr o) s t) (hq : bankCmd? (s.setTh t) (t.code o.a) (t.scalarB o.b) = some q)
    (hbusy : 64 ≤ (s.setTh t).myCtx.cpq.length ∨ 63 ≤ t.count .copy) : StopsWith (.cbwr o) s t (.wait .engine) :=
  stopsWith_of_run (exec_cbwr o s) h (by
    simp only [State.setTh_th, hq]
    exact issueCopy_busy (u := s.setTh t) q hbusy)

/-! ### SEL.run -/

theorem selRun_issues (h : Entered (.selRun o) s t) (hread : readBlock (.selRun o) (s.setTh t) (t.code o.a) 64 16 = .ok (bs, s1))
    (hok : (selBlock bs).ok bs s1.scrSize = true) (hroom : s1.myCtx.selq.length < 16)
    (hcount : countCommand s1 .select = .ok (c, s2)) :
    CompletesAs (.selRun o) s ((s2.mapHw fun h => { h with nextId := h.nextId + 1 }).mapCtx c.key.part c.key.core fun x =>
      { x with selq := x.selq ++ [{ id := s2.hw.nextId, issuer := c, blk := selBlock bs, permit := false, pass := 0, chosen := 0,
                                    cand := [], sel := [], need := 0, tgt := 0, clamped := false, result := none,
                                    seen := [], put := [], wrote := [] }] }) := by
  refine completesAs_of_run (exec_selRun o s) h ?_
  simp only [State.setTh_th, hread, ok_bind, check_of_true hok, if_neg (Nat.not_le.2 hroom), hcount]
  rfl

theorem selRun_refused (h : Entered (.selRun o) s t) (hread : readBlock (.selRun o) (s.setTh t) (t.code o.a) 64 16 = .ok (bs, s1))
    (hok : (selBlock bs).ok bs s1.scrSize = false) : StopsWith (.selRun o) s t (ill (.selRun o) 2) :=
  stopsWith_of_run (exec_selRun o s) h (by simp only [State.setTh_th, hread, ok_bind, check_of_false hok, error_bind])

theorem selRun_waits (h : Entered (.selRun o) s t) (hread : readBlock (.selRun o) (s.setTh t) (t.code o.a) 64 16 = .ok (bs, s1))
    (hok : (selBlock bs).ok bs s1.scrSize = true) (hbusy : 16 ≤ s1.myCtx.selq.length ∨ 63 ≤ t.count .select) :
    StopsWith (.selRun o) s t (.wait .engine) := by
  refine stopsWith_of_run (exec_selRun o s) h ?_
  simp only [State.setTh_th, hread, ok_bind, check_of_true hok]
  by_cases hfull : 16 ≤ s1.myCtx.selq.length
  · rw [if_pos hfull]
  · rw [if_neg hfull, countCommand_full (by rw [readBlock_count hread]; exact hbusy.resolve_left hfull), error_bind]

end
end Sys2Proof.Proofs

/-!
The limits of engine commands (R240 to R249, R252, R254): the tables of their blocks and operands, and the lines that they write.
-/
namespace Sys2Proof.Proofs
open Sys2Proof.Machine

/-! ### Rows of packed elements (R58) -/

/-- The last byte of an element of a packed row lies in the row. -/
theorem elementByte_lt {e k w : Nat} (he : e < k) (hw : 1 ≤ w) : (e * w + w - 1) / 8 < (k * w + 7) / 8 := by
  have hmul : e * w + w ≤ k * w := by rw [← Nat.succ_mul]; exact Nat.mul_le_mul_right w he
  omega

/-- The last byte of the last element is the last byte of the row. -/
theorem lastElementByte {k w : Nat} (hk : 1 ≤ k) (hw : 1 ≤ w) : ((k - 1) * w + w - 1) / 8 + 1 = (k * w + 7) / 8 := by
  have hmul : (k - 1) * w + w = k * w := by rw [← Nat.succ_mul]; congr 1; omega
  have hpos : 1 ≤ k * w := Nat.mul_pos hk hw
  omega

theorem mxWidth_pos (f : Nat) : 1 ≤ mxWidth f := by unfold mxWidth; split <;> decide

/-- Rows of packed elements lie below a bound where the last byte of the last row does. -/
theorem rows_below_iff {rows k pitch f base size : Nat} (hrows : 1 ≤ rows) (hk : 1 ≤ k) :
    base + (rows - 1) * pitch + rowBytes f k ≤ size ↔
      ∀ row e, row < rows → e < k → base + row * pitch + (e * mxWidth f + mxWidth f - 1) / 8 < size := by
  have hw := mxWidth_pos f
  unfold rowBytes bytesFor
  constructor
  · intro h row e hrow he
    have hbyte := elementByte_lt he hw
    have hmul : row * pitch ≤ (rows - 1) * pitch := Nat.mul_le_mul_right pitch (by omega)
    omega
  · intro h
    have hlast := h (rows - 1) (k - 1) (by omega) (by omega)
    have hbyte := lastElementByte hk hw
    omega

/-- Scales, `q` to a row, lie below a bound where the last one does. -/
theorem scales_below_iff {scale rows q size : Nat} (hrows : 1 ≤ rows) (hq : 1 ≤ q) : scale + rows * q ≤ size ↔
    ∀ row j, row < rows → j < q → scale + row * q + j < size := by
  constructor
  · intro h row j hrow hj
    have hmul : row * q + q ≤ rows * q := by rw [← Nat.succ_mul]; exact Nat.mul_le_mul_right q hrow
    omega
  · intro h
    have hlast := h (rows - 1) (q - 1) (by omega) (by omega)
    have hmul : (rows - 1) * q + q = rows * q := by rw [← Nat.succ_mul]; congr 1; omega
    omega

/-- Rows in tiles of 256 elements lie below a bound where the last byte of each tile's last row does. -/
theorem tiles_below_iff {rows k pitch tpitch f base size : Nat} (hrows : 1 ≤ rows) :
    (∀ t, t < (k + 255) / 256 → base + t * tpitch + (rows - 1) * pitch + rowBytes f (min 256 (k - 256 * t)) ≤ size) ↔
      ∀ row e, row < rows → e < k → base + e / 256 * tpitch + row * pitch + (e % 256 * mxWidth f + mxWidth f - 1) / 8 < size := by
  constructor
  · intro h row e hrow he
    exact (rows_below_iff hrows (by omega)).1 (h (e / 256) (by omega)) row (e % 256) hrow (by omega)
  · intro h t ht
    refine (rows_below_iff hrows (by omega)).2 fun row e hrow he => ?_
    have hdiv : (256 * t + e) / 256 = t := by omega
    have hmod : (256 * t + e) % 256 = e := by omega
    simpa only [hdiv, hmod] using h row (256 * t + e) hrow (by omega)

/-! ### MXGO (R242 to R244) -/

theorem mxBlockOk_iff (f b : Nat) : mxBlockOk f b = true ↔ if f = 9 then b = 1 ∨ b = 2 else if f < 5 then b ≤ 2 else b = 0 := by
  unfold mxBlockOk
  by_cases h9 : f = 9
  · simp [h9]
  · by_cases h5 : f < 5 <;> simp [h9, h5]

theorem blockLen_eq (b : Nat) : blockLen b = 16 * b := by unfold blockLen; split <;> simp_all

/-- The scales of a source: none without blocks, else one for each block of whole rows (R243). -/
theorem blocks_below_iff {b k rows scale size : Nat} (hrows : 1 ≤ rows) (hk : 1 ≤ k) :
    ((16 * b = 0 ∨ k % (16 * b) = 0) ∧ (16 * b = 0 ∨ scale + rows * (k / (16 * b)) ≤ size)) ↔
      (b ≠ 0 → k % (16 * b) = 0 ∧ ∀ row j, row < rows → j < k / (16 * b) → scale + row * (k / (16 * b)) + j < size) := by
  by_cases hb : b = 0
  · simp [hb]
  · have hb' : 16 * b ≠ 0 := by omega
    simp only [hb', false_or, ne_eq, hb, not_false_eq_true, forall_const]
    refine and_congr_right fun hmod => scales_below_iff hrows ?_
    exact Nat.div_pos (Nat.le_of_dvd hk (Nat.dvd_of_mod_eq_zero hmod)) (by omega)

theorem mxSource_iff {c : Ctx} {launch scr : Nat} {bs : List Byte} {i sc f rows k : Nat} {x : MxSrc} (hrows : 1 ≤ rows) (hk : 1 ≤ k) :
    mxSource c launch scr bs i sc f rows k = some x ↔ SourceIs c launch scr bs i sc f rows k x := by
  unfold mxSource SourceIs
  simp only [zeroFld, blockLen_eq]
  by_cases h3 : fld bs (i + 3) 1 = 0
  swap
  · simp [h3]
  by_cases h0 : fld bs i 1 = 0
  · simp only [h3, h0, beq_self_eq_true, Bool.not_true, Bool.false_eq_true, if_false, if_true, true_and, zero_ne_one, false_and, or_false]
    cases hr : c.resv? launch (fld bs (i + 4) 4) with
    | none => simp
    | some r =>
      have hrow := rows_below_iff (rows := rows) (k := k) (pitch := r.pitch) (f := f) (base := 0) (size := r.length) hrows hk
      have hscale := blocks_below_iff (b := r.blk) (k := k) (rows := rows) (scale := r.scale) (size := r.length) hrows hk
      simp only [Nat.zero_add] at hrow
      simp only [Option.some.injEq, exists_eq_left', ← mxBlockOk_iff, ← hrow, ← hscale, Option.ite_none_right_eq_some,
        Bool.and_eq_true, Bool.or_eq_true, beq_iff_eq, decide_eq_true_eq, bne_iff_ne, ne_eq, eq_comm (b := x)]
      constructor
      · rintro ⟨⟨⟨⟨⟨⟨⟨⟨⟨hrot, hblk⟩, hp⟩, htp⟩, hok⟩, hvq⟩, hmod⟩, hin⟩, hsc⟩, hx⟩
        exact ⟨hrot, hblk, hp, htp, hok, fun h9 => hvq.resolve_left (· h9), ⟨hin, hmod, hsc⟩, hx⟩
      · rintro ⟨hrot, hblk, hp, htp, hok, hvq, ⟨hin, hmod, hsc⟩, hx⟩
        exact ⟨⟨⟨⟨⟨⟨⟨⟨⟨hrot, hblk⟩, hp⟩, htp⟩, hok⟩, Decidable.not_or_of_imp hvq⟩, hmod⟩, hin⟩, hsc⟩, hx⟩
  · by_cases h1 : fld bs i 1 = 1
    · have htile := tiles_below_iff (rows := rows) (k := k) (pitch := fld bs (i + 8) 4) (tpitch := fld bs (i + 12) 4) (f := f)
        (base := fld bs (i + 4) 4) (size := scr) hrows
      have hscale := blocks_below_iff (b := fld bs (i + 2) 1) (k := k) (rows := rows) (scale := sc) (size := scr) hrows hk
      simp only [h3, h1, beq_self_eq_true, Bool.not_true, Bool.false_eq_true, if_false, if_true, true_and, one_ne_zero, false_and,
        false_or, beq_iff_eq, ← mxBlockOk_iff, ← htile, ← hscale, Option.ite_none_right_eq_some, Option.some.injEq, Bool.and_eq_true,
        Bool.or_eq_true, decide_eq_true_eq, bne_iff_ne, ne_eq, List.all_eq_true, List.mem_range, eq_comm (b := x)]
      constructor
      · rintro ⟨⟨⟨⟨⟨⟨hrot, h9⟩, hok⟩, hmod⟩, hin⟩, hsc⟩, hx⟩
        exact ⟨hrot, h9, hok, ⟨hin, hmod, hsc⟩, hx⟩
      · rintro ⟨hrot, h9, hok, ⟨hin, hmod, hsc⟩, hx⟩
        exact ⟨⟨⟨⟨⟨⟨hrot, h9⟩, hok⟩, hmod⟩, hin⟩, hsc⟩, hx⟩
    · simp [h3, h0, h1]

theorem mxPair_iff (fa fb : Nat) : mxPair fa fb = true ↔ (fa < 4 ∧ fb < 4) ∨ (fa = 4 ∧ fb = 4) ∨ ((fa = 7 ∨ fa = 8) ∧ (fb = 7 ∨ fb = 8)) ∨
    (fa < 2 ∧ fb = 9) ∨ ((fa = 5 ∨ fa = 6) ∧ (fb = 5 ∨ fb = 6)) := by
  simp only [mxPair, mxInt, Bool.or_eq_true, Bool.and_eq_true, decide_eq_true_eq, beq_iff_eq, or_assoc]

theorem leNat_lt (bs : List Byte) : leNat bs < 2 ^ (8 * bs.length) := by
  induction bs with
  | nil => simp [leNat]
  | cons b bs ih =>
    have hb := b.isLt
    rw [leNat, List.length_cons, Nat.mul_succ, Nat.pow_add]
    omega

theorem fld_lt (bs : List Byte) (i n : Nat) : fld bs i n < 2 ^ (8 * n) :=
  Nat.lt_of_lt_of_le (leNat_lt _) (Nat.pow_le_pow_right (by decide) (Nat.mul_le_mul_left 8 (by rw [List.length_take]; omega)))

/-- A field of eight bytes as a double word. -/
theorem toNat_ofNat_fld (bs : List Byte) (i : Nat) : (BitVec.ofNat 64 (fld bs i 8)).toNat = fld bs i 8 := by
  rw [BitVec.toNat_ofNat]
  exact Nat.mod_eq_of_lt (fld_lt bs i 8)

/-- The checks of MXGO's block apart from its sources. -/
def mxHead (cols : Nat) (bs : List Byte) : Bool :=
  mxPair (fld bs 0 1) (fld bs 1 1) && fld bs 2 1 < 4 && zeroFld bs 3 1 && 1 ≤ fld bs 4 2 && fld bs 4 2 ≤ 256 && 1 ≤ fld bs 6 2 &&
    fld bs 6 2 ≤ 384 && 16 ≤ fld bs 8 2 && fld bs 8 2 ≤ 4096 && fld bs 8 2 % 16 == 0 && fld bs 10 2 + fld bs 6 2 ≤ cols &&
    zeroFld bs 12 4 && fld bs 48 8 % 4096 == 0

/-- The command that MXGO's block describes with resolved sources. -/
def mxGoOf (bs : List Byte) (a b : MxSrc) : MxGo :=
  ⟨fld bs 0 1, fld bs 1 1, fld bs 2 1 % 2 == 1, fld bs 4 2, fld bs 6 2, fld bs 8 2, fld bs 10 2, a, b, BitVec.ofNat 64 (fld bs 48 8)⟩

theorem mxGo?_eq (c : Ctx) (launch scr cols : Nat) (bs : List Byte) (p : MxGo) (high : Bool) :
    mxGo? c launch scr cols bs = some (p, high) ↔ mxHead cols bs = true ∧
      mxSource c launch scr bs 16 (fld bs 56 4) (fld bs 0 1) (fld bs 4 2) (fld bs 8 2) = some p.srcA ∧
      mxSource c launch scr bs 32 (fld bs 60 4) (fld bs 1 1) (fld bs 6 2) (fld bs 8 2) = some p.srcB ∧
      p = mxGoOf bs p.srcA p.srcB ∧ high = (fld bs 2 1 / 2 == 1) := by
  unfold mxGo?
  dsimp only
  rw [Option.ite_none_right_eq_some]
  refine and_congr Iff.rfl ?_
  split
  · next a b ha hb =>
    rw [ha, hb]
    constructor
    · intro he
      cases he
      exact ⟨rfl, rfl, rfl, rfl⟩
    · rintro ⟨ha, hb, hp, hhigh⟩
      cases ha
      cases hb
      rw [hp, hhigh]
      rfl
  · next hno =>
    simp only [reduceCtorEq, false_iff]
    rintro ⟨ha, hb, -⟩
    exact hno _ _ ha hb

theorem fields_of_mxGoOf {bs : List Byte} {a b : MxSrc} {p : MxGo} (hp : p = mxGoOf bs a b) : p.m = fld bs 4 2 ∧ p.n = fld bs 6 2 ∧
    p.k = fld bs 8 2 ∧ p.cb = fld bs 10 2 ∧ p.spill = BitVec.ofNat 64 (fld bs 48 8) := by
  subst hp
  exact ⟨rfl, rfl, rfl, rfl, rfl⟩

theorem mxGo?_iff (c : Ctx) (launch scr cols : Nat) (bs : List Byte) (p : MxGo) (high : Bool) :
    mxGo? c launch scr cols bs = some (p, high) ↔
    let fa := fld bs 0 1
    let fb := fld bs 1 1
    ((fa < 4 ∧ fb < 4) ∨ (fa = 4 ∧ fb = 4) ∨ ((fa = 7 ∨ fa = 8) ∧ (fb = 7 ∨ fb = 8)) ∨ (fa < 2 ∧ fb = 9) ∨
      ((fa = 5 ∨ fa = 6) ∧ (fb = 5 ∨ fb = 6))) ∧
    fld bs 2 1 < 4 ∧ fld bs 3 1 = 0 ∧ fld bs 12 4 = 0 ∧ 1 ≤ p.m ∧ p.m ≤ 256 ∧ 1 ≤ p.n ∧ p.n ≤ 384 ∧ 16 ≤ p.k ∧ p.k ≤ 4096 ∧ p.k % 16 = 0 ∧
    p.cb + p.n ≤ cols ∧ p.spill.toNat % 4096 = 0 ∧ SourceIs c launch scr bs 16 (fld bs 56 4) fa p.m p.k p.srcA ∧
    SourceIs c launch scr bs 32 (fld bs 60 4) fb p.n p.k p.srcB ∧
    p = ⟨fa, fb, fld bs 2 1 % 2 == 1, fld bs 4 2, fld bs 6 2, fld bs 8 2, fld bs 10 2, p.srcA, p.srcB, BitVec.ofNat 64 (fld bs 48 8)⟩ ∧
    high = (fld bs 2 1 / 2 == 1) := by
  rw [mxGo?_eq]
  simp only [mxHead, zeroFld, Bool.and_eq_true, decide_eq_true_eq, beq_iff_eq, mxPair_iff]
  constructor
  · rintro ⟨⟨⟨⟨⟨⟨⟨⟨⟨⟨⟨⟨⟨hpair, hflags⟩, h3⟩, hm1⟩, hm⟩, hn1⟩, hn⟩, hk16⟩, hk⟩, hkmod⟩, hcb⟩, h12⟩, hspill⟩, ha, hb, hp, hhigh⟩
    rw [mxSource_iff hm1 (by omega)] at ha
    rw [mxSource_iff hn1 (by omega)] at hb
    rw [← toNat_ofNat_fld] at hspill
    obtain ⟨hm', hn', hk', hcb', hsp'⟩ := fields_of_mxGoOf hp
    rw [hm', hn', hk', hcb', hsp']
    exact ⟨hpair, hflags, h3, h12, hm1, hm, hn1, hn, hk16, hk, hkmod, hcb, hspill, ha, hb, hp, hhigh⟩
  · rintro ⟨hpair, hflags, h3, h12, hm1, hm, hn1, hn, hk16, hk, hkmod, hcb, hspill, ha, hb, hp, hhigh⟩
    obtain ⟨hm', hn', hk', hcb', hsp'⟩ := fields_of_mxGoOf hp
    rw [hsp', toNat_ofNat_fld] at hspill
    rw [hm'] at hm1 hm ha
    rw [hn'] at hn1 hn hcb hb
    rw [hk'] at hk16 hk hkmod ha hb
    rw [hcb'] at hcb
    exact ⟨⟨⟨⟨⟨⟨⟨⟨⟨⟨⟨⟨⟨hpair, hflags⟩, h3⟩, hm1⟩, hm⟩, hn1⟩, hn⟩, hk16⟩, hk⟩, hkmod⟩, hcb⟩, h12⟩, hspill⟩,
      (mxSource_iff hm1 (by omega)).2 ha, (mxSource_iff hn1 (by omega)).2 hb, hp, hhigh⟩

/-! ### ACCRD (R248) -/

theorem bit_cases (a n : Nat) : bitsOf a n n = 0 ∨ bitsOf a n n = 1 := by
  unfold bitsOf
  rw [Nat.add_sub_cancel_left]
  omega

/-- A signed byte (R248). -/
theorem intOf_byte {x : Nat} (h : x < 256) : intOf 8 true x = if x < 128 then (x : Int) else (x : Int) - 256 := by
  unfold intOf
  have hmod : x % 2 ^ 8 = x := Nat.mod_eq_of_lt h
  rw [hmod]
  by_cases hx : x < 128
  · simp [hx, Nat.not_le.2 hx]
  · simp [hx, Nat.not_lt.1 hx]

/-- The descriptor that ACCRD's operands describe, with a count of elements and a destination in the scratchpad. -/
def accRdOf (s : State) (a cell cnt : Nat) (dst : Option Nat) : AccRd :=
  ⟨bitsOf a 7 0, bitsOf a 17 8, cnt, bitsOf a 34 34 == 1, if bitsOf a 25 18 < 128 then bitsOf a 25 18 else (bitsOf a 25 18 : Int) - 256,
    if bitsOf a 32 30 = 0 then s.th.fcsr.extractLsb' 0 3 else BitVec.ofNat 3 (bitsOf a 32 30 - 1), bitsOf a 29 26, dst, cell⟩

theorem accRd?_eq (s : State) (a b cell : Nat) (d : AccRd) : accRd? s a b cell = some d ↔
    let scr := bitsOf a 33 33 = 1
    let w := fmtWidth (bitsOf a 29 26)
    let cnt := if scr then bitsOf a 45 35 else cvtCount w
    (bitsOf a 63 46 = 0 ∧ bitsOf a 29 26 ≠ 3 ∧ bitsOf a 29 26 ≠ 15 ∧ bitsOf a 32 30 ≠ 7 ∧ bitsOf a 17 8 + cnt ≤ s.accCols ∧
      if scr then 1 ≤ cnt ∧ cnt ≤ 1024 ∧ b + bytesFor (cnt * w) ≤ s.scrSize else bitsOf a 45 35 = 0) ∧
    d = accRdOf s a cell cnt (if scr then some b else none) := by
  have hsc : intOf 8 true (bitsOf a 25 18) = if bitsOf a 25 18 < 128 then (bitsOf a 25 18 : Int) else (bitsOf a 25 18 : Int) - 256 :=
    intOf_byte (Nat.mod_lt _ (by decide))
  unfold accRd? accRdOf
  dsimp only
  rw [Option.ite_none_right_eq_some, hsc, Option.some.injEq, eq_comm (b := d)]
  rcases bit_cases a 33 with h33 | h33 <;> simp [h33, and_assoc]

theorem accRd?_iff (s : State) (a b cell : Nat) (d : AccRd) : accRd? s a b cell = some d ↔
    let f (hi lo : Nat) : Nat := a / 2 ^ lo % 2 ^ (hi + 1 - lo)
    let fmt := f 29 26
    let w := (AnyFmt.ofCode fmt).width
    f 63 46 = 0 ∧ fmt ≠ 3 ∧ fmt ≠ 15 ∧ f 32 30 ≠ 7 ∧ d.col + d.cnt ≤ s.accCols ∧
    (f 33 33 = 0 → f 45 35 = 0 ∧ d.cnt = cvtCount w ∧ d.dst = none) ∧
    (f 33 33 = 1 → 1 ≤ d.cnt ∧ d.cnt ≤ 1024 ∧ d.cnt = f 45 35 ∧ b + (d.cnt * w + 7) / 8 ≤ s.scrSize ∧ d.dst = some b) ∧
    d = ⟨f 7 0, f 17 8, d.cnt, f 34 34 == 1, if f 25 18 < 128 then f 25 18 else (f 25 18 : Int) - 256,
      if f 32 30 = 0 then s.th.fcsr.extractLsb' 0 3 else BitVec.ofNat 3 (f 32 30 - 1), fmt, d.dst, cell⟩ := by
  rw [accRd?_eq]
  change _ ↔ bitsOf a 63 46 = 0 ∧ bitsOf a 29 26 ≠ 3 ∧ bitsOf a 29 26 ≠ 15 ∧ bitsOf a 32 30 ≠ 7 ∧ d.col + d.cnt ≤ s.accCols ∧
    (bitsOf a 33 33 = 0 → bitsOf a 45 35 = 0 ∧ d.cnt = cvtCount (fmtWidth (bitsOf a 29 26)) ∧ d.dst = none) ∧
    (bitsOf a 33 33 = 1 → 1 ≤ d.cnt ∧ d.cnt ≤ 1024 ∧ d.cnt = bitsOf a 45 35 ∧
      b + bytesFor (d.cnt * fmtWidth (bitsOf a 29 26)) ≤ s.scrSize ∧ d.dst = some b) ∧
    d = accRdOf s a cell d.cnt d.dst
  rcases bit_cases a 33 with h33 | h33
  · simp only [h33, zero_ne_one, if_false, true_imp_iff, false_imp_iff, true_and]
    constructor
    · rintro ⟨⟨h63, h3, h15, h7, hcol, h45⟩, rfl⟩
      exact ⟨h63, h3, h15, h7, hcol, ⟨h45, rfl, rfl⟩, rfl⟩
    · rintro ⟨h63, h3, h15, h7, hcol, ⟨h45, hcnt, hdst⟩, hd⟩
      rw [hd, hcnt, hdst] at hcol ⊢
      exact ⟨⟨h63, h3, h15, h7, hcol, h45⟩, rfl⟩
  · simp only [h33, one_ne_zero, if_true, true_imp_iff, false_imp_iff, true_and]
    constructor
    · rintro ⟨⟨h63, h3, h15, h7, hcol, h1, hmax, hin⟩, rfl⟩
      exact ⟨h63, h3, h15, h7, hcol, ⟨h1, hmax, rfl, hin, rfl⟩, rfl⟩
    · rintro ⟨h63, h3, h15, h7, hcol, ⟨h1, hmax, hcnt, hin, hdst⟩, hd⟩
      rw [hcnt] at h1 hmax hin
      rw [hd, hcnt, hdst] at hcol ⊢
      exact ⟨⟨h63, h3, h15, h7, hcol, h1, hmax, hin⟩, rfl⟩

/-! ### CPY (R249) -/

/-- The rows of a range lie inside a region where the first and the last do, for the others lie between these. -/
theorem rowsIn_iff {base rows rb size : Nat} {stride : Int} (hrows : 1 ≤ rows) : rowsIn base stride rows rb size = true ↔
    ∀ r : Nat, r < rows → 0 ≤ (base : Int) + stride * r ∧ (base : Int) + stride * r + rb ≤ size := by
  unfold rowsIn
  simp only [Bool.and_eq_true, decide_eq_true_eq]
  constructor
  · rintro ⟨⟨hfirst, hlo⟩, hhi⟩ r hr
    rcases le_or_gt 0 stride with hs | hs
    · have h0 : 0 ≤ stride * (r : Int) := mul_nonneg hs (Int.natCast_nonneg r)
      have h1 : stride * (r : Int) ≤ stride * ((rows : Int) - 1) := mul_le_mul_of_nonneg_left (by omega) hs
      omega
    · have h0 : stride * (r : Int) ≤ 0 := mul_nonpos_of_nonpos_of_nonneg hs.le (Int.natCast_nonneg r)
      have h1 : stride * ((rows : Int) - 1) ≤ stride * (r : Int) := mul_le_mul_of_nonpos_left (by omega) hs.le
      omega
  · intro h
    have hfirst := h 0 (by omega)
    have hlast := h (rows - 1) (by omega)
    have hcast : ((rows - 1 : Nat) : Int) = (rows : Int) - 1 := by omega
    rw [hcast] at hlast
    simp only [Nat.cast_zero, mul_zero, add_zero] at hfirst
    exact ⟨⟨by omega, hlast.1⟩, hlast.2⟩

/-- A place that holds under a condition, and what it is. -/
theorem placed_iff {p : Prop} [Decidable p] {a x : DWord} {h hs : List Nat} :
    (if p then some (a, h) else none) = some (x, hs) ↔ p ∧ x = a ∧ hs = h := by
  rw [Option.ite_none_right_eq_some, Option.some.injEq, Prod.mk.injEq, @eq_comm _ a x, @eq_comm _ h hs]

theorem copyPlace_iff {s : State} {space rows rb : Nat} {a x : DWord} {stride : Int} {hs : List Nat} (hrows : 1 ≤ rows) :
    copyPlace s space a stride rows rb = some (x, hs) ↔ PlaceIs s space a stride rows rb x hs := by
  unfold PlaceIs
  simp only [← rowsIn_iff hrows]
  match space with
  | 0 =>
    have h : copyPlace s 0 a stride rows rb = if True then some (a, []) else none := rfl
    rw [h, placed_iff]
    simp
  | 1 =>
    refine (placed_iff (p := rowsIn a.toNat stride rows rb s.scrSize = true)).trans ?_
    simp
  | 2 =>
    unfold copyPlace
    dsimp only
    cases s.myCtx.resv? s.th.launch (a.toNat / 2 ^ 32) with
    | none => simp
    | some r =>
      refine (placed_iff (p := rowsIn (a.toNat % 2 ^ 32) stride rows rb r.length = true)).trans ?_
      simp
  | 3 =>
    refine (placed_iff (p := rowsIn a.toNat stride rows rb bankSize = true)).trans ?_
    simp [bankSize]
  | n + 4 => simp [copyPlace]

theorem intOf_word {x : Nat} (h : x < 2 ^ 32) : intOf 32 true x = if x < 2 ^ 31 then (x : Int) else (x : Int) - 2 ^ 32 := by
  unfold intOf
  rw [Nat.mod_eq_of_lt h]
  by_cases hx : x < 2 ^ 31
  · rw [if_pos hx, if_neg]
    simpa using hx
  · rw [if_neg hx, if_pos]
    · norm_num
    · simpa using hx

theorem leNat_append (xs ys : List Byte) : leNat (xs ++ ys) = leNat xs + 2 ^ (8 * xs.length) * leNat ys := by
  induction xs with
  | nil => simp [leNat]
  | cons x xs ih =>
    rw [List.cons_append, leNat, leNat, ih, List.length_cons, Nat.mul_succ, Nat.pow_add]
    ring

theorem fld_add (bs : List Byte) (i m n : Nat) : fld bs i (m + n) = fld bs i m + 2 ^ (8 * ((bs.drop i).take m).length) * fld bs (i + m) n := by
  unfold fld
  rw [List.take_add, leNat_append, List.drop_drop]

theorem zeroFld_sixteen (bs : List Byte) (i : Nat) : zeroFld bs i 16 = true ↔ fld bs i 8 = 0 ∧ fld bs (i + 8) 8 = 0 := by
  unfold zeroFld
  rw [beq_iff_eq, show (16 : Nat) = 8 + 8 from rfl, fld_add]
  simp

/-- The command that a CPY descriptor describes, with its resolved addresses and the handles that it names. -/
def copyCmdOf (kind : CopyKind) (bs : List Byte) (src dst : DWord) (hs : List Nat) : CopyCmd :=
  { id := 0, issuer := default, kind := kind, ssp := fld bs 0 1, dsp := fld bs 1 1, rows := fld bs 4 4, rb := fld bs 8 4, src := src,
    dst := dst, ss := intOf 32 true (fld bs 32 4), ds := intOf 32 true (fld bs 36 4), pat := BitVec.ofNat 64 (fld bs 40 8), row := 0,
    piece := 0, permit := false, started := false, pages := [], handles := hs, seen := [], put := [], wrote := [] }

/-- The reserved fields of a CPY descriptor are 0. -/
def CopyReserved (bs : List Byte) : Prop := fld bs 2 2 = 0 ∧ fld bs 12 4 = 0 ∧ fld bs 48 8 = 0 ∧ fld bs 56 8 = 0

theorem copyReserved_iff (bs : List Byte) : (!(zeroFld bs 2 2 && zeroFld bs 12 4 && zeroFld bs 48 16)) = false ↔ CopyReserved bs := by
  rw [Bool.not_eq_false', Bool.and_eq_true, Bool.and_eq_true, zeroFld_sixteen, zeroFld, zeroFld, beq_iff_eq, beq_iff_eq, and_assoc]
  rfl

section
variable {s : State} {bs : List Byte} {c : CopyCmd}

theorem copyCmd?_unreserved {kind : CopyKind} (h : ¬ CopyReserved bs) : copyCmd? s kind bs = none := by
  unfold copyCmd?
  dsimp only
  rw [if_pos]
  rwa [← copyReserved_iff, Bool.not_eq_false] at h

/-- A double word that is a field of eight bytes is 0 where the field is. -/
theorem ofNat_fld_eq_zero (bs : List Byte) (i : Nat) : BitVec.ofNat 64 (fld bs i 8) = 0 ↔ fld bs i 8 = 0 := by
  rw [← BitVec.toNat_inj, toNat_ofNat_fld]
  rfl

theorem copyCmd?_look (h : CopyReserved bs) : copyCmd? s .look bs = some c ↔
    (c.ssp = 0 ∧ c.dsp = 0 ∧ 1 ≤ c.rows ∧ c.rows ≤ 256 ∧ c.rb = 0 ∧ (BitVec.ofNat 64 (fld bs 16 8)).toNat % 8 = 0 ∧
      BitVec.ofNat 64 (fld bs 24 8) = 0 ∧ c.ss = 0 ∧ c.ds = 0 ∧ fld bs 40 8 = 0 ∧
      c.src = BitVec.ofNat 64 (fld bs 16 8) ∧ c.dst = 0 ∧ c.handles = []) ∧ c = copyCmdOf .look bs c.src c.dst c.handles := by
  unfold copyCmd?
  dsimp only
  rw [if_neg (by rw [copyReserved_iff bs |>.2 h]; decide), Option.ite_none_right_eq_some]
  simp only [Bool.and_eq_true, decide_eq_true_eq, beq_iff_eq, and_assoc, Option.some.injEq]
  constructor
  · rintro ⟨hssp, hdsp, h1, hmax, hrb, hsrc, hdst, hss, hds, hpat, rfl⟩
    exact ⟨hssp, hdsp, h1, hmax, hrb, hsrc, hdst, hss, hds, (ofNat_fld_eq_zero bs 40).1 hpat, rfl, hdst, rfl, rfl⟩
  · rintro ⟨hssp, hdsp, h1, hmax, hrb, hsrc, hdst, hss, hds, hpat, hcsrc, hcdst, hhs, hc⟩
    rw [hc] at hssp hdsp h1 hmax hrb hss hds
    refine ⟨hssp, hdsp, h1, hmax, hrb, hsrc, hdst, hss, hds, (ofNat_fld_eq_zero bs 40).2 hpat, ?_⟩
    rw [hc, hcsrc, hcdst, hhs, hdst]
    rfl

theorem copyCmd?_fill (h : CopyReserved bs) : copyCmd? s .fill bs = some c ↔
    (c.ssp = 0 ∧ c.dsp ≤ 3 ∧ (1 ≤ c.rows ∧ c.rows ≤ 65536 ∧ 1 ≤ c.rb ∧ c.rb ≤ 16777216) ∧ BitVec.ofNat 64 (fld bs 16 8) = 0 ∧
      c.ss = 0 ∧ c.src = 0 ∧ PlaceIs s c.dsp (BitVec.ofNat 64 (fld bs 24 8)) c.ds c.rows c.rb c.dst c.handles) ∧
    c = copyCmdOf .fill bs c.src c.dst c.handles := by
  unfold copyCmd?
  dsimp only
  rw [if_neg (by rw [copyReserved_iff bs |>.2 h]; decide), Option.ite_none_right_eq_some]
  simp only [Bool.and_eq_true, decide_eq_true_eq, beq_iff_eq, and_assoc, Option.map_eq_some_iff, Prod.exists]
  constructor
  · rintro ⟨hssp, hdsp, h1, hmax, hrb1, hrb, hsrc, hss, dst, hs, hplace, rfl⟩
    exact ⟨hssp, hdsp, h1, hmax, hrb1, hrb, hsrc, hss, hsrc, (copyPlace_iff h1).1 hplace, rfl⟩
  · rintro ⟨hssp, hdsp, h1, hmax, hrb1, hrb, hsrc, hss, hcsrc, hplace, hc⟩
    have h1' : 1 ≤ fld bs 4 4 := by rw [hc] at h1; exact h1
    have hplace' : copyPlace s (fld bs 1 1) (BitVec.ofNat 64 (fld bs 24 8)) (intOf 32 true (fld bs 36 4)) (fld bs 4 4) (fld bs 8 4) =
        some (c.dst, c.handles) := (copyPlace_iff h1').2 (by rw [hc] at hplace; exact hplace)
    rw [hc] at hssp hdsp h1 hmax hrb1 hrb hss
    refine ⟨hssp, hdsp, h1, hmax, hrb1, hrb, hsrc, hss, c.dst, c.handles, hplace', ?_⟩
    rw [hsrc, ← hcsrc]
    exact hc.symm

theorem copyCmd?_copy (h : CopyReserved bs) : copyCmd? s .copy bs = some c ↔
    (c.ssp ≤ 2 ∧ c.dsp ≤ 3 ∧ (1 ≤ c.rows ∧ c.rows ≤ 65536 ∧ 1 ≤ c.rb ∧ c.rb ≤ 16777216) ∧ fld bs 40 8 = 0 ∧
      ∃ hs hd, PlaceIs s c.ssp (BitVec.ofNat 64 (fld bs 16 8)) c.ss c.rows c.rb c.src hs ∧
        PlaceIs s c.dsp (BitVec.ofNat 64 (fld bs 24 8)) c.ds c.rows c.rb c.dst hd ∧ c.handles = hs ++ hd) ∧
    c = copyCmdOf .copy bs c.src c.dst c.handles := by
  unfold copyCmd?
  dsimp only
  rw [if_neg (by rw [copyReserved_iff bs |>.2 h]; decide), Option.ite_none_right_eq_some]
  simp only [Bool.and_eq_true, decide_eq_true_eq, beq_iff_eq, and_assoc]
  constructor
  · rintro ⟨hssp, hdsp, h1, hmax, hrb1, hrb, hpat, hc⟩
    replace hpat := (ofNat_fld_eq_zero bs 40).1 hpat
    split at hc
    · next a d ha hd =>
      cases hc
      exact ⟨hssp, hdsp, h1, hmax, hrb1, hrb, hpat, ⟨a.2, d.2, (copyPlace_iff h1).1 ha, (copyPlace_iff h1).1 hd, rfl⟩, rfl⟩
    · cases hc
  · rintro ⟨hssp, hdsp, h1, hmax, hrb1, hrb, hpat, ⟨hs, hd, ha, hb, hhs⟩, hc⟩
    have h1' : 1 ≤ fld bs 4 4 := by rw [hc] at h1; exact h1
    have ha' : copyPlace s (fld bs 0 1) (BitVec.ofNat 64 (fld bs 16 8)) (intOf 32 true (fld bs 32 4)) (fld bs 4 4) (fld bs 8 4) =
        some (c.src, hs) := (copyPlace_iff h1').2 (by rw [hc] at ha; exact ha)
    have hb' : copyPlace s (fld bs 1 1) (BitVec.ofNat 64 (fld bs 24 8)) (intOf 32 true (fld bs 36 4)) (fld bs 4 4) (fld bs 8 4) =
        some (c.dst, hd) := (copyPlace_iff h1').2 (by rw [hc] at hb; exact hb)
    rw [hc] at hssp hdsp h1 hmax hrb1 hrb
    refine ⟨hssp, hdsp, h1, hmax, hrb1, hrb, (ofNat_fld_eq_zero bs 40).2 hpat, ?_⟩
    rw [ha', hb', hc, hhs]
    rfl

/-- CPY's descriptor is accepted within the limits of R249, and of no others. -/
theorem copyCmd?_iff (kind : CopyKind) : copyCmd? s kind bs = some c ↔
    CopyReserved bs ∧
    (kind = .look → c.ssp = 0 ∧ c.dsp = 0 ∧ 1 ≤ c.rows ∧ c.rows ≤ 256 ∧ c.rb = 0 ∧ (BitVec.ofNat 64 (fld bs 16 8)).toNat % 8 = 0 ∧
      BitVec.ofNat 64 (fld bs 24 8) = 0 ∧ c.ss = 0 ∧ c.ds = 0 ∧ fld bs 40 8 = 0 ∧
      c.src = BitVec.ofNat 64 (fld bs 16 8) ∧ c.dst = 0 ∧ c.handles = []) ∧
    (kind = .fill → c.ssp = 0 ∧ c.dsp ≤ 3 ∧ (1 ≤ c.rows ∧ c.rows ≤ 65536 ∧ 1 ≤ c.rb ∧ c.rb ≤ 16777216) ∧
      BitVec.ofNat 64 (fld bs 16 8) = 0 ∧ c.ss = 0 ∧ c.src = 0 ∧
      PlaceIs s c.dsp (BitVec.ofNat 64 (fld bs 24 8)) c.ds c.rows c.rb c.dst c.handles) ∧
    (kind = .copy → c.ssp ≤ 2 ∧ c.dsp ≤ 3 ∧ (1 ≤ c.rows ∧ c.rows ≤ 65536 ∧ 1 ≤ c.rb ∧ c.rb ≤ 16777216) ∧ fld bs 40 8 = 0 ∧
      ∃ hs hd, PlaceIs s c.ssp (BitVec.ofNat 64 (fld bs 16 8)) c.ss c.rows c.rb c.src hs ∧
        PlaceIs s c.dsp (BitVec.ofNat 64 (fld bs 24 8)) c.ds c.rows c.rb c.dst hd ∧ c.handles = hs ++ hd) ∧
    c = copyCmdOf kind bs c.src c.dst c.handles := by
  by_cases h : CopyReserved bs
  · simp only [h, true_and]
    cases kind with
    | copy => rw [copyCmd?_copy h]; simp only [reduceCtorEq, false_implies, true_implies, true_and]
    | fill => rw [copyCmd?_fill h]; simp only [reduceCtorEq, false_implies, true_implies, true_and]
    | look => rw [copyCmd?_look h]; simp only [reduceCtorEq, false_implies, true_implies, true_and]
  · rw [copyCmd?_unreserved h]
    simp only [h, false_and, reduceCtorEq]

theorem copyCmdOf_strides (kind : CopyKind) (src dst : DWord) (hs : List Nat) :
    copyCmdOf kind bs src dst hs =
      let stride (i : Nat) : Int := if fld bs i 4 < 2 ^ 31 then fld bs i 4 else (fld bs i 4 : Int) - 2 ^ 32
      { id := 0, issuer := default, kind := kind, ssp := fld bs 0 1, dsp := fld bs 1 1, rows := fld bs 4 4, rb := fld bs 8 4, src := src,
        dst := dst, ss := stride 32, ds := stride 36, pat := BitVec.ofNat 64 (fld bs 40 8), row := 0, piece := 0, permit := false,
        started := false, pages := [], handles := hs, seen := [], put := [], wrote := [] } := by
  unfold copyCmdOf
  rw [intOf_word (fld_lt bs 32 4), intOf_word (fld_lt bs 36 4)]

end

/-! ### The operands of CBWR (R254) -/

/-- The source of a code-bank write, in the scratchpad where bit 63 of the operand is set. -/
theorem bankSource (b : DWord) : (if b[63] then (b.extractLsb' 0 19).zeroExtend 64 else b) =
    if b[63] then BitVec.ofNat 64 (b.toNat % 2 ^ 19) else b := by
  split
  · apply BitVec.eq_of_toNat_eq
    simp
  · rfl

theorem bankCmd?_iff (s : State) (a b : DWord) (c : CopyCmd) : bankCmd? s a b = some c ↔
    let first := a.toNat % 2 ^ 10
    let count := a.toNat / 2 ^ 16 % 2 ^ 11
    let off := b.toNat % 2 ^ 19
    a.toNat / 2 ^ 10 % 2 ^ 6 = 0 ∧ a.toNat / 2 ^ 27 = 0 ∧ 1 ≤ count ∧ count ≤ 1024 ∧ first + count ≤ 1024 ∧ c.src.toNat % 4 = 0 ∧
    (b[63] = true → b.toNat / 2 ^ 19 % 2 ^ 44 = 0 ∧ off + 256 * count ≤ s.scrSize) ∧
    c = { id := 0, issuer := default, kind := .copy, ssp := if b[63] then 1 else 0, dsp := 3, rows := 1, rb := 256 * count,
          src := if b[63] then BitVec.ofNat 64 off else b, dst := BitVec.ofNat 64 (256 * first), ss := 0, ds := 0, pat := 0, row := 0,
          piece := 0, permit := false, started := false, pages := [], handles := [], seen := [], put := [], wrote := [] } := by
  have htop : bitsOf a.toNat 63 27 = a.toNat / 2 ^ 27 := by unfold bitsOf; have := a.isLt; omega
  have hfirst : bitsOf a.toNat 9 0 = a.toNat % 2 ^ 10 := by simp [bitsOf]
  have hscr : (!b[63] || (b.extractLsb' 19 44 == 0 && (if b[63] then (b.extractLsb' 0 19).zeroExtend 64 else b).toNat +
      256 * bitsOf a.toNat 26 16 ≤ s.scrSize)) = true ↔
      (b[63] = true → b.toNat / 2 ^ 19 % 2 ^ 44 = 0 ∧ b.toNat % 2 ^ 19 + 256 * (a.toNat / 2 ^ 16 % 2 ^ 11) ≤ s.scrSize) := by
    cases b[63] with
    | false => simp
    | true =>
      have hoff : ((b.extractLsb' 0 19).zeroExtend 64).toNat = b.toNat % 2 ^ 19 := by
        simp
        omega
      have hhigh : b.extractLsb' 19 44 = 0 ↔ b.toNat / 2 ^ 19 % 2 ^ 44 = 0 := by
        rw [← BitVec.toNat_inj, BitVec.extractLsb'_toNat, Nat.shiftRight_eq_div_pow]
        rfl
      rw [if_pos rfl, hoff]
      simp only [Bool.not_true, Bool.false_or, Bool.and_eq_true, beq_iff_eq, decide_eq_true_eq, hhigh, true_implies]
      rfl
  unfold bankCmd?
  dsimp only
  rw [Option.ite_none_right_eq_some, Bool.and_eq_true, hscr, bankSource, htop, hfirst]
  simp only [Bool.and_eq_true, beq_iff_eq, decide_eq_true_eq, Option.some.injEq]
  constructor
  · rintro ⟨⟨⟨⟨⟨⟨⟨h1, h2⟩, h3⟩, h4⟩, h5⟩, h6⟩, h7⟩, rfl⟩
    exact ⟨h1, h2, h3, h4, h5, h6, h7, rfl⟩
  · rintro ⟨h1, h2, h3, h4, h5, h6, h7, hc⟩
    rw [hc] at h6
    exact ⟨⟨⟨⟨⟨⟨⟨h1, h2⟩, h3⟩, h4⟩, h5⟩, h6⟩, h7⟩, hc.symm⟩

/-! ### The lines that a command writes (R252, R272) -/

theorem mem_nub {α : Type} [DecidableEq α] {x : α} : ∀ {xs : List α}, x ∈ nub xs ↔ x ∈ xs
  | [] => Iff.rfl
  | y :: ys => by
    rw [nub, List.mem_cons, List.mem_filter, mem_nub (xs := ys), List.mem_cons, decide_eq_true_eq]
    by_cases h : x = y
    · simp only [h, true_or]
    · simp only [h, false_or, ne_eq, not_false_eq_true, and_true]

/-- The lines of a range of offsets are those that hold one of its bytes. -/
theorem mem_linesOf {off n l : Nat} : l ∈ linesOf off n ↔ ∃ i, i < n ∧ l = (off + i) / 128 := by
  unfold linesOf lineOf
  by_cases hn : n = 0
  · simp [hn]
  · rw [if_neg (by simpa using hn), List.mem_map]
    constructor
    · rintro ⟨i, hi, rfl⟩
      rw [List.mem_range] at hi
      refine ⟨(off / 128 + i) * 128 - off, ?_, ?_⟩ <;> omega
    · rintro ⟨i, hi, rfl⟩
      exact ⟨(off + i) / 128 - off / 128, by rw [List.mem_range]; omega, by omega⟩

theorem mem_copyLines {c : CopyCmd} {l : Nat} : l ∈ c.lines ↔ c.dsp = 1 ∧ c.kind ≠ .look ∧
    ∃ r i, r < c.rows ∧ i < c.rb ∧ l = ((c.dst + BitVec.ofInt 64 (c.ds * r)).toNat + i) / 128 := by
  unfold CopyCmd.lines
  by_cases h : (c.dsp == 1 && c.kind != .look) = true
  · obtain ⟨hdsp, hkind⟩ : c.dsp = 1 ∧ c.kind ≠ .look := by simpa using h
    rw [if_pos h, mem_nub, List.mem_flatMap]
    simp only [List.mem_range, mem_linesOf, rowAddr, hdsp, hkind, ne_eq, not_false_eq_true, true_and, exists_and_left]
  · rw [if_neg h]
    simp only [Bool.and_eq_true, beq_iff_eq, bne_iff_ne, not_and] at h
    simp only [List.not_mem_nil, false_iff]
    rintro ⟨hdsp, hkind, -⟩
    exact h hdsp hkind

theorem mem_readLines {d : AccRd} {l : Nat} : l ∈ (MxOp.rd d).lines ↔ ∃ off i, d.dst = some off ∧
    i < (d.cnt * (AnyFmt.ofCode d.fmt).width + 7) / 8 ∧ l = (off + i) / 128 := by
  obtain ⟨row, col, cnt, relu, scale, rm, fmt, dst, cell⟩ := d
  cases dst with
  | none => simp [MxOp.lines, AccRd.lines]
  | some off => simp [MxOp.lines, AccRd.lines, mem_linesOf, bytesFor, fmtWidth]

/-! ### Lines marked absent (R252, R301) -/

theorem mem_scrOffs {ls : List Loc} {o : Nat} : o ∈ scrOffs ls ↔ Loc.scr o ∈ ls := by
  unfold scrOffs
  rw [List.mem_filterMap]
  constructor
  · rintro ⟨l, hl, ho⟩
    cases l with
    | phys k => cases ho
    | scr k => cases ho; exact hl
  · exact fun h => ⟨_, h, rfl⟩

theorem region_launch {c : Ctx} {launch : Nat} : (c.region launch).launch = launch := by
  unfold Ctx.region
  cases h : c.regions.find? fun r => r.launch == launch with
  | none => rfl
  | some r => simpa using List.find?_some h

/-- A region that replaces the one of its launch is then the region of that launch. -/
theorem region_setRegion_same {c : Ctx} {r : Region} (h : ∃ q ∈ c.regions, q.launch = r.launch) : (c.setRegion r).region r.launch = r := by
  have hsome : (c.regions.find? fun q => q.launch == r.launch).isSome := by
    simpa using h
  obtain ⟨q, hq⟩ := Option.isSome_iff_exists.1 hsome
  have hfind : (c.setRegion r).regions.find? (fun q => q.launch == r.launch) = some r := by
    unfold Ctx.setRegion
    rw [List.find?_map]
    have hsame : ((fun q : Region => q.launch == r.launch) ∘ fun q => if q.launch == r.launch then r else q) =
        fun q => q.launch == r.launch := by
      funext x
      by_cases hx : x.launch = r.launch
      · simp [hx]
      · simp [hx]
    rw [hsame, hq, Option.map_some, if_pos (List.find?_some hq)]
  unfold Ctx.region
  rw [hfind]
  rfl

theorem region_setRegion_ne {c : Ctx} {r : Region} {k : Nat} (h : k ≠ r.launch) : (c.setRegion r).region k = c.region k := by
  unfold Ctx.region Ctx.setRegion
  rw [List.find?_map]
  have hsame : ((fun q : Region => q.launch == k) ∘ fun q => if q.launch == r.launch then r else q) = fun q => q.launch == k := by
    funext x
    by_cases hx : x.launch = r.launch
    · simp [hx]
    · simp [hx]
  rw [hsame]
  cases hq : c.regions.find? fun q => q.launch == k with
  | none => rfl
  | some q =>
    have hk : q.launch = k := by simpa using List.find?_some hq
    rw [Option.map_some, if_neg (by simpa [hk] using h)]

theorem mem_clearLines_ahead {c : Ctx} {launch : Nat} {ls : List Nat} {a : Ahead} : a ∈ (c.clearLines launch ls).ahead ↔
    a ∈ c.ahead ∧ ∀ y ∈ a.bytes, ∀ o, y.1 = .scr o → o / 128 ∉ ls := by
  unfold Ctx.clearLines Ctx.dropAhead
  dsimp only [Ctx.setRegion]
  rw [List.mem_filter, Bool.not_eq_true', List.any_eq_false]
  refine and_congr Iff.rfl ?_
  simp only [mem_scrOffs, List.mem_map, lineOf, List.contains_iff_mem]
  constructor
  · exact fun h y hy o ho => h o ⟨y, hy, ho⟩
  · rintro h o ⟨y, hy, ho⟩
    exact h y hy o ho

theorem clearLines_region {c : Ctx} {launch : Nat} {ls : List Nat} (h : ∃ r ∈ c.regions, r.launch = launch) :
    (c.clearLines launch ls).region launch = { c.region launch with absent := nub ((c.region launch).absent ++ ls) } := by
  have hset := region_setRegion_same (c := c) (r := { c.region launch with absent := nub ((c.region launch).absent ++ ls) })
    (by rw [region_launch]; exact h)
  rw [region_launch] at hset
  exact hset

theorem clearLines_region_ne {c : Ctx} {launch k : Nat} {ls : List Nat} (h : k ≠ launch) :
    (c.clearLines launch ls).region k = c.region k :=
  region_setRegion_ne (r := { c.region launch with absent := nub ((c.region launch).absent ++ ls) }) (by rw [region_launch]; exact h)

theorem commandLimits : CommandLimits := by
  refine ⟨fun c launch scr cols bs p high => mxGo?_iff .., fun s a b cell d ha => accRd?_iff .., fun s kind bs c => ?_,
    fun s a b c => bankCmd?_iff s a b c, fun c l => mem_copyLines, fun d l => mem_readLines, fun p => rfl, fun col n => rfl,
    fun row col v => rfl, fun c launch ls h => ⟨fun l => ?_, ?_, fun k hk => clearLines_region_ne hk, rfl, fun a => mem_clearLines_ahead⟩⟩
  · rw [copyCmd?_iff, CopyReserved, copyCmdOf_strides]
    simp only [and_assoc, ofNat_fld_eq_zero]
  · rw [clearLines_region h, mem_nub, List.mem_append]
  · rw [clearLines_region h]

/-- Settles O43: the limits command by command, and each issue by the way its instruction's `do` block runs. -/
theorem engineCommandsIssue : Obligations.EngineCommandsIssue := by
  unfold Obligations.EngineCommandsIssue
  refine ⟨commandLimits, fun u c high op => rfl, fun o s t => ⟨fun u cls h => countCommand_full h, fun u u' cls c h => countCommand_counts h,
    fun u u' c h => plainCommand_performs h, fun bs s1 p high c s2 => mxgo_issues, fun c s2 => mxclr_issues, fun d c s2 h hd hroom =>
      ⟨accrd_issues h hd hroom, accrd_issues_cell h hd hroom⟩, fun c s2 => accwr_issues,
    fun x hx bs s1 q u => cpy_issues (exec_cpy_of_mem hx s), fun q u => cbwr_issues, fun u q => issueCopy_full q, fun u u1 q c => issueCopy_room q,
    fun bs s1 c s2 => selRun_issues, fun bs s1 => ⟨selRun_refused, mxgo_refused⟩, mxgo_misaligned, mxclr_refused, accwr_refused, accrd_refused,
    fun x hx bs s1 => cpy_refused (exec_cpy_of_mem hx s), cbwr_refused, fun bs s1 p high => mxgo_waits,
    fun hbusy => ⟨fun h hlo hhi hin => mxclr_waits h hlo hhi hin hbusy, fun d h hd hdst => accrd_waits h hd hdst hbusy,
      fun h hb hin hfull => accwr_waits h hb hin hfull hbusy⟩,
    fun d => accrd_waits_cell, fun x hx bs s1 q => cpy_waits (exec_cpy_of_mem hx s), fun q => cbwr_waits, fun bs s1 => selRun_waits⟩⟩

end Sys2Proof.Proofs

/-!
What performing accesses leaves as it is (R36, R176, R292): threads, launches, partitions, and of a context all but its caches, its stores
under way, what is read ahead and the bytes of its scratchpads.
-/
namespace Sys2Proof.Proofs
open Sys2Proof.Machine

/-! ### The parts that no access changes -/

/-- What of a context no access changes. -/
def ctxStill (c : Ctx) : Ctx × List Nat :=
  ({ c with regions := [], l1 := .empty, con := .empty, icache := .empty, wc := [], outq := [], late := [], ahead := [] },
    c.regions.map fun r => r.launch)

/-- What of the hardware no access changes. -/
def still (h : Hw) : Hw × (Nat → Nat → Prop × Ctx × List Nat) :=
  ({ h with ctxs := [], pends := [], mem := [], poison := [], latent := [], found := [], ue := [], nextId := 0, fresh := 0 },
    fun part core => (HasCtx h part core, ctxStill (h.ctx part core)))

theorem still_threads {h h' : Hw} (g : still h' = still h) : h'.threads = h.threads := congrArg (fun x => x.1.threads) g
theorem still_launches {h h' : Hw} (g : still h' = still h) : h'.launches = h.launches := congrArg (fun x => x.1.launches) g
theorem still_parts {h h' : Hw} (g : still h' = still h) : h'.parts = h.parts := congrArg (fun x => x.1.parts) g
theorem still_hasCtx {h h' : Hw} (g : still h' = still h) (part core : Nat) : HasCtx h' part core ↔ HasCtx h part core :=
  iff_of_eq (congrArg (fun x => (x.2 part core).1) g)
theorem still_ctx {h h' : Hw} (g : still h' = still h) (part core : Nat) : ctxStill (h'.ctx part core) = ctxStill (h.ctx part core) :=
  congrArg (fun x => (x.2 part core).2) g

theorem ctxStill_of_cachesOnly {c d : Ctx} (h : CachesOnly c d) : ctxStill d = ctxStill c := by
  rw [h]
  rfl

theorem still_of_writesHome {h h' : Hw} (g : WritesHome h h') : still h' = still h := by
  refine Prod.ext ?_ (funext fun part => funext fun core => Prod.ext (propext (g.has part core)) ?_)
  · rw [g.rest]
    rfl
  · exact ctxStill_of_cachesOnly (g.ctx part core)

@[simp] theorem still_writeKeys (h : Hw) (own : Option (Nat × Nat)) (xs : List (Nat × Byte)) : still (writeKeys h own xs) = still h :=
  still_of_writesHome (.writeKeys h own xs)

/-- A context is replaced by one that differs in what accesses change. -/
theorem still_setCtx {h : Hw} {c : Ctx} (hc : ctxStill c = ctxStill (h.ctx c.part c.core)) : still (h.setCtx c) = still h := by
  refine Prod.ext rfl (funext fun part => funext fun core => Prod.ext (propext (hasCtx_setCtx h c part core)) ?_)
  by_cases hkey : c.part = part ∧ c.core = core
  · obtain ⟨rfl, rfl⟩ := hkey
    rcases ctx_setCtx_cases h c c.part c.core with he | he
    · exact (congrArg ctxStill he).trans hc
    · exact congrArg ctxStill he
  · exact congrArg ctxStill (ctx_setCtx_ne h hkey)

/-- The context at a place is replaced by one that differs from it in what accesses change. -/
theorem still_setCtx_at {h : Hw} {c : Ctx} {part core : Nat} (hc : ctxStill c = ctxStill (h.ctx part core)) : still (h.setCtx c) = still h := by
  have hpart : c.part = part := (congrArg (fun x => x.1.part) hc).trans (ctx_part ..)
  have hcore : c.core = core := (congrArg (fun x => x.1.core) hc).trans (ctx_core ..)
  exact still_setCtx (by rw [hpart, hcore, hc])

theorem still_foldl {α : Type} {f : Hw → α → Hw} (hf : ∀ h x, still (f h x) = still h) (xs : List α) (h : Hw) :
    still (xs.foldl f h) = still h := by
  induction xs generalizing h with
  | nil => rfl
  | cons x xs ih => exact (ih _).trans (hf h x)

theorem still_ite {c : Prop} [Decidable c] {g g' h : Hw} (hg : still g = still h) (hg' : still g' = still h) :
    still (if c then g else g') = still h := by
  split
  · exact hg
  · exact hg'

/-! ### Stores come home -/

@[simp] theorem still_drainOut (h : Hw) (part core : Nat) (ids : List Nat) : still (drainOut h part core ids) = still h := by
  obtain ⟨h', hw, ⟨he, -⟩ | he⟩ := drainOut_eq h part core ids <;> rw [he]
  · exact still_of_writesHome hw
  · refine Eq.trans ?_ (still_of_writesHome hw)
    exact still_setCtx_at (part := part) (core := core) rfl

@[simp] theorem still_drainOutKeys (h : Hw) (part core : Nat) (ks : List Nat) : still (drainOutKeys h part core ks) = still h := still_drainOut ..

@[simp] theorem still_wcDrain (h : Hw) (part core : Nat) (p : WcLine → Bool) : still (wcDrain h part core p) = still h := by
  obtain ⟨h', hw, he⟩ := wcDrain_eq h part core p
  rw [he]
  refine Eq.trans ?_ (still_of_writesHome hw)
  exact still_setCtx_at (part := part) (core := core) rfl

@[simp] theorem still_wcDrainSeen (h : Hw) (part core : Nat) (ids : List Nat) : still (wcDrainSeen h part core ids) = still h :=
  still_ite rfl (still_wcDrain ..)

@[simp] theorem still_drainSeen (h : Hw) (part core : Nat) (ids : List Nat) : still (drainSeen h part core ids) = still h :=
  (still_wcDrainSeen ..).trans (still_drainOut ..)

@[simp] theorem still_accessAhead (h : Hw) (k : Key) (r : Route) (ls : List Loc) : still (accessAhead h k r ls) = still h :=
  still_setCtx_at (part := k.part) (core := k.core) rfl

@[simp] theorem still_forgetAhead (h : Hw) (k : Key) (p : Nat → Bool) : still (forgetAhead h k p) = still h :=
  still_setCtx_at (part := k.part) (core := k.core) rfl

@[simp] theorem still_dropL1 (h : Hw) (part core : Nat) : still (dropL1 h part core) = still h :=
  still_setCtx_at (part := part) (core := core) rfl

@[simp] theorem still_dropCon (h : Hw) (part core : Nat) : still (dropCon h part core) = still h :=
  still_setCtx_at (part := part) (core := core) rfl

@[simp] theorem still_dropL1Lines (h : Hw) (part core : Nat) (ks : List Nat) : still (dropL1Lines h part core ks) = still h :=
  still_setCtx_at (part := part) (core := core) rfl

@[simp] theorem still_noteGranules (h : Hw) (p : Nat → Bool) : still (noteGranules h p) = still h := still_ite rfl rfl

@[simp] theorem still_noteReads (h : Hw) (ks : List Nat) : still (noteReads h ks) = still h := still_noteGranules ..

@[simp] theorem still_noteUe (h : Hw) (p : Pend) (ks : List Nat) : still (h.noteUe p ks) = still h := by
  unfold Hw.noteUe
  split
  · rfl
  · rfl

@[simp] theorem still_mark (h : Hw) (id : Nat) (is : List Nat) (bs : List Byte) (sees : List Nat) : still (h.mark id is bs sees) = still h := rfl

@[simp] theorem still_fillRoute (h : Hw) (k : Key) (r : Route) (ks : List Nat) : still (fillRoute h k r ks) = still h := by
  unfold fillRoute
  dsimp only
  refine (rfl : still _ = still (noteReads _ ks)).trans ((still_noteReads ..).trans ?_)
  cases r with
  | l1 => exact still_setCtx_at (part := k.part) (core := k.core) rfl
  | con => exact still_setCtx_at (part := k.part) (core := k.core) rfl
  | uncached => exact still_setCtx_at (part := k.part) (core := k.core) rfl
  | conUncached => exact still_setCtx_at (part := k.part) (core := k.core) rfl
  | scratch => exact still_setCtx_at (part := k.part) (core := k.core) rfl

@[simp] theorem still_storeHome (h : Hw) (k : Key) (sees : List Nat) (xs : List (Nat × Byte)) : still (storeHome h k sees xs) = still h := by
  refine Eq.trans ?_ ((still_writeKeys (drainOutKeys (drainSeen h k.part k.core sees) k.part k.core (xs.map Prod.fst)) (some (k.part, k.core)) xs).trans
    ((still_drainOutKeys ..).trans (still_drainSeen ..)))
  exact still_setCtx_at (part := k.part) (core := k.core) rfl

theorem ctxStill_show (c : Ctx) (m : Memory) (o : OutWrite) : ctxStill (c.show m o) = ctxStill c := by
  have hfold : ∀ (ks : List Nat) (c : Ctx), CachesOnly c (ks.foldl (fun c k => c.afterWrite true m k) c) := by
    intro ks
    induction ks with
    | nil => exact .refl
    | cons k ks ih => exact fun c => (CachesOnly.afterWrite c true m k).trans (ih _)
  refine Eq.trans ?_ (ctxStill_of_cachesOnly (hfold (o.bytes.map Prod.fst) c))
  rfl

theorem ctxStill_wcStores (k : Key) (id left : Nat) (pages : List (Nat × Nat)) (xs : List (Nat × Byte)) (c : Ctx) :
    ctxStill (xs.foldl (fun c x => wcStore c k id left pages x.1 x.2) c) = ctxStill c := by
  induction xs generalizing c with
  | nil => rfl
  | cons x xs ih =>
    refine (ih _).trans ?_
    unfold wcStore
    dsimp only
    split
    · rfl
    · rfl

@[simp] theorem still_landStore (h : Hw) (k : Key) (gang id : Nat) (sees : List Nat) (pages : List (Nat × Nat)) (home : Bool)
    (xs : List (Nat × Byte × Nat)) : still (landStore h k gang id sees pages home xs) = still h := by
  unfold landStore
  dsimp only
  have hnormal : ∀ (c d : Bool) (g : Hw) (ys : List (Nat × Byte)) (o : OutWrite), still (if c = true then g else if d = true then
      storeHome g k sees ys else (wcDrainSeen g k.part k.core sees).setCtx (((wcDrainSeen g k.part k.core sees).ctx k.part k.core).show
        (wcDrainSeen g k.part k.core sees).mem o)) = still g := fun c d g ys o =>
    still_ite rfl (still_ite (still_storeHome ..) ((still_setCtx_at (ctxStill_show ..)).trans (still_wcDrainSeen ..)))
  have hseen : ∀ (c : Bool) (g : Hw), still (if c = true then g else drainSeen g k.part k.core sees) = still g := fun c g =>
    still_ite rfl (still_drainSeen ..)
  have hwc : ∀ (c : Bool) (g : Hw) (ys : List (Nat × Byte)), still (if c = true then g else g.setCtx (ys.foldl (fun c x =>
      wcStore c k id (Config.freeNat g.fresh) pages x.1 x.2) (g.ctx k.part k.core))) = still g := fun c g ys =>
    still_ite rfl (still_setCtx_at (ctxStill_wcStores ..))
  refine still_ite ?_ ((still_writeKeys ..).trans ((still_drainOutKeys ..).trans ?_))
  · exact (hwc ..).trans ((hseen ..).trans (hnormal ..))
  · exact (hwc ..).trans ((hseen ..).trans (hnormal ..))

/-! ### Accesses are performed -/

theorem ctxStill_writeScr (c : Ctx) (launch : Nat) (xs : List (Nat × Byte)) :
    ctxStill (c.setRegion ((c.region launch).writeScr xs)) = ctxStill c := by
  refine Prod.ext rfl ?_
  show ((c.regions.map _).map _) = _
  rw [List.map_map]
  refine List.map_congr_left fun q _ => ?_
  dsimp only [Function.comp]
  split
  · next h => exact (beq_iff_eq.1 h).symm
  · rfl

@[simp] theorem still_performAtomic (h : Hw) (p : Pend) (op : AmoOp) (n : Nat) (b c : BitVec 128) (discard : Bool) :
    still (performAtomic h p op n b c discard) = still h := by
  unfold performAtomic
  dsimp only
  have hscr (g : Hw) (xs : List (Nat × Byte)) : still (g.setCtx ((g.ctx p.key.part p.key.core).setRegion
      (((g.ctx p.key.part p.key.core).region p.launch).writeScr xs))) = still g := still_setCtx_at (ctxStill_writeScr ..)
  have hmem (g : Hw) (m : Memory) : still { g with mem := m } = still g := rfl
  cases p.route <;>
    simp only [still_mark, apply_ite still, still_dropL1, still_dropL1Lines, hscr, still_writeKeys, hmem, still_noteReads, still_noteUe,
      still_accessAhead, still_drainOutKeys, still_drainSeen, ite_self]

@[simp] theorem still_beforeRead (h : Hw) (k : Key) (r : Route) (ks : List Nat) : still (beforeRead h k r ks) = still h := by
  unfold beforeRead
  split
  · exact still_drainOutKeys ..
  · exact still_drainOutKeys ..
  · rfl

@[simp] theorem still_performRead (h : Hw) (p : Pend) (is : List Nat) (ls : List Loc) : still (performRead h p is ls) = still h := by
  unfold performRead
  dsimp only
  have hread : still (beforeRead (accessAhead h p.key p.route ls) p.key p.route (physKeys ls)) = still h :=
    (still_beforeRead ..).trans (still_accessAhead ..)
  split
  · exact (still_accessAhead h p.key p.route ls :)
  · rw [still_mark]
    exact still_ite hread ((still_fillRoute ..).trans ((still_noteUe ..).trans hread))

@[simp] theorem still_healStore (h : Hw) (p : Pend) : still (healStore h p) = still h := by
  unfold healStore
  dsimp only
  have hclear (g : Hw) (ks : List Nat) : still (clearPoison g ks) = still g := rfl
  refine still_ite rfl ((hclear ..).trans (still_ite ?_ ?_))
  · exact (still_wcDrain ..).trans (still_drainOutKeys ..)
  · exact still_drainOutKeys ..

@[simp] theorem still_performBytes (h : Hw) (id : Nat) (ls : List Loc) (home : Bool) : still (performBytes h id ls home) = still h := by
  unfold performBytes
  split
  · rfl
  · next p _ =>
    dsimp only
    have hscr (g : Hw) (xs : List (Nat × Byte)) : still (g.setCtx ((g.ctx p.key.part p.key.core).setRegion
        (((g.ctx p.key.part p.key.core).region p.launch).writeScr xs))) = still g := still_setCtx_at (ctxStill_writeScr ..)
    have hid (g : Hw) (n : Nat) : still { g with nextId := n } = still g := rfl
    split
    · exact still_performRead ..
    · exact still_performRead ..
    · exact still_performRead ..
    · have hstored : ∀ {g : Hw} (is : List Nat) (bs : List Byte), still g = still h →
          still (if is.length == p.todo.length then healStore (g.mark id is bs []) p else g.mark id is bs []) = still h :=
        fun is bs hg => still_ite ((still_healStore ..).trans hg) hg
      refine hstored _ _ ?_
      split
      · exact (hscr ..).trans ((still_drainSeen ..).trans (still_accessAhead ..))
      · exact (still_landStore ..).trans ((hid ..).trans (still_accessAhead ..))
    · exact still_performAtomic ..
    · rfl
    · rfl

theorem still_performUnit {first : Hw → Nat → List Nat → Hw} (hf : ∀ h id us, still (first h id us) = still h) (home : Bool) (h : Hw)
    (id u : Nat) : still (performUnit first home h id u) = still h := by
  unfold performUnit
  split
  · rfl
  · next p _ =>
    dsimp only
    generalize (if p.isStore = true then gangLocs h p.gang h.pends.length (p.locsOf [u]) else p.locsOf [u]) = ls
    generalize (if p.isStore = true then gangStores h p.gang ls else [p]) = mates
    have hfirst : still ((dueBefore h mates ls).foldl (fun h x => first h x.1 x.2) h) = still h := still_foldl (fun _ _ => hf ..) _ _
    have hfresh (g : Hw) : still (if p.isStore = true then { g with fresh := g.fresh + 1 } else g) = still g := still_ite rfl rfl
    have hmates (g : Hw) (b : Bool) : still (mates.foldl (fun h q => performBytes h q.id ls b) g) = still g :=
      still_foldl (fun _ _ => still_performBytes ..) _ _
    refine still_ite rfl (still_ite hfirst (still_ite ((still_wcDrain ..).trans ?_) ?_))
    · exact (hmates ..).trans ((hfresh ..).trans hfirst)
    · exact (hmates ..).trans ((hfresh ..).trans hfirst)

theorem still_performAt (home : Bool) (f : Nat) (h : Hw) (id : Nat) (us : List Nat) : still (performAt home f h id us) = still h := by
  induction f generalizing h id us with
  | zero => rfl
  | succ f ih =>
    unfold performAt
    split
    · rfl
    · exact still_foldl (fun _ _ => still_performUnit (fun _ _ _ => ih ..) ..) _ _

/-- Performing an outstanding access leaves threads, launches and the like alone. -/
@[simp] theorem still_perform (h : Hw) (p : Pend) : still (perform h p) = still h := still_performAt ..

end Sys2Proof.Proofs

/-!
What completes later (R36, R159, R161, R283, R373): the producers of a thread, the write-combining lines, the staged pages.
-/
namespace Sys2Proof.Proofs
open Sys2Proof.Machine

/-! ### Threads of a state -/

theorem thread?_key {s : State} {k : Key} {t : Thread} (h : s.thread? k = some t) : t.key = k := by
  unfold State.thread? at h
  split at h
  · next hth =>
    cases h
    simp only [Bool.and_eq_true, beq_iff_eq] at hth
    exact hth.2
  · simpa using List.find?_some h

/-- The record of a resident thread is replaced where it stands. -/
theorem thread?_setThread_same {s : State} {k : Key} {t u : Thread} (h : s.thread? k = some t) (hkey : u.key = t.key) (hlive : u.live = t.live) :
    (s.setThread u).thread? k = some u := by
  have hk := thread?_key h
  unfold State.thread? at h
  unfold State.setThread
  rw [hkey, hk]
  by_cases hth : (s.th.live && s.th.key == k) = true
  · rw [if_pos hth] at h ⊢
    cases h
    unfold State.thread?
    rw [if_pos]
    · rfl
    · dsimp only [State.setTh]
      rw [hlive, hkey]
      exact hth
  · rw [if_neg hth] at h ⊢
    have hne : ¬ ((s.mapHw fun h => { h with threads := h.threads.map fun v => if v.key == k then u else v }).th.live &&
      (s.mapHw fun h => { h with threads := h.threads.map fun v => if v.key == k then u else v }).th.key == k) = true := hth
    unfold State.thread?
    rw [if_neg hne]
    dsimp only [State.mapHw]
    rw [List.find?_map]
    have hsame : ((fun v : Thread => v.key == k) ∘ fun v => if v.key == k then u else v) = fun v => v.key == k := by
      funext v
      by_cases hv : v.key = k
      · simp [hv, hkey, hk]
      · simp [hv]
    rw [hsame, h, Option.map_some, if_pos (by simpa using hk)]

theorem thread?_setThread_ne {s : State} {k : Key} {u : Thread} (hne : k ≠ u.key) : (s.setThread u).thread? k = s.thread? k := by
  unfold State.setThread
  by_cases hth : (s.th.live && s.th.key == u.key) = true
  · rw [if_pos hth]
    have hkey : s.th.key = u.key := by
      simp only [Bool.and_eq_true, beq_iff_eq] at hth
      exact hth.2
    unfold State.thread?
    rw [if_neg, if_neg]
    · rfl
    · simpa [hkey] using fun _ => hne.symm
    · simpa [State.setTh] using fun _ => hne.symm
  · rw [if_neg hth]
    unfold State.thread?
    dsimp only [State.mapHw]
    rw [List.find?_map]
    have hsame : ((fun v : Thread => v.key == k) ∘ fun v => if v.key == u.key then u else v) = fun v => v.key == k := by
      funext v
      by_cases hv : v.key = u.key
      · simp [hv]
      · simp [hv]
    rw [hsame]
    refine if_congr Iff.rfl rfl ?_
    cases hf : s.hw.threads.find? fun v => v.key == k with
    | none => rfl
    | some v =>
      have hv : v.key = k := by simpa using List.find?_some hf
      rw [Option.map_some, if_neg (by simpa [hv] using hne)]

/-- Whose threads are, an executing one and those of the hardware, decides which thread is at a key. -/
theorem thread?_congr {s u : State} (hth : u.th = s.th) (hthreads : u.hw.threads = s.hw.threads) (k : Key) : u.thread? k = s.thread? k := by
  unfold State.thread?
  rw [hth, hthreads]

theorem owner?_congr {s u : State} (hth : u.th = s.th) (hthreads : u.hw.threads = s.hw.threads) {p q : Pend} (hkey : q.key = p.key)
    (htid : q.tid = p.tid) (hlaunch : q.launch = p.launch) : u.owner? q = s.owner? p := by
  unfold State.owner?
  rw [thread?_congr hth hthreads, hkey, htid, hlaunch]

/-! ### A producer fills its cells (R36) -/

theorem CellsOnly.refill (t : Thread) (i n : Nat) : CellsOnly t (t.refill i n) := by
  induction n generalizing t i with
  | zero => exact .refl t
  | succ n ih => exact (CellsOnly.writePlain ..).trans (ih ..)

/-- A thread is the same one: its key and whether it is live. -/
def SamePlace (t u : Thread) : Prop := u.key = t.key ∧ u.live = t.live

theorem CellsOnly.samePlace {t u : Thread} (h : CellsOnly t u) : SamePlace t u := by
  obtain ⟨cs, rfl, -⟩ := h
  exact ⟨rfl, rfl⟩

theorem samePlace_fill (t : Thread) (p : Pend) (bs : List Byte) : SamePlace t (t.fill p bs) := by
  have hplain (d n : Nat) (ws : List Word) : SamePlace t (t.fillPlain d n ws) := ((CellsOnly.refill ..).trans (.writePlains ..)).samePlace
  have hzxf (d prec : Nat) (rm : BitVec 3) (smin : Nat) : SamePlace t (t.fillZxf d prec rm smin bs) := by
    unfold Thread.fillZxf
    exact (CellsOnly.samePlace ((CellsOnly.refill t d _).trans (.writeZxf ..)) :)
  unfold Thread.fill
  cases p.kind with
  | load m => exact hplain ..
  | xload prec rm smin => exact hzxf ..
  | sload d n sg => exact ⟨rfl, rfl⟩
  | atomic op n b c order discard => exact hplain ..
  | spawn entry arg => exact hplain ..
  | await tid now => exact hplain ..
  | store data => exact ⟨rfl, rfl⟩

theorem samePlace_saw (t : Thread) (p : Pend) : SamePlace t (t.saw p) := by
  obtain ⟨sees, conRead, h⟩ := saw_eq t p
  rw [h]
  exact ⟨rfl, rfl⟩

theorem owner?_some {s : State} {p : Pend} {t : Thread} (h : s.owner? p = some t) : s.thread? p.key = some t :=
  (Option.filter_eq_some_iff.1 h).1

/-- A producer completes: its thread takes its bytes, and it is no longer outstanding. -/
theorem completePend_completed (s : State) (p : Pend) (bs : List Byte) : Completed s (completePend s p bs) p fun t => (t.fill p bs).saw p := by
  have hdrop : ∀ q ∈ (dropPend s p.id).hw.pends, q.id ≠ p.id := fun q hq => by simpa using (List.mem_filter.1 hq).2
  have howner : (dropPend s p.id).owner? p = s.owner? p := owner?_congr (u := dropPend s p.id) rfl rfl rfl rfl rfl
  have hthread : ∀ k, (dropPend s p.id).thread? k = s.thread? k := thread?_congr rfl rfl
  have hset (u : Thread) : ((dropPend s p.id).setThread u).hw.pends = (dropPend s p.id).hw.pends := by
    unfold State.setThread
    split
    · rfl
    · rfl
  unfold completePend
  dsimp only
  rw [howner]
  cases ho : s.owner? p with
  | none => exact ⟨hdrop, by simp [ho], fun _ => hthread _, fun k _ => hthread k⟩
  | some t =>
    have ht : (dropPend s p.id).thread? p.key = some t := owner?_some (howner.trans ho)
    obtain ⟨hkey, hlive⟩ := samePlace_fill t p bs
    obtain ⟨hkey', hlive'⟩ := samePlace_saw (t.fill p bs) p
    refine ⟨fun q hq => hdrop q (hset _ ▸ hq), fun u hu => ?_, fun hno => by simp [ho] at hno, fun k hk => ?_⟩
    · cases ho.symm.trans hu
      exact thread?_setThread_same ht (hkey'.trans hkey) (hlive'.trans hlive)
    · rw [thread?_setThread_ne (by rw [hkey', hkey, thread?_key ht]; exact hk), hthread]

/-- What completes leaves the rest of the hardware as it is. -/
theorem completePend_hw (s : State) (p : Pend) (bs : List Byte) : ∃ ts, (completePend s p bs).hw =
    { s.hw with pends := s.hw.pends.filter fun q => q.id != p.id, threads := ts } := by
  unfold completePend State.setThread
  dsimp only
  split
  · split
    · exact ⟨_, rfl⟩
    · exact ⟨_, rfl⟩
  · exact ⟨_, rfl⟩

/-- A producer has completed as it would have in a state with the same threads. -/
theorem Completed.of_same {s s' u : State} {p : Pend} {f : Thread → Thread} (h : Completed s' u p f) (hth : s'.th = s.th)
    (hthreads : s'.hw.threads = s.hw.threads) : Completed s u p f := by
  have howner : s'.owner? p = s.owner? p := owner?_congr hth hthreads rfl rfl rfl
  obtain ⟨hpends, hmine, hnone, hothers⟩ := h
  refine ⟨hpends, fun t ht => hmine t (howner.trans ht), fun hno => ?_, fun k hk => ?_⟩
  · exact (hnone (howner.trans hno)).trans (thread?_congr hth hthreads _)
  · exact (hothers k hk).trans (thread?_congr hth hthreads _)

/-! ### Launches -/

theorem launch?_some {h : Hw} {part id : Nat} {l : Launch} (hl : h.launch? part id = some l) : l.part = part ∧ l.id = id := by
  simpa using List.find?_some hl

/-- The record of a launch is replaced where it stands. -/
theorem launch?_setLaunch_same {h : Hw} {part id : Nat} {l m : Launch} (hl : h.launch? part id = some l) (hpart : m.part = part)
    (hid : m.id = id) : (h.setLaunch m).launch? part id = some m := by
  unfold Hw.launch? Hw.setLaunch
  rw [List.find?_map]
  have hsame : ((fun l : Launch => l.part == part && l.id == id) ∘ fun l => if l.part == m.part && l.id == m.id then m else l) =
      fun l => l.part == part && l.id == id := by
    funext x
    by_cases hx : x.part = part ∧ x.id = id
    · simp [hx, hpart, hid]
    · simp [hpart, hid, hx]
  rw [hsame]
  obtain ⟨hp, hi⟩ := launch?_some hl
  unfold Hw.launch? at hl
  rw [hl, Option.map_some, if_pos (by simp [hp, hi, hpart, hid])]

/-! ### Spawns (R10, R159) -/

theorem exec_spawnComplete (id : Nat) (s : State) : exec (.spawnComplete id) s = execSpawnComplete id s := rfl
theorem exec_awaitComplete (id : Nat) (s : State) : exec (.awaitComplete id) s = execAwaitComplete id s := rfl
theorem exec_wcDrain (part core line : Nat) (s : State) : exec (.wcDrain part core line) s = execWcDrain part core line s := rfl
theorem exec_stagePage (part id page : Nat) (s : State) : exec (.stagePage part id page) s = execStagePage part id page s := rfl

/-- What a spawn of a running core, the first of its gang, does. -/
def spawned (s : State) (p : Pend) (l : Launch) (entry arg : DWord) : State :=
  if 2 ^ 32 ≤ l.nextTid then completePend s p (leBytes 4 0)
  else completePend (s.mapHw fun h =>
    pushStart (h.setLaunch { l with nextTid := l.nextTid + 1 }) p.key.part p.key.core ⟨l.id, l.nextTid, .spawn entry arg⟩) p
      (leBytes 4 l.nextTid)

section
variable {s : State} {p : Pend} {l : Launch}

theorem spawnComplete_halted {entry arg : DWord} (hp : s.hw.pend? p.id = some p) (hkind : p.kind = .spawn entry arg)
    (hl : s.hw.launch? p.key.part p.launch = some l) (hcore : coreRuns s.hw p.key.part p.key.core = false) :
    exec (.spawnComplete p.id) s = .next s := by
  rw [exec_spawnComplete]
  simp only [execSpawnComplete, hp, hkind, hl, hcore, Bool.not_false, Bool.true_or, if_pos]

theorem spawnComplete_runs {entry arg : DWord} (hp : s.hw.pend? p.id = some p) (hkind : p.kind = .spawn entry arg)
    (hl : s.hw.launch? p.key.part p.launch = some l)
    (hfirst : ∀ q ∈ s.hw.pends, q.gang = p.gang → (∃ e a, q.kind = .spawn e a) → p.id ≤ q.id)
    (hcore : coreRuns s.hw p.key.part p.key.core = true) : exec (.spawnComplete p.id) s = .next (spawned s p l entry arg) := by
  have hnone : (s.hw.pends.any fun q => (match q.kind with
      | .spawn _ _ => true
      | _ => false) && q.gang == p.gang && q.id < p.id) = false := by
    rw [List.any_eq_false]
    intro q hq hbad
    simp only [Bool.and_eq_true, beq_iff_eq, decide_eq_true_eq] at hbad
    obtain ⟨⟨hspawn, hgang⟩, hlt⟩ := hbad
    refine absurd (hfirst q hq hgang ?_) (Nat.not_le.2 hlt)
    cases hk : q.kind with
    | spawn e a => exact ⟨e, a, rfl⟩
    | _ => rw [hk] at hspawn; cases hspawn
  rw [exec_spawnComplete]
  simp only [execSpawnComplete, hp, hkind, hl, hcore, Bool.not_true, Bool.false_or]
  refine (if_neg (Bool.eq_false_iff.1 hnone)).trans ?_
  unfold spawned
  split
  · rfl
  · rfl

theorem fill_spawn {entry arg : DWord} (hkind : p.kind = .spawn entry arg) (t : Thread) (bs : List Byte) :
    t.fill p bs = t.fillPlain p.cell p.ncells (wordsOf p.ncells (leNat bs)) := by
  unfold Thread.fill
  rw [hkind]

theorem fill_await {tid : BitVec 32} {now : Bool} (hkind : p.kind = .await tid now) (t : Thread) (bs : List Byte) :
    t.fill p bs = t.fillPlain p.cell p.ncells (wordsOf p.ncells (leNat bs)) := by
  unfold Thread.fill
  rw [hkind]

theorem spawned_all_taken {entry arg : DWord} (hkind : p.kind = .spawn entry arg) (hfull : 2 ^ 32 ≤ l.nextTid) :
    (Completed s (spawned s p l entry arg) p fun t => (t.fillPlain p.cell p.ncells (wordsOf p.ncells 0)).saw p) ∧
      (spawned s p l entry arg).hw.ctxs = s.hw.ctxs := by
  unfold spawned
  rw [if_pos hfull]
  refine ⟨?_, ?_⟩
  · have hc := completePend_completed s p (leBytes 4 0)
    simp only [fill_spawn hkind, leNat_leBytes] at hc
    exact hc
  · obtain ⟨ts, hts⟩ := completePend_hw s p (leBytes 4 0)
    rw [hts]

theorem spawned_next_tid {entry arg : DWord} (hkind : p.kind = .spawn entry arg) (hl : s.hw.launch? p.key.part p.launch = some l)
    (hroom : l.nextTid < 2 ^ 32) :
    (Completed s (spawned s p l entry arg) p fun t => (t.fillPlain p.cell p.ncells (wordsOf p.ncells l.nextTid)).saw p) ∧
      (spawned s p l entry arg).hw.ctxs = (pushStart s.hw p.key.part p.key.core ⟨l.id, l.nextTid, .spawn entry arg⟩).ctxs ∧
      (spawned s p l entry arg).hw.launch? p.key.part p.launch = some { l with nextTid := l.nextTid + 1 } := by
  unfold spawned
  rw [if_neg (Nat.not_le.2 hroom)]
  generalize hs' : (s.mapHw fun h => pushStart (h.setLaunch { l with nextTid := l.nextTid + 1 }) p.key.part p.key.core
    ⟨l.id, l.nextTid, .spawn entry arg⟩) = s'
  obtain ⟨ts, hts⟩ := completePend_hw s' p (leBytes 4 l.nextTid)
  refine ⟨?_, ?_, ?_⟩
  · have hc := completePend_completed s' p (leBytes 4 l.nextTid)
    simp only [fill_spawn hkind, leNat_leBytes, Nat.mod_eq_of_lt (show l.nextTid < 256 ^ 4 from hroom)] at hc
    exact Completed.of_same hc (by rw [← hs']; rfl) (by rw [← hs']; rfl)
  · rw [hts, ← hs']
    rfl
  · rw [hts, ← hs']
    obtain ⟨hpart, hid⟩ := launch?_some hl
    exact launch?_setLaunch_same (m := { l with nextTid := l.nextTid + 1 }) hl hpart hid

/-! ### Awaits (R39, R161) -/

theorem awaitComplete_halted {tid : BitVec 32} {now : Bool} (hp : s.hw.pend? p.id = some p) (hkind : p.kind = .await tid now)
    (hl : s.hw.launch? p.key.part p.launch = some l) (hcore : coreRuns s.hw p.key.part p.key.core = false) :
    exec (.awaitComplete p.id) s = .next s := by
  have hnone : (l.exits.find? fun x => x.1 == tid.toNat && false) = none := by simp
  rw [exec_awaitComplete]
  simp only [execAwaitComplete, hp, hkind, hl, hcore, hnone]

theorem awaitComplete_running {tid : BitVec 32} {now : Bool} (hp : s.hw.pend? p.id = some p) (hkind : p.kind = .await tid now)
    (hl : s.hw.launch? p.key.part p.launch = some l) (hnone : l.exits.find? (fun x => x.1 == tid.toNat) = none) :
    exec (.awaitComplete p.id) s = .next s := by
  have hno : (l.exits.find? fun x => x.1 == tid.toNat && coreRuns s.hw p.key.part p.key.core) = none := by
    rw [List.find?_eq_none] at hnone ⊢
    intro x hx hbad
    exact hnone x hx (Bool.and_eq_true_iff.1 hbad).1
  rw [exec_awaitComplete]
  simp only [execAwaitComplete, hp, hkind, hl, hno]

theorem awaitComplete_exited {tid : BitVec 32} {now : Bool} {v : Nat × DWord} (hp : s.hw.pend? p.id = some p) (hkind : p.kind = .await tid now)
    (hl : s.hw.launch? p.key.part p.launch = some l) (hcore : coreRuns s.hw p.key.part p.key.core = true)
    (hv : l.exits.find? (fun x => x.1 == tid.toNat) = some v) : ∃ u, exec (.awaitComplete p.id) s = .next u ∧ u.hw.mem = s.hw.mem ∧
      Completed s u p fun t => (t.fillPlain p.cell p.ncells (wordsOf p.ncells v.2.toNat)).saw p := by
  have hsome : (l.exits.find? fun x => x.1 == tid.toNat && true) = some v := by simpa using hv
  rw [exec_awaitComplete]
  simp only [execAwaitComplete, hp, hkind, hl, hcore, hsome]
  refine ⟨_, rfl, ?_, ?_⟩
  · obtain ⟨ts, hts⟩ := completePend_hw (s.mapHw fun h =>
      forgetAhead (dropCon (dropL1 h p.key.part p.key.core) p.key.part p.key.core) p.key fun _ => true) p (leBytes 8 v.2.toNat)
    rw [hts]
    rfl
  · have hc := completePend_completed (s.mapHw fun h =>
      forgetAhead (dropCon (dropL1 h p.key.part p.key.core) p.key.part p.key.core) p.key fun _ => true) p (leBytes 8 v.2.toNat)
    simp only [fill_await hkind, leNat_leBytes, Nat.mod_eq_of_lt (show v.2.toNat < 256 ^ 8 from v.2.isLt)] at hc
    exact Completed.of_same hc rfl rfl

end

/-! ### Write-combining lines (R283) -/

theorem wcDrain_mem (h : Hw) (part core : Nat) (p : WcLine → Bool) : (wcDrain h part core p).mem =
    (((h.ctx part core).wc.filter p).flatMap fun l => l.bytes.map fun x => (x.key, x.byte)).foldl (fun m x => sset m x.1 x.2) h.mem := by
  unfold wcDrain
  dsimp only
  rw [Hw.setCtx_mem, writeKeys_mem, List.partition_eq_filter_filter]

theorem wcDrain_other {h : Hw} (part core : Nat) (p : WcLine → Bool) (hm : swf h.mem = true) {k : Nat}
    (hk : k ∉ ((h.ctx part core).wc.filter p).flatMap fun l => l.bytes.map fun x => x.key) :
    sget (wcDrain h part core p).mem k = sget h.mem k := by
  rw [wcDrain_mem]
  refine sget_foldl_sset_of_ne (fun x : Nat × Byte => x.1) (fun x => x.2) _ hm fun x hx he => hk ?_
  obtain ⟨l, hl, hx⟩ := List.mem_flatMap.1 hx
  obtain ⟨y, hy, rfl⟩ := List.mem_map.1 hx
  exact List.mem_flatMap.2 ⟨l, hl, List.mem_map.2 ⟨y, hy, he⟩⟩

theorem wcDrain_line {h : Hw} {part core : Nat} {p : WcLine → Bool} (hm : swf h.mem = true) {x : WcLine}
    (hx : (h.ctx part core).wc.filter p = [x]) (hd : (x.bytes.map fun y => y.key).Nodup) {y : WcByte} (hy : y ∈ x.bytes) :
    sget (wcDrain h part core p).mem y.key = y.byte := by
  rw [wcDrain_mem, hx, List.flatMap_singleton]
  exact sget_foldl_sset_of_mem (fun x : Nat × Byte => x.1) (fun x => x.2) _ hm (by rw [List.map_map]; exact hd)
    (x := (y.key, y.byte)) (List.mem_map.2 ⟨y, hy, rfl⟩)

/-! ### Parts of a memory -/

theorem sget_of_mem {w : Nat} {m : List (Nat × BitVec w)} (h : swf m = true) {k : Nat} {v : BitVec w} (hk : (k, v) ∈ m) : sget m k = v := by
  induction m with
  | nil => cases hk
  | cons x rest ih =>
    obtain ⟨a, u⟩ := x
    obtain ⟨-, habove, hrest⟩ := (swf_cons a u rest).1 h
    rcases List.mem_cons.1 hk with he | hk
    · cases he
      simp [sget]
    · have hlt : a < k := habove (k, v) hk
      rw [sget, if_neg (by omega), if_neg (by omega), ih hrest hk]

theorem sget_of_not_mem {w : Nat} {m : List (Nat × BitVec w)} {k : Nat} (hk : ∀ x ∈ m, x.1 ≠ k) : sget m k = 0#w := by
  induction m with
  | nil => rfl
  | cons x rest ih =>
    obtain ⟨a, u⟩ := x
    have hne : a ≠ k := hk (a, u) List.mem_cons_self
    rw [sget, if_neg hne.symm, ih fun y hy => hk y (List.mem_cons_of_mem _ hy), ite_self]

theorem sget_filter_of {w : Nat} {m : List (Nat × BitVec w)} (h : swf m = true) {p : Nat × BitVec w → Bool} {k : Nat}
    (hp : ∀ v, p (k, v) = true) : sget (m.filter p) k = sget m k := by
  by_cases hk : ∃ v, (k, v) ∈ m
  · obtain ⟨v, hv⟩ := hk
    rw [sget_of_mem h hv, sget_of_mem (swf_filter m p h) (List.mem_filter.2 ⟨hv, hp v⟩)]
  · have hno : ∀ x ∈ m, x.1 ≠ k := fun x hx he => hk ⟨x.2, by rw [← he]; exact hx⟩
    rw [sget_of_not_mem hno, sget_of_not_mem fun x hx => hno x (List.mem_of_mem_filter hx)]

theorem sget_zeroBytes_out {m : Memory} (h : swf m = true) {k n j : Nat} (hj : j < k ∨ k + n ≤ j) : sget (zeroBytes m k n) j = sget m j :=
  sget_filter_of h fun v => by simpa using hj

theorem sget_zeroBytes_in {m : Memory} {k n j : Nat} (hlo : k ≤ j) (hhi : j < k + n) : sget (zeroBytes m k n) j = 0#8 := by
  refine sget_of_not_mem fun x hx he => ?_
  have := (List.mem_filter.1 hx).2
  simp only [Bool.or_eq_true, decide_eq_true_eq] at this
  omega

/-- The keys of a canonical memory differ. -/
theorem nodup_keys {w : Nat} {m : List (Nat × BitVec w)} (h : swf m = true) : (m.map Prod.fst).Nodup := by
  induction m with
  | nil => exact List.nodup_nil
  | cons x rest ih =>
    obtain ⟨-, habove, hrest⟩ := (swf_cons x.1 x.2 rest).1 h
    refine List.nodup_cons.2 ⟨fun hx => ?_, ih hrest⟩
    obtain ⟨y, hy, he⟩ := List.mem_map.1 hx
    exact absurd (habove y hy) (by omega)

/-! ### Staging (R373) -/

/-- The bytes of a block of memory, as they are moved to another place. -/
def movedBytes (m : Memory) (dst src n : Nat) : Memory :=
  (m.filter fun c => src ≤ c.1 && c.1 < src + n).map fun c => (dst + (c.1 - src), c.2)

/-- A memory with a block copied to another place. -/
def copiedMem (m : Memory) (dst src n : Nat) : Memory := (movedBytes m dst src n).foldl (fun m x => sset m x.1 x.2) (zeroBytes m dst n)

theorem mem_movedBytes {m : Memory} {dst src n : Nat} {x : Nat × Byte} : x ∈ movedBytes m dst src n ↔
    ∃ c ∈ m, src ≤ c.1 ∧ c.1 < src + n ∧ (dst + (c.1 - src), c.2) = x := by
  unfold movedBytes
  simp only [List.mem_map, List.mem_filter, Bool.and_eq_true, decide_eq_true_eq, and_assoc]

theorem sget_copiedMem_out {m : Memory} (h : swf m = true) {dst src n k : Nat} (hk : k < dst ∨ dst + n ≤ k) :
    sget (copiedMem m dst src n) k = sget m k := by
  unfold copiedMem
  rw [sget_foldl_sset_of_ne (fun x : Nat × Byte => x.1) (fun x => x.2) _ (swf_zeroBytes m dst n h) fun x hx => ?_, sget_zeroBytes_out h hk]
  obtain ⟨c, -, hlo, hhi, rfl⟩ := mem_movedBytes.1 hx
  show dst + (c.1 - src) ≠ k
  omega

theorem sget_copiedMem_in {m : Memory} (h : swf m = true) {dst src n i : Nat} (hi : i < n) :
    sget (copiedMem m dst src n) (dst + i) = sget m (src + i) := by
  have hz := swf_zeroBytes m dst n h
  unfold copiedMem
  by_cases hk : ∃ v, (src + i, v) ∈ m
  · obtain ⟨v, hv⟩ := hk
    have hd : ((movedBytes m dst src n).map fun x => x.1).Nodup := by
      unfold movedBytes
      rw [List.map_map]
      have hkeys := nodup_keys (swf_filter m (fun c => src ≤ c.1 && c.1 < src + n) h)
      rw [List.nodup_map_iff_inj_on (List.Nodup.of_map _ hkeys)]
      intro x hx y hy he
      have hx' := (List.mem_filter.1 hx).2
      have hy' := (List.mem_filter.1 hy).2
      simp only [Bool.and_eq_true, decide_eq_true_eq] at hx' hy'
      have he' : dst + (x.1 - src) = dst + (y.1 - src) := he
      exact List.inj_on_of_nodup_map hkeys hx hy (by omega)
    have hmem : (dst + i, v) ∈ movedBytes m dst src n :=
      mem_movedBytes.2 ⟨(src + i, v), hv, by simp, by simpa using hi, by simp⟩
    rw [sget_of_mem h hv]
    exact sget_foldl_sset_of_mem (fun x : Nat × Byte => x.1) (fun x => x.2) _ hz hd hmem
  · rw [sget_foldl_sset_of_ne (fun x : Nat × Byte => x.1) (fun x => x.2) _ hz fun x hx he => ?_, sget_zeroBytes_in (by omega) (by omega),
      sget_of_not_mem fun x hx he => hk ⟨x.2, by rw [← he]; exact hx⟩]
    obtain ⟨c, hc, hlo, hhi, rfl⟩ := mem_movedBytes.1 hx
    have hci : c.1 = src + i := by
      have : dst + (c.1 - src) = dst + i := he
      omega
    exact hk ⟨c.2, by rw [← hci]; exact hc⟩

theorem copyBlock_mem (h : Hw) (dst src n : Nat) :
    (copyBlock h dst src n).mem = copiedMem (settleRange (readBlockOf h src n) dst n).mem dst src n := rfl

theorem settleRange_swf {h : Hw} (k n : Nat) (hm : swf h.mem = true) : swf (settleRange h k n).mem = true :=
  foldl_hw_swf _ (fun _ c hm => drainOut_swf _ _ _ (wcDrain_swf c.part c.core _ hm)) _ _ (foldl_hw_swf perform (fun _ q hm => perform_swf q hm) _ h hm)

theorem readBlockOf_swf {h : Hw} (k n : Nat) (hm : swf h.mem = true) : swf (readBlockOf h k n).mem = true := by
  unfold readBlockOf
  rw [noteGranules_mem]
  exact settleRange_swf k n hm

@[simp] theorem still_settleRange (h : Hw) (k n : Nat) : still (settleRange h k n) = still h := by
  unfold settleRange
  exact (still_foldl (fun _ _ => (still_drainOut ..).trans (still_wcDrain ..)) _ _).trans (still_foldl still_perform _ h)

theorem copyBlock_launches (h : Hw) (dst src n : Nat) : (copyBlock h dst src n).launches = h.launches :=
  still_launches (h' := settleRange (readBlockOf h src n) dst n)
    ((still_settleRange ..).trans ((still_noteGranules ..).trans (still_settleRange ..)))

/-- Nothing is under way: no access to memory is outstanding, and no store of a core is on its way home. -/
def Quiet (h : Hw) : Prop := (∀ q ∈ h.pends, physKeys q.locs = []) ∧ ∀ part core, (h.ctx part core).wc = [] ∧ (h.ctx part core).outq = []

theorem quiet_of_ctxs {h : Hw} (hpends : ∀ q ∈ h.pends, physKeys q.locs = []) (hctxs : ∀ c ∈ h.ctxs, c.wc = [] ∧ c.outq = []) : Quiet h := by
  refine ⟨hpends, fun part core => ?_⟩
  unfold Hw.ctx
  cases hc : h.ctxs.find? fun c => c.part == part && c.core == core with
  | none => exact ⟨rfl, rfl⟩
  | some c => exact hctxs c (List.mem_of_find?_eq_some hc)

theorem quiet_wcDrain {h : Hw} (hq : Quiet h) (part core : Nat) (p : WcLine → Bool) :
    Quiet (wcDrain h part core p) ∧ (wcDrain h part core p).mem = h.mem := by
  have hmem : (wcDrain h part core p).mem = h.mem := by
    rw [wcDrain_mem, (hq.2 part core).1]
    rfl
  refine ⟨⟨fun q hqm => hq.1 q (by rwa [wcDrain_pends] at hqm), fun part' core' => ?_⟩, hmem⟩
  obtain ⟨h', hw, he⟩ := wcDrain_eq h part core p
  have hctx (a b : Nat) : (h'.ctx a b).wc = [] ∧ (h'.ctx a b).outq = [] := by
    rw [(hw.ctx a b).wc, (hw.ctx a b).outq]
    exact hq.2 a b
  rw [he]
  rcases ctx_setCtx_cases h' _ part' core' with hc | hc
  · rw [hc]
    exact ⟨by simp [(hq.2 part core).1], (hctx part core).2⟩
  · rw [hc]
    exact hctx part' core'

theorem quiet_drainOut {h : Hw} (hq : Quiet h) (part core : Nat) (ids : List Nat) : drainOut h part core ids = h :=
  if_pos (by rw [(hq.2 part core).2]; rfl)

theorem quiet_noteGranules {h : Hw} (hq : Quiet h) (p : Nat → Bool) : Quiet (noteGranules h p) := by
  unfold noteGranules
  dsimp only
  split
  · exact hq
  · exact hq

/-- Where nothing is under way, nothing has to be settled. -/
theorem settleRange_quiet {h : Hw} (hq : Quiet h) (k n : Nat) : Quiet (settleRange h k n) ∧ (settleRange h k n).mem = h.mem := by
  have hnone : (h.pends.filter fun p => (physKeys p.locs).any fun x => decide (k ≤ x) && decide (x < k + n)) = [] := by
    refine List.filter_eq_nil_iff.2 fun q hqm => ?_
    rw [hq.1 q hqm]
    simp
  unfold settleRange
  dsimp only
  rw [hnone, List.foldl_nil]
  clear hnone
  generalize h.ctxs = cs
  induction cs generalizing h with
  | nil => exact ⟨hq, rfl⟩
  | cons c cs ih =>
    obtain ⟨hq', hm'⟩ := quiet_wcDrain hq c.part c.core fun l => l.bytes.any fun x => decide (k ≤ x.key) && decide (x.key < k + n)
    rw [List.foldl_cons, quiet_drainOut hq']
    obtain ⟨hq'', hm''⟩ := ih hq'
    exact ⟨hq'', hm''.trans hm'⟩

theorem stagePage_stages {s : State} {l : Launch} {part id page : Nat} {g : Staged} (hl : s.hw.launch? part id = some l)
    (hg : stagedPiece s l page = some g) (hrestart : l.restartable = true) (hwant : ∃ v ∈ l.wants, v.1 = g.va) :
    exec (.stagePage part id page) s = .next (s.mapHw fun h => (copyBlock h g.frame g.orig g.size).setLaunch
      { l with staged := l.staged ++ [g], wants := l.wants.filter fun v => v.1 != g.va }) := by
  have hany : (l.restartable && l.wants.any fun v => v.1 == g.va) = true := by simpa [hrestart] using hwant
  rw [exec_stagePage]
  simp only [execStagePage, hl, hg, whenEnabled, hany, if_true]

theorem stagePage_waits {s : State} {l : Launch} {part id page : Nat} {g : Staged} (hl : s.hw.launch? part id = some l)
    (hg : stagedPiece s l page = some g) (hno : l.restartable = false ∨ ∀ v ∈ l.wants, v.1 ≠ g.va) :
    exec (.stagePage part id page) s = .next s := by
  have hany : (l.restartable && l.wants.any fun v => v.1 == g.va) = false :=
    Bool.and_eq_false_iff.2 (hno.imp (fun h => h) fun h => List.any_eq_false.2 fun v hv => by simpa using h v hv)
  rw [exec_stagePage]
  simp only [execStagePage, hl, hg, whenEnabled, hany]
  rfl

theorem stagePage_none {s : State} {l : Launch} {part id page : Nat} (hl : s.hw.launch? part id = some l)
    (hg : stagedPiece s l page = none) : exec (.stagePage part id page) s = .next s := by
  rw [exec_stagePage]
  simp only [execStagePage, hl, hg]

/-- Settles O46: what the model's step does for each of the four events, and the threads, contexts, launches and bytes that follow. -/
theorem spawnsAndStagingComplete : Obligations.SpawnsAndStagingComplete := by
  unfold Obligations.SpawnsAndStagingComplete
  intro s p l
  refine ⟨fun entry arg hp hkind hl hfirst => ⟨spawnComplete_halted hp hkind hl, fun hcore =>
      ⟨_, spawnComplete_runs hp hkind hl hfirst hcore, fun hroom => ?_, fun hfull => spawned_all_taken hkind hfull⟩⟩,
    fun tid now hp hkind hl => ⟨awaitComplete_halted hp hkind hl, fun hcore v hv => awaitComplete_exited hp hkind hl hcore hv,
      awaitComplete_running hp hkind hl⟩,
    fun part core line hcan => ⟨_, exec_wcDrain part core line s, ?_, ?_, fun x hx hd y hy => wcDrain_line hcan hx hd hy⟩,
    fun part id page hl => ⟨stagePage_none hl, fun g hg => ⟨stagePage_waits hl hg, fun hrestart hwant hcan _ =>
      ⟨fun hpends hctxs => ?_, _, stagePage_stages hl hg hrestart hwant, ?_, ?_, ?_⟩⟩⟩⟩
  · obtain ⟨hdone, hctxs, hlaunch⟩ := spawned_next_tid hkind hl hroom
    exact ⟨hdone, hctxs, _, hlaunch, rfl⟩
  · intro x hx he
    have := wcDrain_wc s.hw part core (fun l => l.line == line) x hx
    simp [he] at this
  · exact fun k hk => wcDrain_other part core _ hcan hk
  · obtain ⟨hq, hm⟩ := settleRange_quiet (quiet_of_ctxs hpends hctxs) g.orig g.size
    exact (settleRange_quiet (quiet_noteGranules hq _) g.frame g.size).2.trans ((noteGranules_mem ..).trans hm)
  · obtain ⟨hpart, hid⟩ := launch?_some hl
    refine launch?_setLaunch_same (l := l) ?_ hpart hid
    unfold Hw.launch?
    rw [copyBlock_launches]
    exact hl
  · intro i hi
    exact sget_copiedMem_in (settleRange_swf _ _ (readBlockOf_swf _ _ hcan)) hi
  · intro k hk
    exact sget_copiedMem_out (settleRange_swf _ _ (readBlockOf_swf _ _ hcan)) hk

end Sys2Proof.Proofs

/-!
How an outstanding access is performed (R36, R172, R176, R180, R181, R292): its bytes are read in their units, and nothing else of what is
outstanding changes but by what comes before it.
-/
namespace Sys2Proof.Proofs
open Sys2Proof.Machine

/-! ### What is outstanding, through the operations of an access -/

@[simp] theorem writeKeys_pends (h : Hw) (own : Option (Nat × Nat)) (xs : List (Nat × Byte)) : (writeKeys h own xs).pends = h.pends :=
  (WritesHome.writeKeys h own xs).pends
@[simp] theorem accessAhead_pends (h : Hw) (k : Key) (r : Route) (ls : List Loc) : (accessAhead h k r ls).pends = h.pends := rfl
@[simp] theorem dropL1Lines_pends (h : Hw) (part core : Nat) (ks : List Nat) : (dropL1Lines h part core ks).pends = h.pends := rfl
@[simp] theorem drainOutKeys_pends (h : Hw) (part core : Nat) (ks : List Nat) : (drainOutKeys h part core ks).pends = h.pends := drainOut_pends ..

@[simp] theorem wcDrainSeen_pends (h : Hw) (part core : Nat) (ids : List Nat) : (wcDrainSeen h part core ids).pends = h.pends := by
  unfold wcDrainSeen
  split
  · rfl
  · exact wcDrain_pends ..

@[simp] theorem drainSeen_pends (h : Hw) (part core : Nat) (ids : List Nat) : (drainSeen h part core ids).pends = h.pends :=
  (wcDrainSeen_pends ..).trans (drainOut_pends ..)

@[simp] theorem noteReads_pends (h : Hw) (ks : List Nat) : (noteReads h ks).pends = h.pends := by
  unfold noteReads noteGranules
  dsimp only
  split
  · rfl
  · rfl

@[simp] theorem noteUe_pends (h : Hw) (p : Pend) (ks : List Nat) : (h.noteUe p ks).pends = h.pends := by
  unfold Hw.noteUe
  split
  · rfl
  · rfl

@[simp] theorem fillRoute_pends (h : Hw) (k : Key) (r : Route) (ks : List Nat) : (fillRoute h k r ks).pends = h.pends := by
  unfold fillRoute
  cases r <;> exact noteReads_pends ..

@[simp] theorem beforeRead_pends (h : Hw) (k : Key) (r : Route) (ks : List Nat) : (beforeRead h k r ks).pends = h.pends := by
  unfold beforeRead
  split
  · exact drainOutKeys_pends ..
  · exact drainOutKeys_pends ..
  · rfl

@[simp] theorem storeHome_pends (h : Hw) (k : Key) (sees : List Nat) (xs : List (Nat × Byte)) : (storeHome h k sees xs).pends = h.pends := by
  unfold storeHome
  simp only [Hw.setCtx_pends, writeKeys_pends, drainOutKeys_pends, drainSeen_pends]

@[simp] theorem landStore_pends (h : Hw) (k : Key) (gang id : Nat) (sees : List Nat) (pages : List (Nat × Nat)) (home : Bool)
    (xs : List (Nat × Byte × Nat)) : (landStore h k gang id sees pages home xs).pends = h.pends := by
  unfold landStore
  simp only [apply_ite Hw.pends, Hw.setCtx_pends, writeKeys_pends, drainOutKeys_pends, drainSeen_pends, storeHome_pends, wcDrainSeen_pends,
    ite_self]

@[simp] theorem healStore_pends (h : Hw) (p : Pend) : (healStore h p).pends = h.pends := by
  have hclear (g : Hw) (ks : List Nat) : (clearPoison g ks).pends = g.pends := rfl
  unfold healStore
  simp only [apply_ite Hw.pends, hclear, wcDrain_pends, drainOutKeys_pends, ite_self]

/-! ### Progress of what is outstanding -/

/-- What of an outstanding access never changes. -/
def pendStill (p : Pend) : Pend := { p with got := p.got.map fun _ => none, sees := [] }

/-- An access has gone on: it is the same one, and no more of it is left to do. -/
def GoneOn (q q' : Pend) : Prop := pendStill q' = pendStill q ∧ ∀ i ∈ q'.todo, i ∈ q.todo

theorem GoneOn.refl (q : Pend) : GoneOn q q := ⟨rfl, fun _ h => h⟩

theorem GoneOn.trans {q q' q'' : Pend} (g : GoneOn q q') (g' : GoneOn q' q'') : GoneOn q q'' :=
  ⟨g'.1.trans g.1, fun i hi => g.2 i (g'.2 i hi)⟩

/-- What is outstanding has gone on: whatever there is was there before, and only stores are over. -/
structure PendsFrom (h h' : Hw) : Prop where
  origin : ∀ q' ∈ h'.pends, ∃ q ∈ h.pends, GoneOn q q'
  kept : ∀ q ∈ h.pends, q.isStore = false → ∃ q' ∈ h'.pends, GoneOn q q'

theorem PendsFrom.of_eq {h h' : Hw} (he : h'.pends = h.pends) : PendsFrom h h' :=
  ⟨fun q hq => ⟨q, he ▸ hq, .refl q⟩, fun q hq _ => ⟨q, he ▸ hq, .refl q⟩⟩

theorem isStore_congr {q q' : Pend} (h : pendStill q' = pendStill q) : q'.isStore = q.isStore := congrArg (fun p => p.isStore) h

theorem PendsFrom.trans {h h' h'' : Hw} (g : PendsFrom h h') (g' : PendsFrom h' h'') : PendsFrom h h'' where
  origin := fun q hq => by
    obtain ⟨q', hq', he'⟩ := g'.origin q hq
    obtain ⟨q'', hq'', he''⟩ := g.origin q' hq'
    exact ⟨q'', hq'', he''.trans he'⟩
  kept := fun q hq hs => by
    obtain ⟨q', hq', he'⟩ := g.kept q hq hs
    obtain ⟨q'', hq'', he''⟩ := g'.kept q' hq' ((isStore_congr he'.1).trans hs)
    exact ⟨q'', hq'', he'.trans he''⟩

theorem PendsFrom.foldl {α : Type} {f : Hw → α → Hw} (hf : ∀ h x, PendsFrom h (f h x)) (xs : List α) (h : Hw) : PendsFrom h (xs.foldl f h) := by
  induction xs generalizing h with
  | nil => exact .of_eq rfl
  | cons x xs ih => exact (hf h x).trans (ih _)

/-- Bytes of an access are recorded. -/
def putBytes (g : List (Option Byte)) (xs : List (Nat × Byte)) : List (Option Byte) := xs.foldl (fun g x => g.set x.1 (some x.2)) g

theorem length_putBytes (g : List (Option Byte)) (xs : List (Nat × Byte)) : (putBytes g xs).length = g.length := by
  induction xs generalizing g with
  | nil => rfl
  | cons x xs ih => exact (ih _).trans (List.length_set ..)

/-- An access with some of its bytes recorded. -/
def Pend.withBytes (p : Pend) (is : List Nat) (bs : List Byte) (sees : List Nat) : Pend :=
  { p with got := putBytes p.got (is.zip bs), sees := if sees.isEmpty then p.sees else nub (p.sees ++ sees) }

theorem pendStill_withBytes (p : Pend) (is : List Nat) (bs : List Byte) (sees : List Nat) : pendStill (Pend.withBytes p is bs sees) = pendStill p := by
  unfold pendStill Pend.withBytes
  simp only [List.map_const', length_putBytes]

theorem mark_pends (h : Hw) (id : Nat) (is : List Nat) (bs : List Byte) (sees : List Nat) : (h.mark id is bs sees).pends =
    (h.pends.map fun q => if q.id == id then Pend.withBytes q is bs sees else q).filter fun q => !(q.id == id && q.isStore && q.todo.isEmpty) := rfl

theorem mem_todo {p : Pend} {i : Nat} : i ∈ p.todo ↔ i < p.locs.length ∧ p.got.getD i none = none := by
  simp [Pend.todo]

/-- What is recorded of an access stays recorded. -/
theorem isSome_putBytes {g : List (Option Byte)} {xs : List (Nat × Byte)} {i : Nat} (hi : (g.getD i none).isSome) :
    ((putBytes g xs).getD i none).isSome := by
  induction xs generalizing g with
  | nil => exact hi
  | cons x xs ih =>
    refine ih (g := g.set x.1 (some x.2)) ?_
    have hlt : i < g.length := by
      by_contra hge
      simp [List.getD_eq_getElem?_getD, List.getElem?_eq_none (Nat.le_of_not_lt hge)] at hi
    by_cases hx : x.1 = i
    · subst hx
      simp [List.getD_eq_getElem?_getD, hlt]
    · rw [List.getD_eq_getElem?_getD, List.getElem?_set_ne hx, ← List.getD_eq_getElem?_getD]
      exact hi

theorem GoneOn.withBytes (p : Pend) (is : List Nat) (bs : List Byte) (sees : List Nat) : GoneOn p (Pend.withBytes p is bs sees) := by
  refine ⟨pendStill_withBytes .., fun i hi => ?_⟩
  obtain ⟨hlt, hnone⟩ := mem_todo.1 hi
  refine mem_todo.2 ⟨hlt, ?_⟩
  by_contra hsome
  have := isSome_putBytes (xs := is.zip bs) (Option.isSome_iff_ne_none.2 hsome)
  exact absurd hnone (Option.isSome_iff_ne_none.1 this)

theorem PendsFrom.mark (h : Hw) (id : Nat) (is : List Nat) (bs : List Byte) (sees : List Nat) : PendsFrom h (h.mark id is bs sees) := by
  have hput (p : Pend) : GoneOn p (if p.id == id then Pend.withBytes p is bs sees else p) := by
    split
    · exact .withBytes ..
    · exact .refl p
  refine ⟨fun q hq => ?_, fun q hq hs => ?_⟩
  · rw [mark_pends] at hq
    obtain ⟨p, hp, rfl⟩ := List.mem_map.1 (List.mem_of_mem_filter hq)
    exact ⟨p, hp, hput p⟩
  · refine ⟨_, ?_, hput q⟩
    rw [mark_pends, List.mem_filter]
    refine ⟨List.mem_map.2 ⟨q, hq, rfl⟩, ?_⟩
    rw [isStore_congr (hput q).1, hs]
    simp

theorem performRead_eq (h : Hw) (p : Pend) (is : List Nat) (ls : List Loc) : ∃ (h' : Hw) (bs : List Byte) (sees : List Nat), performRead h p is ls = h'.mark p.id is bs sees ∧
    h'.pends = h.pends := by
  unfold performRead
  dsimp only
  split
  · exact ⟨_, _, _, rfl, rfl⟩
  · refine ⟨_, _, _, rfl, ?_⟩
    split
    · exact beforeRead_pends ..
    · simp only [fillRoute_pends, noteUe_pends, beforeRead_pends, accessAhead_pends]

theorem performAtomic_eq (h : Hw) (p : Pend) (op : AmoOp) (n : Nat) (b c : BitVec 128) (discard : Bool) :
    ∃ h' : Hw, performAtomic h p op n b c discard = h'.mark p.id (List.range p.locs.length) (readLocs (accessAhead (drainOutKeys (drainSeen h
      p.key.part p.key.core p.sees) p.key.part p.key.core (physKeys p.locs)) p.key p.route p.locs) p.key p.launch p.route p.locs) [] ∧
      h'.pends = h.pends := by
  refine ⟨_, rfl, ?_⟩
  cases p.route <;>
    simp only [apply_ite Hw.pends, dropL1_pends, dropL1Lines_pends, Hw.setCtx_pends, writeKeys_pends, noteReads_pends, noteUe_pends,
      accessAhead_pends, drainOutKeys_pends, drainSeen_pends, ite_self]

theorem PendsFrom.performBytes (h : Hw) (id : Nat) (ls : List Loc) (home : Bool) : PendsFrom h (performBytes h id ls home) := by
  have hread (p : Pend) (is : List Nat) (ls : List Loc) : PendsFrom h (performRead h p is ls) := by
    obtain ⟨h', bs, sees, he, hp⟩ := performRead_eq h p is ls
    rw [he]
    exact (PendsFrom.of_eq hp).trans (.mark ..)
  unfold Machine.performBytes
  split
  · exact .of_eq rfl
  · next p _ =>
    dsimp only
    split
    · exact hread ..
    · exact hread ..
    · exact hread ..
    · have hstored : ∀ {g : Hw} (is : List Nat) (bs : List Byte), g.pends = h.pends →
          PendsFrom h (if is.length == p.todo.length then healStore (g.mark id is bs []) p else g.mark id is bs []) := fun is bs hg => by
        split
        · exact ((PendsFrom.of_eq hg).trans (.mark ..)).trans (.of_eq (healStore_pends ..))
        · exact (PendsFrom.of_eq hg).trans (.mark ..)
      refine hstored _ _ ?_
      split
      · simp only [Hw.setCtx_pends, drainSeen_pends, accessAhead_pends]
      · simp only [landStore_pends, accessAhead_pends]
    · next op n b c _ discard _ =>
      obtain ⟨h', he, hp⟩ := performAtomic_eq h p op n b c discard
      rw [he]
      exact (PendsFrom.of_eq hp).trans (.mark ..)
    · exact .of_eq rfl
    · exact .of_eq rfl

theorem PendsFrom.performUnit {first : Hw → Nat → List Nat → Hw} (hf : ∀ h id us, PendsFrom h (first h id us)) (home : Bool) (h : Hw)
    (id u : Nat) : PendsFrom h (performUnit first home h id u) := by
  unfold Machine.performUnit
  split
  · exact .of_eq rfl
  · next p _ =>
    dsimp only
    generalize (if p.isStore = true then gangLocs h p.gang h.pends.length (p.locsOf [u]) else p.locsOf [u]) = ls
    generalize (if p.isStore = true then gangStores h p.gang ls else [p]) = mates
    have hfirst : PendsFrom h ((dueBefore h mates ls).foldl (fun h x => first h x.1 x.2) h) := .foldl (fun _ _ => hf ..) _ _
    have hfresh (g : Hw) : PendsFrom g (if p.isStore = true then { g with fresh := g.fresh + 1 } else g) := .of_eq (by split <;> rfl)
    have hmates (g : Hw) (b : Bool) : PendsFrom g (mates.foldl (fun h q => Machine.performBytes h q.id ls b) g) :=
      .foldl (fun _ _ => .performBytes ..) _ _
    split
    · exact .of_eq rfl
    · split
      · exact hfirst
      · have hall := (hfirst.trans (hfresh _)).trans (hmates _ (home && decide (mates.length ≤ 1)))
        split
        · exact hall.trans (.of_eq (wcDrain_pends ..))
        · exact hall

theorem PendsFrom.performAt (home : Bool) (f : Nat) (h : Hw) (id : Nat) (us : List Nat) : PendsFrom h (performAt home f h id us) := by
  induction f generalizing h id us with
  | zero => exact .of_eq rfl
  | succ f ih =>
    unfold Machine.performAt
    split
    · exact .of_eq rfl
    · exact .foldl (fun _ _ => .performUnit (fun _ _ _ => ih ..) ..) _ _

theorem PendsFrom.perform (h : Hw) (p : Pend) : PendsFrom h (perform h p) := .performAt ..

/-! ### The bytes of an access -/

theorem pendStill_eq_iff {p q : Pend} : pendStill q = pendStill p ↔
    q = { p with got := q.got, sees := q.sees } ∧ q.got.length = p.got.length := by
  constructor
  · intro h
    have hq : q = { pendStill q with got := q.got, sees := q.sees } := rfl
    rw [h] at hq
    exact ⟨hq, by simpa [pendStill] using congrArg (fun p => p.got.length) h⟩
  · rintro ⟨h, hlen⟩
    refine (congrArg pendStill h).trans ?_
    simp only [pendStill, List.map_const', hlen]

/-- The bytes of an access, not yet performed, at some locations. -/
def bytesIn (p : Pend) (ls : List Loc) : List Nat := p.todo.filter fun i => match p.locs[i]? with
  | some l => ls.contains l
  | none => false

theorem mem_bytesIn {p : Pend} {ls : List Loc} {i : Nat} : i ∈ bytesIn p ls ↔ i ∈ p.todo ∧ ∃ l ∈ ls, p.locs[i]? = some l := by
  unfold bytesIn
  rw [List.mem_filter]
  refine and_congr Iff.rfl ?_
  cases p.locs[i]? <;> simp

theorem mem_units {p : Pend} {u : Nat} : u ∈ p.units ↔ ∃ i ∈ p.todo, p.unitOf i = u := by
  unfold Pend.units
  rw [mem_nub, List.mem_map]

theorem mem_locsOf {p : Pend} {us : List Nat} {l : Loc} : l ∈ p.locsOf us ↔ ∃ i ∈ p.todo, p.unitOf i ∈ us ∧ p.locs[i]? = some l := by
  unfold Pend.locsOf
  simp only [List.mem_filterMap, List.mem_filter, List.contains_iff_mem, and_assoc]

/-- Every byte of a unit that is not yet performed is one of the unit's. -/
theorem mem_bytesIn_locsOf {p : Pend} {u i : Nat} (hi : i ∈ p.todo) (hu : p.unitOf i = u) : i ∈ bytesIn p (p.locsOf [u]) := by
  have hlt := (mem_todo.1 hi).1
  exact mem_bytesIn.2 ⟨hi, p.locs[i], mem_locsOf.2 ⟨i, hi, by simp [hu], List.getElem?_eq_getElem hlt⟩, List.getElem?_eq_getElem hlt⟩

theorem isSome_putBytes_of_mem {g : List (Option Byte)} {xs : List (Nat × Byte)} {i : Nat} (hlt : i < g.length) (hi : ∃ x ∈ xs, x.1 = i) :
    ((putBytes g xs).getD i none).isSome := by
  induction xs generalizing g with
  | nil => simp at hi
  | cons x xs ih =>
    by_cases hx : x.1 = i
    · refine isSome_putBytes (g := g.set x.1 (some x.2)) (xs := xs) ?_
      subst hx
      simp [List.getD_eq_getElem?_getD, hlt]
    · obtain ⟨y, hy, he⟩ := hi
      rcases List.mem_cons.1 hy with rfl | hy
      · exact absurd he hx
      · exact ih (g := g.set x.1 (some x.2)) (by rw [List.length_set]; exact hlt) ⟨y, hy, he⟩

/-- What recording bytes of an access leaves to do. -/
theorem mem_todo_withBytes {p : Pend} {is : List Nat} {bs : List Byte} {sees : List Nat} {i : Nat} (hlen : bs.length = is.length)
    (hgot : p.got.length = p.locs.length) (hi : i ∈ (Pend.withBytes p is bs sees).todo) : i ∈ p.todo ∧ i ∉ is := by
  obtain ⟨hlt, hnone⟩ := mem_todo.1 hi
  refine ⟨(GoneOn.withBytes p is bs sees).2 i hi, fun hmem => ?_⟩
  obtain ⟨j, hj, rfl⟩ := List.getElem_of_mem hmem
  have := isSome_putBytes_of_mem (g := p.got) (xs := is.zip bs) (i := is[j]) (by rw [hgot]; exact hlt)
      ⟨(is[j], bs[j]'(by omega)), by rw [List.mem_iff_getElem]; exact ⟨j, by simp [hlen, hj], by simp⟩, rfl⟩
  exact absurd hnone (Option.isSome_iff_ne_none.1 this)

theorem allSome_of_forall {α : Type} {xs : List (Option α)} (h : ∀ x ∈ xs, x ≠ none) : ∃ ys, allSome xs = some ys ∧ ys.length = xs.length := by
  induction xs with
  | nil => exact ⟨[], rfl, rfl⟩
  | cons x xs ih =>
    obtain ⟨ys, hys, hlen⟩ := ih fun y hy => h y (List.mem_cons_of_mem _ hy)
    cases x with
    | none => exact absurd rfl (h none List.mem_cons_self)
    | some y => exact ⟨y :: ys, by simp [allSome, hys], by simp [hlen]⟩

/-- An access of which nothing is left to do has its bytes. -/
theorem bytes_of_todo_nil {p : Pend} (hgot : p.got.length = p.locs.length) (h : p.todo = []) : ∃ bs, p.bytes = some bs ∧ bs.length = p.locs.length := by
  obtain ⟨bs, hbs, hlen⟩ := allSome_of_forall (xs := p.got) fun x hx he => by
    obtain ⟨i, hi, hix⟩ := List.getElem_of_mem hx
    have : i ∈ p.todo := mem_todo.2 ⟨by omega, by simp [List.getD_eq_getElem?_getD, hi, hix, he]⟩
    rw [h] at this
    cases this
  exact ⟨bs, hbs, hlen.trans hgot⟩

/-! ### One access is performed -/

/-- An access is outstanding under its own number, with its bytes in the space of its route, and waits for no peer. -/
structure Alone (h : Hw) (p : Pend) : Prop where
  find : h.pends.find? (fun q => q.id == p.id) = some p
  unique : ∀ q ∈ h.pends, q.id = p.id → q = p
  got : p.got.length = p.locs.length
  space : ∀ l ∈ p.locs, p.route = .scratch ↔ ∃ o, l = .scr o
  free : h.heldByPeer p.id = false
  first : ∀ q ∈ h.pends, q ≠ p → q.before p p.locs = []

theorem over_eq_nil_of_subset {q : Pend} {ls ls' : List Loc} (hsub : ls ⊆ ls') (h : q.over ls' = []) : q.over ls = [] := by
  rw [List.eq_nil_iff_forall_not_mem] at h ⊢
  intro u hu
  refine h u ?_
  unfold Pend.over at hu ⊢
  rw [mem_nub, List.mem_map] at hu ⊢
  obtain ⟨i, hi, rfl⟩ := hu
  exact ⟨i, mem_bytesIn.2 ⟨(mem_bytesIn.1 hi).1, let ⟨l, hl, he⟩ := (mem_bytesIn.1 hi).2; ⟨l, hsub hl, he⟩⟩, rfl⟩

theorem before_eq_nil_of_subset {q g : Pend} {ls ls' : List Loc} (hsub : ls ⊆ ls') (h : q.before g ls' = []) : q.before g ls = [] := by
  unfold Pend.before at h ⊢
  split at h
  · next hle => rw [if_pos hle]
  · next hle =>
    rw [if_neg hle]
    split at h
    · next hc => rw [if_pos hc]; exact h
    · next hc =>
      rw [if_neg hc]
      split at h
      · next hd => rw [if_pos hd]; exact over_eq_nil_of_subset hsub h
      · next hd => rw [if_neg hd]

/-- What comes before an access depends on what of it never changes. -/
theorem before_congr {q g g' : Pend} (h : pendStill g' = pendStill g) (ls : List Loc) : q.before g' ls = q.before g ls := by
  rw [(pendStill_eq_iff.1 h).1]
  rfl

theorem locsOf_subset (p : Pend) (us : List Nat) : p.locsOf us ⊆ p.locs := fun _ hl => by
  obtain ⟨i, -, -, he⟩ := mem_locsOf.1 hl
  exact List.mem_of_getElem? he

theorem dueBefore_nil {h : Hw} {p : Pend} (hfirst : ∀ q ∈ h.pends, q ≠ p → q.before p p.locs = []) (us : List Nat) :
    dueBefore h [p] (p.locsOf us) = [] := by
  unfold dueBefore
  rw [List.filterMap_eq_nil_iff]
  intro q hq
  by_cases hid : q = p
  · simp [hid]
  · have hnone := before_eq_nil_of_subset (locsOf_subset p us) (hfirst q hq hid)
    simp [hnone, nub]

section
variable {h : Hw} {p : Pend} (ha : Alone h p)
include ha

theorem Alone.nothing_due (us : List Nat) : dueBefore h [p] (p.locsOf us) = [] := dueBefore_nil ha.first us

/-- A unit of a load or an atomic that nothing comes before is performed by itself. -/
theorem Alone.performUnit_eq (hkind : p.isStore = false) (first : Hw → Nat → List Nat → Hw) (u : Nat) :
    performUnit first false h p.id u = if (p.locsOf [u]).isEmpty then h else performBytes h p.id (p.locsOf [u]) false := by
  unfold performUnit
  rw [ha.find]
  dsimp only
  rw [hkind]
  simp only [Bool.false_eq_true, if_false]
  rw [ha.nothing_due [u], List.foldl_nil, ha.nothing_due [u]]
  simp [ha.free]

end

/-- Performing an access whole performs its units one after another. -/
theorem perform_eq {h : Hw} {p : Pend} (hfind : h.pends.find? (fun q => q.id == p.id) = some p) :
    perform h p = p.units.foldl (fun h' u => performUnit (performAt false h.pends.length) false h' p.id u) h := by
  unfold perform performAt
  rw [hfind]
  dsimp only
  have hall : (p.units.filter fun u => p.units.any fun v => decide (u ≤ v)) = p.units :=
    List.filter_eq_self.2 fun u hu => List.any_eq_true.2 ⟨u, hu, by simp⟩
  rw [hall, ite_self]

theorem length_readLocs (h : Hw) (k : Key) (launch : Nat) {r : Route} {ls : List Loc} (hspace : ∀ l ∈ ls, r = .scratch ↔ ∃ o, l = .scr o) :
    (readLocs h k launch r ls).length = ls.length := by
  have hroute : ∀ ks, (readRoute h k r ks).length = ks.length := fun ks => List.length_map ..
  have hcount : (r = .scratch → (scrOffs ls).length = ls.length) ∧ (r ≠ .scratch → (physKeys ls).length = ls.length) := by
    induction ls with
    | nil => exact ⟨fun _ => rfl, fun _ => rfl⟩
    | cons l ls ih =>
      have hl := hspace l List.mem_cons_self
      obtain ⟨hs, hp⟩ := ih fun x hx => hspace x (List.mem_cons_of_mem _ hx)
      cases l with
      | phys k => exact ⟨fun hr => absurd (hl.1 hr) (by simp), fun hr => by simpa [physKeys] using hp hr⟩
      | scr o => exact ⟨fun hr => by simpa [scrOffs] using hs hr, fun hr => absurd (hl.2 ⟨o, rfl⟩) hr⟩
  unfold readLocs
  cases r with
  | scratch => simpa using hcount.1 rfl
  | l1 => exact (hroute _).trans (hcount.2 (by simp))
  | con => exact (hroute _).trans (hcount.2 (by simp))
  | uncached => exact (hroute _).trans (hcount.2 (by simp))
  | conUncached => exact (hroute _).trans (hcount.2 (by simp))

theorem length_aheadOf {c : Ctx} {k : Key} {r : Route} {ls : List Loc} {a : List Byte × List Nat} (h : c.aheadOf k r ls = some a) :
    a.1.length = ls.length := by
  unfold Ctx.aheadOf at h
  split at h
  · cases h
    exact List.length_map ..
  · cases h

/-- What a load reads of its bytes, in which state it is recorded. -/
theorem performRead_reads (h : Hw) (p : Pend) (is : List Nat) {ls : List Loc} (hspace : ∀ l ∈ ls, p.route = .scratch ↔ ∃ o, l = .scr o) :
    ∃ (g : Hw) (bs : List Byte) (sees : List Nat), performRead h p is ls = g.mark p.id is bs sees ∧ g.pends = h.pends ∧
      bs.length = ls.length ∧
      let h1 := beforeRead (accessAhead h p.key p.route ls) p.key p.route (physKeys ls)
      ((bs = readLocs h1 p.key p.launch p.route ls ∧ g.mem = h1.mem) ∨
        (p.device = false ∧ g.mem = h.mem ∧ ∃ sees', (h.ctx p.key.part p.key.core).aheadOf p.key p.route ls = some (bs, sees'))) := by
  unfold performRead
  dsimp only
  split
  · next bs sees hfilter =>
    obtain ⟨hahead, hfree⟩ := Option.filter_eq_some_iff.1 hfilter
    simp only [Bool.and_eq_true, Bool.not_eq_true'] at hfree
    exact ⟨_, bs, sees, rfl, rfl, length_aheadOf hahead, .inr ⟨hfree.1, rfl, sees, hahead⟩⟩
  · refine ⟨_, _, _, rfl, ?_, length_readLocs _ _ _ hspace, .inl ⟨rfl, ?_⟩⟩
    · split
      · exact beforeRead_pends ..
      · simp only [fillRoute_pends, noteUe_pends, beforeRead_pends, accessAhead_pends]
    · split
      · rfl
      · rw [fillRoute_mem, noteUe_mem]

theorem length_filterMap_getElem? {α : Type} {xs : List α} {is : List Nat} (h : ∀ i ∈ is, i < xs.length) :
    (is.filterMap fun i => xs[i]?).length = is.length := by
  induction is with
  | nil => rfl
  | cons i is ih =>
    rw [List.filterMap_cons, List.getElem?_eq_getElem (h i List.mem_cons_self)]
    exact congrArg (· + 1) (ih fun j hj => h j (List.mem_cons_of_mem _ hj))

theorem performBytes_load {h : Hw} {p : Pend} (hfind : h.pends.find? (fun q => q.id == p.id) = some p) (hload : p.isLoad = true) (ls : List Loc)
    (home : Bool) : performBytes h p.id ls home = performRead h p (bytesIn p ls) ((bytesIn p ls).filterMap fun i => p.locs[i]?) := by
  unfold performBytes
  rw [hfind]
  dsimp only
  unfold Pend.isLoad at hload
  cases hk : p.kind with
  | load m => rfl
  | xload prec rm smin => rfl
  | sload d n sg => rfl
  | store data => rw [hk] at hload; cases hload
  | atomic op n b c order discard => rw [hk] at hload; cases hload
  | spawn entry arg => rw [hk] at hload; cases hload
  | await tid now => rw [hk] at hload; cases hload

theorem performBytes_atomic {h : Hw} {p : Pend} (hfind : h.pends.find? (fun q => q.id == p.id) = some p) {op : AmoOp} {n : Nat} {b c : BitVec 128}
    {order : BitVec 2} {discard : Bool} (hk : p.kind = .atomic op n b c order discard) (ls : List Loc) (home : Bool) :
    performBytes h p.id ls home = performAtomic h p op n b c discard := by
  unfold performBytes
  rw [hfind]
  dsimp only
  rw [hk]

theorem isAtomic_iff {p : Pend} : p.isAtomic = true ↔ ∃ op n b c order discard, p.kind = .atomic op n b c order discard := by
  unfold Pend.isAtomic
  cases p.kind <;> simp

/-- The bytes of a load or an atomic are recorded, those that are asked for among them. -/
theorem performBytes_marks {h : Hw} {p : Pend} (ha : Alone h p) (hkind : p.isLoad = true ∨ p.isAtomic = true) (ls : List Loc) :
    ∃ (g : Hw) (is : List Nat) (bs : List Byte) (sees : List Nat), performBytes h p.id ls false = g.mark p.id is bs sees ∧
      g.pends = h.pends ∧ bs.length = is.length ∧ (∀ i ∈ bytesIn p ls, i ∈ is) ∧ (p.isLoad = true → ∀ i ∈ is, i ∈ p.todo) := by
  rcases hkind with hload | hatomic
  · rw [performBytes_load ha.find hload]
    obtain ⟨g, bs, sees, he, hp, hlen, -⟩ := performRead_reads h p (bytesIn p ls) (ls := (bytesIn p ls).filterMap fun i => p.locs[i]?)
      fun l hl => by
        obtain ⟨i, -, hil⟩ := List.mem_filterMap.1 hl
        exact ha.space l (List.mem_of_getElem? hil)
    refine ⟨g, _, bs, sees, he, hp, hlen.trans (length_filterMap_getElem? fun i hi => ?_), fun i hi => hi,
      fun _ i hi => (mem_bytesIn.1 hi).1⟩
    exact (mem_todo.1 (mem_bytesIn.1 hi).1).1
  · obtain ⟨op, n, b, c, order, discard, hk⟩ := isAtomic_iff.1 hatomic
    rw [performBytes_atomic ha.find hk]
    obtain ⟨g, he, hp⟩ := performAtomic_eq h p op n b c discard
    refine ⟨g, _, _, _, he, hp, ?_, fun i hi => ?_, fun hload => ?_⟩
    · rw [length_readLocs _ _ _ ha.space, List.length_range]
    · exact List.mem_range.2 (mem_todo.1 (mem_bytesIn.1 hi).1).1
    · rw [Pend.isLoad, hk] at hload
      cases hload

/-- What a load has read it keeps. -/
def KeepsBytes (p p' : Pend) : Prop := p.isLoad = true → ∀ (i : Nat) (b : Byte), p.got[i]? = some (some b) → p'.got[i]? = some (some b)

/-- An access has gone on, and nothing else that is outstanding has changed. -/
structure Going (h h' : Hw) (p p' : Pend) : Prop where
  pends : h'.pends = h.pends.map fun q => if q.id == p.id then p' else q
  same : pendStill p' = pendStill p
  todo : ∀ i ∈ p'.todo, i ∈ p.todo
  keeps : KeepsBytes p p'

theorem isLoad_congr {q q' : Pend} (h : pendStill q' = pendStill q) : q'.isLoad = q.isLoad := congrArg (fun p => p.isLoad) h

theorem Alone.going {h h' : Hw} {p p' : Pend} (ha : Alone h p) (hg : Going h h' p p') (hstill : still h' = still h) : Alone h' p' := by
  obtain ⟨hfields, hlen⟩ := pendStill_eq_iff.1 hg.same
  have hid : p'.id = p.id := by rw [hfields]
  have hlocs : p'.locs = p.locs := by rw [hfields]
  have hmem : p ∈ h.pends := List.mem_of_find?_eq_some ha.find
  have hall : ∀ q' ∈ h'.pends, q' = p' ∨ (q' ∈ h.pends ∧ q' ≠ p ∧ q'.id ≠ p.id) := fun q' hq' => by
    rw [hg.pends] at hq'
    obtain ⟨q, hq, rfl⟩ := List.mem_map.1 hq'
    by_cases hq' : q.id = p.id
    · exact .inl (by rw [if_pos (by simpa using hq')])
    · rw [if_neg (by simpa using hq')]
      exact .inr ⟨hq, fun he => hq' (by rw [he]), hq'⟩
  constructor
  case find =>
    rw [hg.pends, List.find?_map, hid]
    have hsame : ((fun q : Pend => q.id == p.id) ∘ fun q => if q.id == p.id then p' else q) = fun q => q.id == p.id := by
      funext q
      by_cases hq : q.id = p.id
      · simp [hq, hid]
      · simp [hq]
    rw [hsame, ha.find, Option.map_some, if_pos (beq_self_eq_true _)]
  case unique =>
    intro q hq he
    rcases hall q hq with rfl | ⟨-, -, hne⟩
    · rfl
    · exact absurd (he.trans hid) hne
  case got => rw [hlen, hlocs, ha.got]
  case space =>
    rw [hlocs, hfields]
    exact ha.space
  case free =>
    have hfree := ha.free
    unfold Hw.heldByPeer at hfree ⊢
    rw [still_threads hstill, hid]
    exact hfree
  case first =>
    intro q hq hne
    rcases hall q hq with rfl | ⟨hq, hne, -⟩
    · exact absurd rfl hne
    · rw [before_congr hg.same, hlocs]
      exact ha.first q hq hne

theorem Going.refl (h : Hw) (p : Pend) (hu : ∀ q ∈ h.pends, q.id = p.id → q = p) : Going h h p p where
  pends := by
    refine ((List.map_congr_left fun q hq => ?_).trans (List.map_id _)).symm
    by_cases hid : q.id = p.id
    · rw [if_pos (by simpa using hid), hu q hq hid, id]
    · rw [if_neg (by simpa using hid), id]
  same := rfl
  todo := fun _ h => h
  keeps := fun _ _ _ h => h

theorem Going.trans {h h' h'' : Hw} {p p' p'' : Pend} (g : Going h h' p p') (g' : Going h' h'' p' p'') : Going h h'' p p'' where
  pends := by
    have hid : p'.id = p.id := by rw [(pendStill_eq_iff.1 g.same).1]
    rw [g'.pends, g.pends, List.map_map, hid]
    refine List.map_congr_left fun q _ => ?_
    dsimp only [Function.comp]
    by_cases hq : q.id = p.id
    · simp [hq, hid]
    · simp [hq]
  same := g'.same.trans g.same
  todo := fun i hi => g.todo i (g'.todo i hi)
  keeps := fun hl i b hb => g'.keeps ((isLoad_congr g.same).trans hl) i b (g.keeps hl i b hb)

theorem getElem?_putBytes_of_not_mem {g : List (Option Byte)} {xs : List (Nat × Byte)} {i : Nat} (hi : ∀ x ∈ xs, x.1 ≠ i) :
    (putBytes g xs)[i]? = g[i]? := by
  induction xs generalizing g with
  | nil => rfl
  | cons x xs ih =>
    refine (ih (g := g.set x.1 (some x.2)) fun y hy => hi y (List.mem_cons_of_mem _ hy)).trans ?_
    rw [List.getElem?_set_ne (hi x List.mem_cons_self)]

/-- Recording bytes of an access that is not a store. -/
theorem Going.mark {h g : Hw} {p : Pend} (hp : g.pends = h.pends) (hu : ∀ q ∈ h.pends, q.id = p.id → q = p) (hstore : p.isStore = false)
    {is : List Nat} {bs : List Byte} (hlen : bs.length = is.length) (hgot : p.got.length = p.locs.length) (sees : List Nat)
    (htodo : p.isLoad = true → ∀ i ∈ is, i ∈ p.todo) : Going h (g.mark p.id is bs sees) p (Pend.withBytes p is bs sees) where
  pends := by
    rw [mark_pends, hp, List.filter_eq_self.2]
    · refine List.map_congr_left fun q hq => ?_
      by_cases hid : q.id = p.id
      · rw [if_pos (by simpa using hid), if_pos (by simpa using hid), hu q hq hid]
      · rw [if_neg (by simpa using hid), if_neg (by simpa using hid)]
    · intro q' hq'
      obtain ⟨q, hq, rfl⟩ := List.mem_map.1 hq'
      by_cases hid : q.id = p.id
      · rw [if_pos (by simpa using hid), hu q hq hid]
        have : (Pend.withBytes p is bs sees).isStore = false := hstore
        simp [this]
      · rw [if_neg (by simpa using hid)]
        simp [hid]
  same := pendStill_withBytes ..
  todo := fun _ hi => (mem_todo_withBytes hlen hgot hi).1
  keeps := fun hl i b hb => (getElem?_putBytes_of_not_mem fun x hx he => by
    have hnone := (mem_todo.1 (htodo hl x.1 (List.of_mem_zip hx).1)).2
    rw [he, List.getD_eq_getElem?_getD, hb] at hnone
    cases hnone).trans hb

theorem not_isStore {p : Pend} (h : p.isLoad = true ∨ p.isAtomic = true) : p.isStore = false := by
  unfold Pend.isLoad Pend.isAtomic at h
  unfold Pend.isStore
  revert h
  cases p.kind <;> simp

/-- A unit of a load or an atomic is performed: nothing of the unit is left to do. -/
theorem Alone.unit {h : Hw} {p : Pend} (ha : Alone h p) (hkind : p.isLoad = true ∨ p.isAtomic = true) (first : Hw → Nat → List Nat → Hw)
    (u : Nat) : ∃ p', Going h (performUnit first false h p.id u) p p' ∧ still (performUnit first false h p.id u) = still h ∧
      ∀ i ∈ p'.todo, p.unitOf i ≠ u := by
  rw [ha.performUnit_eq (not_isStore hkind)]
  split
  · next hempty =>
    refine ⟨p, .refl h p ha.unique, rfl, fun i hi hu => ?_⟩
    have hmem := mem_bytesIn_locsOf hi hu
    rw [List.isEmpty_iff.1 hempty] at hmem
    obtain ⟨-, l, hl, -⟩ := mem_bytesIn.1 hmem
    cases hl
  · obtain ⟨g, is, bs, sees, he, hp, hlen, his, htodo⟩ := performBytes_marks ha hkind (p.locsOf [u])
    refine ⟨_, by rw [he]; exact .mark hp ha.unique (not_isStore hkind) hlen ha.got sees htodo, still_performBytes .., fun i hi hu => ?_⟩
    obtain ⟨hleft, hnot⟩ := mem_todo_withBytes hlen ha.got hi
    exact hnot (his i (mem_bytesIn_locsOf hleft hu))

theorem Alone.units {p : Pend} (first : Hw → Nat → List Nat → Hw) (us : List Nat) {h : Hw} (ha : Alone h p)
    (hkind : p.isLoad = true ∨ p.isAtomic = true) :
    ∃ p', Going h (us.foldl (fun h u => performUnit first false h p.id u) h) p p' ∧ ∀ i ∈ p'.todo, p.unitOf i ∉ us := by
  induction us generalizing h p with
  | nil => exact ⟨p, .refl h p ha.unique, fun _ _ => List.not_mem_nil⟩
  | cons u us ih =>
    obtain ⟨p1, hgo, hstill, hdone⟩ := ha.unit hkind first u
    have hfields := (pendStill_eq_iff.1 hgo.same).1
    have hkind1 : p1.isLoad = true ∨ p1.isAtomic = true := by rw [hfields]; exact hkind
    have hid : p1.id = p.id := by rw [hfields]
    have hunit : ∀ i, p1.unitOf i = p.unitOf i := by rw [hfields]; exact fun _ => rfl
    obtain ⟨p2, hgo2, hdone2⟩ := ih (ha.going hgo hstill) hkind1
    rw [hid] at hgo2
    refine ⟨p2, hgo.trans hgo2, fun i hi hmem => ?_⟩
    rcases List.mem_cons.1 hmem with hu | hu
    · exact hdone i (hgo2.todo i hi) hu
    · exact hdone2 i hi (by rwa [hunit])

/-- A load or an atomic that nothing comes before is performed whole. -/
theorem Alone.performed {h : Hw} {p : Pend} (ha : Alone h p) (hkind : p.isLoad = true ∨ p.isAtomic = true) :
    ∃ p', Going h (perform h p) p p' ∧ p'.todo = [] := by
  rw [perform_eq ha.find]
  obtain ⟨p', hgo, hdone⟩ := ha.units (performAt false h.pends.length) p.units hkind
  refine ⟨p', hgo, List.eq_nil_iff_forall_not_mem.2 fun i hi => hdone i hi (mem_units.2 ⟨i, hgo.todo i hi, rfl⟩)⟩

end Sys2Proof.Proofs

/-!
What performing an access reads and changes (R172, R176, R178, R180, R181, R225, R279, R292, R296), and its completion.
-/
namespace Sys2Proof.Proofs
open Sys2Proof.Machine

/-! ### The bytes of an access that is performed at once -/

theorem putBytes_range' {bs : List Byte} : ∀ (pre : List (Option Byte)),
    putBytes (pre ++ List.replicate bs.length none) ((List.range' pre.length bs.length).zip bs) = pre ++ bs.map some := by
  induction bs with
  | nil => exact fun pre => rfl
  | cons b bs ih =>
    intro pre
    have hset : (pre ++ List.replicate (bs.length + 1) none).set pre.length (some b) = (pre ++ [some b]) ++ List.replicate bs.length none := by
      simp [List.replicate_succ]
    rw [List.length_cons, List.range'_succ, List.zip_cons_cons]
    show putBytes ((pre ++ List.replicate (bs.length + 1) none).set pre.length (some b)) ((List.range' (pre.length + 1) bs.length).zip bs) = _
    rw [hset]
    have hnext := ih (pre ++ [some b])
    rw [List.length_append, List.length_singleton] at hnext
    rw [hnext]
    simp

theorem allSome_map_some {α : Type} (xs : List α) : allSome (xs.map some) = some xs := by
  induction xs with
  | nil => rfl
  | cons x xs ih => simp [allSome, ih]

/-- An access of which nothing had been read has the bytes that are recorded at once. -/
theorem bytes_withBytes_all {p : Pend} {n : Nat} {bs : List Byte} (hgot : p.got = List.replicate n none) (hlen : bs.length = n) (sees : List Nat) :
    (Pend.withBytes p (List.range n) bs sees).bytes = some bs := by
  have hput := putBytes_range' (bs := bs) []
  rw [hlen, List.nil_append, List.nil_append, List.length_nil, ← List.range_eq_range'] at hput
  unfold Pend.bytes Pend.withBytes
  dsimp only
  rw [hgot, hput, allSome_map_some]

theorem todo_of_none {p : Pend} (hgot : p.got = List.replicate p.locs.length none) : p.todo = List.range p.locs.length := by
  unfold Pend.todo
  rw [hgot]
  refine List.filter_eq_self.2 fun i hi => ?_
  simp [List.getD_eq_getElem?_getD, List.mem_range.1 hi]

theorem filterMap_range_getElem? {α : Type} (xs : List α) : (List.range xs.length).filterMap (fun i => xs[i]?) = xs := by
  induction xs with
  | nil => rfl
  | cons x xs ih =>
    rw [List.length_cons, List.range_succ_eq_map, List.filterMap_cons, List.filterMap_map]
    exact congrArg (x :: ·) ih

/-- The unit that holds everything that is left to do is all of it. -/
theorem bytesIn_locsOf_all {p : Pend} {u : Nat} (h : ∀ i ∈ p.todo, p.unitOf i = u) : bytesIn p (p.locsOf [u]) = p.todo := by
  unfold bytesIn
  refine List.filter_eq_self.2 fun i hi => ?_
  exact (List.mem_filter.1 (mem_bytesIn_locsOf hi (h i hi))).2

/-- A load of one unit that nothing has been read of is performed by one read. -/
theorem perform_load_whole {h : Hw} {p : Pend} (ha : Alone h p) (hload : p.isLoad = true) (hgot : p.got = List.replicate p.locs.length none)
    {u : Nat} (hunits : p.units = [u]) : perform h p = performRead h p (List.range p.locs.length) p.locs := by
  have hall : ∀ i ∈ p.todo, p.unitOf i = u := fun i hi => by
    have : p.unitOf i ∈ p.units := mem_units.2 ⟨i, hi, rfl⟩
    rwa [hunits, List.mem_singleton] at this
  have hne : (p.locsOf [u]).isEmpty = false := by
    obtain ⟨i, hi, hu⟩ := mem_units.1 (by rw [hunits]; exact List.mem_singleton_self u : u ∈ p.units)
    rw [Bool.eq_false_iff]
    intro hempty
    have := mem_bytesIn_locsOf hi hu
    rw [List.isEmpty_iff.1 hempty] at this
    obtain ⟨-, l, hl, -⟩ := mem_bytesIn.1 this
    cases hl
  rw [perform_eq ha.find, hunits, List.foldl_cons, List.foldl_nil, ha.performUnit_eq (not_isStore (.inl hload)), hne]
  simp only [Bool.false_eq_true, if_false]
  rw [performBytes_load ha.find hload, bytesIn_locsOf_all hall, todo_of_none hgot, filterMap_range_getElem?]

/-- An access with nothing left to do is not performed again. -/
theorem foldl_performUnit_done {h : Hw} {id : Nat} {p : Pend} (hfind : h.pends.find? (fun q => q.id == id) = some p) (hdone : p.todo = [])
    (first : Hw → Nat → List Nat → Hw) (us : List Nat) : us.foldl (fun h u => performUnit first false h id u) h = h := by
  induction us with
  | nil => rfl
  | cons u us ih =>
    have hunit : performUnit first false h id u = h := by
      unfold performUnit
      rw [hfind]
      dsimp only
      rw [if_pos]
      simp [Pend.locsOf, hdone]
    rw [List.foldl_cons, hunit, ih]

/-- An atomic is performed in one step. -/
theorem perform_atomic_whole {h : Hw} {p : Pend} (ha : Alone h p) {op : AmoOp} {n : Nat} {b c : BitVec 128} {order : BitVec 2} {discard : Bool}
    (hk : p.kind = .atomic op n b c order discard) (hunits : p.units ≠ []) : perform h p = performAtomic h p op n b c discard := by
  have hatomic : p.isLoad = true ∨ p.isAtomic = true := .inr (isAtomic_iff.2 ⟨op, n, b, c, order, discard, hk⟩)
  obtain ⟨u, us, hus⟩ := List.exists_cons_of_ne_nil hunits
  obtain ⟨i, hi, hu⟩ := mem_units.1 (by rw [hus]; exact List.mem_cons_self : u ∈ p.units)
  have hne : (p.locsOf [u]).isEmpty = false := by
    rw [Bool.eq_false_iff]
    intro hempty
    have := mem_bytesIn_locsOf hi hu
    rw [List.isEmpty_iff.1 hempty] at this
    obtain ⟨-, l, hl, -⟩ := mem_bytesIn.1 this
    cases hl
  have hunit : performUnit (performAt false h.pends.length) false h p.id u = performAtomic h p op n b c discard := by
    rw [ha.performUnit_eq (not_isStore hatomic), hne]
    exact performBytes_atomic ha.find hk _ _
  obtain ⟨g, he, hp⟩ := performAtomic_eq h p op n b c discard
  generalize hbs : readLocs _ p.key p.launch p.route p.locs = bs at he
  have hlen : bs.length = (List.range p.locs.length).length := by
    rw [← hbs, length_readLocs _ _ _ ha.space, List.length_range]
  have hgo := Going.mark hp ha.unique (not_isStore hatomic) hlen ha.got [] fun hl => by
    rw [Pend.isLoad, hk] at hl
    cases hl
  rw [perform_eq ha.find, hus, List.foldl_cons, hunit, he]
  refine foldl_performUnit_done (p := Pend.withBytes p (List.range p.locs.length) bs []) ?_ ?_ _ us
  · exact (ha.going hgo (by rw [← he]; exact still_performAtomic ..)).find
  · refine List.eq_nil_iff_forall_not_mem.2 fun j hj => ?_
    obtain ⟨htodo, hnot⟩ := mem_todo_withBytes hlen ha.got hj
    exact hnot (List.mem_range.2 (mem_todo.1 htodo).1)

/-! ### What an atomic changes -/

theorem ctx_accessAhead (h : Hw) (k : Key) (r : Route) (ls : List Loc) (part core : Nat) :
    ∃ a, (accessAhead h k r ls).ctx part core = { h.ctx part core with ahead := a } := by
  by_cases hkey : k.part = part ∧ k.core = core
  · obtain ⟨rfl, rfl⟩ := hkey
    rcases ctx_setCtx_cases h ((h.ctx k.part k.core).dropAhead fun a =>
      a.key == k && a.route.path == r.path && a.bytes.any fun x => ls.contains x.1) k.part k.core with hc | hc
    · exact ⟨_, hc⟩
    · exact ⟨_, hc⟩
  · exact ⟨_, ctx_setCtx_ne h (by simpa [Ctx.dropAhead] using hkey)⟩

/-- What a thread reads does not depend on what any has read ahead. -/
theorem readLocs_accessAhead (h : Hw) (k k' : Key) (r' : Route) (ls' : List Loc) (launch : Nat) (r : Route) (ls : List Loc) :
    readLocs (accessAhead h k' r' ls') k launch r ls = readLocs h k launch r ls := by
  obtain ⟨a, ha⟩ := ctx_accessAhead h k' r' ls' k.part k.core
  unfold readLocs readRoute
  dsimp only
  rw [ha]
  cases r <;> rfl

/-- The compare of a compare and swap fails. -/
def casFails (op : AmoOp) (n : Nat) (bs : List Byte) (b : BitVec 128) : Prop := op = .cas ∧ leNat bs ≠ b.toNat % 2 ^ (8 * n)

/-- What comes home before an atomic. -/
def beforeAtomic (h : Hw) (p : Pend) : Hw :=
  drainOutKeys (drainSeen h p.key.part p.key.core p.sees) p.key.part p.key.core (physKeys p.locs)

/-- What an atomic writes (R180, R181, R296). -/
def atomicWrite (g : Hw) (p : Pend) (op : AmoOp) (new : List Byte) : Hw :=
  match p.route with
  | .scratch =>
    let x := g.ctx p.key.part p.key.core
    g.setCtx (x.setRegion ((x.region p.launch).writeScr ((scrOffs p.locs).zip new)))
  | _ =>
    let mem := if op == .cas then p.ptes.foldl (fun m a => setRefD m .atomic a) g.mem else g.mem
    writeKeys { g with mem := mem } (some (p.key.part, p.key.core)) ((physKeys p.locs).zip new)

/-- The state in which an atomic has read its old value. -/
def atomicRead (h : Hw) (p : Pend) : Hw :=
  noteReads ((accessAhead (beforeAtomic h p) p.key p.route p.locs).noteUe p (physKeys p.locs)) (physKeys p.locs)

/-- The lines that an atomic discards (R181, R270). -/
def atomicDiscards (g : Hw) (p : Pend) (discard : Bool) : Hw :=
  let g' := if (physKeys p.locs).isEmpty then g else dropL1Lines g p.key.part p.key.core (physKeys p.locs)
  if discard then dropL1 g' p.key.part p.key.core else g'

/-- An atomic, step by step: what it reads, what it writes, what it discards. -/
theorem performAtomic_steps (h : Hw) (p : Pend) (op : AmoOp) (n : Nat) (b c : BitVec 128) (discard : Bool) :
    let bs := readLocs (beforeAtomic h p) p.key p.launch p.route p.locs
    performAtomic h p op n b c discard =
      (atomicDiscards (if op == .cas && leNat bs != b.toNat % 2 ^ (8 * n) then atomicRead h p
        else atomicWrite (atomicRead h p) p op (leBytes n (amoNew op n (leNat bs) b.toNat c.toNat))) p discard).mark p.id
        (List.range p.locs.length) bs [] := by
  dsimp only
  rw [← readLocs_accessAhead (beforeAtomic h p) p.key p.key p.route p.locs]
  rfl

theorem casFails_iff {op : AmoOp} {n : Nat} {bs : List Byte} {b : BitVec 128} :
    (op == .cas && leNat bs != b.toNat % 2 ^ (8 * n)) = true ↔ casFails op n bs b := by
  unfold casFails
  rw [Bool.and_eq_true, beq_iff_eq, bne_iff_ne]

@[simp] theorem atomicDiscards_mem (g : Hw) (p : Pend) (discard : Bool) : (atomicDiscards g p discard).mem = g.mem := by
  unfold atomicDiscards
  cases discard <;> cases (physKeys p.locs).isEmpty <;> rfl

@[simp] theorem atomicRead_mem (h : Hw) (p : Pend) : (atomicRead h p).mem = (beforeAtomic h p).mem := by
  unfold atomicRead
  rw [noteReads_mem, noteUe_mem, accessAhead_mem]

theorem performAtomic_mem_of_fails {h : Hw} {p : Pend} {op : AmoOp} {n : Nat} {b c : BitVec 128} {discard : Bool}
    (hf : casFails op n (readLocs (beforeAtomic h p) p.key p.launch p.route p.locs) b) :
    (performAtomic h p op n b c discard).mem = (beforeAtomic h p).mem := by
  rw [performAtomic_steps, mark_mem, atomicDiscards_mem, if_pos (casFails_iff.2 hf), atomicRead_mem]

theorem performAtomic_mem_of_writes {h : Hw} {p : Pend} {op : AmoOp} {n : Nat} {b c : BitVec 128} {discard : Bool}
    (hf : ¬ casFails op n (readLocs (beforeAtomic h p) p.key p.launch p.route p.locs) b) :
    (performAtomic h p op n b c discard).mem = (atomicWrite (atomicRead h p) p op (leBytes n (amoNew op n
      (leNat (readLocs (beforeAtomic h p) p.key p.launch p.route p.locs)) b.toNat c.toNat))).mem := by
  rw [performAtomic_steps, mark_mem, atomicDiscards_mem, if_neg (mt casFails_iff.1 hf)]

theorem sget_foldl_setRefD {m : Memory} (acc : Acc) (as_ : List Nat) (h : swf m = true) {k : Nat} (hk : k ∉ as_.map devKey) :
    sget (as_.foldl (fun m a => setRefD m acc a) m) k = sget m k := by
  induction as_ generalizing m with
  | nil => rfl
  | cons a as_ ih =>
    rw [List.map_cons, List.mem_cons, not_or] at hk
    rw [List.foldl_cons, ih (setRefD_swf acc a h) hk.2, setRefD, sget_sset_ne m _ _ _ h hk.1]

/-- The bytes that an atomic in memory leaves (R279, R296). -/
theorem atomicWrite_memory {g : Hw} {p : Pend} {op : AmoOp} {new : List Byte} (hm : swf g.mem = true) (hroute : p.route ≠ .scratch)
    (hd : (physKeys p.locs).Nodup) (hlen : (physKeys p.locs).length = new.length) :
    (physKeys p.locs).map (sget (atomicWrite g p op new).mem) = new ∧
      ∀ k, k ∉ physKeys p.locs ++ (if op = .cas then p.ptes.map devKey else []) → sget (atomicWrite g p op new).mem k = sget g.mem k := by
  have hmem : (atomicWrite g p op new).mem = ((physKeys p.locs).zip new).foldl (fun m x => sset m x.1 x.2)
      (if op == .cas then p.ptes.foldl (fun m a => setRefD m .atomic a) g.mem else g.mem) := by
    unfold atomicWrite
    cases hr : p.route with
    | scratch => exact absurd hr hroute
    | _ => exact writeKeys_mem ..
  have hwf : swf (if op == .cas then p.ptes.foldl (fun m a => setRefD m .atomic a) g.mem else g.mem) = true := by
    split
    · exact foldl_setRefD_swf _ _ _ hm
    · exact hm
  rw [hmem]
  refine ⟨List.ext_getElem (by simpa using hlen) fun i hi hi' => ?_, fun k hk => ?_⟩
  · rw [List.getElem_map]
    have hi'' : i < (physKeys p.locs).length := by simpa using hi
    exact sget_foldl_sset_of_mem (fun x : Nat × Byte => x.1) (fun x => x.2) _ hwf (by rw [List.map_fst_zip hlen.le]; exact hd)
      (x := ((physKeys p.locs)[i], new[i])) (by rw [List.mem_iff_getElem]; exact ⟨i, by simp [hlen, hi'], by simp⟩)
  · rw [List.mem_append, not_or] at hk
    rw [sget_foldl_sset_of_ne (fun x : Nat × Byte => x.1) (fun x => x.2) _ hwf fun x hx he => hk.1 (by rw [← (he : x.1 = k)]; exact (List.of_mem_zip hx).1)]
    by_cases hop : op = .cas
    · rw [if_pos (by simpa using hop)]
      exact sget_foldl_setRefD _ _ hm (by simpa [hop] using hk.2)
    · rw [if_neg (by simpa using hop)]

/-! ### The scratchpad -/

theorem regions_writesHome {h h' : Hw} (hw : WritesHome h h') (part core : Nat) : (h'.ctx part core).regions = (h.ctx part core).regions :=
  (congrArg Ctx.regions (hw.ctx part core) :)

/-- A context is replaced by one with the same regions. -/
theorem regions_setCtx {h : Hw} {c : Ctx} {part core : Nat} (hpart : c.part = part) (hcore : c.core = core)
    (hc : c.regions = (h.ctx part core).regions) (part' core' : Nat) : ((h.setCtx c).ctx part' core').regions = (h.ctx part' core').regions := by
  by_cases hkey : c.part = part' ∧ c.core = core'
  · obtain ⟨rfl, rfl⟩ := hkey
    subst hpart hcore
    rcases ctx_setCtx_cases h c c.part c.core with he | he
    · rw [he, hc]
    · rw [he]
  · rw [ctx_setCtx_ne h hkey]

theorem regions_drainOut (h : Hw) (part core : Nat) (ids : List Nat) (part' core' : Nat) :
    ((drainOut h part core ids).ctx part' core').regions = (h.ctx part' core').regions := by
  obtain ⟨h', hw, ⟨he, -⟩ | he⟩ := drainOut_eq h part core ids <;> rw [he]
  · exact regions_writesHome hw ..
  · refine Eq.trans ?_ (regions_writesHome hw ..)
    refine regions_setCtx (part := part) (core := core) ?_ ?_ ?_ part' core' <;> simp

theorem regions_wcDrainSeen (h : Hw) (part core : Nat) (ids : List Nat) (part' core' : Nat) :
    ((wcDrainSeen h part core ids).ctx part' core').regions = (h.ctx part' core').regions := by
  unfold wcDrainSeen
  split
  · rfl
  · obtain ⟨h', hw, he⟩ := wcDrain_eq h part core fun l => l.bytes.any fun x => ids.contains x.id
    rw [he]
    refine Eq.trans ?_ (regions_writesHome hw ..)
    refine regions_setCtx (part := part) (core := core) ?_ ?_ ?_ part' core' <;> simp

theorem regions_beforeAtomic (h : Hw) (p : Pend) (part core : Nat) :
    ((beforeAtomic h p).ctx part core).regions = (h.ctx part core).regions :=
  (regions_drainOut ..).trans ((regions_wcDrainSeen ..).trans (regions_drainOut ..))

theorem ctx_of_ctxs {h h' : Hw} (hc : h'.ctxs = h.ctxs) (part core : Nat) : h'.ctx part core = h.ctx part core := by
  unfold Hw.ctx
  rw [hc]

theorem atomicRead_ctxs (h : Hw) (p : Pend) : (atomicRead h p).ctxs = (accessAhead (beforeAtomic h p) p.key p.route p.locs).ctxs := by
  have hread (g : Hw) (ks : List Nat) : (noteReads g ks).ctxs = g.ctxs := by
    unfold noteReads noteGranules
    dsimp only
    split
    · rfl
    · rfl
  have hue (g : Hw) (ks : List Nat) : (g.noteUe p ks).ctxs = g.ctxs := by
    unfold Hw.noteUe
    split
    · rfl
    · rfl
  exact (hread ..).trans (hue ..)

theorem regions_atomicRead (h : Hw) (p : Pend) (part core : Nat) : ((atomicRead h p).ctx part core).regions = (h.ctx part core).regions := by
  obtain ⟨a, ha⟩ := ctx_accessAhead (beforeAtomic h p) p.key p.route p.locs part core
  rw [ctx_of_ctxs (atomicRead_ctxs h p), ha]
  exact regions_beforeAtomic ..

theorem region_of_regions {c d : Ctx} (h : d.regions = c.regions) (launch : Nat) : d.region launch = c.region launch := by
  unfold Ctx.region
  rw [h]

theorem physKeys_of_scratch {ls : List Loc} (h : ∀ l ∈ ls, ∃ o, l = Loc.scr o) : physKeys ls = [] := by
  refine List.filterMap_eq_nil_iff.2 fun l hl => ?_
  obtain ⟨o, rfl⟩ := h l hl
  rfl

/-- The scratchpad bytes that an atomic in the scratchpad leaves; memory is as it was. -/
theorem performAtomic_scratch {h : Hw} {p : Pend} {op : AmoOp} {n : Nat} {b c : BitVec 128} {discard : Bool} (hroute : p.route = .scratch)
    (hspace : ∀ l ∈ p.locs, ∃ o, l = Loc.scr o) (hhas : HasCtx h p.key.part p.key.core)
    (hregion : ∃ x ∈ (h.ctx p.key.part p.key.core).regions, x.launch = p.launch)
    (hf : ¬ casFails op n (readLocs (beforeAtomic h p) p.key p.launch p.route p.locs) b) :
    let new := leBytes n (amoNew op n (leNat (readLocs (beforeAtomic h p) p.key p.launch p.route p.locs)) b.toNat c.toNat)
    (((performAtomic h p op n b c discard).ctx p.key.part p.key.core).region p.launch).scr =
        ((scrOffs p.locs).zip new).foldl (fun m x => sset m x.1 x.2) ((h.ctx p.key.part p.key.core).region p.launch).scr ∧
      (performAtomic h p op n b c discard).mem = (beforeAtomic h p).mem := by
  intro new
  have hwrite : atomicWrite (atomicRead h p) p op new = (atomicRead h p).setCtx (((atomicRead h p).ctx p.key.part p.key.core).setRegion
      ((((atomicRead h p).ctx p.key.part p.key.core).region p.launch).writeScr ((scrOffs p.locs).zip new))) := by
    unfold atomicWrite
    rw [hroute]
  have hregions := regions_atomicRead h p p.key.part p.key.core
  have hhas' : HasCtx (atomicRead h p) p.key.part p.key.core := by
    have hstill : still (atomicRead h p) = still h := by
      unfold atomicRead beforeAtomic
      simp only [still_noteReads, still_noteUe, still_accessAhead, still_drainOutKeys, still_drainSeen]
    exact (still_hasCtx hstill _ _).2 hhas
  have hset : ((atomicWrite (atomicRead h p) p op new).ctx p.key.part p.key.core).region p.launch =
      ((h.ctx p.key.part p.key.core).region p.launch).writeScr ((scrOffs p.locs).zip new) := by
    rw [hwrite, ctx_setCtx_same hhas' (by simp) (by simp), ← region_of_regions hregions]
    have hlaunch : ((((atomicRead h p).ctx p.key.part p.key.core).region p.launch).writeScr ((scrOffs p.locs).zip new)).launch = p.launch :=
      region_launch
    have hsame := region_setRegion_same (c := (atomicRead h p).ctx p.key.part p.key.core)
      (r := (((atomicRead h p).ctx p.key.part p.key.core).region p.launch).writeScr ((scrOffs p.locs).zip new))
      (by rw [hlaunch, hregions]; exact hregion)
    rwa [hlaunch] at hsame
  constructor
  · rw [performAtomic_steps, if_neg (mt casFails_iff.1 hf)]
    unfold atomicDiscards
    rw [physKeys_of_scratch hspace]
    have hmark (u : Hw) (bs : List Byte) : (u.mark p.id (List.range p.locs.length) bs []).ctx p.key.part p.key.core =
        u.ctx p.key.part p.key.core := rfl
    have hdrop (g : Hw) : ((if discard = true then dropL1 g p.key.part p.key.core else g).ctx p.key.part p.key.core).regions =
        (g.ctx p.key.part p.key.core).regions := by
      split
      · unfold dropL1
        refine regions_setCtx (part := p.key.part) (core := p.key.core) ?_ ?_ ?_ _ _ <;> simp
      · rfl
    rw [hmark, region_of_regions (hdrop _)]
    exact congrArg Region.scr hset
  · rw [performAtomic_mem_of_writes hf, hwrite, Hw.setCtx_mem, atomicRead_mem]

/-! ### Accesses complete (R36, R292) -/

theorem alone_of_outstanding {s : State} {p : Pend} (ho : Outstanding s p) (hfirst : NothingBefore s p) : Alone s.hw p := by
  obtain ⟨hfind, hheld, hunique, hgot, hspace⟩ := ho
  refine ⟨hfind, hunique, hgot, hspace, ?_, hfirst⟩
  unfold peerHeld State.allThreads at hheld
  rw [List.any_eq_false] at hheld
  unfold Hw.heldByPeer
  rw [List.any_eq_false]
  intro t ht
  refine hheld t ?_
  split
  · exact List.mem_cons_of_mem _ ht
  · exact ht

/-- What an access has become when it has been performed: itself, with its bytes. -/
theorem pendStill_performed {s : State} {p q : Pend} (ho : Outstanding s p) (hq : (perform s.hw p).pend? p.id = some q) :
    pendStill q = pendStill p := by
  obtain ⟨-, -, hunique, -, -⟩ := ho
  obtain ⟨q0, hq0, he, -⟩ := (PendsFrom.perform s.hw p).origin q (List.mem_of_find?_eq_some hq)
  have hid : q.id = p.id := by simpa using List.find?_some hq
  have hid0 : q0.id = p.id := by rw [← hid]; exact (congrArg Pend.id he).symm
  rw [he, hunique q0 hq0 hid0]

theorem bytes_of_performed {s : State} {p : Pend} (ho : Outstanding s p) (hfirst : NothingBefore s p)
    (hkind : p.isLoad = true ∨ (p.isAtomic = true ∧ p.units ≠ [])) :
    ∃ q bs, (perform s.hw p).pend? p.id = some q ∧ q.bytes = some bs ∧ bs.length = p.locs.length := by
  have ha := alone_of_outstanding ho hfirst
  obtain ⟨p', hgo, hdone⟩ := ha.performed (hkind.imp_right And.left)
  have ha' := ha.going hgo (still_perform ..)
  obtain ⟨hfields, -⟩ := pendStill_eq_iff.1 hgo.same
  have hid : p'.id = p.id := by rw [hfields]
  have hlocs : p'.locs = p.locs := by rw [hfields]
  obtain ⟨bs, hbs, hlen⟩ := bytes_of_todo_nil ha'.got hdone
  refine ⟨p', bs, ?_, hbs, hlen.trans (by rw [hlocs])⟩
  have hfind := ha'.find
  rwa [hid] at hfind

/-- The bytes that are recorded at once are the ones that the access has. -/
theorem bytes_of_mark {g : Hw} {h : Hw} {p q : Pend} {bs bs' : List Byte} {sees : List Nat} (ha : Alone h p) (hp : g.pends = h.pends)
    (hstore : p.isStore = false) (hgot : p.got = List.replicate p.locs.length none) (hlen : bs'.length = p.locs.length)
    (hq : (g.mark p.id (List.range p.locs.length) bs' sees).pend? p.id = some q) (hbs : q.bytes = some bs) : bs = bs' := by
  have hlen' : bs'.length = (List.range p.locs.length).length := by rw [hlen, List.length_range]
  have hgo := Going.mark hp ha.unique hstore hlen' ha.got sees fun _ i hi => by
    rw [todo_of_none hgot]
    exact hi
  have hmem : q ∈ h.pends.map fun q => if q.id == p.id then Pend.withBytes p (List.range p.locs.length) bs' sees else q :=
    hgo.pends ▸ List.mem_of_find?_eq_some hq
  have hid : q.id = p.id := by simpa using List.find?_some hq
  obtain ⟨q0, hq0, rfl⟩ := List.mem_map.1 hmem
  by_cases hid0 : q0.id = p.id
  · rw [if_pos (by simpa using hid0), bytes_withBytes_all hgot hlen sees] at hbs
    exact (Option.some.inj hbs).symm
  · rw [if_neg (by simpa using hid0)] at hid
    exact absurd hid hid0

theorem mem_of_aheadOf {c : Ctx} {k : Key} {r : Route} {ls : List Loc} {bs : List Byte} {sees : List Nat} (h : c.aheadOf k r ls = some (bs, sees)) :
    ∃ a ∈ c.ahead, a.key = k ∧ a.route = r ∧ bs.length = ls.length ∧
      ∀ (i : Nat) (l : Loc) (b : Byte), ls[i]? = some l → bs[i]? = some b → (l, b) ∈ a.bytes := by
  have hlen := length_aheadOf h
  unfold Ctx.aheadOf at h
  split at h
  · next a hfind =>
    have ha := List.find?_some hfind
    simp only [Bool.and_eq_true, beq_iff_eq] at ha
    obtain ⟨⟨hkey, hroute⟩, hall⟩ := ha
    refine ⟨a, List.mem_of_find?_eq_some hfind, hkey, hroute, hlen, fun i l b hl hb => ?_⟩
    cases h
    rw [List.getElem?_map, hl, Option.map_some, Option.some.injEq] at hb
    have hany := List.all_eq_true.1 hall l (List.mem_of_getElem? hl)
    obtain ⟨x, hx, hxl⟩ := List.any_eq_true.1 hany
    cases hf : a.bytes.find? fun x => x.1 == l with
    | none => exact absurd hxl (List.find?_eq_none.1 hf x hx)
    | some y =>
      have hy : y.1 = l := by simpa using List.find?_some hf
      rw [hf, Option.map_some, Option.getD_some] at hb
      rw [← hy, ← hb]
      exact List.mem_of_find?_eq_some hf
  · cases h

theorem drainOutKeys_nil_mem (h : Hw) (part core : Nat) : (drainOutKeys h part core []).mem = h.mem := by
  have hnone : ((h.ctx part core).outq.filter fun o => o.bytes.any fun x => ([] : List Nat).contains x.1).map (fun o => o.id) = [] := by
    simp
  have hclosure : ∀ q : List OutWrite, outClosure [] q = [] := by
    intro q
    induction q with
    | nil => rfl
    | cons o q ih =>
      unfold outClosure at ih ⊢
      rw [List.foldr_cons, ih]
      rfl
  unfold drainOutKeys drainOut
  dsimp only
  rw [hnone, hclosure]
  split
  · rfl
  · rfl

theorem beforeRead_nil_mem (h : Hw) (k : Key) (r : Route) : (beforeRead h k r []).mem = h.mem := by
  unfold beforeRead
  split
  · exact drainOutKeys_nil_mem ..
  · exact drainOutKeys_nil_mem ..
  · rfl

theorem beforeRead_mem_of_cached {h : Hw} {k : Key} {r : Route} (hr : r = .l1 ∨ r = .con ∨ r = .scratch) (ks : List Nat) :
    (beforeRead h k r ks).mem = h.mem := by
  rcases hr with rfl | rfl | rfl
  · rfl
  · rfl
  · rfl

/-- What a load that is one unit reads, and what that changes (R176, R292). -/
theorem load_effects {s : State} {p q : Pend} {bs : List Byte} (ho : Outstanding s p) (hfirst : FirstInOrder s p) (hload : p.isLoad = true)
    (hunits : p.units.length ≤ 1) (hq : (perform s.hw p).pend? p.id = some q) (hbs : q.bytes = some bs) :
    let h1 := beforeRead (accessAhead s.hw p.key p.route p.locs) p.key p.route (physKeys p.locs)
    (bs = readLocs h1 p.key p.launch p.route p.locs ∧ (perform s.hw p).mem = h1.mem ∧
      (p.route = .l1 ∨ p.route = .con ∨ p.route = .scratch → (perform s.hw p).mem = s.hw.mem)) ∨
    (p.device = false ∧ (perform s.hw p).mem = s.hw.mem ∧ ∃ a ∈ (s.hw.ctx p.key.part p.key.core).ahead, a.key = p.key ∧ a.route = p.route ∧
      bs.length = p.locs.length ∧ ∀ (i : Nat) (l : Loc) (b : Byte), p.locs[i]? = some l → bs[i]? = some b → (l, b) ∈ a.bytes) := by
  intro h1
  obtain ⟨hgot, hbefore⟩ := hfirst
  have ha := alone_of_outstanding ho hbefore
  match hus : p.units with
  | [] =>
    have hperform : perform s.hw p = s.hw := by rw [perform_eq ha.find, hus, List.foldl_nil]
    have hlocs : p.locs = [] := by
      rw [← List.length_eq_zero_iff]
      by_contra hne
      have : p.unitOf 0 ∈ p.units := mem_units.2 ⟨0, by rw [todo_of_none hgot, List.mem_range]; omega, rfl⟩
      rw [hus] at this
      cases this
    rw [hperform] at hq ⊢
    have hqp : q = p := Option.some.inj (hq.symm.trans ha.find)
    have hnil : bs = [] := by
      rw [hqp] at hbs
      unfold Pend.bytes at hbs
      rw [hgot, hlocs] at hbs
      exact (Option.some.inj hbs).symm
    have hmem : h1.mem = s.hw.mem := by
      show (beforeRead _ p.key p.route (physKeys p.locs)).mem = _
      rw [hlocs]
      exact beforeRead_nil_mem ..
    refine .inl ⟨?_, hmem.symm, fun _ => rfl⟩
    rw [hnil, hlocs]
    have hlen := length_readLocs h1 p.key p.launch (r := p.route) (ls := []) (by simp)
    exact (List.length_eq_zero_iff.1 hlen).symm
  | [u] =>
    rw [perform_load_whole ha hload hgot hus] at hq ⊢
    obtain ⟨g, bs', sees, he, hp, hlen, hread⟩ := performRead_reads s.hw p (List.range p.locs.length) ha.space
    rw [he] at hq ⊢
    rw [mark_mem]
    have hbs' := bytes_of_mark ha hp (not_isStore (.inl hload)) hgot hlen hq hbs
    subst hbs'
    rcases hread with ⟨hbs, hmem⟩ | ⟨hdevice, hmem, sees', hahead⟩
    · exact .inl ⟨hbs, hmem, fun hr => hmem.trans (beforeRead_mem_of_cached hr _)⟩
    · exact .inr ⟨hdevice, hmem, mem_of_aheadOf hahead⟩
  | _ :: _ :: _ =>
    rw [hus] at hunits
    simp at hunits

/-- What an atomic reads and writes (R180, R181, R279, R296). -/
theorem atomic_effects {s : State} {p q : Pend} {bs : List Byte} (ho : Outstanding s p) (hfirst : FirstInOrder s p) {op : AmoOp} {n : Nat}
    {b c : BitVec 128} {order : BitVec 2} {discard : Bool} (hk : p.kind = .atomic op n b c order discard) (hunits : p.units ≠ [])
    (hq : (perform s.hw p).pend? p.id = some q) (hbs : q.bytes = some bs) :
    perform s.hw p = performAtomic s.hw p op n b c discard ∧ bs = readLocs (beforeAtomic s.hw p) p.key p.launch p.route p.locs := by
  obtain ⟨hgot, hbefore⟩ := hfirst
  have ha := alone_of_outstanding ho hbefore
  have hstore : p.isStore = false := not_isStore (.inr (isAtomic_iff.2 ⟨op, n, b, c, order, discard, hk⟩))
  have hperform := perform_atomic_whole ha hk hunits
  refine ⟨hperform, ?_⟩
  obtain ⟨g, he, hp⟩ := performAtomic_eq s.hw p op n b c discard
  rw [hperform, he] at hq
  rw [bytes_of_mark ha hp hstore hgot (length_readLocs _ _ _ ha.space) hq hbs]
  exact readLocs_accessAhead ..

theorem performEffects {s : State} {p q : Pend} {bs : List Byte} (ho : Outstanding s p) (hq : (perform s.hw p).pend? p.id = some q)
    (hbs : q.bytes = some bs) : PerformEffects s p bs := by
  unfold PerformEffects
  dsimp only
  intro hfirst
  refine ⟨fun hload hunits => load_effects ho hfirst hload hunits hq hbs, fun op n b c order discard hk hunits hm => ?_⟩
  obtain ⟨hperform, hread⟩ := atomic_effects ho hfirst hk hunits hq hbs
  have hm1 : swf (beforeAtomic s.hw p).mem = true := drainOutKeys_swf _ _ _ (drainSeen_swf _ _ _ hm)
  refine ⟨hread, fun hf k => ?_, fun hf hroute hd hlen => ?_, fun hf hroute hhas hregion hwf hd hlen => ?_⟩
  · rw [hperform, performAtomic_mem_of_fails (by rw [hread] at hf; exact hf)]
    rfl
  · rw [hread] at hf ⊢
    rw [hperform, performAtomic_mem_of_writes hf]
    have hread_mem : (atomicRead s.hw p).mem = (beforeAtomic s.hw p).mem := atomicRead_mem ..
    obtain ⟨hnew, hothers⟩ := atomicWrite_memory (g := atomicRead s.hw p) (p := p) (op := op)
      (new := leBytes n (amoNew op n (leNat (readLocs (beforeAtomic s.hw p) p.key p.launch p.route p.locs)) b.toNat c.toNat))
      (by rw [hread_mem]; exact hm1) hroute hd (hlen.trans (leBytes_length ..).symm)
    refine ⟨hnew, fun k hk => (hothers k hk).trans ?_⟩
    rw [hread_mem]
    rfl
  · rw [hread] at hf ⊢
    obtain ⟨hscr, hmem⟩ := performAtomic_scratch (op := op) (n := n) (b := b) (c := c) (discard := discard) hroute
      (fun l hl => (ho.2.2.2.2 l hl).1 hroute) hhas hregion hf
    rw [hperform, hscr, hmem]
    refine ⟨List.ext_getElem ?_ fun i hi hi' => ?_, fun o ho' => ?_, fun k => rfl⟩
    · rw [List.length_map, leBytes_length]
      exact hlen
    · rw [List.getElem_map]
      have hi'' : i < (scrOffs p.locs).length := by simpa using hi
      refine sget_foldl_sset_of_mem (fun x : Nat × Byte => x.1) (fun x => x.2) _ hwf ?_ (x := ((scrOffs p.locs)[i], _)) ?_
      · rw [List.map_fst_zip (by rw [hlen, leBytes_length])]
        exact hd
      · rw [List.mem_iff_getElem]
        exact ⟨i, by simpa using ⟨hi'', by simpa using hi'⟩, by simp⟩
    · exact sget_foldl_sset_of_ne (fun x : Nat × Byte => x.1) (fun x => x.2) _ hwf fun x hx he =>
        ho' (by rw [← (he : x.1 = o)]; exact (List.of_mem_zip hx).1)

theorem exec_loadComplete (id : Nat) (s : State) : exec (.loadComplete id) s = execLoadComplete id s := rfl
theorem exec_xldComplete (id : Nat) (s : State) : exec (.xldComplete id) s = execXldComplete id s := rfl
theorem exec_atomicComplete (id : Nat) (s : State) : exec (.atomicComplete id) s = execAtomicComplete id s := rfl
theorem exec_sldData (part core slot : Nat) (s : State) : exec (.sldData part core slot) s = execSldData part core slot s := rfl

section
variable {s : State} {p q : Pend} {bs : List Byte} (ho : Outstanding s p) (hq : (perform s.hw p).pend? p.id = some q) (hbs : q.bytes = some bs)

include hq hbs in
theorem finishAccess_eq : finishAccess s p = completePend (s.mapHw fun h => perform h p) q bs := by
  unfold finishAccess
  dsimp only [State.mapHw]
  rw [hq]
  dsimp only
  rw [hbs]

include ho hq hbs in
/-- An access finishes: its thread takes the bytes, and memory is as performing it leaves it. -/
theorem finishAccess_completed : (finishAccess s p).hw.mem = (perform s.hw p).mem ∧
    Completed s (finishAccess s p) p fun t => (t.fill q bs).saw q := by
  obtain ⟨hfields, -⟩ := pendStill_eq_iff.1 (pendStill_performed ho hq)
  have hid : q.id = p.id := by rw [hfields]
  have hkey : q.key = p.key := by rw [hfields]
  have htid : q.tid = p.tid := by rw [hfields]
  have hlaunch : q.launch = p.launch := by rw [hfields]
  have hthreads : (perform s.hw p).threads = s.hw.threads := still_threads (still_perform ..)
  have howner : (s.mapHw fun h => perform h p).owner? q = s.owner? p := owner?_congr (s := s) (u := s.mapHw fun h => perform h p) rfl hthreads hkey htid hlaunch
  rw [finishAccess_eq hq hbs]
  obtain ⟨ts, hts⟩ := completePend_hw (s.mapHw fun h => perform h p) q bs
  obtain ⟨hpends, hmine, hnone, hothers⟩ := completePend_completed (s.mapHw fun h => perform h p) q bs
  refine ⟨by rw [hts]; rfl, fun r hr => hid ▸ hpends r hr, fun t ht => ?_, fun hno => ?_, fun k hk => ?_⟩
  · rw [← hkey]
    exact hmine t (howner.trans ht)
  · rw [← hkey]
    exact (hnone (howner.trans hno)).trans (thread?_congr (s := s) (u := s.mapHw fun h => perform h p) rfl hthreads _)
  · exact (hothers k (hkey ▸ hk)).trans (thread?_congr (s := s) (u := s.mapHw fun h => perform h p) rfl hthreads _)

include ho in
theorem completeAccess_finishes {ok : PendKind → Bool} (hok : ok p.kind = true) :
    completeAccess s p.id ok = .next (finishAccess s p) := by
  obtain ⟨hfind, hheld, -⟩ := ho
  unfold completeAccess
  rw [hfind]
  dsimp only
  rw [hok, hheld]
  rfl

include ho hq in
theorem fill_of_kind (t : Thread) : t.fill q bs = t.fill p bs := by
  obtain ⟨hfields, -⟩ := pendStill_eq_iff.1 (pendStill_performed ho hq)
  rw [hfields]
  rfl

include ho hq hbs in
theorem loadComplete_completes {m : BitVec 5} (hk : p.kind = .load m) : ∃ u, exec (.loadComplete p.id) s = .next u ∧
    u.hw.mem = (perform s.hw p).mem ∧ Completed s u p fun t => (t.fillPlain p.cell p.ncells (loadWords m bs)).saw q := by
  obtain ⟨hmem, hdone⟩ := finishAccess_completed ho hq hbs
  refine ⟨_, by rw [exec_loadComplete]; exact completeAccess_finishes ho (by rw [hk]), hmem, ?_⟩
  have hfill (t : Thread) : t.fill q bs = t.fillPlain p.cell p.ncells (loadWords m bs) := by
    rw [fill_of_kind ho hq, Thread.fill, hk]
  simp only [hfill] at hdone
  exact hdone

include ho hq hbs in
theorem xldComplete_completes {prec : Nat} {rm : BitVec 3} {smin : Nat} (hk : p.kind = .xload prec rm smin) :
    ∃ u, exec (.xldComplete p.id) s = .next u ∧ u.hw.mem = (perform s.hw p).mem ∧
      Completed s u p fun t => (t.fillZxf p.cell prec rm smin bs).saw q := by
  obtain ⟨hmem, hdone⟩ := finishAccess_completed ho hq hbs
  refine ⟨_, by rw [exec_xldComplete]; exact completeAccess_finishes ho (by rw [hk]), hmem, ?_⟩
  have hfill (t : Thread) : t.fill q bs = t.fillZxf p.cell prec rm smin bs := by
    rw [fill_of_kind ho hq, Thread.fill, hk]
  simp only [hfill] at hdone
  exact hdone

include ho hq hbs in
theorem atomicComplete_completes {op : AmoOp} {n : Nat} {b c : BitVec 128} {order : BitVec 2} {discard : Bool}
    (hk : p.kind = .atomic op n b c order discard) : ∃ u, exec (.atomicComplete p.id) s = .next u ∧ u.hw.mem = (perform s.hw p).mem ∧
      Completed s u p fun t => (t.fillPlain p.cell p.ncells (wordsOf p.ncells (leNat bs))).saw q := by
  obtain ⟨hmem, hdone⟩ := finishAccess_completed ho hq hbs
  refine ⟨_, by rw [exec_atomicComplete]; exact completeAccess_finishes ho (by rw [hk]), hmem, ?_⟩
  have hfill (t : Thread) : t.fill q bs = t.fillPlain p.cell p.ncells (wordsOf p.ncells (leNat bs)) := by
    rw [fill_of_kind ho hq, Thread.fill, hk]
  simp only [hfill] at hdone
  exact hdone

include ho hq hbs in
/-- The data of a scalar load arrive, and its thread goes on. -/
theorem sldData_completes {d : BitVec 5} {n : Nat} {sg : Bool} {t : Thread} {since : Nat} {len : BitVec 32} (hk : p.kind = .sload d n sg)
    (ht : s.owner? p = some t) (hwait : t.wait = .held .scalarLoad since) (hlatch : t.latch = some len)
    (honly : ∀ x ∈ s.hw.pends, x.key = p.key → (∃ d n sg, x.kind = .sload d n sg) → x = p) :
    ∃ u, exec (.sldData p.key.part p.key.core p.key.slot) s = .next u ∧ u.hw.mem = (perform s.hw p).mem ∧
      Completed s u p fun t => ((t.setSreg d.toNat (scalarOf n sg bs)).saw q).past len.toNat := by
  obtain ⟨hmem, hdone⟩ := finishAccess_completed ho hq hbs
  have hfill (t : Thread) : t.fill q bs = t.setSreg d.toNat (scalarOf n sg bs) := by
    rw [fill_of_kind ho hq, Thread.fill, hk]
  simp only [hfill] at hdone
  obtain ⟨hpends, hmine, -, hothers⟩ := hdone
  have hkeyt : t.key = p.key := thread?_key (owner?_some ht)
  have hthread := hmine t ht
  dsimp only at hthread
  generalize ht' : (t.setSreg d.toNat (scalarOf n sg bs)).saw q = t' at hthread
  have hplace : t'.wait = .held .scalarLoad since ∧ t'.latch = some len ∧ t'.key = p.key ∧ t'.live = t.live := by
    obtain ⟨sees, conRead, he⟩ := saw_eq (t.setSreg d.toNat (scalarOf n sg bs)) q
    rw [← ht', he]
    exact ⟨hwait, hlatch, hkeyt, rfl⟩
  obtain ⟨hwait', hlatch', hkey', -⟩ := hplace
  have hgone : ((finishAccess s p).hw.pend? p.id).isNone = true := by
    rw [Option.isNone_iff_eq_none]
    exact List.find?_eq_none.2 fun r hr => by simpa using hpends r hr
  have hresume : resumeSld (finishAccess s p) p.key = (finishAccess s p).setThread (t'.past len.toNat) := by
    unfold resumeSld
    rw [hthread]
    dsimp only
    rw [hwait', hlatch']
    rfl
  have hstep : exec (.sldData p.key.part p.key.core p.key.slot) s = .next ((finishAccess s p).setThread (t'.past len.toNat)) := by
    rw [exec_sldData]
    unfold execSldData
    dsimp only
    split
    · next hnone => exact absurd (List.find?_eq_none.1 hnone p (List.mem_of_find?_eq_some ho.1)) (by simp [hk])
    · next r hr =>
      have hrm := List.find?_some hr
      rw [Bool.and_eq_true, beq_iff_eq] at hrm
      obtain ⟨hrkey, hrkind⟩ := hrm
      have hrp : r = p := honly r (List.mem_of_find?_eq_some hr) hrkey (by
        cases hrk : r.kind with
        | sload d n sg => exact ⟨d, n, sg, rfl⟩
        | _ => rw [hrk] at hrkind; cases hrkind)
      rw [hrp, ho.2.1, if_neg (by decide), hgone, if_pos rfl]
      exact congrArg Host.Outcome.next hresume
  have hset : ((finishAccess s p).setThread (t'.past len.toNat)).hw.mem = (finishAccess s p).hw.mem ∧
      ((finishAccess s p).setThread (t'.past len.toNat)).hw.pends = (finishAccess s p).hw.pends := by
    unfold State.setThread
    split
    · exact ⟨rfl, rfl⟩
    · exact ⟨rfl, rfl⟩
  refine ⟨_, hstep, hset.1.trans hmem, fun r hr => hpends r (hset.2 ▸ hr), fun u hu => ?_, fun hno => ?_, fun k hk' => ?_⟩
  · cases ht.symm.trans hu
    dsimp only
    rw [ht']
    exact thread?_setThread_same hthread rfl rfl
  · rw [ht] at hno
    cases hno
  · rw [thread?_setThread_ne (by rw [Thread.past_key, hkey']; exact hk')]
    exact hothers k hk'

end

/-- Settles O45: an access that nothing comes before is performed unit by unit, and its producer completes with the bytes it has then. -/
theorem accessesComplete : Obligations.AccessesComplete := by
  unfold Obligations.AccessesComplete
  intro s p ho
  exact ⟨fun hfirst hkind => bytes_of_performed ho hfirst hkind, fun q bs hq hbs => ⟨performEffects ho hq hbs,
    fun m hk => loadComplete_completes ho hq hbs hk, fun prec rm smin hk => xldComplete_completes ho hq hbs hk,
    fun d n sg t since len hk ht hwait hlatch honly => sldData_completes ho hq hbs hk ht hwait hlatch honly,
    fun op n b c order discard hk => atomicComplete_completes ho hq hbs hk⟩⟩

end Sys2Proof.Proofs

/-!
Translation and the checks of a generic access (R13, R172, R275 to R282, R373, R374).
-/
namespace Sys2Proof.Proofs
open Sys2Proof.Machine

/-! ### The walk (R275 to R278) -/

theorem bitsOf_beq_iff (e hi lo v : Nat) : (bitsOf e hi lo == v) = true ↔ field e hi lo = v := beq_iff_eq

theorem bitsOf_bne_iff (e hi lo v : Nat) : (bitsOf e hi lo != v) = true ↔ field e hi lo ≠ v := bne_iff_ne

theorem pteFrame_eq (e : Nat) : pteFrame e = 4096 * field e 55 12 := Nat.mul_comm ..

/-- A leaf that is admitted, as the fields of its entry say (R276 to R278). -/
def GoodLeaf (e size : Nat) : Prop := field e 0 0 = 1 ∧ field e 59 58 ≠ 3 ∧
  (field e 9 9 = 1 ∨ field e 8 8 = 1 → field e 11 10 = 0 ∧ field e 59 58 = 0) ∧ (field e 8 8 = 1 → size = 65536) ∧
  4096 * field e 55 12 % size = 0 ∧
  ((field e 8 8 = 1 ∧ field e 7 7 = 0) ∨ field e 59 58 = 1 ∨ 4096 * field e 55 12 + size ≤ 549755813888)

/-- An entry that names a next table (R276, R278). -/
def PointsOn (e : Nat) : Prop := field e 0 0 = 1 ∧ field e 56 56 = 0 ∧ 4096 * field e 55 12 < 549755813888

theorem field_bit (e i : Nat) : field e i i = 0 ∨ field e i i = 1 := by
  unfold field
  have : i + 1 - i = 1 := by omega
  rw [this]
  omega

theorem below_device (a b : Nat) : decide (a + b ≤ deviceSize) = true ↔ a + b ≤ 549755813888 := decide_eq_true_iff

theorem leafOk_iff (e size : Nat) : leafOk e size = true ↔ GoodLeaf e size := by
  have hattr : (!((pteComp e || pteTier e) && (pteMt e != 0 || pteTgt e != 0))) = true ↔
      (field e 9 9 = 1 ∨ field e 8 8 = 1 → field e 11 10 = 0 ∧ field e 59 58 = 0) := by
    rw [Bool.not_eq_true', ← Bool.not_eq_true, Bool.and_eq_true, Bool.or_eq_true, Bool.or_eq_true, not_and, not_or]
    unfold pteComp pteTier pteMt pteTgt
    rw [bitsOf_beq_iff, bitsOf_beq_iff, bitsOf_bne_iff, bitsOf_bne_iff, not_not, not_not]
  have htier : (!(pteTier e && size != 65536)) = true ↔ (field e 8 8 = 1 → size = 65536) := by
    rw [Bool.not_eq_true', ← Bool.not_eq_true, Bool.and_eq_true, not_and, bne_iff_ne, not_not]
    unfold pteTier
    rw [bitsOf_beq_iff]
  have hplace : ((pteTier e && !pteRes e) || pteTgt e == 1 || decide (pteFrame e + size ≤ deviceSize)) = true ↔
      ((field e 8 8 = 1 ∧ field e 7 7 = 0) ∨ field e 59 58 = 1 ∨ 4096 * field e 55 12 + size ≤ 549755813888) := by
    have hres : (!pteRes e) = true ↔ field e 7 7 = 0 := by
      unfold pteRes
      rw [Bool.not_eq_true', ← Bool.not_eq_true, bitsOf_beq_iff]
      have := field_bit e 7
      omega
    rw [Bool.or_eq_true, Bool.or_eq_true, Bool.and_eq_true, hres, below_device, pteFrame_eq, or_assoc]
    unfold pteTier pteTgt
    rw [bitsOf_beq_iff, bitsOf_beq_iff]
  unfold leafOk GoodLeaf
  rw [Bool.and_eq_true, Bool.and_eq_true, Bool.and_eq_true, Bool.and_eq_true, Bool.and_eq_true, hattr, htier, hplace, beq_iff_eq, pteFrame_eq]
  unfold pteV pteTgt
  rw [bitsOf_beq_iff, bitsOf_bne_iff, and_assoc, and_assoc, and_assoc, and_assoc]

theorem leafEntry_of_good {ea e addr size : Nat} (h : GoodLeaf e size) :
    leafEntry ea e addr size = some ⟨ea / size * size, size, BitVec.ofNat 64 e, addr⟩ := if_pos ((leafOk_iff e size).2 h)

theorem leafEntry_of_bad {ea e addr size : Nat} (h : ¬ GoodLeaf e size) : leafEntry ea e addr size = none := if_neg (mt (leafOk_iff e size).1 h)

theorem pointsOn_iff (e : Nat) : (pteV e && !pteLeaf e && decide (pteFrame e < deviceSize)) = true ↔ PointsOn e := by
  have hleaf : (!pteLeaf e) = true ↔ field e 56 56 = 0 := by
    unfold pteLeaf
    rw [Bool.not_eq_true', ← Bool.not_eq_true, bitsOf_beq_iff]
    have := field_bit e 56
    omega
  have hframe : decide (pteFrame e < deviceSize) = true ↔ 4096 * field e 55 12 < 549755813888 := by
    rw [pteFrame_eq]
    exact decide_eq_true_iff
  unfold PointsOn
  rw [Bool.and_eq_true, Bool.and_eq_true, hleaf, hframe, and_assoc]
  unfold pteV
  rw [bitsOf_beq_iff]

theorem nextTable_of_points {e : Nat} (h : PointsOn e) : nextTable e = some (4096 * field e 55 12) :=
  (if_pos ((pointsOn_iff e).2 h)).trans (congrArg some (pteFrame_eq e))

theorem nextTable_of_not_points {e : Nat} (h : ¬ PointsOn e) : nextTable e = none := if_neg (mt (pointsOn_iff e).1 h)

theorem sameGroup_iff (a b : Nat) : sameGroup a b = true ↔ field a 59 7 = field b 59 7 ∧ field a 3 0 = field b 3 0 := by
  unfold sameGroup field
  rw [Bool.and_eq_true, beq_iff_eq, beq_iff_eq]
  norm_num
  have h (x : Nat) : x % 1152921504606846976 / 128 = x / 128 % 9007199254740992 := by omega
  rw [h, h]
  exact fun _ => Iff.rfl

/-- The address of an entry of the 64 KiB group of an entry of a level 3 table (R276). -/
def groupAddr (table i j : Nat) : Nat := table + 8 * (16 * (i / 16) + j)

theorem groupEntry_of_agree {h : Hw} {table i : Nat}
    (ha : field (pteAt h (table + 8 * i)) 57 57 = 0 ∨ ∀ j, j < 16 → sameGroup (pteAt h (groupAddr table i j)) (pteAt h (table + 8 * i)) = true) :
    groupEntry h table i = (pteAt h (table + 8 * i), table + 8 * i) := by
  unfold groupEntry
  dsimp only
  refine if_neg fun hbad => ?_
  rw [Bool.and_eq_true, List.any_eq_true] at hbad
  obtain ⟨hs64, x, hx, hdiff⟩ := hbad
  obtain ⟨j, hj, rfl⟩ := List.mem_map.1 hx
  have hs : field (pteAt h (table + 8 * i)) 57 57 = 1 := beq_iff_eq.1 hs64
  rcases ha with h0 | hall
  · omega
  · have := hall j (List.mem_range.1 hj)
    unfold groupAddr at this
    rw [Nat.mul_comm 16] at this
    simp [this] at hdiff

theorem groupEntry_mem {h : Hw} {table i : Nat} (hs : field (pteAt h (table + 8 * i)) 57 57 = 1) :
    ∃ j, j < 16 ∧ groupEntry h table i = (pteAt h (groupAddr table i j), groupAddr table i j) ∧
      field (pteAt h (groupAddr table i j)) 57 57 = 1 := by
  have hown : table + 8 * i = groupAddr table i (i % 16) := by unfold groupAddr; omega
  have howncase : ∃ j, j < 16 ∧ (pteAt h (table + 8 * i), table + 8 * i) = (pteAt h (groupAddr table i j), groupAddr table i j) ∧
      field (pteAt h (groupAddr table i j)) 57 57 = 1 := ⟨i % 16, Nat.mod_lt _ (by decide), by rw [← hown], by rw [← hown]; exact hs⟩
  unfold groupEntry
  dsimp only
  split
  · split
    · next x hx =>
      have hmem := List.mem_of_getElem? hx
      rw [List.mem_filter, Bool.and_eq_true] at hmem
      obtain ⟨hmem, hs64, -⟩ := hmem
      obtain ⟨j, hj, rfl⟩ := List.mem_map.1 hmem
      refine ⟨j, List.mem_range.1 hj, ?_, ?_⟩
      · unfold groupAddr
        rw [Nat.mul_comm 16]
      · unfold groupAddr
        rw [Nat.mul_comm 16]
        exact beq_iff_eq.1 hs64
    · exact howncase
  · exact howncase

theorem walk_outside {h : Hw} {xlroot : DWord} {ea : Nat}
    (ho : 2 ^ 56 ≤ ea ∨ xlroot[0] = false ∨ 549755813888 ≤ 2 ^ 20 * field xlroot.toNat 55 20) : walk h xlroot ea = none := by
  unfold walk
  by_cases hfirst : (decide (2 ^ 56 ≤ ea) || !xlroot[0]) = true
  · rw [if_pos (by simpa using hfirst)]
  · have hroot : deviceSize ≤ bitsOf xlroot.toNat 55 20 * 2 ^ 20 := by
      rw [Bool.or_eq_true, not_or, decide_eq_true_eq, Bool.not_eq_true', Bool.not_eq_false] at hfirst
      rw [Nat.mul_comm]
      rcases ho with ho | ho | ho
      · exact absurd ho hfirst.1
      · rw [hfirst.2] at ho
        cases ho
      · exact ho
    rw [if_neg (by simpa using hfirst)]
    exact if_pos hroot

/-- The walk below the root table. -/
def walkTables (h : Hw) (root ea : Nat) : Option TlbEntry :=
  match nextTable (pteAt h (root + 8 * field ea 55 39)) with
  | none => none
  | some t1 =>
    let a1 := t1 + 8 * field ea 38 30
    let e1 := pteAt h a1
    if pteLeaf e1 then leafEntry ea e1 a1 (2 ^ 30)
    else match nextTable e1 with
      | none => none
      | some t2 =>
        let a2 := t2 + 8 * field ea 29 21
        let e2 := pteAt h a2
        if pteLeaf e2 then leafEntry ea e2 a2 (2 ^ 21)
        else match nextTable e2 with
          | none => none
          | some t3 =>
            let (e3, a3) := groupEntry h t3 (field ea 20 12)
            leafEntry ea e3 a3 (if pteS64 e3 then 65536 else 4096)

theorem walk_inside {h : Hw} {xlroot : DWord} {ea : Nat} (hea : ea < 2 ^ 56) (hvalid : xlroot[0] = true)
    (hroot : 2 ^ 20 * field xlroot.toNat 55 20 < 549755813888) : walk h xlroot ea = walkTables h (2 ^ 20 * field xlroot.toNat 55 20) ea := by
  unfold walk
  rw [if_neg (by simp [hvalid]; omega), Nat.mul_comm (2 ^ 20)]
  rw [Nat.mul_comm] at hroot
  exact if_neg (Nat.not_le.2 hroot)

theorem pteLeaf_of_leaf {e : Nat} (h : field e 56 56 = 1) : pteLeaf e = true := beq_iff_eq.2 h

theorem pteLeaf_of_table {e : Nat} (h : field e 56 56 = 0) : pteLeaf e = false :=
  beq_eq_false_iff_ne.2 fun he => absurd (h.symm.trans he) (by decide)

theorem pteS64_of_zero {e : Nat} (h : field e 57 57 = 0) : pteS64 e = false :=
  beq_eq_false_iff_ne.2 fun he => absurd (h.symm.trans he) (by decide)

theorem pteS64_of_one {e : Nat} (h : field e 57 57 = 1) : pteS64 e = true := beq_iff_eq.2 h

section
variable {h : Hw} {root ea t1 t2 t3 : Nat} (h0 : nextTable (pteAt h (root + 8 * field ea 55 39)) = some t1)

include h0 in
theorem walkTables_leaf1 (hleaf : field (pteAt h (t1 + 8 * field ea 38 30)) 56 56 = 1) : walkTables h root ea =
    leafEntry ea (pteAt h (t1 + 8 * field ea 38 30)) (t1 + 8 * field ea 38 30) (2 ^ 30) := by
  unfold walkTables
  rw [h0]
  exact if_pos (pteLeaf_of_leaf hleaf)

include h0 in
theorem walkTables_none1 (hleaf : field (pteAt h (t1 + 8 * field ea 38 30)) 56 56 = 0)
    (hno : nextTable (pteAt h (t1 + 8 * field ea 38 30)) = none) : walkTables h root ea = none := by
  unfold walkTables
  rw [h0]
  dsimp only
  rw [pteLeaf_of_table hleaf, hno]
  rfl

variable (h1 : nextTable (pteAt h (t1 + 8 * field ea 38 30)) = some t2) (hleaf1 : field (pteAt h (t1 + 8 * field ea 38 30)) 56 56 = 0)

include h0 h1 hleaf1 in
theorem walkTables_leaf2 (hleaf : field (pteAt h (t2 + 8 * field ea 29 21)) 56 56 = 1) : walkTables h root ea =
    leafEntry ea (pteAt h (t2 + 8 * field ea 29 21)) (t2 + 8 * field ea 29 21) (2 ^ 21) := by
  unfold walkTables
  rw [h0]
  dsimp only
  rw [pteLeaf_of_table hleaf1, h1]
  exact if_pos (pteLeaf_of_leaf hleaf)

include h0 h1 hleaf1 in
theorem walkTables_none2 (hleaf : field (pteAt h (t2 + 8 * field ea 29 21)) 56 56 = 0)
    (hno : nextTable (pteAt h (t2 + 8 * field ea 29 21)) = none) : walkTables h root ea = none := by
  unfold walkTables
  rw [h0]
  dsimp only
  rw [pteLeaf_of_table hleaf1, h1]
  simp only [Bool.false_eq_true, if_false]
  rw [pteLeaf_of_table hleaf, hno]
  rfl

variable (h2 : nextTable (pteAt h (t2 + 8 * field ea 29 21)) = some t3) (hleaf2 : field (pteAt h (t2 + 8 * field ea 29 21)) 56 56 = 0)

include h0 h1 hleaf1 h2 hleaf2 in
theorem walkTables_group : walkTables h root ea = leafEntry ea (groupEntry h t3 (field ea 20 12)).1 (groupEntry h t3 (field ea 20 12)).2
    (if pteS64 (groupEntry h t3 (field ea 20 12)).1 then 65536 else 4096) := by
  unfold walkTables
  rw [h0]
  dsimp only
  rw [pteLeaf_of_table hleaf1, h1]
  simp only [Bool.false_eq_true, if_false]
  rw [pteLeaf_of_table hleaf2, h2]
  rfl

end

/-- Where a walk ends in a leaf entry, the page is mapped if the entry is admitted, and only then. -/
theorem ends_of_leafEntry {w : Option TlbEntry} {ea e a size : Nat} (h : w = leafEntry ea e a size) :
    (GoodLeaf e size → w = some ⟨ea / size * size, size, BitVec.ofNat 64 e, a⟩) ∧ (¬ GoodLeaf e size → w = none) :=
  ⟨fun hg => h.trans (leafEntry_of_good hg), fun hg => h.trans (leafEntry_of_bad hg)⟩

theorem walksByR278 : WalksByR278 := by
  refine ⟨fun h a => rfl, fun h xlroot ea => ⟨walk_outside, fun hea hvalid hroot => ?_⟩⟩
  rw [walk_inside hea hvalid hroot]
  generalize 2 ^ 20 * field xlroot.toNat 55 20 = root
  refine ⟨fun hno => ?_, fun hp0 hleaf => ?_, fun hp0 hleaf hno => ?_, fun hp0 hp1 hleaf => ?_, fun hp0 hp1 hleaf hno => ?_,
    fun hp0 hp1 hp2 => ⟨fun hs => ?_, fun hs hall => ?_, fun hs x hx => ?_⟩⟩
  · unfold walkTables
    rw [nextTable_of_not_points hno]
  · exact ends_of_leafEntry (walkTables_leaf1 (nextTable_of_points hp0) hleaf)
  · exact walkTables_none1 (nextTable_of_points hp0) hleaf (nextTable_of_not_points hno)
  · exact ends_of_leafEntry (walkTables_leaf2 (nextTable_of_points hp0) (nextTable_of_points hp1) hp1.2.1 hleaf)
  · exact walkTables_none2 (nextTable_of_points hp0) (nextTable_of_points hp1) hp1.2.1 hleaf (nextTable_of_not_points hno)
  all_goals have hgroup := walkTables_group (nextTable_of_points hp0) (nextTable_of_points hp1) hp1.2.1 (nextTable_of_points hp2) hp2.2.1
  · rw [groupEntry_of_agree (.inl hs)] at hgroup
    dsimp only at hgroup
    rw [pteS64_of_zero hs] at hgroup
    exact ends_of_leafEntry hgroup
  · rw [groupEntry_of_agree (.inr fun j hj => (sameGroup_iff _ _).2 (hall j hj))] at hgroup
    dsimp only at hs hgroup
    rw [pteS64_of_one hs, if_pos rfl] at hgroup
    exact ends_of_leafEntry hgroup
  · obtain ⟨j, hj, he, hs64⟩ := groupEntry_mem hs
    rw [he] at hgroup
    dsimp only at hgroup
    rw [pteS64_of_one hs64, if_pos rfl] at hgroup
    rw [hgroup] at hx
    by_cases hgood : GoodLeaf (pteAt h (groupAddr (4096 * field (pteAt h (4096 * field (pteAt h (4096 * field (pteAt h (root + 8 * field ea 55 39))
        55 12 + 8 * field ea 38 30)) 55 12 + 8 * field ea 29 21)) 55 12) (field ea 20 12) j)) 65536
    · rw [leafEntry_of_good hgood] at hx
      exact ⟨j, hj, hgood, (Option.some.inj hx).symm⟩
    · rw [leafEntry_of_bad hgood] at hx
      cases hx

/-! ### The translation of an access (R280, R282) -/

theorem sameEntry_iff (c e : TlbEntry) : c.same e = true ↔ field c.pte.toNat 59 7 = field e.pte.toNat 59 7 ∧
    field c.pte.toNat 3 0 = field e.pte.toNat 3 0 ∧ c.pteAddr = e.pteAddr ∧ c.va = e.va ∧ c.size = e.size := by
  unfold TlbEntry.same
  rw [Bool.and_eq_true, Bool.and_eq_true, Bool.and_eq_true, sameGroup_iff, beq_iff_eq, beq_iff_eq, beq_iff_eq, and_assoc, and_assoc, and_assoc]

theorem mem_tlbsOf {h : Hw} {w : Who} {c : TlbEntry} : c ∈ tlbsOf h w ↔ c ∈ (h.part w.part).tlb ∨ ∃ k, w.key = some k ∧
    (c ∈ (h.ctx k.part k.core).tlb ∨ ∃ p, w.picker = some p ∧ (p, c) ∈ (h.ctx k.part k.core).utlb) := by
  unfold tlbsOf
  rw [List.mem_append, or_comm]
  refine or_congr Iff.rfl ?_
  cases w.key with
  | none => simp
  | some k =>
    cases w.picker with
    | none => simp
    | some p => simp [or_comm]

/-- The cached translations of an address that are out of date. -/
def oldEntries (h : Hw) (w : Who) (ea : Nat) : List TlbEntry :=
  (tlbsOf h w).filter fun c => c.covers ea && !((walk h (h.part w.part).xlroot ea).any c.same)

theorem mem_oldEntries {h : Hw} {w : Who} {ea : Nat} {c : TlbEntry} : c ∈ oldEntries h w ea ↔
    c ∈ tlbsOf h w ∧ c.va ≤ ea ∧ ea < c.va + c.size ∧ ∀ e, walk h (h.part w.part).xlroot ea = some e → ¬ c.same e = true := by
  unfold oldEntries TlbEntry.covers
  cases walk h (h.part w.part).xlroot ea <;> simp [and_assoc]

theorem translate_eq (h : Hw) (w : Who) (ea : Nat) : Machine.translate h w ea =
    if (oldEntries h w ea).isEmpty || !(h.part w.part).xlroot[0] then walk h (h.part w.part).xlroot ea
    else match (oldEntries h w ea)[Config.freeNat h.fresh % ((oldEntries h w ea).length + 1)]? with
      | some c => some c
      | none => walk h (h.part w.part).xlroot ea := by
  have hold : oldEntries h w ea = (tlbsOf h w).filter fun c => c.covers ea && (match walk h (h.part w.part).xlroot ea with
      | some e => !c.same e
      | none => true) := by
    unfold oldEntries
    cases walk h (h.part w.part).xlroot ea <;> rfl
  rw [hold]
  rfl

theorem entry_key_eq (e : TlbEntry) (modid ea : Nat) : e.key modid ea =
    if field e.pte.toNat 59 58 = 1 then hostKey (4096 * field e.pte.toNat 55 12 + (ea - e.va))
    else if field e.pte.toNat 59 58 = 2 ∧ field ea 55 44 ≠ modid then peerKey (field ea 55 44) (4096 * field e.pte.toNat 55 12 + (ea - e.va))
    else devKey (4096 * field e.pte.toNat 55 12 + (ea - e.va)) := by
  unfold TlbEntry.key
  dsimp only
  rw [pteFrame_eq]
  split
  · next htgt => exact (if_pos htgt).symm
  · next htgt =>
    have htgt : field e.pte.toNat 59 58 = 2 := htgt
    have hnot1 : ¬ field e.pte.toNat 59 58 = 1 := by omega
    by_cases hown : field ea 55 44 = modid
    · rw [if_pos ((bitsOf_beq_iff ..).2 hown), if_neg hnot1, if_neg fun h => h.2 hown]
    · rw [if_neg (mt (bitsOf_beq_iff ..).1 hown), if_neg hnot1, if_pos ⟨htgt, hown⟩]
      rfl
  · next h1 h2 => exact ((if_neg h1).trans (if_neg fun h => h2 h.1)).symm

theorem translatesByR280 : TranslatesByR280 := by
  refine ⟨fun h w ea => ?_, entry_key_eq⟩
  have hdiffers (c : TlbEntry) : c ∈ oldEntries h w ea ↔ (c ∈ (h.part w.part).tlb ∨ ∃ k, w.key = some k ∧
      (c ∈ (h.ctx k.part k.core).tlb ∨ ∃ p, w.picker = some p ∧ (p, c) ∈ (h.ctx k.part k.core).utlb)) ∧ c.va ≤ ea ∧ ea < c.va + c.size ∧
      ∀ e, walk h (h.part w.part).xlroot ea = some e → ¬ (field c.pte.toNat 59 7 = field e.pte.toNat 59 7 ∧
        field c.pte.toNat 3 0 = field e.pte.toNat 3 0 ∧ c.pteAddr = e.pteAddr ∧ c.va = e.va ∧ c.size = e.size) := by
    rw [mem_oldEntries, mem_tlbsOf]
    simp only [sameEntry_iff]
  intro now cached same differs
  refine ⟨fun hnone => ?_, ?_⟩
  · have hempty : oldEntries h w ea = [] := List.eq_nil_iff_forall_not_mem.2 fun c hc => hnone c ((hdiffers c).1 hc)
    rw [translate_eq, hempty, List.isEmpty_nil, Bool.true_or, if_pos rfl]
  · rw [translate_eq]
    split
    · exact .inl rfl
    · split
      · next c hc => exact .inr ⟨c, (hdiffers c).1 (List.mem_of_getElem? hc), rfl⟩
      · exact .inl rfl

/-! ### Permissions and the aperture (R13, R278) -/

theorem pagePerm_iff (e : Nat) :
    (pagePerm .load e = true ↔ field e 1 1 = 1) ∧ (pagePerm .store e = true ↔ field e 2 2 = 1 ∧ field e 3 3 = 0) ∧
    (pagePerm .atomic e = true ↔ field e 1 1 = 1 ∧ field e 2 2 = 1 ∧ field e 3 3 = 0 ∧ field e 11 10 ≠ 1) ∧
    (pagePerm .fetch e = true ↔ field e 3 3 = 1 ∧ field e 11 10 = 0) := by
  have hx : (!pteX e) = true ↔ field e 3 3 = 0 := by
    unfold pteX
    rw [Bool.not_eq_true', ← Bool.not_eq_true, bitsOf_beq_iff]
    have := field_bit e 3
    omega
  unfold pagePerm
  dsimp only
  rw [Bool.and_eq_true, Bool.and_eq_true, Bool.and_eq_true, Bool.and_eq_true, Bool.and_eq_true, hx, and_assoc, and_assoc]
  unfold pteR pteW pteX pteMt
  rw [bitsOf_beq_iff, bitsOf_beq_iff, bitsOf_beq_iff, bitsOf_bne_iff, bitsOf_beq_iff]
  exact ⟨Iff.rfl, Iff.rfl, Iff.rfl, Iff.rfl⟩

theorem apertureOk_iff (stkap : DWord) (w : Who) (ea : Nat) {k : Key} (hk : w.key = some k) :
    apertureOk stkap w ea = true ↔ stkap[0] = false ∨ ea < 2 ^ 34 * field stkap.toNat 55 34 ∨
      2 ^ 34 * field stkap.toNat 55 34 + 2 ^ 34 ≤ ea ∨ (2 ^ 34 * field stkap.toNat 55 34 + 65536 * (4096 * k.core + k.slot) ≤ ea ∧
        ea < 2 ^ 34 * field stkap.toNat 55 34 + 65536 * (4096 * k.core + k.slot) + 65536) := by
  have hbase : bitsOf stkap.toNat 55 34 * 2 ^ 34 = 2 ^ 34 * field stkap.toNat 55 34 := Nat.mul_comm ..
  unfold apertureOk stackLo
  rw [hk]
  dsimp only
  rw [hbase]
  generalize 2 ^ 34 * field stkap.toNat 55 34 = base
  split
  · next hout =>
    rw [Bool.or_eq_true, Bool.or_eq_true, Bool.not_eq_true', decide_eq_true_eq, decide_eq_true_eq, or_assoc] at hout
    tauto
  · next hin =>
    rw [Bool.or_eq_true, Bool.or_eq_true, Bool.not_eq_true', decide_eq_true_eq, decide_eq_true_eq, or_assoc] at hin
    rw [Bool.and_eq_true, decide_eq_true_eq, decide_eq_true_eq]
    tauto

theorem permitsByR278 : PermitsByR278 := by
  refine ⟨pagePerm_iff, fun stkap w ea => ⟨fun hk => ?_, fun k hk => apertureOk_iff stkap w ea hk⟩⟩
  unfold apertureOk
  rw [hk]

/-! ### The order of the checks (R172) -/

/-- The search for the first of an indexed list that meets a condition. -/
theorem find?_range_first {α : Type} {f : Nat → α} {p : α → Bool} {n i : Nat} (hi : i < n) (hp : p (f i) = true)
    (hfirst : ∀ j, j < i → p (f j) = false) : ((List.range n).map f).find? p = some (f i) := by
  rw [List.find?_map, List.find?_range_eq_some.2 ⟨hp, List.mem_range.2 hi, fun j hj => by simp [hfirst j hj]⟩]
  rfl

theorem find?_range_none {α : Type} {f : Nat → α} {p : α → Bool} {n : Nat} (h : ∀ j, j < n → p (f j) = false) :
    ((List.range n).map f).find? p = none := by
  rw [List.find?_eq_none]
  intro x hx
  obtain ⟨j, hj, rfl⟩ := List.mem_map.1 hx
  rw [h j (List.mem_range.1 hj)]
  exact Bool.false_ne_true

/-- The i-th byte address of an access. -/
def byteAt (ea : DWord) (i : Nat) : DWord := ea + BitVec.ofNat 64 i

/-- The checks of an access whose bytes are all translated. -/
def checkMapped (s : State) (w : Who) (acc : Acc) (es : List (DWord × TlbEntry)) : Except Stop Xlated :=
  if es.any fun x => pteTier x.2.pte.toNat && !pteRes x.2.pte.toNat then .error (.wait .tierPage)
  else
    match es.find? fun x => !pagePerm acc x.2.pte.toNat || unstageable s.hw w acc x.2.pte.toNat with
    | some x => .error (permFault acc x.1)
    | none =>
      match es.find? fun x => acc != .fetch && !apertureOk (s.hw.part w.part).stkap w x.1.toNat with
      | some x => .error (permFault acc x.1)
      | none =>
        let xs := es.map fun x => (x.1, accessKey s.hw s.mod.modid.toNat w x.2 x.1.toNat, x.2)
        if acc.writes && (xs.any fun x => stagedByOther s.hw w x.2.1) then .error (.wait .staging)
        else if acc.writes && !(unstaged s.hw w xs).isEmpty then .error (.stage (unstaged s.hw w xs))
        else .ok xs

section
variable {s : State} {w : Who} {acc : Acc} {ea : DWord} {n : Nat}

theorem checkGen_untranslated {i : Nat} (hi : i < n) (hnone : Machine.translate s.hw w (byteAt ea i).toNat = none)
    (hfirst : ∀ j, j < i → (Machine.translate s.hw w (byteAt ea j).toNat).isSome) :
    checkGen s w acc ea n = .error (xlateFault acc (byteAt ea i)) := by
  unfold checkGen
  dsimp only
  rw [eaBytes_eq, List.map_map, find?_range_first hi ?_ fun j hj => ?_]
  · rfl
  · exact Option.isNone_iff_eq_none.2 hnone
  · exact Option.isNone_eq_false_iff.2 (hfirst j hj)

theorem checkGen_mapped {e : Nat → TlbEntry} (he : ∀ i, i < n → Machine.translate s.hw w (byteAt ea i).toNat = some (e i)) :
    checkGen s w acc ea n = checkMapped s w acc ((List.range n).map fun i => (byteAt ea i, e i)) := by
  have hts : (eaBytes ea n).map (fun a => (a, Machine.translate s.hw w a.toNat)) = (List.range n).map fun i => (byteAt ea i, some (e i)) := by
    rw [eaBytes_eq, List.map_map]
    exact List.map_congr_left fun i hi => congrArg (Prod.mk _) (he i (List.mem_range.1 hi))
  have hes : ((List.range n).map fun i => (byteAt ea i, some (e i))).filterMap (fun x => x.2.map fun e => (x.1, e)) =
      (List.range n).map fun i => (byteAt ea i, e i) := by
    rw [List.filterMap_map]
    exact List.filterMap_eq_map' ▸ rfl
  unfold checkGen
  dsimp only
  rw [hts, find?_range_none fun j _ => rfl, hes]
  rfl

variable {e : Nat → TlbEntry}

theorem checkMapped_tier (hwait : ∃ i, i < n ∧ pteTier (e i).pte.toNat = true ∧ pteRes (e i).pte.toNat = false) :
    checkMapped s w acc ((List.range n).map fun i => (byteAt ea i, e i)) = .error (.wait .tierPage) := by
  obtain ⟨i, hi, htier, hres⟩ := hwait
  refine if_pos (List.any_eq_true.2 ⟨_, List.mem_map_of_mem (List.mem_range.2 hi), ?_⟩)
  rw [htier, hres]
  rfl

variable (hres : ∀ i, i < n → pteTier (e i).pte.toNat = true → pteRes (e i).pte.toNat = true)

include hres in
theorem any_tier_false : (((List.range n).map fun i => (byteAt ea i, e i)).any fun x => pteTier x.2.pte.toNat && !pteRes x.2.pte.toNat) = false := by
  rw [List.any_eq_false]
  intro x hx
  obtain ⟨i, hi, rfl⟩ := List.mem_map.1 hx
  rw [Bool.and_eq_true, Bool.not_eq_true', not_and, Bool.not_eq_false]
  exact hres i (List.mem_range.1 hi)

include hres in
theorem checkMapped_perm {i : Nat} (hi : i < n)
    (hbad : ¬ (pagePerm acc (e i).pte.toNat = true ∧ unstageable s.hw w acc (e i).pte.toNat = false))
    (hfirst : ∀ j, j < i → pagePerm acc (e j).pte.toNat = true ∧ unstageable s.hw w acc (e j).pte.toNat = false) :
    checkMapped s w acc ((List.range n).map fun i => (byteAt ea i, e i)) = .error (permFault acc (byteAt ea i)) := by
  unfold checkMapped
  rw [any_tier_false hres, find?_range_first hi ?_ fun j hj => ?_]
  · rfl
  · rw [Bool.or_eq_true, Bool.not_eq_true', ← Bool.not_eq_true]
    rw [← Bool.not_eq_true (unstageable ..), not_and_or, not_not] at hbad
    exact hbad
  · simp [hfirst j hj]

variable (hperm : ∀ i, i < n → pagePerm acc (e i).pte.toNat = true ∧ unstageable s.hw w acc (e i).pte.toNat = false)

include hres hperm in
theorem checkMapped_aperture {i : Nat} (hi : i < n)
    (hbad : ¬ (acc = .fetch ∨ apertureOk (s.hw.part w.part).stkap w (byteAt ea i).toNat = true))
    (hfirst : ∀ j, j < i → acc = .fetch ∨ apertureOk (s.hw.part w.part).stkap w (byteAt ea j).toNat = true) :
    checkMapped s w acc ((List.range n).map fun i => (byteAt ea i, e i)) = .error (permFault acc (byteAt ea i)) := by
  unfold checkMapped
  rw [any_tier_false hres, find?_range_none fun j hj => by simp [hperm j hj]]
  simp only [Bool.false_eq_true, if_false]
  rw [find?_range_first hi ?_ fun j hj => ?_]
  · simpa using hbad
  · rcases hfirst j hj with h | h <;> simp [h]

include hres hperm in
theorem checkMapped_passes (hapt : ∀ i, i < n → acc = .fetch ∨ apertureOk (s.hw.part w.part).stkap w (byteAt ea i).toNat = true)
    {xs : Xlated} (hxs : xs = (List.range n).map fun i => (byteAt ea i, accessKey s.hw s.mod.modid.toNat w (e i) (byteAt ea i).toNat, e i)) :
    checkMapped s w acc ((List.range n).map fun i => (byteAt ea i, e i)) =
      if acc.writes && (xs.any fun x => stagedByOther s.hw w x.2.1) then .error (.wait .staging)
      else if acc.writes && !(unstaged s.hw w xs).isEmpty then .error (.stage (unstaged s.hw w xs)) else .ok xs := by
  unfold checkMapped
  rw [any_tier_false hres, find?_range_none fun j hj => by simp [hperm j hj]]
  simp only [Bool.false_eq_true, if_false]
  rw [find?_range_none fun j hj => by rcases hapt j hj with h | h <;> simp [h]]
  subst hxs
  rw [List.map_map]
  rfl

end

/-- Settles O30: the walk, the translation and the permissions as their rules say, and the checks in the order of R172. -/
theorem genericAccessChecksInOrder : Obligations.GenericAccessChecksInOrder := by
  refine ⟨walksByR278, translatesByR280, permitsByR278, fun s w acc ea n => ⟨fun i hi hnone hfirst => checkGen_untranslated hi hnone hfirst,
    fun e he => ?_⟩⟩
  rw [checkGen_mapped he]
  refine ⟨checkMapped_tier, fun hres => ⟨fun i hi => checkMapped_perm hres hi, fun hperm => ⟨fun i hi => checkMapped_aperture hres hperm hi,
    fun hapt => ?_⟩⟩⟩
  intro xs other
  have hother : (xs.any fun x => stagedByOther s.hw w x.2.1) = true ↔ other := List.any_eq_true
  rw [checkMapped_passes hres hperm hapt (xs := xs) rfl]
  refine ⟨fun hreads => ?_, fun hwrites hstaged => ?_, fun hwrites hfree hun => ?_, fun hwrites hfree hun => ?_⟩
  · rw [hreads]
    rfl
  · rw [hwrites, hother.2 hstaged]
    rfl
  · rw [hwrites, Bool.eq_false_iff.2 (mt hother.1 hfree), List.isEmpty_eq_false_iff.2 hun]
    rfl
  · rw [hwrites, Bool.eq_false_iff.2 (mt hother.1 hfree), hun]
    rfl

end Sys2Proof.Proofs

/-!
Accesses are issued (R36, R172, R174, R180, R283): what becomes outstanding, and what an access to a page of type 3 has done when it completes.
-/
namespace Sys2Proof.Proofs
open Sys2Proof.Machine

/-! ### The locations of an access and its route -/

/-- The locations of an access are in the space of its route. -/
def InSpace (r : Reach) : Prop := ∀ l ∈ r.locs, r.route = .scratch ↔ ∃ o, l = .scr o

theorem reachScr_inSpace {s : State} {acc : Acc} {base size n : Nat} {off : DWord} {r : Reach} (h : reachScr s acc base size off n = .ok r) :
    InSpace r ∧ r.locs.length = n := by
  unfold reachScr at h
  split at h
  · cases h
  · dsimp only at h
    split at h
    · cases h
    · cases h
      refine ⟨fun l hl => ?_, by simp⟩
      obtain ⟨o, -, rfl⟩ := List.mem_map.1 hl
      simp

theorem checkMapped_ok {s : State} {w : Who} {acc : Acc} {es : List (DWord × TlbEntry)} {xs : Xlated} (h : checkMapped s w acc es = .ok xs) :
    xs.length = es.length := by
  unfold checkMapped at h
  split at h
  · cases h
  · split at h
    · cases h
    · split at h
      · cases h
      · dsimp only at h
        split at h
        · cases h
        · split at h
          · cases h
          · cases h
            exact List.length_map ..

theorem checkGen_length {s : State} {w : Who} {acc : Acc} {ea : DWord} {n : Nat} {xs : Xlated} (h : checkGen s w acc ea n = .ok xs) :
    xs.length = n := by
  by_cases hall : ∀ i, i < n → Machine.translate s.hw w (byteAt ea i).toNat ≠ none
  · have hsome : ∀ i, i < n → Machine.translate s.hw w (byteAt ea i).toNat =
        some ((Machine.translate s.hw w (byteAt ea i).toNat).getD default) := fun i hi => by
      obtain ⟨e, he⟩ := Option.ne_none_iff_exists'.1 (hall i hi)
      rw [he]
      rfl
    rw [checkGen_mapped hsome] at h
    simpa using checkMapped_ok h
  · have hex : ∃ i, i < n ∧ Machine.translate s.hw w (byteAt ea i).toNat = none := by simpa using hall
    obtain ⟨hi, hnone⟩ := Nat.find_spec hex
    rw [checkGen_untranslated hi hnone fun j hj => ?_] at h
    · cases h
    · have hmin := Nat.find_min hex hj
      rw [not_and] at hmin
      exact Option.isSome_iff_ne_none.2 (hmin (hj.trans hi))

/-- A generic access reaches no scratchpad. -/
theorem reachGen_phys {s : State} {acc : Acc} {con : Bool} {ea : DWord} {n : Nat} {r : Reach} (h : reachGen s acc con ea n = .ok r) :
    (∀ l ∈ r.locs, ¬ ∃ o, l = .scr o) ∧ r.route ≠ .scratch ∧ r.locs.length = n := by
  unfold reachGen at h
  split at h
  · cases h
  · next xs hxs =>
    have hlocs : ∀ l ∈ xs.map (fun (x : DWord × Nat × TlbEntry) => Loc.phys x.2.1), ¬ ∃ o, l = Loc.scr o := fun l hl ⟨o, ho⟩ => by
      obtain ⟨x, -, rfl⟩ := List.mem_map.1 hl
      cases ho
    have hlen : (xs.map fun (x : DWord × Nat × TlbEntry) => Loc.phys x.2.1).length = n := (List.length_map ..).trans (checkGen_length hxs)
    dsimp only at h
    cases h
    refine iteInduction (motive := fun r : Reach => (∀ l ∈ r.locs, ¬ ∃ o, l = .scr o) ∧ r.route ≠ .scratch ∧ r.locs.length = n)
      (fun _ => ⟨hlocs, ?_, hlen⟩) (fun _ => ⟨hlocs, ?_, hlen⟩)
    · cases con <;> simp
    · cases con <;> simp

theorem reachGen_inSpace {s : State} {acc : Acc} {con : Bool} {ea : DWord} {n : Nat} {r : Reach} (h : reachGen s acc con ea n = .ok r) :
    InSpace r ∧ r.locs.length = n := by
  obtain ⟨hlocs, hroute, hlen⟩ := reachGen_phys h
  exact ⟨fun l hl => iff_of_false hroute (hlocs l hl), hlen⟩

theorem reach_inSpace {s : State} {acc : Acc} {space n : Nat} {ea : DWord} {r : Reach} (h : reach s acc space ea n = .ok r) :
    InSpace r ∧ r.locs.length = n := by
  unfold reach at h
  split at h
  · split at h
    · exact reachScr_inSpace h
    · cases h
    · split at h
      · exact reachGen_inSpace h
      · cases h
  · split at h
    · exact reachGen_inSpace h
    · exact reachScr_inSpace h
    · exact reachGen_inSpace h
    · cases h

theorem reachAmo_inSpace {s : State} {scr : Bool} {n : Nat} {ea : DWord} {r : Reach} (h : reachAmo s scr n ea = .ok r) :
    InSpace r ∧ r.locs.length = n := by
  unfold reachAmo at h
  split at h
  · cases h
  · split at h
    · exact reachScr_inSpace h
    · cases hr : reachGen s .atomic false ea n with
      | error e => rw [hr] at h; cases h
      | ok r' =>
        rw [hr] at h
        cases h
        obtain ⟨hlocs, -, hlen⟩ := reachGen_phys hr
        exact ⟨fun l hl => iff_of_false (by simp) (hlocs l hl), hlen⟩

/-! ### Cells depend on cells -/

section
variable {t u : Thread} (h : u.cells = t.cells)
include h

theorem cell_congr (i : Nat) : u.cell i = t.cell i := by
  unfold Thread.cell
  rw [h]

theorem setCell_congr (i : Nat) (c : VCell) : (u.setCell i c).cells = (t.setCell i c).cells := congrArg (List.set · i c) h

theorem groupFrom_congr (i n : Nat) : u.groupFrom i n = t.groupFrom i n := by
  induction n with
  | zero => rfl
  | succ n ih =>
    unfold Thread.groupFrom
    rw [cell_congr h, ih]

omit h in
theorem plainRange_congr {t u : Thread} (h : u.cells = t.cells) (i n : Nat) : (u.plainRange i n).cells = (t.plainRange i n).cells := by
  induction n generalizing t u i with
  | zero => exact h
  | succ n ih => exact ih (by rw [cell_congr h]; exact setCell_congr h ..) _

theorem dissolve_congr (i : Nat) : (u.dissolve i).cells = (t.dissolve i).cells := by
  unfold Thread.dissolve Thread.group
  rw [cell_congr h, groupFrom_congr h]
  split
  · exact h
  · exact plainRange_congr h ..

theorem writePlain_congr (i : Nat) (v : Word) : (u.writePlain i v).cells = (t.writePlain i v).cells := setCell_congr (dissolve_congr h i) ..

omit h in
theorem writePlains_congr {t u : Thread} (h : u.cells = t.cells) (i : Nat) (vs : List Word) :
    (u.writePlains i vs).cells = (t.writePlains i vs).cells := by
  induction vs generalizing t u i with
  | nil => exact h
  | cons v vs ih => exact ih (writePlain_congr h ..) _

omit h in
theorem refill_congr {t u : Thread} (h : u.cells = t.cells) (i n : Nat) : (u.refill i n).cells = (t.refill i n).cells := by
  induction n generalizing t u i with
  | zero => exact h
  | succ n ih => exact ih (by rw [cell_congr h]; exact writePlain_congr h ..) _

omit h in
theorem dissolveRange_congr {t u : Thread} (h : u.cells = t.cells) (i n : Nat) : (u.dissolveRange i n).cells = (t.dissolveRange i n).cells := by
  induction n generalizing t u i with
  | zero => exact h
  | succ n ih => exact ih (dissolve_congr h _) _

omit h in
theorem writeTails_congr {t u : Thread} (h : u.cells = t.cells) (i : Nat) (vs : List Word) :
    (u.writeTails i vs).cells = (t.writeTails i vs).cells := by
  induction vs generalizing t u i with
  | nil => exact h
  | cons v vs ih => exact ih (setCell_congr h ..) _

theorem writeZxf_congr (i l image s : Nat) : (u.writeZxf i l image s).cells = (t.writeZxf i l image s).cells := by
  unfold Thread.writeZxf
  dsimp only
  split
  · exact dissolveRange_congr h ..
  · exact writeTails_congr (setCell_congr (dissolveRange_congr h ..) ..) ..

theorem fillPlain_congr (i n : Nat) (ws : List Word) : (u.fillPlain i n ws).cells = (t.fillPlain i n ws).cells :=
  writePlains_congr (refill_congr h ..) ..

theorem fillZxf_congr (d p : Nat) (rm : BitVec 3) (smin : Nat) (bs : List Byte) :
    (u.fillZxf d p rm smin bs).cells = (t.fillZxf d p rm smin bs).cells := writeZxf_congr (refill_congr h ..) ..

end

theorem CellsOnly.markEmpty (t : Thread) (i n : Nat) : CellsOnly t (t.markEmpty i n) := by
  induction n generalizing t i with
  | zero => exact .refl t
  | succ n ih => exact (CellsOnly.setCell ..).trans (ih ..)

/-! ### An access becomes outstanding -/

/-- A state with an access issued: its translations used, its cells marked empty, its gang noted. -/
def issuedAs (s : State) (acc : Acc) (r : Reach) (p : Pend) : State := noteGang ((touched s acc r).issuePend p)

theorem touch_same (h : Hw) (w : Who) (acc : Acc) (xs : Xlated) :
    (touch h w acc xs).pends = h.pends ∧ (touch h w acc xs).nextId = h.nextId ∧ (touch h w acc xs).gang = h.gang ∧
    (touch h w acc xs).threads = h.threads := by
  unfold touch cacheXlat
  dsimp only
  split
  · exact ⟨rfl, rfl, rfl, rfl⟩
  · exact ⟨rfl, rfl, rfl, rfl⟩

theorem touched_same (s : State) (acc : Acc) (r : Reach) :
    (touched s acc r).hw.pends = s.hw.pends ∧ (touched s acc r).hw.nextId = s.hw.nextId ∧ (touched s acc r).hw.gang = s.hw.gang ∧
    (touched s acc r).hw.threads = s.hw.threads := by
  unfold touched
  split
  · exact ⟨rfl, rfl, rfl, rfl⟩
  · exact touch_same ..

theorem touched_memory (s : State) (acc : Acc) (r : Reach) (hm : swf s.hw.mem = true) : SameMemoryBut (pteKeys r.xs) s (touched s acc r) := by
  intro k hk
  unfold touched
  split
  · rfl
  · refine sget_foldl_setRefD acc _ hm fun hmem => hk ?_
    obtain ⟨a, ha, rfl⟩ := List.mem_map.1 hmem
    rw [mem_nub, List.mem_map] at ha
    obtain ⟨e, he, rfl⟩ := ha
    rw [mem_nub, List.mem_map] at he
    obtain ⟨x, hx, rfl⟩ := he
    exact List.mem_map_of_mem hx

section
variable (s : State) (acc : Acc) (r : Reach) (p : Pend)

theorem issuedAs_pends : (issuedAs s acc r p).hw.pends = s.hw.pends ++ [p] := congrArg (· ++ [p]) (touched_same s acc r).1

theorem issuedAs_threads : (issuedAs s acc r p).hw.threads = s.hw.threads := (touched_same s acc r).2.2.2

theorem issuedAs_memory (hm : swf s.hw.mem = true) : SameMemoryBut (pteKeys r.xs) s (issuedAs s acc r p) := touched_memory s acc r hm

/-- The executing thread has its cells marked empty and its gang noted, and is otherwise as it was. -/
theorem issuedAs_th : ∃ gs, s.hw.gang ∈ gs ∧ (issuedAs s acc r p).th = { s.th.markEmpty p.cell p.ncells with gangs := gs } := by
  have hth : (issuedAs s acc r p).th = { s.th.markEmpty p.cell p.ncells with gangs := (issuedAs s acc r p).th.gangs } := by
    unfold issuedAs noteGang State.issuePend
    rw [touched_th]
    rfl
  refine ⟨_, ?_, hth⟩
  have hgang : s.hw.gang = ((touched s acc r).issuePend p).hw.gang := (touched_same s acc r).2.2.1.symm
  rw [hgang]
  unfold issuedAs noteGang
  dsimp only [State.setTh_th]
  split
  · next hkeep => exact List.contains_iff_mem.1 hkeep
  · exact List.mem_cons_self

end

/-! ### A new access is performed -/

theorem before_nil {q p : Pend} (hkind : p.isStore = false) (hown : q.sameThread p = true → q.todo = [])
    (hatomic : q.isAtomic = true → p.isAtomic = true → q.gang ≠ p.gang) (ls : List Loc) : q.before p ls = [] := by
  have hunits : q.sameThread p = true → q.units = [] := fun h => by
    unfold Pend.units
    rw [hown h]
    rfl
  have hover : q.sameThread p = true → q.over ls = [] := fun h => by
    unfold Pend.over
    rw [hown h]
    rfl
  unfold Pend.before
  split
  · rfl
  · split
    · next hc =>
      simp only [Bool.or_eq_true, Bool.and_eq_true, beq_iff_eq] at hc
      rcases hc with hc | hc
      · exact hunits hc.1.1
      · exact absurd hc.2 (hatomic hc.1.1 hc.1.2)
    · split
      · next hc =>
        simp only [Bool.or_eq_true, Bool.and_eq_true, beq_iff_eq, hkind, Bool.false_eq_true, false_and, or_false] at hc
        exact hover hc.1
      · rfl

/-- An access that has just been issued under a new number. -/
structure NewAccess (h : Hw) (qs : List Pend) (p : Pend) : Prop where
  pends : h.pends = qs ++ [p]
  ids : ∀ q ∈ qs, q.id < p.id
  parks : ∀ t ∈ h.threads, t.park ≠ .peer p.id
  got : p.got.length = p.locs.length
  space : ∀ l ∈ p.locs, p.route = .scratch ↔ ∃ o, l = .scr o
  kind : p.isLoad = true ∨ p.isAtomic = true

/-- Nothing that is outstanding comes before an access. -/
def NoneBefore (qs : List Pend) (p : Pend) : Prop := ∀ q ∈ qs, q.before p p.locs = []

section
variable {h : Hw} {qs : List Pend} {p : Pend} (hn : NewAccess h qs p)
include hn

theorem NewAccess.unique : ∀ q ∈ h.pends, q.id = p.id → q = p := fun q hq hid => by
  rw [hn.pends, List.mem_append, List.mem_singleton] at hq
  rcases hq with hq | hq
  · have := hn.ids q hq
    omega
  · exact hq

theorem NewAccess.find : h.pends.find? (fun q => q.id == p.id) = some p := by
  rw [hn.pends, List.find?_append, List.find?_eq_none.2 fun q hq => ?_]
  · simp
  · have := hn.ids q hq
    simp
    omega

theorem NewAccess.alone (hbefore : NoneBefore qs p) : Alone h p := by
  refine ⟨hn.find, hn.unique, hn.got, hn.space, ?_, fun q hq hne => ?_⟩
  · unfold Hw.heldByPeer
    rw [List.any_eq_false]
    intro t ht
    simpa using hn.parks t ht
  · rw [hn.pends, List.mem_append, List.mem_singleton] at hq
    exact hbefore q (hq.resolve_right hne)

end

/-- A new access has been performed: what it has become, and its bytes. -/
structure PerformedAs (v w : State) (qs : List Pend) (p x : Pend) (bs : List Byte) : Prop where
  th : w.th = v.th
  find : w.hw.pends.find? (fun q => q.id == p.id) = some x
  same : pendStill x = pendStill p
  bytes : x.bytes = some bs
  length : bs.length = p.locs.length
  keeps : NoneBefore qs p → KeepsBytes p x
  ids : ∀ q ∈ w.hw.pends, ∃ q0 ∈ v.hw.pends, q.id = q0.id

theorem performNow_eq {v : State} {qs : List Pend} {p : Pend} (hn : NewAccess v.hw qs p) :
    performNow v p.id = unlessConsumed (v.mapHw fun h => perform h p) fun q => q.id == p.id := by
  unfold performNow State.mapHw
  dsimp only
  rw [hn.find]

theorem pendStill_id {q q' : Pend} (h : pendStill q' = pendStill q) : q'.id = q.id := congrArg (fun p => p.id) h

/-- What performing a new access at once comes to. -/
theorem performNow_new {v : State} {qs : List Pend} {p : Pend} (hn : NewAccess v.hw qs p) :
    (∃ ue, performNow v p.id = .error (.consumed ue)) ∨ (¬ NoneBefore qs p ∧ performNow v p.id = .error (.wait .scalarLoad)) ∨
    ∃ w x bs, performNow v p.id = .ok w ∧ PerformedAs v w qs p x bs := by
  have hstore := not_isStore hn.kind
  have hfrom := PendsFrom.perform v.hw p
  have hmem : p ∈ v.hw.pends := List.mem_of_find?_eq_some hn.find
  obtain ⟨x0, hx0, hgone⟩ := hfrom.kept p hmem hstore
  obtain ⟨x, hx⟩ : ∃ x, (perform v.hw p).pends.find? (fun q => q.id == p.id) = some x :=
    Option.isSome_iff_exists.1 (List.find?_isSome.2 ⟨x0, hx0, by simpa using pendStill_id hgone.1⟩)
  have hxmem := List.mem_of_find?_eq_some hx
  have hxid : x.id = p.id := by simpa using List.find?_some hx
  have hsame : pendStill x = pendStill p := by
    obtain ⟨q, hq, he, -⟩ := hfrom.origin x hxmem
    rw [he, hn.unique q hq ((pendStill_id he).symm.trans hxid)]
  have hkeeps : NoneBefore qs p → KeepsBytes p x ∧ ∀ q ∈ (perform v.hw p).pends, q.id = p.id → q.todo = [] := fun hbefore => by
    have ha := hn.alone hbefore
    obtain ⟨p', hgo, hdone⟩ := ha.performed hn.kind
    have ha' := ha.going hgo (still_perform ..)
    have hid' := pendStill_id hgo.same
    have hall : ∀ q ∈ (perform v.hw p).pends, q.id = p.id → q = p' := fun q hq hid => ha'.unique q hq (hid.trans hid'.symm)
    exact ⟨by rw [hall x hxmem hxid]; exact hgo.keeps, fun q hq hid => by rw [hall q hq hid]; exact hdone⟩
  rw [performNow_eq hn]
  unfold unlessConsumed
  split
  · split
    · next hleft =>
      refine .inr (.inl ⟨fun hbefore => ?_, rfl⟩)
      obtain ⟨q, hq, hbad⟩ := List.any_eq_true.1 hleft
      rw [Bool.and_eq_true, beq_iff_eq, Bool.not_eq_true'] at hbad
      rw [(hkeeps hbefore).2 q hq hbad.1] at hbad
      cases hbad.2
    · next hleft =>
      have hdone : x.todo = [] := by
        rw [Bool.not_eq_true, List.any_eq_false] at hleft
        simpa [hxid] using hleft x hxmem
      obtain ⟨hfields, hlen⟩ := pendStill_eq_iff.1 hsame
      have hlocs : x.locs = p.locs := by rw [hfields]
      obtain ⟨bs, hbs, hbslen⟩ := bytes_of_todo_nil (hlen.trans (hn.got.trans (congrArg List.length hlocs.symm))) hdone
      refine .inr (.inr ⟨_, x, bs, rfl, rfl, hx, hsame, hbs, hbslen.trans (congrArg List.length hlocs), fun hbefore => (hkeeps hbefore).1, fun q hq => ?_⟩)
      obtain ⟨q0, hq0, he, -⟩ := hfrom.origin q hq
      exact ⟨q0, hq0, pendStill_id he⟩
  · exact .inl ⟨_, rfl⟩

/-! ### What an access to a page of type 3 leaves (R283, R297) -/

theorem fill_congr {p q : Pend} (h : pendStill q = pendStill p) (t : Thread) (bs : List Byte) : t.fill q bs = t.fill p bs := by
  rw [(pendStill_eq_iff.1 h).1]
  rfl

/-- The executing thread takes the bytes of an access of its own that completes. -/
theorem completePend_th {w : State} {x : Pend} (hlive : w.th.live = true) (hkey : x.key = w.th.key) (htid : x.tid = w.th.tid)
    (hlaunch : x.launch = w.th.launch) (bs : List Byte) : (completePend w x bs).th = (w.th.fill x bs).saw x := by
  have hown : (dropPend w x.id).owner? x = some w.th := by
    unfold State.owner? State.thread? dropPend
    rw [hkey, htid, hlaunch]
    simp [hlive, State.mapHw]
  have hplace : ((w.th.fill x bs).saw x).key = w.th.key := (samePlace_saw _ x).1.trans (samePlace_fill w.th x bs).1
  unfold completePend
  dsimp only
  rw [hown]
  unfold State.setThread
  refine congrArg State.th (if_pos (?_ : (w.th.live && w.th.key == ((w.th.fill x bs).saw x).key) = true))
  rw [hplace, hlive]
  simp

theorem completePend_pends (w : State) (x : Pend) (bs : List Byte) : (completePend w x bs).hw.pends = w.hw.pends.filter fun q => q.id != x.id := by
  obtain ⟨ts, hts⟩ := completePend_hw w x bs
  rw [hts]

theorem ctx_forgotten (h : Hw) (k : Key) :
    ((forgetAhead (dropCon (dropL1 h k.part k.core) k.part k.core) k fun _ => true).ctx k.part k.core).l1 = .empty ∧
    ((forgetAhead (dropCon (dropL1 h k.part k.core) k.part k.core) k fun _ => true).ctx k.part k.core).con = .empty := by
  have hl1 : ((dropL1 h k.part k.core).ctx k.part k.core).l1 = .empty :=
    ctx_setCtx_of (fun c => c.l1 = .empty) (ctx_part ..) (ctx_core ..) rfl rfl
  have hcon : ((dropCon (dropL1 h k.part k.core) k.part k.core).ctx k.part k.core).l1 = .empty ∧
      ((dropCon (dropL1 h k.part k.core) k.part k.core).ctx k.part k.core).con = .empty :=
    ctx_setCtx_of (fun c => c.l1 = .empty ∧ c.con = .empty) (ctx_part ..) (ctx_core ..) ⟨rfl, rfl⟩ ⟨hl1, rfl⟩
  exact ctx_setCtx_of (fun c => c.l1 = .empty ∧ c.con = .empty) (ctx_part ..) (ctx_core ..) ⟨rfl, rfl⟩ hcon


section
variable {r : Reach} (hmt : r.mt = 3) (s : State)
include hmt

theorem afterStrong_eq : afterStrong s r =
    forget (s.mapHw fun h => dropCon (dropL1 h s.th.key.part s.th.key.core) s.th.key.part s.th.key.core) fun _ => true :=
  if_pos (beq_iff_eq.2 hmt)

theorem afterStrong_pends : (afterStrong s r).hw.pends = s.hw.pends := by
  rw [afterStrong_eq hmt]
  rfl

/-- Its core's caches of data are empty. -/
theorem afterStrong_caches : ((afterStrong s r).hw.ctx s.th.key.part s.th.key.core).l1 = .empty ∧
    ((afterStrong s r).hw.ctx s.th.key.part s.th.key.core).con = .empty := by
  rw [afterStrong_eq hmt]
  exact ctx_forgotten s.hw s.th.key

end

/-- An access that has been issued is performed and completes before the next instruction. -/
def finishNow (v : State) (r : Reach) (id : Nat) : Except Stop State := do
  let s ← performNow v id
  match s.hw.pends.find? fun p => p.id == id with
  | some p => .ok (afterStrong (completePend s p ((p.bytes).getD [])) r)
  | none => .ok s

/-- What such an access has done when it has completed. -/
structure Finished (v u : State) (r : Reach) (qs : List Pend) (p : Pend) (bs : List Byte) : Prop where
  th : ∃ x, u.th = (v.th.fill p bs).saw x
  length : bs.length = r.locs.length
  keeps : NoneBefore qs p → p.isLoad = true → ∀ (i : Nat) (b : Byte), p.got[i]? = some (some b) → i < bs.length → bs[i]? = some b
  ids : ∀ q ∈ u.hw.pends, q.id < p.id
  l1 : (u.hw.ctx v.th.key.part v.th.key.core).l1 = .empty
  con : (u.hw.ctx v.th.key.part v.th.key.core).con = .empty

theorem eq_map_some_of_allSome {α : Type} {xs : List (Option α)} {ys : List α} (h : allSome xs = some ys) : xs = ys.map some := by
  induction xs generalizing ys with
  | nil => cases h; rfl
  | cons x xs ih =>
    cases x with
    | none => cases h
    | some x =>
      obtain ⟨zs, hzs, rfl⟩ := Option.map_eq_some_iff.1 h
      rw [ih hzs, List.map_cons]

theorem finishNow_cases {v : State} {r : Reach} {qs : List Pend} {p : Pend} (hn : NewAccess v.hw qs p) (hmt : r.mt = 3)
    (hlocs : p.locs = r.locs) (hlive : v.th.live = true) (hkey : p.key = v.th.key) (htid : p.tid = v.th.tid) (hlaunch : p.launch = v.th.launch) :
    (∃ ue, finishNow v r p.id = .error (.consumed ue)) ∨ (¬ NoneBefore qs p ∧ finishNow v r p.id = .error (.wait .scalarLoad)) ∨
    ∃ u bs, finishNow v r p.id = .ok u ∧ Finished v u r qs p bs := by
  rcases performNow_new hn with ⟨ue, he⟩ | ⟨hbefore, he⟩ | ⟨w, x, bs, hw, hp⟩
  · refine .inl ⟨ue, ?_⟩
    unfold finishNow
    rw [he]
    rfl
  · refine .inr (.inl ⟨hbefore, ?_⟩)
    unfold finishNow
    rw [he]
    rfl
  · have hfin : finishNow v r p.id = .ok (afterStrong (completePend w x bs) r) := by
      unfold finishNow
      rw [hw, ok_bind, hp.find]
      dsimp only
      rw [hp.bytes]
      rfl
    have hfields := (pendStill_eq_iff.1 hp.same).1
    have hth : (completePend w x bs).th = (v.th.fill p bs).saw x := by
      rw [completePend_th (by rw [hp.th, hlive]) (by rw [hp.th, hfields, ← hkey]) (by rw [hp.th, hfields, ← htid])
        (by rw [hp.th, hfields, ← hlaunch]), hp.th, fill_congr hp.same]
    have hkeyof : (completePend w x bs).th.key = v.th.key := by
      rw [hth]
      exact (samePlace_saw _ x).1.trans (samePlace_fill ..).1
    have hcaches := afterStrong_caches hmt (completePend w x bs)
    rw [hkeyof] at hcaches
    refine .inr (.inr ⟨_, bs, hfin, ⟨x, (afterStrong_th ..).trans hth⟩, by rw [hp.length, hlocs], fun hbefore hload i b hi _ => ?_, fun q hq => ?_,
      hcaches.1, hcaches.2⟩)
    · have hgot := hp.keeps hbefore hload i b hi
      rw [eq_map_some_of_allSome hp.bytes, List.getElem?_map] at hgot
      obtain ⟨b', hb', he⟩ := Option.map_eq_some_iff.1 hgot
      rw [hb', Option.some.inj he]
    · rw [afterStrong_pends hmt, completePend_pends, List.mem_filter] at hq
      obtain ⟨hq, hne⟩ := hq
      obtain ⟨q0, hq0, hid⟩ := hp.ids q hq
      rw [hn.pends, List.mem_append, List.mem_singleton] at hq0
      rcases hq0 with hq0 | rfl
      · rw [hid]
        exact hn.ids q0 hq0
      · have hx := pendStill_id hp.same
        simp [hx, hid] at hne

/-! ### Issuing an access (R172, R180, R283) -/

section
variable {s : State} {acc : Acc} {r : Reach} {kind : PendKind} {cell n atom : Nat}

/-- An access to pages of types 0 to 2 is issued and no more. -/
theorem issueAccess_early (hmt : r.mt < 3) : issueAccess s acc r kind cell n atom =
    .ok (issuedAs s (kind.marks acc) r (s.newPend kind cell n atom r)) := by
  have hne : (r.mt == 3) = false := beq_eq_false_iff_ne.2 (by omega)
  unfold issueAccess orderFirst
  simp only [hne, Bool.false_eq_true, if_false, ok_bind, bne, Bool.not_false, if_true]
  rfl

theorem issueAccess_order_error (hmt : r.mt = 3) {e : Stop} (he : orderAll s = .error e) : issueAccess s acc r kind cell n atom = .error e := by
  have heq : (r.mt == 3) = true := beq_iff_eq.2 hmt
  unfold issueAccess orderFirst
  simp only [heq, if_true, he, error_bind]

theorem lost_of_near {r : Reach} (hpeer : (physKeys r.locs).any keyIsPeer = false) (h : Hw) : r.lost h = false := by
  unfold Reach.lost
  rw [hpeer]
  rfl

/-- An access to a page of type 3 is performed and completes. -/
theorem issueAccess_strong (hmt : r.mt = 3) {s1 : State} (hs1 : orderAll s = .ok s1) (hpeer : (physKeys r.locs).any keyIsPeer = false) :
    issueAccess s acc r kind cell n atom = finishNow (issuedAs s1 (kind.marks acc) r (s1.newPend kind cell n atom r)) r s1.hw.nextId := by
  have heq : (r.mt == 3) = true := beq_iff_eq.2 hmt
  unfold issueAccess orderFirst
  simp only [heq, if_true, hs1, ok_bind, bne, Bool.not_true, Bool.false_eq_true, if_false, lost_of_near hpeer]
  rfl

end

/-- An access issued under the next number is new. -/
theorem newAccess_issued {s : State} {acc : Acc} {r : Reach} {p : Pend} (hnum : NumbersGiven s) (hid : p.id = s.hw.nextId)
    (hgot : p.got.length = p.locs.length) (hspace : ∀ l ∈ p.locs, p.route = .scratch ↔ ∃ o, l = .scr o)
    (hkind : p.isLoad = true ∨ p.isAtomic = true) : NewAccess (issuedAs s acc r p).hw s.hw.pends p where
  pends := issuedAs_pends ..
  ids := fun q hq => by rw [hid]; exact hnum.1 q hq
  parks := fun v hv he => by
    rw [issuedAs_threads] at hv
    have := hnum.2 v hv _ he
    omega
  got := hgot
  space := hspace
  kind := hkind

/-- Where a thread's accesses are performed, only an atomic can wait for others. -/
theorem noneBefore_of_performed {qs : List Pend} {p : Pend} {t : Thread} (hkind : p.isLoad = true ∨ p.isAtomic = true) (hkey : p.key = t.key)
    (htid : p.tid = t.tid) (hlaunch : p.launch = t.launch) (hdone : ∀ q ∈ qs, q.ofThread t = true → q.todo = [])
    (hatomic : p.isAtomic = true → ∀ q ∈ qs, q.isAtomic = true → q.gang ≠ p.gang) : NoneBefore qs p := fun q hq =>
  before_nil (not_isStore hkind) (fun hsame => hdone q hq (by
    unfold Pend.ofThread
    unfold Pend.sameThread at hsame
    rwa [hkey, htid, hlaunch] at hsame)) (fun hqa hpa => hatomic hpa q hq hqa) _

/-- Marking cells empty changes nothing else of a thread. -/
theorem markEmpty_eq (t : Thread) (i n : Nat) : t.markEmpty i n = { t with cells := (t.markEmpty i n).cells } := by
  obtain ⟨cs, he, -⟩ := CellsOnly.markEmpty t i n
  rw [he]

/-- What an access leaves of an issued thread's own: where it is, and that it is resident. -/
theorem issuedAs_place (s : State) (acc : Acc) (r : Reach) (p : Pend) : (issuedAs s acc r p).th.key = s.th.key ∧
    (issuedAs s acc r p).th.live = s.th.live ∧ (issuedAs s acc r p).th.tid = s.th.tid ∧ (issuedAs s acc r p).th.launch = s.th.launch := by
  obtain ⟨gs, -, hv⟩ := issuedAs_th s acc r p
  rw [hv, markEmpty_eq]
  exact ⟨rfl, rfl, rfl, rfl⟩

/-- A load or an atomic on a page of type 3 is performed and completes before the next instruction. -/
theorem strongOutcome_of_issue {i : Instr} {s s1 : State} {t : Thread} {acc : Acc} {r : Reach} {kind : PendKind} {cell n atom : Nat}
    {alone : State → Prop} {done : State → State → List Byte → Prop}
    (hstop : ∀ e, issueAccess s1 acc r kind cell n atom = .error e → StopsWith i s t e)
    (hdone : ∀ u, issueAccess s1 acc r kind cell n atom = .ok u → CompletesAs i s u) (hth : s1.th = t) (hspace : InSpace r) (hmt : r.mt = 3)
    (hkind : ∀ v : State, (v.newPend kind cell n atom r).isLoad = true ∨ (v.newPend kind cell n atom r).isAtomic = true)
    (halone : ∀ v : State, alone v → (v.newPend kind cell n atom r).isAtomic = true → ∀ q ∈ v.hw.pends, q.isAtomic = true → q.gang ≠ v.hw.gang)
    (hfill : ∀ (v u : State) (x : Pend) (gs : List Nat) (bs : List Byte),
      u.th = (({ t.markEmpty cell n with gangs := gs } : Thread).fill (v.newPend kind cell n atom r) bs).saw x → done v u bs) :
    StrongOutcome i s s1 t r alone done := by
  refine ⟨fun e he => hstop e (issueAccess_order_error hmt he), fun s2 hs2 hnum hpeer hlive => ?_⟩
  rw [issueAccess_strong hmt hs2 hpeer] at hstop hdone
  have hth2 : s2.th = t := (orderAll_th hs2).trans hth
  have hn : NewAccess (issuedAs s2 (kind.marks acc) r (s2.newPend kind cell n atom r)).hw s2.hw.pends (s2.newPend kind cell n atom r) :=
    newAccess_issued hnum rfl List.length_replicate hspace (hkind s2)
  obtain ⟨hvkey, hvlive, hvtid, hvlaunch⟩ := issuedAs_place s2 (kind.marks acc) r (s2.newPend kind cell n atom r)
  rcases finishNow_cases hn hmt rfl (by rw [hvlive, hth2, hlive]) hvkey.symm hvtid.symm hvlaunch.symm with ⟨ue, he⟩ | ⟨hbefore, he⟩ | ⟨u, bs, hu, hf⟩
  · exact .inl ⟨ue, hstop _ he⟩
  · refine .inr (.inl ⟨fun hal => hbefore ?_, hstop _ he⟩)
    refine noneBefore_of_performed (t := t) (hkind s2) (congrArg Thread.key hth2) (congrArg Thread.tid hth2) (congrArg Thread.launch hth2) ?_
      (halone s2 hal)
    rw [← hth]
    exact (orderAll_performed hs2).1
  · obtain ⟨x, hx⟩ := hf.th
    obtain ⟨gs, -, hv⟩ := issuedAs_th s2 (kind.marks acc) r (s2.newPend kind cell n atom r)
    have hl1 := hf.l1
    have hcon := hf.con
    rw [hvkey, hth2] at hl1 hcon
    rw [hv, hth2] at hx
    exact .inr (.inr ⟨u, bs, hdone u hu, hf.length, hfill s2 u x gs bs hx, hf.ids, hl1, hcon⟩)

end Sys2Proof.Proofs

/-!
Atomics are issued or performed (R36, R105, R179 to R182, R283).
-/
namespace Sys2Proof.Proofs
open Sys2Proof.Machine

/-! ### The new value (R179) -/

theorem intOf_signed {w x : Nat} (hx : x < 2 ^ w) : intOf w true x = if x < 2 ^ (w - 1) then (x : Int) else (x : Int) - 2 ^ w := by
  unfold intOf
  simp only [Nat.mod_eq_of_lt hx, Bool.true_and, decide_eq_true_eq]
  by_cases hlt : x < 2 ^ (w - 1)
  · rw [if_neg (Nat.not_le.2 hlt), if_pos hlt]
  · rw [if_pos (Nat.not_lt.1 hlt), if_neg hlt]
    push_cast
    rfl

theorem firstNan_nil {va vb : FVal} (ha : va.isNan = false) (hb : vb.isNan = false) : firstNan [va, vb] = none := by
  unfold firstNan
  rw [List.find?_cons, ha, List.find?_cons, hb]
  rfl

theorem arith_of_numbers {va vb : FVal} (ha : va.isNan = false) (hb : vb.isNan = false) (r : Option FVal) :
    (arith [va, vb] r).1 = r.getD FVal.dflt := by
  unfold arith
  rw [firstNan_nil ha hb]
  cases r with
  | none => rfl
  | some v => rfl

section
variable {n old b : Nat} (c : Nat) (hold : old < 2 ^ (8 * n)) (hb : b < 2 ^ (8 * n))

/-- A number of `w` bits as a signed one. -/
def signedOf (w x : Nat) : Int := if x < 2 ^ (w - 1) then (x : Int) else (x : Int) - 2 ^ w

include hb in
theorem amoNew_minN : amoNew .minN n old b c = min old b := by
  unfold amoNew
  dsimp only
  rw [Nat.mod_eq_of_lt hb]
  split
  · next h => exact (Nat.min_eq_right (Nat.le_of_lt h)).symm
  · next h => exact (Nat.min_eq_left (Nat.not_lt.1 h)).symm

include hb in
theorem amoNew_maxN : amoNew .maxN n old b c = max old b := by
  unfold amoNew
  dsimp only
  rw [Nat.mod_eq_of_lt hb]
  split
  · next h => exact (Nat.max_eq_right (Nat.le_of_lt h)).symm
  · next h => exact (Nat.max_eq_left (Nat.not_lt.1 h)).symm

include hold hb in
theorem amoNew_minI : (amoNew .minI n old b c = old ∨ amoNew .minI n old b c = b) ∧
    signedOf (8 * n) (amoNew .minI n old b c) = min (signedOf (8 * n) old) (signedOf (8 * n) b) := by
  unfold amoNew
  dsimp only
  rw [Nat.mod_eq_of_lt hb]
  have ha : intOf (8 * n) true old = signedOf (8 * n) old := intOf_signed hold
  have hb' : intOf (8 * n) true b = signedOf (8 * n) b := intOf_signed hb
  rw [ha, hb']
  split
  · next h => exact ⟨.inr rfl, (min_eq_right (le_of_lt h)).symm⟩
  · next h => exact ⟨.inl rfl, (min_eq_left (not_lt.1 h)).symm⟩

include hold hb in
theorem amoNew_maxI : (amoNew .maxI n old b c = old ∨ amoNew .maxI n old b c = b) ∧
    signedOf (8 * n) (amoNew .maxI n old b c) = max (signedOf (8 * n) old) (signedOf (8 * n) b) := by
  unfold amoNew
  dsimp only
  rw [Nat.mod_eq_of_lt hb]
  have ha : intOf (8 * n) true old = signedOf (8 * n) old := intOf_signed hold
  have hb' : intOf (8 * n) true b = signedOf (8 * n) b := intOf_signed hb
  rw [ha, hb']
  split
  · next h => exact ⟨.inr rfl, (max_eq_right (le_of_lt h)).symm⟩
  · next h => exact ⟨.inl rfl, (max_eq_left (not_lt.1 h)).symm⟩

theorem amoNew_fadd (hb : b < 2 ^ (8 * n)) (hoNan : (fmtF32.decode old).isNan = false) (hbNan : (fmtF32.decode b).isNan = false) :
    amoNew .fadd n old b c = (fmtF32.place .rne ((addVal .rne (fmtF32.decode old) (fmtF32.decode b)).getD FVal.dflt)).1 := by
  unfold amoNew
  dsimp only
  rw [Nat.mod_eq_of_lt hb, arith_of_numbers hoNan hbNan]

end

/-! ### Issuing (R180 to R182) -/

theorem needAll_full {t : Thread} {xs : List Source} (h : t.sourcesFull xs) (ep : Bool) : t.needAll ep xs = .ok () := by
  have hnone : t.empties xs = [] := by
    refine List.filterMap_eq_nil_iff.2 fun x hx => ?_
    rw [(t.firstEmpty_none _ _).2 (h x hx)]
    rfl
  unfold Thread.needAll
  rw [hnone]
  rfl

theorem releaseFirst_th {s s' : State} {scope : Nat} {mod : BitVec 5} (h : releaseFirst s scope mod = .ok s') : s'.th = s.th := by
  unfold releaseFirst at h
  split at h
  · cases h; rfl
  · split at h
    · exact orderAll_th h
    · split at h
      · unfold orderCrew at h
        cases hf : flush s with
        | error e => rw [hf] at h; cases h
        | ok u =>
          rw [hf] at h
          cases h
          exact (flush_th hf :)
      · exact orderCore_th h

theorem exec_amoTable (o : LaneOps) (s : State) : ∀ x ∈ amoTable o, exec x.1 s = amo x.1 o x.2.1 x.2.2 s := by
  unfold amoTable
  simp only [List.forall_mem_cons]
  exact ⟨rfl, rfl, rfl, rfl, rfl, rfl, rfl, rfl, rfl, rfl, rfl, rfl, rfl, rfl, rfl, by simp⟩

theorem scopeOf_eq (s : State) (scope : Nat) : s.scopeOf scope = if scope = 2 ∧ s.th.crew = 0 then 1 else scope := by
  unfold State.scopeOf
  simp only [Bool.and_eq_true, beq_iff_eq]

/-- The parts of an atomic: how far it orders, whether it acquires and discards, and the access that it issues. -/
structure AmoParts where
  scope : Nat
  acquire : Bool
  kind : PendKind

/-- The parts of an atomic of a thread at what it reaches. -/
def amoParts (t : Thread) (o : LaneOps) (op : AmoOp) (n : Nat) (r : Reach) : AmoParts :=
  let named := if r.beyond then 4 else (amoScope t.mode o.mod).1
  let scope := if named = 2 ∧ t.crew = 0 then 1 else named
  let acquire := (r.mt == 3 || o.mod[3]) && scope != 1
  ⟨scope, acquire, .atomic op n (t.amoB o (n / 4)) (if op = .cas then BitVec.ofNat 128 (t.cellsNat o.c.toNat (n / 4)) else 0)
    (o.mod.extractLsb' 3 2) (acquire && (scope == 0 || scope == 4))⟩

/-- What follows the order that an atomic's release asks. -/
def amoIssue (s : State) (o : LaneOps) (n : Nat) (r : Reach) (a : AmoParts) : Except Stop State := do
  let id := s.hw.nextId
  let s ← issueAccess s .atomic r a.kind o.d.toNat (n / 4) n
  if a.acquire && r.mt != 3 then (performNow s id).map fun s => forget s fun p => p != 1 else .ok s

/-- An atomic as its checks, its release and its issue. -/
def amoBody (o : LaneOps) (op : AmoOp) (n : Nat) (s : State) : Except Stop State := do
  s.th.needAll o.ep (srcB o (n / 4) ++ if op = .cas then srcC o (n / 4) else [])
  let r ← reachAmo s (amoScope s.th.mode o.mod).2 n (s.th.sreg o.a.toNat)
  s.th.needFree o.d.toNat (n / 4)
  let a := amoParts s.th o op n r
  let s ← releaseFirst s a.scope o.mod
  amoIssue s o n r a

theorem amo_eq (i : Instr) (o : LaneOps) (op : AmoOp) (n : Nat) (s : State) : amo i o op n s = run i s (amoBody o op n) := by
  unfold amo
  refine congrArg (run i s) (funext fun s => ?_)
  unfold amoBody amoParts amoIssue amoAcquire
  simp only [beq_iff_eq, scopeOf_eq]
  rfl

section
variable {o : LaneOps} {s s1 : State} {t : Thread} {r : Reach} {i : Instr} {op : AmoOp} {n : Nat}

theorem amoBody_misaligned (hfull : t.sourcesFull (srcB o (n / 4) ++ if op = .cas then srcC o (n / 4) else []))
    (hmis : (t.sreg o.a.toNat).toNat % n ≠ 0) : amoBody o op n (s.setTh t) = .error (permFault .atomic (t.sreg o.a.toNat)) := by
  have hreach (scr : Bool) : reachAmo (s.setTh t) scr n (t.sreg o.a.toNat) = .error (permFault .atomic (t.sreg o.a.toNat)) :=
    if_pos (bne_iff_ne.2 hmis)
  unfold amoBody
  simp only [State.setTh_th, needAll_full hfull, ok_bind, hreach, error_bind]

theorem amoBody_released (hfull : t.sourcesFull (srcB o (n / 4) ++ if op = .cas then srcC o (n / 4) else []))
    (hreach : reachAmo (s.setTh t) (amoScope t.mode o.mod).2 n (t.sreg o.a.toNat) = .ok r) (hfree : t.fullAt o.d.toNat (n / 4))
    (hrel : releaseFirst (s.setTh t) (amoParts t o op n r).scope o.mod = .ok s1) :
    amoBody o op n (s.setTh t) = amoIssue s1 o n r (amoParts t o op n r) := by
  unfold amoBody
  simp only [State.setTh_th, needAll_full hfull, ok_bind, hreach, t.needFree_ok _ _ hfree, hrel]

theorem marks_atomic (b c : BitVec 128) (order : BitVec 2) (discard : Bool) :
    (PendKind.atomic op n b c order discard).marks .atomic = if op = .cas then .load else .atomic := by
  cases op <;> rfl

end

section
variable {o : LaneOps} {s1 : State} {r : Reach} {n : Nat} (a : AmoParts)

theorem amoIssue_issued (hmt : r.mt < 3) (hacq : a.acquire = false) :
    amoIssue s1 o n r a = .ok (issuedAs s1 (a.kind.marks .atomic) r (s1.newPend a.kind o.d.toNat (n / 4) n r)) := by
  unfold amoIssue
  rw [issueAccess_early hmt, ok_bind, hacq]
  rfl

theorem amoIssue_acquired (hmt : r.mt < 3) (hacq : a.acquire = true) : amoIssue s1 o n r a =
    (performNow (issuedAs s1 (a.kind.marks .atomic) r (s1.newPend a.kind o.d.toNat (n / 4) n r)) s1.hw.nextId).map
      fun s => forget s fun p => p != 1 := by
  have hne : (r.mt != 3) = true := bne_iff_ne.2 (by omega)
  unfold amoIssue
  rw [issueAccess_early hmt, ok_bind, hacq, hne]
  rfl

theorem amoIssue_strong (hmt : r.mt = 3) : amoIssue s1 o n r a = issueAccess s1 .atomic r a.kind o.d.toNat (n / 4) n := by
  have heq : (r.mt != 3) = false := bne_eq_false_iff_eq.2 hmt
  unfold amoIssue
  rw [heq, Bool.and_false]
  cases issueAccess s1 .atomic r a.kind o.d.toNat (n / 4) n with
  | error e => rfl
  | ok u => rfl

end

theorem saw_cells (t : Thread) (p : Pend) : (t.saw p).cells = t.cells := by
  obtain ⟨sees, conRead, h⟩ := saw_eq t p
  rw [h]

/-- Settles O33: an atomic by its checks, its release, its issue and, on a page of type 3, its completion; and the table of new values. -/
theorem atomicsBecomeOutstanding : Obligations.AtomicsBecomeOutstanding := by
  refine ⟨fun o s s1 t r x hx hentered hfull => ?_, fun n old b c hn hold hb hc => ?_⟩
  · have hexec := (exec_amoTable o s x hx).trans (amo_eq x.1 o x.2.1 x.2.2 s)
    refine ⟨fun hmis => stopsWith_of_run hexec hentered (amoBody_misaligned hfull hmis), fun hreach hfree hrel => ?_⟩
    have hbody := amoBody_released hfull hreach hfree hrel
    have hdone (u : State) (h : amoIssue s1 o x.2.2 r (amoParts t o x.2.1 x.2.2 r) = .ok u) : CompletesAs x.1 s u :=
      completesAs_of_run hexec hentered (hbody.trans h)
    have hstop (e : Stop) (h : amoIssue s1 o x.2.2 r (amoParts t o x.2.1 x.2.2 r) = .error e) : StopsWith x.1 s t e :=
      stopsWith_of_run hexec hentered (hbody.trans h)
    refine ⟨fun hmt hacq => ?_, fun hmt hacq => ?_, fun hmt => ?_⟩
    · have h := amoIssue_issued (o := o) (s1 := s1) (n := x.2.2) (amoParts t o x.2.1 x.2.2 r) hmt hacq
      rw [show (amoParts t o x.2.1 x.2.2 r).kind.marks .atomic = _ from marks_atomic ..] at h
      exact hdone _ h
    · have h := amoIssue_acquired (o := o) (s1 := s1) (n := x.2.2) (amoParts t o x.2.1 x.2.2 r) hmt hacq
      rw [show (amoParts t o x.2.1 x.2.2 r).kind.marks .atomic = _ from marks_atomic ..] at h
      refine ⟨fun u hu => hdone _ (h.trans ?_), fun e he => hstop e (h.trans ?_)⟩
      · exact congrArg (Except.map fun s => forget s fun p => p != 1) hu
      · exact congrArg (Except.map fun s => forget s fun p => p != 1) he
    · rw [amoIssue_strong _ hmt] at hdone hstop
      refine strongOutcome_of_issue hstop hdone (releaseFirst_th hrel) (reachAmo_inSpace hreach).1 hmt (fun _ => .inr rfl) (fun v h _ => h)
        fun v u y gs bs hu => ?_
      rw [hu, saw_cells]
      exact fillPlain_congr (t := t.markEmpty o.d.toNat (x.2.2 / 4)) (u := { t.markEmpty o.d.toNat (x.2.2 / 4) with gangs := gs }) rfl ..
  · have hadd : amoNew .add n old b c = (old + b) % 2 ^ (8 * n) := by
      unfold amoNew
      simp
    have hmod := Nat.mod_eq_of_lt hb
    refine ⟨hadd, (amoNew_minI c hold hb).1, (amoNew_minI c hold hb).2, (amoNew_maxI c hold hb).1, (amoNew_maxI c hold hb).2,
      amoNew_minN c hb, amoNew_maxN c hb, congrArg (old &&& ·) hmod, congrArg (old ||| ·) hmod, congrArg (old ^^^ ·) hmod, hmod, ?_,
      fun _ ho hnan => amoNew_fadd c hb ho hnan⟩
    show (if old = b % 2 ^ (8 * n) then c % 2 ^ (8 * n) else old) = _
    rw [hmod, Nat.mod_eq_of_lt hc]

end Sys2Proof.Proofs

/-!
Loads are issued (R36, R172, R178, R225, R226, R283).
-/
namespace Sys2Proof.Proofs
open Sys2Proof.Machine

/-! ### An access that has become outstanding -/

/-- A load of thread `t` has been issued from `v`: what becomes outstanding, which cells are empty, and what stays. -/
def LoadIssued (t : Thread) (v u : State) (r : Reach) (p : Pend) (cell n : Nat) : Prop :=
  IssuedPend v u t r p ∧ p.cell = cell ∧ p.ncells = n ∧ u.th.cells = (t.markEmpty cell n).cells ∧ u.th.sregs = t.sregs ∧
  u.th.preds = t.preds ∧ u.th.fcsr = t.fcsr ∧ u.th.xflags = t.xflags ∧ t.sameSystem u.th ∧ (v.canonical → SameMemoryBut (pteKeys r.xs) v u)

/-- A thread differs from another in its place in the program and in what it waits for. -/
def SameButWait (t u : Thread) : Prop := ∃ pc wait charged latch dmr,
  u = { t with pc := pc, wait := wait, charged := charged, latch := latch, dmrMiss := dmr }

/-- What an access that is issued says of itself: whose it is, and what it reaches. -/
structure IsAccess (v : State) (r : Reach) (p : Pend) : Prop where
  key : p.key = v.th.key
  tid : p.tid = v.th.tid
  launch : p.launch = v.th.launch
  ip : p.ip = v.th.pc
  ea : p.ea = r.ea
  gang : p.gang = v.hw.gang
  locs : p.locs = r.locs
  mts : p.mts = r.mts
  route : p.route = r.route

theorem isAccess_newPend (v : State) (r : Reach) (kind : PendKind) (cell n atom : Nat) : IsAccess v r (v.newPend kind cell n atom r) :=
  ⟨rfl, rfl, rfl, rfl, rfl, rfl, rfl, rfl, rfl⟩

theorem loadIssued_of {v u : State} {t : Thread} {acc : Acc} {r : Reach} {p : Pend} (hth : v.th = t) (hp : IsAccess v r p)
    (hhw : u.hw = (issuedAs v acc r p).hw) (hu : SameButWait (issuedAs v acc r p).th u.th) :
    LoadIssued t v u r p p.cell p.ncells ∧ v.hw.gang ∈ u.th.gangs := by
  subst hth
  obtain ⟨gs, hgs, hv⟩ := issuedAs_th v acc r p
  obtain ⟨pc, wait, charged, latch, dmr, hu⟩ := hu
  rw [hv, markEmpty_eq] at hu
  have hpends := issuedAs_pends v acc r p
  rw [← hhw] at hpends
  have hmem : v.canonical → SameMemoryBut (pteKeys r.xs) v u := fun hc k hk => by
    rw [hhw]
    exact issuedAs_memory v acc r _ hc k hk
  have hsystem : v.th.sameSystem u.th := by
    unfold Thread.sameSystem
    rw [hu]
    exact ⟨rfl, rfl, rfl, rfl, rfl, rfl, rfl, rfl, rfl, rfl, rfl, rfl, rfl, rfl, rfl, rfl, rfl, rfl, rfl, rfl, rfl, rfl, rfl⟩
  exact ⟨⟨⟨hpends, hp.key, hp.tid, hp.launch, hp.ip, hp.ea, hp.gang, hp.locs, hp.mts, hp.route⟩, rfl, rfl, by rw [hu], by rw [hu], by rw [hu],
    by rw [hu], by rw [hu], hsystem, hmem⟩, by rw [hu]; exact hgs⟩

theorem issuedAs_pc (v : State) (acc : Acc) (r : Reach) (p : Pend) : (issuedAs v acc r p).th.pc = v.th.pc := by
  obtain ⟨gs, -, hv⟩ := issuedAs_th v acc r p
  rw [hv, markEmpty_eq]

theorem past_issued_pc (v : State) (acc : Acc) (r : Reach) (p : Pend) (len : Nat) :
    ((issuedAs v acc r p).th.past len).pc = v.th.pc + BitVec.ofNat 64 len := congrArg (· + BitVec.ofNat 64 len) (issuedAs_pc v acc r p)

theorem sameButWait_past (t : Thread) (len : Nat) : SameButWait t (t.past len) := ⟨_, _, _, _, _, rfl⟩

/-! ### LD and SLD (R172, R178) -/

theorem exec_ld (k : BitVec 2) (o : LaneOps) (s : State) : exec (.ld k o) s = execLd k o s := rfl
theorem exec_sld (k : BitVec 3) (o : ScalarOps) (s : State) : exec (.sld k o) s = execSld k o s := rfl
theorem exec_xld (k : BitVec 2) (o : LaneOps) (s : State) : exec (.xld k o) s = execXld k o s := rfl

section
variable {k : BitVec 2} {o : LaneOps} {s : State} {t : Thread} {r : Reach}

/-- An LD whose sources are full and whose access passes its checks comes to the issue of its load. -/
theorem ldBody_eq (hfull : t.sourcesFull (srcB o 1)) (hreach : reach (s.setTh t) .load k.toNat (t.laneEa o) (widthBytes o.mod) = .ok r)
    (hfree : t.fullAt o.d.toNat (widthCells o.mod)) : (do
      (s.setTh t).th.needB o 1
      let r ← reach (s.setTh t) .load k.toNat ((s.setTh t).th.laneEa o) (widthBytes o.mod)
      (s.setTh t).th.needFree o.d.toNat (widthCells o.mod)
      issueLoad (s.setTh t) r (.load o.mod) o.d.toNat (widthCells o.mod)) =
    issueAccess (s.setTh t) .load r (.load o.mod) o.d.toNat (widthCells o.mod) (atomOf r.ea (widthBytes o.mod)) := by
  unfold Thread.needB issueLoad
  simp only [State.setTh_th, needAll_full hfull, ok_bind, hreach, t.needFree_ok _ _ hfree, (reach_inSpace hreach).2]

theorem ld_issues (hent : Entered (.ld k o) s t) (hfull : t.sourcesFull (srcB o 1)) (hfree : t.fullAt o.d.toNat (widthCells o.mod))
    (hreach : reach (s.setTh t) .load k.toNat (t.laneEa o) (widthBytes o.mod) = .ok r) (hmt : r.mt < 3) :
    ∃ u p, exec (.ld k o) s = .next u ∧ LoadIssued t s u r p o.d.toNat (widthCells o.mod) ∧ p.kind = .load o.mod ∧
      p.atom = atomOf r.ea (widthBytes o.mod) ∧ p.got = List.replicate (widthBytes o.mod) none ∧ u.th.wait = .none ∧
      u.th.pc = t.pc + BitVec.ofNat 64 (Instr.ld k o).length := by
  have hdone := completesAs_of_run (exec_ld k o s) hent ((ldBody_eq hfull hreach hfree).trans (issueAccess_early hmt))
  refine ⟨(issuedAs (s.setTh t) .load r _).advance (Instr.ld k o).length, (s.setTh t).newPend (.load o.mod) o.d.toNat (widthCells o.mod) (atomOf r.ea (widthBytes o.mod)) r, hdone,
    (loadIssued_of (v := s.setTh t) (u := (issuedAs (s.setTh t) .load r _).advance (Instr.ld k o).length) rfl (isAccess_newPend ..) rfl
      (sameButWait_past ..)).1, rfl, rfl, congrArg (List.replicate · none) (reach_inSpace hreach).2, rfl,
    past_issued_pc (s.setTh t) ..⟩

theorem ld_strong (hent : Entered (.ld k o) s t) (hfull : t.sourcesFull (srcB o 1)) (hfree : t.fullAt o.d.toNat (widthCells o.mod))
    (hreach : reach (s.setTh t) .load k.toNat (t.laneEa o) (widthBytes o.mod) = .ok r) (hmt : r.mt = 3) :
    StrongOutcome (.ld k o) s (s.setTh t) t r (fun _ => True) fun _ u bs =>
      u.th.cells = ((t.markEmpty o.d.toNat (widthCells o.mod)).fillPlain o.d.toNat (widthCells o.mod) (loadWords o.mod bs)).cells := by
  have hbody := ldBody_eq hfull hreach hfree
  refine strongOutcome_of_issue (fun e he => stopsWith_of_run (exec_ld k o s) hent (hbody.trans he))
    (fun u hu => completesAs_of_run (exec_ld k o s) hent (hbody.trans hu)) rfl (reach_inSpace hreach).1 hmt (fun _ => .inl rfl)
    (fun v _ ha => by cases ha) fun v u x gs bs hu => ?_
  rw [hu, saw_cells]
  exact fillPlain_congr (t := t.markEmpty o.d.toNat (widthCells o.mod)) (u := { t.markEmpty o.d.toNat (widthCells o.mod) with gangs := gs }) rfl ..

end

section
variable {k : BitVec 3} {o : ScalarOps} {s : State} {t : Thread} {r : Reach}

/-- The thread is held at its instruction for the data of its load. -/
def heldForData (len : Nat) (s : State) : State := (s.setTh { s.th with latch := some (BitVec.ofNat 32 len) }).hold .scalarLoad

theorem heldForData_same (len : Nat) (s : State) : (heldForData len s).hw = s.hw ∧ SameButWait s.th (heldForData len s).th ∧
    (∃ n, (heldForData len s).th.wait = .held .scalarLoad n) ∧ (heldForData len s).th.pc = s.th.pc := ⟨rfl, ⟨_, _, _, _, _, rfl⟩, ⟨_, rfl⟩, rfl⟩

/-- An SLD as the issue of its load, after which its thread is held, or, on a page of type 3, goes on. -/
def sldAfter (k : BitVec 3) (o : ScalarOps) (r : Reach) (s : State) : State :=
  if r.mt == 3 then s.advance (Instr.sld k o).length
  else heldForData (Instr.sld k o).length s

/-- The body of an SLD. -/
def sldBody (k : BitVec 3) (o : ScalarOps) (s : State) : Except Stop State := do
  let r ← reach s .load (scalarSpace o) (s.th.scalarEa o) (sldSize k).1
  (issueLoad s r (.sload (o.d.extractLsb' 0 5) (sldSize k).1 (sldSize k).2) 0 0).map (sldAfter k o r)

theorem exec_sld_run (k : BitVec 3) (o : ScalarOps) (s : State) : exec (.sld k o) s = runHeld (.sld k o) s (sldBody k o) := by
  rw [exec_sld]
  unfold execSld sldBody sldAfter
  refine congrArg (runHeld (.sld k o) s) (funext fun s => ?_)
  dsimp only
  cases reach s .load (scalarSpace o) (s.th.scalarEa o) (sldSize k).1 with
  | error e => rfl
  | ok r =>
    rw [ok_bind, ok_bind]
    cases issueLoad s r (.sload (o.d.extractLsb' 0 5) (sldSize k).1 (sldSize k).2) 0 0 with
    | error e => rfl
    | ok u =>
      rw [ok_bind]
      dsimp only [Except.map]
      split
      · rfl
      · rfl

theorem sldBody_eq (hreach : reach (s.setTh t) .load (scalarSpace o) (t.scalarEa o) (sldSize k).1 = .ok r) : sldBody k o (s.setTh t) =
    (issueAccess (s.setTh t) .load r (.sload (o.d.extractLsb' 0 5) (sldSize k).1 (sldSize k).2) 0 0
      (atomOf r.ea r.locs.length)).map (sldAfter k o r) := by
  unfold sldBody issueLoad
  simp only [State.setTh_th, hreach, ok_bind]

theorem sld_issues (hent : Entered (.sld k o) s t) (hreach : reach (s.setTh t) .load (scalarSpace o) (t.scalarEa o) (sldSize k).1 = .ok r)
    (hmt : r.mt < 3) : ∃ u p, exec (.sld k o) s = .next u ∧ LoadIssued t s u r p 0 0 ∧
      p.kind = .sload (o.d.extractLsb' 0 5) (sldSize k).1 (sldSize k).2 ∧ p.got = List.replicate (sldSize k).1 none ∧
      (∃ n, u.th.wait = .held .scalarLoad n) ∧ u.th.pc = t.pc := by
  have hne : (r.mt == 3) = false := beq_eq_false_iff_ne.2 (by omega)
  have hdone := (exec_sld_run k o s).trans (runHeld_ok hent ((sldBody_eq hreach).trans (congrArg (Except.map (sldAfter k o r)) (issueAccess_early hmt))))
  have hafter (u : State) : sldAfter k o r u = heldForData (Instr.sld k o).length u := if_neg (Bool.eq_false_iff.1 hne)
  rw [hafter] at hdone
  generalize hp : (s.setTh t).newPend (.sload (o.d.extractLsb' 0 5) (sldSize k).1 (sldSize k).2) 0 0 (atomOf r.ea r.locs.length) r = p at hdone
  obtain ⟨hhw, hsame, hheld, hpc⟩ := heldForData_same (Instr.sld k o).length (issuedAs (s.setTh t) .load r p)
  have hissued := (loadIssued_of (v := s.setTh t) rfl (by rw [← hp]; exact isAccess_newPend ..) hhw hsame).1
  refine ⟨_, p, hdone, ?_, by rw [← hp]; rfl, ?_, hheld, hpc.trans (issuedAs_pc ..)⟩
  · rw [← hp] at hissued ⊢
    exact hissued
  · rw [← hp]
    exact congrArg (List.replicate · none) (reach_inSpace hreach).2

theorem sld_strong (hent : Entered (.sld k o) s t) (hreach : reach (s.setTh t) .load (scalarSpace o) (t.scalarEa o) (sldSize k).1 = .ok r)
    (hmt : r.mt = 3) : StrongOutcome (.sld k o) s (s.setTh t) t r (fun _ => True) fun _ u bs =>
      u.th.cells = t.cells ∧ u.th.sregs = (t.setSreg (o.d.extractLsb' 0 5).toNat (scalarOf (sldSize k).1 (sldSize k).2 bs)).sregs := by
  have hbody := sldBody_eq hreach
  have hafter (u : State) : sldAfter k o r u = u.advance (Instr.sld k o).length := if_pos (beq_iff_eq.2 hmt)
  refine strongOutcome_of_issue (fun e he => (exec_sld_run k o s).trans (runHeld_error hent (hbody.trans (by rw [he]; rfl))))
    (fun u hu => (exec_sld_run k o s).trans (runHeld_ok hent (hbody.trans (by rw [hu, ← hafter]; rfl)))) rfl (reach_inSpace hreach).1 hmt
    (fun _ => .inl rfl) (fun v _ ha => by cases ha) fun v u x gs bs hu => ?_
  obtain ⟨sees, conRead, hsaw⟩ := saw_eq (({ t.markEmpty 0 0 with gangs := gs } : Thread).fill
    (v.newPend (.sload (o.d.extractLsb' 0 5) (sldSize k).1 (sldSize k).2) 0 0 (atomOf r.ea r.locs.length) r) bs) x
  rw [hu, hsaw]
  exact ⟨rfl, rfl⟩

end

end Sys2Proof.Proofs

/-!
XLD (R225, R226): the 8-byte unit that is read at issue, and the load of the element.
-/
namespace Sys2Proof.Proofs
open Sys2Proof.Machine

/-! ### The unit of the first byte -/

/-- What an access of one byte reaches: a place in the scratchpad, or a translated byte. -/
inductive OneByte (r : Reach) : Prop
  | scr (o : Nat) (h : r = ⟨[.scr o], .scratch, []⟩)
  | phys (x : DWord × Nat × TlbEntry) (route : Route) (hroute : route ≠ .scratch) (h : r = ⟨[.phys x.2.1], route, [x]⟩)

theorem reachScr_oneByte {s : State} {acc : Acc} {base size : Nat} {off : DWord} {r : Reach} (h : reachScr s acc base size off 1 = .ok r) :
    OneByte r := by
  unfold reachScr at h
  split at h
  · cases h
  · dsimp only at h
    split at h
    · cases h
    · cases h
      exact .scr _ rfl

theorem reachGen_oneByte {s : State} {acc : Acc} {con : Bool} {ea : DWord} {r : Reach} (h : reachGen s acc con ea 1 = .ok r) : OneByte r := by
  unfold reachGen at h
  split at h
  · cases h
  · next xs hxs =>
    obtain ⟨x, rfl⟩ := List.length_eq_one_iff.1 (checkGen_length hxs)
    dsimp only at h
    cases h
    refine iteInduction (motive := OneByte) (fun _ => .phys x _ ?_ rfl) (fun _ => .phys x _ ?_ rfl)
    · cases con <;> simp
    · cases con <;> simp

theorem reach_oneByte {s : State} {acc : Acc} {space : Nat} {ea : DWord} {r : Reach} (h : reach s acc space ea 1 = .ok r) : OneByte r := by
  unfold reach at h
  split at h
  · split at h
    · exact reachScr_oneByte h
    · cases h
    · split at h
      · exact reachGen_oneByte h
      · cases h
  · split at h
    · exact reachGen_oneByte h
    · exact reachScr_oneByte h
    · exact reachGen_oneByte h
    · cases h

theorem extend_scr (o m : Nat) : (⟨[.scr o], .scratch, []⟩ : Reach).extend m = ⟨(List.range m).map fun i => .scr (o + i), .scratch, []⟩ := by
  simp [Reach.extend]

theorem extend_phys (x : DWord × Nat × TlbEntry) (route : Route) (m : Nat) : (⟨[.phys x.2.1], route, [x]⟩ : Reach).extend m =
    ⟨(List.range m).map fun i => .phys (x.2.1 + i), route, (List.range m).map fun i => (x.1 + BitVec.ofNat 64 i, x.2.1 + i, x.2.2)⟩ := by
  simp [Reach.extend]

theorem head?_map_range {α : Type} (f : Nat → α) {m : Nat} (hm : 0 < m) : ((List.range m).map f).head? = some (f 0) := by
  obtain ⟨k, rfl⟩ := Nat.exists_eq_succ_of_ne_zero (Nat.pos_iff_ne_zero.1 hm)
  rw [List.range_succ_eq_map]
  rfl

section
variable {r : Reach} (h : OneByte r) {m : Nat} (hm : 0 < m)
include h

theorem OneByte.extend_inSpace : InSpace (r.extend m) ∧ (r.extend m).locs.length = m := by
  cases h with
  | scr o h =>
    subst h
    rw [extend_scr]
    exact ⟨fun l hl => iff_of_true rfl (by obtain ⟨i, -, rfl⟩ := List.mem_map.1 hl; exact ⟨_, rfl⟩), by simp⟩
  | phys x route hroute h =>
    subst h
    rw [extend_phys]
    refine ⟨fun l hl => iff_of_false hroute fun ⟨o, ho⟩ => ?_, by simp⟩
    obtain ⟨i, -, rfl⟩ := List.mem_map.1 hl
    cases ho

include hm in
theorem OneByte.extend_ea : (r.extend m).ea = r.ea := by
  cases h with
  | scr o h =>
    subst h
    rw [extend_scr]
    unfold Reach.ea
    dsimp only
    rw [head?_map_range _ hm]
    rfl
  | phys x route hroute h =>
    subst h
    rw [extend_phys]
    unfold Reach.ea
    dsimp only
    rw [head?_map_range _ hm]
    exact BitVec.add_zero _

end

/-- The bytes up to the end of an aligned 8-byte unit are one unit. -/
theorem units_of_extend {s : State} {r : Reach} (h : OneByte r) (kind : PendKind) (cell n : Nat) :
    ∀ i ∈ (s.newPend kind cell n 8 (r.extend (8 - r.ea.toNat % 8))).todo,
      (s.newPend kind cell n 8 (r.extend (8 - r.ea.toNat % 8))).unitOf i = r.ea.toNat / 8 := fun i hi => by
  have hlt : i < (r.extend (8 - r.ea.toNat % 8)).locs.length := (mem_todo.1 hi).1
  rw [h.extend_inSpace.2] at hlt
  have hea : (r.extend (8 - r.ea.toNat % 8)).ea = r.ea := h.extend_ea (by omega)
  show ((r.extend (8 - r.ea.toNat % 8)).ea.toNat + i) / max 1 8 = _
  rw [hea, show max 1 8 = 8 from rfl]
  omega

/-! ### Reading at once -/

/-- A read at once is one access, performed and then over. -/
theorem readNow_ok {s s' : State} {r : Reach} {atom : Nat} {p1 : Pend} (h : readNow s r atom = .ok (p1, s')) :
    ∃ w, performNow (s.issuePend (s.newPend (.load 0) 0 0 atom r)) s.hw.nextId = .ok w ∧ s' = dropPend w s.hw.nextId := by
  unfold readNow at h
  cases hw : performNow (s.issuePend (s.newPend (.load 0) 0 0 atom r)) s.hw.nextId with
  | error e =>
    dsimp only at h
    rw [hw] at h
    cases h
  | ok w =>
    dsimp only at h
    rw [hw] at h
    cases h
    exact ⟨w, rfl, rfl⟩

/-- What is outstanding after a read at once was so before it, or has gone on. -/
theorem readNow_pends {s s' : State} {r : Reach} {atom : Nat} {p1 : Pend} (h : readNow s r atom = .ok (p1, s')) :
    ∀ q' ∈ s'.hw.pends, ∃ q ∈ s.hw.pends, GoneOn q q' := by
  obtain ⟨w, hw, rfl⟩ := readNow_ok h
  intro q' hq'
  obtain ⟨hq', hne⟩ := List.mem_filter.1 hq'
  have hfrom : PendsFrom (s.issuePend (s.newPend (.load 0) 0 0 atom r)).hw w.hw := by
    rw [unlessConsumed_ok hw]
    dsimp only [State.mapHw]
    split
    · exact .perform ..
    · exact .of_eq rfl
  obtain ⟨q, hq, hgone⟩ := hfrom.origin q' hq'
  have hid := pendStill_id hgone.1
  rcases List.mem_append.1 (hq : q ∈ s.hw.pends ++ [_]) with hq | hq
  · exact ⟨q, hq, hgone⟩
  · rw [List.mem_singleton] at hq
    subst hq
    rw [hid] at hne
    simp [State.newPend] at hne

theorem drainOutKeys_mem_of_empty {h : Hw} {part core : Nat} (hempty : ∀ o ∈ (h.ctx part core).outq, o.bytes = []) (ks : List Nat) :
    (drainOutKeys h part core ks).mem = h.mem := by
  rw [← drainOutKeys_nil_mem h part core]
  have hnone (ks : List Nat) : ((h.ctx part core).outq.filter fun o => o.bytes.any fun x => ks.contains x.1) = [] :=
    List.filter_eq_nil_iff.2 fun o ho => by simp [hempty o ho]
  unfold drainOutKeys
  rw [hnone, hnone]

/-- A unit of an access that waits for a peer is not performed, where nothing comes before it. -/
theorem performUnit_held {h : Hw} {p : Pend} (hfind : h.pends.find? (fun q => q.id == p.id) = some p) (hstore : p.isStore = false)
    (hfirst : ∀ q ∈ h.pends, q ≠ p → q.before p p.locs = []) (hheld : h.heldByPeer p.id = true) (first : Hw → Nat → List Nat → Hw) (u : Nat) :
    performUnit first false h p.id u = h := by
  unfold performUnit
  rw [hfind]
  dsimp only
  rw [hstore]
  simp only [Bool.false_eq_true, if_false]
  rw [dueBefore_nil hfirst [u], List.foldl_nil]
  simp [hheld]

theorem perform_held {h : Hw} {p : Pend} (hfind : h.pends.find? (fun q => q.id == p.id) = some p) (hstore : p.isStore = false)
    (hfirst : ∀ q ∈ h.pends, q ≠ p → q.before p p.locs = []) (hheld : h.heldByPeer p.id = true) : perform h p = h := by
  rw [perform_eq hfind]
  induction p.units with
  | nil => rfl
  | cons u us ih => rw [List.foldl_cons, performUnit_held hfind hstore hfirst hheld, ih]

theorem nub_const {α : Type} [DecidableEq α] {xs : List α} {u : α} (h : ∀ x ∈ xs, x = u) (hne : xs ≠ []) : nub xs = [u] := by
  induction xs with
  | nil => exact absurd rfl hne
  | cons x xs ih =>
    have hx := h x List.mem_cons_self
    subst hx
    unfold nub
    by_cases hxs : xs = []
    · subst hxs
      rfl
    · rw [ih (fun y hy => h y (List.mem_cons_of_mem _ hy)) hxs]
      simp

/-- A load of one unit changes no memory where its core has no stores under way. -/
theorem perform_load_mem {h : Hw} {p : Pend} (ha : Alone h p) (hload : p.isLoad = true) (hgot : p.got = List.replicate p.locs.length none)
    {u : Nat} (hunit : ∀ i ∈ p.todo, p.unitOf i = u) (hout : ∀ o ∈ (h.ctx p.key.part p.key.core).outq, o.bytes = []) :
    (perform h p).mem = h.mem := by
  by_cases hnone : p.todo = []
  · have hunits : p.units = [] := by
      unfold Pend.units
      rw [hnone]
      rfl
    rw [perform_eq ha.find, hunits, List.foldl_nil]
  · have hunits : p.units = [u] := by
      refine nub_const (fun x hx => ?_) (by simpa using hnone)
      obtain ⟨i, hi, rfl⟩ := List.mem_map.1 hx
      exact hunit i hi
    rw [perform_load_whole ha hload hgot hunits]
    obtain ⟨g, bs, sees, he, -, -, hread⟩ := performRead_reads h p (List.range p.locs.length) ha.space
    rw [he, mark_mem]
    rcases hread with ⟨-, hmem⟩ | ⟨-, hmem, -⟩
    · rw [hmem]
      obtain ⟨a, hctx⟩ := ctx_accessAhead h p.key p.route p.locs p.key.part p.key.core
      have hempty : ∀ o ∈ ((accessAhead h p.key p.route p.locs).ctx p.key.part p.key.core).outq, o.bytes = [] := by
        rw [hctx]
        exact hout
      unfold beforeRead
      split
      · exact drainOutKeys_mem_of_empty hempty _
      · exact drainOutKeys_mem_of_empty hempty _
      · rfl
    · exact hmem

/-- A read at once by a thread with nothing outstanding, on a core with no stores under way, changes no memory. -/
theorem readNow_quiet {s s' : State} {t : Thread} {r : Reach} {p1 : Pend} (hth : s.th = t) (hr : OneByte r)
    (h : readNow s (r.extend (8 - r.ea.toNat % 8)) 8 = .ok (p1, s'))
    (hown : ∀ q ∈ s.hw.pends, ¬ (q.key = t.key ∧ q.tid = t.tid ∧ q.launch = t.launch) ∧ q.id ≠ s.hw.nextId) (hout : outKeys s t.key = []) :
    SameMemory s s' ∧ s'.hw.pends = s.hw.pends := by
  obtain ⟨w, hw, rfl⟩ := readNow_ok h
  have hunit := units_of_extend (s := s) hr (.load 0) 0 0
  generalize hp : s.newPend (.load 0) 0 0 8 (r.extend (8 - r.ea.toNat % 8)) = p at hw hunit
  have hid : p.id = s.hw.nextId := by rw [← hp]; rfl
  have hload : p.isLoad = true := by rw [← hp]; rfl
  have hgot : p.got = List.replicate p.locs.length none := by rw [← hp]; rfl
  have hkey : p.key = t.key := by rw [← hp, ← hth]; rfl
  have htid : p.tid = t.tid := by rw [← hp, ← hth]; rfl
  have hlaunch : p.launch = t.launch := by rw [← hp, ← hth]; rfl
  have hspace : ∀ l ∈ p.locs, p.route = .scratch ↔ ∃ o, l = .scr o := by rw [← hp]; exact hr.extend_inSpace.1
  have hpends : (s.issuePend p).hw.pends = s.hw.pends ++ [p] := rfl
  have hfind : (s.issuePend p).hw.pends.find? (fun q => q.id == p.id) = some p := by
    rw [hpends, List.find?_append, List.find?_eq_none.2 fun q hq => by simpa [hid] using (hown q hq).2]
    simp
  have hfirst : ∀ q ∈ (s.issuePend p).hw.pends, q ≠ p → q.before p p.locs = [] := fun q hq hne => by
    rw [hpends, List.mem_append, List.mem_singleton] at hq
    have hq := hq.resolve_right hne
    refine before_nil (not_isStore (.inl hload)) (fun hsame => absurd ?_ (hown q hq).1) (fun _ ha => ?_) _
    · unfold Pend.sameThread at hsame
      simpa [hkey, htid, hlaunch, and_assoc] using hsame
    · rw [← hp] at ha
      cases ha
  have hw' : w.hw = perform (s.issuePend p).hw p := by
    rw [unlessConsumed_ok hw]
    dsimp only [State.mapHw]
    rw [← hid, hfind]
  have hkeep : s.hw.pends.filter (fun q => q.id != s.hw.nextId) = s.hw.pends :=
    List.filter_eq_self.2 fun q hq => bne_iff_ne.2 (hown q hq).2
  by_cases hheld : (s.issuePend p).hw.heldByPeer p.id = true
  · rw [perform_held hfind (not_isStore (.inl hload)) hfirst hheld] at hw'
    have hdrop : (dropPend w s.hw.nextId).hw.pends = s.hw.pends := by
      rw [show (dropPend w s.hw.nextId).hw.pends = w.hw.pends.filter _ from rfl, hw', hpends, List.filter_append, hkeep]
      simp [hid]
    exact ⟨fun k => by rw [show (dropPend w s.hw.nextId).hw.mem = w.hw.mem from rfl, hw']; rfl, hdrop⟩
  · have hunique : ∀ q ∈ (s.issuePend p).hw.pends, q.id = p.id → q = p := fun q hq hqid => by
      rw [hpends, List.mem_append, List.mem_singleton] at hq
      exact hq.resolve_left fun hq => (hown q hq).2 (hqid.trans hid)
    have ha : Alone (s.issuePend p).hw p := ⟨hfind, hunique, by rw [hgot, List.length_replicate], hspace, Bool.eq_false_iff.2 hheld, hfirst⟩
    obtain ⟨p', hgo, -⟩ := ha.performed (.inl hload)
    have hid' := pendStill_id hgo.same
    have hmem : (perform (s.issuePend p).hw p).mem = (s.issuePend p).hw.mem := by
      refine perform_load_mem ha hload hgot hunit fun o ho => ?_
      have hall := List.flatMap_eq_nil_iff.1 hout o (by rw [hkey] at ho; exact ho)
      exact List.map_eq_nil_iff.1 hall
    have hsame : s.hw.pends.map (fun q => if q.id == p.id then p' else q) = s.hw.pends :=
      (List.map_congr_left fun q hq => if_neg (by simpa [hid] using (hown q hq).2)).trans (List.map_id _)
    refine ⟨fun k => by rw [show (dropPend w s.hw.nextId).hw.mem = w.hw.mem from rfl, hw', hmem]; rfl, ?_⟩
    rw [show (dropPend w s.hw.nextId).hw.pends = w.hw.pends.filter _ from rfl, hw', hgo.pends, hpends, List.map_append, hsame, List.filter_append,
      hkeep]
    simp [hid', hid]

/-! ### XLD -/

theorem newPend_touched (s : State) (acc : Acc) (r r' : Reach) (kind : PendKind) (cell n atom : Nat) :
    (touched s acc r).newPend kind cell n atom r' = s.newPend kind cell n atom r' := by
  obtain ⟨-, hid, hgang, -⟩ := touched_same s acc r
  unfold State.newPend
  rw [touched_th, hid, hgang]

/-- The load of an element, of which the unit of its first byte has been read as `p1`. -/
def elementLoad (s : State) (r : Reach) (p1 : Pend) (d : Nat) (rm : BitVec 3) : Pend :=
  { s.newPend (.xload s.th.p rm s.th.smin) d (zxfLength s.th.p / 32) 8 r with
    got := (List.range r.locs.length).map fun i => p1.got.getD i none, sees := p1.sees }

theorem isAccess_elementLoad (s : State) (r : Reach) (p1 : Pend) (d : Nat) (rm : BitVec 3) : IsAccess s r (elementLoad s r p1 d rm) :=
  ⟨rfl, rfl, rfl, rfl, rfl, rfl, rfl, rfl, rfl⟩

section
variable {s s1 s2 : State} {space d : Nat} {ea : DWord} {rm : BitVec 3} {r1 r : Reach} {p1 : Pend}

/-- An XLD whose accesses pass their checks comes to the load of its element. -/
theorem issueZxf_loads (h1 : reach s .load space ea 1 = .ok r1) (hord : orderFirst s r1 = .ok s1) (hlost1 : r1.lost s1.hw = false)
    (hread : readNow s1 (r1.extend (8 - r1.ea.toNat % 8)) 8 = .ok (p1, s2))
    (hr : reach s2 .load space ea (zxfBytes ((p1.bytes.getD []).getD 0 0)) = .ok r) (hmt : (r.mt == 3 && r1.mt != 3) = false)
    (hfree : s2.th.fullAt d (zxfLength s2.th.p / 32)) (hlost : (r.mt == 3 && r.lost s2.hw) = false) :
    issueZxf s space ea d rm = if r.mt != 3 then .ok (issuedAs s2 .load r (elementLoad s2 r p1 d rm))
      else finishNow (issuedAs s2 .load r (elementLoad s2 r p1 d rm)) r s2.hw.nextId := by
  have hid : (touched s2 .load r).hw.nextId = s2.hw.nextId := (touched_same s2 .load r).2.1
  unfold issueZxf readZxf
  simp only [h1, ok_bind, hord, hlost1, hread, hr, hmt, Bool.false_eq_true, if_false, s2.th.needFree_ok _ _ hfree, hlost, newPend_touched, touched_th]
  rfl

end

/-- The body of an XLD. -/
def xldBody (k : BitVec 2) (o : LaneOps) (s : State) : Except Stop State := do
  s.th.needB o 1
  issueZxf s k.toNat (s.th.laneEa o) o.d.toNat (if o.ro = 0 then s.th.prec.extractLsb' 16 3 else o.ro - 1)

theorem exec_xld_run (k : BitVec 2) (o : LaneOps) (s : State) : exec (.xld k o) s = run (.xld k o) s (xldBody k o) := by
  rw [exec_xld]
  unfold execXld
  refine congrArg (run (.xld k o) s) (funext fun s => ?_)
  unfold xldBody
  simp only [beq_iff_eq]
  rfl

theorem xldBody_eq {k : BitVec 2} {o : LaneOps} {s : State} {t : Thread} (hfull : t.sourcesFull (srcB o 1)) : xldBody k o (s.setTh t) =
    issueZxf (s.setTh t) k.toNat (t.laneEa o) o.d.toNat (if o.ro = 0 then t.prec.extractLsb' 16 3 else o.ro - 1) := by
  unfold xldBody Thread.needB
  simp only [State.setTh_th, needAll_full hfull, ok_bind]

/-- A read at once leaves the number of the next gang. -/
theorem readNow_gang {s s' : State} {r : Reach} {atom : Nat} {p1 : Pend} (h : readNow s r atom = .ok (p1, s')) : s'.hw.gang = s.hw.gang := by
  obtain ⟨w, hw, rfl⟩ := readNow_ok h
  have hstill : still w.hw = still (s.issuePend (s.newPend (.load 0) 0 0 atom r)).hw := by
    rw [unlessConsumed_ok hw]
    dsimp only [State.mapHw]
    split
    · exact still_perform ..
    · rfl
  exact congrArg (fun x => x.1.gang) hstill

section
variable {k : BitVec 2} {o : LaneOps} {s s1 : State} {t : Thread} {p1 : Pend} {r1 r : Reach}

theorem xld_issues (hent : Entered (.xld k o) s t) (hfull : t.sourcesFull (srcB o 1)) (h1 : reach (s.setTh t) .load k.toNat (t.laneEa o) 1 = .ok r1)
    (hmt1 : r1.mt < 3) (hlost : r1.lost s.hw = false) (hread : readNow (s.setTh t) (r1.extend (8 - r1.ea.toNat % 8)) 8 = .ok (p1, s1))
    (hr : reach s1 .load k.toNat (t.laneEa o) (zxfBytes ((p1.bytes.getD []).getD 0 0)) = .ok r) (hmt : r.mt < 3)
    (hfree : t.fullAt o.d.toNat (zxfLength t.p / 32)) :
    ∃ u p, exec (.xld k o) s = .next u ∧ LoadIssued t s1 u r p o.d.toNat (zxfLength t.p / 32) ∧
      p.kind = .xload t.p (if o.ro = 0 then t.prec.extractLsb' 16 3 else o.ro - 1) t.smin ∧ p.atom = 8 ∧
      p.got = (List.range r.locs.length).map (fun i => p1.got.getD i none) ∧ s.hw.gang ∈ u.th.gangs ∧ u.th.wait = .none ∧
      u.th.pc = t.pc + BitVec.ofNat 64 (Instr.xld k o).length := by
  have hth : s1.th = t := readNow_th hread
  have hne1 : (r1.mt == 3) = false := beq_eq_false_iff_ne.2 (by omega)
  have hne : (r.mt == 3) = false := beq_eq_false_iff_ne.2 (by omega)
  have hord : orderFirst (s.setTh t) r1 = .ok (s.setTh t) := if_neg (Bool.eq_false_iff.1 hne1)
  have hzxf := issueZxf_loads (rm := if o.ro = 0 then t.prec.extractLsb' 16 3 else o.ro - 1) h1 hord hlost hread hr (by rw [hne]; rfl)
    (by rw [hth]; exact hfree) (by rw [hne]; rfl)
  rw [bne, hne] at hzxf
  have hgang : s1.hw.gang = s.hw.gang := (readNow_gang hread :)
  generalize hp : elementLoad s1 r p1 o.d.toNat (if o.ro = 0 then t.prec.extractLsb' 16 3 else o.ro - 1) = p at hzxf
  have hdone : CompletesAs (.xld k o) s (issuedAs s1 .load r p) :=
    completesAs_of_run (exec_xld_run k o s) hent ((xldBody_eq hfull).trans hzxf)
  have hissued := loadIssued_of (u := (issuedAs s1 .load r p).advance (Instr.xld k o).length) hth
    (by rw [← hp]; exact isAccess_elementLoad ..) rfl (sameButWait_past ..)
  have hkind : p.kind = .xload t.p (if o.ro = 0 then t.prec.extractLsb' 16 3 else o.ro - 1) t.smin := by rw [← hp, ← hth]; rfl
  have hcells : p.ncells = zxfLength t.p / 32 := by rw [← hp, ← hth]; rfl
  have hcell : p.cell = o.d.toNat := by rw [← hp]; rfl
  rw [hgang, hcells, hcell] at hissued
  exact ⟨_, p, hdone, hissued.1, hkind, by rw [← hp]; rfl, by rw [← hp]; rfl, hissued.2, rfl, by rw [← hth]; exact past_issued_pc ..⟩


theorem xld_strong {s2 : State} (hent : Entered (.xld k o) s t) (hfull : t.sourcesFull (srcB o 1)) (hlive : t.live = true)
    (h1 : reach (s.setTh t) .load k.toNat (t.laneEa o) 1 = .ok r1) (hmt1 : r1.mt = 3) (hs1 : orderAll (s.setTh t) = .ok s1)
    (hlost1 : r1.lost s1.hw = false) (hread : readNow s1 (r1.extend (8 - r1.ea.toNat % 8)) 8 = .ok (p1, s2)) (hnum : NumbersGiven s2)
    (hr : reach s2 .load k.toNat (t.laneEa o) (zxfBytes ((p1.bytes.getD []).getD 0 0)) = .ok r) (hmt : r.mt = 3) (hlost : r.lost s2.hw = false)
    (hfree : t.fullAt o.d.toNat (zxfLength t.p / 32)) :
    (∃ ue, StopsWith (.xld k o) s t (.consumed ue)) ∨ ∃ u bs, CompletesAs (.xld k o) s u ∧ bs.length = r.locs.length ∧
      (∀ i b, p1.got[i]? = some (some b) → i < bs.length → bs[i]? = some b) ∧
      u.th.cells = ((t.markEmpty o.d.toNat (zxfLength t.p / 32)).fillZxf o.d.toNat t.p
        (if o.ro = 0 then t.prec.extractLsb' 16 3 else o.ro - 1) t.smin bs).cells := by
  have hth1 : s1.th = t := orderAll_th hs1
  have hth : s2.th = t := (readNow_th hread).trans hth1
  have heq1 : (r1.mt == 3) = true := beq_iff_eq.2 hmt1
  have heq : (r.mt == 3) = true := beq_iff_eq.2 hmt
  have hord : orderFirst (s.setTh t) r1 = .ok s1 := (if_pos heq1).trans hs1
  have hzxf := issueZxf_loads (rm := if o.ro = 0 then t.prec.extractLsb' 16 3 else o.ro - 1) h1 hord hlost1 hread hr (by rw [heq, bne, heq1]; rfl)
    (by rw [hth]; exact hfree) (by rw [hlost, Bool.and_false])
  rw [bne, heq] at hzxf
  generalize hrm : (if o.ro = 0 then t.prec.extractLsb' 16 3 else o.ro - 1) = rm at hzxf
  have hbody : xldBody k o (s.setTh t) = finishNow (issuedAs s2 .load r (elementLoad s2 r p1 o.d.toNat rm)) r s2.hw.nextId :=
    (xldBody_eq hfull).trans (by rw [hrm]; exact hzxf)
  have hn : NewAccess (issuedAs s2 .load r (elementLoad s2 r p1 o.d.toNat rm)).hw s2.hw.pends (elementLoad s2 r p1 o.d.toNat rm) :=
    newAccess_issued hnum rfl (by simp [elementLoad, State.newPend]) (reach_inSpace hr).1 (.inl rfl)
  have hbefore : NoneBefore s2.hw.pends (elementLoad s2 r p1 o.d.toNat rm) := by
    refine noneBefore_of_performed (t := t) (.inl rfl) (congrArg Thread.key hth) (congrArg Thread.tid hth) (congrArg Thread.launch hth)
      (fun q hq hown => ?_) (fun ha => by cases ha)
    obtain ⟨q0, hq0, hsame, htodo⟩ := readNow_pends hread q hq
    have hown0 : q0.ofThread t = true := by
      rw [(pendStill_eq_iff.1 hsame).1] at hown
      exact hown
    have hdone := (orderAll_performed hs1).1 q0 hq0 hown0
    rw [hdone] at htodo
    exact List.eq_nil_iff_forall_not_mem.2 fun i hi => List.not_mem_nil (htodo i hi)
  obtain ⟨hvkey, hvlive, hvtid, hvlaunch⟩ := issuedAs_place s2 .load r (elementLoad s2 r p1 o.d.toNat rm)
  rcases finishNow_cases hn hmt rfl (by rw [hvlive, hth, hlive]) hvkey.symm hvtid.symm hvlaunch.symm with ⟨ue, he⟩ | ⟨hnot, -⟩ | ⟨u, bs, hu, hf⟩
  · exact .inl ⟨ue, stopsWith_of_run (exec_xld_run k o s) hent (hbody.trans he)⟩
  · exact absurd hbefore hnot
  · refine .inr ⟨u, bs, completesAs_of_run (exec_xld_run k o s) hent (hbody.trans hu), hf.length, fun i b hi hlt => ?_, ?_⟩
    · refine hf.keeps hbefore rfl i b ?_ hlt
      have hlen : i < r.locs.length := by rw [← hf.length]; exact hlt
      show ((List.range r.locs.length).map fun i => p1.got.getD i none)[i]? = _
      rw [List.getElem?_map, List.getElem?_range hlen, Option.map_some, List.getD_eq_getElem?_getD, hi]
      rfl
    · obtain ⟨x, hx⟩ := hf.th
      obtain ⟨gs, -, hv⟩ := issuedAs_th s2 .load r (elementLoad s2 r p1 o.d.toNat rm)
      subst hth
      rw [hx, saw_cells, hv]
      exact fillZxf_congr (t := s2.th.markEmpty o.d.toNat (zxfLength s2.th.p / 32))
        (u := { s2.th.markEmpty o.d.toNat (zxfLength s2.th.p / 32) with gangs := gs }) rfl ..

end

/-- Settles O31: each load comes to its issue, and on a page of type 3 to its completion. -/
theorem loadsBecomeOutstanding : Obligations.LoadsBecomeOutstanding := by
  intro s t r
  refine ⟨fun k o hent hfull hfree hreach => ⟨ld_issues hent hfull hfree hreach, ld_strong hent hfull hfree hreach⟩,
    fun k o hent hreach => ⟨sld_issues hent hreach, sld_strong hent hreach⟩,
    fun k o s1 p1 r1 hent hfull h1 hmt1 hlost hread => ⟨fun hown hout => ?_, fun hr hmt hfree => xld_issues hent hfull h1 hmt1 hlost hread hr hmt hfree⟩,
    fun k o s1 s2 p1 r1 hent hfull hlive h1 hmt1 hs1 hlost1 hread hnum hr hmt hlost hfree =>
      xld_strong hent hfull hlive h1 hmt1 hs1 hlost1 hread hnum hr hmt hlost hfree⟩
  exact readNow_quiet (s := s.setTh t) rfl (reach_oneByte h1) hread hown hout

end Sys2Proof.Proofs

/-!
Rendezvous and cross-lane instructions (R22, R26 to R28, R206, R210).
-/
namespace Sys2Proof.Proofs
open Sys2Proof.Machine

/-! ### Every resident thread is changed -/

/-- A change of threads that leaves where they are and that they are resident. -/
def KeepsPlace (f : Thread → Thread) : Prop := ∀ t, (f t).key = t.key ∧ (f t).live = t.live

theorem thread?_mapThreads {f : Thread → Thread} (hf : KeepsPlace f) (s : State) (k : Key) : (s.mapThreads f).thread? k = (s.thread? k).map f := by
  have hcomp : ((fun t : Thread => t.key == k) ∘ f) = fun t => t.key == k := funext fun t => by rw [Function.comp_apply, (hf t).1]
  unfold State.thread? State.mapThreads
  dsimp only
  by_cases hlive : s.th.live = true
  · rw [if_pos hlive, (hf s.th).2, (hf s.th).1, hlive, Bool.true_and, List.find?_map, hcomp]
    split
    · rfl
    · rfl
  · rw [if_neg hlive, Bool.not_eq_true _ |>.mp hlive, Bool.false_and, List.find?_map, hcomp]
    rfl

theorem allThreads_mapThreads {f : Thread → Thread} (hf : KeepsPlace f) (s : State) : (s.mapThreads f).allThreads = s.allThreads.map f := by
  unfold State.allThreads State.mapThreads
  dsimp only
  by_cases hlive : s.th.live = true
  · rw [if_pos hlive, (hf s.th).2, if_pos hlive, if_pos hlive, List.map_cons]
  · rw [if_neg hlive, if_neg hlive, if_neg hlive]

theorem mem_members {s : State} {part core handle : Nat} {t : Thread} : t ∈ s.members part core handle ↔
    t ∈ s.allThreads ∧ t.key.part = part ∧ t.key.core = core ∧ t.crew = handle ∧ handle ≠ 0 := by
  unfold State.members
  rw [List.mem_filter]
  simp [and_assoc]

/-! ### Arriving (R27) -/

theorem shares_iff (r : Rendezvous) (base w : Nat) : r.shares base w = true ↔
    ∃ k, base ≤ k ∧ k < base + 2 ^ w ∧ r.base ≤ k ∧ k < r.base + 2 ^ r.tile := by
  have hw := Nat.two_pow_pos w
  have ht := Nat.two_pow_pos r.tile
  unfold Rendezvous.shares
  rw [Bool.and_eq_true, decide_eq_true_eq, decide_eq_true_eq]
  constructor
  · rintro ⟨h1, h2⟩
    exact ⟨max base r.base, by omega⟩
  · rintro ⟨k, h⟩
    omega

/-- An open rendezvous is one that an arriving member belongs to (R27). -/
def Belongs (t : Thread) (r : Rendezvous) : Prop := (r.crew == t.crew && r.shares (t.rank / 2 ^ t.tile.toNat * 2 ^ t.tile.toNat) t.tile.toNat) = true

theorem belongs_iff (t : Thread) (r : Rendezvous) : Belongs t r ↔ r.crew = t.crew ∧
    ∃ k, t.rank / 2 ^ t.tile.toNat * 2 ^ t.tile.toNat ≤ k ∧ k < t.rank / 2 ^ t.tile.toNat * 2 ^ t.tile.toNat + 2 ^ t.tile.toNat ∧
      r.base ≤ k ∧ k < r.base + 2 ^ r.tile := by
  unfold Belongs
  rw [Bool.and_eq_true, beq_iff_eq, shares_iff]

section
variable {c : Ctx} {t : Thread} (i : Instr) (a : Arrival)

theorem joinRendezvous_opens (h : ∀ r ∈ c.rvs, ¬ Belongs t r) : joinRendezvous c t i a =
    .ok { c with rvs := c.rvs ++ [⟨t.crew, t.rank / 2 ^ t.tile.toNat * 2 ^ t.tile.toNat, t.tile.toNat, t.pc, i, [a]⟩] } := by
  have hnone : c.rvs.find? (fun r => r.crew == t.crew && r.shares (t.rank / 2 ^ t.tile.toNat * 2 ^ t.tile.toNat) t.tile.toNat) = none :=
    List.find?_eq_none.2 h
  unfold joinRendezvous
  dsimp only
  rw [hnone]

variable {pre post : List Rendezvous} {r : Rendezvous} (hrvs : c.rvs = pre ++ r :: post) (hpre : ∀ q ∈ pre, ¬ Belongs t q) (hr : Belongs t r)

include hrvs hpre hr in
theorem joinRendezvous_found : c.rvs.find? (fun r => r.crew == t.crew && r.shares (t.rank / 2 ^ t.tile.toNat * 2 ^ t.tile.toNat) t.tile.toNat) =
    some r := by
  rw [hrvs, List.find?_append, List.find?_eq_none.2 hpre, Option.none_or]
  exact List.find?_cons_of_pos hr

include hrvs hpre hr in
theorem joinRendezvous_counts (hpc : r.pc = t.pc) (htile : r.tile = t.tile.toNat)
    (hone : ∀ q ∈ pre ++ post, ¬ (q.crew = r.crew ∧ q.base = r.base)) :
    joinRendezvous c t i a = .ok { c with rvs := pre ++ { r with arrivals := r.arrivals ++ [a] } :: post } := by
  have hsame (qs : List Rendezvous) (hqs : ∀ q ∈ qs, ¬ (q.crew = r.crew ∧ q.base = r.base)) :
      qs.map (fun q => if q.crew == r.crew && q.base == r.base then { q with arrivals := q.arrivals ++ [a] } else q) = qs :=
    (List.map_congr_left fun q hq => if_neg (by simpa using hqs q hq)).trans (List.map_id _)
  unfold joinRendezvous
  dsimp only
  rw [joinRendezvous_found hrvs hpre hr]
  refine (if_pos (by simp [hpc, htile])).trans ?_
  rw [hrvs, List.map_append, List.map_cons, hsame pre fun q hq => hone q (List.mem_append_left _ hq),
    hsame post fun q hq => hone q (List.mem_append_right _ hq)]
  simp

include hrvs hpre hr in
theorem joinRendezvous_differs (hdiff : r.pc ≠ t.pc ∨ r.tile ≠ t.tile.toNat) : joinRendezvous c t i a = .error r.pc := by
  unfold joinRendezvous
  dsimp only
  rw [joinRendezvous_found hrvs hpre hr]
  refine if_neg fun h => ?_
  rw [Bool.and_eq_true, beq_iff_eq, beq_iff_eq] at h
  exact hdiff.elim (fun hne => hne h.1) fun hne => hne h.2

end

theorem arrivesByR27 : ArrivesByR27 := by
  intro c t i a
  refine ⟨fun h => joinRendezvous_opens i a fun r hr hb => h r hr ((belongs_iff t r).1 hb), fun pre r post hrvs hpre hr => ?_⟩
  have hpre' : ∀ q ∈ pre, ¬ Belongs t q := fun q hq hb => hpre q hq ((belongs_iff t q).1 hb)
  exact ⟨joinRendezvous_counts i a hrvs hpre' ((belongs_iff t r).2 hr), joinRendezvous_differs i a hrvs hpre' ((belongs_iff t r).2 hr)⟩

/-! ### Completing (R22, R26) -/

/-- A change of threads that leaves which member of which crew each is. -/
def KeepsMember (f : Thread → Thread) : Prop := ∀ t, (f t).key = t.key ∧ (f t).live = t.live ∧ (f t).crew = t.crew ∧ (f t).rank = t.rank

theorem KeepsMember.place {f : Thread → Thread} (hf : KeepsMember f) : KeepsPlace f := fun t => ⟨(hf t).1, (hf t).2.1⟩

theorem KeepsMember.comp {f g : Thread → Thread} (hg : KeepsMember g) (hf : KeepsMember f) : KeepsMember (g ∘ f) := fun t => by
  obtain ⟨h1, h2, h3, h4⟩ := hf t
  obtain ⟨g1, g2, g3, g4⟩ := hg (f t)
  exact ⟨g1.trans h1, g2.trans h2, g3.trans h3, g4.trans h4⟩

theorem keepsMember_id : KeepsMember id := fun _ => ⟨rfl, rfl, rfl, rfl⟩

theorem takeLane_eq (t : Thread) (op : Instr) (r : LaneResult) : ∃ cells preds fcsr,
    t.takeLane op r = { t with cells := cells, preds := preds, fcsr := fcsr } := by
  obtain ⟨cs, hcs, -⟩ := CellsOnly.writePlain t (laneOpsOf op).d.toNat (r.cell.getD 0)
  unfold Thread.takeLane
  cases hcell : r.cell with
  | none =>
    cases r.pred with
    | none => exact ⟨_, _, _, rfl⟩
    | some x => exact ⟨_, _, _, rfl⟩
  | some v =>
    rw [hcell] at hcs
    dsimp only
    rw [show t.writePlain (laneOpsOf op).d.toNat v = _ from hcs]
    cases r.pred with
    | none => exact ⟨_, _, _, rfl⟩
    | some x => exact ⟨_, _, _, rfl⟩

/-- What a rendezvous that is over gives a member that has arrived. -/
def rendezvousResult (r : Rendezvous) (me : Arrival) (t : Thread) : Thread :=
  (if me.guard then t.takeLane r.op (laneResult r.op (t.frm (laneOpsOf r.op).ro) r.arrivals r.base (2 ^ r.tile) me) else t).past r.op.length

/-- What it does to a thread. -/
def rendezvousThread (part core : Nat) (r : Rendezvous) (t : Thread) : Thread :=
  if t.key.part == part && t.key.core == core && t.crew == r.crew then
    match r.arrivals.find? fun a => a.rank == t.rank with
    | none => t
    | some me => rendezvousResult r me t
  else t

theorem keepsMember_result (r : Rendezvous) (me : Arrival) : KeepsMember (rendezvousResult r me) := fun t => by
  unfold rendezvousResult
  split
  · obtain ⟨cells, preds, fcsr, h⟩ := takeLane_eq t r.op (laneResult r.op (t.frm (laneOpsOf r.op).ro) r.arrivals r.base (2 ^ r.tile) me)
    rw [h]
    exact ⟨rfl, rfl, rfl, rfl⟩
  · exact ⟨rfl, rfl, rfl, rfl⟩

theorem keepsMember_rendezvous (part core : Nat) (r : Rendezvous) : KeepsMember (rendezvousThread part core r) := fun t => by
  unfold rendezvousThread
  split
  · split
    · exact ⟨rfl, rfl, rfl, rfl⟩
    · exact keepsMember_result ..
  · exact ⟨rfl, rfl, rfl, rfl⟩

theorem rendezvousThread_of_none {part core : Nat} {r : Rendezvous} {t : Thread}
    (h : ¬ (t.key.part = part ∧ t.key.core = core ∧ t.crew = r.crew) ∨ ∀ a ∈ r.arrivals, a.rank ≠ t.rank) : rendezvousThread part core r t = t := by
  unfold rendezvousThread
  split
  · next hin =>
    rw [Bool.and_eq_true, Bool.and_eq_true, beq_iff_eq, beq_iff_eq, beq_iff_eq, and_assoc] at hin
    rw [List.find?_eq_none.2 fun a ha => by simpa using h.resolve_left (fun hno => hno hin) a ha]
  · rfl

theorem rendezvousThread_of_some {part core : Nat} {r : Rendezvous} {t : Thread} {me : Arrival} (hpart : t.key.part = part)
    (hcore : t.key.core = core) (hcrew : t.crew = r.crew) (hme : r.arrivals.find? (fun a => a.rank == t.rank) = some me) :
    rendezvousThread part core r t = rendezvousResult r me t := by
  unfold rendezvousThread
  rw [if_pos (by simp [hpart, hcore, hcrew]), hme]

/-- A rendezvous is not the one that `r` is (R26). -/
def notSame (r q : Rendezvous) : Bool := !(q.crew == r.crew && q.base == r.base)

theorem completeRendezvous_eq (s : State) (part core : Nat) (r : Rendezvous) : completeRendezvous s part core r =
    (s.mapHw fun h => h.setCtx { s.hw.ctx part core with rvs := (s.hw.ctx part core).rvs.filter (notSame r) }).mapThreads
      (rendezvousThread part core r) := rfl

/-- Two states have the same crews at a place, with the same members. -/
structure SameCrews (s u : State) (part core : Nat) : Prop where
  has : HasCtx u.hw part core ↔ HasCtx s.hw part core
  crews : (u.hw.ctx part core).crews = (s.hw.ctx part core).crews
  threads : ∃ f, KeepsMember f ∧ u.allThreads = s.allThreads.map f

theorem SameCrews.refl (s : State) (part core : Nat) : SameCrews s s part core := ⟨Iff.rfl, rfl, id, keepsMember_id, (List.map_id _).symm⟩

theorem SameCrews.complete {s u : State} {part core : Nat} (h : SameCrews s u part core) (r : Rendezvous) :
    SameCrews s (completeRendezvous u part core r) part core := by
  obtain ⟨hhas, hcrews, f, hf, hall⟩ := h
  have hg := keepsMember_rendezvous part core r
  rw [completeRendezvous_eq]
  refine ⟨(hasCtx_setCtx ..).trans hhas, ?_, rendezvousThread part core r ∘ f, hg.comp hf, ?_⟩
  · rcases ctx_setCtx_cases u.hw { u.hw.ctx part core with rvs := (u.hw.ctx part core).rvs.filter (notSame r) } part core with hc | hc
    · exact (congrArg Ctx.crews hc).trans hcrews
    · exact (congrArg Ctx.crews hc).trans hcrews
  · rw [allThreads_mapThreads hg.place, ← List.map_map, ← hall]
    rfl

theorem members_map {s u : State} {f : Thread → Thread} (hf : KeepsMember f) (hall : u.allThreads = s.allThreads.map f)
    (part core handle : Nat) : u.members part core handle = (s.members part core handle).map f := by
  unfold State.members
  rw [hall, List.filter_map]
  refine congrArg (List.map f) (List.filter_congr fun t _ => ?_)
  obtain ⟨hkey, -, hcrew, -⟩ := hf t
  rw [Function.comp_apply, hkey, hcrew]

/-- Whether a rendezvous is ready depends on the crews and their members. -/
theorem SameCrews.ready {s u : State} {part core : Nat} (h : SameCrews s u part core) (r : Rendezvous) :
    rendezvousReady u part core r = rendezvousReady s part core r := by
  obtain ⟨-, hcrews, f, hf, hall⟩ := h
  unfold rendezvousReady Ctx.crew?
  dsimp only
  rw [hcrews, members_map hf hall, List.all_map]
  refine congrArg _ (congrArg _ (funext fun t => ?_))
  rw [Function.comp_apply, (hf t).2.2.2]

/-- A rendezvous of a crew completes in a state. -/
def completes (s : State) (part core : Nat) (r : Rendezvous) : Bool := rendezvousReady s part core r && !r.arrivals.isEmpty

/-- The rendezvous of a crew that complete in a state. -/
def fullRendezvous (s : State) (part core handle : Nat) : List Rendezvous :=
  ((s.hw.ctx part core).rvs.filter fun r => r.crew == handle).filter (completes s part core)

theorem settleRendezvous_eq (s : State) (part core handle : Nat) : settleRendezvous s part core handle =
    (fullRendezvous s part core handle).foldl (fun u r => completeRendezvous u part core r) s := by
  have hfold (rs : List Rendezvous) (u : State) (hu : SameCrews s u part core) :
      rs.foldl (fun v r => if completes v part core r then completeRendezvous v part core r else v) u =
        (rs.filter (completes s part core)).foldl (fun v r => completeRendezvous v part core r) u := by
    induction rs generalizing u with
    | nil => rfl
    | cons r rs ih =>
      have hready : completes u part core r = completes s part core r := by
        unfold completes
        rw [hu.ready r]
      rw [List.foldl_cons, List.filter_cons, hready]
      split
      · exact ih _ (hu.complete r)
      · exact ih _ hu
  exact hfold _ s (.refl s part core)

/-- What completing rendezvous one after another leaves open, and what it makes of a thread. -/
theorem foldl_complete (rs : List Rendezvous) (s : State) {part core : Nat} (hhas : HasCtx s.hw part core) :
    ((rs.foldl (fun u r => completeRendezvous u part core r) s).hw.ctx part core).rvs =
      (s.hw.ctx part core).rvs.filter (fun q => rs.all fun r => notSame r q) ∧
    ∀ k, (rs.foldl (fun u r => completeRendezvous u part core r) s).thread? k =
      (s.thread? k).map fun t => rs.foldl (fun t r => rendezvousThread part core r t) t := by
  induction rs generalizing s with
  | nil => exact ⟨by simp, fun k => by simp⟩
  | cons r rs ih =>
    obtain ⟨hrvs, hthreads⟩ := ih (completeRendezvous s part core r) ((hasCtx_setCtx ..).2 hhas)
    have hctx : ((completeRendezvous s part core r).hw.ctx part core).rvs = (s.hw.ctx part core).rvs.filter (notSame r) :=
      (congrArg Ctx.rvs (ctx_setCtx_same (c := { s.hw.ctx part core with rvs := (s.hw.ctx part core).rvs.filter (notSame r) }) hhas
        (ctx_part ..) (ctx_core ..)) :)
    have hone (k : Key) : (completeRendezvous s part core r).thread? k = (s.thread? k).map (rendezvousThread part core r) := by
      rw [completeRendezvous_eq, thread?_mapThreads (keepsMember_rendezvous part core r).place]
      exact congrArg _ (thread?_congr rfl rfl k)
    refine ⟨?_, fun k => ?_⟩
    · rw [List.foldl_cons, hrvs, hctx, List.filter_filter]
      exact List.filter_congr fun q _ => by rw [List.all_cons, Bool.and_comm]
    · rw [List.foldl_cons, hthreads k, hone k, Option.map_map]
      rfl

theorem foldl_rendezvous_id {part core : Nat} {rs : List Rendezvous} {t : Thread} (h : ∀ r ∈ rs, rendezvousThread part core r t = t) :
    rs.foldl (fun t r => rendezvousThread part core r t) t = t := by
  induction rs with
  | nil => rfl
  | cons r rs ih =>
    rw [List.foldl_cons, h r List.mem_cons_self]
    exact ih fun q hq => h q (List.mem_cons_of_mem _ hq)

/-- A rendezvous is complete (R22, R26). -/
def Full (s : State) (part core handle : Nat) (r : Rendezvous) : Prop :=
  r ∈ (s.hw.ctx part core).rvs ∧ r.crew = handle ∧ r.arrivals ≠ [] ∧
    (∀ c, (s.hw.ctx part core).crew? handle = some c → ∀ k ∈ c.reserved, ¬ (r.base ≤ k ∧ k < r.base + 2 ^ r.tile)) ∧
    ∀ t ∈ s.members part core handle, r.base ≤ t.rank → t.rank < r.base + 2 ^ r.tile → ∃ a ∈ r.arrivals, a.rank = t.rank

theorem mem_fullRendezvous {s : State} {part core handle : Nat} {r : Rendezvous} :
    r ∈ fullRendezvous s part core handle ↔ Full s part core handle r := by
  have hready (hcrew : r.crew = handle) : rendezvousReady s part core r = true ↔
      (∀ c, (s.hw.ctx part core).crew? handle = some c → ∀ k ∈ c.reserved, ¬ (r.base ≤ k ∧ k < r.base + 2 ^ r.tile)) ∧
        ∀ t ∈ s.members part core handle, r.base ≤ t.rank → t.rank < r.base + 2 ^ r.tile → ∃ a ∈ r.arrivals, a.rank = t.rank := by
    subst hcrew
    unfold rendezvousReady
    rw [Bool.and_eq_true]
    refine and_congr ?_ ?_
    · cases (s.hw.ctx part core).crew? r.crew with
      | none => simp
      | some c =>
        simp only [List.all_eq_true, Bool.not_eq_true', Bool.and_eq_false_iff, decide_eq_false_iff_not, Option.some.injEq, forall_eq',
          ← not_and_or]
    · simp only [List.all_eq_true, Bool.or_eq_true, Bool.not_eq_true', Bool.and_eq_false_iff, decide_eq_false_iff_not, List.any_eq_true, beq_iff_eq]
      refine forall_congr' fun t => forall_congr' fun _ => ?_
      tauto
  unfold fullRendezvous Full completes
  rw [List.mem_filter, List.mem_filter, beq_iff_eq, Bool.and_eq_true]
  constructor
  · rintro ⟨⟨hr, hcrew⟩, hrd, hne⟩
    exact ⟨hr, hcrew, by simpa using hne, (hready hcrew).1 hrd⟩
  · rintro ⟨hr, hcrew, hne, hrd⟩
    exact ⟨⟨hr, hcrew⟩, (hready hcrew).2 hrd, by simpa using hne⟩

section
variable {s : State} {part core handle : Nat} (hhas : HasCtx s.hw part core)
  (hkeys : ((s.hw.ctx part core).rvs.map fun r => (r.crew, r.base)).Nodup)
include hhas

include hkeys in
/-- Those that are complete are over, and no others. -/
theorem mem_rvs_settled (r : Rendezvous) : r ∈ ((settleRendezvous s part core handle).hw.ctx part core).rvs ↔
    r ∈ (s.hw.ctx part core).rvs ∧ ¬ Full s part core handle r := by
  rw [settleRendezvous_eq, (foldl_complete _ s hhas).1, List.mem_filter]
  refine and_congr_right fun hr => ?_
  rw [List.all_eq_true]
  constructor
  · intro h hfull
    have := h r (mem_fullRendezvous.2 hfull)
    simp [notSame] at this
  · intro hno q hq
    unfold notSame
    rw [Bool.not_eq_true', ← Bool.not_eq_true, Bool.and_eq_true, beq_iff_eq, beq_iff_eq]
    rintro ⟨hcrew, hbase⟩
    have hqfull := mem_fullRendezvous.1 hq
    refine hno ?_
    rwa [List.inj_on_of_nodup_map hkeys hr hqfull.1 (by rw [hcrew, hbase])]

theorem thread?_settled (k : Key) : (settleRendezvous s part core handle).thread? k =
    (s.thread? k).map fun t => (fullRendezvous s part core handle).foldl (fun t r => rendezvousThread part core r t) t := by
  rw [settleRendezvous_eq]
  exact (foldl_complete _ s hhas).2 k

/-- The members of no complete rendezvous stay as they are. -/
theorem thread?_settled_other {k : Key} {t : Thread} (ht : s.thread? k = some t) (hno : ¬ (k.part = part ∧ k.core = core ∧ t.crew = handle) ∨
    ∀ r, Full s part core handle r → ∀ a ∈ r.arrivals, a.rank ≠ t.rank) : (settleRendezvous s part core handle).thread? k = some t := by
  have hkey := thread?_key ht
  rw [thread?_settled hhas, ht, Option.map_some]
  refine congrArg some (foldl_rendezvous_id fun r hr => ?_)
  have hfull := mem_fullRendezvous.1 hr
  refine rendezvousThread_of_none (hno.imp (fun h => ?_) fun h => h r hfull)
  rw [hkey, hfull.2.1]
  exact h

include hkeys in
/-- A member of a complete rendezvous goes on with its result. -/
theorem thread?_settled_member {k : Key} {t : Thread} {r : Rendezvous} {me : Arrival} (hfull : Full s part core handle r)
    (ht : s.thread? k = some t) (hpart : k.part = part) (hcore : k.core = core) (hcrew : t.crew = handle)
    (hme : r.arrivals.find? (fun a => a.rank == t.rank) = some me)
    (hone : ∀ q ∈ (s.hw.ctx part core).rvs, q ≠ r → q.crew = handle → ∀ a ∈ q.arrivals, a.rank ≠ t.rank) :
    (settleRendezvous s part core handle).thread? k = some (rendezvousResult r me t) := by
  have hkey := thread?_key ht
  obtain ⟨pre, post, hsplit⟩ := List.append_of_mem (mem_fullRendezvous.2 hfull)
  have hnodup : (fullRendezvous s part core handle).Nodup := (List.Nodup.of_map _ hkeys).filter _ |>.filter _
  rw [hsplit] at hnodup
  have hother : ∀ q ∈ pre ++ post, ∀ a ∈ q.arrivals, a.rank ≠ t.rank := fun q hq => by
    have hqne : q ≠ r := fun he => by
      subst he
      exact (List.nodup_middle.1 hnodup).notMem hq
    have hqfull := mem_fullRendezvous.1 (show q ∈ fullRendezvous s part core handle by rw [hsplit]; grind)
    exact hone q hqfull.1 hqne hqfull.2.1
  obtain ⟨-, -, -, hrank⟩ := keepsMember_result r me t
  rw [thread?_settled hhas, ht, Option.map_some, hsplit, List.foldl_append, List.foldl_cons]
  rw [foldl_rendezvous_id (rs := pre) fun q hq => rendezvousThread_of_none (.inr (hother q (List.mem_append_left _ hq)))]
  rw [rendezvousThread_of_some (by rw [hkey, hpart]) (by rw [hkey, hcore]) (by rw [hcrew, hfull.2.1]) hme]
  rw [foldl_rendezvous_id fun q hq => rendezvousThread_of_none (.inr (by rw [hrank]; exact hother q (List.mem_append_right _ hq)))]

end

theorem completesByR26 : CompletesByR26 := by
  refine ⟨fun s part core handle t => mem_members, fun s part core handle hhas => ?_⟩
  intro rvs hkeys full u
  exact ⟨mem_rvs_settled hhas hkeys, fun k t r me hfull ht hpart hcore hcrew hme hone =>
    thread?_settled_member hhas hkeys hfull ht hpart hcore hcrew hme hone, fun k t ht hno => thread?_settled_other hhas ht hno⟩

/-! ### The instructions (R28, R206) -/

theorem exec_laneTable (o : LaneOps) (s : State) : ∀ i ∈ laneTable o, exec i s = lanes i o s := by
  unfold laneTable
  simp only [List.forall_mem_cons]
  exact ⟨rfl, rfl, rfl, rfl, rfl, rfl, rfl, rfl, rfl, rfl, rfl, rfl, rfl, by simp⟩

/-- A reduction or a scan of a thread in no crew gives its own value (R28). -/
theorem aloneResult_own {i : Instr} {o : LaneOps} (h : i ∈ [.red o, .scanIncl o, .scanExcl o]) (rm : RMode) (me : Arrival) :
    aloneResult i rm me = { laneResult i rm [me] me.rank 1 me with cell := some me.a } := by
  simp only [List.mem_cons, List.not_mem_nil, or_false] at h
  rcases h with rfl | rfl | rfl <;> rfl

theorem aloneResult_other {i : Instr} {o : LaneOps} (htable : i ∈ laneTable o) (h : i ∉ [Instr.red o, .scanIncl o, .scanExcl o]) (rm : RMode)
    (me : Arrival) : aloneResult i rm me = laneResult i rm [me] me.rank 1 me := by
  simp only [laneTable, List.mem_cons, List.not_mem_nil, or_false] at htable
  rcases htable with rfl | rfl | rfl | rfl | rfl | rfl | rfl | rfl | rfl | rfl | rfl | rfl | rfl
  any_goals rfl
  all_goals exact absurd (by simp) h

section
variable {i : Instr} {o : LaneOps} {s : State} {t : Thread} {me : Arrival}

/-- A cross-lane instruction that a thread can pay for and whose sources are there (R206). -/
theorem lanes_arrives (hregs : s.th.regsOk i = true) (hpaid : s.th.charge i = some t) (hme : arrivalOf t i o = .ok me) : lanes i o s =
    if t.crew == 0 then
      if me.guard then .next (((s.setTh t).setTh (t.takeLane i (aloneResult i (t.frm o.ro) me))).advance i.length)
      else .next ((s.setTh t).advance i.length)
    else match joinRendezvous (s.hw.ctx t.key.part t.key.core) t i me with
      | .error pc => .next (stopped (s.setTh t) (.fault ⟨4, 0, false, false, pc, 0⟩))
      | .ok c => .next (settleRendezvous (((s.setTh t).mapHw fun h => h.setCtx c).hold .rendezvous) t.key.part t.key.core t.crew) := by
  unfold lanes
  rw [hregs, hpaid]
  simp only [Bool.not_true, Bool.false_eq_true, if_false, hme]
  rfl

end

/-- Settles O34: how a rendezvous is joined and when it completes, and what a cross-lane instruction does alone and in a crew. -/
theorem crossLaneInstructionsRendezvous : Obligations.CrossLaneInstructionsRendezvous := by
  refine ⟨arrivesByR27, completesByR26, fun o s t me i hi hregs hpaid hme => ?_⟩
  have hexec := (exec_laneTable o s i hi).trans (lanes_arrives hregs hpaid hme)
  intro x
  refine ⟨fun hcrew hguard => ?_, fun hcrew hguard => ?_, fun c hcrew hjoin => ?_, fun pc hcrew hjoin => ?_⟩
  · rw [hcrew, hguard] at hexec
    exact hexec
  · rw [hcrew, hguard] at hexec
    refine ⟨fun hown => ?_, fun hother => ?_⟩
    · rw [aloneResult_own hown] at hexec
      exact hexec
    · rw [aloneResult_other hi hother] at hexec
      exact hexec
  · rw [beq_eq_false_iff_ne.2 hcrew, hjoin] at hexec
    exact hexec
  · rw [beq_eq_false_iff_ne.2 hcrew, hjoin] at hexec
    exact hexec

end Sys2Proof.Proofs

/-!
Crews (R20, R21, R26, R188 to R192): joining, leaving, the phases of the barrier.
-/
namespace Sys2Proof.Proofs
open Sys2Proof.Machine

/-! ### When a CJOIN fails (R20) -/

/-- A crew of a key in a partition. -/
def CrewOfKey (h : Hw) (part : Nat) (key : DWord) (core : Nat) (x : Crew) : Prop :=
  ∃ c ∈ h.ctxs, c.part = part ∧ c.core = core ∧ x ∈ c.crews ∧ x.key = key

theorem findCrew_some {h : Hw} {part : Nat} {key : DWord} {e : Nat × Crew} (hf : findCrew h part key = some e) : CrewOfKey h part key e.1 e.2 := by
  obtain ⟨c, hc, hfound⟩ := List.exists_of_findSome?_eq_some hf
  rw [List.mem_filter, beq_iff_eq] at hc
  obtain ⟨x, hx, rfl⟩ := Option.map_eq_some_iff.1 hfound
  exact ⟨c, hc.1, hc.2, rfl, List.mem_of_find?_eq_some hx, by simpa using List.find?_some hx⟩

theorem findCrew_none {h : Hw} {part : Nat} {key : DWord} (hno : ∀ core x, ¬ CrewOfKey h part key core x) : findCrew h part key = none :=
  Option.eq_none_iff_forall_not_mem.2 fun e he => hno e.1 e.2 (findCrew_some he)

theorem findCrew_isSome {h : Hw} {part core : Nat} {key : DWord} {x : Crew} (hx : CrewOfKey h part key core x) : (findCrew h part key).isSome := by
  obtain ⟨c, hc, hpart, -, hmem, hkey⟩ := hx
  unfold findCrew
  rw [List.findSome?_isSome_iff]
  refine ⟨c, List.mem_filter.2 ⟨hc, by simp [hpart]⟩, ?_⟩
  rw [Option.isSome_map, List.find?_isSome]
  exact ⟨x, hmem, by simp [hkey]⟩

theorem joinFails_iff (t : Thread) (h : Hw) (key : DWord) : joinFails t h key = true ↔ (key = 0 ∨ key[63] = true ∨ t.crew ≠ 0) ∨
    ∃ e, findCrew h t.key.part key = some e ∧ (e.1 ≠ t.key.core ∨ 1024 ≤ e.2.crewn) := by
  unfold joinFails
  rw [Bool.or_eq_true, Bool.or_eq_true, Bool.or_eq_true, beq_iff_eq, bne_iff_ne]
  refine or_congr or_assoc ?_
  cases findCrew h t.key.part key with
  | none => simp
  | some e => simp

theorem joinFailsByR20 : JoinFailsByR20 := by
  refine fun t h key => ⟨fun hno => ?_, fun c hc hpart x hx hkey huniq => ?_⟩
  · rw [joinFails_iff, findCrew_none fun core x ⟨c, hc, hpart, _, hx, hkey⟩ => hno c hc hpart x hx hkey]
    simp
  · obtain ⟨e, he⟩ := Option.isSome_iff_exists.1 (findCrew_isSome ⟨c, hc, hpart, rfl, hx, hkey⟩)
    obtain ⟨d, hd, hdpart, hdcore, hy, hykey⟩ := findCrew_some he
    obtain ⟨hcore, hyx⟩ := huniq d hd hdpart e.2 hy hykey
    rw [joinFails_iff, he]
    refine or_congr Iff.rfl ?_
    rw [← hcore, hdcore, ← hyx]
    simp

/-! ### Leaving a crew (R21, R189) -/

theorem leaveCrew_alone {s : State} {k : Key} {t : Thread} (ht : s.thread? k = some t) (hcrew : t.crew = 0) : leaveCrew s k = s := by
  unfold leaveCrew
  rw [ht]
  exact if_pos (beq_iff_eq.2 hcrew)

/-- An open rendezvous without the arrival of a member that leaves (R26). -/
def withdrawn (t : Thread) (r : Rendezvous) : Rendezvous :=
  if r.crew = t.crew then { r with arrivals := r.arrivals.filter fun a => a.rank ≠ t.rank } else r

/-- The open rendezvous of a core without the arrivals of a member that leaves. -/
def rvsWithout (t : Thread) (rvs : List Rendezvous) : List Rendezvous := (rvs.map (withdrawn t)).filter fun r => r.arrivals ≠ []

/-- A state with the member at a key out of its crew, before what waited for it completes. -/
def withoutMember (s : State) (k : Key) (t : Thread) : State :=
  (s.mapHw fun h => h.setCtx { s.hw.ctx k.part k.core with rvs := rvsWithout t (s.hw.ctx k.part k.core).rvs }).setThread
    { t with crew := 0, rank := 0, arrived := false, exempt := false }

theorem leaveCrew_member {s : State} {k : Key} {t : Thread} (ht : s.thread? k = some t) (hcrew : t.crew ≠ 0) :
    leaveCrew s k = settleCrew (withoutMember s k t) k.part k.core t.crew := by
  have hrvs (rvs : List Rendezvous) : rvsWithout t rvs = (rvs.map fun r =>
      if r.crew == t.crew then { r with arrivals := r.arrivals.filter fun a => a.rank != t.rank } else r).filter fun r => !r.arrivals.isEmpty := by
    unfold rvsWithout withdrawn
    have hmap : (fun r : Rendezvous => if r.crew == t.crew then { r with arrivals := r.arrivals.filter fun a => a.rank != t.rank } else r) =
        fun r => if r.crew = t.crew then { r with arrivals := r.arrivals.filter fun a => a.rank ≠ t.rank } else r := funext fun r => by
      have hrank : (fun a : Arrival => a.rank != t.rank) = fun a => decide (a.rank ≠ t.rank) := funext fun a => by
        rw [Bool.eq_iff_iff, bne_iff_ne, decide_eq_true_eq]
      simp only [beq_iff_eq, hrank]
    rw [hmap]
    refine List.filter_congr fun r _ => ?_
    rw [Bool.eq_iff_iff, decide_eq_true_eq, Bool.not_eq_true', List.isEmpty_eq_false_iff]
  unfold leaveCrew withoutMember
  rw [ht, hrvs]
  exact if_neg (mt beq_iff_eq.1 hcrew)

theorem setThread_ctx (s : State) (t : Thread) (part core : Nat) : (s.setThread t).hw.ctx part core = s.hw.ctx part core := by
  unfold State.setThread
  split
  · rfl
  · rfl

theorem withoutMember_ctx {s : State} {k : Key} {t : Thread} (hhas : HasCtx s.hw k.part k.core) : (withoutMember s k t).hw.ctx k.part k.core =
    { s.hw.ctx k.part k.core with rvs := rvsWithout t (s.hw.ctx k.part k.core).rvs } :=
  (setThread_ctx ..).trans (ctx_setCtx_same (c := { s.hw.ctx k.part k.core with rvs := rvsWithout t (s.hw.ctx k.part k.core).rvs }) hhas
    (ctx_part ..) (ctx_core ..))

theorem dissolveCrew_stays {s : State} {part core handle : Nat} {x : Crew} (hx : (s.hw.ctx part core).crew? handle = some x)
    (hno : ¬ (s.members part core handle = [] ∧ x.reserved = [])) : dissolveCrew s part core handle = s := by
  unfold dissolveCrew
  rw [hx]
  exact if_neg (by simpa using hno)

theorem dissolveCrew_ends {s : State} {part core handle : Nat} {x : Crew} (hx : (s.hw.ctx part core).crew? handle = some x)
    (hhas : HasCtx s.hw part core) (hends : s.members part core handle = [] ∧ x.reserved = []) :
    (dissolveCrew s part core handle).hw.ctx part core = { s.hw.ctx part core with
      crews := (s.hw.ctx part core).crews.filter fun y => y.handle != handle,
      resvs := (s.hw.ctx part core).resvs.map fun r => if r.owner == .crew handle then { r with released := true } else r } := by
  unfold dissolveCrew
  rw [hx]
  refine (congrArg (fun s : State => s.hw.ctx part core) (if_pos (by simp [hends.1, hends.2]))).trans ?_
  exact ctx_setCtx_same hhas (ctx_part ..) (ctx_core ..)

theorem leavesByR21 : LeavesByR21 := by
  refine ⟨fun s k t ht hhas => ⟨leaveCrew_alone ht, fun hcrew => ⟨withoutMember s k t, leaveCrew_member ht hcrew, ?_, fun k' hk' => ?_, ?_, ?_⟩⟩,
    fun s part core handle hne => if_neg (mt beq_iff_eq.1 hne), fun s part core handle x hhas hx => ?_⟩
  · exact thread?_setThread_same (t := t) ((thread?_congr rfl rfl k).trans ht) rfl rfl
  · have hkey : k' ≠ t.key := by rw [thread?_key ht]; exact hk'
    exact (thread?_setThread_ne (u := { t with crew := 0, rank := 0, arrived := false, exempt := false }) hkey).trans (thread?_congr rfl rfl k')
  · rw [withoutMember_ctx hhas]
  · rw [withoutMember_ctx hhas]
    rfl
  · refine ⟨dissolveCrew_stays hx, fun hends => ?_⟩
    rw [dissolveCrew_ends hx hhas hends]
    refine ⟨fun y => by simp, ?_⟩
    simp only [beq_iff_eq]

/-! ### Phases (R190 to R192) -/

theorem nub_nodup {α : Type} [DecidableEq α] (xs : List α) : (nub xs).Nodup := by
  induction xs with
  | nil => exact List.nodup_nil
  | cons x xs ih =>
    rw [nub, List.nodup_cons]
    exact ⟨by simp, ih.filter _⟩

theorem nub_toFinset {α : Type} [DecidableEq α] (xs : List α) : (nub xs).toFinset = xs.toFinset := by
  ext x
  rw [List.mem_toFinset, List.mem_toFinset, mem_nub]

theorem length_nub {α : Type} [DecidableEq α] (xs : List α) : (nub xs).length = xs.toFinset.card := by
  rw [← nub_toFinset, List.toFinset_card_of_nodup (nub_nodup xs)]

/-- The place of a rank after CCOMPACT: how many of the ranks are below it. -/
theorem denseRank_eq (ranks : List Nat) (r : Nat) : denseRank ranks r = (ranks.toFinset.filter fun x => x < r).card := by
  unfold denseRank
  rw [List.countP_eq_length_filter, ← nub_toFinset, ← List.toFinset_card_of_nodup ((nub_nodup ranks).filter _), List.toFinset_filter]
  simp

/-- Renumbering keeps the order of the ranks and leaves no gap (R191). -/
theorem dense_ranks (ranks : List Nat) :
    let new (r : Nat) : Nat := (ranks.toFinset.filter fun x => x < r).card
    (∀ a ∈ ranks, ∀ b ∈ ranks, a < b → new a < new b) ∧ (∀ a ∈ ranks, new a < ranks.toFinset.card) ∧
    ∀ n, n < ranks.toFinset.card → ∃ a ∈ ranks, new a = n := by
  intro new
  have hmono : ∀ a ∈ ranks, ∀ b ∈ ranks, a < b → new a < new b := fun a ha b _ hab => by
    refine Finset.card_lt_card (Finset.ssubset_iff_of_subset (fun x hx => ?_) |>.2 ⟨a, ?_, ?_⟩)
    · rw [Finset.mem_filter] at hx ⊢
      exact ⟨hx.1, hx.2.trans hab⟩
    · exact Finset.mem_filter.2 ⟨List.mem_toFinset.2 ha, hab⟩
    · simp
  have hlt : ∀ a ∈ ranks, new a < ranks.toFinset.card := fun a ha =>
    Finset.card_lt_card (Finset.filter_ssubset.2 ⟨a, List.mem_toFinset.2 ha, lt_irrefl a⟩)
  refine ⟨hmono, hlt, fun n hn => ?_⟩
  have hinj : Set.InjOn new ranks.toFinset := fun a ha b hb hab => by
    rw [Finset.mem_coe, List.mem_toFinset] at ha hb
    rcases lt_trichotomy a b with h | h | h
    · exact absurd hab (hmono a ha b hb h).ne
    · exact h
    · exact absurd hab (hmono b hb a ha h).ne'
  have himage : ranks.toFinset.image new = Finset.range ranks.toFinset.card := by
    refine Finset.eq_of_subset_of_card_le (fun x hx => ?_) ?_
    · obtain ⟨a, ha, rfl⟩ := Finset.mem_image.1 hx
      exact Finset.mem_range.2 (hlt a (List.mem_toFinset.1 ha))
    · rw [Finset.card_range, Finset.card_image_of_injOn hinj]
  have hmem : n ∈ ranks.toFinset.image new := by rw [himage]; exact Finset.mem_range.2 hn
  obtain ⟨a, ha, hne⟩ := Finset.mem_image.1 hmem
  exact ⟨a, List.mem_toFinset.1 ha, hne⟩

/-- What the end of a phase does to a thread of a place. -/
def phaseThread (part core handle : Nat) (ph : Phase) (ranks : List Nat) (t : Thread) : Thread :=
  if t.key.part == part && t.key.core == core && t.crew == handle then
    let t1 := if ph.compact then { t with rank := denseRank ranks t.rank } else t
    if t.exempt then { t1 with exempt := false }
    else
      let t2 := { t1 with arrived := false }
      match t.wait with
      | .held .barrier _ => if t.arrived then t2.past ((t.latch.getD 4#32).toNat) else t2
      | _ => t2
  else t

theorem keepsPlace_phase (part core handle : Nat) (ph : Phase) (ranks : List Nat) : KeepsPlace (phaseThread part core handle ph ranks) := fun t => by
  unfold phaseThread
  dsimp only
  split
  · split
    · split
      · exact ⟨rfl, rfl⟩
      · exact ⟨rfl, rfl⟩
    · split
      · split
        · split
          · exact ⟨rfl, rfl⟩
          · exact ⟨rfl, rfl⟩
        · split
          · exact ⟨rfl, rfl⟩
          · exact ⟨rfl, rfl⟩
      · split
        · exact ⟨rfl, rfl⟩
        · exact ⟨rfl, rfl⟩
  · exact ⟨rfl, rfl⟩

/-- A crew once its open phase is complete. -/
def crewAfter (c : Crew) (ph : Phase) (ranks : List Nat) : Crew :=
  let c1 : Crew := { c with phase := c.next, next := none }
  if ph.compact then { c1 with crewn := (nub ranks).length, reserved := c.reserved.map (denseRank ranks) } else c1

theorem completePhase_eq (s : State) (part core : Nat) (c : Crew) (ph : Phase) : completePhase s part core c ph =
    (s.mapHw fun h => dropCon (h.setCtx (((h.ctx part core).setCrew
      (crewAfter c ph ((s.members part core c.handle).map (fun t => t.rank) ++ c.reserved))).dropAhead fun a =>
        ((s.members part core c.handle).map fun t => t.key).contains a.key)) part core).mapThreads
      (phaseThread part core c.handle ph ((s.members part core c.handle).map (fun t => t.rank) ++ c.reserved)) := rfl

theorem crew?_handle {c : Ctx} {handle : Nat} {x : Crew} (h : c.crew? handle = some x) : x.handle = handle := by
  simpa using List.find?_some h

theorem crew?_setCrew {c : Ctx} {handle : Nat} {x y : Crew} (hx : c.crew? handle = some x) (hy : y.handle = handle) :
    (c.setCrew y).crew? handle = some y := by
  have hcomp : ((fun z : Crew => z.handle == handle) ∘ fun z => if z.handle == y.handle then y else z) = fun z => z.handle == handle :=
    funext fun z => by
      rw [Function.comp_apply, hy]
      split
      · next h => rw [h, hy, beq_self_eq_true]
      · rfl
  unfold Ctx.crew? Ctx.setCrew
  unfold Ctx.crew? at hx
  dsimp only
  rw [List.find?_map, hcomp, hx, Option.map_some, crew?_handle hx, hy, beq_self_eq_true, if_pos rfl]

theorem ctx_dropCon {h : Hw} {part core : Nat} (hhas : HasCtx h part core) :
    (dropCon h part core).ctx part core = { h.ctx part core with con := .empty } := ctx_setCtx_same hhas (ctx_part h part core) (ctx_core h part core)

theorem phaseReady_iff {s : State} {part core : Nat} {x : Crew} : phaseReady s part core x = true ↔
    x.reserved = [] ∧ ∀ t ∈ s.members part core x.handle, t.arrived = true ∨ t.exempt = true := by
  unfold phaseReady
  rw [Bool.and_eq_true, List.isEmpty_iff, List.all_eq_true]
  simp only [Bool.or_eq_true]

section
variable {s : State} {part core handle : Nat} {x : Crew} (hx : (s.hw.ctx part core).crew? handle = some x)
include hx

theorem settlePhase_stays (h : x.phase = none ∨ ¬ (x.reserved = [] ∧ ∀ t ∈ s.members part core handle, t.arrived = true ∨ t.exempt = true)) :
    settlePhase s part core handle = s := by
  unfold settlePhase
  rw [hx]
  dsimp only
  cases hph : x.phase with
  | none => rfl
  | some ph =>
    refine if_neg fun hready => ?_
    rw [phaseReady_iff, crew?_handle hx] at hready
    exact h.elim (fun hnone => by rw [hph] at hnone; cases hnone) fun hno => hno hready

variable {ph : Phase} (hph : x.phase = some ph) (hres : x.reserved = []) (hall : ∀ t ∈ s.members part core handle, t.arrived = true ∨ t.exempt = true)
include hph hres hall

theorem settlePhase_completes : settlePhase s part core handle =
    (s.mapHw fun h => dropCon (h.setCtx (((h.ctx part core).setCrew (crewAfter x ph ((s.members part core handle).map fun t => t.rank))).dropAhead
      fun a => ((s.members part core handle).map fun t => t.key).contains a.key)) part core).mapThreads
      (phaseThread part core handle ph ((s.members part core handle).map fun t => t.rank)) := by
  have hhandle := crew?_handle hx
  unfold settlePhase
  rw [hx]
  dsimp only
  rw [hph]
  refine (if_pos (phaseReady_iff.2 ⟨hres, by rw [hhandle]; exact hall⟩)).trans ?_
  rw [completePhase_eq, hhandle, hres, List.append_nil]

theorem settlePhase_ctx (hhas : HasCtx s.hw part core) : (settlePhase s part core handle).hw.ctx part core =
    { ((s.hw.ctx part core).setCrew (crewAfter x ph ((s.members part core handle).map fun t => t.rank))).dropAhead
      (fun a => ((s.members part core handle).map fun t => t.key).contains a.key) with con := .empty } := by
  have hset : (s.hw.setCtx (((s.hw.ctx part core).setCrew (crewAfter x ph ((s.members part core handle).map fun t => t.rank))).dropAhead
      fun a => ((s.members part core handle).map fun t => t.key).contains a.key)).ctx part core = _ :=
    ctx_setCtx_same hhas (ctx_part s.hw part core) (ctx_core s.hw part core)
  rw [settlePhase_completes hx hph hres hall]
  refine (ctx_dropCon ((hasCtx_setCtx ..).2 hhas)).trans ?_
  rw [hset]

theorem settlePhase_thread (k : Key) : (settlePhase s part core handle).thread? k =
    (s.thread? k).map (phaseThread part core handle ph ((s.members part core handle).map fun t => t.rank)) := by
  rw [settlePhase_completes hx hph hres hall, thread?_mapThreads (keepsPlace_phase part core handle ph _)]
  exact congrArg _ (thread?_congr rfl rfl k)

end

theorem crewAfter_eq {x : Crew} (ph : Phase) (hres : x.reserved = []) (ranks : List Nat) : crewAfter x ph ranks =
    if ph.compact then { x with phase := x.next, next := none, crewn := ranks.toFinset.card } else { x with phase := x.next, next := none } := by
  have hsame : x.reserved.map (denseRank ranks) = x.reserved := by rw [hres]; rfl
  unfold crewAfter
  rw [hsame, length_nub]

section
variable {part core handle : Nat} {ph : Phase} {ranks : List Nat} {t : Thread}

theorem phaseThread_other (h : ¬ (t.key.part = part ∧ t.key.core = core ∧ t.crew = handle)) : phaseThread part core handle ph ranks t = t :=
  if_neg (by simpa [and_assoc] using h)

variable (hpart : t.key.part = part) (hcore : t.key.core = core) (hcrew : t.crew = handle)
include hpart hcore hcrew

theorem phaseThread_member : phaseThread part core handle ph ranks t =
    let t1 := { t with rank := if ph.compact then (ranks.toFinset.filter fun r => r < t.rank).card else t.rank }
    if t.exempt then { t1 with exempt := false }
    else
      let t2 := { t1 with arrived := false }
      match t.wait with
      | .held .barrier _ => if t.arrived then t2.past ((t.latch.getD 4#32).toNat) else t2
      | _ => t2 := by
  have hrank : (if ph.compact then { t with rank := denseRank ranks t.rank } else t) =
      { t with rank := if ph.compact then (ranks.toFinset.filter fun r => r < t.rank).card else t.rank } := by
    rw [denseRank_eq]
    split
    · rfl
    · rfl
  unfold phaseThread
  rw [if_pos (by simp [hpart, hcore, hcrew]), hrank]

theorem phaseThread_exempt (hex : t.exempt = true) : phaseThread part core handle ph ranks t =
    { t with rank := if ph.compact then (ranks.toFinset.filter fun r => r < t.rank).card else t.rank, exempt := false } := by
  rw [phaseThread_member hpart hcore hcrew]
  exact if_pos hex

theorem phaseThread_waits (hex : t.exempt = false) (harr : t.arrived = true) {since : Nat} (hw : t.wait = .held .barrier since) :
    phaseThread part core handle ph ranks t = ({ t with
      rank := if ph.compact then (ranks.toFinset.filter fun r => r < t.rank).card else t.rank, arrived := false } : Thread).past
        (t.latch.getD 4).toNat := by
  rw [phaseThread_member hpart hcore hcrew, hex]
  dsimp only
  rw [hw, harr]
  rfl

theorem phaseThread_goes (hex : t.exempt = false) (hw : ∀ since, t.wait ≠ .held .barrier since) : phaseThread part core handle ph ranks t =
    { t with rank := if ph.compact then (ranks.toFinset.filter fun r => r < t.rank).card else t.rank, arrived := false } := by
  rw [phaseThread_member hpart hcore hcrew, hex]
  simp only [Bool.false_eq_true, if_false]

end

theorem phasesByR190 : PhasesByR190 := by
  refine ⟨fun s => rfl, fun s part core handle x hhas hx => ?_, dense_ranks⟩
  intro us ready u
  refine ⟨settlePhase_stays hx, fun ph hph ⟨hres, hall⟩ => ?_⟩
  have hctx := settlePhase_ctx hx hph hres hall hhas
  have hthread := settlePhase_thread hx hph hres hall
  have hhandle : (crewAfter x ph (us.map fun t => t.rank)).handle = handle := by
    rw [crewAfter_eq ph hres]
    split
    · exact (crew?_handle hx :)
    · exact (crew?_handle hx :)
  refine ⟨?_, ?_, fun t ht a ha hkey _ => ?_, fun k t ht hno => ?_, fun k t ht hpart hcore hcrew hne => ⟨fun hex => ?_, fun hex harr => ⟨fun since hw => ?_, fun hw => ?_⟩⟩⟩
  · rw [hctx, ← crewAfter_eq ph hres]
    exact crew?_setCrew hx hhandle
  · rw [hctx]
  · rw [hctx] at ha
    have := (List.mem_filter.1 ha).2
    dsimp only at this
    rw [hkey] at this
    simp only [Bool.not_eq_true', List.contains_eq_mem, decide_eq_false_iff_not] at this
    exact this (List.mem_map_of_mem ht)
  all_goals
    have hk := thread?_key ht
    subst hk
    rw [show u.thread? t.key = _ from hthread t.key, ht, Option.map_some]
  · rw [phaseThread_other hno]
  · rw [phaseThread_exempt hpart hcore hcrew hex]
  · rw [phaseThread_waits hpart hcore hcrew hex harr hw]
  · rw [phaseThread_goes hpart hcore hcrew hex hw]

/-! ### The instructions -/

theorem exec_cjoin (o : ScalarOps) (s : State) : exec (.cjoin o) s = execCjoin o s := rfl
theorem exec_cpart (o : ScalarOps) (s : State) : exec (.cpart o) s = execCpart o s := rfl
theorem exec_carrive (o : ScalarOps) (s : State) : exec (.carrive o) s = execCarrive o s := rfl
theorem exec_cwait (o : ScalarOps) (s : State) : exec (.cwait o) s = execCwait o s := rfl
theorem exec_cbar (o : ScalarOps) (s : State) : exec (.cbar o) s = barrier (.cbar o) false s := rfl
theorem exec_ccompact (o : ScalarOps) (s : State) : exec (.ccompact o) s = barrier (.ccompact o) true s := rfl

/-- A thread that joins a crew that is there takes its handle and the next rank (R20, R188). -/
theorem joinCrew_joins {s : State} {key : DWord} {x : Crew}
    (hx : (s.hw.ctx s.th.key.part s.th.key.core).crews.find? (fun x => x.key == key) = some x) : joinCrew s key =
      (s.mapHw fun h => h.setCtx ((s.hw.ctx s.th.key.part s.th.key.core).setCrew { x with crewn := x.crewn + 1 })).setTh
        { s.th with crew := x.handle, rank := x.crewn, arrived := false, exempt := x.phase.isSome } := by
  unfold joinCrew
  dsimp only
  rw [hx]

/-- A thread that joins a crew that is not there makes it, with a handle that is not in use (R21). -/
theorem joinCrew_makes {s : State} {key : DWord} (hx : (s.hw.ctx s.th.key.part s.th.key.core).crews.find? (fun x => x.key == key) = none) :
    ∃ handle u, joinCrew s key = u ∧ handle ≠ 0 ∧ (∀ x ∈ (s.hw.ctx s.th.key.part s.th.key.core).crews, x.handle ≠ handle) ∧
      u.th = { s.th with crew := handle, rank := 0, arrived := false, exempt := false } ∧ u.hw.mem = s.hw.mem := by
  obtain ⟨h0, hfree, -⟩ := pickHandle_fresh ((s.hw.ctx s.th.key.part s.th.key.core).crews.map fun x => x.handle) (Config.freeNat s.hw.fresh)
  refine ⟨_, _, rfl, h0, fun x hmem he => hfree (he ▸ List.mem_map_of_mem hmem), ?_, ?_⟩
  · unfold joinCrew
    dsimp only
    rw [hx]
    rfl
  · unfold joinCrew
    dsimp only
    rw [hx]
    rfl

section
variable {o : ScalarOps} {s : State} {t : Thread}

theorem cjoin_results (hent : Entered (.cjoin o) s t) :
    (joinFails t s.hw (t.code o.a) = true → Completes (.cjoin o) s (t.setPred o.d.toNat false)) ∧
    (joinFails t s.hw (t.code o.a) = false →
      CompletesAs (.cjoin o) s ((joinCrew (s.setTh t) (t.code o.a)).setTh ((joinCrew (s.setTh t) (t.code o.a)).th.setPred o.d.toNat true))) := by
  refine ⟨fun hfail => completesAs_of_run (exec_cjoin o s) hent (s' := (s.setTh t).setTh (t.setPred o.d.toNat false)) ?_,
    fun hfail => completesAs_of_run (exec_cjoin o s) hent ?_⟩
  · exact if_pos hfail
  · exact if_neg (Bool.eq_false_iff.1 hfail)

end

@[simp] theorem showBank_th (s : State) : (showBank s).th = s.th := by
  unfold showBank
  split
  · rfl
  · rfl

/-- A state in which a member has arrived: in the phase that is open for it, or in one that it opens. -/
def arrivedIn (v : State) (x : Crew) (t : Thread) (compact : Bool) : State :=
  (match x.phaseOf t with
    | none => v.setMyCrew (x.openFor t ⟨compact, t.pc⟩)
    | some _ => v).setTh { t with arrived := true }

theorem arrive_ok {v : State} {x : Crew} {t : Thread} {compact : Bool} (hth : v.th = t)
    (hkind : ∀ ph, x.phaseOf t = some ph → ph.compact = compact) : arrive v x compact = .ok (arrivedIn v x t compact) := by
  subst hth
  unfold arrive arrivedIn
  cases hph : x.phaseOf v.th with
  | none => rfl
  | some ph => exact if_pos (beq_iff_eq.2 (hkind ph hph))

theorem arrive_mismatch {v : State} {x : Crew} {t : Thread} {compact : Bool} (hth : v.th = t) {ph : Phase} (hph : x.phaseOf t = some ph)
    (hkind : ph.compact ≠ compact) : arrive v x compact = .error (.fault ⟨4, 0, false, false, ph.pc, 0⟩) := by
  subst hth
  unfold arrive
  rw [hph]
  exact if_neg (mt beq_iff_eq.1 hkind)

section
variable {o : ScalarOps} {s : State} {t : Thread}

theorem carrive_alone (hent : Entered (.carrive o) s t) (hnone : (s.setTh t).myCrew = none) : Completes (.carrive o) s t :=
  (exec_carrive o s).trans (runHeld_ok hent (by rw [hnone]; rfl))

theorem cwait_passes (hent : Entered (.cwait o) s t) (h : (s.setTh t).myCrew = none ∨ t.arrived = false) : Completes (.cwait o) s t := by
  refine completesAs_of_run (exec_cwait o s) hent (if_neg ?_)
  rcases h with h | h
  · rw [h]
    exact Bool.false_ne_true
  · rw [State.setTh_th, h, Bool.and_false]
    exact Bool.false_ne_true

variable {x : Crew} (hx : (s.setTh t).myCrew = some x)
include hx

theorem cwait_waits (hent : Entered (.cwait o) s t) (harr : t.arrived = true) : StopsWith (.cwait o) s t (.wait .barrier) := by
  refine stopsWith_of_run (exec_cwait o s) hent (if_pos ?_)
  rw [hx, State.setTh_th, harr]
  rfl

theorem carrive_arrived (hent : Entered (.carrive o) s t) (harr : t.arrived = true) : StopsWith (.carrive o) s t (.wait .barrier) :=
  (exec_carrive o s).trans (runHeld_error hent (by rw [hx]; exact if_pos harr))

theorem carrive_order_error (hent : Entered (.carrive o) s t) (harr : t.arrived = false) {e : Stop} (he : orderCore (s.setTh t) = .error e) :
    StopsWith (.carrive o) s t e :=
  (exec_carrive o s).trans (runHeld_error hent (by
    rw [hx]
    refine (if_neg (Bool.eq_false_iff.1 harr)).trans ?_
    rw [he]
    rfl))

/-- A member whose accesses are performed arrives and goes on. -/
theorem carrive_arrives (hent : Entered (.carrive o) s t) (harr : t.arrived = false) {s1 : State} (hs1 : orderCore (s.setTh t) = .ok s1) :
    exec (.carrive o) s = .next (match arrive (showBank s1) x false with
      | .ok u => settleArrival (u.advance (Instr.carrive o).length)
      | .error e => stopped (s.setTh t) e) := by
  cases hu : arrive (showBank s1) x false with
  | ok u =>
    exact (exec_carrive o s).trans (runHeld_ok hent (by
      rw [hx]
      refine (if_neg (Bool.eq_false_iff.1 harr)).trans ?_
      rw [hs1, ok_bind, hu]
      rfl))
  | error e =>
    exact (exec_carrive o s).trans (runHeld_error hent (by
      rw [hx]
      refine (if_neg (Bool.eq_false_iff.1 harr)).trans ?_
      rw [hs1, ok_bind, hu]
      rfl))

end

section
variable {i : Instr} {compact : Bool} {s : State} {t : Thread}

theorem barrier_alone (hent : Entered i s t) (hnone : (s.setTh t).myCrew = none) : barrier i compact s = .next (s.setTh (t.past i.length)) :=
  runHeld_ok hent (by dsimp only; rw [hnone]; rfl)

variable {x : Crew} (hx : (s.setTh t).myCrew = some x)
include hx

theorem barrier_arrived (hent : Entered i s t) (harr : t.arrived = true) : barrier i compact s = .next (stopped (s.setTh t) (.wait .barrier)) :=
  runHeld_error hent (by dsimp only; rw [hx]; exact if_pos harr)

theorem barrier_order_error (hent : Entered i s t) (harr : t.arrived = false) {e : Stop} (he : orderCore (s.setTh t) = .error e) :
    barrier i compact s = .next (stopped (s.setTh t) e) :=
  runHeld_error hent (by
    dsimp only
    rw [hx]
    refine (if_neg (Bool.eq_false_iff.1 harr)).trans ?_
    rw [he]
    rfl)

/-- A member whose accesses are performed arrives and is held. -/
theorem barrier_arrives (hent : Entered i s t) (harr : t.arrived = false) {s1 : State} (hs1 : orderCore (s.setTh t) = .ok s1) :
    barrier i compact s = .next (match arrive (showBank s1) x compact with
      | .ok u => settleArrival ((u.setTh { u.th with latch := some (BitVec.ofNat 32 i.length) }).hold .barrier)
      | .error e => stopped (s.setTh t) e) := by
  cases hu : arrive (showBank s1) x compact with
  | ok u =>
    exact runHeld_ok hent (by
      dsimp only
      rw [hx]
      refine (if_neg (Bool.eq_false_iff.1 harr)).trans ?_
      rw [hs1, ok_bind, hu]
      rfl)
  | error e =>
    exact runHeld_error hent (by
      dsimp only
      rw [hx]
      refine (if_neg (Bool.eq_false_iff.1 harr)).trans ?_
      rw [hs1, ok_bind, hu]
      rfl)

end


/-- Settles O36: the rules of joining, leaving and the phases, and the instructions by their cases. -/
theorem crewInstructionResults : Obligations.CrewInstructionResults := by
  refine ⟨joinFailsByR20, leavesByR21, phasesByR190, fun o s t => ⟨fun hent => ?_, fun hent => ⟨completesAs_of_run (exec_cpart o s) hent rfl, ?_⟩,
    fun hnone => ⟨fun hent => (exec_cbar o s).trans (barrier_alone hent hnone), fun hent => (exec_ccompact o s).trans (barrier_alone hent hnone),
      fun hent => carrive_alone hent hnone, fun hent => cwait_passes hent (.inl hnone)⟩, fun x hx => ⟨fun harr => ?_, fun harr hent => ?_,
      fun e harr he => ?_, fun s1 harr hs1 => ?_⟩⟩⟩
  · obtain ⟨hfails, hjoins⟩ := cjoin_results hent
    refine ⟨hfails, fun hno => ⟨hjoins hno, fun x hx => ?_, fun hx => ?_, ?_⟩⟩
    · rw [joinCrew_joins (s := s.setTh t) hx]
      exact ⟨rfl, rfl⟩
    · obtain ⟨handle, u, hu, h0, hfree, hth, -⟩ := joinCrew_makes (s := s.setTh t) hx
      rw [hu, hth]
      exact ⟨rfl, h0, hfree⟩
    · cases hfind : (s.hw.ctx t.key.part t.key.core).crews.find? (fun x => x.key == t.code o.a) with
      | some x =>
        rw [joinCrew_joins (s := s.setTh t) hfind]
        exact ⟨rfl, rfl, rfl, rfl⟩
      | none =>
        obtain ⟨handle, u, hu, -, -, hth, hmem⟩ := joinCrew_makes (s := s.setTh t) hfind
        rw [hu, hth, hmem]
        exact ⟨rfl, rfl, rfl, rfl⟩
  · intro hlive hcrew
    have hth : (s.setTh t).thread? t.key = some t := by
      unfold State.thread?
      rw [State.setTh_th, hlive]
      simp
    exact completesAs_of_run (exec_cpart o s) hent (s' := s.setTh t) (congrArg Except.ok (leaveCrew_alone hth hcrew))
  · exact ⟨fun hent => (exec_cbar o s).trans (barrier_arrived hx hent harr), fun hent => (exec_ccompact o s).trans (barrier_arrived hx hent harr),
      fun hent => carrive_arrived hx hent harr, fun hent => cwait_waits hx hent harr⟩
  · exact cwait_passes hent (.inr harr)
  · exact ⟨fun hent => (exec_cbar o s).trans (barrier_order_error hx hent harr he),
      fun hent => (exec_ccompact o s).trans (barrier_order_error hx hent harr he), fun hent => carrive_order_error hx hent harr he⟩
  · intro phase shown opened after
    have hth : (showBank s1).th = t := (showBank_th s1).trans (orderCore_th hs1)
    refine ⟨fun hkind => ⟨fun hent => ?_, fun hent => ?_⟩, fun hkind hent => ?_, fun ph hph => ⟨fun hc => ⟨fun hent => ?_, fun hent => ?_⟩, fun hc hent => ?_⟩⟩
    · have h := barrier_arrives hx hent harr hs1 (compact := false)
      rw [arrive_ok hth hkind] at h
      exact (exec_cbar o s).trans h
    · have h := carrive_arrives hx hent harr hs1
      rw [arrive_ok hth hkind] at h
      exact h
    · have h := barrier_arrives hx hent harr hs1 (compact := true)
      rw [arrive_ok hth hkind] at h
      exact (exec_ccompact o s).trans h
    · have h := barrier_arrives hx hent harr hs1 (compact := false)
      rw [arrive_mismatch hth hph (by rw [hc]; decide)] at h
      exact (exec_cbar o s).trans h
    · have h := carrive_arrives hx hent harr hs1
      rw [arrive_mismatch hth hph (by rw [hc]; decide)] at h
      exact h
    · have h := barrier_arrives hx hent harr hs1 (compact := true)
      rw [arrive_mismatch hth hph (by rw [hc]; decide)] at h
      exact (exec_ccompact o s).trans h

end Sys2Proof.Proofs

/-!
The beginning of an example of a trial (R291, R301, R345, R371, R406): its inputs are read, its sandbox is zeroed, its cells are filled.
-/
namespace Sys2Proof.Proofs
open Sys2Proof.Machine

/-! ### The scratchpads that a step leaves as they are -/

/-- Every context has the scratchpad regions that it had. -/
structure SameRegions (h h' : Hw) : Prop where
  has : ∀ part core, HasCtx h' part core ↔ HasCtx h part core
  regions : ∀ part core, (h'.ctx part core).regions = (h.ctx part core).regions

theorem SameRegions.refl (h : Hw) : SameRegions h h := ⟨fun _ _ => Iff.rfl, fun _ _ => rfl⟩

theorem SameRegions.trans {h h' h'' : Hw} (g : SameRegions h h') (g' : SameRegions h' h'') : SameRegions h h'' :=
  ⟨fun part core => (g'.has part core).trans (g.has part core), fun part core => (g'.regions part core).trans (g.regions part core)⟩

theorem SameRegions.of_ctxs {h h' : Hw} (he : h'.ctxs = h.ctxs) : SameRegions h h' where
  has part core := by unfold HasCtx; rw [he]
  regions part core := by unfold Hw.ctx; rw [he]

/-- A context is replaced by one with the regions of the one in its place. -/
theorem SameRegions.setCtx {h : Hw} {c : Ctx} (hc : c.regions = (h.ctx c.part c.core).regions) : SameRegions h (h.setCtx c) where
  has := hasCtx_setCtx h c
  regions part core := by
    rcases ctx_setCtx_cases h c part core with he | he
    · have hpart : c.part = part := he ▸ ctx_part (h.setCtx c) part core
      have hcore : c.core = core := he ▸ ctx_core (h.setCtx c) part core
      rw [he, hc, hpart, hcore]
    · rw [he]

theorem SameRegions.setCtx_at {h : Hw} {c : Ctx} {part core : Nat} (hpart : c.part = part) (hcore : c.core = core)
    (hc : c.regions = (h.ctx part core).regions) : SameRegions h (h.setCtx c) :=
  .setCtx (by rw [hpart, hcore, hc])

theorem SameRegions.touch (h : Hw) (w : Who) (acc : Acc) (xs : Xlated) : SameRegions h (touch h w acc xs) := by
  refine .trans ?_ (.of_ctxs (h := cacheXlat h w (nub (xs.map fun x => x.2.2))) rfl)
  unfold cacheXlat
  dsimp only
  split
  · exact .of_ctxs rfl
  · rename_i k hk
    have hpart : SameRegions h (h.setPart { h.part w.part with tlb := (nub (xs.map fun x => x.2.2)).foldl (tlbAdd (2 ^ 20)) (h.part w.part).tlb }) :=
      .of_ctxs rfl
    refine hpart.trans ?_
    exact SameRegions.setCtx_at (part := k.part) (core := k.core) (ctx_part _ k.part k.core) (ctx_core _ k.part k.core) rfl

theorem SameRegions.noteReads (h : Hw) (ks : List Nat) : SameRegions h (noteReads h ks) := by
  refine .of_ctxs ?_
  unfold Machine.noteReads noteGranules
  dsimp only
  split <;> rfl

theorem SameRegions.forgetAhead (h : Hw) (k : Key) (p : Nat → Bool) : SameRegions h (forgetAhead h k p) :=
  .setCtx_at (ctx_part ..) (ctx_core ..) rfl

/-- A region that is there becomes what it is mapped to. -/
theorem region_mapRegion {s : State} {part core launch : Nat} {f : Region → Region} (hhas : HasCtx s.hw part core)
    (hreg : ∃ x ∈ (s.hw.ctx part core).regions, x.launch = launch) (hf : ∀ g, (f g).launch = g.launch) :
    ((s.mapRegion part core launch f).hw.ctx part core).region launch = f ((s.hw.ctx part core).region launch) := by
  have hlaunch : (f ((s.hw.ctx part core).region launch)).launch = launch := (hf _).trans region_launch
  have hctx : (s.mapRegion part core launch f).hw.ctx part core =
      (s.hw.ctx part core).setRegion (f ((s.hw.ctx part core).region launch)) :=
    ctx_setCtx_same hhas (ctx_part ..) (ctx_core ..)
  rw [hctx]
  exact (congrArg _ hlaunch.symm).trans (region_setRegion_same (by rwa [hlaunch]))

/-! ### The sandbox (R301, R345) -/

theorem sandboxAbsent_iff {s : State} {r : TrialRun} : sandboxAbsent s r = true ↔
    ∃ i, i < r.req.sbsz ∧ (r.req.sbase + i) / 128 ∈ s.region.absent := by
  simp [sandboxAbsent, Region.absentAt, lineOf]

section
variable {r : TrialRun} {m : Memory} (hm : swf m = true)
include hm

/-- Zeroing the sandbox leaves the bytes outside it. -/
theorem sget_zero_out {k : Nat} (hk : k < r.req.sbase ∨ r.req.sbase + r.req.sbsz ≤ k) : sget (r.zero m) k = sget m k := by
  unfold TrialRun.zero
  split
  · exact sget_zeroBytes_out hm hk
  · refine sget_foldl_sset_of_ne _ _ _ hm fun i hi => ?_
    have := List.mem_range.1 (List.mem_of_mem_filter hi)
    omega

/-- A byte of the sandbox that has not been zeroed before is zero. -/
theorem sget_zero_in {i : Nat} (hi : i < r.req.sbsz) (hnew : i ∉ r.zeroed) : sget (r.zero m) (r.req.sbase + i) = 0 := by
  unfold TrialRun.zero
  split
  · exact sget_zeroBytes_in (by omega) (by omega)
  · refine sget_foldl_sset_of_mem (fun i => r.req.sbase + i) (fun _ => 0) _ hm ?_ ?_
    · exact ((List.nodup_range).filter _).map fun a b hab => Nat.add_left_cancel hab
    · exact List.mem_filter.2 ⟨List.mem_range.2 hi, by simpa using hnew⟩

/-- A byte that has been zeroed before keeps what has been stored there since. -/
theorem sget_zero_before {i : Nat} (hbefore : i ∈ r.zeroed) : sget (r.zero m) (r.req.sbase + i) = sget m (r.req.sbase + i) := by
  unfold TrialRun.zero
  split
  · rename_i he
    rw [List.isEmpty_iff.1 he] at hbefore
    cases hbefore
  · refine sget_foldl_sset_of_ne _ _ _ hm fun j hj he => ?_
    have hji : j = i := Nat.add_left_cancel he
    subst hji
    have := (List.mem_filter.1 hj).2
    simp [hbefore] at this

end

/-! ### The inputs (R345, R371, R406) -/

/-- The byte of the inputs that has been read before. -/
def TrialRun.was (r : TrialRun) (i : Nat) : Option Byte := (r.seen.find? fun x => x.1 == i).map Prod.snd

/-- The bytes of the inputs: those read before, and the others from a list. -/
def TrialRun.inputs (r : TrialRun) (bs : List Byte) : List Byte :=
  (List.range (4 * r.req.nin)).map fun i => (TrialRun.was r i).getD (bs.getD i 0)

theorem withSeen_eq_inputs {r : TrialRun} {bs : List Byte} (hlen : bs.length = 4 * r.req.nin) : withSeen r.seen id bs = TrialRun.inputs r bs := by
  refine List.ext_getElem (by simp [withSeen, TrialRun.inputs, hlen]) fun i h1 h2 => ?_
  simp only [withSeen, TrialRun.inputs, List.getElem_mapIdx, List.getElem_map, List.getElem_range, id_eq]
  rw [List.getD_eq_getElem?_getD, List.getElem?_eq_getElem (by simpa [withSeen] using h1)]
  rfl

section
variable {s : State} {r : TrialRun} (e : Nat)

/-- Inputs that have all been read before are not read again. -/
theorem readInputs_seen (h : ∀ i, i < 4 * r.req.nin → (TrialRun.was r i).isSome = true) : readInputs s r e = .ok (TrialRun.inputs r [], s) := by
  have hall : (List.range (4 * r.req.nin)).map (TrialRun.was r) = (TrialRun.inputs r []).map some := by
    unfold TrialRun.inputs
    rw [List.map_map]
    refine List.map_congr_left fun i hi => ?_
    obtain ⟨b, hb⟩ := Option.isSome_iff_exists.1 (h i (List.mem_range.1 hi))
    simp [hb]
  have hsome : allSome ((List.range (4 * r.req.nin)).map (TrialRun.was r)) = some (TrialRun.inputs r []) := by
    rw [hall, allSome_map_some]
  unfold readInputs
  dsimp only
  rw [show allSome ((List.range (4 * r.req.nin)).map fun i => (r.seen.find? fun x => x.1 == i).map Prod.snd) = _ from hsome]

/-- A read of the inputs, some of which have not been read before. -/
def inputRead (s : State) (r : TrialRun) (e : Nat) : Except Stop Xlated → Except Stop (List Byte × State)
  | .error e => .error e
  | .ok xs => match poisonOf s.hw (xkeys xs) with
    | some k => .error (.consumed (s.threadUe 0 k))
    | none =>
      if (xkeys xs).any keyIsPeer && Config.freeBool s.hw.fresh then .error (xlateFault .load (r.req.inputAt e))
      else .ok (withSeen r.seen id ((xkeys xs).map fun k => sget s.hw.mem k),
        s.mapHw fun h => noteReads (touch h s.who .load xs) (xkeys xs))

theorem readInputs_missing (h : ∃ i, i < 4 * r.req.nin ∧ TrialRun.was r i = none) :
    readInputs s r e = inputRead s r e (checkGen s s.who .load (r.req.inputAt e) (4 * r.req.nin)) := by
  have hnone : allSome ((List.range (4 * r.req.nin)).map (TrialRun.was r)) = none := by
    cases hall : allSome ((List.range (4 * r.req.nin)).map (TrialRun.was r)) with
    | none => rfl
    | some bs =>
      obtain ⟨i, hi, hno⟩ := h
      have hmem : (none : Option Byte) ∈ bs.map some := by
        rw [← eq_map_some_of_allSome hall]
        exact List.mem_map.2 ⟨i, List.mem_range.2 hi, hno⟩
      obtain ⟨b, -, hb⟩ := List.mem_map.1 hmem
      cases hb
  unfold readInputs
  dsimp only
  rw [show allSome ((List.range (4 * r.req.nin)).map fun i => (r.seen.find? fun x => x.1 == i).map Prod.snd) = _ from hnone]
  rfl

end

theorem poisonOf_some {h : Hw} {ks : List Nat} (hk : ∃ k ∈ ks, keyPoisoned h k = true) : ∃ k, poisonOf h ks = some k :=
  Option.isSome_iff_exists.1 (List.find?_isSome.2 hk)

theorem poisonOf_none {h : Hw} {ks : List Nat} (hk : ∀ k ∈ ks, keyPoisoned h k = false) : poisonOf h ks = none :=
  List.find?_eq_none.2 fun k hmem => by simp [hk k hmem]

@[simp] theorem length_xkeys (xs : Xlated) : (xkeys xs).length = xs.length := List.length_map ..

/-! ### The example begins -/

/-- The executing trial thread with example e begun on its inputs. -/
def begunExample (s : State) (r : TrialRun) (e : Nat) (bs : List Byte) : State :=
  let s := s.mapRegion s.th.key.part s.th.key.core s.th.launch fun g => { g with scr := r.zero g.scr }
  forget (s.setTh (s.th.exampleStart r e ((List.range r.req.nin).map fun i => BitVec.ofNat 32 (fld bs (4 * i) 4)) false)) fun _ => true

section
variable {s s' : State} {r : TrialRun} {e : Nat} {bs : List Byte}

theorem beginExample_absent (h : sandboxAbsent s r = true) : beginExample s r e = .error (.wait .absentLine) := if_pos h

theorem beginExample_present (h : sandboxAbsent s r = false) : beginExample s r e = match readInputs s r e with
    | .error (.wait k) => .error (.wait k)
    | .error (.consumed u) => .error (.consumed u)
    | .error _ => .ok (endTrial (s.setTh { s.th with trial := some r }) 9)
    | .ok (bs, s) => .ok (begunExample s r e bs) := by
  unfold beginExample
  rw [if_neg (by rw [h]; exact Bool.false_ne_true)]
  rfl

theorem begunExample_th : (begunExample s r e bs).th =
    s.th.exampleStart r e ((List.range r.req.nin).map fun i => BitVec.ofNat 32 (leNat ((bs.drop (4 * i)).take 4))) false := rfl

/-- The scratchpad of the launch with the sandbox zeroed. -/
theorem begunExample_scr (hhas : HasCtx s.hw s.th.key.part s.th.key.core)
    (hreg : ∃ x ∈ (s.hw.ctx s.th.key.part s.th.key.core).regions, x.launch = s.th.launch) :
    (((begunExample s r e bs).hw.ctx s.th.key.part s.th.key.core).region s.th.launch).scr =
      r.zero ((s.hw.ctx s.th.key.part s.th.key.core).region s.th.launch).scr := by
  have hmap := region_mapRegion (f := fun g => { g with scr := r.zero g.scr }) hhas hreg fun _ => rfl
  have hforget := (SameRegions.forgetAhead (s.mapRegion s.th.key.part s.th.key.core s.th.launch fun g => { g with scr := r.zero g.scr }).hw
    s.th.key fun _ => true).regions s.th.key.part s.th.key.core
  exact congrArg Region.scr ((region_of_regions hforget s.th.launch).trans hmap)

/-- The scratchpad that the executing thread's launch has in a state. -/
def scrOf (s u : State) : Memory := ((u.hw.ctx s.th.key.part s.th.key.core).region s.th.launch).scr

/-- An example is begun: its thread is in the state of R345 and its sandbox is zeroed, but for what has been zeroed before. -/
def Begun (s : State) (r : TrialRun) (e : Nat) (u : State) (bs : List Byte) : Prop :=
  u.th = s.th.exampleStart r e ((List.range r.req.nin).map fun i => BitVec.ofNat 32 (leNat ((bs.drop (4 * i)).take 4))) false ∧
  (HasCtx s.hw s.th.key.part s.th.key.core →
    (∃ x ∈ (s.hw.ctx s.th.key.part s.th.key.core).regions, x.launch = s.th.launch) → swf (scrOf s s) = true →
    (∀ i, i < r.req.sbsz → i ∉ r.zeroed → sget (scrOf s u) (r.req.sbase + i) = 0) ∧
    (∀ k, (k < r.req.sbase ∨ r.req.sbase + r.req.sbsz ≤ k) → sget (scrOf s u) k = sget (scrOf s s) k) ∧
    ∀ i, i < r.req.sbsz → i ∈ r.zeroed → sget (scrOf s u) (r.req.sbase + i) = sget (scrOf s s) (r.req.sbase + i))

theorem begun_of (hth : s'.th = s.th) (hsame : SameRegions s.hw s'.hw) : Begun s r e (begunExample s' r e bs) bs := by
  refine ⟨by rw [begunExample_th, hth], fun hhas hreg hscr => ?_⟩
  have hz := begunExample_scr (s := s') (r := r) (e := e) (bs := bs) (by rw [hth]; exact (hsame.has ..).2 hhas)
    (by rw [hth, hsame.regions]; exact hreg)
  rw [hth, region_of_regions (hsame.regions ..)] at hz
  have hscru : scrOf s (begunExample s' r e bs) = r.zero (scrOf s s) := hz
  rw [hscru]
  exact ⟨fun i hi hnew => sget_zero_in hscr hi hnew, fun k hk => sget_zero_out hscr hk, fun i _ hbefore => sget_zero_before hscr hbefore⟩

end

theorem exampleBegins : ExampleBegins := by
  intro s r e n ea faulted was inputs absent scr begun
  have hpresent : ¬ absent → sandboxAbsent s r = false := fun h => Bool.eq_false_iff.2 fun he => h (sandboxAbsent_iff.1 he)
  have hbegun : ∀ u bs, Begun s r e u bs → begun u bs := fun _ _ h => h
  refine ⟨fun h => beginExample_absent (sandboxAbsent_iff.2 h), fun hp hseen => ?_, fun hp hmiss => ?_⟩
  · refine ⟨begunExample s r e (inputs []), ?_, hbegun _ _ (begun_of rfl (.refl _))⟩
    rw [beginExample_present (hpresent hp), readInputs_seen e hseen]
    rfl
  · have hbegin := beginExample_present (e := e) (hpresent hp)
    rw [readInputs_missing e hmiss] at hbegin
    refine ⟨fun k hc => ?_, fun f hc => ?_, fun xs hc => ?_⟩
    · rw [show checkGen s s.who .load (r.req.inputAt e) (4 * r.req.nin) = _ from hc] at hbegin
      exact hbegin
    · rw [show checkGen s s.who .load (r.req.inputAt e) (4 * r.req.nin) = _ from hc] at hbegin
      exact hbegin
    · rw [show checkGen s s.who .load (r.req.inputAt e) (4 * r.req.nin) = _ from hc, inputRead] at hbegin
      refine ⟨fun hpoison => ?_, fun hclean => ?_⟩
      · obtain ⟨k, hk⟩ := poisonOf_some hpoison
        rw [hk] at hbegin
        exact ⟨_, hbegin⟩
      · rw [poisonOf_none hclean] at hbegin
        dsimp only at hbegin
        by_cases hlost : ((xkeys xs).any keyIsPeer && Config.freeBool s.hw.fresh) = true
        · rw [if_pos hlost] at hbegin
          exact .inr ⟨List.any_eq_true.1 (Bool.and_eq_true_iff.1 hlost).1, hbegin⟩
        · rw [if_neg hlost, withSeen_eq_inputs (by rw [List.length_map, length_xkeys, checkGen_length hc])] at hbegin
          exact .inl ⟨_, hbegin, hbegun _ _ (begun_of rfl ((SameRegions.touch ..).trans (.noteReads ..)))⟩

end Sys2Proof.Proofs

/-!
The code that a trial sees (R186, R253) and its lookup in the session table (R279, R352 to R354).
-/
namespace Sys2Proof.Proofs
open Sys2Proof.Machine

/-! ### The code that a trial sees -/

/-- An element of a kind that stands, from the end of a list on, before the first of its kind that fails a test: no later one of its kind fails
it. -/
theorem split_of_mem_takeWhile {α : Type} {p q : α → Bool} {e : α} (xs : List α) (h : e ∈ ((xs.filter p).reverse.takeWhile q)) :
    ∃ pre post, xs = pre ++ e :: post ∧ p e = true ∧ q e = true ∧ ∀ y ∈ post, p y = true → q y = true := by
  induction xs using List.reverseRecOn with
  | nil => cases h
  | append_singleton xs a ih =>
    rw [List.filter_append, List.reverse_append] at h
    by_cases hp : p a = true
    · rw [List.filter_cons_of_pos hp, List.filter_nil, List.reverse_singleton, List.singleton_append] at h
      by_cases hq : q a = true
      · rw [List.takeWhile_cons_of_pos hq, List.mem_cons] at h
        rcases h with rfl | h
        · exact ⟨xs, [], rfl, hp, hq, fun y hy => by cases hy⟩
        · obtain ⟨pre, post, rfl, hpe, hqe, hpost⟩ := ih h
          refine ⟨pre, post ++ [a], by simp, hpe, hqe, fun y hy hpy => ?_⟩
          rcases List.mem_append.1 hy with hy | hy
          · exact hpost y hy hpy
          · rw [List.mem_singleton.1 hy]
            exact hq
      · rw [List.takeWhile_cons_of_neg hq] at h
        cases h
    · rw [List.filter_cons_of_neg hp] at h
      obtain ⟨pre, post, rfl, hpe, hqe, hpost⟩ := ih h
      refine ⟨pre, post ++ [a], by simp, hpe, hqe, fun y hy hpy => ?_⟩
      rcases List.mem_append.1 hy with hy | hy
      · exact hpost y hy hpy
      · rw [List.mem_singleton.1 hy] at hpy
        exact absurd hpy hp

theorem bankView_old {h : Hw} {c : Ctx} {r : TrialReq} {x : Nat × Byte} (hx : x ∈ bankView h c r) :
    256 * r.slot ≤ x.1 ∧ x.1 < 256 * (r.slot + r.nslot) ∧ ∃ pre e post, c.bankOld = pre ++ e :: post ∧ e.off = x.1 ∧ e.byte = x.2 ∧
      e.id ∉ r.knows ∧ ∀ y ∈ post, y.off = x.1 → y.id ∉ r.knows := by
  unfold bankView at hx
  obtain ⟨o, -, ho⟩ := List.mem_filterMap.1 hx
  obtain ⟨e, he, rfl⟩ := Option.map_eq_some_iff.1 ho
  have hmem := List.mem_of_getElem? he
  rw [List.filter_filter] at hmem
  obtain ⟨pre, post, hsplit, hp, hq, hpost⟩ := split_of_mem_takeWhile _ hmem
  simp only [Bool.and_eq_true, beq_iff_eq, decide_eq_true_eq] at hp hpost
  obtain ⟨hoff, hlo, hhi⟩ := hp
  rw [hoff] at hlo hhi
  refine ⟨hlo, hhi, pre, e, post, hsplit, hoff, rfl, by simpa using hq, fun y hy hyo => ?_⟩
  simpa using hpost y hy ⟨hyo, by rw [hyo]; exact hlo, by rw [hyo]; exact hhi⟩

theorem trialCode : TrialCode := by
  refine ⟨fun h c r x hx => bankView_old hx, fun r bank off hno => ?_⟩
  have hnone : r.old.find? (fun x => x.1 == off) = none := List.find?_eq_none.2 fun x hx he => hno x.2 (by
    rw [← beq_iff_eq.1 he]
    exact hx)
  rw [TrialRun.bankByte, hnone]
  rfl

/-! ### Memory under a translation and under stores -/

theorem touch_memory {h : Hw} (w : Who) (acc : Acc) (xs : Xlated) (hm : swf h.mem = true) {k : Nat} (hk : k ∉ pteKeys xs) :
    sget (touch h w acc xs).mem k = sget h.mem k := by
  refine sget_foldl_setRefD acc _ hm fun hmem => hk ?_
  obtain ⟨a, ha, rfl⟩ := List.mem_map.1 hmem
  rw [mem_nub, List.mem_map] at ha
  obtain ⟨e, he, rfl⟩ := ha
  rw [mem_nub, List.mem_map] at he
  obtain ⟨x, hx, rfl⟩ := he
  exact List.mem_map_of_mem hx

theorem writeKeys_other {h : Hw} (own : Option (Nat × Nat)) {ks : List Nat} {bs : List Byte} (hm : swf h.mem = true) {k : Nat} (hk : k ∉ ks) :
    sget (writeKeys h own (ks.zip bs)).mem k = sget h.mem k := by
  rw [writeKeys_mem]
  exact sget_foldl_sset_of_ne (fun x : Nat × Byte => x.1) (fun x => x.2) _ hm fun x hx he => hk (by rw [← he]; exact (List.of_mem_zip hx).1)

theorem writeKeys_same {h : Hw} (own : Option (Nat × Nat)) {ks : List Nat} {bs : List Byte} (hm : swf h.mem = true) (hd : ks.Nodup)
    (hlen : ks.length = bs.length) : ks.map (sget (writeKeys h own (ks.zip bs)).mem) = bs := by
  refine List.ext_getElem (by simpa using hlen) fun i hi hi' => ?_
  have hik : i < ks.length := by simpa using hi
  rw [List.getElem_map]
  refine (congrArg (fun m => sget m ks[i]) (writeKeys_mem ..)).trans ?_
  exact sget_foldl_sset_of_mem (fun x : Nat × Byte => x.1) (fun x => x.2) _ hm (by rw [List.map_fst_zip hlen.le]; exact hd)
    (x := (ks[i], bs[i])) (by rw [List.mem_iff_getElem]; exact ⟨i, by simp [hik, hi'], by simp⟩)

/-! ### The entries of the session table (R352, R353) -/

/-- The address of the i-th entry that a lookup of a key probes. -/
def entryAt (x : Lookup) (key : DWord) (size i : Nat) : DWord := x.req.table + BitVec.ofNat 64 (16 * ((key.toNat % size + i) % size))

/-- The state after an entry has been read. -/
def markedBy (s : State) (x : Lookup) (acc : Acc) (xs : Xlated) : State := s.mapHw fun h => noteReads (touch h x.by_.who acc xs) (xkeys xs)

/-- A valid entry (R353). -/
def ValidEntry (old : List Byte) : Prop := (old.getD 15 0).getLsbD 0 = true

theorem validEntry_iff {old : List Byte} (hlen : old.length = 16) : (fld old 15 1 % 2 == 1) = true ↔ ValidEntry old := by
  have hdrop : (old.drop 15).take 1 = [old.getD 15 0] := by
    rw [List.drop_eq_getElem_cons (by omega), List.getD_eq_getElem?_getD, List.getElem?_eq_getElem (by omega)]
    rfl
  rw [beq_iff_eq, ValidEntry, fld, hdrop, BitVec.getLsbD, Nat.testBit_zero, decide_eq_true_iff, leNat, leNat]
  omega

theorem length_entry (x : Lookup) (key : DWord) : (x.entry key).length = 16 := by simp [Lookup.entry]

section
variable {s : State} {x : Lookup} {key : DWord} {size i n : Nat} {xs : Xlated}

theorem markedBy_memory (acc : Acc) (hm : swf s.hw.mem = true) : SameMemoryBut (pteKeys xs) s (markedBy s x acc xs) := fun k hk => by
  unfold markedBy State.mapHw
  dsimp only
  rw [noteReads_mem]
  exact touch_memory _ _ _ hm hk

theorem markedBy_swf (acc : Acc) (hm : swf s.hw.mem = true) : swf (markedBy s x acc xs).hw.mem = true := by
  unfold markedBy State.mapHw
  dsimp only
  rw [noteReads_mem]
  exact touch_swf _ _ _ hm

theorem probe_fault {e : Stop} (hc : checkGen s x.by_.who .atomic (entryAt x key size i) 16 = .error e) :
    probe s x key size i (n + 1) = .error e := by
  rw [probe]
  dsimp only
  rw [show checkGen s x.by_.who .atomic (x.req.table + BitVec.ofNat 64 (16 * ((key.toNat % size + i) % size))) 16 = _ from hc]

section
variable (hc : checkGen s x.by_.who .atomic (entryAt x key size i) 16 = .ok xs) (hclean : ∀ k ∈ xkeys xs, keyPoisoned s.hw k = false)
include hc hclean

/-- A probe of an entry that can be read: one that is valid is compared, a free one is written. -/
theorem probe_entry : probe s x key size i (n + 1) =
    if fld ((xkeys xs).map fun k => sget s.hw.mem k) 15 1 % 2 == 1 then
      (if fld ((xkeys xs).map fun k => sget s.hw.mem k) 0 8 == key.toNat then .ok (markedBy s x .load xs, [], true, false)
      else probe (markedBy s x .load xs) x key size (i + 1) n)
    else .ok ((markedBy s x .atomic xs).mapHw fun h => writeKeys h none ((xkeys xs).zip (x.entry key)), addLines [] (xkeys xs), false, false) := by
  rw [probe]
  dsimp only
  rw [show checkGen s x.by_.who .atomic (x.req.table + BitVec.ofNat 64 (16 * ((key.toNat % size + i) % size))) 16 = _ from hc]
  dsimp only
  rw [poisonOf_none hclean]
  rfl

omit hclean in
theorem length_old : ((xkeys xs).map fun k => sget s.hw.mem k).length = 16 := by
  rw [List.length_map, length_xkeys, checkGen_length hc]

theorem probe_found (hvalid : ValidEntry ((xkeys xs).map (sget s.hw.mem)))
    (hkey : leNat (((xkeys xs).map (sget s.hw.mem)).take 8) = key.toNat) :
    probe s x key size i (n + 1) = .ok (markedBy s x .load xs, [], true, false) := by
  rw [probe_entry hc hclean, if_pos ((validEntry_iff (length_old hc)).2 hvalid)]
  exact if_pos (beq_iff_eq.2 hkey)

theorem probe_passed (hvalid : ValidEntry ((xkeys xs).map (sget s.hw.mem)))
    (hkey : leNat (((xkeys xs).map (sget s.hw.mem)).take 8) ≠ key.toNat) :
    probe s x key size i (n + 1) = probe (markedBy s x .load xs) x key size (i + 1) n := by
  rw [probe_entry hc hclean, if_pos ((validEntry_iff (length_old hc)).2 hvalid)]
  exact if_neg (mt beq_iff_eq.1 hkey)

theorem probe_free (hfree : ¬ ValidEntry ((xkeys xs).map (sget s.hw.mem))) :
    probe s x key size i (n + 1) = .ok ((markedBy s x .atomic xs).mapHw fun h => writeKeys h none ((xkeys xs).zip (x.entry key)),
      addLines [] (xkeys xs), false, false) := by
  rw [probe_entry hc hclean, if_neg (mt (validEntry_iff (length_old hc)).1 hfree)]

end

/-- The bytes of a table entry that a lookup has written, and no others but those of its translation. -/
theorem inserted_memory (hm : swf s.hw.mem = true) (hlen : xs.length = 16) (hd : (xkeys xs).Nodup) :
    SameMemoryBut (xkeys xs ++ pteKeys xs) s
      ((markedBy s x .atomic xs).mapHw fun h => writeKeys h none ((xkeys xs).zip (x.entry key))) ∧
    (xkeys xs).map (sget ((markedBy s x .atomic xs).mapHw fun h => writeKeys h none ((xkeys xs).zip (x.entry key))).hw.mem) = x.entry key := by
  have hwf := markedBy_swf (x := x) (xs := xs) .atomic hm
  refine ⟨fun k hk => ?_, writeKeys_same none hwf hd (by rw [length_xkeys, hlen, length_entry])⟩
  rw [List.mem_append, not_or] at hk
  exact (writeKeys_other none hwf hk.1).trans (markedBy_memory .atomic hm k hk.2)

end

theorem filter_contains {c : Ctx} {tup : FilterTuple} : c.filter.contains tup = true ↔ tup ∈ c.filter := List.contains_iff_mem

theorem dedupByR352 : DedupByR352 := by
  intro s x hcan c z0 z1 z2 key tuple size
  have hdedup : ∀ {p : Except Stop (State × List Nat × Bool × Bool)}, x.req.tlog ≠ 0 → tuple ∉ c.filter →
      probe s x key size x.probed (min size 64 - x.probed) = p → dedup s x = match p with
        | .error e => .error e
        | .ok (s, wrote, dup, tfull) => .ok (if tfull then s else s.mapCtx x.by_.key.part x.by_.key.core fun c =>
            { c with filter := (tuple :: c.filter).take 16384 }, wrote, dup, tfull) := by
    intro p hlog hno hp
    refine (if_neg (mt beq_iff_eq.1 hlog)).trans ((if_neg (mt filter_contains.1 hno)).trans ?_)
    rw [← hp]
    rfl
  refine ⟨fun hlog => if_pos (beq_iff_eq.2 hlog), fun hlog hin => ?_, fun u wrote dup tfull hlog hno hp => ⟨?_, ?_⟩,
    fun e hlog hno hp => hdedup hlog hno hp, fun i n => ⟨rfl, fun e he => probe_fault he, fun xs hc hclean => ?_⟩⟩
  · exact (if_neg (mt beq_iff_eq.1 hlog)).trans (if_pos (filter_contains.2 hin))
  · rintro rfl
    exact hdedup hlog hno hp
  · rintro rfl
    exact hdedup hlog hno hp
  · exact ⟨fun hv hk => ⟨_, probe_found hc hclean hv hk, markedBy_memory .load hcan⟩,
      fun hv hk => ⟨_, probe_passed hc hclean hv hk, markedBy_memory .load hcan⟩,
      fun hv hd _ => ⟨_, _, probe_free hc hclean hv, inserted_memory hcan (checkGen_length hc) hd⟩⟩

end Sys2Proof.Proofs

/-!
The events of trials (R54, R258 to R261, R345 to R357): the start, the fold, the end of the fuel, the lookup.
-/
namespace Sys2Proof.Proofs
open Sys2Proof.Machine

theorem exec_trialStart (part core tid : Nat) (s : State) : exec (.trialStart part core tid) s = execTrialStart part core tid s := rfl
theorem exec_exampleFold (part core slot : Nat) (s : State) : exec (.exampleFold part core slot) s = execExampleFold part core slot s := rfl
theorem exec_fuelExhausted (part core slot : Nat) (s : State) : exec (.fuelExhausted part core slot) s = execFuelExhausted part core slot s := rfl
theorem exec_dedupLookup (part core id : Nat) (s : State) : exec (.dedupLookup part core id) s = execDedupLookup part core id s := rfl

/-! ### Setting up an example (R291, R345) -/

section
variable {s : State} {r : TrialRun} {e : Nat}

theorem beginSetup_split (h : s.port.split = true) : beginSetup s r e = s.setTh (s.th.exampleStart r e [] true) := by
  rw [beginSetup, h]
  rfl

theorem beginSetup_whole (h : s.port.split = false) : beginSetup s r e = setupExample s r e := by
  rw [beginSetup, h]
  rfl

theorem setupExample_ok {u : State} (h : beginExample s r e = .ok u) : setupExample s r e = u := by
  unfold setupExample
  rw [h]

theorem setupExample_consumed {ue : Ue} (h : beginExample s r e = .error (.consumed ue)) : setupExample s r e = consumeUe s ue := by
  unfold setupExample
  rw [h]

theorem setupExample_waits {k : WaitKind} (h : beginExample s r e = .error (.wait k)) :
    setupExample s r e = s.setTh { s.th.exampleStart r e [] true with wait := .retry k (s.th.wait.since s.time) } := by
  unfold setupExample
  rw [h]

end

/-! ### The start of a trial (R259, R345) -/

/-- The thread of a trial that starts. -/
def trialThread (s : State) (part core : Nat) (e : StartEntry) (r : TrialReq) : Thread :=
  { Thread.idle with
    live := true, key := ⟨part, core, (s.freeSlots part core false).1⟩, launch := e.launch, tid := BitVec.ofNat 32 e.tid, win := r.win,
    fuel := r.fuel, picker := leastPicker (s.threadsOn part core) }

/-- The state in which a trial's first example is set up. -/
def trialBegun (s : State) (part core : Nat) (e : StartEntry) (r : TrialReq) : State :=
  ((beginStart s part core e).mapHw fun h => { h with fresh := h.fresh + 256 * r.nslot }).setTh (trialThread s part core e r)

/-- A trial at its first example. -/
def firstRun (s : State) (part core : Nat) (r : TrialReq) : TrialRun :=
  ⟨r, 0, 0, false, false, false, [], [], bankView s.hw (s.hw.ctx part core) r⟩

theorem trialStart_begins {s : State} {part core : Nat} {e : StartEntry} {r : TrialReq} (hruns : contextRuns s part core = true)
    (hnext : nextStart s part core = some e) (hkind : e.kind = .trial r) :
    exec (.trialStart part core e.tid) s = .next (beginSetup (trialBegun s part core e r) (firstRun s part core r) 0).leaveThread := by
  rw [exec_trialStart, execTrialStart, hruns, hnext]
  dsimp only
  rw [hkind]
  dsimp only
  rw [if_neg (by decide), if_neg (by simp)]
  rfl

/-! ### The fold of an example (R346) and the end of the fuel (R347) -/

section
variable {s : State} {part core slot : Nat} {t : Thread} {r : TrialRun} (hruns : contextRuns s part core = true)
  (ht : s.thread? ⟨part, core, slot⟩ = some t) (htrial : t.trial = some r)
include hruns ht htrial

theorem exampleFold_loading (hload : r.loading = true) :
    exec (.exampleFold part core slot) s = .next (setupExample (s.enterThread t) r r.ex).leaveThread := by
  rw [exec_exampleFold, execExampleFold, ht]
  dsimp only
  rw [htrial]
  dsimp only
  rw [hruns, hload]
  rfl

theorem exampleFold_folds (hload : r.loading = false) (hfold : r.folding = true) (hfull : t.fullAt 0 r.req.nout) :
    exec (.exampleFold part core slot) s = .next (foldExample (s.enterThread t) r).leaveThread := by
  have hnone : t.firstEmpty 0 r.req.nout = none := (Thread.firstEmpty_none t 0 r.req.nout).2 hfull
  rw [exec_exampleFold, execExampleFold, ht]
  dsimp only
  rw [htrial]
  dsimp only
  rw [hruns, hload, hfold, hnone]
  rfl

theorem fuelExhausted_starved (hstarved : r.starved = true) :
    exec (.fuelExhausted part core slot) s = .next (endTrial (s.enterThread t) 1).leaveThread := by
  rw [exec_fuelExhausted, execFuelExhausted, ht]
  dsimp only
  rw [htrial]
  dsimp only
  rw [hruns, hstarved]
  rfl

omit hruns in
theorem fuelExhausted_fed (hfed : r.starved = false) : exec (.fuelExhausted part core slot) s = .next s := by
  rw [exec_fuelExhausted, execFuelExhausted, ht]
  dsimp only
  rw [htrial]
  dsimp only
  rw [hfed]
  rfl

end

/-- A state in which an example is folded: without the accesses of its thread. -/
def folded (s : State) : State := s.mapHw fun h => { h with pends := h.pends.filter fun p => !p.ofThread s.th }

/-- A trial with its example folded. -/
def foldedRun (r : TrialRun) : TrialRun := { r with done := r.ex + 1, folding := false }

theorem foldExample_ok {s s1 : State} {r : TrialRun} (h : flush (s.setTh (foldOutputs s.th r.req.nout)) = .ok s1) : foldExample s r =
    if r.ex + 1 == r.req.nex then endTrial ((folded s1).setTh { (folded s1).th with trial := some (foldedRun r) }) 0
    else beginSetup (folded s1) (foldedRun r) (r.ex + 1) := by
  unfold foldExample
  rw [h]
  rfl

/-! ### The lookup (R352 to R357) -/

theorem lookupWaits_iff {c : Ctx} {x : Lookup} : c.lookupWaits x = true ↔
    (∃ y ∈ c.lookups, y.clk = x.clk ∧ y.req.table = x.req.table ∧ y.answer = none ∧ y.tid.toNat < x.tid.toNat) ∨
    (x.begun = false ∧ 32 ≤ (c.lookups.filter Lookup.begun).length) := by
  simp [Ctx.lookupWaits, Ctx.lookupBehind, List.countP_eq_length_filter, and_assoc]

section
variable {s : State} {part core : Nat} {x : Lookup} (hruns : contextRuns s part core = true)
  (hfind : (s.hw.ctx part core).lookups.find? (fun y => y.id == x.id) = some x)
include hruns hfind

theorem dedupLookup_waits (hwaits : (s.hw.ctx part core).lookupWaits x = true) : exec (.dedupLookup part core x.id) s = .next s := by
  rw [exec_dedupLookup, execDedupLookup, hfind]
  dsimp only
  rw [hruns, hwaits]
  rfl

theorem dedupLookup_answers {u v : State} {w w' : List Nat} {dup full : Bool} (hgoes : (s.hw.ctx part core).lookupWaits x = false)
    (hans : answer s x = .ok (u, w, dup, full)) (hwrite : engWrite u x.by_ w (x.rest dup full).1 (x.rest dup full).2 = .ok (v, w')) :
    exec (.dedupLookup part core x.id) s = .next (commandOver (uncount
      (trialOver (dropWritten v x.by_ w') x (BitVec.ofNat 64 (fld (x.record dup full) 0 8))) x.by_ .trial) x.by_) := by
  rw [exec_dedupLookup, execDedupLookup, hfind]
  dsimp only
  rw [hruns, hgoes, hans]
  dsimp only
  rw [hwrite]
  rfl

end

theorem answer_ok {s : State} {x : Lookup} {p : State × List Nat × Bool × Bool} (hnew : x.answer = none → dedup s x = .ok p)
    (hold : ∀ a, x.answer = some a → p = (s, x.wrote, a)) : answer s x = .ok p := by
  unfold answer
  cases ha : x.answer with
  | none => exact hnew ha
  | some a => rw [hold a ha]

/-! ### The state of an example's start (R345) -/

section
variable (t : Thread) (r : TrialRun) (e : Nat) (ins : List Word)

theorem exampleStart_cell {i : Nat} (hi : i < r.req.win) : (t.exampleStart r e ins false).cell i = ⟨ins.getD i 0, true, .plain⟩ := by
  simp [Thread.exampleStart, Thread.cell, hi]

theorem exampleStart_sreg {i : Nat} (hlo : 0 < i) (hhi : i < 30) : (t.exampleStart r e ins false).sreg i = 0 := by
  have h32 : i < 32 := by omega
  rw [Thread.sreg, dif_pos h32]
  simp only [Thread.exampleStart]
  rw [Vector.getElem_set_ne _ _ (by omega), Vector.getElem_set_ne _ _ (by omega), Vector.getElem_set_ne _ _ (by omega), Vector.getElem_replicate]

theorem exampleStart_pred {i : Nat} (hi : i < 7) : (t.exampleStart r e ins false).pred i = false := by
  rw [Thread.pred, dif_pos hi]
  exact Vector.getElem_replicate hi

end

/-- Settles O50: how an example begins, what code a trial sees, what its lookup finds, and the steps of a trial. -/
theorem trialEvents : Obligations.TrialEvents := by
  refine ⟨exampleBegins, trialCode, dedupByR352, fun s part core => ⟨fun e r hruns hnext hkind => ?_, fun slot t r hruns ht htrial => ?_,
    fun x hruns hfind => ?_, fun idx => rfl, fun t r e ins hwin => ?_⟩⟩
  · have hstart := trialStart_begins hruns hnext hkind
    refine ⟨fun hsplit => ?_, fun hwhole => ?_⟩
    · rw [beginSetup_split (s := trialBegun s part core e r) hsplit] at hstart
      exact hstart
    · rw [beginSetup_whole (s := trialBegun s part core e r) hwhole] at hstart
      refine ⟨fun u hu => ?_, fun ue hue => ?_, fun k hk => ?_⟩
      · rw [setupExample_ok (s := trialBegun s part core e r) (r := firstRun s part core r) hu] at hstart
        exact hstart
      · rw [setupExample_consumed (s := trialBegun s part core e r) (r := firstRun s part core r) hue] at hstart
        exact hstart
      · rw [setupExample_waits (s := trialBegun s part core e r) (r := firstRun s part core r) hk] at hstart
        exact hstart
  · refine ⟨fun s1 hload hfold hfull hflush => ?_, fun u hload hu => ?_, fuelExhausted_starved hruns ht htrial, fuelExhausted_fed ht htrial⟩
    · have hfolds := exampleFold_folds hruns ht htrial hload hfold hfull
      rw [foldExample_ok (s := s.enterThread t) hflush] at hfolds
      have hport : (folded s1).port = s.port := (Keeps.flush hflush).port
      refine ⟨fun hlast => ?_, fun hmore hsplit => ?_, fun u hmore hwhole hu => ?_⟩
      · rw [if_pos (beq_iff_eq.2 hlast)] at hfolds
        exact hfolds
      · rw [if_neg (mt beq_iff_eq.1 hmore), beginSetup_split (by rw [hport]; exact hsplit)] at hfolds
        exact hfolds
      · rw [if_neg (mt beq_iff_eq.1 hmore), beginSetup_whole (by rw [hport]; exact hwhole),
          setupExample_ok (s := folded s1) (r := foldedRun r) hu] at hfolds
        exact hfolds
    · rw [exampleFold_loading hruns ht htrial hload, setupExample_ok hu]
  · refine ⟨fun hwaits => dedupLookup_waits hruns hfind (lookupWaits_iff.2 hwaits), fun u v w w' dup full hgoes hnew hold hwrite => ?_⟩
    exact dedupLookup_answers hruns hfind (Bool.eq_false_iff.2 fun h => hgoes (lookupWaits_iff.1 h)) (answer_ok hnew hold) hwrite
  · refine ⟨rfl, by simp [Thread.exampleStart], fun i hi => exampleStart_cell t r e ins hi, rfl, rfl, rfl, fun i hlo hhi => exampleStart_sreg t r e ins hlo hhi,
      fun i hi => exampleStart_pred t r e ins hi, rfl, rfl, rfl, rfl, rfl, rfl, rfl, rfl, rfl, rfl, rfl⟩

end Sys2Proof.Proofs

/-!
The rotations of a picker (R17, R18): which class is foremost, when one is pressed, and what a rotation does.
-/
namespace Sys2Proof.Proofs
open Sys2Proof.Machine

/-! ### The foremost class -/

theorem foldl_max_spec (f : PcClass → Nat) (cs : List PcClass) (m : Nat) : let top := cs.foldl (fun m c => max m (f c)) m
    m ≤ top ∧ (∀ x ∈ cs, f x ≤ top) ∧ (top = m ∨ ∃ x ∈ cs, f x = top) := by
  induction cs generalizing m with
  | nil => exact ⟨Nat.le_refl _, fun x hx => absurd hx List.not_mem_nil, Or.inl rfl⟩
  | cons c cs ih =>
    obtain ⟨hm, hle, htop⟩ := ih (max m (f c))
    refine ⟨Nat.le_trans (Nat.le_max_left ..) hm, fun x hx => ?_, ?_⟩
    · rcases List.mem_cons.1 hx with rfl | hx
      · exact Nat.le_trans (Nat.le_max_right ..) hm
      · exact hle x hx
    · rcases htop with he | ⟨x, hx, he⟩
      · rcases Nat.le_total m (f c) with hmc | hmc
        · exact .inr ⟨c, List.mem_cons_self, by rw [List.foldl_cons, he, Nat.max_eq_right hmc]⟩
        · exact .inl (by rw [List.foldl_cons, he, Nat.max_eq_left hmc])
      · exact .inr ⟨x, List.mem_cons_of_mem _ hx, he⟩

section
variable {f : PcClass → Nat} {cs : List PcClass} {c : PcClass}

theorem foremost_some (h : PcClass.foremost f cs = some c) :
    c ∈ cs ∧ ∀ x ∈ cs, f x < f c ∨ (f x = f c ∧ c.born ≤ x.born) := by
  obtain ⟨hmem, hmin⟩ := minBy_eq_some h
  obtain ⟨hc, htop⟩ := List.mem_filter.1 hmem
  have htop : f c = cs.foldl (fun m c => max m (f c)) 0 := beq_iff_eq.1 htop
  refine ⟨hc, fun x hx => ?_⟩
  have hle : f x ≤ f c := by
    rw [htop]
    exact (foldl_max_spec f cs 0).2.1 x hx
  rcases Nat.lt_or_eq_of_le hle with hlt | he
  · exact .inl hlt
  · exact .inr ⟨he, hmin x (List.mem_filter.2 ⟨hx, beq_iff_eq.2 (by rw [he, htop])⟩)⟩

theorem foremost_le (h : PcClass.foremost f cs = some c) : ∀ x ∈ cs, f x ≤ f c := fun x hx => by
  have := (foremost_some h).2 x hx
  omega

theorem foremost_none : PcClass.foremost f cs = none ↔ cs = [] := by
  refine ⟨fun h => ?_, fun h => by rw [h]; rfl⟩
  have hempty : (cs.filter fun c => f c == cs.foldl (fun m c => max m (f c)) 0) = [] := minBy_eq_none.1 h
  cases cs with
  | nil => rfl
  | cons c cs =>
    obtain ⟨-, hle, htop⟩ := foldl_max_spec f (c :: cs) 0
    have hex : ∃ x ∈ c :: cs, f x = (c :: cs).foldl (fun m c => max m (f c)) 0 := by
      rcases htop with he | hex
      · have := hle c List.mem_cons_self
        exact ⟨c, List.mem_cons_self, by omega⟩
      · exact hex
    obtain ⟨x, hx, he⟩ := hex
    exact absurd (beq_iff_eq.2 he) (List.filter_eq_nil_iff.1 hempty x hx)

end

/-! ### Classes that are in time -/

section
variable {bound : Nat} {f : PcClass → Nat} {cs : List PcClass}

theorem pressed_iff : PcClass.pressed bound f cs = true ↔ ¬ InTime bound f cs := by
  simp [PcClass.pressed, InTime]

theorem pressed_eq_false : PcClass.pressed bound f cs = false ↔ InTime bound f cs := by
  rw [← Bool.not_eq_true, pressed_iff, not_not]

/-- Classes fewer of which have come near to the bound are in time. -/
theorem inTime_of_count {cs' : List PcClass} {f' : PcClass → Nat} (h : InTime bound f cs)
    (hle : ∀ k, k < bound → (cs'.countP fun c => decide (bound ≤ f' c + k)) ≤ cs.countP fun c => decide (bound ≤ f c + k)) : InTime bound f' cs' :=
  fun k hk => Nat.le_trans (hle k hk) (h k hk)

theorem inTime_sublist {cs' : List PcClass} (h : InTime bound f cs) (hs : cs'.Sublist cs) : InTime bound f cs' :=
  inTime_of_count h fun _ _ => hs.countP_le

theorem inTime_map {g : PcClass → PcClass} : InTime bound f (cs.map g) ↔ InTime bound (fun c => f (g c)) cs := by
  unfold InTime
  simp only [List.countP_map, Function.comp_def]

theorem inTime_mono {f' : PcClass → Nat} (h : InTime bound f cs) (hle : ∀ c ∈ cs, f' c ≤ f c) : InTime bound f' cs :=
  inTime_of_count h fun k _ => List.countP_mono_left fun c hc hp => by
    have := hle c hc
    simp only [decide_eq_true_eq] at hp ⊢
    omega

theorem inTime_of_zero (h : ∀ c ∈ cs, f c = 0) : InTime bound f cs := fun k hk => by
  rw [List.countP_eq_zero.2 fun c hc => by simp [h c hc, hk]]
  exact Nat.zero_le _

theorem inTime_append {ds : List PcClass} (h : InTime bound f cs) (hd : ∀ d ∈ ds, f d = 0) : InTime bound f (cs ++ ds) := by
  refine inTime_of_count h fun k hk => ?_
  have hzero : (ds.countP fun c => decide (bound ≤ f c + k)) = 0 := List.countP_eq_zero.2 fun d hmem => by simp [hd d hmem, hk]
  rw [List.countP_append, hzero]
  exact Nat.le_refl _

/-- Classes that have not waited are in time whatever the others do. -/
theorem inTime_filter {p : PcClass → Bool} (h : ∀ c ∈ cs, p c = false → f c = 0) : InTime bound f (cs.filter p) ↔ InTime bound f cs := by
  refine ⟨fun hf => inTime_of_count hf fun k hk => ?_, fun hf => inTime_sublist hf List.filter_sublist⟩
  rw [List.countP_filter]
  refine List.countP_mono_left fun c hc hp => ?_
  cases hpc : p c with
  | true => simpa using hp
  | false =>
    rw [h c hc hpc] at hp
    simp only [decide_eq_true_eq] at hp
    omega

/-- Classes that would be in time if the foremost of them were served now. -/
def OneShort (bound : Nat) (f : PcClass → Nat) (cs : List PcClass) : Prop :=
  ∀ k, k < bound → (cs.countP fun c => decide (bound ≤ f c + k)) ≤ k + 1

/-- One of the foremost classes is served. -/
theorem OneShort.serve {c : PcClass} (h : OneShort bound f cs) (hc : c ∈ cs) (hmax : ∀ x ∈ cs, f x ≤ f c) :
    InTime bound f (cs.filter fun x => x.born != c.born) := fun k hk => by
  by_cases hlate : bound ≤ f c + k
  · have hlt : ((cs.filter fun x => x.born != c.born).countP fun x => decide (bound ≤ f x + k)) < cs.countP fun x => decide (bound ≤ f x + k) := by
      rw [List.countP_eq_length_filter, List.countP_eq_length_filter, List.filter_filter, List.filter_congr fun x _ => Bool.and_comm .., ← List.filter_filter]
      exact List.length_filter_lt_length_iff_exists.2 ⟨c, List.mem_filter.2 ⟨hc, decide_eq_true hlate⟩, by simp⟩
    have := h k hk
    omega
  · rw [List.countP_eq_zero.2 fun x hx hp => hlate ?_]
    · exact Nat.zero_le _
    · have := hmax x (List.mem_of_mem_filter hx)
      simp only [decide_eq_true_eq] at hp
      omega

theorem oneShort_of_inTime (h : InTime bound f cs) : OneShort bound f cs := fun k hk => Nat.le_succ_of_le (h k hk)

/-- Classes in time for a bound are one short of being so for the bound before. -/
theorem oneShort_pred (h : InTime (bound + 1) f cs) : OneShort bound f cs := fun k hk =>
  Nat.le_trans (List.countP_mono_left fun c _ hp => by
    simp only [decide_eq_true_eq] at hp ⊢
    omega) (h (k + 1) (by omega))

/-- After one more rotation classes that were in time are one short of it, for there are not more of them than rotations. -/
theorem oneShort_tick {f' : PcClass → Nat} (h : InTime bound f cs) (hlen : cs.length ≤ bound) (hle : ∀ c ∈ cs, f' c ≤ f c + 1) :
    OneShort bound f' cs := fun k hk => by
  by_cases hlast : k + 1 < bound
  · refine Nat.le_trans (List.countP_mono_left fun c hc hp => ?_) (h (k + 1) hlast)
    have := hle c hc
    simp only [decide_eq_true_eq] at hp ⊢
    omega
  · exact Nat.le_trans List.countP_le_length (by omega)

/-- After one more rotation classes that were in time for the bound before are still in time. -/
theorem inTime_tick {f' : PcClass → Nat} (h : InTime bound f cs) (hlen : cs.length ≤ bound) (hle : ∀ c ∈ cs, f' c ≤ f c + 1) :
    InTime (bound + 1) f' cs := fun k hk => by
  by_cases hlast : k < bound
  · refine Nat.le_trans (List.countP_mono_left fun c hc hp => ?_) (h k hlast)
    have := hle c hc
    simp only [decide_eq_true_eq] at hp ⊢
    omega
  · exact Nat.le_trans List.countP_le_length (by omega)

end

/-! ### Classes by their numbers -/

section
variable {cs : List PcClass} {c : PcClass} (hd : (cs.map fun c => c.born).Nodup) (hc : c ∈ cs)
include hd hc

theorem eq_of_born {x : PcClass} (hx : x ∈ cs) (he : x.born = c.born) : x = c := List.inj_on_of_nodup_map hd hx hc he

theorem find?_born : (cs.find? fun x => x.born == c.born) = some c := by
  cases h : cs.find? fun x => x.born == c.born with
  | none => exact absurd (beq_iff_eq.2 rfl) (List.find?_eq_none.1 h c hc)
  | some x =>
    have hx : x.born = c.born := by simpa using List.find?_some h
    rw [eq_of_born hd hc (List.mem_of_find?_eq_some h) hx]

end

/-! ### The rotation -/

section
variable (p : Picker) (rdy : List Thread) (done : Option Nat)

theorem map_born_of {g : PcClass → PcClass} (hg : ∀ c, (g c).born = c.born) (cs : List PcClass) : (cs.map g).map (fun c => c.born) = cs.map fun c => c.born := by
  rw [List.map_map]
  exact List.map_congr_left fun c _ => hg c

theorem tick_active_born : ((p.tick rdy).active.map fun c => c.born) = p.active.map fun c => c.born := by
  rw [Picker.tick, List.map_map]
  rfl

theorem tick_pending_born : ((p.tick rdy).pending.map fun c => c.born) = p.pending.map fun c => c.born := by
  rw [Picker.tick, List.map_map]
  rfl

/-- The classes that wait for a place and are ready. -/
def readyPending (p : Picker) (rdy : List Thread) : List PcClass := p.pending.filter fun c => c.hasAny rdy

theorem letIn_eq (p : Picker) : p.letIn rdy done = if PcClass.pressed 16 PcClass.held (readyPending p rdy) then
    match PcClass.foremost PcClass.held (readyPending p rdy), p.active.find? fun c => done == some c.born with
    | some d, some c => p.swap c d
    | _, _ => p
  else p := rfl

variable {p rdy done}

theorem letIn_inTime (h : InTime 16 PcClass.held (readyPending p rdy)) : p.letIn rdy done = p := by
  rw [letIn_eq, if_neg (by rw [pressed_iff, not_not]; exact h)]

theorem letIn_noRoom (h : ∀ c ∈ p.active, done ≠ some c.born) : p.letIn rdy done = p := by
  have hnone : (p.active.find? fun c => done == some c.born) = none := List.find?_eq_none.2 fun c hc he => h c hc (beq_iff_eq.1 he)
  rw [letIn_eq, hnone]
  split
  · cases PcClass.foremost PcClass.held (readyPending p rdy) <;> rfl
  · rfl

/-- Where a pending class would come too late, the foremost one takes the place of the class whose turn is over. -/
theorem letIn_swaps {c : PcClass} (hd : (p.active.map fun c => c.born).Nodup) (hlate : ¬ InTime 16 PcClass.held (readyPending p rdy))
    (hc : c ∈ p.active) (hdone : done = some c.born) : ∃ d, PcClass.foremost PcClass.held (readyPending p rdy) = some d ∧
      p.letIn rdy done = p.swap c d := by
  have hfind : (p.active.find? fun x => done == some x.born) = some c := by
    rw [← find?_born hd hc, hdone]
    refine List.find?_congr fun x _ => ?_
    simp [eq_comm]
  cases hf : PcClass.foremost PcClass.held (readyPending p rdy) with
  | none =>
    rw [foremost_none.1 hf] at hlate
    exact absurd (inTime_of_zero fun c hc => by cases hc) hlate
  | some d =>
    refine ⟨d, rfl, ?_⟩
    rw [letIn_eq, if_pos (pressed_iff.2 hlate), hf, hfind]

theorem pick_none : p.pick rdy = none ↔ readyPending p rdy = [] := by
  unfold Picker.pick
  change (match readyPending p rdy with
    | [] => none
    | d :: ds => if PcClass.pressed 15 PcClass.held ds then PcClass.foremost PcClass.held (d :: ds) else some d) = none ↔ _
  cases readyPending p rdy with
  | nil => simp
  | cons d ds =>
    dsimp only
    split
    · rw [foremost_none]
    · simp

theorem pick_cons {d : PcClass} {ds : List PcClass} (h : readyPending p rdy = d :: ds) :
    (InTime 15 PcClass.held ds → p.pick rdy = some d) ∧
    (¬ InTime 15 PcClass.held ds → ∃ x, p.pick rdy = some x ∧ x ∈ d :: ds ∧ ∀ y ∈ d :: ds, y.held ≤ x.held) := by
  have hpick : p.pick rdy = if PcClass.pressed 15 PcClass.held ds then PcClass.foremost PcClass.held (d :: ds) else some d := by
    unfold Picker.pick
    rw [show (p.pending.filter fun c => c.hasAny rdy) = d :: ds from h]
  rw [hpick]
  refine ⟨fun hin => if_neg (by rw [pressed_iff, not_not]; exact hin), fun hlate => ?_⟩
  rw [if_pos (pressed_iff.2 hlate)]
  cases hf : PcClass.foremost PcClass.held (d :: ds) with
  | none => exact absurd (foremost_none.1 hf) (List.cons_ne_nil _ _)
  | some x => exact ⟨x, rfl, (foremost_some hf).1, foremost_le hf⟩

end

/-- The active classes that are ready. -/
def readyActive (p : Picker) (rdy : List Thread) : List PcClass := p.active.filter fun c => c.hasAny rdy

/-- The picker once a rotation has let a class in. -/
def turned (p : Picker) (rdy : List Thread) (done : Option Nat) : Picker := (p.tick rdy).letIn rdy done

/-- Classes with one of them served. -/
def served (cs : List PcClass) (n : Nat) : List PcClass := cs.map fun d => if d.born == n then { d with waited := 0 } else d

section
variable {p : Picker} {rdy : List Thread} {done : Option Nat}

theorem rotate_eq : p.rotate rdy done = match (turned p rdy done).choice rdy with
    | none => { turned p rdy done with chosen := none }
    | some c => { turned p rdy done with chosen := some c.born, active := served (turned p rdy done).active c.born } := rfl

theorem rotate_pending : (p.rotate rdy done).pending = (turned p rdy done).pending := by
  rw [rotate_eq]
  cases (turned p rdy done).choice rdy <;> rfl

theorem choice_none : p.choice rdy = none ↔ readyActive p rdy = [] := by
  unfold Picker.choice
  change (match PcClass.foremost PcClass.age (readyActive p rdy) with
    | none => none
    | some c => if PcClass.pressed 8 PcClass.waited ((readyActive p rdy).filter fun d => d.born != c.born) then
        PcClass.foremost PcClass.waited (readyActive p rdy) else some c) = none ↔ _
  cases h : PcClass.foremost PcClass.age (readyActive p rdy) with
  | none => exact iff_of_true rfl (foremost_none.1 h)
  | some c =>
    have hne : readyActive p rdy ≠ [] := fun he => by rw [foremost_none.2 he] at h; cases h
    dsimp only
    split
    · rw [foremost_none]
    · exact iff_of_false (by simp) hne

/-- The class that a rotation chooses: the one of greatest age, or, where another would come too late, the one that has waited longest. -/
theorem choice_some {c : PcClass} (h : p.choice rdy = some c) : ∃ a, PcClass.foremost PcClass.age (readyActive p rdy) = some a ∧
    (InTime 8 PcClass.waited ((readyActive p rdy).filter fun d => d.born != a.born) → c = a) ∧
    (¬ InTime 8 PcClass.waited ((readyActive p rdy).filter fun d => d.born != a.born) →
      PcClass.foremost PcClass.waited (readyActive p rdy) = some c) := by
  unfold Picker.choice at h
  change (match PcClass.foremost PcClass.age (readyActive p rdy) with
    | none => none
    | some c => if PcClass.pressed 8 PcClass.waited ((readyActive p rdy).filter fun d => d.born != c.born) then
        PcClass.foremost PcClass.waited (readyActive p rdy) else some c) = some c at h
  cases ha : PcClass.foremost PcClass.age (readyActive p rdy) with
  | none =>
    rw [ha] at h
    cases h
  | some a =>
    rw [ha] at h
    dsimp only at h
    refine ⟨a, rfl, fun hin => ?_, fun hlate => ?_⟩
    · rw [if_neg (by rw [pressed_iff, not_not]; exact hin)] at h
      exact (Option.some.inj h).symm
    · rwa [if_pos (pressed_iff.2 hlate)] at h

theorem choice_mem {c : PcClass} (h : p.choice rdy = some c) : c ∈ readyActive p rdy := by
  obtain ⟨a, ha, hin, hlate⟩ := choice_some h
  by_cases ht : InTime 8 PcClass.waited ((readyActive p rdy).filter fun d => d.born != a.born)
  · rw [hin ht]
    exact (foremost_some ha).1
  · exact (foremost_some (hlate ht)).1

theorem mem_readyActive {c : PcClass} : c ∈ readyActive p rdy ↔ c ∈ p.active ∧ c.hasAny rdy = true := List.mem_filter

theorem mem_readyPending {c : PcClass} : c ∈ readyPending p rdy ↔ c ∈ p.pending ∧ c.hasAny rdy = true := List.mem_filter

theorem rotate_chosen_isSome : (∃ c ∈ (turned p rdy done).active, c.hasAny rdy = true) ↔ (p.rotate rdy done).chosen.isSome = true := by
  have hex : (∃ c ∈ (turned p rdy done).active, c.hasAny rdy = true) ↔ readyActive (turned p rdy done) rdy ≠ [] := by
    rw [List.ne_nil_iff_exists_cons, ← List.ne_nil_iff_exists_cons]
    refine ⟨fun ⟨c, hc, hr⟩ he => ?_, fun hne => ?_⟩
    · have := mem_readyActive.2 ⟨hc, hr⟩
      rw [he] at this
      cases this
    · obtain ⟨c, hc⟩ := List.exists_mem_of_ne_nil _ hne
      exact ⟨c, mem_readyActive.1 hc⟩
  rw [hex, rotate_eq]
  cases h : (turned p rdy done).choice rdy with
  | none => simp [choice_none.1 h]
  | some c =>
    refine iff_of_true (fun he => ?_) rfl
    rw [choice_none.2 he] at h
    cases h

theorem current_served {cs : List PcClass} {c : PcClass} (hd : (cs.map fun c => c.born).Nodup) (hc : c ∈ cs) :
    (served cs c.born).find? (fun x => x.born == c.born) = some { c with waited := 0 } := by
  unfold served
  have hmem : ({ c with waited := 0 } : PcClass) ∈ cs.map fun d => if d.born == c.born then { d with waited := 0 } else d :=
    List.mem_map.2 ⟨c, hc, if_pos (beq_iff_eq.2 rfl)⟩
  refine find?_born (c := { c with waited := 0 }) ?_ hmem
  rwa [map_born_of fun d => by split <;> rfl]

end

/-- A swap leaves the numbers of the active classes different from each other. -/
theorem swap_active_nodup {p : Picker} {c d : PcClass} (hd : ((p.active ++ p.pending).map fun c => c.born).Nodup) (hc : c ∈ p.active) (hp : d ∈ p.pending) :
    ((p.swap c d).active.map fun c => c.born).Nodup := by
  rw [List.map_append] at hd
  obtain ⟨ha, -, hdisj⟩ := List.nodup_append.1 hd
  unfold Picker.swap
  dsimp only
  rw [List.map_map]
  refine (List.Nodup.of_map _ ha).map_on fun x hx y hy he => ?_
  have hne : ∀ z ∈ p.active, z.born ≠ d.born := fun z hz hzd => hdisj _ (List.mem_map_of_mem hz) _ (List.mem_map_of_mem hp) hzd
  dsimp only [Function.comp] at he
  by_cases hxc : x.born = c.born <;> by_cases hyc : y.born = c.born
  · rw [eq_of_born ha hc hx hxc, eq_of_born ha hc hy hyc]
  · rw [if_pos (beq_iff_eq.2 hxc), if_neg (mt beq_iff_eq.1 hyc)] at he
    exact absurd he.symm (hne y hy)
  · rw [if_neg (mt beq_iff_eq.1 hxc), if_pos (beq_iff_eq.2 hyc)] at he
    exact absurd he (hne x hx)
  · rw [if_neg (mt beq_iff_eq.1 hxc), if_neg (mt beq_iff_eq.1 hyc)] at he
    exact eq_of_born ha hy hx he

theorem tick_nodup {p : Picker} (rdy : List Thread) (hd : ((p.active ++ p.pending).map fun c => c.born).Nodup) :
    (((p.tick rdy).active ++ (p.tick rdy).pending).map fun c => c.born).Nodup := by
  rwa [List.map_append, tick_active_born, tick_pending_born, ← List.map_append]

/-- What a rotation lets in: nothing, or the foremost pending class for the one whose turn is over. -/
theorem turned_cases {p : Picker} {rdy : List Thread} {done : Option Nat} (hd : ((p.active ++ p.pending).map fun c => c.born).Nodup) :
    turned p rdy done = p.tick rdy ∧ (InTime 16 PcClass.held (readyPending (p.tick rdy) rdy) ∨ ∀ c ∈ (p.tick rdy).active, done ≠ some c.born) ∨
    ∃ c d, c ∈ (p.tick rdy).active ∧ PcClass.foremost PcClass.held (readyPending (p.tick rdy) rdy) = some d ∧
      turned p rdy done = (p.tick rdy).swap c d := by
  have hnodup := (List.nodup_append.1 (by rw [← List.map_append]; exact tick_nodup rdy hd)).1
  by_cases hin : InTime 16 PcClass.held (readyPending (p.tick rdy) rdy)
  · exact .inl ⟨letIn_inTime hin, .inl hin⟩
  · by_cases hroom : ∀ c ∈ (p.tick rdy).active, done ≠ some c.born
    · exact .inl ⟨letIn_noRoom hroom, .inr hroom⟩
    · push Not at hroom
      obtain ⟨c, hc, hdone⟩ := hroom
      obtain ⟨d, hf, he⟩ := letIn_swaps hnodup hin hc hdone
      exact .inr ⟨c, d, hc, hf, he⟩

theorem turned_active_nodup {p : Picker} {rdy : List Thread} {done : Option Nat} (hd : ((p.active ++ p.pending).map fun c => c.born).Nodup) :
    ((turned p rdy done).active.map fun c => c.born).Nodup := by
  have ht := tick_nodup rdy hd
  rcases turned_cases (rdy := rdy) (done := done) hd with ⟨he, -⟩ | ⟨c, d, hc, hf, he⟩
  · rw [he]
    rw [List.map_append] at ht
    exact (List.nodup_append.1 ht).1
  · rw [he]
    exact swap_active_nodup ht hc (mem_readyPending.1 (foremost_some hf).1).1

theorem rotationRules : RotationRules := by
  intro p rdy done hwf
  obtain ⟨hlen, hd, hnext, hchosen⟩ := hwf
  have hdt := tick_nodup rdy hd
  have hda := (List.nodup_append.1 (by rw [← List.map_append]; exact hdt)).1
  intro t m q ready
  refine ⟨⟨rfl, rfl⟩, letIn_inTime, letIn_noRoom, fun hlate c hc hdone => ?_, rotate_pending, rotate_chosen_isSome, fun n hn => ?_, fun d ds => pick_cons⟩
  · obtain ⟨d, hf, he⟩ := letIn_swaps hda hlate hc hdone
    obtain ⟨hd, hready⟩ := mem_readyPending.1 (foremost_some hf).1
    refine ⟨d, hd, hready, fun x hx hr => foremost_le hf x (mem_readyPending.2 ⟨hx, hr⟩), ?_, ?_⟩
    · refine (congrArg Picker.active he).trans ?_
      refine List.map_congr_left fun x _ => ?_
      by_cases hx : x.born = c.born
      · rw [if_pos (beq_iff_eq.2 hx), if_pos hx]
        rfl
      · rw [if_neg (mt beq_iff_eq.1 hx), if_neg hx]
    · refine (congrArg Picker.pending he).trans ?_
      refine congrArg (· ++ _) (List.filter_congr fun x _ => ?_)
      by_cases hx : x.born = d.born <;> simp [hx]
  · have hn : (p.rotate rdy done).chosen = some n := hn
    rw [rotate_eq] at hn
    cases hch : (turned p rdy done).choice rdy with
    | none =>
      rw [hch] at hn
      cases hn
    | some c =>
      rw [hch] at hn
      obtain ⟨a, ha, hin, hlate⟩ := choice_some hch
      obtain ⟨hmem, hready⟩ := mem_readyActive.1 (choice_mem hch)
      obtain ⟨hamem, haready⟩ := mem_readyActive.1 (foremost_some ha).1
      have hcur : (p.rotate rdy done).current = some { c with waited := 0 } := by
        rw [rotate_eq, hch]
        exact current_served (turned_active_nodup hd) hmem
      have hothers : ((turned p rdy done).active.filter fun x => ready x && decide (x.born ≠ a.born)) =
          (readyActive (turned p rdy done) rdy).filter fun d => d.born != a.born := by
        rw [readyActive, List.filter_filter]
        refine List.filter_congr fun x _ => ?_
        by_cases hx : x.born = a.born <;> simp [hx, ready]
      refine ⟨a, c, hamem, haready, fun x hx hr => (foremost_some ha).2 x (mem_readyActive.2 ⟨hx, hr⟩), hmem, hready, Option.some.inj hn, hcur, ?_, ?_⟩
      · exact fun hin' => hin (hothers ▸ hin')
      · exact fun hlate' x hx hr => (foremost_some (hlate (hothers ▸ hlate'))).2 x (mem_readyActive.2 ⟨hx, hr⟩)

end Sys2Proof.Proofs

/-!
A picker before its next gang (R17, R18): classes go and arise, become active and make room.
-/
namespace Sys2Proof.Proofs
open Sys2Proof.Machine

/-! ### Classes move -/

/-- The classes of a picker. -/
def classes (p : Picker) : List PcClass := p.active ++ p.pending

theorem pickerWf_iff {p : Picker} : PickerWf p ↔ p.active.length ≤ 8 ∧ ((classes p).map fun c => c.born).Nodup ∧
    (∀ c ∈ classes p, c.born < p.next) ∧ ∀ n, p.chosen = some n → ∃ c ∈ p.active, c.born = n := Iff.rfl

/-- The classes of a picker have moved: they are the same ones but for how long they have waited, and the turn is the same. -/
structure Moved (p q : Picker) : Prop where
  classes : ((classes q).map PcClass.begin).Perm ((classes p).map PcClass.begin)
  next : q.next = p.next
  chosen : q.chosen = p.chosen

theorem Moved.refl (p : Picker) : Moved p p := ⟨.refl _, rfl, rfl⟩

theorem Moved.trans {p q r : Picker} (h : Moved p q) (g : Moved q r) : Moved p r :=
  ⟨g.classes.trans h.classes, g.next.trans h.next, g.chosen.trans h.chosen⟩

/-- A class has its like among those of the other picker. -/
theorem Moved.mem {p q : Picker} (h : Moved p q) {c : PcClass} (hc : c ∈ Proofs.classes q) : ∃ d ∈ Proofs.classes p, d.begin = c.begin := by
  obtain ⟨d, hd, he⟩ := List.mem_map.1 (h.classes.mem_iff.1 (List.mem_map_of_mem hc))
  exact ⟨d, hd, he⟩

theorem Moved.symm {p q : Picker} (h : Moved p q) : Moved q p := ⟨h.classes.symm, h.next.symm, h.chosen.symm⟩

theorem born_of_begin {c d : PcClass} (h : d.begin = c.begin) : d.born = c.born := (congrArg PcClass.born h :)
theorem age_of_begin {c d : PcClass} (h : d.begin = c.begin) : d.age = c.age := (congrArg PcClass.age h :)
theorem has_of_begin {c d : PcClass} (h : d.begin = c.begin) (t : Thread) : d.has t = c.has t := (congrArg (fun c : PcClass => c.has t) h :)
theorem hasAny_of_begin {c d : PcClass} (h : d.begin = c.begin) (ts : List Thread) : d.hasAny ts = c.hasAny ts :=
  (congrArg (fun c : PcClass => c.hasAny ts) h :)

theorem map_born_begin (cs : List PcClass) : (cs.map PcClass.begin).map (fun c => c.born) = cs.map fun c => c.born := by
  rw [List.map_map]
  rfl

/-- A picker stays in order where its classes move and the class that has its turn stays active. -/
theorem Moved.wf {p q : Picker} (h : Moved p q) (hwf : PickerWf p) (hlen : q.active.length ≤ 8)
    (hturn : ∀ c ∈ p.active, p.chosen = some c.born → ∃ d ∈ q.active, d.born = c.born) : PickerWf q := by
  obtain ⟨-, hd, hnext, hchosen⟩ := pickerWf_iff.1 hwf
  refine pickerWf_iff.2 ⟨hlen, ?_, fun c hc => ?_, fun n hn => ?_⟩
  · have hp := h.classes.map fun c => c.born
    rw [map_born_begin, map_born_begin] at hp
    exact hp.nodup_iff.2 hd
  · obtain ⟨d, hd, he⟩ := h.mem hc
    rw [h.next, ← born_of_begin he]
    exact hnext d hd
  · rw [h.chosen] at hn
    obtain ⟨c, hc, rfl⟩ := hchosen n hn
    exact hturn c hc hn

/-- The rest of a list of classes and one of them are the list. -/
theorem perm_cons_filter {cs : List PcClass} {d : PcClass} (hnodup : (cs.map fun c => c.born).Nodup) (hd : d ∈ cs) :
    cs.Perm (d :: cs.filter fun c => c.born != d.born) := by
  induction cs with
  | nil => cases hd
  | cons c cs ih =>
    obtain ⟨hc, hnodup'⟩ := List.nodup_cons.1 hnodup
    rcases List.mem_cons.1 hd with rfl | hd
    · rw [List.filter_cons_of_neg (by simp), List.filter_eq_self.2]
      intro x hx
      have hne : x.born ≠ d.born := fun he => hc (List.mem_map.2 ⟨x, hx, he⟩)
      simpa using hne
    · have hne : c.born ≠ d.born := fun he => hc (List.mem_map.2 ⟨d, hd, he.symm⟩)
      rw [List.filter_cons_of_pos (by simpa using hne)]
      exact ((ih hnodup' hd).cons c).trans (List.Perm.swap ..)

/-- One class replaced by another. -/
def replaced (cs : List PcClass) (n : Nat) (d : PcClass) : List PcClass := cs.map fun c => if c.born == n then d else c

theorem perm_replaced {cs : List PcClass} {c : PcClass} (hnodup : (cs.map fun c => c.born).Nodup) (hc : c ∈ cs) (d : PcClass) :
    (replaced cs c.born d).Perm (d :: cs.filter fun x => x.born != c.born) := by
  refine ((perm_cons_filter hnodup hc).map _).trans ?_
  rw [List.map_cons, if_pos (beq_iff_eq.2 rfl), List.map_congr_left (g := id), List.map_id]
  intro x hx
  have hne : x.born ≠ c.born := by simpa using (List.mem_filter.1 hx).2
  exact if_neg (mt beq_iff_eq.1 hne)

section
variable {p : Picker} {c d : PcClass} (hd : ((classes p).map fun c => c.born).Nodup)
include hd

theorem active_nodup : (p.active.map fun c => c.born).Nodup := by
  rw [classes, List.map_append] at hd
  exact (List.nodup_append.1 hd).1

theorem pending_nodup : (p.pending.map fun c => c.born).Nodup := by
  rw [classes, List.map_append] at hd
  exact (List.nodup_append.1 hd).2.1

theorem active_ne_pending (hc : c ∈ p.active) (hp : d ∈ p.pending) : c.born ≠ d.born := by
  rw [classes, List.map_append] at hd
  exact (List.nodup_append.1 hd).2.2 _ (List.mem_map_of_mem hc) _ (List.mem_map_of_mem hp)

/-- A pending class becomes active. -/
theorem moved_enter (hp : d ∈ p.pending) : Moved p (p.enter d) := by
  refine ⟨?_, rfl, rfl⟩
  have hperm := perm_cons_filter (pending_nodup hd) hp
  have : ((classes (p.enter d)).map PcClass.begin) =
      p.active.map PcClass.begin ++ (d :: p.pending.filter fun c => c.born != d.born).map PcClass.begin := by
    rw [classes, List.map_append]
    simp only [Picker.enter, List.map_append, List.append_assoc]
    rfl
  rw [this, classes, List.map_append]
  exact (hperm.symm.map _).append_left _

/-- A pending class takes the place of an active one. -/
theorem moved_swap (hc : c ∈ p.active) (hp : d ∈ p.pending) : Moved p (p.swap c d) := by
  refine ⟨?_, rfl, rfl⟩
  have hactive := (perm_replaced (active_nodup hd) hc d.begin).map PcClass.begin
  have hpending := (perm_cons_filter (pending_nodup hd) hp).map PcClass.begin
  have hout := (perm_cons_filter (active_nodup hd) hc).map PcClass.begin
  have hq : (classes (p.swap c d)).map PcClass.begin = (replaced p.active c.born d.begin).map PcClass.begin ++
      ((p.pending.filter fun x => x.born != d.born).map PcClass.begin ++ [c.begin]) := by
    rw [classes, List.map_append]
    simp only [Picker.swap, List.map_append]
    rfl
  rw [hq, classes, List.map_append]
  have hleft := hactive.append_right ((p.pending.filter fun x => x.born != d.born).map PcClass.begin ++ [c.begin])
  have hright := (hout.append_right (p.pending.map PcClass.begin)).trans (hpending.append_left _)
  refine hleft.trans (.trans ?_ hright.symm)
  generalize (p.active.filter fun x => x.born != c.born) = xs
  generalize (p.pending.filter fun x => x.born != d.born) = ys
  have hbegin : d.begin.begin = d.begin := rfl
  rw [List.map_cons, List.map_cons, List.map_cons, hbegin]
  refine .trans ?_ ((List.perm_middle (l₁ := c.begin :: xs.map PcClass.begin)).symm)
  rw [List.cons_append]
  refine .cons _ ?_
  rw [← List.append_assoc]
  exact List.perm_append_comm

end

/-! ### Which pending class becomes active -/

/-- A picker in order with its waits counted: a class without a ready thread does not wait. -/
structure Counted (rdy : List Thread) (p : Picker) : Prop where
  wf : PickerWf p
  active : ∀ c ∈ p.active, c.hasAny rdy = false → c.waited = 0
  pending : ∀ c ∈ p.pending, c.hasAny rdy = false → c.held = 0

/-- A picker whose classes are in time for the rotations of R18. -/
structure Timely (p : Picker) : Prop where
  active : InTime 8 PcClass.waited p.active
  pending : InTime 16 PcClass.held p.pending

section
variable {rdy : List Thread} {p : Picker} {d : PcClass}

theorem Counted.nodup (h : Counted rdy p) : ((classes p).map fun c => c.born).Nodup := (pickerWf_iff.1 h.wf).2.1

theorem pick_mem (h : p.pick rdy = some d) : d ∈ p.pending ∧ d.hasAny rdy = true := by
  refine mem_readyPending.1 ?_
  cases hr : readyPending p rdy with
  | nil =>
    rw [pick_none.2 hr] at h
    cases h
  | cons e es =>
    obtain ⟨hin, hlate⟩ := pick_cons hr
    by_cases ht : InTime 15 PcClass.held es
    · rw [hin ht] at h
      cases h
      exact List.mem_cons_self
    · obtain ⟨x, hx, hmem, -⟩ := hlate ht
      rw [hx] at h
      cases h
      exact hmem

theorem not_ready_of_pick (h : p.pick rdy = none) {c : PcClass} (hc : c ∈ p.pending) : c.hasAny rdy = false := by
  cases hr : c.hasAny rdy with
  | false => rfl
  | true =>
    have := mem_readyPending.2 ⟨hc, hr⟩
    rw [pick_none.1 h] at this
    cases this

/-- Where no pending class is ready all are in time. -/
theorem inTime_of_pick_none (hc : Counted rdy p) (h : p.pick rdy = none) : InTime 15 PcClass.held p.pending :=
  inTime_of_zero fun c hm => hc.pending c hm (not_ready_of_pick h hm)

/-- Once a picked class has become active the others are in time for the next rotation. -/
theorem inTime_of_pick (hc : Counted rdy p) (ht : InTime 16 PcClass.held p.pending) (h : p.pick rdy = some d) :
    InTime 15 PcClass.held (p.pending.filter fun c => c.born != d.born) := by
  have hready : InTime 15 PcClass.held ((readyPending p rdy).filter fun c => c.born != d.born) := by
    have hshort : OneShort 15 PcClass.held (readyPending p rdy) := oneShort_pred (inTime_sublist ht List.filter_sublist)
    cases hr : readyPending p rdy with
    | nil => exact inTime_of_zero fun c hm => by cases hm
    | cons e es =>
      obtain ⟨hin, hlate⟩ := pick_cons hr
      by_cases hes : InTime 15 PcClass.held es
      · rw [hin hes] at h
        cases h
        rw [List.filter_cons_of_neg (by simp)]
        exact inTime_sublist hes List.filter_sublist
      · obtain ⟨x, hx, hmem, hmax⟩ := hlate hes
        rw [hx] at h
        cases h
        rw [hr] at hshort
        exact hshort.serve hmem hmax
  rw [readyPending, List.filter_filter, List.filter_congr fun x _ => Bool.and_comm .., ← List.filter_filter] at hready
  exact (inTime_filter fun c hm hno => hc.pending c (List.mem_of_mem_filter hm) hno).1 hready

/-! ### A place is filled -/

theorem Counted.enter (h : Counted rdy p) (hlen : p.active.length < 8) (hd : d ∈ p.pending) : Counted rdy (p.enter d) where
  wf := (moved_enter h.nodup hd).wf h.wf (by simpa [Picker.enter] using hlen) fun c hc _ => ⟨c, List.mem_append_left _ hc, rfl⟩
  active c hc hno := by
    rcases List.mem_append.1 hc with hc | hc
    · exact h.active c hc hno
    · rw [List.mem_singleton.1 hc]
      rfl
  pending c hc hno := h.pending c (List.mem_of_mem_filter hc) hno

theorem Timely.enter (h : Timely p) (d : PcClass) : Timely (p.enter d) :=
  ⟨inTime_append h.active fun c hc => by rw [List.mem_singleton.1 hc]; rfl, inTime_sublist h.pending List.filter_sublist⟩

/-- The pending class that becomes active next, ready or not. -/
def nextIn (p : Picker) (rdy : List Thread) : Option PcClass := (p.pick rdy).orElse fun _ => p.pending.head?

theorem nextIn_none (h : nextIn p rdy = none) : p.pending = [] := by
  unfold nextIn at h
  cases hp : p.pick rdy with
  | none =>
    rw [hp] at h
    exact List.head?_eq_none_iff.1 h
  | some d =>
    rw [hp] at h
    cases h

theorem nextIn_cases (h : nextIn p rdy = some d) : d ∈ p.pending ∧ (p.pick rdy = some d ∨ p.pick rdy = none) := by
  unfold nextIn at h
  cases hp : p.pick rdy with
  | none =>
    rw [hp] at h
    exact ⟨List.mem_of_mem_head? h, .inr rfl⟩
  | some e =>
    rw [hp] at h
    cases h
    exact ⟨(pick_mem hp).1, .inl rfl⟩

theorem inTime_of_nextIn (hc : Counted rdy p) (ht : InTime 16 PcClass.held p.pending) (h : nextIn p rdy = some d) :
    InTime 15 PcClass.held (p.enter d).pending := by
  rcases (nextIn_cases h).2 with hp | hp
  · exact inTime_of_pick hc ht hp
  · exact inTime_sublist (inTime_of_pick_none hc hp) List.filter_sublist

end

/-! ### Places are filled -/

section
variable {rdy : List Thread} {p : Picker}

theorem fill_succ (n : Nat) : Picker.fill rdy (n + 1) p = if 8 ≤ p.active.length then p else match nextIn p rdy with
    | some d => Picker.fill rdy n (p.enter d)
    | none => p := rfl

/-- What holds of a picker holds of it with its places filled, if one class's becoming active keeps it. -/
theorem fill_induction {P : Picker → Prop} (hstep : ∀ p d, P p → p.active.length < 8 → nextIn p rdy = some d → P (p.enter d)) (n : Nat) (p : Picker)
    (hp : P p) : P (p.fill rdy n) := by
  induction n generalizing p with
  | zero => exact hp
  | succ n ih =>
    rw [fill_succ]
    split
    · exact hp
    · rename_i hlen
      cases hd : nextIn p rdy with
      | none => exact hp
      | some d => exact ih (p.enter d) (hstep p d hp (by omega) hd)

theorem fill_counted (hc : Counted rdy p) (n : Nat) : Counted rdy (p.fill rdy n) :=
  fill_induction (fun _ _ h hlen hd => h.enter hlen (nextIn_cases hd).1) n p hc

theorem fill_moved (hc : Counted rdy p) (n : Nat) : Moved p (p.fill rdy n) :=
  (fill_induction (P := fun q => Counted rdy q ∧ Moved p q) (fun _ _ ⟨h, hm⟩ hlen hd =>
    ⟨h.enter hlen (nextIn_cases hd).1, hm.trans (moved_enter h.nodup (nextIn_cases hd).1)⟩) n p ⟨hc, .refl p⟩).2

theorem fill_timely (ht : Timely p) (n : Nat) : Timely (p.fill rdy n) := fill_induction (fun _ d h _ _ => h.enter d) n p ht

theorem fill_active {c : PcClass} (hc : c ∈ p.active) (n : Nat) : c ∈ (p.fill rdy n).active :=
  fill_induction (P := fun q => c ∈ q.active) (fun _ _ h _ _ => List.mem_append_left _ h) n p hc

theorem fill_served (ht : InTime 15 PcClass.held p.pending) (n : Nat) : InTime 15 PcClass.held (p.fill rdy n).pending :=
  fill_induction (P := fun q => InTime 15 PcClass.held q.pending) (fun _ _ h _ _ => inTime_sublist h List.filter_sublist) n p ht

/-- With a place free the classes that stay pending are in time for the next rotation. -/
theorem fill_serves (hc : Counted rdy p) (ht : Timely p) (hlen : p.active.length < 8) (n : Nat) :
    InTime 15 PcClass.held (p.fill rdy (n + 1)).pending := by
  rw [fill_succ, if_neg (by omega)]
  cases hd : nextIn p rdy with
  | none =>
    rw [nextIn_none hd]
    exact inTime_of_zero fun c hm => by cases hm
  | some d => exact fill_served (inTime_of_nextIn hc ht.pending hd) n

/-- No class is pending while a place is free. -/
theorem fill_full (n : Nat) (p : Picker) (hlen : 8 ≤ p.active.length + n) : (p.fill rdy n).pending = [] ∨ 8 ≤ (p.fill rdy n).active.length := by
  induction n generalizing p with
  | zero => exact .inr hlen
  | succ n ih =>
    rw [fill_succ]
    split
    · rename_i h
      exact .inr h
    · cases hd : nextIn p rdy with
      | none => exact .inl (nextIn_none hd)
      | some d => exact ih (p.enter d) (by simp only [Picker.enter, List.length_append, List.length_singleton]; omega)

end

/-! ### Classes arise -/

theorem mem_insertBy {α : Type} {f : α → Nat} {x y : α} {xs : List α} : y ∈ insertBy f x xs ↔ y = x ∨ y ∈ xs := by
  induction xs with
  | nil => simp [insertBy]
  | cons z xs ih =>
    unfold insertBy
    split
    · rw [List.mem_cons]
    · rw [List.mem_cons, ih, List.mem_cons, or_left_comm]

theorem mem_sortBy {α : Type} {f : α → Nat} {y : α} {xs : List α} : y ∈ sortBy f xs ↔ y ∈ xs := by
  induction xs with
  | nil => rfl
  | cons x xs ih => rw [sortBy, mem_insertBy, ih, List.mem_cons]

/-- A thread without a class makes one arise. -/
def arises (p : Picker) (t : Thread) : Picker :=
  if (p.active ++ p.pending).any fun c => c.has t then p
  else { p with pending := p.pending ++ [⟨t.pc, t.launch, t.trial.isSome, 0, p.next, 0, 0⟩], next := p.next + 1 }

theorem arise_eq (p : Picker) (ts : List Thread) : p.arise ts = (sortBy (fun (t : Thread) => t.tid.toNat) ts).foldl arises p := rfl

/-- Classes have arisen: the active classes and the turn are the same, and the new pending classes have not waited. -/
structure Arisen (p q : Picker) : Prop where
  active : q.active = p.active
  chosen : q.chosen = p.chosen
  next : p.next ≤ q.next
  pending : ∃ ds, q.pending = p.pending ++ ds ∧ ∀ d ∈ ds, d.held = 0 ∧ d.age = 0 ∧ p.next ≤ d.born

theorem Arisen.refl (p : Picker) : Arisen p p := ⟨rfl, rfl, Nat.le_refl _, [], (List.append_nil _).symm, fun d hd => by cases hd⟩

theorem Arisen.trans {p q r : Picker} (h : Arisen p q) (g : Arisen q r) : Arisen p r := by
  obtain ⟨ds, hds, hd⟩ := h.pending
  obtain ⟨es, hes, he⟩ := g.pending
  refine ⟨g.active.trans h.active, g.chosen.trans h.chosen, Nat.le_trans h.next g.next, ds ++ es, by rw [hes, hds, List.append_assoc], fun d hm => ?_⟩
  rcases List.mem_append.1 hm with hm | hm
  · exact hd d hm
  · obtain ⟨hheld, hage, hborn⟩ := he d hm
    exact ⟨hheld, hage, Nat.le_trans h.next hborn⟩

theorem arisen_arises (p : Picker) (t : Thread) : Arisen p (arises p t) := by
  unfold arises
  split
  · exact .refl p
  · exact ⟨rfl, rfl, Nat.le_succ _, [_], rfl, fun d hd => by rw [List.mem_singleton.1 hd]; exact ⟨rfl, rfl, Nat.le_refl _⟩⟩

theorem arises_wf {p : Picker} (h : PickerWf p) (t : Thread) : PickerWf (arises p t) := by
  unfold arises
  split
  · exact h
  · obtain ⟨hlen, hd, hnext, hchosen⟩ := pickerWf_iff.1 h
    refine pickerWf_iff.2 ⟨hlen, ?_, fun c hc => ?_, hchosen⟩
    · rw [classes, ← List.append_assoc, List.map_append]
      refine List.nodup_append.2 ⟨hd, by simp, fun a ha b hb hab => ?_⟩
      obtain ⟨c, hc, rfl⟩ := List.mem_map.1 ha
      have hb : b = p.next := by simpa using hb
      have := hnext c hc
      omega
    · rw [classes, ← List.append_assoc] at hc
      rcases List.mem_append.1 hc with hc | hc
      · exact Nat.lt_succ_of_lt (hnext c hc)
      · rw [List.mem_singleton.1 hc]
        exact Nat.lt_succ_self _

theorem arises_covers (p : Picker) (t : Thread) : ∃ c ∈ classes (arises p t), c.has t = true := by
  unfold arises
  split
  · rename_i h
    exact List.any_eq_true.1 h
  · refine ⟨⟨t.pc, t.launch, t.trial.isSome, 0, p.next, 0, 0⟩, List.mem_append_right _ (List.mem_append_right _ List.mem_cons_self), ?_⟩
    simp [PcClass.has]

theorem Arisen.mem {p q : Picker} (h : Arisen p q) {c : PcClass} (hc : c ∈ classes p) : c ∈ classes q := by
  obtain ⟨ds, hds, -⟩ := h.pending
  rw [classes, h.active, hds, ← List.append_assoc]
  exact List.mem_append_left _ hc

section
variable {p : Picker}

theorem foldl_arises (ts : List Thread) (hwf : PickerWf p) : PickerWf (ts.foldl arises p) ∧ Arisen p (ts.foldl arises p) ∧
    ∀ t ∈ ts, ∃ c ∈ classes (ts.foldl arises p), c.has t = true := by
  induction ts generalizing p with
  | nil => exact ⟨hwf, .refl p, fun t ht => by cases ht⟩
  | cons t ts ih =>
    obtain ⟨hwf', harisen, hcovers⟩ := ih (arises_wf hwf t)
    refine ⟨hwf', (arisen_arises p t).trans harisen, fun u hu => ?_⟩
    rcases List.mem_cons.1 hu with rfl | hu
    · obtain ⟨c, hc, hhas⟩ := arises_covers p u
      exact ⟨c, harisen.mem hc, hhas⟩
    · exact hcovers u hu

theorem arise_arisen (hwf : PickerWf p) (ts : List Thread) : Arisen p (p.arise ts) := (foldl_arises _ hwf).2.1

theorem arise_covers (hwf : PickerWf p) {ts : List Thread} {t : Thread} (ht : t ∈ ts) : ∃ c ∈ classes (p.arise ts), c.has t = true :=
  (foldl_arises _ hwf).2.2 t (mem_sortBy.2 ht)

theorem arise_counted {rdy : List Thread} (h : Counted rdy p) (ts : List Thread) : Counted rdy (p.arise ts) := by
  obtain ⟨hwf, harisen, -⟩ := foldl_arises (sortBy (fun (t : Thread) => t.tid.toNat) ts) h.wf
  refine ⟨hwf, fun c hc hno => h.active c (harisen.active ▸ hc) hno, fun c hc hno => ?_⟩
  obtain ⟨ds, hds, hd⟩ := harisen.pending
  rw [arise_eq, hds] at hc
  rcases List.mem_append.1 hc with hc | hc
  · exact h.pending c hc hno
  · exact (hd c hc).1

theorem Arisen.inTime {q : Picker} (h : Arisen p q) {bound : Nat} (ht : InTime bound PcClass.held p.pending) : InTime bound PcClass.held q.pending := by
  obtain ⟨ds, hds, hd⟩ := h.pending
  rw [hds]
  exact inTime_append ht fun d hm => (hd d hm).1

theorem Arisen.timely {q : Picker} (h : Arisen p q) (ht : Timely p) : Timely q := ⟨by rw [h.active]; exact ht.active, h.inTime ht.pending⟩

end

/-! ### Classes make room -/

/-- An active class that waits as a whole makes room for a ready one. -/
def evicts (rdy : List Thread) (p : Picker) (c : PcClass) : Picker :=
  if p.chosen == some c.born || c.hasAny rdy then p
  else match p.pick rdy with
    | some d => p.swap c d
    | none => p

theorem evict_eq (p : Picker) (rdy : List Thread) : p.evict rdy = p.active.foldl (evicts rdy) p := rfl

/-- A class keeps no place that another needs: it has its turn or is ready. -/
def HoldsPlace (rdy : List Thread) (p : Picker) (c : PcClass) : Prop := p.chosen = some c.born ∨ c.hasAny rdy = true

theorem evicts_keeps {rdy : List Thread} {p : Picker} {c : PcClass} (h : HoldsPlace rdy p c) : evicts rdy p c = p :=
  if_pos (by rcases h with h | h <;> simp [h])

theorem evicts_none {rdy : List Thread} {p : Picker} {c : PcClass} (h : p.pick rdy = none) : evicts rdy p c = p := by
  unfold evicts
  rw [h]
  split <;> rfl

theorem evicts_swaps {rdy : List Thread} {p : Picker} {c d : PcClass} (h : ¬ HoldsPlace rdy p c) (hd : p.pick rdy = some d) : evicts rdy p c = p.swap c d := by
  unfold HoldsPlace at h
  rw [not_or] at h
  unfold evicts
  rw [if_neg (by simp [h.1, h.2]), hd]

section
variable {rdy : List Thread} {p : Picker} {c d : PcClass}

theorem mem_swap_active {x : PcClass} (hx : x ∈ (p.swap c d).active) : x = d.begin ∨ (x ∈ p.active ∧ x.born ≠ c.born) := by
  obtain ⟨y, hy, rfl⟩ := List.mem_map.1 hx
  split
  · exact .inl rfl
  · rename_i hne
    exact .inr ⟨hy, mt beq_iff_eq.2 hne⟩

theorem mem_swap_of_ne {x : PcClass} (hx : x ∈ p.active) (hne : x.born ≠ c.born) : x ∈ (p.swap c d).active :=
  List.mem_map.2 ⟨x, hx, if_neg (mt beq_iff_eq.1 hne)⟩

theorem length_swap_active : (p.swap c d).active.length = p.active.length := List.length_map ..

theorem length_swap_pending (hnodup : ((classes p).map fun c => c.born).Nodup) (hd : d ∈ p.pending) :
    (p.swap c d).pending.length = p.pending.length := by
  have := (perm_cons_filter (pending_nodup hnodup) hd).length_eq
  rw [this, Picker.swap]
  simp

theorem Counted.swap (h : Counted rdy p) (hc : c ∈ p.active) (hd : d ∈ p.pending) (hturn : p.chosen ≠ some c.born) : Counted rdy (p.swap c d) where
  wf := by
    refine (moved_swap h.nodup hc hd).wf h.wf ?_ fun x hx hch => ⟨x, mem_swap_of_ne hx fun he => hturn (he ▸ hch), rfl⟩
    rw [length_swap_active]
    exact (pickerWf_iff.1 h.wf).1
  active x hx hno := by
    rcases mem_swap_active hx with rfl | ⟨hx, -⟩
    · rfl
    · exact h.active x hx hno
  pending x hx hno := by
    rcases List.mem_append.1 hx with hx | hx
    · exact h.pending x (List.mem_of_mem_filter hx) hno
    · rw [List.mem_singleton.1 hx]

/-- The classes that are left active, with one that has not waited in the place of another. -/
theorem inTime_replaced {bound : Nat} {f : PcClass → Nat} {cs : List PcClass} {n : Nat} {e : PcClass}
    (h : InTime bound f (cs.filter fun x => x.born != n)) (he : f e = 0) : InTime bound f (replaced cs n e) := by
  refine inTime_map.2 ((inTime_filter (p := fun x => x.born != n) fun x _ hx => ?_).1 ?_)
  · have : x.born = n := by simpa using hx
    rw [if_pos (beq_iff_eq.2 this), he]
  · refine inTime_mono h fun x hx => ?_
    have : x.born ≠ n := by simpa using (List.mem_filter.1 hx).2
    rw [if_neg (mt beq_iff_eq.1 this)]

theorem inTime_swap_pending {bound : Nat} (h : InTime bound PcClass.held (p.pending.filter fun x => x.born != d.born)) :
    InTime bound PcClass.held (p.swap c d).pending :=
  inTime_append h fun x hx => by rw [List.mem_singleton.1 hx]

theorem Timely.swap (h : Timely p) (c d : PcClass) : Timely (p.swap c d) :=
  ⟨inTime_replaced (inTime_sublist h.active List.filter_sublist) rfl, inTime_swap_pending (inTime_sublist h.pending List.filter_sublist)⟩

end

/-- What the eviction of classes leaves: the counts, and that no class keeps a place that a ready one needs. -/
structure Evicted (rdy : List Thread) (p q : Picker) : Prop where
  moved : Moved p q
  counted : Counted rdy q
  active : q.active.length = p.active.length
  pending : q.pending.length = p.pending.length
  room : ∀ c ∈ q.active, ¬ HoldsPlace rdy q c → q.pick rdy = none
  timely : Timely p → Timely q
  served : InTime 15 PcClass.held p.pending → InTime 15 PcClass.held q.pending
  stays : Timely p → ∀ c ∈ p.active, c ∈ q.active ∨ InTime 15 PcClass.held q.pending

section
variable {rdy : List Thread} {p : Picker} {c d : PcClass} (hc : Counted rdy p)
include hc

theorem Evicted.refl (hroom : ∀ c ∈ p.active, ¬ HoldsPlace rdy p c → p.pick rdy = none) : Evicted rdy p p :=
  ⟨.refl p, hc, rfl, rfl, hroom, id, id, fun _ _ h => .inl h⟩

/-- One class makes room, and then others. -/
theorem Evicted.of_swap {q : Picker} (hmem : c ∈ p.active) (hd : p.pick rdy = some d)
    (h : Evicted rdy (p.swap c d) q) : Evicted rdy p q where
  moved := (moved_swap hc.nodup hmem (pick_mem hd).1).trans h.moved
  counted := h.counted
  active := h.active.trans length_swap_active
  pending := h.pending.trans (length_swap_pending hc.nodup (pick_mem hd).1)
  room := h.room
  timely ht := h.timely (ht.swap c d)
  served ht := h.served (inTime_swap_pending (inTime_sublist ht List.filter_sublist))
  stays ht x hx := by
    by_cases hxc : x.born = c.born
    · exact .inr (h.served (inTime_swap_pending (inTime_of_pick hc ht.pending hd)))
    · exact h.stays (ht.swap c d) x (mem_swap_of_ne hx hxc)

end

theorem foldl_evicts {rdy : List Thread} (cs : List PcClass) {p : Picker} (hc : Counted rdy p) (hmem : ∀ c ∈ cs, c ∈ p.active)
    (hnodup : (cs.map fun c => c.born).Nodup) (hroom : ∀ c ∈ p.active, c ∉ cs → ¬ HoldsPlace rdy p c → p.pick rdy = none) :
    Evicted rdy p (cs.foldl (evicts rdy) p) := by
  induction cs generalizing p with
  | nil => exact .refl hc fun c hm => hroom c hm List.not_mem_nil
  | cons c cs ih =>
    obtain ⟨hnew, hnodup'⟩ := List.nodup_cons.1 hnodup
    have hcmem := hmem c List.mem_cons_self
    rw [List.foldl_cons]
    by_cases hkeep : HoldsPlace rdy p c
    · rw [evicts_keeps hkeep]
      refine ih hc (fun x hx => hmem x (List.mem_cons_of_mem _ hx)) hnodup' fun x hx hxc hno => hroom x hx (fun hx' => ?_) hno
      rcases List.mem_cons.1 hx' with rfl | hx'
      · exact hno hkeep
      · exact hxc hx'
    · cases hd : p.pick rdy with
      | none =>
        rw [evicts_none hd]
        exact ih hc (fun x hx => hmem x (List.mem_cons_of_mem _ hx)) hnodup' fun _ _ _ _ => hd
      | some d =>
        rw [evicts_swaps hkeep hd]
        refine .of_swap hc hcmem hd (ih (hc.swap hcmem (pick_mem hd).1 fun h => hkeep (.inl h)) (fun x hx => ?_) hnodup' fun x hx hxc hno => ?_)
        · exact mem_swap_of_ne (hmem x (List.mem_cons_of_mem _ hx)) fun he => hnew (List.mem_map.2 ⟨x, hx, he⟩)
        · rcases mem_swap_active hx with rfl | ⟨hx, hne⟩
          · exact absurd (.inr (pick_mem hd).2) hno
          · have hcs : x ∉ c :: cs := fun hx' => by
              rcases List.mem_cons.1 hx' with rfl | hx'
              · exact hne rfl
              · exact hxc hx'
            rw [hroom x hx hcs hno] at hd
            cases hd

theorem evict_evicted {rdy : List Thread} {p : Picker} (hc : Counted rdy p) : Evicted rdy p (p.evict rdy) :=
  foldl_evicts p.active hc (fun _ h => h) (active_nodup hc.nodup) fun _ hm hno => absurd hm hno

end Sys2Proof.Proofs

/-!
A picker before its next gang and after one (R17, R18): the turn ends or goes on, a rotation chooses a class, a class has issued.
-/
namespace Sys2Proof.Proofs
open Sys2Proof.Machine

/-! ### The turn -/

section
variable {p : Picker} {c : PcClass} (hwf : PickerWf p)
include hwf

theorem current_iff : p.current = some c ↔ p.chosen = some c.born ∧ c ∈ p.active := by
  obtain ⟨-, hd, -, hchosen⟩ := pickerWf_iff.1 hwf
  unfold Picker.current
  cases hch : p.chosen with
  | none => exact iff_of_false (by simp) (by simp)
  | some n =>
    obtain ⟨x, hx, rfl⟩ := hchosen n hch
    dsimp only
    rw [find?_born (active_nodup hd) hx, Option.some.injEq, Option.some.injEq]
    refine ⟨fun he => he ▸ ⟨rfl, hx⟩, fun ⟨hb, hc⟩ => ?_⟩
    exact eq_of_born (active_nodup hd) hc hx hb

theorem current_none : p.current = none ↔ p.chosen = none := by
  obtain ⟨-, hd, -, hchosen⟩ := pickerWf_iff.1 hwf
  unfold Picker.current
  cases hch : p.chosen with
  | none => exact iff_of_true rfl rfl
  | some n =>
    obtain ⟨x, hx, rfl⟩ := hchosen n hch
    dsimp only
    rw [find?_born (active_nodup hd) hx]
    exact iff_of_false (by simp) (by simp)

end

/-- A class at another PC. -/
def PcClass.at_ (c : PcClass) (pc : DWord) : PcClass := { c with pc := pc }

theorem endTurn_eq (p : Picker) (rdy : List Thread) : p.endTurn rdy = match p.current with
    | none => p.over
    | some c =>
      if rdy.any fun t => c.has t && !p.issued.contains t.key.slot then p
      else match p.switch, p.lead with
        | false, some pc => if (PcClass.at_ c pc).hasAny rdy then p.moveTo c pc else p.over
        | _, _ => p.over := rfl

section
variable {p : Picker} {rdy : List Thread} {c : PcClass}

theorem any_to_issue : (rdy.any fun t => c.has t && !p.issued.contains t.key.slot) = true ↔ ∃ t ∈ rdy, c.has t = true ∧ t.key.slot ∉ p.issued := by
  simp

theorem endTurn_stays (hcur : p.current = some c) (h : ∃ t ∈ rdy, c.has t = true ∧ t.key.slot ∉ p.issued) : p.endTurn rdy = p := by
  rw [endTurn_eq, hcur]
  exact if_pos (any_to_issue.2 h)

theorem endTurn_over (hcur : p.current = some c) (h : ∀ t ∈ rdy, c.has t = true → t.key.slot ∈ p.issued) (hswitch : p.switch = true) :
    p.endTurn rdy = p.over := by
  have hnot : ¬ (rdy.any fun t => c.has t && !p.issued.contains t.key.slot) = true := fun ha => by
    obtain ⟨t, ht, hhas, hno⟩ := any_to_issue.1 ha
    exact hno (h t ht hhas)
  rw [endTurn_eq, hcur, hswitch]
  exact if_neg hnot

theorem endTurn_moves {pc : DWord} (hcur : p.current = some c) (h : ∀ t ∈ rdy, c.has t = true → t.key.slot ∈ p.issued) (hswitch : p.switch = false)
    (hlead : p.lead = some pc) (hready : (PcClass.at_ c pc).hasAny rdy = true) : p.endTurn rdy = p.moveTo c pc := by
  have hnot : ¬ (rdy.any fun t => c.has t && !p.issued.contains t.key.slot) = true := fun ha => by
    obtain ⟨t, ht, hhas, hno⟩ := any_to_issue.1 ha
    exact hno (h t ht hhas)
  rw [endTurn_eq, hcur, hswitch, hlead]
  exact (if_neg hnot).trans (if_pos hready)

/-- The turn stays, goes on at another PC where the class has a ready thread, or is over. -/
theorem endTurn_cases (p : Picker) (rdy : List Thread) : (∃ c, p.current = some c ∧ c.hasAny rdy = true ∧ p.endTurn rdy = p) ∨
    (∃ c pc, p.current = some c ∧ (PcClass.at_ c pc).hasAny rdy = true ∧ p.endTurn rdy = p.moveTo c pc) ∨ p.endTurn rdy = p.over := by
  rw [endTurn_eq]
  cases hcur : p.current with
  | none => exact .inr (.inr rfl)
  | some c =>
    dsimp only
    by_cases hany : (rdy.any fun t => c.has t && !p.issued.contains t.key.slot) = true
    · obtain ⟨t, ht, hhas, -⟩ := any_to_issue.1 hany
      exact .inl ⟨c, rfl, List.any_eq_true.2 ⟨t, ht, hhas⟩, if_pos hany⟩
    · rw [if_neg hany]
      cases p.switch with
      | true => exact .inr (.inr rfl)
      | false =>
        cases p.lead with
        | none => exact .inr (.inr rfl)
        | some pc =>
          dsimp only
          by_cases hr : (PcClass.at_ c pc).hasAny rdy = true
          · exact .inr (.inl ⟨c, pc, rfl, hr, if_pos hr⟩)
          · exact .inr (.inr (if_neg hr))

end

/-- The classes that stay active where the chosen one goes on at another PC. -/
def notThere (cs : List PcClass) (c d : PcClass) : List PcClass := cs.filter fun e => e.born == c.born || !e.same d

section
variable {p : Picker} {c : PcClass} {pc : DWord} (hwf : PickerWf p)

theorem moveTo_active : (p.moveTo c pc).active = replaced (notThere p.active c (PcClass.at_ c pc)) c.born (PcClass.at_ c pc) := rfl

theorem moveTo_current (hcur : c ∈ p.active) : PcClass.at_ c pc ∈ (p.moveTo c pc).active :=
  List.mem_map.2 ⟨c, List.mem_filter.2 ⟨hcur, by simp⟩, if_pos (beq_iff_eq.2 rfl)⟩

theorem map_born_replaced (cs : List PcClass) {d : PcClass} {n : Nat} (hd : d.born = n) :
    (replaced cs n d).map (fun c => c.born) = cs.map fun c => c.born := by
  unfold replaced
  rw [List.map_map]
  refine List.map_congr_left fun x _ => ?_
  by_cases hx : x.born = n
  · rw [Function.comp, if_pos (beq_iff_eq.2 hx), hd, hx]
  · rw [Function.comp, if_neg (mt beq_iff_eq.1 hx)]

theorem moveTo_born : ((classes (p.moveTo c pc)).map fun c => c.born).Sublist ((classes p).map fun c => c.born) := by
  rw [classes, classes, List.map_append, List.map_append, moveTo_active, map_born_replaced (n := c.born) (d := PcClass.at_ c pc) _ rfl]
  exact (List.filter_sublist.map _).append (List.filter_sublist.map _)

include hwf in
theorem moveTo_wf (hcur : p.current = some c) : PickerWf (p.moveTo c pc) := by
  obtain ⟨hchosen, hc⟩ := (current_iff hwf).1 hcur
  obtain ⟨hlen, hd, hnext, -⟩ := pickerWf_iff.1 hwf
  refine pickerWf_iff.2 ⟨?_, moveTo_born.nodup hd, fun x hx => ?_, fun n hn => ⟨PcClass.at_ c pc, moveTo_current hc, ?_⟩⟩
  · rw [moveTo_active, replaced, List.length_map]
    exact Nat.le_trans (List.length_filter_le ..) hlen
  · obtain ⟨y, hy, he⟩ := List.mem_map.1 (moveTo_born.mem (List.mem_map_of_mem hx))
    rw [show x.born = y.born from he.symm]
    exact hnext y hy
  · exact Option.some.inj (hchosen.symm.trans hn)

theorem moveTo_timely (hcur : c ∈ p.active) (hd : ((classes p).map fun c => c.born).Nodup) (h : Timely p) : Timely (p.moveTo c pc) := by
  refine ⟨?_, inTime_sublist h.pending List.filter_sublist⟩
  rw [moveTo_active]
  refine inTime_map.2 (inTime_mono (inTime_sublist h.active List.filter_sublist) fun x hx => ?_)
  by_cases hxc : x.born = c.born
  · rw [if_pos (beq_iff_eq.2 hxc), eq_of_born (active_nodup hd) hcur (List.mem_of_mem_filter hx) hxc]
    exact Nat.le_refl _
  · rw [if_neg (mt beq_iff_eq.1 hxc)]

end

/-- The class that has the turn is ready. -/
def TurnReady (p : Picker) (rdy : List Thread) : Prop := ∀ n, p.chosen = some n → ∃ c ∈ p.active, c.born = n ∧ c.hasAny rdy = true

section
variable {p : Picker} (hwf : PickerWf p) (rdy : List Thread)
include hwf

theorem endTurn_wf : PickerWf (p.endTurn rdy) := by
  rcases endTurn_cases p rdy with ⟨c, -, -, he⟩ | ⟨c, pc, hcur, -, he⟩ | he
  · rwa [he]
  · rw [he]
    exact moveTo_wf hwf hcur
  · rw [he]
    obtain ⟨hlen, hd, hnext, -⟩ := pickerWf_iff.1 hwf
    exact pickerWf_iff.2 ⟨hlen, hd, hnext, fun n hn => by cases hn⟩

theorem endTurn_ready : TurnReady (p.endTurn rdy) rdy := by
  rcases endTurn_cases p rdy with ⟨c, hcur, hr, he⟩ | ⟨c, pc, hcur, hr, he⟩ | he
  · obtain ⟨hchosen, hc⟩ := (current_iff hwf).1 hcur
    rw [he]
    exact fun n hn => ⟨c, hc, Option.some.inj (hchosen.symm.trans hn), hr⟩
  · obtain ⟨hchosen, hc⟩ := (current_iff hwf).1 hcur
    rw [he]
    exact fun n hn => ⟨_, moveTo_current hc, Option.some.inj (hchosen.symm.trans hn), hr⟩
  · rw [he]
    exact fun n hn => by cases hn

theorem endTurn_timely (h : Timely p) : Timely (p.endTurn rdy) := by
  rcases endTurn_cases p rdy with ⟨c, -, -, he⟩ | ⟨c, pc, hcur, -, he⟩ | he
  · rwa [he]
  · rw [he]
    exact moveTo_timely ((current_iff hwf).1 hcur).2 (pickerWf_iff.1 hwf).2.1 h
  · rw [he]
    exact ⟨h.active, h.pending⟩

/-- Where no class has the turn the classes are as they were. -/
theorem endTurn_none (h : (p.endTurn rdy).chosen = none) : p.endTurn rdy = p.over := by
  rcases endTurn_cases p rdy with ⟨c, hcur, -, he⟩ | ⟨c, pc, hcur, -, he⟩ | he
  · have := ((current_iff hwf).1 hcur).1
    rw [he, this] at h
    cases h
  · have := ((current_iff hwf).1 hcur).1
    rw [he] at h
    rw [show (p.moveTo c pc).chosen = p.chosen from rfl, this] at h
    cases h
  · exact he

end

/-! ### Classes go -/

/-- A picker without the classes that have no thread, its waits counted. -/
def swept (e : Picker) (ts rdy : List Thread) : Picker := (e.sweep ts).reckon rdy

section
variable {e : Picker} {ts rdy : List Thread}

theorem swept_active : (swept e ts rdy).active = (e.active.filter fun c => c.hasAny ts).map fun c =>
    if c.hasAny rdy then c else { c with waited := 0 } := rfl

theorem swept_pending : (swept e ts rdy).pending = (e.pending.filter fun c => c.hasAny ts).map fun c =>
    if c.hasAny rdy then c else { c with held := 0 } := rfl

theorem swept_born : ((classes (swept e ts rdy)).map fun c => c.born).Sublist ((classes e).map fun c => c.born) := by
  rw [classes, classes, List.map_append, List.map_append, swept_active, swept_pending, map_born_of fun c => by split <;> rfl,
    map_born_of fun c => by split <;> rfl]
  exact (List.filter_sublist.map _).append (List.filter_sublist.map _)

theorem swept_mem {c : PcClass} (hc : c ∈ classes (swept e ts rdy)) : ∃ d ∈ classes e, d.begin = c.begin := by
  rcases List.mem_append.1 hc with hc | hc
  · rw [swept_active] at hc
    obtain ⟨d, hd, rfl⟩ := List.mem_map.1 hc
    exact ⟨d, List.mem_append_left _ (List.mem_of_mem_filter hd), by split <;> rfl⟩
  · rw [swept_pending] at hc
    obtain ⟨d, hd, rfl⟩ := List.mem_map.1 hc
    exact ⟨d, List.mem_append_right _ (List.mem_of_mem_filter hd), by split <;> rfl⟩

/-- An active class with a thread stays active. -/
theorem swept_stays {c : PcClass} (hc : c ∈ e.active) (hr : c.hasAny ts = true) : ∃ d ∈ (swept e ts rdy).active, d.begin = c.begin := by
  rw [swept_active]
  exact ⟨_, List.mem_map_of_mem (List.mem_filter.2 ⟨hc, hr⟩), by split <;> rfl⟩

theorem swept_counted (hwf : PickerWf e) (hturn : TurnReady e ts) : Counted rdy (swept e ts rdy) where
  wf := by
    obtain ⟨hlen, hd, hnext, -⟩ := pickerWf_iff.1 hwf
    refine pickerWf_iff.2 ⟨?_, swept_born.nodup hd, fun c hc => ?_, fun n hn => ?_⟩
    · rw [swept_active, List.length_map]
      exact Nat.le_trans (List.length_filter_le ..) hlen
    · obtain ⟨d, hd, he⟩ := swept_mem hc
      rw [← born_of_begin he]
      exact hnext d hd
    · obtain ⟨c, hc, rfl, hr⟩ := hturn n hn
      obtain ⟨d, hd, he⟩ := swept_stays (rdy := rdy) hc hr
      exact ⟨d, hd, born_of_begin he⟩
  active c hc hno := by
    rw [swept_active] at hc
    obtain ⟨d, -, rfl⟩ := List.mem_map.1 hc
    by_cases hr : d.hasAny rdy = true
    · rw [if_pos hr, hr] at hno
      cases hno
    · rw [if_neg hr]
  pending c hc hno := by
    rw [swept_pending] at hc
    obtain ⟨d, -, rfl⟩ := List.mem_map.1 hc
    by_cases hr : d.hasAny rdy = true
    · rw [if_pos hr, hr] at hno
      cases hno
    · rw [if_neg hr]

theorem swept_inTime {bound : Nat} (h : InTime bound PcClass.held e.pending) : InTime bound PcClass.held (swept e ts rdy).pending := by
  rw [swept_pending]
  refine inTime_map.2 (inTime_mono (inTime_sublist h List.filter_sublist) fun c _ => ?_)
  split
  · exact Nat.le_refl _
  · exact Nat.zero_le _

theorem swept_timely (h : Timely e) : Timely (swept e ts rdy) := by
  refine ⟨?_, swept_inTime h.pending⟩
  rw [swept_active]
  refine inTime_map.2 (inTime_mono (inTime_sublist h.active List.filter_sublist) fun c _ => ?_)
  split
  · exact Nat.le_refl _
  · exact Nat.zero_le _

end

/-! ### Before a rotation -/

/-- A picker whose turn may be over, with its classes as the next gang finds them. -/
def prepared (e : Picker) (ts rdy : List Thread) : Picker := ((((swept e ts rdy).fill rdy 8).arise ts).fill rdy 8).evict rdy

theorem refresh_eq (p : Picker) (ts rdy : List Thread) : p.refresh ts rdy =
    if (prepared (p.endTurn rdy) ts rdy).chosen.isNone && (prepared (p.endTurn rdy) ts rdy).active.any fun c => c.hasAny rdy then
      (prepared (p.endTurn rdy) ts rdy).rotate rdy (if (p.endTurn rdy).chosen.isNone then p.chosen else none)
    else prepared (p.endTurn rdy) ts rdy := rfl

section
variable {e : Picker} {ts rdy : List Thread} (hwf : PickerWf e) (hturn : TurnReady e ts)
include hwf hturn

theorem filled_counted : Counted rdy (((swept e ts rdy).fill rdy 8).arise ts) := arise_counted (fill_counted (swept_counted hwf hturn) 8) ts

theorem filled_arisen : Arisen ((swept e ts rdy).fill rdy 8) (((swept e ts rdy).fill rdy 8).arise ts) :=
  arise_arisen (fill_counted (swept_counted hwf hturn) 8).wf ts

theorem prepared_evicted : Evicted rdy ((((swept e ts rdy).fill rdy 8).arise ts).fill rdy 8) (prepared e ts rdy) :=
  evict_evicted (fill_counted (filled_counted hwf hturn) 8)

/-- After the classes have arisen they only move. -/
theorem prepared_moved : Moved (((swept e ts rdy).fill rdy 8).arise ts) (prepared e ts rdy) :=
  (fill_moved (filled_counted hwf hturn) 8).trans (prepared_evicted hwf hturn).moved

theorem prepared_chosen : (prepared e ts rdy).chosen = e.chosen :=
  (prepared_moved hwf hturn).chosen.trans ((filled_arisen hwf hturn).chosen.trans (fill_moved (swept_counted hwf hturn) 8).chosen)

theorem prepared_covers {t : Thread} (ht : t ∈ ts) : ∃ c ∈ classes (prepared e ts rdy), c.has t = true := by
  obtain ⟨c, hc, hhas⟩ := arise_covers (fill_counted (rdy := rdy) (swept_counted hwf hturn) 8).wf ht
  obtain ⟨d, hd, he⟩ := (prepared_moved (rdy := rdy) hwf hturn).symm.mem hc
  exact ⟨d, hd, (has_of_begin he t).trans hhas⟩

theorem prepared_full (h : (prepared e ts rdy).pending ≠ []) : (prepared e ts rdy).active.length = 8 := by
  have hev := prepared_evicted (rdy := rdy) hwf hturn
  have hlen := (pickerWf_iff.1 hev.counted.wf).1
  rcases fill_full (rdy := rdy) 8 (((swept e ts rdy).fill rdy 8).arise ts) (by omega) with hp | ha
  · have hz := hev.pending
    rw [hp] at hz
    exact absurd (List.length_eq_zero_iff.1 hz) h
  · have := hev.active
    omega

theorem prepared_room {c : PcClass} (hc : c ∈ (prepared e ts rdy).active) (hno : ¬ HoldsPlace rdy (prepared e ts rdy) c) {d : PcClass}
    (hd : d ∈ (prepared e ts rdy).pending) : d.hasAny rdy = false :=
  not_ready_of_pick ((prepared_evicted hwf hturn).room c hc hno) hd

theorem prepared_timely (h : Timely e) : Timely (prepared e ts rdy) :=
  (prepared_evicted hwf hturn).timely (fill_timely ((filled_arisen hwf hturn).timely (fill_timely (swept_timely h) 8)) 8)

theorem prepared_served_of {q : Picker} (hq : q = (swept e ts rdy).fill rdy 8) (h : InTime 15 PcClass.held q.pending) :
    InTime 15 PcClass.held (prepared e ts rdy).pending := by
  subst hq
  exact (prepared_evicted hwf hturn).served (fill_served ((filled_arisen hwf hturn).inTime h) 8)

theorem prepared_served (h : InTime 15 PcClass.held e.pending) : InTime 15 PcClass.held (prepared e ts rdy).pending :=
  prepared_served_of hwf hturn rfl (fill_served (swept_inTime h) 8)

/-- An active class stays active, or the others are in time for the next rotation. -/
theorem prepared_stays (ht : Timely e) {c : PcClass} (hc : c ∈ e.active) : (∃ d ∈ (prepared e ts rdy).active, d.born = c.born) ∨
    InTime 15 PcClass.held (prepared e ts rdy).pending := by
  by_cases hr : c.hasAny ts = true
  · obtain ⟨d, hd, he⟩ := swept_stays (rdy := rdy) hc hr
    have hd' : d ∈ ((((swept e ts rdy).fill rdy 8).arise ts).fill rdy 8).active :=
      fill_active (by rw [(filled_arisen hwf hturn).active]; exact fill_active hd 8) 8
    have htimely := fill_timely (rdy := rdy) ((filled_arisen hwf hturn).timely (fill_timely (rdy := rdy) (swept_timely ht) 8)) 8
    rcases (prepared_evicted hwf hturn).stays htimely d hd' with hs | hs
    · exact .inl ⟨d, hs, born_of_begin he⟩
    · exact .inr hs
  · refine .inr (prepared_served_of hwf hturn rfl (fill_serves (swept_counted hwf hturn) (swept_timely ht) ?_ 7))
    rw [swept_active, List.length_map]
    exact Nat.lt_of_lt_of_le (List.length_filter_lt_length_iff_exists.2 ⟨c, hc, hr⟩) (pickerWf_iff.1 hwf).1

/-- The age of a class goes on, and that of a new one begins. -/
theorem prepared_ages {c : PcClass} (hc : c ∈ classes (prepared e ts rdy)) :
    (∃ d ∈ classes e, d.born = c.born ∧ d.age = c.age) ∨ (c.age = 0 ∧ e.next ≤ c.born) := by
  obtain ⟨d, hd, he⟩ := (prepared_moved hwf hturn).mem hc
  have harisen := filled_arisen (rdy := rdy) hwf hturn
  have hmoved := fill_moved (rdy := rdy) (swept_counted hwf hturn) 8
  obtain ⟨ds, hds, hnew⟩ := harisen.pending
  rw [classes, harisen.active, hds, ← List.append_assoc] at hd
  rcases List.mem_append.1 hd with hd | hd
  · obtain ⟨x, hx, hxd⟩ := hmoved.mem hd
    obtain ⟨y, hy, hyx⟩ := swept_mem hx
    have hbegin := hyx.trans (hxd.trans he)
    exact .inl ⟨y, hy, born_of_begin hbegin, age_of_begin hbegin⟩
  · obtain ⟨-, hage, hborn⟩ := hnew d hd
    rw [hmoved.next] at hborn
    refine .inr ⟨?_, ?_⟩
    · rw [← age_of_begin he, hage]
    · rw [← born_of_begin he]
      exact hborn

end

end Sys2Proof.Proofs

/-!
A picker after a rotation keeps its bounds (R18), and the rules of the pickers (R17, R18).
-/
namespace Sys2Proof.Proofs
open Sys2Proof.Machine

/-! ### What a rotation keeps -/

theorem tick_mem {p : Picker} {rdy : List Thread} {c : PcClass} (hc : c ∈ (p.tick rdy).active) : ∃ d ∈ p.active, d.born = c.born ∧
    ∀ ts, d.hasAny ts = c.hasAny ts := by
  obtain ⟨d, hd, rfl⟩ := List.mem_map.1 hc
  exact ⟨d, hd, rfl, fun _ => rfl⟩

theorem mem_tick {p : Picker} {rdy : List Thread} {c : PcClass} (hc : c ∈ p.active) : ∃ d ∈ (p.tick rdy).active, d.born = c.born :=
  ⟨_, List.mem_map_of_mem hc, rfl⟩

theorem tick_mem_pending {p : Picker} {rdy : List Thread} {c : PcClass} (hc : c ∈ (p.tick rdy).pending) : ∃ d ∈ p.pending,
    ∀ ts, d.hasAny ts = c.hasAny ts := by
  obtain ⟨d, hd, rfl⟩ := List.mem_map.1 hc
  exact ⟨d, hd, fun _ => rfl⟩

theorem tick_covers {p : Picker} {rdy : List Thread} {c : PcClass} (hc : c ∈ classes p) : ∃ d ∈ classes (p.tick rdy), ∀ t, d.has t = c.has t := by
  rcases List.mem_append.1 hc with hc | hc
  · exact ⟨_, List.mem_append_left _ (List.mem_map_of_mem hc), fun _ => rfl⟩
  · exact ⟨_, List.mem_append_right _ (List.mem_map_of_mem hc), fun _ => rfl⟩

section
variable {p : Picker} {rdy : List Thread} {done : Option Nat} (hwf : PickerWf p) (hturn : p.chosen = none)
include hwf hturn

theorem tick_wf : PickerWf (p.tick rdy) := by
  obtain ⟨hlen, hd, hnext, -⟩ := pickerWf_iff.1 hwf
  refine pickerWf_iff.2 ⟨?_, tick_nodup rdy hd, fun c hc => ?_, fun n hn => ?_⟩
  · rw [Picker.tick, List.length_map]
    exact hlen
  · have hb : c.born ∈ (classes p).map fun c => c.born := by
      have := List.mem_map_of_mem (f := fun c : PcClass => c.born) hc
      rwa [classes, List.map_append, tick_active_born, tick_pending_born, ← List.map_append] at this
    obtain ⟨d, hd, he⟩ := List.mem_map.1 hb
    exact lt_of_eq_of_lt he.symm (hnext d hd)
  · have hn : p.chosen = some n := hn
    rw [hturn] at hn
    cases hn

omit hturn in
theorem turned_moved : Moved (p.tick rdy) (turned p rdy done) := by
  have hd := (pickerWf_iff.1 hwf).2.1
  have hdt := tick_nodup rdy hd
  rcases turned_cases (rdy := rdy) (done := done) hd with ⟨he, -⟩ | ⟨c, d, hc, hf, he⟩
  · rw [he]
    exact .refl _
  · rw [he]
    exact moved_swap hdt hc (mem_readyPending.1 (foremost_some hf).1).1

omit hturn in
theorem length_turned_active : (turned p rdy done).active.length = p.active.length := by
  have htick : (p.tick rdy).active.length = p.active.length := List.length_map ..
  rcases turned_cases (rdy := rdy) (done := done) (pickerWf_iff.1 hwf).2.1 with ⟨he, -⟩ | ⟨c, d, hc, hf, he⟩
  · rw [he, htick]
  · rw [he, length_swap_active, htick]

omit hturn in
theorem length_turned_pending : (turned p rdy done).pending.length = p.pending.length := by
  have htick : (p.tick rdy).pending.length = p.pending.length := List.length_map ..
  have hd := (pickerWf_iff.1 hwf).2.1
  rcases turned_cases (rdy := rdy) (done := done) hd with ⟨he, -⟩ | ⟨c, d, hc, hf, he⟩
  · rw [he, htick]
  · rw [he, length_swap_pending (tick_nodup rdy hd) (mem_readyPending.1 (foremost_some hf).1).1, htick]

theorem turned_wf : PickerWf (turned p rdy done) := by
  refine (turned_moved hwf).wf (tick_wf hwf hturn) ?_ fun c _ hch => ?_
  · rw [length_turned_active hwf]
    exact (pickerWf_iff.1 hwf).1
  · have hch : p.chosen = some c.born := hch
    rw [hturn] at hch
    cases hch

end

theorem served_born (cs : List PcClass) (n : Nat) : (served cs n).map (fun c => c.born) = cs.map fun c => c.born :=
  map_born_of (fun c => by split <;> rfl) cs

theorem mem_served {cs : List PcClass} {n : Nat} {c : PcClass} (hc : c ∈ served cs n) : ∃ d ∈ cs, d.born = c.born ∧ ∀ ts, d.hasAny ts = c.hasAny ts := by
  obtain ⟨d, hd, rfl⟩ := List.mem_map.1 hc
  exact ⟨d, hd, by split <;> rfl, fun ts => by split <;> rfl⟩

theorem served_mem {cs : List PcClass} {n : Nat} {c : PcClass} (hc : c ∈ cs) : ∃ d ∈ served cs n, d.born = c.born ∧ ∀ t, d.has t = c.has t :=
  ⟨_, List.mem_map_of_mem hc, by split <;> rfl, fun t => by split <;> rfl⟩

section
variable {p : Picker} {rdy : List Thread} {done : Option Nat} (hwf : PickerWf p) (hturn : p.chosen = none)
include hwf hturn

theorem rotate_wf : PickerWf (p.rotate rdy done) := by
  obtain ⟨hlen, hd, hnext, -⟩ := pickerWf_iff.1 (turned_wf (rdy := rdy) (done := done) hwf hturn)
  rw [rotate_eq]
  cases hch : (turned p rdy done).choice rdy with
  | none => exact pickerWf_iff.2 ⟨hlen, hd, hnext, fun n hn => by cases hn⟩
  | some c =>
    refine pickerWf_iff.2 ⟨?_, ?_, fun x hx => ?_, fun n hn => ?_⟩
    · dsimp only
      rw [served, List.length_map]
      exact hlen
    · dsimp only [classes]
      rw [List.map_append, served_born, ← List.map_append]
      exact hd
    · rcases List.mem_append.1 hx with hx | hx
      · obtain ⟨y, hy, he, -⟩ := mem_served hx
        rw [← he]
        exact hnext y (List.mem_append_left _ hy)
      · exact hnext x (List.mem_append_right _ hx)
    · obtain ⟨x, hx, he, -⟩ := served_mem (n := c.born) (mem_readyActive.1 (choice_mem hch)).1
      exact ⟨x, hx, he.trans (Option.some.inj hn)⟩

omit hturn in
theorem rotate_covers {c : PcClass} (hc : c ∈ classes p) : ∃ d ∈ classes (p.rotate rdy done), ∀ t, d.has t = c.has t := by
  obtain ⟨x, hx, hxc⟩ := tick_covers (rdy := rdy) hc
  obtain ⟨y, hy, hyx⟩ := (turned_moved (rdy := rdy) (done := done) hwf).symm.mem hx
  have hyc : ∀ t, y.has t = c.has t := fun t => (has_of_begin hyx t).trans (hxc t)
  rw [rotate_eq]
  cases (turned p rdy done).choice rdy with
  | none => exact ⟨y, hy, hyc⟩
  | some z =>
    rcases List.mem_append.1 hy with hy | hy
    · obtain ⟨w, hw, -, hwy⟩ := served_mem (n := z.born) hy
      exact ⟨w, List.mem_append_left _ hw, fun t => (hwy t).trans (hyc t)⟩
    · exact ⟨y, List.mem_append_right _ hy, hyc⟩

omit hturn in
/-- A rotation leaves no class active that waits as a whole while a pending one has a ready thread. -/
theorem rotate_room (hroom : ∀ c ∈ p.active, c.hasAny rdy = false → ∀ d ∈ p.pending, d.hasAny rdy = false) {c : PcClass}
    (hc : c ∈ (p.rotate rdy done).active) (hno : c.hasAny rdy = false) : ∀ d ∈ (p.rotate rdy done).pending, d.hasAny rdy = false := by
  have hturned : ∃ x ∈ (turned p rdy done).active, x.hasAny rdy = false := by
    rw [rotate_eq] at hc
    cases hch : (turned p rdy done).choice rdy with
    | none =>
      rw [hch] at hc
      exact ⟨c, hc, hno⟩
    | some z =>
      rw [hch] at hc
      obtain ⟨x, hx, -, hxc⟩ := mem_served hc
      exact ⟨x, hx, (hxc rdy).trans hno⟩
  obtain ⟨x, hx, hxno⟩ := hturned
  have hpending : (∃ y ∈ (p.tick rdy).active, y.hasAny rdy = false) → ∀ d ∈ (p.tick rdy).pending, d.hasAny rdy = false := fun ⟨y, hy, hyno⟩ d hd => by
    obtain ⟨z, hz, -, hzy⟩ := tick_mem hy
    obtain ⟨w, hw, hwd⟩ := tick_mem_pending hd
    exact (hwd rdy).symm.trans (hroom z hz ((hzy rdy).trans hyno) w hw)
  rw [rotate_pending]
  rcases turned_cases (rdy := rdy) (done := done) (pickerWf_iff.1 hwf).2.1 with ⟨he, -⟩ | ⟨y, d, hy, hf, he⟩
  · rw [he] at hx ⊢
    exact hpending ⟨x, hx, hxno⟩
  · obtain ⟨hd, hready⟩ := mem_readyPending.1 (foremost_some hf).1
    rw [he] at hx
    rcases mem_swap_active hx with rfl | ⟨hx, -⟩
    · rw [show d.begin.hasAny rdy = d.hasAny rdy from rfl, hready] at hxno
      cases hxno
    · rw [hpending ⟨x, hx, hxno⟩ d hd] at hready
      cases hready

end

/-! ### A rotation keeps the bounds (R18) -/

theorem oneShort_sublist {bound : Nat} {f : PcClass → Nat} {cs cs' : List PcClass} (h : OneShort bound f cs) (hs : cs'.Sublist cs) :
    OneShort bound f cs' := fun k hk => Nat.le_trans hs.countP_le (h k hk)

theorem oneShort_map {bound : Nat} {f : PcClass → Nat} {cs : List PcClass} {g : PcClass → PcClass} :
    OneShort bound f (cs.map g) ↔ OneShort bound (fun c => f (g c)) cs := by
  unfold OneShort
  simp only [List.countP_map, Function.comp_def]

/-- One class replaced by one that has not waited. -/
theorem oneShort_replaced {bound : Nat} {f : PcClass → Nat} {cs : List PcClass} {n : Nat} {e : PcClass} (h : OneShort bound f cs) (he : f e = 0) :
    OneShort bound f (replaced cs n e) := oneShort_map.2 fun k hk => by
  refine Nat.le_trans (List.countP_mono_left fun c _ hp => ?_) (h k hk)
  dsimp only at hp
  split at hp
  · rw [he] at hp
    simp only [decide_eq_true_eq] at hp
    omega
  · exact hp

/-- The classes with one served are in time where the others are. -/
theorem inTime_served {bound : Nat} {cs : List PcClass} {n : Nat} (h : InTime bound PcClass.waited (cs.filter fun x => x.born != n)) :
    InTime bound PcClass.waited (served cs n) := by
  refine inTime_map.2 ((inTime_filter (p := fun x => x.born != n) fun x _ hx => ?_).1 (inTime_mono h fun x hx => ?_))
  · have : x.born = n := by simpa using hx
    rw [if_pos (beq_iff_eq.2 this)]
  · have : x.born ≠ n := by simpa using (List.mem_filter.1 hx).2
    rw [if_neg (mt beq_iff_eq.1 this)]

theorem tick_active (p : Picker) (rdy : List Thread) : (p.tick rdy).active =
    p.active.map fun c => { c with age := c.age + 1, waited := if c.hasAny rdy then c.waited + 1 else 0 } := rfl

theorem tick_pending (p : Picker) (rdy : List Thread) : (p.tick rdy).pending =
    p.pending.map fun c => { c with age := c.age + 1, held := if c.hasAny rdy then c.held + 1 else 0 } := rfl

section
variable {p : Picker} {rdy : List Thread} {done : Option Nat}

theorem tick_oneShort (h : Timely p) (hwf : PickerWf p) : OneShort 8 PcClass.waited (p.tick rdy).active := by
  rw [tick_active]
  refine oneShort_map.2 (oneShort_tick h.active (pickerWf_iff.1 hwf).1 fun c _ => ?_)
  dsimp only
  split
  · exact Nat.le_refl _
  · exact Nat.zero_le _

theorem tick_oneShort_pending (h : Timely p) (hlen : p.pending.length ≤ 15) : OneShort 16 PcClass.held (p.tick rdy).pending := by
  rw [tick_pending]
  refine oneShort_map.2 (oneShort_tick h.pending (by omega) fun c _ => ?_)
  dsimp only
  split
  · exact Nat.le_refl _
  · exact Nat.zero_le _

theorem tick_inTime_pending (h : InTime 15 PcClass.held p.pending) (hlen : p.pending.length ≤ 15) : InTime 16 PcClass.held (p.tick rdy).pending := by
  rw [tick_pending]
  refine inTime_map.2 (inTime_tick h hlen fun c _ => ?_)
  dsimp only
  split
  · exact Nat.le_refl _
  · exact Nat.zero_le _

theorem tick_waited {c : PcClass} (hc : c ∈ (p.tick rdy).active) (hno : c.hasAny rdy = false) : c.waited = 0 := by
  obtain ⟨d, -, rfl⟩ := List.mem_map.1 hc
  have hd : d.hasAny rdy = false := hno
  dsimp only
  rw [hd]
  rfl

theorem tick_held {c : PcClass} (hc : c ∈ (p.tick rdy).pending) (hno : c.hasAny rdy = false) : c.held = 0 := by
  obtain ⟨d, -, rfl⟩ := List.mem_map.1 hc
  have hd : d.hasAny rdy = false := hno
  dsimp only
  rw [hd]
  rfl

section
variable (hwf : PickerWf p) (ht : Timely p)
include hwf ht

theorem turned_oneShort : OneShort 8 PcClass.waited (turned p rdy done).active := by
  rcases turned_cases (rdy := rdy) (done := done) (pickerWf_iff.1 hwf).2.1 with ⟨he, -⟩ | ⟨c, d, hc, hf, he⟩
  · rw [he]
    exact tick_oneShort ht hwf
  · rw [he]
    exact oneShort_replaced (e := d.begin) (tick_oneShort ht hwf) rfl

omit ht in
theorem turned_waited {c : PcClass} (hc : c ∈ (turned p rdy done).active) (hno : c.hasAny rdy = false) : c.waited = 0 := by
  rcases turned_cases (rdy := rdy) (done := done) (pickerWf_iff.1 hwf).2.1 with ⟨he, -⟩ | ⟨x, d, hx, hf, he⟩
  · rw [he] at hc
    exact tick_waited hc hno
  · rw [he] at hc
    rcases mem_swap_active hc with rfl | ⟨hc, -⟩
    · rfl
    · exact tick_waited hc hno

/-- The active classes are in time once one of them has been chosen. -/
theorem chosen_inTime {c : PcClass} (hch : (turned p rdy done).choice rdy = some c) : InTime 8 PcClass.waited (served (turned p rdy done).active c.born) := by
  have hothers : InTime 8 PcClass.waited ((readyActive (turned p rdy done) rdy).filter fun d => d.born != c.born) := by
    obtain ⟨a, ha, hin, hlate⟩ := choice_some hch
    by_cases hi : InTime 8 PcClass.waited ((readyActive (turned p rdy done) rdy).filter fun d => d.born != a.born)
    · rw [hin hi]
      exact hi
    · have hshort := oneShort_sublist (turned_oneShort (rdy := rdy) (done := done) hwf ht) (List.filter_sublist (p := fun c => c.hasAny rdy))
      exact OneShort.serve hshort (choice_mem hch) (foremost_le (hlate hi))
  rw [readyActive, List.filter_filter, List.filter_congr fun x _ => Bool.and_comm .., ← List.filter_filter] at hothers
  exact inTime_served ((inTime_filter fun x hx hno => turned_waited hwf (List.mem_of_mem_filter hx) hno).1 hothers)

/-- The pending classes are in time after a rotation where those that stay are in time for it, or the class whose turn is over can make
room. -/
theorem turned_inTime_pending (hlen : p.pending.length ≤ 15)
    (hserved : InTime 15 PcClass.held p.pending ∨ ∃ c ∈ p.active, done = some c.born) : InTime 16 PcClass.held (turned p rdy done).pending := by
  rcases hserved with hin | ⟨c, hc, hdone⟩
  · have htick := tick_inTime_pending (rdy := rdy) hin hlen
    rcases turned_cases (rdy := rdy) (done := done) (pickerWf_iff.1 hwf).2.1 with ⟨he, -⟩ | ⟨x, d, hx, hf, he⟩
    · rwa [he]
    · rw [he]
      exact inTime_swap_pending (inTime_sublist htick List.filter_sublist)
  · rcases turned_cases (rdy := rdy) (done := done) (pickerWf_iff.1 hwf).2.1 with ⟨he, hin | hroom⟩ | ⟨x, d, hx, hf, he⟩
    · rw [he]
      exact (inTime_filter fun x hx hno => tick_held hx hno).1 hin
    · obtain ⟨d, hd, hb⟩ := mem_tick (rdy := rdy) hc
      exact absurd (hdone.trans (by rw [hb])) (hroom d hd)
    · rw [he]
      refine inTime_swap_pending ?_
      have hshort := oneShort_sublist (tick_oneShort_pending (rdy := rdy) ht hlen) (List.filter_sublist (p := fun c => c.hasAny rdy))
      have hrest := OneShort.serve hshort (foremost_some hf).1 (foremost_le hf)
      rw [List.filter_filter, List.filter_congr fun x _ => Bool.and_comm .., ← List.filter_filter] at hrest
      exact (inTime_filter fun x hx hno => tick_held (List.mem_of_mem_filter hx) hno).1 hrest

theorem rotate_due (hready : ∃ c ∈ (turned p rdy done).active, c.hasAny rdy = true) (hlen : p.pending.length ≤ 15)
    (hserved : InTime 15 PcClass.held p.pending ∨ ∃ c ∈ p.active, done = some c.born) : PickerDue (p.rotate rdy done) := by
  have hpending := turned_inTime_pending (rdy := rdy) hwf ht hlen hserved
  refine ⟨?_, by rwa [rotate_pending], fun hnone => ?_⟩
  · rw [rotate_eq]
    cases hch : (turned p rdy done).choice rdy with
    | none =>
      obtain ⟨c, hc, hr⟩ := hready
      have := mem_readyActive.2 ⟨hc, hr⟩
      rw [choice_none.1 hch] at this
      cases this
    | some c => exact chosen_inTime hwf ht hch
  · have := rotate_chosen_isSome.1 hready
    rw [hnone] at this
    cases this

end

end

/-! ### A refresh -/

section
variable {p : Picker} {ts rdy : List Thread}

theorem turnReady_mono {e : Picker} (h : TurnReady e rdy) (hsub : ∀ t ∈ rdy, t ∈ ts) : TurnReady e ts := fun n hn => by
  obtain ⟨c, hc, hb, hr⟩ := h n hn
  obtain ⟨t, ht, hhas⟩ := List.any_eq_true.1 hr
  exact ⟨c, hc, hb, List.any_eq_true.2 ⟨t, hsub t ht, hhas⟩⟩

/-- A refresh prepares the picker, and rotates it where no class has the turn and one is ready. -/
theorem refresh_cases (p : Picker) (ts rdy : List Thread) (hwf : PickerWf p) (hsub : ∀ t ∈ rdy, t ∈ ts) :
    let m := prepared (p.endTurn rdy) ts rdy
    (p.refresh ts rdy = m ∧ ((p.endTurn rdy).chosen = none → ∀ c ∈ m.active, c.hasAny rdy = false)) ∨
    (m.chosen = none ∧ (p.endTurn rdy).chosen = none ∧ (∃ c ∈ m.active, c.hasAny rdy = true) ∧ p.refresh ts rdy = m.rotate rdy p.chosen) := by
  intro m
  have hchosen : m.chosen = (p.endTurn rdy).chosen := prepared_chosen (endTurn_wf hwf rdy) (turnReady_mono (endTurn_ready hwf rdy) hsub)
  rw [refresh_eq]
  by_cases h : (m.chosen.isNone && m.active.any fun c => c.hasAny rdy) = true
  · obtain ⟨hnone, hany⟩ := Bool.and_eq_true_iff.1 h
    have hm : m.chosen = none := Option.isNone_iff_eq_none.1 hnone
    have he : (p.endTurn rdy).chosen = none := hchosen.symm.trans hm
    refine .inr ⟨hm, he, List.any_eq_true.1 hany, ?_⟩
    rw [if_pos h, he]
    rfl
  · refine .inl ⟨if_neg h, fun he c hc => ?_⟩
    cases hr : c.hasAny rdy with
    | false => rfl
    | true => exact absurd (Bool.and_eq_true_iff.2 ⟨by rw [hchosen, he]; rfl, List.any_eq_true.2 ⟨c, hc, hr⟩⟩) h

section
variable (hwf : PickerWf p) (hsub : ∀ t ∈ rdy, t ∈ ts)
include hwf hsub

theorem refresh_turn : TurnReady (p.endTurn rdy) ts := turnReady_mono (endTurn_ready hwf rdy) hsub

theorem prepared_counted : Counted rdy (prepared (p.endTurn rdy) ts rdy) := (prepared_evicted (endTurn_wf hwf rdy) (refresh_turn hwf hsub)).counted

theorem refresh_wf : PickerWf (p.refresh ts rdy) := by
  have hm := (prepared_counted hwf hsub).wf
  rcases refresh_cases p ts rdy hwf hsub with ⟨he, -⟩ | ⟨hnone, -, -, he⟩
  · rwa [he]
  · rw [he]
    exact rotate_wf hm hnone

theorem refresh_covers {t : Thread} (ht : t ∈ ts) : ∃ c ∈ classes (p.refresh ts rdy), c.has t = true := by
  obtain ⟨c, hc, hhas⟩ := prepared_covers (rdy := rdy) (endTurn_wf hwf rdy) (refresh_turn hwf hsub) ht
  rcases refresh_cases p ts rdy hwf hsub with ⟨he, -⟩ | ⟨hnone, -, -, he⟩
  · rw [he]
    exact ⟨c, hc, hhas⟩
  · rw [he]
    obtain ⟨d, hd, hdc⟩ := rotate_covers (rdy := rdy) (done := p.chosen) (prepared_counted hwf hsub).wf hc
    exact ⟨d, hd, (hdc t).trans hhas⟩

theorem refresh_full (h : (p.refresh ts rdy).pending ≠ []) : (p.refresh ts rdy).active.length = 8 := by
  have hfull := prepared_full (rdy := rdy) (endTurn_wf hwf rdy) (refresh_turn hwf hsub)
  have hm := (prepared_counted hwf hsub).wf
  rcases refresh_cases p ts rdy hwf hsub with ⟨he, -⟩ | ⟨hnone, -, -, he⟩
  · rw [he] at h ⊢
    exact hfull h
  · rw [he] at h ⊢
    have hactive : ((prepared (p.endTurn rdy) ts rdy).rotate rdy p.chosen).active.length = (prepared (p.endTurn rdy) ts rdy).active.length := by
      rw [← length_turned_active (rdy := rdy) (done := p.chosen) hm, rotate_eq]
      cases (turned (prepared (p.endTurn rdy) ts rdy) rdy p.chosen).choice rdy with
      | none => rfl
      | some c => exact List.length_map ..
    rw [hactive]
    refine hfull fun hempty => h ?_
    rw [rotate_pending]
    refine List.length_eq_zero_iff.1 ?_
    rw [length_turned_pending hm, hempty]
    rfl

theorem refresh_room (h : ∃ c ∈ (p.refresh ts rdy).active, (p.refresh ts rdy).chosen ≠ some c.born ∧ c.hasAny rdy = false) :
    ∀ d ∈ (p.refresh ts rdy).pending, d.hasAny rdy = false := by
  obtain ⟨c, hc, hturn, hno⟩ := h
  have hroom := fun x hx hn d hd => prepared_room (rdy := rdy) (endTurn_wf hwf rdy) (refresh_turn hwf hsub) (c := x) hx hn (d := d) hd
  rcases refresh_cases p ts rdy hwf hsub with ⟨he, -⟩ | ⟨hnone, -, -, he⟩
  · rw [he] at hc hturn ⊢
    exact hroom c hc fun hk => hk.elim hturn fun hr => by rw [hr] at hno; cases hno
  · rw [he] at hc ⊢
    refine rotate_room (prepared_counted hwf hsub).wf (fun x hx hxno => hroom x hx fun hk => hk.elim (fun hch => ?_) fun hr => ?_) hc hno
    · rw [hnone] at hch
      cases hch
    · rw [hr] at hxno
      cases hxno

/-- A picker that keeps the bounds keeps them over a refresh (R18). -/
theorem refresh_due (hdue : PickerDue p) (hlen : (p.refresh ts rdy).pending.length ≤ 15) : PickerDue (p.refresh ts rdy) := by
  obtain ⟨hactive, hpending, hidle⟩ := hdue
  have hturn := refresh_turn hwf hsub
  have he := endTurn_wf hwf rdy
  have hcounted := prepared_counted hwf hsub
  have htimely : Timely (prepared (p.endTurn rdy) ts rdy) := prepared_timely he hturn (endTurn_timely hwf rdy ⟨hactive, hpending⟩)
  rcases refresh_cases p ts rdy hwf hsub with ⟨hq, hno⟩ | ⟨hnone, hover, hready, hq⟩
  · rw [hq]
    refine ⟨htimely.active, htimely.pending, fun hch => ?_⟩
    have hno := hno ((prepared_chosen (rdy := rdy) he hturn).symm.trans hch)
    refine ⟨fun c hc => hcounted.active c hc (hno c hc), fun d hd => ?_⟩
    have hfull := prepared_full (rdy := rdy) he hturn fun hempty => by
      rw [hempty] at hd
      cases hd
    obtain ⟨c, hc⟩ := List.exists_mem_of_length_pos (by rw [hfull]; decide : 0 < (prepared (p.endTurn rdy) ts rdy).active.length)
    refine hcounted.pending d hd (prepared_room he hturn hc (fun hk => hk.elim (fun hch' => ?_) fun hr => ?_) hd)
    · rw [hch] at hch'
      cases hch'
    · rw [hno c hc] at hr
      cases hr
  · rw [hq] at hlen ⊢
    rw [rotate_pending, length_turned_pending hcounted.wf] at hlen
    have hready' : ∃ c ∈ (turned (prepared (p.endTurn rdy) ts rdy) rdy p.chosen).active, c.hasAny rdy = true := by
      obtain ⟨c, hc, hr⟩ := hready
      by_contra hno
      push Not at hno
      rcases turned_cases (rdy := rdy) (done := p.chosen) (pickerWf_iff.1 hcounted.wf).2.1 with ⟨ht, -⟩ | ⟨x, d, hx, hf, ht⟩
      · rw [ht] at hno
        exact hno _ (List.mem_map_of_mem hc) hr
      · rw [ht] at hno
        exact hno d.begin (List.mem_map.2 ⟨x, hx, if_pos (beq_iff_eq.2 rfl)⟩) (mem_readyPending.1 (foremost_some hf).1).2
    refine rotate_due hcounted.wf htimely hready' hlen ?_
    have hover' := endTurn_none hwf rdy hover
    cases hch : p.chosen with
    | none =>
      refine .inl (prepared_served he hturn (inTime_of_zero fun c hc => (hidle hch).2 c ?_))
      rw [hover'] at hc
      exact hc
    | some n =>
      obtain ⟨c, hc, rfl⟩ := (pickerWf_iff.1 hwf).2.2.2 n hch
      have hc' : c ∈ (p.endTurn rdy).active := by
        rw [hover']
        exact hc
      rcases prepared_stays (rdy := rdy) he hturn (endTurn_timely hwf rdy ⟨hactive, hpending⟩) hc' with ⟨d, hd, hb⟩ | hin
      · exact .inr ⟨d, hd, by rw [hb]⟩
      · exact .inl hin

/-- The class that has the turn after its end keeps it. -/
theorem refresh_chosen {n : Nat} (h : (p.endTurn rdy).chosen = some n) : (p.refresh ts rdy).chosen = some n := by
  rcases refresh_cases p ts rdy hwf hsub with ⟨he, -⟩ | ⟨-, hnone, -, -⟩
  · rw [he, prepared_chosen (endTurn_wf hwf rdy) (refresh_turn hwf hsub), h]
  · rw [hnone] at h
    cases h

theorem refresh_rotates (hover : (p.endTurn rdy).chosen = none) (hready : ∃ c ∈ (p.refresh ts rdy).active, c.hasAny rdy = true) :
    ∃ m : Picker, p.refresh ts rdy = m.rotate rdy p.chosen ∧ PickerWf m ∧ ∀ c ∈ m.active ++ m.pending,
      (∃ c0 ∈ p.active ++ p.pending, c0.born = c.born ∧ c0.age = c.age) ∨ (c.age = 0 ∧ p.next ≤ c.born) := by
  have hover' := endTurn_none hwf rdy hover
  rcases refresh_cases p ts rdy hwf hsub with ⟨he, hno⟩ | ⟨-, -, -, he⟩
  · obtain ⟨c, hc, hr⟩ := hready
    rw [he] at hc
    rw [hno hover c hc] at hr
    cases hr
  · refine ⟨_, he, (prepared_counted hwf hsub).wf, fun c hc => ?_⟩
    have hages := prepared_ages (endTurn_wf hwf rdy) (refresh_turn hwf hsub) hc
    rw [hover'] at hages
    exact hages

end

end

/-! ### A class has issued -/

/-- The classes with one that has issued. -/
theorem note_eq {p : Picker} {t : Thread} {c : PcClass} {next : Option DWord} {switch : Bool} (hcur : p.current = some c) (hhas : c.has t = true) :
    p.note t next switch = { p with
      active := p.active.map fun d => if d.born == c.born then { d with age := 0 } else d
      switch := p.switch || switch
      lead := if p.lead.isSome then p.lead else next.filter fun pc => pc != t.pc
      issued := t.key.slot :: p.issued } := by
  rw [Picker.note, hcur]
  dsimp only
  rw [hhas]
  rfl

section
variable {p : Picker} {t : Thread} {c : PcClass} {next : Option DWord} {switch : Bool} (hwf : PickerWf p) (hcur : p.current = some c)
  (hhas : c.has t = true)
include hwf hcur hhas

theorem note_wf : PickerWf (p.note t next switch) := by
  rw [note_eq hcur hhas]
  obtain ⟨hlen, hd, hnext, hchosen⟩ := pickerWf_iff.1 hwf
  have hborn : ∀ d : PcClass, (if d.born == c.born then ({ d with age := 0 } : PcClass) else d).born = d.born := fun d => by split <;> rfl
  refine pickerWf_iff.2 ⟨by rwa [List.length_map], ?_, fun x hx => ?_, fun n hn => ?_⟩
  · rw [classes, List.map_append] at hd ⊢
    rwa [map_born_of hborn]
  · rcases List.mem_append.1 hx with hx | hx
    · obtain ⟨y, hy, rfl⟩ := List.mem_map.1 hx
      rw [hborn]
      exact hnext y (List.mem_append_left _ hy)
    · exact hnext x (List.mem_append_right _ hx)
  · obtain ⟨x, hx, rfl⟩ := hchosen n hn
    exact ⟨_, List.mem_map_of_mem hx, hborn x⟩

theorem note_due (hdue : PickerDue p) : PickerDue (p.note t next switch) := by
  rw [note_eq hcur hhas]
  obtain ⟨hactive, hpending, -⟩ := hdue
  refine ⟨inTime_map.2 (inTime_mono hactive fun d _ => ?_), hpending, fun hnone => ?_⟩
  · split <;> exact Nat.le_refl _
  · have hturn := ((current_iff hwf).1 hcur).1
    rw [show p.chosen = none from hnone] at hturn
    cases hturn

theorem note_current : (p.note t next switch).current = some { c with age := 0 } := by
  refine (current_iff (note_wf hwf hcur hhas)).2 ?_
  obtain ⟨hch, hc⟩ := (current_iff hwf).1 hcur
  rw [note_eq hcur hhas]
  exact ⟨hch, List.mem_map.2 ⟨c, hc, if_pos (beq_iff_eq.2 rfl)⟩⟩

end

/-! ### What the pickers let in, and the switch points (R18, R89) -/

theorem admitted_issue (s : State) (k : Key) : admitted s (.issue k) = .issue k ↔ mayPick s k = true := by
  unfold admitted
  dsimp only
  cases mayPick s k with
  | true => exact iff_of_true rfl rfl
  | false => exact iff_of_false (fun h => by cases h) Bool.false_ne_true

theorem isSwitch_br (b : BranchOps) (took : Bool) (pc next : DWord) : isSwitch (.br b) took pc next = true ↔
    b.off.toInt ≤ 0 ∧ next = pc + (b.off.signExtend 64 <<< 2) := by
  unfold isSwitch branchTarget
  simp

theorem isSwitch_lane {i : Instr} {major a : Nat} {b : LaneSig} {o : LaneOps} (hform : i.form = .lane major a b o) (took : Bool) (pc next : DWord) :
    isSwitch i took pc next = true ↔ (major = 14 ∧ took = true) ∨ major = 15 := by
  unfold isSwitch
  split
  case h_15 =>
    rw [hform]
    simp
  all_goals cases hform

theorem pickerRules : PickerRules := by
  refine ⟨rotationRules, fun p ts rdy hwf hsub => ?_, fun p t c next switch hwf hcur hhas => ?_, admitted_issue, fun s part core slots =>
    ⟨_, rfl, fun n => List.mem_filter⟩, fun o b took pc next => ⟨?_, isSwitch_br b took pc next, ?_, rfl, rfl⟩, fun i major a b c took pc next hform =>
    isSwitch_lane hform took pc next⟩
  · refine ⟨refresh_wf hwf hsub, fun t ht => refresh_covers hwf hsub ht, refresh_full hwf hsub, refresh_room hwf hsub, refresh_due hwf hsub,
      fun c hcur hex => endTurn_stays hcur hex, fun c hcur hall => ⟨fun hsw => ?_, fun pc hsw hlead hex => ?_⟩, fun n hn => refresh_chosen hwf hsub hn,
      refresh_rotates hwf hsub⟩
    · rw [endTurn_over hcur hall hsw]
      rfl
    · have hready : (PcClass.at_ c pc).hasAny rdy = true := by
        obtain ⟨t, ht, rfl, hlaunch, hbank⟩ := hex
        exact List.any_eq_true.2 ⟨t, ht, by simp [PcClass.has, PcClass.at_, hlaunch, hbank]⟩
      obtain ⟨hch, hc⟩ := (current_iff hwf).1 hcur
      rw [endTurn_moves hcur hall hsw hlead hready]
      exact (current_iff (moveTo_wf hwf hcur)).2 ⟨hch, moveTo_current hc⟩
  · refine ⟨note_wf hwf hcur hhas, note_due hwf hcur hhas, note_current hwf hcur hhas, ?_, ?_⟩
    · rw [note_eq hcur hhas]
    · rw [note_eq hcur hhas]
      exact List.mem_cons_self
  · intro i hi
    simp only [List.mem_cons, List.not_mem_nil, or_false] at hi
    rcases hi with rfl | rfl | rfl | rfl | rfl | rfl <;> rfl
  · intro i hi
    simp only [List.mem_cons, List.not_mem_nil, or_false] at hi
    rcases hi with rfl | rfl | rfl | rfl | rfl | rfl | rfl <;> simp [isSwitch]

end Sys2Proof.Proofs

/-!
The THREAD instructions (R36, R99, R157 to R162, R345): NOP, YIELD, SPAWN, AWAIT and EXIT.
-/
namespace Sys2Proof.Proofs
open Sys2Proof.Machine

theorem exec_nop (o : ScalarOps) (s : State) : exec (.nop o) s = execNop o s := rfl
theorem exec_yield (o : ScalarOps) (s : State) : exec (.yield o) s = execYield o s := rfl
theorem exec_spawn (o : ScalarOps) (s : State) : exec (.spawn o) s = execSpawn o s := rfl
theorem exec_await (o : ScalarOps) (s : State) : exec (.await o) s = execAwait o s := rfl
theorem exec_exit (o : ScalarOps) (s : State) : exec (.exit o) s = execExit o s := rfl

/-! ### SPAWN and AWAIT (R99, R159, R161) -/

section
variable {o : ScalarOps} {s : State} {t : Thread}

/-- What SPAWN and AWAIT leave outstanding: a producer with no bytes to access. -/
def plainPend (s : State) (kind : PendKind) (cell n : Nat) : Pend := s.newPend kind cell n 1 ⟨[], .uncached, []⟩

theorem spawn_issues {s1 : State} (h : Entered (.spawn o) s t) (hfree : t.fullAt o.d.toNat 1) (hord : orderAll (s.setTh t) = .ok s1) :
    CompletesAs (.spawn o) s (s1.issuePend (plainPend s1 (.spawn (aligned4 (t.code o.a)) (t.scalarB o.b)) o.d.toNat 1)) :=
  completesAs_of_run (exec_spawn o s) h (by simp only [State.setTh_th, t.needFree_ok _ _ hfree, ok_bind, hord]; rfl)

theorem awaitsNothing_iff {tid : BitVec 32} : awaitsNothing s tid = true ↔ s.th.trial.isSome = true ∨ tid = s.th.tid ∨ s.nextTid ≤ tid.toNat := by
  simp [awaitsNothing, or_assoc]

theorem await_empty (h : Entered (.await o) s t) (hempty : ¬ t.fullAt o.d.toNat 2) : ∃ c, o.d.toNat ≤ c ∧ c < o.d.toNat + 2 ∧
    (t.cell c).full = false ∧ (∀ j, o.d.toNat ≤ j → j < c → (t.cell j).full = true) ∧
    StopsWith (.await o) s t (if o.ep = true then .trap 0x90 3 (BitVec.ofNat 64 c) 0 0 else .wait .emptyCell) := by
  have hnot : ¬ t.sourcesFull [(3, o.d.toNat, 2)] := fun hf => hempty (hf _ List.mem_cons_self)
  obtain ⟨c, field, ⟨hc, ⟨x, hx, hfield, hlo, hhi⟩, hlowest⟩, hneed⟩ := needAll_empty hnot o.ep
  obtain rfl := List.mem_singleton.1 hx
  subst hfield
  refine ⟨c, hlo, hhi, hc, fun j hj hjc => hlowest _ List.mem_cons_self j hj (by omega) hjc, ?_⟩
  exact stopsWith_of_run (exec_await o s) h (by simp only [State.setTh_th, Thread.need, hneed, error_bind]; rfl)

theorem await_body (hfull : t.fullAt o.d.toNat 2) : (do
    (s.setTh t).th.need o.ep 3 o.d.toNat 2
    let tid := ((s.setTh t).th.code o.a).extractLsb' 0 32
    if awaitsNothing (s.setTh t) tid then .ok ((s.setTh t).setTh ((s.setTh t).th.writePlains o.d.toNat [0xFFFFFFFF#32, 0xFFFFFFFF#32]))
    else .ok ((s.setTh t).issuePend (plainPend (s.setTh t) (.await tid false) o.d.toNat 2)) : Except Stop State) =
    if awaitsNothing (s.setTh t) ((t.code o.a).extractLsb' 0 32) then .ok (s.setTh (t.writePlains o.d.toNat [0xFFFFFFFF#32, 0xFFFFFFFF#32]))
    else .ok ((s.setTh t).issuePend (plainPend (s.setTh t) (.await ((t.code o.a).extractLsb' 0 32) false) o.d.toNat 2)) := by
  simp only [State.setTh_th, need_full o.ep 3 hfull, ok_bind]
  rfl

theorem await_now (h : Entered (.await o) s t) (hfull : t.fullAt o.d.toNat 2)
    (hnow : awaitsNothing (s.setTh t) ((t.code o.a).extractLsb' 0 32) = true) :
    Completes (.await o) s (t.writePlains o.d.toNat [0xFFFFFFFF, 0xFFFFFFFF]) :=
  completesAs_of_run (s' := s.setTh (t.writePlains o.d.toNat [0xFFFFFFFF, 0xFFFFFFFF])) (exec_await o s) h ((await_body hfull).trans (if_pos hnow))

theorem await_issues (h : Entered (.await o) s t) (hfull : t.fullAt o.d.toNat 2)
    (hnow : awaitsNothing (s.setTh t) ((t.code o.a).extractLsb' 0 32) = false) :
    CompletesAs (.await o) s ((s.setTh t).issuePend (plainPend (s.setTh t) (.await ((t.code o.a).extractLsb' 0 32) false) o.d.toNat 2)) :=
  completesAs_of_run (exec_await o s) h ((await_body hfull).trans (if_neg (by rw [hnow]; exact Bool.false_ne_true)))

end

/-! ### EXIT (R162) -/

/-- A state has the executing thread in its place with its crew, and the launches that it had. -/
structure SameMember (s u : State) : Prop where
  key : u.th.key = s.th.key
  live : u.th.live = s.th.live
  crew : u.th.crew = s.th.crew
  launches : u.hw.launches = s.hw.launches

theorem SameMember.refl (s : State) : SameMember s s := ⟨rfl, rfl, rfl, rfl⟩

theorem SameMember.trans {s u v : State} (h : SameMember s u) (g : SameMember u v) : SameMember s v :=
  ⟨g.key.trans h.key, g.live.trans h.live, g.crew.trans h.crew, g.launches.trans h.launches⟩

theorem SameMember.foldl {α : Type} {f : State → α → State} (hf : ∀ s x, SameMember s (f s x)) (xs : List α) (s : State) :
    SameMember s (xs.foldl f s) := by
  induction xs generalizing s with
  | nil => exact .refl s
  | cons x xs ih => exact (hf s x).trans (ih _)

/-- A change of the threads that leaves the crew of each. -/
theorem SameMember.mapThreads {f : Thread → Thread} (hplace : KeepsPlace f) (hcrew : ∀ t, (f t).crew = t.crew) {s u : State} (h : SameMember s u) :
    SameMember s (u.mapThreads f) := by
  refine h.trans ?_
  unfold State.mapThreads
  cases hlive : u.th.live with
  | true => exact ⟨(hplace u.th).1, (hplace u.th).2, hcrew u.th, rfl⟩
  | false => exact ⟨rfl, rfl, rfl, rfl⟩

theorem SameMember.complete (s : State) (part core : Nat) (r : Rendezvous) : SameMember s (completeRendezvous s part core r) := by
  have hkeeps := keepsMember_rendezvous part core r
  rw [completeRendezvous_eq]
  refine SameMember.mapThreads hkeeps.place (fun t => (hkeeps t).2.2.1) ?_
  exact ⟨rfl, rfl, rfl, rfl⟩

theorem SameMember.settleRendezvous (s : State) (part core handle : Nat) : SameMember s (settleRendezvous s part core handle) := by
  rw [settleRendezvous_eq]
  exact .foldl (fun s r => .complete s part core r) _ s

theorem phaseThread_crew (part core handle : Nat) (ph : Phase) (ranks : List Nat) (t : Thread) :
    (phaseThread part core handle ph ranks t).crew = t.crew := by
  have hrank : (if ph.compact then { t with rank := denseRank ranks t.rank } else t).crew = t.crew := by split <;> rfl
  unfold phaseThread
  dsimp only
  split
  · split
    · exact hrank
    · split
      · split <;> exact hrank
      · exact hrank
  · rfl

theorem SameMember.settlePhase (s : State) (part core handle : Nat) : SameMember s (settlePhase s part core handle) := by
  unfold Machine.settlePhase
  split
  · exact .refl s
  · split
    · exact .refl s
    · split
      · rw [completePhase_eq]
        refine SameMember.mapThreads (keepsPlace_phase _ _ _ _ _) (phaseThread_crew _ _ _ _ _) ?_
        exact ⟨rfl, rfl, rfl, rfl⟩
      · exact .refl s

theorem SameMember.dissolveCrew (s : State) (part core handle : Nat) : SameMember s (dissolveCrew s part core handle) := by
  unfold Machine.dissolveCrew
  split
  · exact .refl s
  · dsimp only
    split
    · exact ⟨rfl, rfl, rfl, rfl⟩
    · exact .refl s

theorem SameMember.settleCrew (s : State) (part core handle : Nat) : SameMember s (settleCrew s part core handle) := by
  unfold Machine.settleCrew
  split
  · exact .refl s
  · exact (((SameMember.settleRendezvous s part core handle).trans (.settlePhase ..)).trans (.settlePhase ..)).trans (.dissolveCrew ..)

section
variable {s : State}

/-- A thread that has left its crew is in none; its place and the launches are as they were. -/
theorem leaveCrew_left (hlive : s.th.live = true) : (leaveCrew s s.th.key).th.key = s.th.key ∧ (leaveCrew s s.th.key).th.live = true ∧
    (leaveCrew s s.th.key).th.crew = 0 ∧ (leaveCrew s s.th.key).hw.launches = s.hw.launches := by
  have hfind : s.thread? s.th.key = some s.th := if_pos (by simp [hlive])
  by_cases hcrew : s.th.crew = 0
  · rw [leaveCrew_alone hfind hcrew]
    exact ⟨rfl, hlive, hcrew, rfl⟩
  · rw [leaveCrew_member hfind hcrew]
    obtain ⟨hkey, hlive', hcrew', hlaunches⟩ := SameMember.settleCrew (withoutMember s s.th.key s.th) s.th.key.part s.th.key.core s.th.crew
    have hout : (withoutMember s s.th.key s.th).th = { s.th with crew := 0, rank := 0, arrived := false, exempt := false } ∧
        (withoutMember s s.th.key s.th).hw.launches = s.hw.launches := by
      unfold withoutMember State.setThread
      rw [if_pos (by simp [State.mapHw, hlive])]
      exact ⟨rfl, rfl⟩
    rw [hout.1] at hkey hlive' hcrew'
    exact ⟨hkey, hlive'.trans hlive, hcrew', hlaunches.trans hout.2⟩

theorem dropThread_th (hlive : s.th.live = true) : (s.dropThread s.th.key).th = { s.th with live := false } := by
  unfold State.dropThread
  rw [if_pos (by simp [hlive])]
  rfl

theorem dropThread_hw (hlive : s.th.live = true) : (s.dropThread s.th.key).hw = s.hw := by
  unfold State.dropThread
  rw [if_pos (by simp [hlive])]
  rfl

theorem settleExited_same (part core launch : Nat) (tid : BitVec 32) : (settleExited s part core launch tid).th = s.th ∧
    (settleExited s part core launch tid).hw.launches = s.hw.launches := by
  unfold settleExited
  split
  · exact ⟨rfl, rfl⟩
  · refine ⟨rfl, ?_⟩
    unfold State.mapHw
    dsimp only
    split
    · rfl
    · rfl

theorem settleRegions_same (part core launch : Nat) : (settleRegions s part core launch).th = s.th ∧
    (settleRegions s part core launch).hw.launches = s.hw.launches := by
  unfold settleRegions
  split
  · exact ⟨rfl, rfl⟩
  · exact ⟨rfl, rfl⟩

end

theorem launch?_of_launches {h h' : Hw} (he : h'.launches = h.launches) (part id : Nat) : h'.launch? part id = h.launch? part id := by
  unfold Hw.launch?
  rw [he]

/-- That a launch ran on a core leaves the exit values that it keeps. -/
theorem noteRan_exits {h : Hw} {part core id : Nat} {l : Launch} (hl : h.launch? part id = some l) :
    ∃ l', (noteRan h part core id).launch? part id = some l' ∧ l'.exits = l.exits := by
  unfold noteRan
  rw [hl]
  cases physOf h core with
  | none => exact ⟨l, hl, rfl⟩
  | some c =>
    obtain ⟨hpart, hid⟩ := launch?_some hl
    have hl' : ({ h with nextId := h.nextId + 1 } : Hw).launch? part id = some l := hl
    exact ⟨_, launch?_setLaunch_same hl' hpart hid, rfl⟩

/-- The hardware once a thread has exited: its exit value is kept, its accesses but its spawns are over, what it still owns is noted. -/
def exitedHw (t : Thread) (v : DWord) (h : Hw) : Hw :=
  let h := match h.launch? t.key.part t.launch with
    | some l => h.setLaunch { l with exits := (t.tid.toNat, v) :: l.exits }
    | none => h
  let h := { h with pends := h.pends.filter fun p => !(p.key == t.key) || (match p.kind with
    | .spawn _ _ => true
    | _ => false) }
  let c := h.ctx t.key.part t.key.core
  noteRan (h.setCtx { c with exited := ⟨t.launch, t.tid, t.tickets⟩ :: c.exited }) t.key.part t.key.core t.launch

theorem exitThread_eq (s : State) (v : DWord) : exitThread s v = settleRegions
    (settleExited (((leaveCrew s s.th.key).mapHw (exitedHw s.th v)).dropThread s.th.key) s.th.key.part s.th.key.core s.th.launch s.th.tid)
    s.th.key.part s.th.key.core s.th.launch := rfl

theorem exitedHw_exits {t : Thread} {v : DWord} {h : Hw} {l : Launch} (hl : h.launch? t.key.part t.launch = some l) :
    ∃ l', (exitedHw t v h).launch? t.key.part t.launch = some l' ∧ l'.exits = (t.tid.toNat, v) :: l.exits := by
  obtain ⟨hpart, hid⟩ := launch?_some hl
  unfold exitedHw
  rw [hl]
  refine noteRan_exits (l := { l with exits := (t.tid.toNat, v) :: l.exits }) ?_
  exact launch?_setLaunch_same hl hpart hid

section
variable {s : State} (v : DWord) (hlive : s.th.live = true)
include hlive

theorem exitThread_th : (exitThread s v).th.live = false ∧ (exitThread s v).th.crew = 0 := by
  obtain ⟨hkey, hlive', hcrew, -⟩ := leaveCrew_left hlive
  have hdrop : (((leaveCrew s s.th.key).mapHw (exitedHw s.th v)).dropThread s.th.key).th = { (leaveCrew s s.th.key).th with live := false } := by
    have := dropThread_th (s := (leaveCrew s s.th.key).mapHw (exitedHw s.th v)) hlive'
    rw [show ((leaveCrew s s.th.key).mapHw (exitedHw s.th v)).th.key = s.th.key from hkey] at this
    exact this
  rw [exitThread_eq, (settleRegions_same ..).1, (settleExited_same ..).1, hdrop]
  exact ⟨rfl, hcrew⟩

theorem exitThread_exits {l : Launch} (hl : s.hw.launch? s.th.key.part s.th.launch = some l) :
    ∃ l', (exitThread s v).hw.launch? s.th.key.part s.th.launch = some l' ∧ l'.exits = (s.th.tid.toNat, v) :: l.exits := by
  obtain ⟨hkey, hlive', -, hlaunches⟩ := leaveCrew_left hlive
  have hdrop : (((leaveCrew s s.th.key).mapHw (exitedHw s.th v)).dropThread s.th.key).hw = exitedHw s.th v (leaveCrew s s.th.key).hw := by
    have := dropThread_hw (s := (leaveCrew s s.th.key).mapHw (exitedHw s.th v)) hlive'
    rw [show ((leaveCrew s s.th.key).mapHw (exitedHw s.th v)).th.key = s.th.key from hkey] at this
    exact this
  have hsame : (exitThread s v).hw.launches = (exitedHw s.th v (leaveCrew s s.th.key).hw).launches := by
    rw [exitThread_eq, (settleRegions_same ..).2, (settleExited_same ..).2, hdrop]
  rw [launch?_of_launches hsame]
  exact exitedHw_exits ((launch?_of_launches hlaunches _ _).trans hl)

end

section
variable {o : ScalarOps} {s : State} {t : Thread}

theorem exit_exits {s1 : State} (h : Entered (.exit o) s t) (htrial : t.trial = none) (hord : orderAll (s.setTh t) = .ok s1) :
    exec (.exit o) s = .next (exitThread s1 (t.code o.a)) := by
  rw [exec_exit, execExit]
  refine runHeld_ok h ?_
  dsimp only
  rw [State.setTh_th, htrial]
  dsimp only
  rw [hord]
  rfl

theorem exit_folds {r : TrialRun} (h : Entered (.exit o) s t) (htrial : t.trial = some r) : exec (.exit o) s = .next (s.setTh { t with
    wait := .none, charged := false, latch := none, dmrMiss := false, trial := some { r with folding := true } }) := by
  rw [exec_exit, execExit]
  refine runHeld_ok h ?_
  dsimp only
  rw [State.setTh_th, htrial]
  rfl

end

/-- Settles O39: the rules of the pickers, and what NOP, YIELD, SPAWN, AWAIT and EXIT do. -/
theorem threadInstructionResults : Obligations.ThreadInstructionResults := by
  refine ⟨pickerRules, fun o s t => ?_⟩
  intro s0 d tid
  refine ⟨fun h => ?_, fun h => ?_, fun s1 h hfree hord => ?_, fun h hempty => ?_, fun h hfull => ⟨fun hnow => ?_, fun hnow => ?_⟩,
    fun s1 h hlive htrial hord => ?_, fun r h htrial => exit_folds h htrial⟩
  · exact completesAs_of_run (s' := s.setTh t) (exec_nop o s) h rfl
  · exact completesAs_of_run (s' := s.setTh t) (exec_yield o s) h rfl
  · have hth : s1.th = t := orderAll_th hord
    refine ⟨_, _, spawn_issues h hfree hord, ?_, rfl, ?_, ?_, ?_, rfl, rfl, rfl⟩
    · exact congrArg (fun t => Thread.markEmpty t d 1) hth
    · exact congrArg Thread.key hth
    · exact congrArg Thread.tid hth
    · exact congrArg Thread.launch hth
  · obtain ⟨c, hlo, hhi, hc, hlowest, hstop⟩ := await_empty h hempty
    refine ⟨fun hep => ?_, fun hep => ⟨c, hlo, hhi, hc, hlowest, ?_⟩⟩
    · rwa [hep] at hstop
    · rwa [if_pos hep] at hstop
  · exact await_now h hfull (awaitsNothing_iff.2 hnow)
  · exact ⟨_, _, await_issues h hfull (Bool.eq_false_iff.2 fun hn => hnow (awaitsNothing_iff.1 hn)), rfl, rfl, rfl, rfl, rfl, rfl, rfl⟩
  · have hth : s1.th = t := orderAll_th hord
    subst hth
    obtain ⟨hdead, hcrew⟩ := exitThread_th (s1.th.code o.a) hlive
    exact ⟨_, exit_exits h htrial hord, hdead, hcrew, fun l hl => exitThread_exits _ hlive hl⟩

end Sys2Proof.Proofs

/-!
Launch queues, records, dispatch decisions and patches (R263, R308, R310 to R313, R316, R373, R393 to R397).
-/
namespace Sys2Proof.Proofs
open Sys2Proof.Machine

/-! ### Partitions and their queues -/

/-- A partition is where its number says. -/
def HasPart (h : Hw) (i : Nat) : Prop := ∃ p ∈ h.parts, p.idx = i

theorem hasPart_of_mem {h : Hw} {i : Nat} (hmem : h.part i ∈ h.parts) (hidx : (h.part i).idx = i) : HasPart h i := ⟨_, hmem, hidx⟩

theorem part_setPart_same {h : Hw} {i : Nat} {p : Part} (hhas : HasPart h i) (hidx : p.idx = i) : (h.setPart p).part i = p := by
  obtain ⟨q, hq, hqi⟩ := hhas
  have hsome : (h.parts.find? fun q => q.idx == i).isSome := List.find?_isSome.2 ⟨q, hq, beq_iff_eq.2 hqi⟩
  obtain ⟨r, hr⟩ := Option.isSome_iff_exists.1 hsome
  have hsame : ((fun q : Part => q.idx == i) ∘ fun q => if q.idx == p.idx then p else q) = fun q => q.idx == i := by
    funext x
    by_cases hx : x.idx = i
    · simp [hx, hidx]
    · simp [hx, hidx]
  unfold Hw.part
  rw [Hw.setPart_parts, List.find?_map, hsame, hr, Option.map_some]
  have hri : r.idx = i := by simpa using List.find?_some hr
  exact (congrArg (fun x => (some x).getD (Part.fresh i [] 0 false)) (if_pos (beq_iff_eq.2 (hri.trans hidx.symm))) :)

theorem hasPart_setPart {h : Hw} {i : Nat} {p : Part} (hhas : HasPart h i) (hidx : p.idx = i) : HasPart (h.setPart p) i := by
  obtain ⟨q, hq, hqi⟩ := hhas
  exact ⟨p, List.mem_map.2 ⟨q, hq, if_pos (by simp [hqi, hidx])⟩, hidx⟩

section
variable (p : Part) {q q' : Nat} (x : Queue)

theorem queue_setQueue_same (hq : q < 16) : (p.setQueue q x).queue q = x := by
  simp [Part.setQueue, Part.queue, Array.getD_eq_getD_getElem?, hq]

theorem queue_setQueue_ne (hne : q' ≠ q) : (p.setQueue q x).queue q' = p.queue q' := by
  simp [Part.setQueue, Part.queue, Array.getD_eq_getD_getElem?, Array.getElem?_setIfInBounds_ne, hne.symm]

end

/-! ### When a head is ready (R308, R310, R396, R397) -/

theorem mem_liveVersions {h : Hw} {part w v : Nat} : v ∈ liveVersions h part w ↔ v = w ∨ ∃ l ∈ h.launches, l.part = part ∧ l.ver = v := by
  unfold liveVersions
  rw [mem_nub, List.mem_cons, List.mem_map]
  simp only [List.mem_filter, beq_iff_eq, and_assoc]

theorem nodup_liveVersions (h : Hw) (part w : Nat) : (liveVersions h part w).Nodup := nub_nodup _

/-- A patch that is to take effect. -/
def Applies (s : State) (part : Nat) (r : List Byte) : Prop :=
  recKind r = 1 ∧ waitFaults s part r = false ∧ recOk part r = true ∧ patchOk s part r = true

theorem applies_iff {s : State} {part : Nat} {r : List Byte} : applies s part r = true ↔ Applies s part r := by
  simp [applies, Applies, and_assoc]

theorem headDue_iff {s : State} {part q : Nat} {r : List Byte} : headDue s part q r = true ↔
    recWaddr r = 0 ∨ ((s.hw.part part).queue q).ready = true ∨ waitFaults s part r = true := by
  simp [headDue, or_assoc]

theorem heldBy_iff {x : Queue} {h : Hw} {part : Nat} : x.heldBy h part = true ↔ ∃ v, x.hold = some v ∧ v ∈ liveVersions h part (h.part part).ver := by
  unfold Queue.heldBy
  cases x.hold with
  | none => simp
  | some v => simp

theorem tooManyVersions_iff {h : Hw} {part : Nat} : tooManyVersions h part = true ↔ 16 < (liveVersions h part ((h.part part).ver + 1)).length :=
  decide_eq_true_iff

theorem not_heldBy {x : Queue} {h : Hw} {part : Nat} : (∀ v, x.hold = some v → v ∉ liveVersions h part (h.part part).ver) ↔ x.heldBy h part = false := by
  rw [← Bool.not_eq_true, heldBy_iff]
  push Not
  rfl

section
variable {s : State} {part q : Nat}

theorem headReady_iff : headReady s part q = true ↔ ∃ r, (s.hw.part part).head q = some r ∧
    (recWaddr r = 0 ∨ ((s.hw.part part).queue q).ready = true ∨ waitFaults s part r = true) ∧
    (Applies s part r → (∀ v, ((s.hw.part part).queue q).hold = some v → v ∉ liveVersions s.hw part (s.hw.part part).ver) ∧
      (liveVersions s.hw part ((s.hw.part part).ver + 1)).length ≤ 16) := by
  have hroom : tooManyVersions s.hw part = false ↔ (liveVersions s.hw part ((s.hw.part part).ver + 1)).length ≤ 16 := by
    rw [← Bool.not_eq_true, tooManyVersions_iff, Nat.not_lt]
  unfold headReady
  cases hhead : (s.hw.part part).head q with
  | none => simp
  | some r =>
    simp only [Option.some.injEq, exists_eq_left']
    rw [Bool.and_eq_true, headDue_iff, Bool.or_eq_true, Bool.not_eq_true', Bool.not_eq_true', Bool.or_eq_false_iff, hroom, not_heldBy,
      ← Bool.not_eq_true, applies_iff, imp_iff_not_or]

theorem holdPatch_held (h : ∃ v, ((s.hw.part part).queue q).hold = some v ∧ v ∈ liveVersions s.hw part (s.hw.part part).ver) : holdPatch s part q = s := by
  unfold holdPatch
  dsimp only
  cases (s.hw.part part).head q with
  | none => rfl
  | some r =>
    dsimp only
    rw [heldBy_iff.2 h]
    exact if_neg (by simp)

theorem holdPatch_holds {r : List Byte} (hhead : (s.hw.part part).head q = some r)
    (hdue : recWaddr r = 0 ∨ ((s.hw.part part).queue q).ready = true ∨ waitFaults s part r = true) (happ : Applies s part r)
    (hmany : 16 < (liveVersions s.hw part ((s.hw.part part).ver + 1)).length)
    (hfree : ∀ v, ((s.hw.part part).queue q).hold = some v → v ∉ liveVersions s.hw part (s.hw.part part).ver) :
    holdPatch s part q = s.mapHw fun h => h.setPart ((s.hw.part part).setQueue q
      { (s.hw.part part).queue q with hold := minBy id (liveVersions s.hw part (s.hw.part part).ver) }) := by
  unfold holdPatch
  dsimp only
  rw [hhead]
  refine if_pos ?_
  rw [not_heldBy.1 hfree, headDue_iff.2 hdue, applies_iff.2 happ, tooManyVersions_iff.2 hmany, happ.1]
  rfl

theorem headRules : HeadRules := by
  intro s part q p live applies due
  refine ⟨headReady_iff, fun v w => mem_liveVersions, fun w => nodup_liveVersions .., holdPatch_held, fun r hmem hidx hq hhead hdue happ hmany hfree => ?_⟩
  have hcur : p.ver ∈ live p.ver := mem_liveVersions.2 (.inl rfl)
  cases hmin : minBy id (live p.ver) with
  | none =>
    rw [minBy_eq_none.1 hmin] at hcur
    cases hcur
  | some v =>
    obtain ⟨hv, hle⟩ := minBy_eq_some hmin
    refine ⟨v, ?_, hv, hle⟩
    rw [holdPatch_holds hhead hdue happ hmany hfree]
    have hpart := part_setPart_same (p := p.setQueue q { p.queue q with hold := minBy id (live p.ver) }) (hasPart_of_mem hmem hidx) hidx
    refine (congrArg (fun p : Part => (p.queue q).hold) hpart).trans ?_
    dsimp only
    rw [queue_setQueue_same p _ hq]
    exact hmin

/-! ### What decides a dispatch (R310 to R313, R316, R373, R394) -/

/-- The place of a queue in the order in which heads are taken: by priority, then cyclically. -/
def queueRank (p : Part) (q : Nat) : Nat := (3 - recPrio ((p.head q).getD []) % 4) * 16 + (q + 16 - p.rr % 16) % 16

theorem chooseQueue_eq : chooseQueue s part = minBy (queueRank (s.hw.part part)) ((List.range 16).filter fun q => headReady s part q) := rfl

theorem chooseQueue_some (h : chooseQueue s part = some q) : q < 16 ∧ headReady s part q = true ∧ ∀ q', q' < 16 → headReady s part q' = true →
    queueRank (s.hw.part part) q ≤ queueRank (s.hw.part part) q' := by
  rw [chooseQueue_eq] at h
  obtain ⟨hmem, hmin⟩ := minBy_eq_some h
  obtain ⟨hq, hready⟩ := List.mem_filter.1 hmem
  exact ⟨List.mem_range.1 hq, hready, fun q' hq' hready' => hmin q' (List.mem_filter.2 ⟨List.mem_range.2 hq', hready'⟩)⟩

theorem chooseQueue_isSome (hq : q < 16) (hready : headReady s part q = true) : (chooseQueue s part).isSome = true := by
  rw [chooseQueue_eq]
  cases h : minBy (queueRank (s.hw.part part)) ((List.range 16).filter fun q => headReady s part q) with
  | some _ => rfl
  | none =>
    have := List.mem_filter.2 ⟨List.mem_range.2 hq, hready⟩
    rw [minBy_eq_none.1 h] at this
    cases this

end

/-- The launch ids in the order in which they are tried. -/
def launchIdAt (start j : Nat) : Nat := (start - 1 + j) % (2 ^ 31 - 1) + 1

theorem launchIdAt_injOn (start : Nat) {i j : Nat} (hi : i < 2 ^ 31 - 1) (hj : j < 2 ^ 31 - 1) (h : launchIdAt start i = launchIdAt start j) : i = j := by
  unfold launchIdAt at h
  have hmod : (start - 1 + i) % (2 ^ 31 - 1) = (start - 1 + j) % (2 ^ 31 - 1) := by omega
  have := Nat.ModEq.add_left_cancel' (start - 1) (show start - 1 + i ≡ start - 1 + j [MOD 2 ^ 31 - 1] from hmod)
  exact Nat.ModEq.eq_of_lt_of_lt this hi hj

/-- One of the first ids tried is no launch's. -/
theorem exists_free_launchId (h : Hw) (part start : Nat) (hlen : h.launches.length + 1 < 2 ^ 31) :
    ∃ j, j < h.launches.length + 1 ∧ h.launch? part (launchIdAt start j) = none := by
  by_contra hno
  push Not at hno
  have hsub : (List.range (h.launches.length + 1)).map (launchIdAt start) ⊆ h.launches.map fun l => l.id := by
    intro i hi
    obtain ⟨j, hj, rfl⟩ := List.mem_map.1 hi
    obtain ⟨l, hl⟩ := Option.ne_none_iff_exists'.1 (hno j (List.mem_range.1 hj))
    exact List.mem_map.2 ⟨l, List.mem_of_find?_eq_some hl, (launch?_some hl).2⟩
  have hnodup : ((List.range (h.launches.length + 1)).map (launchIdAt start)).Nodup :=
    List.nodup_range.map_on fun i hi j hj he => launchIdAt_injOn start (by have := List.mem_range.1 hi; omega) (by have := List.mem_range.1 hj; omega) he
  have := (hnodup.subperm hsub).length_le
  simp at this

/-- The first of some numbers up that a test holds of. -/
theorem find?_map_range {α : Type} {f : Nat → α} {t : α → Bool} {n : Nat} (h : ∃ j, j < n ∧ t (f j) = true) : ∃ i, i < n ∧
    ((List.range n).map f).find? t = some (f i) ∧ t (f i) = true ∧ ∀ j, j < i → t (f j) = false := by
  obtain ⟨i, ⟨hi, hti⟩, hmin⟩ : ∃ i, (i < n ∧ t (f i) = true) ∧ ∀ j, j < i → ¬ (j < n ∧ t (f j) = true) :=
    ⟨Nat.find h, Nat.find_spec h, fun j hj => Nat.find_min h hj⟩
  have hbefore : ∀ j, j < i → t (f j) = false := fun j hj => by
    have := hmin j hj
    rw [not_and, Bool.not_eq_true] at this
    exact this (by omega)
  refine ⟨i, hi, ?_, hti, hbefore⟩
  rw [List.find?_map]
  have hrange : (List.range n).find? (t ∘ f) = some i := by
    rw [List.find?_range_eq_some]
    exact ⟨hti, List.mem_range.2 hi, fun j hj => by simp [hbefore j hj]⟩
  rw [hrange]
  rfl

theorem freshLaunchId_first {h : Hw} {part : Nat} (hlen : h.launches.length + 1 < 2 ^ 31) : ∃ i,
    freshLaunchId h part = launchIdAt (h.part part).nextLaunch i ∧ h.launch? part (launchIdAt (h.part part).nextLaunch i) = none ∧
    ∀ j, j < i → (h.launch? part (launchIdAt (h.part part).nextLaunch j)).isSome = true := by
  obtain ⟨j, hj, hnone⟩ := exists_free_launchId h part (h.part part).nextLaunch hlen
  obtain ⟨i, -, hfind, hi, hbefore⟩ := find?_map_range (f := launchIdAt (h.part part).nextLaunch) (t := fun i => (h.launch? part i).isNone)
    ⟨j, hj, by rw [hnone]; rfl⟩
  refine ⟨i, ?_, Option.isNone_iff_eq_none.1 hi, fun j hj => ?_⟩
  · have hfresh : freshLaunchId h part = (((List.range (h.launches.length + 1)).map (launchIdAt (h.part part).nextLaunch)).find?
      fun i => (h.launch? part i).isNone).getD (h.part part).nextLaunch := rfl
    rw [hfresh, hfind]
    rfl
  · rw [← Option.not_isNone, hbefore j hj]
    rfl

theorem waitFaults_iff {s : State} {part : Nat} {r : List Byte} : waitFaults s part r = true ↔
    recWaddr r ≠ 0 ∧ ∃ f, checkGen s (systemWho part) .load (recWaddr r) 8 = .error (.fault f) := by
  unfold waitFaults
  rw [Bool.and_eq_true, bne_iff_ne]
  refine and_congr Iff.rfl ?_
  split
  · next f hf => exact iff_of_true rfl ⟨f, hf⟩
  · next hno => exact iff_of_false Bool.false_ne_true fun ⟨f, hf⟩ => hno f hf

theorem systemRead_ok {s : State} {part n : Nat} {ea : DWord} {xs : Xlated} (h : checkGen s (systemWho part) .load ea n = .ok xs) :
    ∃ u, systemRead s part ea n = .ok ((xkeys xs).map fun k => sget s.hw.mem k, u) := by
  unfold systemRead
  rw [h]
  exact ⟨_, rfl⟩

theorem lacksResources_iff {h : Hw} {part : Nat} {l : Launch} : lacksResources h part l = true ↔
    (l.restartable = true ∧ bitsOf (h.part part).stgcfg.toNat 47 32 = 0) ∨ (l.dmr = true ∧ min 2048 (65536 / l.win) < l.crewSize) ∨
      ∀ c ∈ (h.part part).cores, regionsFit h part c l = false := by
  have hnone : (!((h.part part).cores.any fun c => regionsFit h part c l)) = true ↔ ∀ c ∈ (h.part part).cores, regionsFit h part c l = false := by
    rw [Bool.not_eq_true', List.any_eq_false]
    simp only [Bool.not_eq_true]
  unfold lacksResources
  dsimp only
  rw [Bool.or_eq_true, Bool.or_eq_true, Bool.and_eq_true, Bool.and_eq_true, decide_eq_true_iff, beq_iff_eq, hnone, or_assoc]

theorem dispatchRules : DispatchRules := by
  intro s part p
  refine ⟨fun q hq => ?_, fun ⟨q, hq, hready⟩ => chooseQueue_isSome hq hready, fun _ hlen => freshLaunchId_first hlen, fun r => waitFaults_iff,
    fun ea n xs => systemRead_ok, fun l => lacksResources_iff⟩
  obtain ⟨hlt, hready, hmin⟩ := chooseQueue_some hq
  refine ⟨hlt, hready, fun q' hq' hready' => ?_⟩
  have hle : queueRank p q ≤ queueRank p q' := hmin q' hq' hready'
  unfold queueRank at hle
  dsimp only
  have hp := Nat.mod_lt (recPrio ((p.head q).getD [])) (show 0 < 4 by decide)
  have hp' := Nat.mod_lt (recPrio ((p.head q').getD [])) (show 0 < 4 by decide)
  have hc := Nat.mod_lt (q + 16 - p.rr % 16) (show 0 < 16 by decide)
  have hc' := Nat.mod_lt (q' + 16 - p.rr % 16) (show 0 < 16 by decide)
  omega

/-! ### The limits of records and headers (R263, R393, R396) -/

theorem zeroFld_iff (bs : List Byte) (i n : Nat) : zeroFld bs i n = true ↔ leNat ((bs.drop i).take n) = 0 := beq_iff_eq

theorem recordLimits : RecordLimits := by
  refine ⟨fun part r => ?_, fun b ver => ?_⟩
  · simp only [recOk, Bool.and_eq_true, decide_eq_true_eq, beq_iff_eq, zeroFld_iff, and_assoc]
    exact Iff.rfl
  · simp only [headerOk, Bool.and_eq_true, Bool.or_eq_true, decide_eq_true_eq, beq_iff_eq, zeroFld_iff, and_assoc]
    exact Iff.rfl

end Sys2Proof.Proofs

/-!
Patches (R395 to R397): the checks of a patch record, and the version that it makes.
-/
namespace Sys2Proof.Proofs
open Sys2Proof.Machine

section
variable {s : State} {part : Nat} {r : List Byte}

/-- A frame that may replace a page: that of a resident normal page of device memory with X and without W. -/
def Replaces (s : State) (part a f : Nat) : Prop := ∃ e, walk s.hw (s.hw.part part).xlroot a = some e ∧
  f = 4096 * field e.pte.toNat 55 12 + (a - e.va) ∧ field e.pte.toNat 59 58 = 0 ∧ field e.pte.toNat 11 10 = 0 ∧ field e.pte.toNat 3 3 = 1 ∧
  field e.pte.toNat 2 2 = 0 ∧ (field e.pte.toNat 8 8 = 1 → field e.pte.toNat 7 7 = 1)

/-- A page entry that R396 admits as a replacement. -/
def MayReplace (pte : Nat) : Prop := field pte 59 58 = 0 ∧ field pte 11 10 = 0 ∧ field pte 3 3 = 1 ∧ field pte 2 2 = 0 ∧
  (field pte 8 8 = 1 → field pte 7 7 = 1)

theorem mayReplace_iff (pte : Nat) : (pteTgt pte == 0 && pteMt pte == 0 && pteX pte && !pteW pte && (!pteTier pte || pteRes pte)) = true ↔
    MayReplace pte := by
  have hw : (!pteW pte) = true ↔ field pte 2 2 = 0 := by
    have hbit : field pte 2 2 = 0 ∨ field pte 2 2 = 1 := bit_cases pte 2
    rw [Bool.not_eq_true', ← Bool.not_eq_true, pteW, bitsOf_beq_iff]
    omega
  have ht : (!pteTier pte || pteRes pte) = true ↔ (field pte 8 8 = 1 → field pte 7 7 = 1) := by
    rw [Bool.or_eq_true, Bool.not_eq_true', ← Bool.not_eq_true, pteTier, pteRes, bitsOf_beq_iff, bitsOf_beq_iff, imp_iff_not_or]
  rw [Bool.and_eq_true, Bool.and_eq_true, Bool.and_eq_true, Bool.and_eq_true, hw, ht, pteTgt, pteMt, pteX, bitsOf_beq_iff, bitsOf_beq_iff,
    bitsOf_beq_iff, and_assoc, and_assoc, and_assoc]
  rfl

theorem patchFrame_iff {src : DWord} {f : Nat} : patchFrame s part src = some f ↔ Replaces s part src.toNat f := by
  unfold patchFrame Replaces
  cases hwalk : walk s.hw (s.hw.part part).xlroot src.toNat with
  | none => exact iff_of_false (by simp) fun ⟨e, he, _⟩ => by cases he
  | some e =>
    dsimp only
    by_cases hmay : MayReplace e.pte.toNat
    · rw [if_pos ((mayReplace_iff _).2 hmay), pteFrame_eq, Option.some.injEq]
      exact ⟨fun h => ⟨e, rfl, h.symm, hmay⟩, fun ⟨e', he, hf, _⟩ => by cases he; exact hf.symm⟩
    · rw [if_neg (mt (mayReplace_iff _).1 hmay)]
      exact iff_of_false (by simp) fun ⟨e', he, _, hm⟩ => by cases he; exact hmay hm

theorem patchFrame_isSome {src : DWord} : (patchFrame s part src).isSome = true ↔ ∃ f, Replaces s part src.toNat f := by
  rw [Option.isSome_iff_exists]
  exact exists_congr fun f => patchFrame_iff

theorem patchTarget_iff {tgt : DWord} : patchTarget s part tgt = true ↔ ∃ e, walk s.hw (s.hw.part part).xlroot tgt.toNat = some e ∧
    field e.pte.toNat 3 3 = 1 := by
  unfold patchTarget
  cases walk s.hw (s.hw.part part).xlroot tgt.toNat with
  | none => exact iff_of_false Bool.false_ne_true fun ⟨e, he, _⟩ => by cases he
  | some e =>
    dsimp only
    rw [pteX, bitsOf_beq_iff]
    exact ⟨fun h => ⟨e, rfl, h⟩, fun ⟨e', he, h⟩ => by cases he; exact h⟩

/-- The address of the i-th page from an address on. -/
def pageAt (base i : Nat) : Nat := (base + 4096 * i) % 2 ^ 64

theorem toNat_pageAt (base i : Nat) : (BitVec.ofNat 64 base + BitVec.ofNat 64 (4096 * i)).toNat = pageAt base i := by
  rw [BitVec.toNat_add, BitVec.toNat_ofNat, BitVec.toNat_ofNat, ← Nat.add_mod]
  rfl

theorem patchPages_all : ((patchPages r).all fun x => patchTarget s part x.1 && (patchFrame s part x.2).isSome) = true ↔ ∀ i, i < fld r 8 4 →
    (∃ e, walk s.hw (s.hw.part part).xlroot (pageAt (fld r 0 8) i) = some e ∧ field e.pte.toNat 3 3 = 1) ∧
    ∃ f, Replaces s part (pageAt (fld r 16 8) i) f := by
  unfold patchPages recHdr
  rw [List.all_map, List.all_eq_true]
  refine forall_congr' fun i => ?_
  rw [List.mem_range]
  refine imp_congr Iff.rfl ?_
  rw [Function.comp, Bool.and_eq_true, patchTarget_iff, patchFrame_isSome, toNat_pageAt, toNat_pageAt]

theorem blocksMeet_iff (a b : Nat × Nat) : blocksMeet a b = true ↔ a.1 < b.1 + b.2 ∧ b.1 < a.1 + a.2 := by
  unfold blocksMeet
  rw [Bool.and_eq_true, decide_eq_true_iff, decide_eq_true_iff]

theorem patchOk_iff : patchOk s part r = true ↔ 1 ≤ fld r 8 4 ∧ fld r 8 4 ≤ 4096 ∧ fld r 0 8 % 4096 = 0 ∧ fld r 16 8 % 4096 = 0 ∧
    ¬ (fld r 0 8 < fld r 16 8 + 4096 * fld r 8 4 ∧ fld r 16 8 < fld r 0 8 + 4096 * fld r 8 4) ∧ (s.hw.part part).ver ≠ 2 ^ 32 - 1 ∧
    ∀ i, i < fld r 8 4 → (∃ e, walk s.hw (s.hw.part part).xlroot (pageAt (fld r 0 8) i) = some e ∧ field e.pte.toNat 3 3 = 1) ∧
      ∃ f, Replaces s part (pageAt (fld r 16 8) i) f := by
  unfold patchOk
  dsimp only
  simp only [Bool.and_eq_true, decide_eq_true_eq, beq_iff_eq, patchPages_all, bne_iff_ne, Bool.not_eq_true', ← Bool.not_eq_true, blocksMeet_iff,
    and_assoc]

/-! ### A patch takes effect -/

/-- The frames that the pages of a patch name when it takes effect. -/
def patchFrameAt (s : State) (part : Nat) (r : List Byte) (i : Nat) : Nat :=
  (patchFrame s part (BitVec.ofNat 64 (fld r 16 8) + BitVec.ofNat 64 (4096 * i))).getD 0

/-- A partition at its next version. -/
def patched (s : State) (part : Nat) (r : List Byte) : Part :=
  { s.hw.part part with
    ver := (s.hw.part part).ver + 1
    overlays := (s.hw.part part).overlays ++ (patchPages r).map fun x => ⟨(s.hw.part part).ver + 1, x.1.toNat, (patchFrame s part x.2).getD 0⟩ }

theorem applyPatch_eq (q : Nat) : applyPatch s part q r = s.mapHw fun h => popQueue (h.setPart (patched s part r)) part q := rfl

theorem patched_overlays : (patched s part r).overlays = (s.hw.part part).overlays ++ (List.range (fld r 8 4)).map fun i =>
    ⟨(s.hw.part part).ver + 1, pageAt (fld r 0 8) i, patchFrameAt s part r i⟩ := by
  unfold patched patchPages recHdr
  dsimp only
  rw [List.map_map]
  refine congrArg _ (List.map_congr_left fun i _ => ?_)
  rw [Function.comp, toNat_pageAt]
  rfl

/-- The partition once the head of a queue has been taken. -/
def popped (p : Part) (q : Nat) : Part := { (p.setQueue q ⟨(p.queue q).recs.drop 1, false, none⟩) with rr := (q + 1) % 16 }

theorem popQueue_part {h : Hw} {q : Nat} (hhas : HasPart h part) (hidx : (h.part part).idx = part) :
    (popQueue h part q).part part = popped (h.part part) q := part_setPart_same hhas hidx

theorem popped_queue_same (p : Part) {q : Nat} (hq : q < 16) : ((popped p q).queue q).recs = (p.queue q).recs.drop 1 :=
  (congrArg Queue.recs (queue_setQueue_same p ⟨(p.queue q).recs.drop 1, false, none⟩ hq) :)

theorem popped_queue_ne (p : Part) {q q' : Nat} (hne : q' ≠ q) : (popped p q).queue q' = p.queue q' :=
  (queue_setQueue_ne p ⟨(p.queue q).recs.drop 1, false, none⟩ hne :)

theorem applyPatch_part {q : Nat} (hmem : s.hw.part part ∈ s.hw.parts) (hidx : (s.hw.part part).idx = part) :
    (applyPatch s part q r).hw.part part = popped (patched s part r) q := by
  have hhas := hasPart_of_mem hmem hidx
  have hpart : (s.hw.setPart (patched s part r)).part part = patched s part r := part_setPart_same hhas hidx
  rw [applyPatch_eq]
  refine (popQueue_part (hasPart_setPart (p := patched s part r) hhas hidx) (by rw [hpart]; exact hidx)).trans ?_
  rw [hpart]

theorem patchRules : PatchRules := by
  intro s part q r p tgt src n page replaces
  refine ⟨patchOk_iff, fun hok hmem hidx hq => ?_⟩
  intro u p'
  have hp' : p' = popped (patched s part r) q := applyPatch_part hmem hidx
  obtain ⟨-, -, -, -, -, -, hpages⟩ := patchOk_iff.1 hok
  rw [hp']
  refine ⟨rfl, ⟨patchFrameAt s part r, fun i hi => ?_, patched_overlays⟩, popped_queue_same _ hq, fun q' hne => popped_queue_ne _ hne, rfl, rfl⟩
  obtain ⟨-, f, hf⟩ := hpages i hi
  have hsome : patchFrame s part (BitVec.ofNat 64 (fld r 16 8) + BitVec.ofNat 64 (4096 * i)) = some f :=
    patchFrame_iff.2 (by rw [toNat_pageAt]; exact hf)
  have hframe : patchFrameAt s part r i = f := by
    unfold patchFrameAt
    rw [hsome]
    rfl
  rw [hframe]
  exact hf

end

end Sys2Proof.Proofs

/-!
Sorting and least elements, and the placement of launches and auto-crews (R22, R268, R313, R315 to R317).
-/
namespace Sys2Proof.Proofs
open Sys2Proof.Machine

/-! ### Least elements and sorted lists -/

section
variable {α : Type} {f : α → Nat}

/-- Of the least elements of a list in order the first one is found. -/
theorem minBy_first {xs : List Nat} {f : Nat → Nat} {x : Nat} (hs : xs.Pairwise (· < ·)) (h : minBy f xs = some x) :
    ∀ y ∈ xs, f x < f y ∨ (f x = f y ∧ x ≤ y) := by
  induction xs generalizing x with
  | nil => cases h
  | cons a xs ih =>
    obtain ⟨ha, hs'⟩ := List.pairwise_cons.1 hs
    unfold minBy at h
    cases hm : minBy f xs with
    | none =>
      rw [hm] at h
      cases h
      rw [minBy_eq_none.1 hm]
      intro y hy
      rw [List.mem_singleton.1 hy]
      exact .inr ⟨rfl, Nat.le_refl _⟩
    | some z =>
      rw [hm] at h
      dsimp only at h
      obtain ⟨hz, hmin⟩ := minBy_eq_some hm
      intro y hy
      split at h
      · next hlt =>
        cases h
        rcases List.mem_cons.1 hy with rfl | hy
        · exact .inl hlt
        · exact ih hs' hm y hy
      · next hge =>
        cases h
        rcases List.mem_cons.1 hy with rfl | hy
        · exact .inr ⟨rfl, Nat.le_refl _⟩
        · have := hmin y hy
          have := ha y hy
          omega

theorem perm_insertBy (x : α) (xs : List α) : (insertBy f x xs).Perm (x :: xs) := by
  induction xs with
  | nil => exact .refl _
  | cons y xs ih =>
    unfold insertBy
    split
    · exact .refl _
    · exact (ih.cons y).trans (List.Perm.swap ..)

theorem perm_sortBy (xs : List α) : (sortBy f xs).Perm xs := by
  induction xs with
  | nil => exact .refl _
  | cons x xs ih => exact (perm_insertBy x _).trans (ih.cons x)

/-- One comes before another by a measure, or by an order where the measure is the same. -/
def ByThen (f : α → Nat) (r : α → α → Prop) (x y : α) : Prop := f x < f y ∨ (f x = f y ∧ r x y)

theorem pairwise_insertBy {r : α → α → Prop} {x : α} {xs : List α} (hs : xs.Pairwise (ByThen f r)) (hx : ∀ y ∈ xs, r x y) :
    (insertBy f x xs).Pairwise (ByThen f r) := by
  induction xs with
  | nil => exact List.pairwise_singleton ..
  | cons y xs ih =>
    obtain ⟨hy, hs'⟩ := List.pairwise_cons.1 hs
    unfold insertBy
    split
    · next hle =>
      refine List.pairwise_cons.2 ⟨fun z hz => ?_, hs⟩
      have hyz : f y ≤ f z := by
        rcases List.mem_cons.1 hz with rfl | hz
        · exact Nat.le_refl _
        · rcases hy z hz with h | h
          · exact Nat.le_of_lt h
          · exact Nat.le_of_eq h.1
      rcases Nat.lt_or_eq_of_le (Nat.le_trans hle hyz) with h | h
      · exact .inl h
      · exact .inr ⟨h, hx z hz⟩
    · next hgt =>
      refine List.pairwise_cons.2 ⟨fun z hz => ?_, ih hs' fun z hz => hx z (List.mem_cons_of_mem _ hz)⟩
      rcases mem_insertBy.1 hz with rfl | hz
      · exact .inl (Nat.lt_of_not_le hgt)
      · exact hy z hz

/-- Sorting by a measure keeps the order of elements of the same measure. -/
theorem pairwise_sortBy {r : α → α → Prop} {xs : List α} (hs : xs.Pairwise r) : (sortBy f xs).Pairwise (ByThen f r) := by
  induction xs with
  | nil => exact List.Pairwise.nil
  | cons x xs ih =>
    obtain ⟨hx, hs'⟩ := List.pairwise_cons.1 hs
    exact pairwise_insertBy (ih hs') fun y hy => hx y (mem_sortBy.1 hy)

end

/-- What the priority of a launch is worth in the start order, the greatest first. -/
def prioRank (h : Hw) (part launch : Nat) : Nat := ((h.launch? part launch).map fun l => 3 - l.prio).getD 3

/-- What the dispatch order of a launch is worth in the start order. -/
def orderRank (h : Hw) (part launch : Nat) : Nat := ((h.launch? part launch).map fun l => l.order).getD 0

section
variable {α : Type} {h : Hw} {part : Nat} {launch tid : α → Nat} {xs : List α}

/-- What has to start, in the start order of R315. -/
def inStartOrder (h : Hw) (part : Nat) (launch tid : α → Nat) (xs : List α) : List α :=
  sortBy (fun x => prioRank h part (launch x)) (sortBy (fun x => orderRank h part (launch x)) (sortBy tid xs))

theorem perm_inStartOrder : (inStartOrder h part launch tid xs).Perm xs := (perm_sortBy _).trans ((perm_sortBy _).trans (perm_sortBy _))

theorem pairwise_inStartOrder (hprio : ∀ l ∈ h.launches, l.prio ≤ 3) : (inStartOrder h part launch tid xs).Pairwise fun v w =>
    ∀ l m, h.launch? part (launch v) = some l → h.launch? part (launch w) = some m → StartsBefore l m (tid v) (tid w) := by
  have htid : xs.Pairwise fun _ _ => True := List.pairwise_of_forall fun _ _ => trivial
  refine (pairwise_sortBy (pairwise_sortBy (pairwise_sortBy htid))).imp fun hvw l m hl hm => ?_
  have hlp := hprio l (List.mem_of_find?_eq_some hl)
  have hmp := hprio m (List.mem_of_find?_eq_some hm)
  unfold ByThen prioRank orderRank at hvw
  dsimp only at hvw
  rw [hl, hm] at hvw
  simp only [Option.map_some, Option.getD_some, and_true] at hvw
  unfold StartsBefore
  omega

end

/-! ### Placement (R22, R313, R316, R317) -/

theorem pushStart_launches (h : Hw) (part core : Nat) (e : StartEntry) : (pushStart h part core e).launches = h.launches := rfl
theorem pushStart_parts (h : Hw) (part core : Nat) (e : StartEntry) : (pushStart h part core e).parts = h.parts := rfl

theorem foldl_same {α β γ : Type} {f : β → α → β} {g : β → γ} (hf : ∀ b a, g (f b a) = g b) (xs : List α) (b : β) : g (xs.foldl f b) = g b := by
  induction xs generalizing b with
  | nil => rfl
  | cons x xs ih => exact (ih _).trans (hf b x)

/-- A thread of a launch has its start entry. -/
def placeThread (part launch : Nat) (h : Hw) (t : Nat) : Hw :=
  match leastCore h part with
  | some c => pushStart h part c ⟨launch, t, .plain⟩
  | none => h

theorem placeThread_launches (part launch : Nat) (h : Hw) (t : Nat) : (placeThread part launch h t).launches = h.launches := by
  unfold placeThread
  split <;> rfl

theorem placeThread_parts (part launch : Nat) (h : Hw) (t : Nat) : (placeThread part launch h t).parts = h.parts := by
  unfold placeThread
  split <;> rfl

theorem placeLaunch_plain {h : Hw} {l : Launch} (hplain : l.crewSize = 0) :
    placeLaunch h l = (List.range l.count).foldl (placeThread l.part l.id) h := by
  unfold placeLaunch
  rw [if_pos (beq_iff_eq.2 hplain)]
  rfl

theorem placeLaunch_crews {h : Hw} {l : Launch} (hcrew : l.crewSize ≠ 0) :
    placeLaunch h l = (crewBlocks l.id l.crewSize l.count).foldl (fun h w => waitCrew h l.part w) h := by
  unfold placeLaunch
  rw [if_neg (mt beq_iff_eq.1 hcrew)]

theorem placeLaunch_launches (h : Hw) (l : Launch) : (placeLaunch h l).launches = h.launches := by
  by_cases hcrew : l.crewSize = 0
  · rw [placeLaunch_plain hcrew]
    exact foldl_same (g := Hw.launches) (placeThread_launches l.part l.id) _ h
  · rw [placeLaunch_crews hcrew]
    exact foldl_same (f := fun h w => waitCrew h l.part w) (g := Hw.launches) (fun _ _ => rfl) _ h

theorem pushStart_startq {h : Hw} {part core : Nat} (hhas : HasCtx h part core) (e : StartEntry) :
    ((pushStart h part core e).ctx part core).startq = (h.ctx part core).startq ++ [e] :=
  congrArg Ctx.startq (ctx_setCtx_same (c := { h.ctx part core with startq := (h.ctx part core).startq ++ [e] }) hhas (ctx_part ..) (ctx_core ..) :)

/-- The core of the shortest start queue, the lowest of equal ones. -/
theorem leastCore_eq {h : Hw} {part c : Nat} (hs : (h.part part).cores.Pairwise (· < ·)) (hc : c ∈ (h.part part).cores)
    (hmin : ∀ d ∈ (h.part part).cores, (h.ctx part c).startq.length < (h.ctx part d).startq.length ∨
      ((h.ctx part c).startq.length = (h.ctx part d).startq.length ∧ c ≤ d)) : leastCore h part = some c := by
  unfold leastCore
  cases hm : minBy (fun c => (h.ctx part c).startq.length) (h.part part).cores with
  | none =>
    rw [minBy_eq_none.1 hm] at hc
    cases hc
  | some d =>
    have h1 := minBy_first hs hm c hc
    have h2 := hmin d (minBy_eq_some hm).1
    have : d = c := by omega
    rw [this]

theorem placeLaunch_succ {h : Hw} {l : Launch} {n c : Nat} (hplain : l.crewSize = 0) (hs : (h.part l.part).cores.Pairwise (· < ·))
    (hc : c ∈ (h.part l.part).cores) (hmin : ∀ d ∈ (h.part l.part).cores,
      ((placeLaunch h { l with count := n }).ctx l.part c).startq.length < ((placeLaunch h { l with count := n }).ctx l.part d).startq.length ∨
      (((placeLaunch h { l with count := n }).ctx l.part c).startq.length = ((placeLaunch h { l with count := n }).ctx l.part d).startq.length ∧ c ≤ d)) :
    placeLaunch h { l with count := n + 1 } = pushStart (placeLaunch h { l with count := n }) l.part c ⟨l.id, n, .plain⟩ := by
  have hn : placeLaunch h { l with count := n } = (List.range n).foldl (placeThread l.part l.id) h := placeLaunch_plain hplain
  have hn1 : placeLaunch h { l with count := n + 1 } = (List.range (n + 1)).foldl (placeThread l.part l.id) h := placeLaunch_plain hplain
  have hparts : (placeLaunch h { l with count := n }).part l.part = h.part l.part := by
    rw [hn]
    unfold Hw.part
    rw [foldl_same (g := Hw.parts) (placeThread_parts l.part l.id)]
  have hleast : leastCore (placeLaunch h { l with count := n }) l.part = some c :=
    leastCore_eq (by rw [hparts]; exact hs) (by rw [hparts]; exact hc) (by rw [hparts]; exact hmin)
  rw [hn1, List.range_succ, List.foldl_append, ← hn, List.foldl_cons, List.foldl_nil, placeThread, hleast]

theorem addLaunch_eq (h : Hw) (l : Launch) : addLaunch h l = placeLaunch
    { h.setPart { h.part l.part with nextLaunch := l.id % (2 ^ 31 - 1) + 1, nextOrder := (h.part l.part).nextOrder + 1 } with
      launches := h.launches ++ [l] } l := rfl

/-- What names a waiting crew, but for the core at which it stands. -/
def crewShown (w : CrewWaiting) : Nat × Nat × Nat × Nat := (w.launch, w.block, w.tid, w.size)

theorem waitCrew_part {h : Hw} {part : Nat} (hhas : HasPart h part) (hidx : (h.part part).idx = part) (w : CrewWaiting) :
    HasPart (waitCrew h part w) part ∧ ((waitCrew h part w).part part).idx = part ∧
    ((waitCrew h part w).part part).crewWait.map crewShown = (h.part part).crewWait.map crewShown ++ [crewShown w] := by
  have hpart : (waitCrew h part w).part part = _ := part_setPart_same hhas hidx
  refine ⟨hasPart_setPart hhas hidx, ?_, ?_⟩
  · rw [hpart]
    exact hidx
  · rw [hpart]
    exact List.map_append ..

theorem foldl_waitCrew {part : Nat} (ws : List CrewWaiting) {h : Hw} (hhas : HasPart h part) (hidx : (h.part part).idx = part) :
    ((ws.foldl (fun h w => waitCrew h part w) h).part part).crewWait.map crewShown = (h.part part).crewWait.map crewShown ++ ws.map crewShown := by
  induction ws generalizing h with
  | nil => exact (List.append_nil _).symm
  | cons w ws ih =>
    obtain ⟨hhas', hidx', hwait⟩ := waitCrew_part hhas hidx w
    rw [List.foldl_cons, ih hhas' hidx', hwait, List.append_assoc]
    rfl

theorem placesByR313 : PlacesByR313 := by
  refine ⟨?_, fun h part core e hhas => pushStart_startq hhas e, ?_⟩
  · intro h l p hmem hidx p' u
    have hu : u = placeLaunch { h.setPart p' with launches := h.launches ++ [l] } l := addLaunch_eq h l
    refine ⟨hu, ?_⟩
    rw [hu, placeLaunch_launches]
  · intro h l p
    refine ⟨fun hplain => ⟨(placeLaunch_plain (l := { l with count := 0 }) hplain :), ?_⟩, ?_⟩
    · intro n c g len hs hc hmin
      exact placeLaunch_succ hplain hs hc hmin
    intro hcrew hmem hidx u shown
    have hu : u = (crewBlocks l.id l.crewSize l.count).foldl (fun h w => waitCrew h l.part w) h := placeLaunch_crews hcrew
    rw [hu]
    refine ⟨?_, foldl_same (f := fun h w => waitCrew h l.part w) (g := Hw.ctxs) (fun _ _ => rfl) _ h⟩
    refine (foldl_waitCrew _ (hasPart_of_mem hmem hidx) hidx).trans ?_
    unfold crewBlocks
    rw [List.map_map]
    rfl

/-! ### What a core holds (R12, R268, R315, R316, R376) -/

theorem foldl_add_pairs {α : Type} (f g : α → Nat) (xs : List α) (a : Nat × Nat) :
    xs.foldl (fun (a : Nat × Nat) x => (a.1 + f x, a.2 + g x)) a = (a.1 + (xs.map f).sum, a.2 + (xs.map g).sum) := by
  induction xs generalizing a with
  | nil => rfl
  | cons x xs ih =>
    rw [List.foldl_cons, ih]
    simp [Nat.add_assoc]

theorem foldl_add {α : Type} (f : α → Nat) (xs : List α) (a : Nat) : (xs.map f).foldl (· + ·) a = a + (xs.map f).sum := by
  rw [List.foldl_eq_foldr, List.sum]
  induction xs with
  | nil => rfl
  | cons x xs ih => simp_all; omega

theorem taken_eq (s : State) (part core : Nat) : s.taken part core = (((s.threadsOn part core).map fun t => if t.dmr then 2 * t.win else t.win).sum,
    ((s.threadsOn part core).map fun t => if t.dmr then 2 else 1).sum) := by
  unfold State.taken
  rw [foldl_add_pairs]
  simp

/-- The launches of the members of auto-crews that have not started on a core. -/
def crewLaunches (s : State) (part core : Nat) : List Launch :=
  ((s.hw.ctx part core).startq.filter StartEntry.isCrew).filterMap fun e => s.hw.launch? part e.launch

theorem entryNeeds_of_notTrial {l : Launch} {k : StartKind} (h : ∀ r, k ≠ .trial r) : entryNeeds l k = if l.dmr then (2 * l.win, 2) else (l.win, 1) := by
  cases k with
  | trial r => exact absurd rfl (h r)
  | _ => rfl

theorem reserved_eq (s : State) (part core : Nat) : s.reserved part core = (((crewLaunches s part core).map fun l => if l.dmr then 2 * l.win else l.win).sum,
    ((crewLaunches s part core).map fun l => if l.dmr then 2 else 1).sum) := by
  have hfold (es : List StartEntry) (hes : ∀ e ∈ es, e.isCrew = true) (a : Nat × Nat) :
      es.foldl (fun (a : Nat × Nat) e => match s.hw.launch? part e.launch with
        | some l => (a.1 + (entryNeeds l e.kind).1, a.2 + (entryNeeds l e.kind).2)
        | none => a) a =
      (es.filterMap fun e => s.hw.launch? part e.launch).foldl
        (fun (a : Nat × Nat) l => (a.1 + (if l.dmr then 2 * l.win else l.win), a.2 + (if l.dmr then 2 else 1))) a := by
    induction es generalizing a with
    | nil => rfl
    | cons e es ih =>
      have hkind : ∀ r, e.kind ≠ .trial r := fun r he => by
        have := hes e List.mem_cons_self
        rw [StartEntry.isCrew, he] at this
        cases this
      rw [List.foldl_cons, ih fun x hx => hes x (List.mem_cons_of_mem _ hx), List.filterMap_cons]
      cases s.hw.launch? part e.launch with
      | none => rfl
      | some l =>
        dsimp only
        rw [List.foldl_cons, entryNeeds_of_notTrial hkind]
        cases l.dmr <;> rfl
  refine (hfold _ (fun e he => (List.mem_filter.1 he).2) _).trans ?_
  rw [foldl_add_pairs]
  simp [crewLaunches]

theorem fits_iff {s : State} {part core cells slots : Nat} : s.fits part core (cells, slots) = true ↔ CoreHolds s part core cells slots := by
  unfold State.fits
  dsimp only
  rw [Bool.and_eq_true, decide_eq_true_iff, decide_eq_true_iff, taken_eq, reserved_eq]
  exact Iff.rfl

theorem sum_getD {α β : Type} (f : β → Nat) (g : α → Option β) (xs : List α) :
    (xs.map fun x => ((g x).map f).getD 0).sum = ((xs.filterMap g).map f).sum := by
  induction xs with
  | nil => rfl
  | cons x xs ih =>
    rw [List.map_cons, List.sum_cons, ih, List.filterMap_cons]
    cases g x <;> simp

theorem regionsFit_iff {h : Hw} {part core : Nat} {l : Launch} : regionsFit h part core l = true ↔ RegionsHold h part core l := by
  have hused (f : Launch → Nat) : (((h.ctx part core).regions.map fun r => ((h.launch? part r.launch).map f).getD 0).foldl (· + ·) 0) =
      (((h.ctx part core).regions.filterMap fun r => h.launch? part r.launch).map f).sum := by
    rw [foldl_add, Nat.zero_add, sum_getD f fun r : Region => h.launch? part r.launch]
  unfold regionsFit RegionsHold
  dsimp only
  rw [Bool.or_eq_true, Bool.and_eq_true, Bool.and_eq_true, decide_eq_true_iff, decide_eq_true_iff, decide_eq_true_iff, hused, hused, hused,
    List.any_eq_true, and_assoc]
  simp only [beq_iff_eq]

/-! ### Auto-crews (R22, R268, R316) -/

theorem crewFits_iff {s : State} {l : Launch} {core size : Nat} : crewFits s l core size = true ↔
    CoreHolds s l.part core (size * ((if l.dmr then 2 else 1) * l.win)) (size * if l.dmr then 2 else 1) ∧ RegionsHold s.hw l.part core l := by
  have hneeds : entryNeeds l .plain = ((if l.dmr then 2 else 1) * l.win, if l.dmr then 2 else 1) := by
    unfold entryNeeds
    cases l.dmr <;> simp
  unfold crewFits
  rw [Bool.and_eq_true, hneeds, fits_iff, regionsFit_iff]

theorem crewCore_some {s : State} {l : Launch} {size c : Nat} (h : crewCore s l size = some c) : c ∈ (s.hw.part l.part).cores ∧
    crewFits s l c size = true ∧ ∀ d ∈ (s.hw.part l.part).cores, crewFits s l d size = true →
      (s.hw.ctx l.part c).startq.length ≤ (s.hw.ctx l.part d).startq.length ∧
      ((s.hw.part l.part).cores.Pairwise (· < ·) → (s.hw.ctx l.part c).startq.length = (s.hw.ctx l.part d).startq.length → c ≤ d) := by
  unfold crewCore at h
  obtain ⟨hmem, hmin⟩ := minBy_eq_some h
  obtain ⟨hc, hfits⟩ := List.mem_filter.1 hmem
  refine ⟨hc, hfits, fun d hd hfd => ⟨hmin d (List.mem_filter.2 ⟨hd, hfd⟩), fun hs he => ?_⟩⟩
  have := minBy_first (hs.filter _) h d (List.mem_filter.2 ⟨hd, hfd⟩)
  omega

theorem crewCore_none {s : State} {l : Launch} {size : Nat} : crewCore s l size = none ↔
    ∀ d ∈ (s.hw.part l.part).cores, crewFits s l d size = false := by
  unfold crewCore
  rw [minBy_eq_none, List.filter_eq_nil_iff]
  simp only [Bool.not_eq_true]

/-- The regions of a context with those of a launch. -/
def withRegions (rs : List Region) (launch : Nat) : List Region :=
  if rs.any (fun r => r.launch == launch) then rs else rs ++ [⟨launch, [], [], [], []⟩]

theorem allocate_eq (c : Ctx) (launch : Nat) : c.allocate launch = { c with regions := withRegions c.regions launch } := by
  unfold Ctx.allocate withRegions
  split <;> rfl

/-- The context of a core once it has taken an auto-crew. -/
def crewAssigned (c : Ctx) (l : Launch) (w : CrewWaiting) (handle : Nat) : Ctx :=
  { c with
    regions := withRegions c.regions l.id
    crews := c.crews ++ [⟨handle, autoKey l.id w.block, w.size, List.range w.size, none, none, []⟩]
    startq := c.startq ++ (List.range w.size).map fun i => ⟨l.id, w.tid + i, .crew w.block⟩ }

theorem assignCrew_eq (s : State) (l : Launch) (core : Nat) (w : CrewWaiting) : assignCrew s l core w =
    (s.mapHw fun h => (h.setPart { h.part l.part with crewWait := (h.part l.part).crewWait.filter fun x => x != w }).setCtx
      (crewAssigned (h.ctx l.part core) l w (pickHandle ((h.ctx l.part core).crews.map fun x => x.handle) (Config.freeNat h.fresh)))).tick := by
  unfold assignCrew
  dsimp only
  simp only [allocate_eq]
  rfl

theorem crewsByR316 : CrewsByR316 := by
  refine ⟨fun h part => ⟨perm_inStartOrder, fun hprio => pairwise_inStartOrder hprio⟩, fun s l core size => crewFits_iff,
    ?_, ?_⟩
  · intro s l size cores len
    exact ⟨fun c hc => crewCore_some hc, crewCore_none⟩
  intro s l core w p c u c' hmem hidx hhas
  have hu : u = _ := assignCrew_eq s l core w
  obtain ⟨h0, hfresh, -⟩ := pickHandle_fresh (c.crews.map fun x => x.handle) (Config.freeNat s.hw.fresh)
  have hc' : c' = crewAssigned c l w (pickHandle (c.crews.map fun x => x.handle) (Config.freeNat s.hw.fresh)) :=
    (congrArg (fun u : State => u.hw.ctx l.part core) hu).trans
      (ctx_setCtx_same (h := s.hw.setPart { p with crewWait := p.crewWait.filter fun x => x != w }) hhas (ctx_part ..) (ctx_core ..))
  have hp : (u.hw.part l.part).crewWait = p.crewWait.filter fun x => x != w :=
    (congrArg (fun u : State => (u.hw.part l.part).crewWait) hu).trans
      (congrArg Part.crewWait (part_setPart_same (p := { p with crewWait := p.crewWait.filter fun x => x != w }) (hasPart_of_mem hmem hidx) hidx))
  refine ⟨hp, ⟨_, h0, fun x hx he => hfresh (List.mem_map.2 ⟨x, hx, he⟩), congrArg Ctx.crews hc'⟩, congrArg Ctx.startq hc', congrArg Ctx.regions hc', ?_, ?_⟩
  · exact (congrArg (fun u : State => u.hw.threads) hu :)
  · exact (congrArg State.th hu :)

end Sys2Proof.Proofs

/-!
The next start of a core, and the start of a thread (R11, R13, R22, R24, R268, R315, R318, R376).
-/
namespace Sys2Proof.Proofs
open Sys2Proof.Machine

/-! ### Which entry starts (R315, R316, R253) -/

theorem trialHeld_eq_false {c : Ctx} {r : TrialReq} : trialHeld c r = false ↔
    ∀ w ∈ c.cpq, w.id < r.cid ∨ w.started = true → r.holds w.slots = false := by
  unfold trialHeld
  rw [List.any_eq_false]
  simp only [Bool.and_eq_true, Bool.or_eq_true, decide_eq_true_eq, not_and, Bool.not_eq_true]

/-- The cells and slots of an entry are free on a core, or an auto-crew has them. -/
def EntryHeld (s : State) (part core : Nat) (l : Launch) (k : StartKind) : Prop :=
  (∃ b, k = .crew b) ∨ (∃ r, k = .trial r ∧ CoreHolds s part core r.win 1) ∨
    ((∀ b, k ≠ .crew b) ∧ (∀ r, k ≠ .trial r) ∧ CoreHolds s part core (if l.dmr then 2 * l.win else l.win) (if l.dmr then 2 else 1))

theorem entryHeld_iff {s : State} {part core : Nat} {l : Launch} {e : StartEntry} :
    (e.isCrew || s.fits part core (entryNeeds l e.kind)) = true ↔ EntryHeld s part core l e.kind := by
  obtain ⟨launch, tid, kind⟩ := e
  have hneeds : (if l.dmr then (2 * l.win, 2) else (l.win, 1)) = (if l.dmr then 2 * l.win else l.win, if l.dmr then 2 else 1) := by
    cases l.dmr <;> rfl
  unfold EntryHeld StartEntry.isCrew entryNeeds
  cases kind <;> simp [hneeds, fits_iff]

/-- No code-bank write holds what starts, if it is a trial. -/
def trialFree (c : Ctx) (k : StartKind) : Bool :=
  match k with
  | .trial r => !trialHeld c r
  | _ => true

theorem trialFree_iff {c : Ctx} {k : StartKind} : trialFree c k = true ↔
    ∀ r, k = .trial r → ∀ w ∈ c.cpq, w.id < r.cid ∨ w.started = true → r.holds w.slots = false := by
  cases k <;> simp [trialFree, trialHeld_eq_false]

theorem canStart_of_launch {s : State} {part core : Nat} {e : StartEntry} {l : Launch} (hl : s.hw.launch? part e.launch = some l) :
    canStart s part core e = ((e.isCrew || s.fits part core (entryNeeds l e.kind)) && regionsFit s.hw part core l &&
      trialFree (s.hw.ctx part core) e.kind) := by
  unfold canStart
  rw [hl]
  cases e.kind <;> rfl

theorem canStart_iff {s : State} {part core : Nat} {e : StartEntry} : canStart s part core e = true ↔
    ∃ l, s.hw.launch? part e.launch = some l ∧ RegionsHold s.hw part core l ∧ EntryHeld s part core l e.kind ∧
      ∀ r, e.kind = .trial r → ∀ w ∈ (s.hw.ctx part core).cpq, w.id < r.cid ∨ w.started = true → r.holds w.slots = false := by
  cases hl : s.hw.launch? part e.launch with
  | none =>
    unfold canStart
    simp [hl]
  | some l =>
    rw [canStart_of_launch hl, Bool.and_eq_true, Bool.and_eq_true, trialFree_iff, entryHeld_iff, regionsFit_iff]
    constructor
    · rintro ⟨⟨hheld, hregs⟩, ht⟩
      exact ⟨l, rfl, hregs, hheld, ht⟩
    · rintro ⟨m, hm, hregs, hheld, ht⟩
      cases hm
      exact ⟨⟨hheld, hregs⟩, ht⟩

/-- An entry can start, and none of its launch has a lower TID. -/
def AbleIn (s : State) (part core : Nat) (q : List StartEntry) (e : StartEntry) : Prop :=
  canStart s part core e = true ∧ ∀ d ∈ q, d.launch = e.launch → e.tid ≤ d.tid

/-- The start queue of a core in the start order. -/
def startsOf (h : Hw) (part core : Nat) : List StartEntry :=
  inStartOrder h part (fun e => e.launch) (fun e => e.tid) (h.ctx part core).startq

theorem mem_startsOf {h : Hw} {part core : Nat} {e : StartEntry} : e ∈ startsOf h part core ↔ e ∈ (h.ctx part core).startq :=
  perm_inStartOrder.mem_iff

/-- The test by which `nextStart` finds its entry. -/
def ableTest (s : State) (part core : Nat) (e : StartEntry) : Bool :=
  canStart s part core e && (startsOf s.hw part core).all fun d => d.launch != e.launch || decide (e.tid ≤ d.tid)

theorem nextStart_eq (s : State) (part core : Nat) : nextStart s part core = (startsOf s.hw part core).find? (ableTest s part core) := rfl

theorem ableTest_iff {s : State} {part core : Nat} {e : StartEntry} :
    ableTest s part core e = true ↔ AbleIn s part core (s.hw.ctx part core).startq e := by
  unfold ableTest AbleIn
  rw [Bool.and_eq_true, List.all_eq_true]
  simp only [mem_startsOf, Bool.or_eq_true, bne_iff_ne, decide_eq_true_eq, or_iff_not_imp_left, ne_eq, not_not]

theorem nextStart_eq_none {s : State} {part core : Nat} : nextStart s part core = none ↔
    ∀ e ∈ (s.hw.ctx part core).startq, ¬ AbleIn s part core (s.hw.ctx part core).startq e := by
  rw [nextStart_eq, List.find?_eq_none]
  simp only [mem_startsOf, ableTest_iff]

theorem startsBefore_self (l : Launch) (tid : Nat) : StartsBefore l l tid tid := .inr ⟨rfl, .inr ⟨rfl, Nat.le_refl _⟩⟩

theorem nextStart_eq_some {s : State} {part core : Nat} {e : StartEntry} (h : nextStart s part core = some e) :
    e ∈ (s.hw.ctx part core).startq ∧ AbleIn s part core (s.hw.ctx part core).startq e ∧ ((∀ l ∈ s.hw.launches, l.prio ≤ 3) →
      ∀ d ∈ (s.hw.ctx part core).startq, AbleIn s part core (s.hw.ctx part core).startq d →
      ∀ l m, s.hw.launch? part e.launch = some l → s.hw.launch? part d.launch = some m → StartsBefore l m e.tid d.tid) := by
  rw [nextStart_eq] at h
  obtain ⟨hable, pre, post, heq, hpre⟩ := List.find?_eq_some_iff_append.1 h
  refine ⟨mem_startsOf.1 (List.mem_of_find?_eq_some h), ableTest_iff.1 hable, fun hprio d hd hdable l m hl hm => ?_⟩
  have hsorted := pairwise_inStartOrder (part := part) (launch := StartEntry.launch) (tid := StartEntry.tid) (xs := (s.hw.ctx part core).startq) hprio
  have hmem : d ∈ pre ++ e :: post := heq ▸ mem_startsOf.2 hd
  rw [show inStartOrder s.hw part StartEntry.launch StartEntry.tid (s.hw.ctx part core).startq = pre ++ e :: post from heq] at hsorted
  obtain ⟨-, htail, -⟩ := List.pairwise_append.1 hsorted
  rcases List.mem_append.1 hmem with hd | hd
  · have hno := hpre d hd
    rw [ableTest_iff.2 hdable] at hno
    cases hno
  rcases List.mem_cons.1 hd with rfl | hd
  · rw [hl] at hm
    cases hm
    exact startsBefore_self l d.tid
  · exact (List.pairwise_cons.1 htail).1 d hd l m hl hm

/-! ### Slots and pickers (R13, R318, R376) -/

theorem exists_free_slot {used : List Nat} (hlen : used.length < 4096) : ∃ n < 4096, n ∉ used := by
  by_contra hno
  push Not at hno
  have hsub : List.range 4096 ⊆ used := fun n hn => hno n (List.mem_range.1 hn)
  have hle := List.nodup_range.subperm hsub |>.length_le
  rw [List.length_range] at hle
  omega

theorem pickSlot_free {used : List Nat} (free : Nat) (hlen : used.length < 4096) : pickSlot used free < 4096 ∧ pickSlot used free ∉ used := by
  unfold pickSlot
  dsimp only
  split
  · next hok => simpa using hok
  · cases hf : (List.range 4096).find? (fun n => decide (n < 4096) && !used.contains n) with
    | none =>
      obtain ⟨n, hn, hfree⟩ := exists_free_slot hlen
      exact absurd (List.find?_eq_none.1 hf n (List.mem_range.2 hn)) (by simp [hn, hfree])
    | some n => simpa using List.find?_some hf

theorem pickSlots_free {used : List Nat} {dmr : Bool} (free : Nat) (hlen : used.length + (if dmr then 2 else 1) ≤ 4096) :
    ((pickSlots used dmr free).1 < 4096 ∧ (pickSlots used dmr free).1 ∉ used) ∧ (dmr = false → (pickSlots used dmr free).2 = none) ∧
    (dmr = true → ∃ b, (pickSlots used dmr free).2 = some b ∧ (pickSlots used dmr free).1 < b ∧ b < 4096 ∧ b ∉ used) := by
  cases dmr with
  | false =>
    refine ⟨pickSlot_free free ?_, fun _ => rfl, fun h => by cases h⟩
    rw [if_neg Bool.false_ne_true] at hlen
    omega
  | true =>
    rw [if_pos rfl] at hlen
    obtain ⟨ha, hafree⟩ := pickSlot_free (used := used) free (by omega)
    obtain ⟨hb, hbfree⟩ := pickSlot_free (used := pickSlot used free :: used) (free / 4096) (by rw [List.length_cons]; omega)
    have hsame : pickSlots used true free = (min (pickSlot used free) (pickSlot (pickSlot used free :: used) (free / 4096)),
      some (max (pickSlot used free) (pickSlot (pickSlot used free :: used) (free / 4096)))) := rfl
    rw [hsame]
    generalize pickSlot (pickSlot used free :: used) (free / 4096) = b at *
    generalize pickSlot used free = a at *
    rw [List.mem_cons, not_or] at hbfree
    obtain ⟨hne, hbfree⟩ := hbfree
    have hmin : min a b ∉ used := by rcases min_choice a b with h | h <;> rw [h] <;> assumption
    have hmax : max a b ∉ used := by rcases max_choice a b with h | h <;> rw [h] <;> assumption
    have hlt : min a b < max a b := by omega
    exact ⟨⟨by dsimp only; omega, hmin⟩, (nomatch ·), fun _ => ⟨_, rfl, hlt, by omega, hmax⟩⟩

/-- A picker that no other one of the 16 comes before: the fewest threads, the lowest of equal ones. -/
def LeastLoaded (ts : List Thread) (p : Nat) : Prop :=
  p < 16 ∧ ∀ q, q < 16 → (ts.countP fun t => t.picker == p) < (ts.countP fun t => t.picker == q) ∨
    ((ts.countP fun t => t.picker == p) = (ts.countP fun t => t.picker == q) ∧ p ≤ q)

theorem leastPicker_least (ts : List Thread) : LeastLoaded ts (leastPicker ts) := by
  unfold leastPicker
  cases h : minBy (fun p => ts.countP fun t => t.picker == p) (List.range 16) with
  | none =>
    have := minBy_eq_none.1 h
    cases this
  | some p => exact ⟨List.mem_range.1 (minBy_eq_some h).1, fun q hq => minBy_first List.pairwise_lt_range h q (List.mem_range.2 hq)⟩

/-! ### The start of a thread (R11, R22, R268, R315) -/

theorem noteRan_ctxs (h : Hw) (part core launch : Nat) : (noteRan h part core launch).ctxs = h.ctxs := by
  unfold noteRan
  split <;> rfl

theorem noteRan_threads (h : Hw) (part core launch : Nat) : (noteRan h part core launch).threads = h.threads := by
  unfold noteRan
  split <;> rfl

/-- The context of a core once an entry has left its start queue. -/
def startedCtx (c : Ctx) (e : StartEntry) : Ctx :=
  { c with
    startq := c.startq.filter fun d => d != e
    regions := withRegions c.regions e.launch
    l1 := .empty
    late := []
    con := .empty }

theorem ctx_dropL1 {h : Hw} {part core : Nat} (hhas : HasCtx h part core) :
    (dropL1 h part core).ctx part core = { h.ctx part core with l1 := .empty, late := [] } :=
  ctx_setCtx_same hhas (ctx_part h part core) (ctx_core h part core)

theorem beginStart_ctx {s : State} {part core : Nat} (hhas : HasCtx s.hw part core) (e : StartEntry) :
    (beginStart s part core e).hw.ctx part core = startedCtx (s.hw.ctx part core) e ∧ HasCtx (beginStart s part core e).hw part core := by
  have hset := ctx_setCtx_same
    (c := ({ s.hw.ctx part core with startq := (s.hw.ctx part core).startq.filter fun d => d != e } : Ctx).allocate e.launch) hhas
    (by rw [allocate_eq]; exact ctx_part ..) (by rw [allocate_eq]; exact ctx_core ..)
  have hhas1 := (hasCtx_setCtx s.hw
    (({ s.hw.ctx part core with startq := (s.hw.ctx part core).startq.filter fun d => d != e } : Ctx).allocate e.launch) part core).2 hhas
  generalize hh1 : s.hw.setCtx (({ s.hw.ctx part core with startq := (s.hw.ctx part core).startq.filter fun d => d != e } : Ctx).allocate e.launch) = h1
    at hset hhas1
  have hhas2 : HasCtx (dropL1 h1 part core) part core := (hasCtx_setCtx ..).2 hhas1
  have hhas3 : HasCtx (dropCon (dropL1 h1 part core) part core) part core := (hasCtx_setCtx ..).2 hhas2
  have hctxs : (beginStart s part core e).hw.ctxs = (dropCon (dropL1 h1 part core) part core).ctxs := by
    rw [← hh1]
    exact noteRan_ctxs ..
  have hctx : (beginStart s part core e).hw.ctx part core = (dropCon (dropL1 h1 part core) part core).ctx part core := by
    unfold Hw.ctx
    rw [hctxs]
  refine ⟨?_, ?_⟩
  · rw [hctx, ctx_dropCon hhas2, ctx_dropL1 hhas1, hset, allocate_eq]
    rfl
  · unfold HasCtx
    rw [hctxs]
    exact hhas3

theorem beginStart_threads (s : State) (part core : Nat) (e : StartEntry) :
    (beginStart s part core e).hw.threads = s.hw.threads ∧ (beginStart s part core e).th = s.th := ⟨noteRan_threads .., rfl⟩

theorem threadsOn_beginStart (s : State) (part core : Nat) (e : StartEntry) : (beginStart s part core e).threadsOn part core = s.threadsOn part core := by
  obtain ⟨hthreads, hth⟩ := beginStart_threads s part core e
  unfold State.threadsOn State.allThreads
  rw [hthreads, hth]

theorem addThread_ctx {s : State} {t : Thread} (hhas : HasCtx s.hw t.key.part t.key.core) :
    (s.addThread t).hw.ctx t.key.part t.key.core = (s.hw.ctx t.key.part t.key.core).dropAhead fun a => a.key == t.key && true :=
  ctx_setCtx_same hhas (ctx_part ..) (ctx_core ..)

/-- The entry point and the argument of what starts. -/
def startArgs (l : Launch) (k : StartKind) : DWord × DWord :=
  match k with
  | .spawn entry arg => (entry, arg)
  | _ => (l.entry, l.arg)

/-- The thread that an entry starts, in its crew, rank and picker. -/
def startedThread (s : State) (part core : Nat) (l : Launch) (e : StartEntry) (crew rank picker : Nat) : Thread :=
  { newThread l ⟨part, core, (s.freeSlots part core l.dmr).1⟩ e.tid (s.hw.part part).stkap (startArgs l e.kind).1 (startArgs l e.kind).2 with
    slot2 := (s.freeSlots part core l.dmr).2, crew := crew, rank := rank, picker := picker }

theorem startedThread_key (s : State) (part core : Nat) (l : Launch) (e : StartEntry) (crew rank picker : Nat) :
    (startedThread s part core l e crew rank picker).key = ⟨part, core, (s.freeSlots part core l.dmr).1⟩ := rfl

theorem startThread_single {s : State} {part core : Nat} {l : Launch} {e : StartEntry} (htrial : ∀ r, e.kind ≠ .trial r) (hcrew : ∀ b, e.kind ≠ .crew b) :
    startThread s part core l e = (beginStart s part core e).addThread (startedThread s part core l e 0 0 (leastPicker (s.threadsOn part core))) := by
  obtain ⟨launch, tid, kind⟩ := e
  have hts := threadsOn_beginStart s part core ⟨launch, tid, kind⟩
  unfold startThread
  dsimp only
  rw [hts]
  cases kind with
  | crew b => exact absurd rfl (hcrew b)
  | trial r => exact absurd rfl (htrial r)
  | plain => rfl
  | spawn entry arg => rfl

theorem startThread_crew {s : State} {part core b : Nat} {l : Launch} {e : StartEntry} (hkind : e.kind = .crew b) :
    startThread s part core l e =
      ((beginStart s part core e).mapHw fun h => h.setCtx (takeRank ((beginStart s part core e).hw.ctx part core) (s.threadsOn part core) l b
        (e.tid % max 1 l.crewSize) (startedThread s part core l e 0 0 0)).1).addThread
      (takeRank ((beginStart s part core e).hw.ctx part core) (s.threadsOn part core) l b (e.tid % max 1 l.crewSize)
        (startedThread s part core l e 0 0 0)).2 := by
  obtain ⟨launch, tid, kind⟩ := e
  dsimp only at hkind
  cases hkind
  have hts := threadsOn_beginStart s part core ⟨launch, tid, .crew b⟩
  unfold startThread
  dsimp only
  rw [hts]
  rfl

end Sys2Proof.Proofs

/-!
`StartsByR11` put together: what the start of a thread leaves.
-/
namespace Sys2Proof.Proofs
open Sys2Proof.Machine

theorem rankBlock_eq (mode : DecodeMode) (rank : Nat) : rankBlock mode rank = rank / (if mode = .z3 then 32 else 16) := by
  cases mode <;> rfl

/-- The crew of an auto-crew's member once it has started. -/
def crewStarted (x : Crew) (rank block picker : Nat) : Crew :=
  { x with reserved := x.reserved.filter fun r => r != rank, pickers := (block, picker) :: x.pickers.filter fun y => y.1 != block }

theorem takeRank_some {c : Ctx} {ts : List Thread} {l : Launch} {b rank : Nat} {t : Thread} {x : Crew}
    (hx : c.crews.find? (fun x => x.key == autoKey l.id b) = some x) : takeRank c ts l b rank t =
      (c.setCrew (crewStarted x rank (rankBlock l.mode rank) (x.picker ts (rankBlock l.mode rank))),
        { t with crew := x.handle, rank := rank, picker := x.picker ts (rankBlock l.mode rank) }) := by
  unfold takeRank
  rw [hx]
  rfl

theorem takeRank_none {c : Ctx} {ts : List Thread} {l : Launch} {b rank : Nat} {t : Thread}
    (hx : c.crews.find? (fun x => x.key == autoKey l.id b) = none) : takeRank c ts l b rank t = (c, { t with picker := leastPicker ts }) := by
  unfold takeRank
  rw [hx]

theorem mem_setCrew {c : Ctx} {x y : Crew} (hy : y ∈ (c.setCrew x).crews) (hh : y.handle = x.handle) : y = x := by
  obtain ⟨z, -, hz⟩ := List.mem_map.1 hy
  split at hz
  · exact hz.symm
  · next hne =>
    rw [← hz] at hh
    exact absurd (beq_iff_eq.2 hh) hne

theorem crewPicker_spec (x : Crew) (ts : List Thread) (block : Nat) :
    (∀ y, x.pickers.find? (fun y => y.1 == block) = some y → x.picker ts block = y.2) ∧
    ((∀ y ∈ x.pickers, y.1 ≠ block) → LeastLoaded ts (x.picker ts block)) := by
  unfold Crew.picker
  refine ⟨fun y hy => by rw [hy], fun hno => ?_⟩
  have hnone : x.pickers.find? (fun y => y.1 == block) = none := List.find?_eq_none.2 fun y hy => by
    rw [beq_iff_eq]
    exact hno y hy
  rw [hnone]
  exact leastPicker_least ts

/-- What the start of a thread leaves of the state but the thread itself: the thread, added to the others, and the context. -/
def AddedThread (s u : State) (part core : Nat) (e : StartEntry) (t : Thread) (crews : List Crew) : Prop :=
  u.hw.threads = t :: s.hw.threads ∧ u.th = s.th ∧ (u.hw.ctx part core).startq = (s.hw.ctx part core).startq.filter (fun d => d != e) ∧
  (u.hw.ctx part core).regions = withRegions (s.hw.ctx part core).regions e.launch ∧ (u.hw.ctx part core).crews = crews

theorem addThread_added {s : State} {part core : Nat} (hhas : HasCtx s.hw part core) (e : StartEntry) {t : Thread} (hpart : t.key.part = part)
    (hcore : t.key.core = core) : AddedThread s ((beginStart s part core e).addThread t) part core e t (s.hw.ctx part core).crews := by
  obtain ⟨hctx, hhas'⟩ := beginStart_ctx hhas e
  obtain ⟨hthreads, hth⟩ := beginStart_threads s part core e
  have hadd := addThread_ctx (s := beginStart s part core e) (t := t) (by rwa [hpart, hcore])
  rw [hpart, hcore, hctx] at hadd
  refine ⟨congrArg (t :: ·) hthreads, hth, ?_, ?_, ?_⟩ <;> rw [hadd] <;> rfl

theorem addThread_added_crews {s : State} {part core : Nat} (hhas : HasCtx s.hw part core) (e : StartEntry) {t : Thread} (cs : List Crew)
    (hpart : t.key.part = part) (hcore : t.key.core = core) :
    AddedThread s (((beginStart s part core e).mapHw fun h => h.setCtx { (beginStart s part core e).hw.ctx part core with crews := cs }).addThread t)
      part core e t cs := by
  obtain ⟨hctx, hhas'⟩ := beginStart_ctx hhas e
  obtain ⟨hthreads, hth⟩ := beginStart_threads s part core e
  have hset : (((beginStart s part core e).mapHw fun h => h.setCtx { (beginStart s part core e).hw.ctx part core with crews := cs }).hw.ctx part core) =
      { startedCtx (s.hw.ctx part core) e with crews := cs } := by
    rw [hctx]
    exact ctx_setCtx_same (c := { startedCtx (s.hw.ctx part core) e with crews := cs }) hhas' (ctx_part s.hw part core) (ctx_core s.hw part core)
  have hadd := addThread_ctx (s := (beginStart s part core e).mapHw fun h => h.setCtx { (beginStart s part core e).hw.ctx part core with crews := cs })
    (t := t) (by rw [hpart, hcore]; exact (hasCtx_setCtx ..).2 hhas')
  rw [hpart, hcore, hset] at hadd
  refine ⟨congrArg (t :: ·) hthreads, hth, ?_, ?_, ?_⟩ <;> rw [hadd] <;> rfl

/-- The rank that a member of an auto-crew takes. -/
def startRank (l : Launch) (e : StartEntry) : Nat := e.tid % max 1 l.crewSize

theorem startThread_added {s : State} {part core : Nat} {l : Launch} {e : StartEntry} (hhas : HasCtx s.hw part core) (htrial : ∀ r, e.kind ≠ .trial r) :
    ∃ crew rank picker crews, AddedThread s (startThread s part core l e) part core e (startedThread s part core l e crew rank picker) crews ∧
      ((∀ b, e.kind ≠ .crew b) → crew = 0 ∧ rank = 0 ∧ picker = leastPicker (s.threadsOn part core) ∧ crews = (s.hw.ctx part core).crews) ∧
      ∀ b x, e.kind = .crew b → (s.hw.ctx part core).crews.find? (fun x => x.key == autoKey l.id b) = some x →
        crew = x.handle ∧ rank = startRank l e ∧ picker = x.picker (s.threadsOn part core) (rankBlock l.mode (startRank l e)) ∧
        crews = ((s.hw.ctx part core).setCrew (crewStarted x (startRank l e) (rankBlock l.mode (startRank l e)) picker)).crews := by
  by_cases hcrew : ∃ b, e.kind = .crew b
  · obtain ⟨b, hb⟩ := hcrew
    have hctx : ((beginStart s part core e).hw.ctx part core).crews = (s.hw.ctx part core).crews := (congrArg Ctx.crews (beginStart_ctx hhas e).1 :)
    rw [startThread_crew hb]
    cases hx : (s.hw.ctx part core).crews.find? (fun x => x.key == autoKey l.id b) with
    | none =>
      rw [takeRank_none (by rw [hctx]; exact hx)]
      refine ⟨0, 0, leastPicker (s.threadsOn part core), ((beginStart s part core e).hw.ctx part core).crews,
        addThread_added_crews hhas e _ rfl rfl, fun hno => absurd hb (hno b), fun b' x hb' hx' => ?_⟩
      rw [hb] at hb'
      cases hb'
      rw [hx] at hx'
      cases hx'
    | some x =>
      rw [takeRank_some (by rw [hctx]; exact hx)]
      refine ⟨x.handle, startRank l e, x.picker (s.threadsOn part core) (rankBlock l.mode (startRank l e)), _,
        addThread_added_crews hhas e _ rfl rfl, fun hno => absurd hb (hno b), fun b' x' hb' hx' => ?_⟩
      rw [hb] at hb'
      cases hb'
      rw [hx] at hx'
      cases hx'
      refine ⟨rfl, rfl, rfl, ?_⟩
      rw [hctx]
      rfl
  · have hno : ∀ b, e.kind ≠ .crew b := fun b hb => hcrew ⟨b, hb⟩
    rw [startThread_single htrial hno]
    exact ⟨0, 0, _, _, addThread_added hhas e rfl rfl, fun _ => ⟨rfl, rfl, rfl, rfl⟩, fun b _ hb => absurd hb (hno b)⟩

theorem startsByR11 : StartsByR11 := by
  refine ⟨?_, ?_⟩
  · intro s part core q
    exact ⟨fun e => canStart_iff, nextStart_eq_none, fun e he => nextStart_eq_some he⟩
  intro s part core l e hhas htrial hlen c u c' ts free on least
  obtain ⟨crew, rank, picker, crews, ⟨hthreads, hth, hstartq, hregions, hcrews⟩, hplain, hmember⟩ := startThread_added (l := l) hhas htrial
  obtain ⟨hslot, hone, htwo⟩ := pickSlots_free (Config.freeNat s.hw.fresh) hlen
  refine ⟨(s.freeSlots part core l.dmr).1, startedThread s part core l e crew rank picker, hthreads, hth, hslot, hone, htwo, ?_, hstartq, hregions, ?_, ?_⟩
  · obtain ⟨launch, tid, kind⟩ := e
    cases kind <;> rfl
  · intro hno
    obtain ⟨h0, h1, hp, hc⟩ := hplain hno
    exact ⟨h0, h1, by rw [show (startedThread s part core l e crew rank picker).picker = picker from rfl, hp]; exact leastPicker_least ts, hcrews.trans hc⟩
  · intro b x hb hx rank' block
    obtain ⟨hhandle, hrank, hp, hc⟩ := hmember b x hb hx
    have hblock : rankBlock l.mode (startRank l e) = block := rankBlock_eq ..
    rw [hblock] at hp hc
    obtain ⟨hkept, hleast⟩ := crewPicker_spec x ts block
    refine ⟨hhandle, hrank, fun y hy => hp.trans (hkept y hy), fun hno => ?_, fun y hy hyx => ?_⟩
    · have hl := hleast hno
      rw [← hp] at hl
      exact hl
    · rw [hcrews, hc] at hy
      exact mem_setCrew hy hyx

end Sys2Proof.Proofs

/-!
Balancing of two neighbouring cores (R319).
-/
namespace Sys2Proof.Proofs
open Sys2Proof.Machine

theorem pendingDepth_eq (h : Hw) (part core : Nat) : pendingDepth h part core =
    (h.ctx part core).startq.length + (((h.part part).crewWait.filter fun w => w.core == core).map fun w => w.size).sum := by
  unfold pendingDepth
  rw [foldl_add, Nat.zero_add]

/-- The difference of the depths after some items have gone over. -/
def leftOver (d : Int) (xs : List BalanceItem) : Int := d - 2 * ((xs.map BalanceItem.size).sum : Nat)

theorem leftOver_cons (d : Int) (x : BalanceItem) (xs : List BalanceItem) : leftOver d (x :: xs) = leftOver (d - 2 * (x.size : Int)) xs := by
  unfold leftOver
  rw [List.map_cons, List.sum_cons]
  omega

/-- The items that go over are the first ones, as many as it takes. -/
theorem balanceMoves_take (thr d : Int) (xs : List BalanceItem) : ∃ m ≤ xs.length, balanceMoves thr d xs = xs.take m ∧
    (∀ j, j < m → thr < leftOver d (xs.take j)) ∧ (m < xs.length → leftOver d (xs.take m) ≤ thr) := by
  induction xs generalizing d with
  | nil => exact ⟨0, Nat.le_refl _, rfl, fun j hj => absurd hj (Nat.not_lt_zero j), fun h => absurd h (Nat.not_lt_zero 0)⟩
  | cons x xs ih =>
    have hnone : leftOver d [] = d := by simp [leftOver]
    unfold balanceMoves
    split
    · next hle => exact ⟨0, Nat.zero_le _, rfl, fun j hj => absurd hj (Nat.not_lt_zero j), fun _ => hnone.trans_le hle⟩
    · next hgt =>
      obtain ⟨m, hm, htake, hmore, hdone⟩ := ih (d - 2 * (x.size : Int))
      refine ⟨m + 1, Nat.succ_le_succ hm, congrArg (x :: ·) htake, fun j hj => ?_, fun hlt => ?_⟩
      · cases j with
        | zero => exact lt_of_lt_of_eq (Int.not_le.1 hgt) hnone.symm
        | succ j =>
          rw [List.take_succ_cons, leftOver_cons]
          exact hmore j (Nat.lt_of_succ_lt_succ hj)
      · rw [List.take_succ_cons, leftOver_cons]
        exact hdone (Nat.lt_of_succ_lt_succ hlt)

theorem balancePair_self (h : Hw) (part thr a : Nat) : balancePair h part thr a a = h := by
  unfold balancePair
  simp only [beq_self_eq_true, if_true]

theorem balancePair_ne {h : Hw} {part thr a b : Nat} (hne : a ≠ b) : balancePair h part thr a b =
    (balanceMoves thr ((pendingDepth h part (if pendingDepth h part b ≤ pendingDepth h part a then a else b) : Int) -
        pendingDepth h part (if pendingDepth h part b ≤ pendingDepth h part a then b else a))
      (balanceItems h part (if pendingDepth h part b ≤ pendingDepth h part a then a else b))).foldl
      (moveItem part (if pendingDepth h part b ≤ pendingDepth h part a then a else b)
        (if pendingDepth h part b ≤ pendingDepth h part a then b else a)) h := by
  have hbeq : (a == b) = false := beq_eq_false_iff_ne.2 hne
  unfold balancePair
  by_cases hle : pendingDepth h part b ≤ pendingDepth h part a
  · simp only [hle, if_true, hbeq, Bool.false_eq_true, if_false, Nat.cast_sub]
  · simp only [hle, if_false, hbeq, Bool.false_eq_true, Nat.cast_sub (Nat.le_of_not_le hle)]

theorem pushStart_ctx_ne {h : Hw} {part core d : Nat} (hne : d ≠ core) (e : StartEntry) : (pushStart h part core e).ctx part d = h.ctx part d :=
  ctx_setCtx_ne (c := { h.ctx part core with startq := (h.ctx part core).startq ++ [e] }) h fun hkey => hne (hkey.2.symm.trans (ctx_core ..))

theorem moveItem_entry {h : Hw} {part deep shallow : Nat} (hne : deep ≠ shallow) (hdeep : HasCtx h part deep) (hshallow : HasCtx h part shallow)
    (e : StartEntry) :
    ((moveItem part deep shallow h (.entry e)).ctx part deep).startq = (h.ctx part deep).startq.filter (fun d => d != e) ∧
    ((moveItem part deep shallow h (.entry e)).ctx part shallow).startq = (h.ctx part shallow).startq ++ [e] ∧
    (moveItem part deep shallow h (.entry e)).parts = h.parts := by
  have hdeepCtx := ctx_setCtx_same (c := { h.ctx part deep with startq := (h.ctx part deep).startq.filter fun d => d != e }) hdeep
    (ctx_part h part deep) (ctx_core h part deep)
  have hshallowCtx : (h.setCtx { h.ctx part deep with startq := (h.ctx part deep).startq.filter fun d => d != e }).ctx part shallow =
      h.ctx part shallow := ctx_setCtx_ne h fun hkey => hne ((ctx_core h part deep).symm.trans hkey.2)
  have hhas := (hasCtx_setCtx h { h.ctx part deep with startq := (h.ctx part deep).startq.filter fun d => d != e } part shallow).2 hshallow
  refine ⟨?_, ?_, rfl⟩
  · exact (congrArg Ctx.startq ((pushStart_ctx_ne hne e).trans hdeepCtx) :)
  · rw [← hshallowCtx]
    exact pushStart_startq hhas e

theorem moveItem_crew {h : Hw} {part : Nat} (hhas : HasPart h part) (hidx : (h.part part).idx = part) (deep shallow : Nat) (w : CrewWaiting) :
    ((moveItem part deep shallow h (.crew w)).part part).crewWait =
      (h.part part).crewWait.map (fun y => if y = w then { y with core := shallow } else y) ∧
    (moveItem part deep shallow h (.crew w)).ctxs = h.ctxs := by
  refine ⟨?_, rfl⟩
  refine (congrArg Part.crewWait (part_setPart_same (p := { h.part part with
    crewWait := (h.part part).crewWait.map fun y => if y == w then { y with core := shallow } else y }) hhas hidx)).trans ?_
  simp only [beq_iff_eq]

/-- What balancing may move, as R319 says it. -/
theorem balanceItems_eq (h : Hw) (part core : Nat) : balanceItems h part core =
    (((h.part part).crewWait.filter fun w => w.core == core).reverse.map BalanceItem.crew) ++
      (((h.ctx part core).startq.reverse.filter StartEntry.movable).map BalanceItem.entry) := rfl

theorem balancesByR319 : BalancesByR319 := by
  refine ⟨?_, ?_⟩
  · intro h part thr a b waiting depth deep shallow free items size diff
    have hdepth : pendingDepth h part = depth := funext fun c => pendingDepth_eq h part c
    have hfree : StartEntry.movable = free := funext fun e => by
      obtain ⟨launch, tid, kind⟩ := e
      cases kind <;> rfl
    have hsize : BalanceItem.size = size := funext fun x => by cases x <;> rfl
    refine ⟨fun hab => hab ▸ balancePair_self h part thr a, fun hne => ?_⟩
    have hpair := balancePair_ne (h := h) (part := part) (thr := thr) hne
    rw [hdepth, balanceItems_eq, hfree] at hpair
    obtain ⟨m, hm, htake, hmore, hdone⟩ := balanceMoves_take thr ((depth deep : Int) - depth shallow) items
    unfold leftOver at hmore hdone
    rw [hsize] at hmore hdone
    exact ⟨m, hm, hpair.trans (congrArg (List.foldl (moveItem part deep shallow) h) htake), hmore, hdone⟩
  · intro h part deep shallow hne
    refine ⟨fun e hdeep hshallow => moveItem_entry hne hdeep hshallow e, fun w hmem hidx => moveItem_crew (hasPart_of_mem hmem hidx) hidx deep shallow w⟩

end Sys2Proof.Proofs

/-!
The events of launches: polling, dispatch, patches, auto-crews, starts and balancing (R307 to R319, R393 to R397).
-/
namespace Sys2Proof.Proofs
open Sys2Proof.Machine

/-! ### Wait words (R311) -/

theorem pollQueue_read {s u : State} {part q : Nat} {r bs : List Byte} (hhead : (s.hw.part part).head q = some r) (hwaddr : recWaddr r ≠ 0)
    (hread : systemRead s part (recWaddr r) 8 = .ok (bs, u)) : pollQueue s part q =
      if recWval r ≤ leNat bs then u.mapHw fun h => h.setPart ((u.hw.part part).setQueue q { (u.hw.part part).queue q with ready := true })
      else u := by
  unfold pollQueue
  rw [hhead]
  dsimp only
  rw [if_neg (mt beq_iff_eq.1 hwaddr), hread]

/-! ### Dispatch (R312, R313, R393, R394) -/

section
variable {s : State} {part q : Nat} {r : List Byte}

/-- A record that names a kernel's header in order and counts some threads (R308, R312). -/
def recordDispatches (part : Nat) (r : List Byte) : Bool := recOk part r && (recHdr r).toNat % 256 == 0 && decide (1 ≤ fld r 8 4)

theorem recordDispatches_iff : recordDispatches part r = true ↔ recOk part r = true ∧ (recHdr r).toNat % 256 = 0 ∧ 1 ≤ fld r 8 4 := by
  unfold recordDispatches
  rw [Bool.and_eq_true, Bool.and_eq_true, beq_iff_eq, decide_eq_true_iff, and_assoc]

/-- What a dispatch makes of a header that it has read. -/
def dispatchHeader (u : State) (part q ver : Nat) (r b : List Byte) : State :=
  if !headerOk b ver then refuse u part q r 1
  else if fld b 7 1 / 2 % 2 == 1 && fld b 7 1 % 2 == 0 then refuse u part q r 4
  else if lacksResources u.hw part (makeLaunch u.hw part r b) then refuse u part q r 2
  else u.setHw (addLaunch (popQueue u.hw part q) (makeLaunch u.hw part r b))

theorem apply_ite_next {c : Bool} {a b : State} : (if c then (.next a : Host.Outcome State Fault Refusal) else .next b) = .next (if c then a else b) := by
  cases c <;> rfl

section
variable (hchoose : chooseQueue s part = some q) (hhead : (s.hw.part part).head q = some r) (hkind : recKind r = 0)
include hchoose hhead hkind

theorem dispatch_refuses (hbad : recordDispatches part r = false) : exec (.dispatch part) s = .next (refuse s part q r 0) := by
  change execDispatch part s = _
  unfold recordDispatches at hbad
  unfold execDispatch
  rw [hchoose]
  dsimp only
  rw [hhead, Option.getD_some, hkind]
  simp only [hbad, Nat.reduceBEq, Bool.false_and, Bool.false_eq_true, if_false, Bool.not_false, if_true]

theorem dispatch_waitFaults (hok : recordDispatches part r = true) (hfaults : waitFaults s part r = true) :
    exec (.dispatch part) s = .next (refuse s part q r 3) := by
  change execDispatch part s = _
  unfold recordDispatches at hok
  unfold execDispatch
  rw [hchoose]
  dsimp only
  rw [hhead, Option.getD_some, hkind]
  simp only [hok, hfaults, Nat.reduceBEq, Bool.false_and, Bool.false_eq_true, if_false, Bool.not_true, if_true]

theorem dispatch_header {b : List Byte} {u : State} (hok : recordDispatches part r = true) (hfaults : waitFaults s part r = false)
    (hread : codeBytes s part (s.hw.part part).ver (recHdr r) 96 = .ok (b, none, u)) :
    exec (.dispatch part) s = .next (dispatchHeader u part q (s.hw.part part).ver r b) := by
  change execDispatch part s = _
  unfold recordDispatches at hok
  unfold execDispatch dispatchHeader
  rw [hchoose]
  dsimp only
  rw [hhead, Option.getD_some, hkind]
  simp only [hok, hfaults, hread, Nat.reduceBEq, Bool.false_and, Bool.false_eq_true, if_false, Bool.not_true, Option.isSome_none, Bool.false_or,
    apply_ite_next]

end

/-! ### Patches (R395 to R397) -/

section
variable (hchoose : chooseQueue s part = some q) (hhead : (s.hw.part part).head q = some r) (hkind : recKind r = 1) (hok : recOk part r = true)
include hchoose hhead hkind hok

theorem patchApply_waitFaults (hfaults : waitFaults s part r = true) : exec (.patchApply part q) s = .next (refuse s part q r 3) := by
  change execPatchApply part q s = _
  unfold execPatchApply
  dsimp only
  rw [hhead, Option.getD_some, hchoose, hkind, hok, hfaults]
  simp

theorem patchApply_refuses (hfaults : waitFaults s part r = false) (hbad : patchOk s part r = false) :
    exec (.patchApply part q) s = .next (refuse s part q r 0) := by
  change execPatchApply part q s = _
  unfold execPatchApply
  dsimp only
  rw [hhead, Option.getD_some, hchoose, hkind, hok, hfaults, hbad]
  simp

theorem patchApply_quiet (hfaults : waitFaults s part r = false) (hpatch : patchOk s part r = true) (hsig : recSig r = 0) :
    exec (.patchApply part q) s = .next (applyPatch s part q r) := by
  change execPatchApply part q s = _
  unfold execPatchApply
  dsimp only
  rw [hhead, Option.getD_some, hchoose, hkind, hok, hfaults, hpatch, hsig]
  simp

theorem patchApply_signals {u : State} (hfaults : waitFaults s part r = false) (hpatch : patchOk s part r = true) (hsig : recSig r ≠ 0)
    (hadd : signalAdd (applyPatch s part q r) part (recSig r) = .ok u) : exec (.patchApply part q) s = .next u := by
  change execPatchApply part q s = _
  have hbeq : (recSig r == 0) = false := beq_eq_false_iff_ne.2 hsig
  unfold execPatchApply
  dsimp only
  rw [hhead, Option.getD_some, hchoose, hkind, hok, hfaults, hpatch, hadd, hbeq]
  simp

end

end

/-! ### Auto-crews, starts and balancing (R315, R316, R319) -/

/-- Where an auto-crew can go now. -/
def placeOf (s : State) (part : Nat) (w : CrewWaiting) : Option (Launch × Nat × CrewWaiting) :=
  match s.hw.launch? part w.launch with
  | some l => (crewCore s l w.size).map fun c => (l, c, w)
  | none => none

theorem placeOf_eq_none {s : State} {part : Nat} {w : CrewWaiting} (h : ∀ l, s.hw.launch? part w.launch = some l → crewCore s l w.size = none) :
    placeOf s part w = none := by
  unfold placeOf
  split
  · next l hl =>
    rw [h l hl]
    rfl
  · rfl

theorem placeOf_eq_some {s : State} {part core : Nat} {w : CrewWaiting} {l : Launch} (hl : s.hw.launch? part w.launch = some l)
    (hcore : crewCore s l w.size = some core) : placeOf s part w = some (l, core, w) := by
  unfold placeOf
  rw [hl]
  dsimp only
  rw [hcore]
  rfl

theorem execCrewAssign_of_place {s : State} {part core : Nat} {w : CrewWaiting} {l : Launch}
    (h : (crewOrder s.hw part).findSome? (placeOf s part) = some (l, core, w)) : execCrewAssign part s = .next (assignCrew s l core w) := by
  have hexec : execCrewAssign part s = (match (crewOrder s.hw part).findSome? (placeOf s part) with
      | none => .next s
      | some (l, c, w) => .next (assignCrew s l c w)) := rfl
  rw [hexec, h]

theorem crewAssign_first {s : State} {part core : Nat} {pre post : List CrewWaiting} {w : CrewWaiting} {l : Launch}
    (horder : crewOrder s.hw part = pre ++ w :: post)
    (hpre : ∀ x ∈ pre, ∀ l', s.hw.launch? part x.launch = some l' → crewCore s l' x.size = none)
    (hl : s.hw.launch? part w.launch = some l) (hcore : crewCore s l w.size = some core) :
    exec (.crewAssign part) s = .next (assignCrew s l core w) := by
  refine execCrewAssign_of_place ?_
  have hnone : pre.findSome? (placeOf s part) = none := List.findSome?_eq_none_iff.2 fun x hx => placeOf_eq_none (hpre x hx)
  rw [horder, List.findSome?_append, hnone, Option.none_or, List.findSome?_cons, placeOf_eq_some hl hcore]

theorem threadStart_starts {s : State} {part core : Nat} {e : StartEntry} {l : Launch} (hruns : contextRuns s part core = true)
    (hnext : nextStart s part core = some e) (htrial : ∀ r, e.kind ≠ .trial r) (hl : s.hw.launch? part e.launch = some l) :
    exec (.threadStart part core) s = .next (startThread s part core l e) := by
  change execThreadStart part core s = _
  unfold execThreadStart
  rw [hruns, Bool.not_true, if_neg Bool.false_ne_true, hnext]
  dsimp only
  rw [hl]
  cases hkind : e.kind with
  | trial r => exact absurd hkind (htrial r)
  | _ => rfl

/-! ### A new thread (R11) -/

theorem newThread_sreg (l : Launch) (k : Key) (tid : Nat) (stk entry arg : DWord) {i : Nat} (hlo : 0 < i) (hhi : i < 30) :
    (newThread l k tid stk entry arg).sreg i = 0 := by
  have h32 : i < 32 := by omega
  rw [Thread.sreg, dif_pos h32]
  simp only [newThread]
  rw [Vector.getElem_set_ne _ _ (by omega), Vector.getElem_set_ne _ _ (by omega), Vector.getElem_set_ne _ _ (by omega), Vector.getElem_replicate]

theorem newThread_pred (l : Launch) (k : Key) (tid : Nat) (stk entry arg : DWord) {i : Nat} (hi : i < 7) :
    (newThread l k tid stk entry arg).pred i = false := by
  rw [Thread.pred, dif_pos hi]
  exact Vector.getElem_replicate hi

theorem initTile_eq (m : DecodeMode) : initTile m = if m = .z3 then 5 else 4 := by cases m <;> rfl

/-- Settles O51: the rules of queues, records, patches, placement, starts and balancing, and the events of launches. -/
theorem launchEvents : Obligations.LaunchEvents := by
  refine ⟨headRules, dispatchRules, recordLimits, patchRules, placesByR313, crewsByR316, startsByR11, balancesByR319, ?_⟩
  intro s part p
  refine ⟨?_, ?_, ?_, ?_, ?_, ?_, ?_, ?_⟩
  · intro q r bs u hhead hwaddr hread p'
    have hpoll : exec (.waitWordPoll part q) s = .next (pollQueue s part q) := rfl
    rw [pollQueue_read hhead hwaddr hread] at hpoll
    refine ⟨fun hle => ?_, fun hlt => ?_⟩
    · rw [if_pos hle] at hpoll
      exact hpoll
    · rw [if_neg (Nat.not_le.2 hlt)] at hpoll
      exact hpoll
  · intro q r hchoose hhead hkind
    refine ⟨fun hbad => ?_, fun hok hhdr hcount hfaults => ?_, ?_⟩
    · refine dispatch_refuses hchoose hhead hkind (Bool.eq_false_iff.2 fun h => ?_)
      obtain ⟨hok, hhdr, hcount⟩ := recordDispatches_iff.1 h
      rcases hbad with hno | hno | hno
      · rw [hok] at hno
        cases hno
      · exact hno hhdr
      · omega
    · exact dispatch_waitFaults hchoose hhead hkind (recordDispatches_iff.2 ⟨hok, hhdr, hcount⟩) hfaults
    · intro b u hok hhdr hcount hfaults hread l
      rw [dispatch_header hchoose hhead hkind (recordDispatches_iff.2 ⟨hok, hhdr, hcount⟩) hfaults hread]
      unfold dispatchHeader
      refine ⟨rfl, fun hbad => ?_, fun hgood hscan => ?_, fun hgood hscan => ⟨fun hlacks => ?_, fun hhas => ?_⟩⟩
      · simp only [p] at hbad
        simp only [hbad, Bool.not_false, if_true]
      · simp only [p] at hgood
        simp only [hgood, hscan, Bool.not_true, Bool.false_eq_true, if_false, beq_self_eq_true, Bool.and_self, if_true]
      · simp only [p] at hgood
        simp only [l] at hlacks
        simp only [hgood, hscan, hlacks, Bool.not_true, Bool.false_eq_true, if_false, Bool.and_eq_true, beq_iff_eq, if_true]
      · simp only [p] at hgood
        simp only [l] at hhas
        simp only [hgood, hscan, hhas, l, Bool.not_true, Bool.false_eq_true, if_false, Bool.and_eq_true, beq_iff_eq]
  · intro q r hchoose hhead hkind hok
    exact ⟨patchApply_waitFaults hchoose hhead hkind hok, patchApply_refuses hchoose hhead hkind hok, fun hfaults hpatch =>
      ⟨patchApply_quiet hchoose hhead hkind hok hfaults hpatch, fun u hsig hadd => patchApply_signals hchoose hhead hkind hok hfaults hpatch hsig hadd⟩⟩
  · intro pre w post l core horder hpre hl hcore
    exact crewAssign_first horder hpre hl hcore
  · intro core e l hruns hnext htrial hl
    exact threadStart_starts hruns hnext htrial hl
  · intro hactive hon
    have hen : (!p.balcfg[12] && p.active) = true := by rw [hactive, hon]; rfl
    exact congrArg Host.Outcome.next (if_pos hen)
  · intro hoff
    have hdis : (!p.balcfg[12] && p.active) = false := by rcases hoff with h | h <;> simp [h]
    exact congrArg Host.Outcome.next (if_neg (Bool.eq_false_iff.1 hdis))
  · intro l k tid stk entry arg t top
    refine ⟨rfl, rfl, rfl, rfl, fun i hlo hhi => newThread_sreg l k tid stk entry arg hlo hhi, fun i hi => newThread_pred l k tid stk entry arg hi, rfl, rfl,
      rfl, rfl, initTile_eq l.mode, rfl, rfl, rfl, rfl, rfl, rfl, rfl, rfl, rfl, rfl, rfl, rfl, rfl, rfl, rfl, rfl, rfl, rfl, rfl, rfl, rfl, rfl⟩

end Sys2Proof.Proofs
